-- ==== Sys2Proof/Word.lean ====
section
/-!
DEFINITION. The word types of the Sorpeith VX640: the widths the spec gives registers, elements and grade words.
-/

namespace Sys2Proof

/-- A byte of memory. -/
abbrev Byte := BitVec 8
/-- A 64-bit register, vector element or doubleword. -/
abbrev Word := BitVec 64
/-- An instruction word (R47). -/
abbrev InstrWord := BitVec 32
/-- A grade word (R31, Table 8-1). -/
abbrev Grade := BitVec 16

end Sys2Proof
end

