-- ==== Sys2Proof/Syntax.lean ====
section
/-!
DEFINITION. The instructions of the Sorpeith VX640: one constructor for each row of spec/opcode_table.json, in the
table's order. The first 279 rows are instruction words (03_encoding); the rows without an encoding are events:
things that an engine, the control die, the host link or another package does, each a step of its own (95_what_each_step_holds).
-/

namespace Sys2Proof

/-! ### Operand kinds of instruction words (Table 3-2) -/

/-- An integer register g0–g31. -/
abbrev GReg := Fin 32
/-- A scalar FP register f0–f15. -/
abbrev FReg := Fin 16
/-- A vector register v0–v47. -/
abbrev VReg := Fin 48
/-- A mask register m0–m11. -/
abbrev MReg := Fin 12
/-- A stream slot k0–k7. -/
abbrev Slot := Fin 8
/-- A declared level 0–15 (R66, R67). -/
abbrev Level := Fin 16
/-- A compute die 0–3 (R15). -/
abbrev DieNo := Fin 4

/-- Integer element widths `.b .h .w .l` (Table 3-4). -/
inductive IntW | b | h | w | l
  deriving DecidableEq, Repr

/-- FP formats of VF, VG and the FP half of the 3-bit type code (Table 3-4). -/
inductive FpF | f64 | f32 | bf16 | f16
  deriving DecidableEq, Repr

/-- Width bit of FPR, FMA, fld and fst: 0 `.f64`, 1 `.f32` (R57). -/
inductive ScF | f64 | f32
  deriving DecidableEq, Repr

/-- Width bit of VCARRY: 0 `.l`, 1 `.w` (Table 3-8). -/
inductive CarryW | l | w
  deriving DecidableEq, Repr

/-- The 3-bit type code of VMEM, PERM and COLL: 0–3 integer, 4–7 FP (Table 3-4). -/
inductive ElTy
  | int (wd : IntW)
  | fp (f : FpF)
  deriving DecidableEq, Repr

/-- The CVT codes 0–13 of Table 3-4; code 14, SB4, makes the instruction vquant or vdequant (R64). -/
inductive CvTy | i8 | i16 | i32 | i64 | u8 | u16 | u32 | u64 | f64 | f32 | bf16 | f16 | e4m3 | e5m2
  deriving DecidableEq, Repr

/-- RND of CVT (Table 3-14): 0 RNE, 1 RTZ, 2 RDN, 3 RUP, 4 stochastic, 5 dynamic. -/
inductive Rnd | rne | rtz | rdn | rup | stoch | dyn
  deriving DecidableEq, Repr

/-- MX format codes 0–6 (Table 3-4). -/
inductive MxF | bf16 | e4m3 | e5m2 | int8 | sb4 | fp32 | fp64
  deriving DecidableEq, Repr

/-- OPR of the reductions of COLL (Table 3-18). -/
inductive ColOp | sum | min | max | and | or | xor
  deriving DecidableEq, Repr

/-- Field b of `vsplit`: 1 for n = 2, 2 for n = 4 (Table 3-17). -/
inductive SplitN | two | four
  deriving DecidableEq, Repr

/-- Field b of a VI instruction: a vector register, or an integer register when the scalar bit is 1 (R58). -/
inductive VISrc
  | vec (v : VReg)
  | sca (g : GReg)
  deriving DecidableEq, Repr

/-- Field b of a VF instruction: a vector register, or a scalar FP register when the scalar bit is 1 (R59). -/
inductive VFSrc
  | vec (v : VReg)
  | sca (f : FReg)
  deriving DecidableEq, Repr

/-- Type and destination of vrsum, vrmin and vrmax: gd for an integer type, fd for an FP type (R63). -/
inductive RedDst
  | int (wd : IntW) (d : GReg)
  | fp (f : FpF) (d : FReg)
  deriving DecidableEq, Repr

/-- The control registers of Table 2-2, in the order of their numbers. -/
inductive CReg | vl | vms | vstr | vei | gth | fcr | fflags | fxr | srs | sid | mxo
  deriving DecidableEq, Repr

/-- The system registers of Table 26-2. -/
inductive SReg
  | tvec | tpc | tcause | tval | telem | tqpos | tstat | tres | tscr0 | tscr1
  | diecfg (d : DieNo) | hbmsplit | duty
  deriving DecidableEq, Repr

/-- The counters of Table 13-6, in the order of their numbers. -/
inductive Counter | cyc | reql | reqr | reqf | reqe | hopw | bconf | bmiss | hints | hintu | pwrhold | tlbm
  deriving DecidableEq, Repr

/-! ### Operands of events -/

/-- An element of an arriving train (R331): remote address, length in bytes, data, grade word of an FP element, and for a
scatter-add its type code and FCR (assumption log 23), with the trap enables and the threshold under which its sum is stored
(assumption log 31). -/
structure TrainElem where
  addr : Nat
  len : Nat
  val : Nat
  grade : Option Grade
  ty : Nat
  fcr : BitVec 10
  ctl : Nat
  deriving DecidableEq, Repr

/-- The generation of a contribution (R322), and the remap generation that its train carries (R331). -/
structure ColGen where
  gen : Nat
  rgen : Nat
  deriving DecidableEq, Repr

/-- What NEWGEN brings (R442): the MIDs of the generation, and the forms and sequence counts of the collectives of the one before that
had committed when the home sent it (R443). -/
structure NewMembers where
  mids : List Nat
  committed : List (Nat × Nat)
  deriving DecidableEq, Repr

/-- One constructor per row of spec/opcode_table.json. Field names follow the table. -/
inductive Instr
  | add (d : GReg) (a : GReg) (b : GReg)
  | sub (d : GReg) (a : GReg) (b : GReg)
  | and (d : GReg) (a : GReg) (b : GReg)
  | or (d : GReg) (a : GReg) (b : GReg)
  | xor (d : GReg) (a : GReg) (b : GReg)
  | sll (d : GReg) (a : GReg) (b : GReg)
  | srl (d : GReg) (a : GReg) (b : GReg)
  | sra (d : GReg) (a : GReg) (b : GReg)
  | slt (d : GReg) (a : GReg) (b : GReg)
  | sltu (d : GReg) (a : GReg) (b : GReg)
  | min (d : GReg) (a : GReg) (b : GReg)
  | max (d : GReg) (a : GReg) (b : GReg)
  | minu (d : GReg) (a : GReg) (b : GReg)
  | maxu (d : GReg) (a : GReg) (b : GReg)
  | mul (d : GReg) (a : GReg) (b : GReg)
  | mulh (d : GReg) (a : GReg) (b : GReg)
  | mulhu (d : GReg) (a : GReg) (b : GReg)
  | div (d : GReg) (a : GReg) (b : GReg)
  | divu (d : GReg) (a : GReg) (b : GReg)
  | rem (d : GReg) (a : GReg) (b : GReg)
  | remu (d : GReg) (a : GReg) (b : GReg)
  | clz (d : GReg) (a : GReg)
  | popc (d : GReg) (a : GReg)
  | slli (d : GReg) (a : GReg) (n : BitVec 6)
  | srli (d : GReg) (a : GReg) (n : BitVec 6)
  | srai (d : GReg) (a : GReg) (n : BitVec 6)
  | addi (d : GReg) (a : GReg) (i : BitVec 14)
  | andi (d : GReg) (a : GReg) (i : BitVec 14)
  | ori (d : GReg) (a : GReg) (i : BitVec 14)
  | xori (d : GReg) (a : GReg) (i : BitVec 14)
  | slti (d : GReg) (a : GReg) (i : BitVec 14)
  | sltiu (d : GReg) (a : GReg) (i : BitVec 14)
  | lhi (d : GReg) (i : BitVec 20)
  | adpc (d : GReg) (i : BitVec 20)
  | ldB (d : GReg) (a : GReg) (i : BitVec 14)
  | ldBu (d : GReg) (a : GReg) (i : BitVec 14)
  | ldH (d : GReg) (a : GReg) (i : BitVec 14)
  | ldHu (d : GReg) (a : GReg) (i : BitVec 14)
  | ldW (d : GReg) (a : GReg) (i : BitVec 14)
  | ldWu (d : GReg) (a : GReg) (i : BitVec 14)
  | ldL (d : GReg) (a : GReg) (i : BitVec 14)
  | stB (s : GReg) (a : GReg) (i : BitVec 14)
  | stH (s : GReg) (a : GReg) (i : BitVec 14)
  | stW (s : GReg) (a : GReg) (i : BitVec 14)
  | stL (s : GReg) (a : GReg) (i : BitVec 14)
  | fld (wd : ScF) (f : FReg) (a : GReg) (i : BitVec 14)
  | fst (wd : ScF) (f : FReg) (a : GReg) (i : BitVec 14)
  | fadd (d : FReg) (a : FReg) (b : FReg) (wd : ScF)
  | fsub (d : FReg) (a : FReg) (b : FReg) (wd : ScF)
  | fmul (d : FReg) (a : FReg) (b : FReg) (wd : ScF)
  | fdiv (d : FReg) (a : FReg) (b : FReg) (wd : ScF)
  | fsqrt (d : FReg) (a : FReg) (wd : ScF)
  | fmin (d : FReg) (a : FReg) (b : FReg) (wd : ScF)
  | fmax (d : FReg) (a : FReg) (b : FReg) (wd : ScF)
  | feq (d : GReg) (a : FReg) (b : FReg) (wd : ScF)
  | flt (d : GReg) (a : FReg) (b : FReg) (wd : ScF)
  | fle (d : GReg) (a : FReg) (b : FReg) (wd : ScF)
  | fcvtFmtWidth (d : FReg) (a : FReg) (wd : ScF)
  | fcvtFmtL (d : FReg) (a : GReg) (wd : ScF)
  | fcvtLFmt (d : GReg) (a : FReg) (wd : ScF)
  | fgrd (d : GReg) (a : FReg) (wd : ScF)
  | fgset (d : FReg) (a : GReg) (wd : ScF)
  | fmvFmtG (d : FReg) (a : GReg) (wd : ScF)
  | fmvGFmt (d : GReg) (a : FReg) (wd : ScF)
  | fmadd (d : FReg) (a : FReg) (b : FReg) (c : FReg) (wd : ScF)
  | fmsub (d : FReg) (a : FReg) (b : FReg) (c : FReg) (wd : ScF)
  | beq (a : GReg) (b : GReg) (o : BitVec 14)
  | bne (a : GReg) (b : GReg) (o : BitVec 14)
  | blt (a : GReg) (b : GReg) (o : BitVec 14)
  | bge (a : GReg) (b : GReg) (o : BitVec 14)
  | bltu (a : GReg) (b : GReg) (o : BitVec 14)
  | bgeu (a : GReg) (b : GReg) (o : BitVec 14)
  | bmz (a : MReg) (o : BitVec 14)
  | bmnz (a : MReg) (o : BitVec 14)
  | bmall (a : MReg) (o : BitVec 14)
  | jmp (o : BitVec 26)
  | jal (o : BitVec 26)
  | jr (d : GReg) (a : GReg) (i : BitVec 14)
  | vins (d : VReg) (a : GReg) (b : GReg)
  | vext (d : GReg) (a : VReg) (b : GReg)
  | vfins (d : VReg) (a : FReg) (b : GReg)
  | vfext (d : FReg) (a : VReg) (b : GReg)
  | vadd (d : VReg) (a : VReg) (b : VISrc) (wd : IntW)
  | vsub (d : VReg) (a : VReg) (b : VISrc) (wd : IntW)
  | vmul (d : VReg) (a : VReg) (b : VISrc) (wd : IntW)
  | vmulh (d : VReg) (a : VReg) (b : VISrc) (wd : IntW)
  | vmulhu (d : VReg) (a : VReg) (b : VISrc) (wd : IntW)
  | vmin (d : VReg) (a : VReg) (b : VISrc) (wd : IntW)
  | vmax (d : VReg) (a : VReg) (b : VISrc) (wd : IntW)
  | vminu (d : VReg) (a : VReg) (b : VISrc) (wd : IntW)
  | vmaxu (d : VReg) (a : VReg) (b : VISrc) (wd : IntW)
  | vand (d : VReg) (a : VReg) (b : VISrc) (wd : IntW)
  | vor (d : VReg) (a : VReg) (b : VISrc) (wd : IntW)
  | vxor (d : VReg) (a : VReg) (b : VISrc) (wd : IntW)
  | vsll (d : VReg) (a : VReg) (b : VISrc) (wd : IntW)
  | vsrl (d : VReg) (a : VReg) (b : VISrc) (wd : IntW)
  | vsra (d : VReg) (a : VReg) (b : VISrc) (wd : IntW)
  | vsadd (d : VReg) (a : VReg) (b : VISrc) (wd : IntW)
  | vsaddu (d : VReg) (a : VReg) (b : VISrc) (wd : IntW)
  | vssub (d : VReg) (a : VReg) (b : VISrc) (wd : IntW)
  | vssubu (d : VReg) (a : VReg) (b : VISrc) (wd : IntW)
  | vmv (d : VReg) (b : VISrc) (wd : IntW)
  | vseq (d : MReg) (a : VReg) (b : VISrc) (wd : IntW)
  | vsne (d : MReg) (a : VReg) (b : VISrc) (wd : IntW)
  | vslt (d : MReg) (a : VReg) (b : VISrc) (wd : IntW)
  | vsltu (d : MReg) (a : VReg) (b : VISrc) (wd : IntW)
  | vsle (d : MReg) (a : VReg) (b : VISrc) (wd : IntW)
  | vsleu (d : MReg) (a : VReg) (b : VISrc) (wd : IntW)
  | vadc (d : VReg) (a : VReg) (b : VReg) (c : MReg) (wd : CarryW)
  | vsbc (d : VReg) (a : VReg) (b : VReg) (c : MReg) (wd : CarryW)
  | vfadd (d : VReg) (a : VReg) (b : VFSrc) (f : FpF)
  | vfsub (d : VReg) (a : VReg) (b : VFSrc) (f : FpF)
  | vfmul (d : VReg) (a : VReg) (b : VFSrc) (f : FpF)
  | vfdiv (d : VReg) (a : VReg) (b : VFSrc) (f : FpF)
  | vfsqrt (d : VReg) (a : VReg) (f : FpF)
  | vfmin (d : VReg) (a : VReg) (b : VFSrc) (f : FpF)
  | vfmax (d : VReg) (a : VReg) (b : VFSrc) (f : FpF)
  | vfmadd (d : VReg) (a : VReg) (b : VFSrc) (f : FpF)
  | vfmsub (d : VReg) (a : VReg) (b : VFSrc) (f : FpF)
  | vfnmadd (d : VReg) (a : VReg) (b : VFSrc) (f : FpF)
  | vfnmsub (d : VReg) (a : VReg) (b : VFSrc) (f : FpF)
  | vfabs (d : VReg) (a : VReg) (f : FpF)
  | vfneg (d : VReg) (a : VReg) (f : FpF)
  | vfsgn (d : VReg) (a : VReg) (b : VFSrc) (f : FpF)
  | vfsgnn (d : VReg) (a : VReg) (b : VFSrc) (f : FpF)
  | vfsgnx (d : VReg) (a : VReg) (b : VFSrc) (f : FpF)
  | vfclass (d : VReg) (a : VReg) (f : FpF)
  | vfeq (d : MReg) (a : VReg) (b : VFSrc) (f : FpF)
  | vfne (d : MReg) (a : VReg) (b : VFSrc) (f : FpF)
  | vflt (d : MReg) (a : VReg) (b : VFSrc) (f : FpF)
  | vfle (d : MReg) (a : VReg) (b : VFSrc) (f : FpF)
  | vfun (d : MReg) (a : VReg) (b : VFSrc) (f : FpF)
  | vgrd (d : VReg) (a : VReg) (f : FpF)
  | vgwr (d : VReg) (a : VReg) (f : FpF)
  | vgset (d : VReg) (a : GReg) (f : FpF)
  | vglt (d : MReg) (a : VReg) (b : GReg) (f : FpF)
  | vgmin (d : GReg) (a : VReg) (f : FpF)
  | vgfull (d : VReg) (f : FpF)
  | vld (d : VReg) (a : GReg) (t : ElTy)
  | vst (s : VReg) (a : GReg) (t : ElTy)
  | vlds (d : VReg) (a : GReg) (t : ElTy)
  | vsts (s : VReg) (a : GReg) (t : ElTy)
  | vldx (d : VReg) (a : GReg) (b : VReg) (t : ElTy)
  | vstx (s : VReg) (a : GReg) (b : VReg) (t : ElTy)
  | vstxa (s : VReg) (a : GReg) (b : VReg) (t : ElTy)
  | vldLn (d : VReg) (b : VReg) (t : ElTy)
  | vstLn (s : VReg) (b : VReg) (t : ElTy)
  | vldb (d : VReg) (a : GReg) (t : ElTy)
  | vldG (d : VReg) (a : GReg) (t : FpF)
  | vstG (s : VReg) (a : GReg) (t : FpF)
  | sbind (d : VReg) (a : GReg) (b : Slot) (t : ElTy)
  | sfree (b : Slot)
  | sskip (a : GReg) (b : Slot)
  | sstat (d : GReg) (b : Slot)
  | vpre (a : GReg)
  | mand (d : MReg) (a : MReg) (b : MReg)
  | mor (d : MReg) (a : MReg) (b : MReg)
  | mxor (d : MReg) (a : MReg) (b : MReg)
  | mandn (d : MReg) (a : MReg) (b : MReg)
  | mnot (d : MReg) (a : MReg)
  | mshl (d : MReg) (a : MReg) (b : GReg)
  | mshr (d : MReg) (a : MReg) (b : GReg)
  | mpop (d : GReg) (a : MReg)
  | mfirst (d : GReg) (a : MReg)
  | mset (d : MReg)
  | mclr (d : MReg)
  | mfrom (d : MReg) (a : VReg)
  | vslup (d : VReg) (a : VReg) (b : GReg) (t : ElTy)
  | vsldn (d : VReg) (a : VReg) (b : GReg) (t : ElTy)
  | vpack (d : VReg) (a : VReg) (t : ElTy)
  | vunpk (d : VReg) (a : VReg) (t : ElTy)
  | vperm (d : VReg) (a : VReg) (b : VReg) (t : ElTy)
  | vconfl (d : VReg) (a : VReg) (t : IntW)
  | vrsum (r : RedDst) (a : VReg)
  | vrosum (d : FReg) (a : VReg) (t : FpF)
  | vrmin (r : RedDst) (a : VReg)
  | vrmax (r : RedDst) (a : VReg)
  | vrand (d : GReg) (a : VReg) (t : IntW)
  | vrior (d : GReg) (a : VReg) (t : IntW)
  | vrosat (d : GReg) (a : VReg) (t : IntW)
  | vscan (d : VReg) (a : VReg) (t : ElTy)
  | vlrec (d : VReg) (a : VReg) (b : VReg) (t : FpF)
  | vsel (d : VReg) (a : VReg) (b : VReg) (t : ElTy)
  | vcvt (d : VReg) (a : VReg) (s : CvTy) (t : CvTy) (r : Rnd) (x : Bool)
  | vquant (d : VReg) (a : VReg) (s : FpF) (r : Rnd)
  | vdequant (d : VReg) (a : VReg) (t : FpF) (r : Rnd) (x : Bool)
  | mxLdw (a : GReg) (b : GReg) (f : MxF)
  | mxLdwg (a : GReg) (b : VReg) (f : MxF)
  | mxSwap
  | mxStep (t : Fin 4) (a : VReg) (b : FReg) (f : MxF)
  | mxStepz (t : Fin 4) (a : VReg) (b : FReg) (f : MxF)
  | mxSteps (t : Fin 4) (a : VReg) (b : FReg) (f : MxF)
  | mxZero (t : Fin 4)
  | mxRd (d : VReg) (t : Fin 4) (b : GReg)
  | mxWr (t : Fin 4) (a : VReg) (b : GReg)
  | mxSt (t : Fin 4) (a : GReg) (b : GReg)
  | mxCfg (a : GReg)
  | mxSkip (t : Fin 4) (a : FReg)
  | mxGrant (a : GReg)
  | mxRet
  | amoAddW (d : GReg) (a : GReg) (b : GReg) (l : Level)
  | amoAddL (d : GReg) (a : GReg) (b : GReg) (l : Level)
  | amoMinL (d : GReg) (a : GReg) (b : GReg) (l : Level)
  | amoMaxL (d : GReg) (a : GReg) (b : GReg) (l : Level)
  | amoMinuL (d : GReg) (a : GReg) (b : GReg) (l : Level)
  | amoMaxuL (d : GReg) (a : GReg) (b : GReg) (l : Level)
  | amoAndL (d : GReg) (a : GReg) (b : GReg) (l : Level)
  | amoOrL (d : GReg) (a : GReg) (b : GReg) (l : Level)
  | amoXorL (d : GReg) (a : GReg) (b : GReg) (l : Level)
  | amoSwapW (d : GReg) (a : GReg) (b : GReg) (l : Level)
  | amoSwapL (d : GReg) (a : GReg) (b : GReg) (l : Level)
  | amoCasW (d : GReg) (a : GReg) (b : GReg) (l : Level)
  | amoCasL (d : GReg) (a : GReg) (b : GReg) (l : Level)
  | amoFaddF32 (d : GReg) (a : GReg) (b : GReg) (l : Level)
  | amoFaddF64 (d : GReg) (a : GReg) (b : GReg) (l : Level)
  | vamoAddW (d : VReg) (a : GReg) (b : VReg) (l : Level)
  | vamoAddL (d : VReg) (a : GReg) (b : VReg) (l : Level)
  | vamoMinL (d : VReg) (a : GReg) (b : VReg) (l : Level)
  | vamoMaxL (d : VReg) (a : GReg) (b : VReg) (l : Level)
  | vamoMinuL (d : VReg) (a : GReg) (b : VReg) (l : Level)
  | vamoMaxuL (d : VReg) (a : GReg) (b : VReg) (l : Level)
  | vamoAndL (d : VReg) (a : GReg) (b : VReg) (l : Level)
  | vamoOrL (d : VReg) (a : GReg) (b : VReg) (l : Level)
  | vamoXorL (d : VReg) (a : GReg) (b : VReg) (l : Level)
  | vamoSwapW (d : VReg) (a : GReg) (b : VReg) (l : Level)
  | vamoSwapL (d : VReg) (a : GReg) (b : VReg) (l : Level)
  | vamoFaddF32 (d : VReg) (a : GReg) (b : VReg) (l : Level)
  | vamoFaddF64 (d : VReg) (a : GReg) (b : VReg) (l : Level)
  | fence (l : Level)
  | fenceAcq (l : Level)
  | fenceRel (l : Level)
  | ldAcqW (d : GReg) (a : GReg) (l : Level)
  | ldAcqL (d : GReg) (a : GReg) (l : Level)
  | stRelW (s : GReg) (a : GReg) (l : Level)
  | stRelL (s : GReg) (a : GReg) (l : Level)
  | vldAcqL (d : VReg) (a : GReg) (l : Level)
  | vldAcqF64 (d : VReg) (a : GReg) (l : Level)
  | vstRelL (s : VReg) (a : GReg) (l : Level)
  | vstRelF64 (s : VReg) (a : GReg) (l : Level)
  | tlAcq
  | vsync
  | bar (d : GReg) (l : Level)
  | claim (d : GReg) (a : GReg) (b : GReg)
  | vsplit (n : SplitN)
  | vmerge
  | swait
  | swake (a : GReg)
  | hq (d : GReg) (a : GReg) (l : Level)
  | sdone
  | syield
  | rplCap (n : BitVec 6)
  | rplRun (a : GReg)
  | engPush (a : GReg) (e : Fin 8)
  | engPop (d : GReg) (a : GReg) (e : Fin 8)
  | engPoll (d : GReg) (e : Fin 8)
  | engDrain (e : Fin 8)
  | colRed (d : VReg) (a : VReg) (q : Fin 8) (r : ColOp) (t : ElTy) (k : Bool)
  | colAred (d : VReg) (a : VReg) (q : Fin 8) (r : ColOp) (t : ElTy) (k : Bool)
  | colGat (d : VReg) (a : VReg) (q : Fin 8) (t : ElTy)
  | colAgat (d : VReg) (a : VReg) (q : Fin 8) (t : ElTy)
  | colSct (d : VReg) (a : VReg) (q : Fin 8) (t : ElTy)
  | colA2a (d : VReg) (a : VReg) (q : Fin 8) (t : ElTy)
  | grpJoin (d : GReg) (a : GReg) (q : Fin 8)
  | grpLeave (d : GReg) (q : Fin 8)
  | grpInfo (d : GReg) (a : GReg) (q : Fin 8)
  | grpLoad (d : GReg) (a : GReg) (q : Fin 8)
  | crd (d : GReg) (s : CReg)
  | cwr (a : GReg) (s : CReg)
  | srd (d : GReg) (s : SReg)
  | swr (a : GReg) (s : SReg)
  | cntRd (d : GReg) (c : Counter) (i : BitVec 6)
  | sys
  | trap (a : GReg)
  | tret
  | brk
  | wait
  | drd (d : GReg) (a : GReg)
  | svc (a : GReg)
  | logApp (a : GReg)
  /-- WAIT_TIMEOUT (R426). 4,096 cycles have passed since the strand's `wait` issued. -/
  | waitTimeout (sn : Nat)
  /-- SWAP_EFFECT (R217). The exchange of the planes that a retired `mx.swap` asked for takes effect on the core. -/
  | swapEffect (core : Nat)
  /-- COPY (R290). The copy engine performs the COPY command at the head of its rotation. -/
  | copy (die eng : Nat)
  /-- PLANE_LOAD (R291). The same for a COPY command with PLANE = 1. -/
  | planeLoad (die eng : Nat)
  /-- FOLLOW_ON (R292). The follow-on due on the core reaches its array. -/
  | followOn (core : Nat)
  /-- CONVERT (R293). As COPY, for a CONVERT command. -/
  | convert (die eng : Nat)
  /-- COMPACT (R294). As COPY, for a COMPACT command. -/
  | compact (die eng : Nat)
  /-- REMAP (R295). As COPY, for a REMAP command. -/
  | remap (die eng : Nat)
  /-- MXFP4 (R296). As COPY, for an MXFP4 command. -/
  | mxfp4 (die eng : Nat)
  /-- COLOUR (R298). The section's colouring unit performs its next command. -/
  | colour (sect : Nat)
  /-- TOPO_CREATE (R304). The die's topology engine performs CREATE. -/
  | topoCreate (die : Nat)
  /-- ADAPT (R307). The same for ADAPT. -/
  | adapt (die : Nat)
  /-- EXPORT (R313). The same for EXPORT. -/
  | topoExport (die : Nat)
  /-- HOLD (R316). The same for HOLD. -/
  | hold (die : Nat)
  /-- DROP (R316). The same for DROP. -/
  | drop (die : Nat)
  /-- PARTITION (R317). The same for PARTITION. -/
  | partition (die : Nat)
  /-- TOPO_DESTROY (R316). The same for DESTROY. -/
  | topoDestroy (die : Nat)
  /-- COLL_CREATE (R332). The die's collective engine performs CREATE. What the other packages' control dies answer: whether the GID is in use there, which of the MIDs there are no live strands of the region, and how many groups of the region have no member here. -/
  | collCreate (die : Nat) (taken : Bool) (bad : List Nat) (elsewhere : Nat)
  /-- COLL_DESTROY (R332). The same for DESTROY. -/
  | collDestroy (die : Nat)
  /-- MEMCOLL (R332). The same for MEMCOLL. -/
  | memcoll (die : Nat)
  /-- FLUSH (R440). The die's save engine performs FLUSH. -/
  | flush (die : Nat)
  /-- QUERY (R440). The same for QUERY. -/
  | query (die : Nat)
  /-- PAGE_WALK (R398). A walker translates an address for the strand and fills the caches. -/
  | pageWalk (sn va : Nat)
  /-- HOST_WALK_REPLY (R410). The host returns the leaf of a page, in host-assisted walking. -/
  | hostWalkReply (region page : Nat) (leaf : Word) (large : Bool)
  /-- LOG_APPLY (R406). The die's applier applies the oldest record of its log. -/
  | logApply (die : Nat)
  /-- ROW_ACTIVATE_HINT (R250). The gather-scatter unit sends the hints of one entry of the strand's replay body. -/
  | rowActivateHint (sn entry : Nat)
  /-- HINT_ROW_CLOSE (R250). A row that a hint opened is closed again. -/
  | hintRowClose (core row : Nat)
  /-- ELEMENT_TRAIN (R269). A train arrives from another package. -/
  | elementTrain (src tag kind drid rgen : Nat) (elems : List TrainElem)
  /-- TRAIN_ACK (R269). The acknowledgement of a train of this package, with the places of its refused elements. -/
  | trainAck (tag count : Nat) (refused : List Nat)
  /-- CONTRIBUTION (R322). A contribution to a collective arrives from another package. -/
  | contribution (gid : Nat) (gen : ColGen) (form seq rank : Nat) (a b : Word) (elems : List (Word × Grade)) (idx : List Nat)
  /-- COLLECTIVE_COMPLETE (R333). The engine forming the root commits a collective that holds every contribution; at another package,
  its notice of that arrives. -/
  | collectiveComplete (gid gen form seq : Nat)
  /-- BARRIER_COMPLETE (R378). The next episode of a house instance completes, if every live strand has arrived. From the other packages: arrivals, live strands that have not arrived, and withdrawals. -/
  | barrierComplete (lid inst arrived missing : Nat) (wd newwd : Bool)
  /-- MEMBERSHIP_REQUEST (R442). A join (0), leave (1) or withdrawal (2) reaches the group's home, kind 3 is the home's refusal of a join. The word `who` holds the strand's MID in bits [25:0] and the DRID of its region in bits [41:26]. -/
  | membershipRequest (gid kind who : Nat)
  /-- NEWGEN (R443). The home sends NEWGEN for the formation it holds; at another package, NEWGEN arrives with the record given. -/
  | newgen (gid region gen root k : Nat) (members : NewMembers)
  /-- NEWGEN_ACK (R442). A package's control die acknowledges NEWGEN to the home. -/
  | newgenAck (gid gen pkg : Nat)
  /-- NEWGEN_TIMEOUT (R444). A package has not acknowledged NEWGEN within 1 ms. -/
  | newgenTimeout (gid pkg : Nat)
  /-- HOST_MEMBER_LIST (R442). The host returns the member list of a formation. -/
  | hostMemberList (gid : Nat) (members : List Nat)
  /-- LAUNCH (R348). The binder takes the oldest launch of the function. -/
  | launch (fn : Nat)
  /-- HOST_PLACEMENT (R354). The host returns the unit of every house instance of that launch, in pre-order. -/
  | hostPlacement (fn : Nat) (units : List Nat)
  /-- HOUSE_FAULT (R357). The binder handles the oldest house fault of the launch. -/
  | houseFault (lid : Nat)
  /-- SEAT_DECISION (R363). The scheduler fills a free seat. -/
  | seatDecision (core slot : Nat)
  /-- QUANTUM_EXPIRY (R364). The strand's quantum has passed while a candidate waits. -/
  | quantumExpiry (sn : Nat)
  /-- PRIORITY_AGING (R362). The scheduling priority of a READY strand rises. -/
  | priorityAging (sn : Nat)
  /-- PARK (R361). The strand has waited 256 cycles and is parked. -/
  | park (sn : Nat)
  /-- UNPARK (R361). The wait of a parked strand could complete. -/
  | unpark (sn : Nat)
  /-- PREEMPTION (R430). The strand stops and its vector queue has drained, or has ended its drain. -/
  | preemption (sn : Nat)
  /-- PREEMPT_QUIESCE (R430). Every access of the strand has been performed. -/
  | preemptQuiesce (sn : Nat)
  /-- SAVE (R437). The save engine writes the strand's image into the shadow store. -/
  | save (sn : Nat)
  /-- IMAGE_COPY (R437). The control die copies the image to its frame; the copy may fail. -/
  | imageCopy (sn : Nat) (ok : Bool)
  /-- RESTORE (R438). The image of a strand that was given a seat is restored. -/
  | restore (sn : Nat)
  /-- TRAP_ENTRY (R417). The PREEMPT notification is delivered. -/
  | trapEntry (sn : Nat)
  /-- POWER_SAMPLE (R27). The power controller samples the module's power, in watts; where the limits ask for issue holds, the cores
  whose matrix issue and whose vector issue it holds. -/
  | powerSample (watts : Nat) (mx vec : List Nat)
  /-- THERMAL_STOP (R466). A junction of the die reaches 110 degrees. -/
  | thermalStop (die : Nat)
  /-- LINK_FAILURE (R447). A die-to-die link fails. -/
  | linkFailure (link : Nat)
  /-- DIE_CUTOFF (R448). The control die cuts a die off. -/
  | dieCutoff (die : Nat)
  /-- SCRUB_PASS (R451). Hardware scrub passes over lines of a stack; a row repair may use its last repair row. -/
  | scrubPass (die stk first count : Nat) (worn : Bool)
  /-- HEARTBEAT (R452). A base-die core writes its heartbeat. -/
  | heartbeat (die stk : Nat)
  /-- BASE_DIE_CORE_FAILED (R452). No heartbeat has been seen for 250 µs. -/
  | baseDieCoreFailed (die stk : Nat)
  /-- REFRESH_TAKEOVER (R452). The control die drives the refresh rate of the stack. -/
  | refreshTakeover (die stk : Nat)
  /-- REFRESH_DOUBLE (R452). The stack reads a temperature. -/
  | refreshDouble (die stk temp : Nat)
  /-- REMAP_COMMIT_REPLY (R446). A package replies to PREPARE (1) or COMMIT (2). -/
  | remapCommitReply (pkg handle gen ph : Nat)
  /-- PARTITION_ENTRY_WRITE (R396). The physical function writes a doubleword of a partition entry. -/
  | partitionEntryWrite (n dw : Nat) (data : Word)
  /-- REGION_RECORD_WRITE (R397). A function writes a doubleword of a region record. -/
  | regionRecordWrite (fn r dw : Nat) (data : Word)
  /-- SAVE_AREA_WRITE (R436). The physical function writes a doubleword of a save-area entry. -/
  | saveAreaWrite (n dw : Nat) (data : Word)
  /-- DUTY_WRITE (R410). The physical function writes DUTY. -/
  | dutyWrite (data : Word)
  /-- DUTY_ACT_UPDATE (R410). A function has finished its operations and takes its new mode. -/
  | dutyActUpdate (fnbit : Nat)
  /-- REGISTER_WRITE (R6). The host writes bytes of a function's BAR window. -/
  | registerWrite (fn bar off len data : Nat)
  /-- QUOTE (R413). The function's oldest mailbox request, when it is a QUOTE. -/
  | quote (fn : Nat)
  /-- CERT (R463). The same for CERT. -/
  | cert (fn : Nat)
  /-- STAGE (R441). The same for STAGE. -/
  | stage (fn : Nat)
  /-- SWAP (R441). The same for SWAP. -/
  | swap (fn : Nat)
  /-- PREPARE (R446). The same for PREPARE; or PREPARE arrives from another package: package, handle, generation, PID, PORTS. -/
  | prepare (fn : Nat) (fabric : Option (Nat × Nat × Nat × Nat × Nat))
  /-- COMMIT (R446). The same for COMMIT; or COMMIT arrives from another package: package, handle, generation. -/
  | commit (fn : Nat) (fabric : Option (Nat × Nat × Nat))
  /-- SCRUB (R451). The same for SCRUB. -/
  | scrub (fn : Nat)
  /-- LOGAPP (R405). The same for LOGAPP. -/
  | logapp (fn : Nat)
  /-- POWER_UP (R464). Power good and self-test: DIECFG0–3 and the dies that failed. -/
  | powerUp (cfg : List Word) (failed : Nat)
  /-- FWGO (R464). The host writes FWGO. -/
  | fwgo (len : Word)
  /-- FIRMWARE_BOOT (R464). The ROM verifies the image; firmware, if it passes, measures the base-die firmware, sets SHARE and reports READY. -/
  | firmwareBoot (share : Nat) (base : BitVec 512)
  /-- LINK_RESET (R465). A link reset or a function-level reset of the physical function. -/
  | linkReset
  /-- VF_FLR (R465). A function-level reset of a virtual function. -/
  | vfFlr (n : Nat)
  /-- ILLEGAL_INSTRUCTION (R52). The strand's next word decodes to no instruction. -/
  | illegalInstruction (w : InstrWord)
  /-- INSTRUCTION_FETCH_FAULT (R96). The strand's next word cannot be fetched. -/
  | instructionFetchFault (code : Nat) (va : Word)
  /-- FABRIC_REQUEST (R408). A load (0) or atomic of another package arrives. -/
  | fabricRequest (src tag drid rgen op addr len x y : Nat) (grade : Option Grade)
  /-- FABRIC_REPLY (R408). The answer to a load, store or atomic of this package. -/
  | fabricReply (tag : Nat) (answer : Option (Nat × Option Grade))
  /-- JUNCTION_COOLED (R466). The die falls below 100 degrees. -/
  | junctionCooled (die : Nat)
  /-- POWER_DOWN (R464). The supply is removed. -/
  | powerDown
  /-- CAPACITY_TIER_CONTROLLER_FAILED (R453). A capacity-tier controller fails. -/
  | capacityTierControllerFailed (die ctl : Nat)
  /-- HOST_LOG_CONFIRMATION (R409). The host confirms that it applied a posted record. -/
  | hostLogConfirmation (die : Nat)
  /-- HOST_TOPOLOGY_RESULT (R409). The host returns the result of a posted ADAPT or PARTITION. -/
  | hostTopologyResult (die : Nat)
  /-- HOST_REFRESH_SETTING (R409). The host sets a stack's refresh rate. -/
  | hostRefreshSetting (die stk rate : Nat)
  deriving DecidableEq, Repr

end Sys2Proof
end

