-- ==== Sys2Proof/Machine/Bits.lean ====
section
/-!
DEFINITION. Bit fields, sign extension and the other plain helpers on numbers that several meanings use.
-/

namespace Sys2Proof.Machine

open Sys2Proof

/-- Bits [hi:lo] of a number. -/
def bits (x hi lo : Nat) : Nat := x / 2 ^ lo % 2 ^ (hi - lo + 1)

/-- Bits [hi:lo] of a doubleword. -/
def fld (x : Word) (hi lo : Nat) : Nat := bits x.toNat hi lo

/-- One bit of a doubleword. -/
def fbit (x : Word) (i : Nat) : Bool := x.getLsbD i

/-- The low n bits read as a two's-complement integer (R76 `sext`). -/
def sx (x n : Nat) : Int :=
  let y := x % 2 ^ n
  if 2 * y < 2 ^ n then (y : Int) else (y : Int) - 2 ^ n

/-- An integer modulo 2^n as a pattern (R76 `wrap`). -/
def wrapN (x : Int) (n : Nat) : Nat := (x % (2 ^ n : Int)).toNat

/-- An integer as a 64-bit pattern. -/
def wordOfInt (x : Int) : Word := BitVec.ofInt 64 x

/-- The low n bits of x, sign-extended to a doubleword (R135). -/
def sextWord (x n : Nat) : Word := wordOfInt (sx x n)

/-- Value j of width n of a 64-bit element (R134). -/
def valJ (x : Nat) (n j : Nat) : Nat := x / 2 ^ (n * j) % 2 ^ n

/-- The doubleword whose values of width n are the given ones, value 0 lowest (R134). -/
def packVals (n : Nat) : List Nat → Nat
  | [] => 0
  | v :: r => v % 2 ^ n + 2 ^ n * packVals n r

/-- The number of significant bits: 0 for 0, otherwise one more than the exponent of the leading bit. -/
def bitLen (n : Nat) : Nat := if n = 0 then 0 else Nat.log2 n + 1

/-- x limited to lo .. hi. -/
def clampI (x lo hi : Int) : Int := if x < lo then lo else if hi < x then hi else x

/-- The natural number of a clamped integer. -/
def clampN (x : Int) (hi : Nat) : Nat := (clampI x 0 hi).toNat

/-- ⌊√n⌋ from the given bit downward. -/
def isqrtFrom (n : Nat) : Nat → Nat → Nat
  | 0, r => r
  | i + 1, r => let r' := r + 2 ^ i; isqrtFrom n i (if r' * r' ≤ n then r' else r)

/-- ⌊√n⌋. -/
def isqrt (n : Nat) : Nat := isqrtFrom n (bitLen n / 2 + 1) 0

/-- Ones among the low n bits. -/
def popLow (x : Nat) : Nat → Nat
  | 0 => 0
  | n + 1 => popLow x n + x / 2 ^ n % 2

/-- The numbers 0 .. n - 1, ascending. -/
def upTo (n : Nat) : List Nat := List.range n

/-- Set one place of a list, when it has that place. -/
def listSet {α : Type} : List α → Nat → α → List α
  | [], _, _ => []
  | _ :: r, 0, x => x :: r
  | y :: r, n + 1, x => y :: listSet r n x

/-- The entry of a list at a place, or a default. -/
def nth {α : Type} (l : List α) (n : Nat) (d : α) : α := (l[n]?).getD d

/-- An integer inserted in an ascending list with no repeats. -/
def insertAsc : List Nat → Nat → List Nat
  | [], x => [x]
  | y :: r, x => if x = y then y :: r else if x < y then x :: y :: r else y :: insertAsc r x

/-- Widths of the integer types in bits and bytes (Table 5-1). -/
def intBits : IntW → Nat | .b => 8 | .h => 16 | .w => 32 | .l => 64
def intBytes : IntW → Nat | .b => 1 | .h => 2 | .w => 4 | .l => 8

end Sys2Proof.Machine
end

