-- ==== Sys2Proof/Machine/Fp.lean ====
section
/-!
DEFINITION. Floating point: the formats of 06_number_formats, rounding and special values of 07_rounding_special, the
elementary operations, and the grade rules of 08_grades. Patterns are numbers of the format's width; values are exact.
-/

namespace Sys2Proof.Machine

open Sys2Proof

/-- The floating-point formats of Table 6-1 that arithmetic and conversions produce. -/
inductive Fmt | f64 | f32 | bf16 | f16 | e4m3 | e5m2 | e2m1 | e3m5
  deriving DecidableEq, Repr

/-- Exponent field width w (Table 6-1). -/
def fmtW : Fmt → Nat | .f64 => 11 | .f32 => 8 | .bf16 => 8 | .f16 => 5 | .e4m3 => 4 | .e5m2 => 5 | .e2m1 => 2 | .e3m5 => 3
/-- Trailing significand width t (Table 6-1). -/
def fmtT : Fmt → Nat | .f64 => 52 | .f32 => 23 | .bf16 => 7 | .f16 => 10 | .e4m3 => 3 | .e5m2 => 2 | .e2m1 => 1 | .e3m5 => 5
/-- Bias (Table 6-1). -/
def fmtBias : Fmt → Nat
  | .f64 => 1023 | .f32 => 127 | .bf16 => 127 | .f16 => 15 | .e4m3 => 7 | .e5m2 => 15 | .e2m1 => 1 | .e3m5 => 3
/-- Width in bits of a value. -/
def fmtBits (f : Fmt) : Nat := match f with | .e3m5 => 8 | _ => 1 + fmtW f + fmtT f
/-- Precision p = t + 1. -/
def fmtP (f : Fmt) : Nat := fmtT f + 1
/-- Values in a 64-bit element (Table 6-4). -/
def fmtVals : Fmt → Nat | .f64 => 1 | .f32 => 2 | .bf16 => 4 | .f16 => 4 | _ => 8
/-- Formats whose all-ones exponent holds infinities and NaNs (Table 6-2). -/
def fmtIeee : Fmt → Bool | .e4m3 => false | .e2m1 => false | .e3m5 => false | _ => true
/-- The exponent of the smallest normal, 1 - bias. -/
def fmtEmin (f : Fmt) : Int := 1 - (fmtBias f : Int)
/-- The largest finite value as significand and exponent (Table 6-3). -/
def fmtMax (f : Fmt) : Nat × Int :=
  match f with
  | .e4m3 => (14, 5) | .e2m1 => (3, 1) | .e3m5 => (62, -1)
  | _ => (2 ^ (fmtT f + 1) - 1, (2 ^ fmtW f - 2 : Int) - fmtBias f - fmtT f)

def fpOf : FpF → Fmt | .f64 => .f64 | .f32 => .f32 | .bf16 => .bf16 | .f16 => .f16
def scOf : ScF → Fmt | .f64 => .f64 | .f32 => .f32

/-- The value of a pattern: a NaN with its sign and trailing significand, an infinity, or sign, significand and exponent
of a finite value. -/
inductive Fv
  | nan (s : Bool) (t : Nat)
  | inf (s : Bool)
  | fin (s : Bool) (m : Nat) (e : Int)
  deriving DecidableEq, Repr

/-- Read a pattern by the classes of Table 6-2. -/
def unpack (f : Fmt) (x : Nat) : Fv :=
  let t := x % 2 ^ fmtT f
  let e := x / 2 ^ fmtT f % 2 ^ fmtW f
  let s := f != .e3m5 && x / 2 ^ (fmtT f + fmtW f) % 2 == 1
  if fmtIeee f && e == 2 ^ fmtW f - 1 then (if t = 0 then .inf s else .nan s t)
  else if (f == .e4m3 && e == 15 && t == 7) || (f == .e3m5 && e == 7 && t == 31) then .nan s t
  else if e = 0 then .fin s t (fmtEmin f - fmtT f)
  else .fin s (2 ^ fmtT f + t) ((e : Int) - fmtBias f - fmtT f)

/-- Bit of the sign. -/
def signBit (f : Fmt) (s : Bool) : Nat := if s && f != .e3m5 then 2 ^ (fmtT f + fmtW f) else 0

/-- The pattern of a finite value that the format represents: m × 2^e with m at most 2^p. -/
def packFin (f : Fmt) (s : Bool) (m : Nat) (e : Int) : Nat :=
  let (m, e) := if m = 2 ^ (fmtT f + 1) then (2 ^ fmtT f, e + 1) else (m, e)
  signBit f s +
    (if m < 2 ^ fmtT f then m
     else (e + fmtT f + fmtBias f).toNat * 2 ^ fmtT f + (m - 2 ^ fmtT f))

/-- ±∞. -/
def packInf (f : Fmt) (s : Bool) : Nat := signBit f s + (2 ^ fmtW f - 1) * 2 ^ fmtT f
/-- ±largest finite. -/
def packMax (f : Fmt) (s : Bool) : Nat := packFin f s (fmtMax f).1 (fmtMax f).2
/-- A NaN that keeps a payload, quieted (R152, R133). -/
def packNan (f : Fmt) (s : Bool) (t : Nat) : Nat :=
  match f with
  | .e5m2 => signBit f s + 0x7F
  | .e4m3 => signBit f s + 0x7F
  | _ => packInf f s + (if t / 2 ^ (fmtT f - 1) % 2 = 1 then t else t + 2 ^ (fmtT f - 1))
/-- nan(c): the generated quiet NaN of cause c, with a sign (R151, Table 7-3). -/
def nanC (f : Fmt) (s : Bool) (c : Nat) : Nat :=
  match f with
  | .e5m2 => signBit f s + 0x7F
  | .e4m3 => signBit f s + 0x7F
  | _ => packInf f s + 2 ^ (fmtT f - 1) + c * 2 ^ (fmtT f - 4)

def isNan : Fv → Bool | .nan .. => true | _ => false
/-- A signalling NaN: quiet bit clear; both E4M3 NaNs are quiet (R133). -/
def isSnan (f : Fmt) : Fv → Bool
  | .nan _ t => fmtIeee f && t / 2 ^ (fmtT f - 1) % 2 == 0
  | _ => false
def fvSign : Fv → Bool | .nan s _ => s | .inf s => s | .fin s _ _ => s
def isZero : Fv → Bool | .fin _ 0 _ => true | _ => false

/-- e of R161: ⌊log₂|x|⌋, or the exponent of the smallest normal for a zero. -/
def expOf (f : Fmt) : Fv → Int
  | .fin _ m e => if m = 0 then fmtEmin f else e + Nat.log2 m
  | _ => 0

/-! ### Rounding (R146–R150) -/

/-- Rounding modes of Table 7-1; the stochastic mode carries the new SRS state r of R147. -/
inductive Rm
  | rne | rtz | rdn | rup
  | stoch (r : Nat)
  deriving DecidableEq, Repr

def rmOfCode (n : Nat) : Rm := if n = 0 then .rne else if n = 1 then .rtz else if n = 2 then .rdn else .rup

/-- A rounded value: sign, significand and exponent of the quantum, whether it lies above the largest finite value, whether
it is inexact, and whether it is tiny (R149). -/
structure Rounded where
  s : Bool
  m : Nat
  e : Int
  ovf : Bool
  nx : Bool
  tiny : Bool
  deriving DecidableEq, Repr

/-- Whether a magnitude with remainder rem of unit (and sticky part below) goes to the neighbour away from zero. -/
def roundUp (mode : Rm) (s odd : Bool) (rem unit : Nat) (sticky : Bool) : Bool :=
  match mode with
  | .rne => decide (unit < 2 * rem) || (2 * rem == unit && (sticky || odd))
  | .rtz => false
  | .rdn => s && (rem != 0 || sticky)
  | .rup => !s && (rem != 0 || sticky)
  | .stoch r => decide (2 ^ 32 ≤ rem * 2 ^ 32 / unit + r)

/-- m × 2^e above a × 2^b. -/
def gtDyadic (m : Nat) (e : Int) (a : Nat) (b : Int) : Bool :=
  if b ≤ e then decide (a < m * 2 ^ (e - b).toNat) else decide (a * 2 ^ (b - e).toNat < m)

/-- `round` before the overflow result is chosen (R146): the magnitude is m × 2^e, or lies strictly between that and the
next one when sticky. -/
def roundTo (f : Fmt) (mode : Rm) (s : Bool) (m : Nat) (e : Int) (sticky : Bool) : Rounded :=
  if m = 0 ∧ sticky = false then { s, m := 0, e := fmtEmin f - fmtT f, ovf := false, nx := false, tiny := false }
  else
    let ex := e + (bitLen m : Int) - 1
    let q := max (ex - fmtT f) (fmtEmin f - fmtT f)
    let (m0, rem, unit) :=
      if q ≤ e then (m * 2 ^ (e - q).toNat, 0, 1)
      else (m / 2 ^ (q - e).toNat, m % 2 ^ (q - e).toNat, 2 ^ (q - e).toNat)
    let nx := rem != 0 || sticky
    -- R147, R205: above the largest finite value the stochastic mode rounds as RNE (assumption log 12)
    let beyond := if sticky then gtDyadic (2 * m + 1) (e - 1) (fmtMax f).1 (fmtMax f).2
      else gtDyadic m e (fmtMax f).1 (fmtMax f).2
    let mode := match mode with
      | .stoch r => if beyond then .rne else .stoch r
      | _ => mode
    let m1 := if roundUp mode s (m0 % 2 == 1) rem unit sticky then m0 + 1 else m0
    { s, m := m1, e := q, ovf := gtDyadic m1 q (fmtMax f).1 (fmtMax f).2, nx,
      tiny := gtDyadic 1 (fmtEmin f) m1 q }

/-- The mode gives infinity on overflow (Table 7-1). -/
def overInf (mode : Rm) (s : Bool) : Bool :=
  match mode with
  | .rne => true | .rtz => false | .rdn => s | .rup => !s | .stoch _ => true

/-- Flags of Table 2-9. -/
def flNV : BitVec 6 := 1
def flDZ : BitVec 6 := 2
def flOF : BitVec 6 := 4
def flUF : BitVec 6 := 8
def flNX : BitVec 6 := 16
def flGL : BitVec 6 := 32

def flagIf (b : Bool) (f : BitVec 6) : BitVec 6 := if b then f else 0

/-- A value produced: pattern, grade, flags. -/
structure FOut where
  pat : Nat
  grade : Nat
  flags : BitVec 6
  deriving DecidableEq, Repr

/-! ### Exact results -/

/-- An exact result before rounding. -/
inductive Exact
  /-- a pattern that is the result as it stands: a NaN or an infinity, with the flags it raises -/
  | pat (p : Nat) (flags : BitVec 6)
  /-- a magnitude m × 2^e, or strictly between it and the next when sticky -/
  | num (s : Bool) (m : Nat) (e : Int) (sticky : Bool)
  deriving DecidableEq, Repr

/-- The sum of two finite values; a zero sum of opposite signs is +0, or -0 under RDN (R99). -/
def addFin (mode : Rm) (sa : Bool) (ma : Nat) (ea : Int) (sb : Bool) (mb : Nat) (eb : Int) : Exact :=
  let e := min ea eb
  let a : Int := (ma * 2 ^ (ea - e).toNat : Nat)
  let b : Int := (mb * 2 ^ (eb - e).toNat : Nat)
  let r := (if sa then -a else a) + (if sb then -b else b)
  if r = 0 then .num (if sa = sb then sa else mode == .rdn) 0 e false
  else .num (decide (r < 0)) r.natAbs e false

/-- The arithmetic operations of Tables 4-3 and 9-2, R100, R180. -/
inductive FOp
  | add | sub | mul | div | sqrt
  /-- fused multiply-add: negate the product, negate the addend -/
  | fma (np nc : Bool)
  deriving DecidableEq, Repr

def negIf (n : Bool) : Fv → Fv
  | .nan s t => .nan s t
  | .inf s => .inf (s != n)
  | .fin s m e => .fin (s != n) m e

/-- a + b with the infinities settled. -/
def addEx (f : Fmt) (mode : Rm) (a b : Fv) : Exact :=
  match a, b with
  | .inf s, .inf s' => if s = s' then .pat (packInf f s) 0 else .pat (nanC f false 1) flNV
  | .inf s, _ => .pat (packInf f s) 0
  | _, .inf s => .pat (packInf f s) 0
  | .fin sa ma ea, .fin sb mb eb => addFin mode sa ma ea sb mb eb
  | _, _ => .pat 0 0

/-- The first NaN in operand order, quieted (R152). -/
def firstNan (f : Fmt) : List Fv → Option Nat
  | [] => none
  | .nan s t :: _ => some (packNan f s t)
  | _ :: r => firstNan f r

/-- The exact or special result of an operation (R99, R100, R152, R179, R180). -/
def exactOf (f : Fmt) (mode : Rm) (op : FOp) (a b c : Fv) : Exact :=
  let srcs := match op with | .sqrt => [a] | .fma .. => [a, b, c] | _ => [a, b]
  let nv := flagIf (srcs.any (isSnan f)) flNV
  let infZero := match op, a, b with
    | .fma .., .inf _, .fin _ 0 _ => true
    | .fma .., .fin _ 0 _, .inf _ => true
    | _, _, _ => false
  if infZero then .pat (nanC f false 2) flNV
  else match firstNan f srcs with
  | some p => .pat p nv
  | none =>
    match op with
    | .add => addEx f mode a b
    | .sub => addEx f mode a (negIf true b)
    | .mul =>
      match a, b with
      | .inf s, .fin s' m _ => if m = 0 then .pat (nanC f false 2) flNV else .pat (packInf f (s != s')) 0
      | .fin s' m _, .inf s => if m = 0 then .pat (nanC f false 2) flNV else .pat (packInf f (s != s')) 0
      | .inf s, .inf s' => .pat (packInf f (s != s')) 0
      | .fin s m e, .fin s' m' e' => .num (s != s') (m * m') (e + e') false
      | _, _ => .pat 0 0
    | .div =>
      match a, b with
      | .inf _, .inf _ => .pat (nanC f false 6) flNV
      | .inf s, .fin s' _ _ => .pat (packInf f (s != s')) 0
      | .fin s _ _, .inf s' => .num (s != s') 0 0 false
      | .fin s m e, .fin s' m' e' =>
        if m' = 0 then
          if m = 0 then .pat (nanC f false 6) flNV else .pat (packInf f (s != s')) flDZ
        else
          let k := fmtP f + 3 + bitLen m' - bitLen m
          let n := m * 2 ^ k
          .num (s != s') (n / m') (e - e' - k) (n % m' != 0)
      | _, _ => .pat 0 0
    | .sqrt =>
      match a with
      | .inf s => if s then .pat (nanC f false 5) flNV else .pat (packInf f false) 0
      | .fin s m e =>
        if m = 0 then .num s 0 0 false
        else if s then .pat (nanC f false 5) flNV
        else
          let k0 := 2 * fmtP f + 6 - bitLen m
          let k := if (e - (k0 : Int)) % 2 = 0 then k0 else k0 + 1
          let n := m * 2 ^ k
          let r := isqrt n
          .num false r ((e - k) / 2) (r * r != n)
      | _ => .pat 0 0
    | .fma np nc =>
      let c := negIf nc c
      match a, b with
      | .fin s m e, .fin s' m' e' => addEx f mode (.fin ((s != s') != np) (m * m') (e + e')) c
      | _, _ => addEx f mode (.inf ((fvSign a != fvSign b) != np)) c

/-! ### Grades (R158–R163) -/

/-- The multiply rule (Table 8-2) with item 5 of R163 for a product. -/
def gradeMul (p : Nat) (a b : Fv) (ga gb : Nat) : Nat :=
  if (isZero a && ga == p) || (isZero b && gb == p) then p
  else if ga = gb ∧ ga < p then ga - 1 else min ga gb

/-- The add rule on uncertainty positions (Table 8-2) with items 2 to 4 of R163: sources' zeroness, positions and grades,
and the rounded result. -/
def gradeAdd (p : Nat) (za zb : Bool) (ua ub : Int) (ga gb : Nat) (r : Rounded) : Nat :=
  if r.m = 0 then (if za && zb then min ga gb else 0)
  else clampN (r.e + Nat.log2 r.m - max ua ub) p

/-- The grade of a finite rounded result (Table 8-2, R163 items 2 to 5). -/
def gradeOf (f : Fmt) (op : FOp) (a b c : Fv) (ga gb gc : Nat) (exactZero : Bool) (r : Rounded) : Nat :=
  let p := fmtP f
  if r.m = 0 && !exactZero then 0
  else match op with
  | .add => gradeAdd p (isZero a) (isZero b) (expOf f a - ga) (expOf f b - gb) ga gb r
  | .sub => gradeAdd p (isZero a) (isZero b) (expOf f a - ga) (expOf f b - gb) ga gb r
  | .mul => gradeMul p a b ga gb
  | .div =>
    if isZero a && ga == p then p else if ga = gb ∧ ga < p then ga - 1 else min ga gb
  | .sqrt => min p (ga + 1)
  | .fma .. =>
    let gp := gradeMul p a b ga gb
    let (zp, ep) := match a, b with
      | .fin _ m e, .fin _ m' e' =>
        if m * m' = 0 then (true, fmtEmin f) else (false, e + e' + (Nat.log2 (m * m') : Int))
      | _, _ => (false, 0)
    gradeAdd p zp (isZero c) (ep - gp) (expOf f c - gc) gp gc r

/-- GL: the result's grade is more than 1 below the lowest grade among the inputs, each clamped to p (R98). -/
def lossFlag (p g : Nat) (gs : List Nat) : BitVec 6 := flagIf (decide (g + 1 < gs.foldl min p)) flGL

/-- Formats whose results carry grades (R160). -/
def fmtGraded : Fmt → Bool | .f64 => true | .f32 => true | .bf16 => true | .f16 => true | _ => false

/-- Round a finite exact magnitude into a format with infinities, flush it under FTZ, and give pattern and flags
(R146, R149, R150). The last part tells whether the result was flushed or overflowed. -/
def finish (f : Fmt) (mode : Rm) (ftz : Bool) (r : Rounded) : Nat × BitVec 6 × Bool × Bool :=
  if r.ovf then
    ((if overInf mode r.s then packInf f r.s else packMax f r.s), flOF ||| flNX, false, overInf mode r.s)
  else if ftz && r.tiny then (signBit f r.s, flUF ||| flNX, true, false)
  else (packFin f r.s r.m r.e, flagIf r.nx flNX ||| flagIf (r.tiny && r.nx) flUF, false, false)

/-- One elementary arithmetic operation on values with grades (R153, R162, R163, R98). -/
def fpArith (f : Fmt) (mode : Rm) (ftz : Bool) (op : FOp) (a b c : Nat) (ga gb gc : Nat) : FOut :=
  let p := fmtP f
  let gs := match op with | .sqrt => [ga] | .fma .. => [ga, gb, gc] | _ => [ga, gb]
  match exactOf f mode op (unpack f a) (unpack f b) (unpack f c) with
  | .pat x fl => { pat := x, grade := 0, flags := fl ||| lossFlag p 0 gs }
  | .num s m e sticky =>
    let r := roundTo f mode s m e sticky
    let (x, fl, flushed, isInf) := finish f mode ftz r
    let g := if flushed || isInf then 0
      else if r.ovf then
        -- the largest finite value stands in for an overflow: its own exponent is e_r
        gradeOf f op (unpack f a) (unpack f b) (unpack f c) ga gb gc false
          { r with m := (fmtMax f).1, e := (fmtMax f).2 }
      else gradeOf f op (unpack f a) (unpack f b) (unpack f c) ga gb gc (m == 0 && !sticky) r
    { pat := x, grade := g, flags := fl ||| lossFlag p g gs }

/-- a < b for values that are no NaN; -0 equals +0. -/
def fvLt : Fv → Fv → Bool
  | .inf s, .inf s' => s && !s'
  | .inf s, .fin .. => s
  | .fin .., .inf s => !s
  | .fin s m e, .fin s' m' e' =>
    let k := min e e'
    let a : Int := (m * 2 ^ (e - k).toNat : Nat)
    let b : Int := (m' * 2 ^ (e' - k).toNat : Nat)
    decide ((if s then -a else a) < (if s' then -b else b))
  | _, _ => false

/-- a = b for values; -0 equals +0 and a NaN equals nothing. -/
def fvEq (a b : Fv) : Bool := !isNan a && !isNan b && !fvLt a b && !fvLt b a

/-- Minimum or maximum (R101, R181): the selected pattern with its grade, before any flush. -/
def fpSelect (f : Fmt) (isMin : Bool) (a b : Nat) (ga gb : Nat) : Nat × Nat × BitVec 6 :=
  let va := unpack f a
  let vb := unpack f b
  if isSnan f va || isSnan f vb then ((firstNan f [va, vb]).getD 0, 0, flNV)
  else match isNan va, isNan vb with
  | true, true => ((firstNan f [va, vb]).getD 0, 0, 0)
  | true, false => (b, gb, 0)
  | false, true => (a, ga, 0)
  | false, false =>
    let aLess := fvLt va vb || (fvEq va vb && fvSign va && !fvSign vb)
    let bLess := fvLt vb va || (fvEq va vb && fvSign vb && !fvSign va)
    if aLess then (if isMin then (a, ga, 0) else (b, gb, 0))
    else if bLess then (if isMin then (b, gb, 0) else (a, ga, 0))
    else if gb < ga then (b, gb, 0) else (a, ga, 0)

/-- Minimum or maximum with FTZ and GL (R101, R181). An infinite result has grade 0 (R163 item 1). -/
def fpMinMax (f : Fmt) (ftz isMin : Bool) (a b : Nat) (ga gb : Nat) : FOut :=
  let (x, g, fl) := fpSelect f isMin a b ga gb
  let g := match unpack f x with | .fin .. => g | _ => 0
  let tiny := match unpack f x with
    | .fin _ m e => m != 0 && gtDyadic 1 (fmtEmin f) m e
    | _ => false
  let (x, g, fl) := if ftz && tiny then (signBit f (fvSign (unpack f x)), 0, fl ||| flUF ||| flNX) else (x, g, fl)
  { pat := x, grade := g, flags := fl ||| lossFlag (fmtP f) g [ga, gb] }

/-! ### Conversions (R103, R151, R203, R204) -/

/-- A NaN of one format in another (R133, R151, R152): the payload moves by its high bits; a source without payload gives
nan(3) in a wider format. -/
def convNan (src dst : Fmt) (s : Bool) (t : Nat) : Nat :=
  match src with
  | .e4m3 => nanC dst s 3
  | .e5m2 => nanC dst s 3
  | _ =>
    let t' := if fmtT dst ≥ fmtT src then t * 2 ^ (fmtT dst - fmtT src) else t / 2 ^ (fmtT src - fmtT dst)
    packNan dst s t'

/-- A conversion of an exact finite value to an FP format, saturating or not (Table 10-4). -/
def fpFromDyadic (dst : Fmt) (mode : Rm) (ftz sat : Bool) (s : Bool) (m : Nat) (e : Int) : Nat × BitVec 6 × Rounded :=
  let r := roundTo dst mode s m e false
  if r.ovf then
    let x := if sat then packMax dst s
      else if dst == .e4m3 then (if overInf mode s then nanC dst s 0 else packMax dst s)
      else if overInf mode s then packInf dst s else packMax dst s
    (x, flOF ||| flNX, r)
  else
    let (x, fl, _, _) := finish dst mode ftz r
    (x, fl, r)

/-- FP to FP. ga is the source's grade read in the source format, or none for an ungraded word. -/
def fpConvert (src dst : Fmt) (mode : Rm) (ftz sat : Bool) (a : Nat) (ga : Option Nat) : FOut :=
  let p := fmtP dst
  let lossOf := fun (d : Fmt) (g : Nat) (gs : List Nat) => if fmtGraded d then lossFlag p g gs else 0
  let gIn := match ga with | some g => min (min g (fmtP src)) p | none => p
  match unpack src a with
  | .nan s t =>
    { pat := convNan src dst s t, grade := 0,
      flags := flagIf (isSnan src (.nan s t)) flNV ||| lossOf dst 0 [gIn] }
  | .inf s =>
    if dst == .e4m3 then
      { pat := if sat then packMax dst s else nanC dst s 0, grade := 0, flags := flNV }
    else { pat := packInf dst s, grade := 0, flags := lossOf dst 0 [gIn] }
  | .fin s m e =>
    let (x, fl, r) := fpFromDyadic dst mode ftz sat s m e
    let g := match unpack dst x with
      | .fin _ m' _ => if m' = 0 && m != 0 then 0 else if ftz && r.tiny then 0 else gIn
      | _ => 0
    { pat := x, grade := g, flags := fl ||| lossOf dst g [gIn] }

/-- An integer to FP, saturating or not: grade p, NX when inexact (R103, Table 10-4). -/
def fpFromInt (dst : Fmt) (mode : Rm) (ftz sat : Bool) (x : Int) : FOut :=
  let (y, fl, r) := fpFromDyadic dst mode ftz sat (decide (x < 0)) x.natAbs 0
  let g := match unpack dst y with
    | .fin _ m' _ => if m' = 0 && r.m != 0 then 0 else fmtP dst
    | _ => 0
  { pat := y, grade := g, flags := fl }

/-- A finite value rounded to an integer under a mode, and whether that is inexact. -/
def roundInt (mode : Rm) (s : Bool) (m : Nat) (e : Int) : Int × Bool :=
  let (q, nx) :=
    if 0 ≤ e then (m * 2 ^ e.toNat, false)
    else
      let unit := 2 ^ (-e).toNat
      let rem := m % unit
      (m / unit + (if roundUp mode s (m / unit % 2 == 1) rem unit false then 1 else 0), rem != 0)
  ((if s then -(q : Int) else (q : Int)), nx)

/-- FP to an integer range lo .. hi (R103, Table 10-4): the result and its flags. -/
def fpToInt (src : Fmt) (mode : Rm) (sat : Bool) (lo hi : Int) (a : Nat) : Int × BitVec 6 :=
  match unpack src a with
  | .nan .. => (0, flNV)
  | .inf s => ((if s then lo else hi), if sat then flNX else flNV)
  | .fin s m e =>
    let (x, nx) := roundInt mode s m e
    if x < lo then (lo, if sat then flNX else flNV)
    else if hi < x then (hi, if sat then flNX else flNV)
    else (x, flagIf nx flNX)

end Sys2Proof.Machine
end

