-- ==== Sys2Proof/Config.lean ====
section
/-!
DEFINITION. What the spec leaves to an implementation or leaves open: opaque constants, so that nothing can depend on a
value of them. A claim about them holds whatever they are.
-/

namespace Sys2Proof.Config

open Sys2Proof

/-- Cycles that the step of that number takes on a die (assumption log 4): durations are not modelled, CYC only counts. -/
opaque stepCycles : Nat → Word

/-- The DRAM row of a physical line address (R249, R250 name rows; the spec gives no mapping; assumption log 5). -/
opaque dramRow : Nat → Nat

/-- A free value: what the spec leaves open, drawn by its number (assumption log 6). -/
opaque freeWord : Nat → Word

/-- A free byte, drawn by its number (assumption log 6). -/
opaque freeByte : Nat → BitVec 8

/-- The switch address of this physical package (PID of Table 28-2), fixed at manufacture (assumption log 103). -/
opaque ownPid : Nat

/-- What another package of the domain answers to a question of this package's binder (assumption log 17): the first number
names the question, the others what is asked and when. -/
opaque peerAnswer : List Nat → Nat

/-! ### Identity and attestation (R411–R413; assumption log 24) -/

/-- The identity key pair, of 4,096 bits, fixed at manufacture: modulus and private exponent. -/
opaque identityModulus : Nat
opaque identityExponent : Nat

/-- The salt of a signature, drawn by its number. -/
opaque salt : Nat → BitVec 512

/-- The modulus of the Maelrik signing key, and the fused digest of that key. -/
opaque signingModulus : BitVec 4096
opaque fusedKeyDigest : BitVec 512

/-- The boot ROM's own digest. -/
opaque romDigest : BitVec 512

/-- Part number code and serial number. -/
opaque partSerial : BitVec 128

/-- The fused security version. -/
opaque fusedVersion : Word

/-- The identity certificate: its length and its bytes. -/
opaque certLength : Nat
opaque certByte : Nat → BitVec 8

end Sys2Proof.Config
end

