-- ==== Sys2Proof/WellFormed.lean ====
section
/-!
DEFINITION. The codes of the operand kinds and the well-formedness of an instruction: what the encoding tables of
03_encoding allow beyond what the operand types already say (R50, R64, R68, R121, R214, R251), and that an event is no instruction word.
-/

namespace Sys2Proof

/-! ### Field values of the operand kinds (Table 3-4, Table 2-2, Table 26-2, Table 13-6) -/

def ScF.code : ScF → Nat | .f64 => 0 | .f32 => 1
def CarryW.code : CarryW → Nat | .l => 0 | .w => 1
def IntW.code : IntW → Nat | .b => 0 | .h => 1 | .w => 2 | .l => 3
def FpF.code : FpF → Nat | .f64 => 0 | .f32 => 1 | .bf16 => 2 | .f16 => 3
def ElTy.code : ElTy → Nat | .int wd => wd.code | .fp f => 4 + f.code
def CvTy.code : CvTy → Nat
  | .i8 => 0 | .i16 => 1 | .i32 => 2 | .i64 => 3 | .u8 => 4 | .u16 => 5 | .u32 => 6 | .u64 => 7
  | .f64 => 8 | .f32 => 9 | .bf16 => 10 | .f16 => 11 | .e4m3 => 12 | .e5m2 => 13
def Rnd.code : Rnd → Nat | .rne => 0 | .rtz => 1 | .rdn => 2 | .rup => 3 | .stoch => 4 | .dyn => 5
def MxF.code : MxF → Nat
  | .bf16 => 0 | .e4m3 => 1 | .e5m2 => 2 | .int8 => 3 | .sb4 => 4 | .fp32 => 5 | .fp64 => 6
def ColOp.code : ColOp → Nat | .sum => 0 | .min => 1 | .max => 2 | .and => 3 | .or => 4 | .xor => 5
def SplitN.code : SplitN → Nat | .two => 1 | .four => 2
def VISrc.reg : VISrc → Nat | .vec v => v.val | .sca g => g.val
def VISrc.bit : VISrc → Nat | .vec _ => 0 | .sca _ => 1
def VFSrc.reg : VFSrc → Nat | .vec v => v.val | .sca f => f.val
def VFSrc.bit : VFSrc → Nat | .vec _ => 0 | .sca _ => 1
def RedDst.dst : RedDst → Nat | .int _ d => d.val | .fp _ d => d.val
def RedDst.code : RedDst → Nat | .int wd _ => wd.code | .fp f _ => 4 + f.code
def CReg.code : CReg → Nat
  | .vl => 0 | .vms => 1 | .vstr => 2 | .vei => 3 | .gth => 4 | .fcr => 5 | .fflags => 6 | .fxr => 7 | .srs => 8
  | .sid => 9 | .mxo => 10
def SReg.code : SReg → Nat
  | .tvec => 0 | .tpc => 1 | .tcause => 2 | .tval => 3 | .telem => 4 | .tqpos => 5 | .tstat => 6 | .tres => 7
  | .tscr0 => 8 | .tscr1 => 9 | .diecfg d => 16 + d.val | .hbmsplit => 20 | .duty => 21
def Counter.code : Counter → Nat
  | .cyc => 0 | .reql => 1 | .reqr => 2 | .reqf => 3 | .reqe => 4 | .hopw => 5 | .bconf => 6 | .bmiss => 7
  | .hints => 8 | .hintu => 9 | .pwrhold => 10 | .tlbm => 11

/-- The instances of a counter: one per die, one per section, or the strand's own core (R251). -/
def Counter.instances (c : Counter) : Nat := if c.code < 6 then 4 else if c.code < 8 then 32 else 1

/-! ### Combinations of CVT (R64) and COLL (R68) -/

def CvTy.isInt (t : CvTy) : Bool := t.code < 8
def CvTy.isFp8 (t : CvTy) : Bool := t == .e4m3 || t == .e5m2

/-- The combinations of vcvt that R64 does not refuse. -/
def cvtOk (s t : CvTy) (r : Rnd) (sat : Bool) : Bool :=
  s != t && !(s.isInt && t.isFp8) && !(t.isInt && s.isFp8) &&
  (r != .stoch || t == .bf16 || t.isFp8) && !(s.isInt && t.isInt && r != .dyn) && !(sat && t == .f64)

/-- The combinations of vdequant that R64 does not refuse. -/
def dequantOk (t : FpF) (r : Rnd) (sat : Bool) : Bool := (r != .stoch || t == .bf16) && !(sat && t == .f64)

/-- and, or and xor take integer types only, and top-k needs sum (Table 3-18). -/
def ColOp.ok (r : ColOp) (t : ElTy) (topk : Bool) : Bool :=
  (r.code < 3 || t.code < 4) && (!topk || r == .sum)

/-- The types that a scatter-add takes (R121). -/
def ElTy.adds : ElTy → Bool
  | .int .w => true | .int .l => true | .fp .f64 => true | .fp .f32 => true | _ => false

/-- The instruction is an instruction word, not an event. -/
def Instr.isWord : Instr → Bool
  | .waitTimeout .. => false
  | .swapEffect .. => false
  | .copy .. => false
  | .planeLoad .. => false
  | .followOn .. => false
  | .convert .. => false
  | .compact .. => false
  | .remap .. => false
  | .mxfp4 .. => false
  | .colour .. => false
  | .topoCreate .. => false
  | .adapt .. => false
  | .topoExport .. => false
  | .hold .. => false
  | .drop .. => false
  | .partition .. => false
  | .topoDestroy .. => false
  | .collCreate .. => false
  | .collDestroy .. => false
  | .memcoll .. => false
  | .flush .. => false
  | .query .. => false
  | .pageWalk .. => false
  | .hostWalkReply .. => false
  | .logApply .. => false
  | .rowActivateHint .. => false
  | .hintRowClose .. => false
  | .elementTrain .. => false
  | .trainAck .. => false
  | .contribution .. => false
  | .collectiveComplete .. => false
  | .barrierComplete .. => false
  | .membershipRequest .. => false
  | .newgen .. => false
  | .newgenAck .. => false
  | .newgenTimeout .. => false
  | .hostMemberList .. => false
  | .launch .. => false
  | .hostPlacement .. => false
  | .houseFault .. => false
  | .seatDecision .. => false
  | .quantumExpiry .. => false
  | .priorityAging .. => false
  | .park .. => false
  | .unpark .. => false
  | .preemption .. => false
  | .preemptQuiesce .. => false
  | .save .. => false
  | .imageCopy .. => false
  | .restore .. => false
  | .trapEntry .. => false
  | .powerSample .. => false
  | .thermalStop .. => false
  | .linkFailure .. => false
  | .dieCutoff .. => false
  | .scrubPass .. => false
  | .heartbeat .. => false
  | .baseDieCoreFailed .. => false
  | .refreshTakeover .. => false
  | .refreshDouble .. => false
  | .remapCommitReply .. => false
  | .partitionEntryWrite .. => false
  | .regionRecordWrite .. => false
  | .saveAreaWrite .. => false
  | .dutyWrite .. => false
  | .dutyActUpdate .. => false
  | .registerWrite .. => false
  | .quote .. => false
  | .cert .. => false
  | .stage .. => false
  | .swap .. => false
  | .prepare .. => false
  | .commit .. => false
  | .scrub .. => false
  | .logapp .. => false
  | .powerUp .. => false
  | .fwgo .. => false
  | .firmwareBoot .. => false
  | .linkReset => false
  | .vfFlr .. => false
  | .illegalInstruction .. => false
  | .instructionFetchFault .. => false
  | .fabricRequest .. => false
  | .fabricReply .. => false
  | .junctionCooled .. => false
  | .powerDown => false
  | .capacityTierControllerFailed .. => false
  | .hostLogConfirmation .. => false
  | .hostTopologyResult .. => false
  | .hostRefreshSetting .. => false
  | _ => true

/-- Well-formed instruction words: every operand combination that the encoding tables allow. -/
def Instr.wf (i : Instr) : Bool :=
  i.isWord &&
  match i with
  | .vcvt _ _ s t r x => cvtOk s t r x
  | .vdequant _ _ t r x => dequantOk t r x
  | .colRed _ _ _ r t k => r.ok t k
  | .colAred _ _ _ r t k => r.ok t k
  | .cntRd _ c i => i.toNat < c.instances
  | .mxStep _ _ b f => f == .sb4 || b == 0
  | .mxStepz _ _ b f => f == .sb4 || b == 0
  | .mxSteps _ _ b f => f == .sb4 || b == 0
  | .vstxa _ _ _ t => t.adds
  | .rplCap n => 1 ≤ n.toNat && n.toNat ≤ 32
  | _ => true

/-- Well-formedness as a proposition. -/
abbrev Instr.WellFormed (i : Instr) : Prop := i.wf = true

end Sys2Proof
end

