-- ==== Sys2Proof/Decode.lean ====
section
/-!
DEFINITION. The decoder, total on any bytes, and the encoder. Both are written from the formats and maps of
03_encoding (R47–R69); the encoder is the same tables read the other way. A word that breaks a rule of R50 is refused by
name; the machine answers every refusal with ILL (R52, R53).
-/

namespace Sys2Proof

/- Instr has more constructors than the compiler has object tags, so no code is generated for functions that build
instructions; the kernel evaluates them as any other definition. -/
noncomputable section

/-- Why a word does not decode. Each reason raises ILL with TVAL holding the word (R50, R52, R53). -/
inductive DecodeError
  /-- Fewer than four bytes were given. -/
  | truncated
  /-- Majors 0x00 and 0x39–0x3F (R52). -/
  | unallocatedMajor
  /-- A code that its table does not list, or a combination R64 or R68 names (R50). -/
  | unlistedCode
  /-- A field that the instruction does not use is not zero (R50). -/
  | unusedField
  /-- A register, slot, tile, count or instance outside its range (Table 3-2). -/
  | operandRange
  deriving DecidableEq, Repr

/-- The answer of a decoding function. -/
abbrev Dec := Except DecodeError

/-- An unused field is to be zero (R50). -/
def zero (n : Nat) : Dec Unit := if n = 0 then .ok () else .error .unusedField
def gReg (n : Nat) : Dec GReg := if h : n < 32 then .ok ⟨n, h⟩ else .error .operandRange
def fReg (n : Nat) : Dec FReg := if h : n < 16 then .ok ⟨n, h⟩ else .error .operandRange
def vReg (n : Nat) : Dec VReg := if h : n < 48 then .ok ⟨n, h⟩ else .error .operandRange
def mReg (n : Nat) : Dec MReg := if h : n < 12 then .ok ⟨n, h⟩ else .error .operandRange
def slot (n : Nat) : Dec Slot := if h : n < 8 then .ok ⟨n, h⟩ else .error .operandRange
def tile (n : Nat) : Dec (Fin 4) := if h : n < 4 then .ok ⟨n, h⟩ else .error .operandRange
def lvl (n : Nat) : Level := ⟨n % 16, Nat.mod_lt n (by decide)⟩
def fin8 (n : Nat) : Fin 8 := ⟨n % 8, Nat.mod_lt n (by decide)⟩

def ScF.ofCode (n : Nat) : ScF := if n = 0 then .f64 else .f32
def CarryW.ofCode (n : Nat) : CarryW := if n = 0 then .l else .w
def IntW.ofCode (n : Nat) : IntW := if n = 0 then .b else if n = 1 then .h else if n = 2 then .w else .l
def FpF.ofCode (n : Nat) : FpF := if n = 0 then .f64 else if n = 1 then .f32 else if n = 2 then .bf16 else .f16
def ElTy.ofCode (n : Nat) : ElTy := if n < 4 then .int (IntW.ofCode n) else .fp (FpF.ofCode (n - 4))

/-- A 3-bit type code that an integer-only operation of Table 10-1 accepts. -/
def intTy (n : Nat) : Dec IntW := if n < 4 then .ok (IntW.ofCode n) else .error .unlistedCode
/-- A 3-bit type code that an FP-only operation of Table 10-1 accepts. -/
def fpTy (n : Nat) : Dec FpF := if n < 4 then .error .unlistedCode else .ok (FpF.ofCode (n - 4))
/-- vld.g and vst.g take type codes 4–7 only (Table 3-11). -/
def fpCode (n : Nat) : Dec Unit := if n < 4 then .error .unlistedCode else .ok ()
/-- The type of a scatter-add (R121). -/
def sumTy (n : Nat) : Dec ElTy := if (ElTy.ofCode n).adds then .ok (ElTy.ofCode n) else .error .unlistedCode
/-- Field b under the scalar bit of VI (R58). -/
def viSrc (s n : Nat) : Dec VISrc := if s = 0 then VISrc.vec <$> vReg n else VISrc.sca <$> gReg n
/-- Field b under the scalar bit of VF (R59). -/
def vfSrc (s n : Nat) : Dec VFSrc := if s = 0 then VFSrc.vec <$> vReg n else VFSrc.sca <$> fReg n
/-- A reduction writes gd for an integer type and fd for an FP type (R63). -/
def redDst (t n : Nat) : Dec RedDst :=
  if t < 4 then RedDst.int (IntW.ofCode t) <$> gReg n else RedDst.fp (FpF.ofCode (t - 4)) <$> fReg n
/-- The count of rpl.cap is 1–32 (Table 3-17). -/
def capN (n : Nat) : Dec (BitVec 6) :=
  if 1 ≤ n ∧ n ≤ 32 then .ok (BitVec.ofNat 6 n) else .error .operandRange
/-- Field b of vsplit (Table 3-17). -/
def splitN (n : Nat) : Dec SplitN :=
  if n = 1 then .ok .two else if n = 2 then .ok .four else .error .operandRange
/-- MX format codes (Table 3-4); 7 raises ILL. -/
def mxFmt (n : Nat) : Dec MxF :=
  match n with
  | 0 => .ok .bf16 | 1 => .ok .e4m3 | 2 => .ok .e5m2 | 3 => .ok .int8 | 4 => .ok .sb4 | 5 => .ok .fp32
  | 6 => .ok .fp64 | _ => .error .unlistedCode
/-- OPR codes of COLL reductions (Table 3-18). -/
def colOp (n : Nat) : Dec ColOp :=
  match n with
  | 0 => .ok .sum | 1 => .ok .min | 2 => .ok .max | 3 => .ok .and | 4 => .ok .or | 5 => .ok .xor
  | _ => .error .unlistedCode
/-- Only an .sb4 step names an activation band scale in field b (Table 11-2). -/
def mxBand (f b : Nat) : Dec Unit := if f = 4 then .ok () else zero b
/-- The combinations of OPR, TYPE and TOPK that Table 3-18 allows. -/
def colReduce (r t k : Nat) : Dec Unit :=
  if (r < 3 ∨ t < 4) ∧ (k = 0 ∨ r = 0) then .ok () else .error .unlistedCode
/-- RND of CVT (Table 3-14); 6 and 7 raise ILL. -/
def rnd (n : Nat) : Dec Rnd :=
  match n with
  | 0 => .ok .rne | 1 => .ok .rtz | 2 => .ok .rdn | 3 => .ok .rup | 4 => .ok .stoch | 5 => .ok .dyn
  | _ => .error .unlistedCode
/-- CVT type codes 0–13 (Table 3-4). -/
def cvTy (n : Nat) : Dec CvTy :=
  match n with
  | 0 => .ok .i8 | 1 => .ok .i16 | 2 => .ok .i32 | 3 => .ok .i64
  | 4 => .ok .u8 | 5 => .ok .u16 | 6 => .ok .u32 | 7 => .ok .u64
  | 8 => .ok .f64 | 9 => .ok .f32 | 10 => .ok .bf16 | 11 => .ok .f16 | 12 => .ok .e4m3 | 13 => .ok .e5m2
  | _ => .error .unlistedCode
/-- The types that pair with SB4: FP64, FP32, BF16 and FP16 (R64). -/
def cvFp (n : Nat) : Dec FpF :=
  match n with
  | 8 => .ok .f64 | 9 => .ok .f32 | 10 => .ok .bf16 | 11 => .ok .f16 | _ => .error .unlistedCode
/-- Control register numbers (Table 2-2); any other sel raises ILL (R35). -/
def cReg (n : Nat) : Dec CReg :=
  match n with
  | 0 => .ok .vl | 1 => .ok .vms | 2 => .ok .vstr | 3 => .ok .vei | 4 => .ok .gth | 5 => .ok .fcr
  | 6 => .ok .fflags | 7 => .ok .fxr | 8 => .ok .srs | 9 => .ok .sid | 10 => .ok .mxo | _ => .error .unlistedCode
/-- System register numbers (Table 26-2); any other sel raises ILL (R416). -/
def sReg (n : Nat) : Dec SReg :=
  match n with
  | 0 => .ok .tvec | 1 => .ok .tpc | 2 => .ok .tcause | 3 => .ok .tval | 4 => .ok .telem | 5 => .ok .tqpos
  | 6 => .ok .tstat | 7 => .ok .tres | 8 => .ok .tscr0 | 9 => .ok .tscr1
  | 16 => .ok (.diecfg 0) | 17 => .ok (.diecfg 1) | 18 => .ok (.diecfg 2) | 19 => .ok (.diecfg 3)
  | 20 => .ok .hbmsplit | 21 => .ok .duty | _ => .error .unlistedCode
/-- Counter numbers (Table 13-6); 12–255 raise ILL (R251). -/
def counter (n : Nat) : Dec Counter :=
  match n with
  | 0 => .ok .cyc | 1 => .ok .reql | 2 => .ok .reqr | 3 => .ok .reqf | 4 => .ok .reqe | 5 => .ok .hopw
  | 6 => .ok .bconf | 7 => .ok .bmiss | 8 => .ok .hints | 9 => .ok .hintu | 10 => .ok .pwrhold | 11 => .ok .tlbm
  | _ => .error .unlistedCode
/-- An instance outside its counter's scope raises ILL (R251). -/
def counterOk (c i : Nat) : Dec Unit :=
  if i < (if c < 6 then 4 else if c < 8 then 32 else 1) then .ok () else .error .operandRange

/-- Major 0x01 (INT), Table 3-6. -/
def decInt (p1 p2 p3 fn : Nat) : Dec Instr :=
  match fn with
  | 0 => do return .add (← gReg p1) (← gReg p2) (← gReg p3)
  | 1 => do return .sub (← gReg p1) (← gReg p2) (← gReg p3)
  | 2 => do return .and (← gReg p1) (← gReg p2) (← gReg p3)
  | 3 => do return .or (← gReg p1) (← gReg p2) (← gReg p3)
  | 4 => do return .xor (← gReg p1) (← gReg p2) (← gReg p3)
  | 5 => do return .sll (← gReg p1) (← gReg p2) (← gReg p3)
  | 6 => do return .srl (← gReg p1) (← gReg p2) (← gReg p3)
  | 7 => do return .sra (← gReg p1) (← gReg p2) (← gReg p3)
  | 8 => do return .slt (← gReg p1) (← gReg p2) (← gReg p3)
  | 9 => do return .sltu (← gReg p1) (← gReg p2) (← gReg p3)
  | 10 => do return .min (← gReg p1) (← gReg p2) (← gReg p3)
  | 11 => do return .max (← gReg p1) (← gReg p2) (← gReg p3)
  | 12 => do return .minu (← gReg p1) (← gReg p2) (← gReg p3)
  | 13 => do return .maxu (← gReg p1) (← gReg p2) (← gReg p3)
  | 14 => do return .mul (← gReg p1) (← gReg p2) (← gReg p3)
  | 15 => do return .mulh (← gReg p1) (← gReg p2) (← gReg p3)
  | 16 => do return .mulhu (← gReg p1) (← gReg p2) (← gReg p3)
  | 17 => do return .div (← gReg p1) (← gReg p2) (← gReg p3)
  | 18 => do return .divu (← gReg p1) (← gReg p2) (← gReg p3)
  | 19 => do return .rem (← gReg p1) (← gReg p2) (← gReg p3)
  | 20 => do return .remu (← gReg p1) (← gReg p2) (← gReg p3)
  | 21 => do zero p3; return .clz (← gReg p1) (← gReg p2)
  | 22 => do zero p3; return .popc (← gReg p1) (← gReg p2)
  | 24 => do return .slli (← gReg p1) (← gReg p2) (BitVec.ofNat 6 p3)
  | 25 => do return .srli (← gReg p1) (← gReg p2) (BitVec.ofNat 6 p3)
  | 26 => do return .srai (← gReg p1) (← gReg p2) (BitVec.ofNat 6 p3)
  | _ => .error .unlistedCode

/-- Major 0x17 (FPR), Table 3-7: operation fn[7:1], width fn[0]. -/
def decFpr (p1 p2 p3 fn : Nat) : Dec Instr :=
  match fn / 2 with
  | 0 => do return .fadd (← fReg p1) (← fReg p2) (← fReg p3) (ScF.ofCode (fn % 2))
  | 1 => do return .fsub (← fReg p1) (← fReg p2) (← fReg p3) (ScF.ofCode (fn % 2))
  | 2 => do return .fmul (← fReg p1) (← fReg p2) (← fReg p3) (ScF.ofCode (fn % 2))
  | 3 => do return .fdiv (← fReg p1) (← fReg p2) (← fReg p3) (ScF.ofCode (fn % 2))
  | 4 => do zero p3; return .fsqrt (← fReg p1) (← fReg p2) (ScF.ofCode (fn % 2))
  | 5 => do return .fmin (← fReg p1) (← fReg p2) (← fReg p3) (ScF.ofCode (fn % 2))
  | 6 => do return .fmax (← fReg p1) (← fReg p2) (← fReg p3) (ScF.ofCode (fn % 2))
  | 8 => do return .feq (← gReg p1) (← fReg p2) (← fReg p3) (ScF.ofCode (fn % 2))
  | 9 => do return .flt (← gReg p1) (← fReg p2) (← fReg p3) (ScF.ofCode (fn % 2))
  | 10 => do return .fle (← gReg p1) (← fReg p2) (← fReg p3) (ScF.ofCode (fn % 2))
  | 12 => do zero p3; return .fcvtFmtWidth (← fReg p1) (← fReg p2) (ScF.ofCode (fn % 2))
  | 13 => do zero p3; return .fcvtFmtL (← fReg p1) (← gReg p2) (ScF.ofCode (fn % 2))
  | 14 => do zero p3; return .fcvtLFmt (← gReg p1) (← fReg p2) (ScF.ofCode (fn % 2))
  | 16 => do zero p3; return .fgrd (← gReg p1) (← fReg p2) (ScF.ofCode (fn % 2))
  | 17 => do zero p3; return .fgset (← fReg p1) (← gReg p2) (ScF.ofCode (fn % 2))
  | 18 => do zero p3; return .fmvFmtG (← fReg p1) (← gReg p2) (ScF.ofCode (fn % 2))
  | 19 => do zero p3; return .fmvGFmt (← gReg p1) (← fReg p2) (ScF.ofCode (fn % 2))
  | _ => .error .unlistedCode

/-- Major 0x18 (FMA), Table 3-7. -/
def decFma (p1 p2 p3 fn : Nat) : Dec Instr :=
  match fn / 2 % 2 with
  | 0 => do return .fmadd (← fReg p1) (← fReg p2) (← fReg p3) (← fReg (fn / 4)) (ScF.ofCode (fn % 2))
  | 1 => do return .fmsub (← fReg p1) (← fReg p2) (← fReg p3) (← fReg (fn / 4)) (ScF.ofCode (fn % 2))
  | _ => .error .unlistedCode

/-- Major 0x23 (VMOVE), Table 3-8. -/
def decVmove (p1 p2 p3 fn : Nat) : Dec Instr :=
  match fn with
  | 0 => do return .vins (← vReg p1) (← gReg p2) (← gReg p3)
  | 1 => do return .vext (← gReg p1) (← vReg p2) (← gReg p3)
  | 2 => do return .vfins (← vReg p1) (← fReg p2) (← gReg p3)
  | 3 => do return .vfext (← fReg p1) (← vReg p2) (← gReg p3)
  | _ => .error .unlistedCode

/-- Major 0x24 (VI), Table 3-8: operation fn[7:3], width fn[2:1], scalar bit fn[0]. -/
def decVi (p1 p2 p3 fn : Nat) : Dec Instr :=
  match fn / 8 with
  | 0 => do return .vadd (← vReg p1) (← vReg p2) (← viSrc (fn % 2) p3) (IntW.ofCode (fn / 2 % 4))
  | 1 => do return .vsub (← vReg p1) (← vReg p2) (← viSrc (fn % 2) p3) (IntW.ofCode (fn / 2 % 4))
  | 2 => do return .vmul (← vReg p1) (← vReg p2) (← viSrc (fn % 2) p3) (IntW.ofCode (fn / 2 % 4))
  | 3 => do return .vmulh (← vReg p1) (← vReg p2) (← viSrc (fn % 2) p3) (IntW.ofCode (fn / 2 % 4))
  | 4 => do return .vmulhu (← vReg p1) (← vReg p2) (← viSrc (fn % 2) p3) (IntW.ofCode (fn / 2 % 4))
  | 5 => do return .vmin (← vReg p1) (← vReg p2) (← viSrc (fn % 2) p3) (IntW.ofCode (fn / 2 % 4))
  | 6 => do return .vmax (← vReg p1) (← vReg p2) (← viSrc (fn % 2) p3) (IntW.ofCode (fn / 2 % 4))
  | 7 => do return .vminu (← vReg p1) (← vReg p2) (← viSrc (fn % 2) p3) (IntW.ofCode (fn / 2 % 4))
  | 8 => do return .vmaxu (← vReg p1) (← vReg p2) (← viSrc (fn % 2) p3) (IntW.ofCode (fn / 2 % 4))
  | 9 => do return .vand (← vReg p1) (← vReg p2) (← viSrc (fn % 2) p3) (IntW.ofCode (fn / 2 % 4))
  | 10 => do return .vor (← vReg p1) (← vReg p2) (← viSrc (fn % 2) p3) (IntW.ofCode (fn / 2 % 4))
  | 11 => do return .vxor (← vReg p1) (← vReg p2) (← viSrc (fn % 2) p3) (IntW.ofCode (fn / 2 % 4))
  | 12 => do return .vsll (← vReg p1) (← vReg p2) (← viSrc (fn % 2) p3) (IntW.ofCode (fn / 2 % 4))
  | 13 => do return .vsrl (← vReg p1) (← vReg p2) (← viSrc (fn % 2) p3) (IntW.ofCode (fn / 2 % 4))
  | 14 => do return .vsra (← vReg p1) (← vReg p2) (← viSrc (fn % 2) p3) (IntW.ofCode (fn / 2 % 4))
  | 15 => do return .vsadd (← vReg p1) (← vReg p2) (← viSrc (fn % 2) p3) (IntW.ofCode (fn / 2 % 4))
  | 16 => do return .vsaddu (← vReg p1) (← vReg p2) (← viSrc (fn % 2) p3) (IntW.ofCode (fn / 2 % 4))
  | 17 => do return .vssub (← vReg p1) (← vReg p2) (← viSrc (fn % 2) p3) (IntW.ofCode (fn / 2 % 4))
  | 18 => do return .vssubu (← vReg p1) (← vReg p2) (← viSrc (fn % 2) p3) (IntW.ofCode (fn / 2 % 4))
  | 19 => do zero p2; return .vmv (← vReg p1) (← viSrc (fn % 2) p3) (IntW.ofCode (fn / 2 % 4))
  | 20 => do return .vseq (← mReg p1) (← vReg p2) (← viSrc (fn % 2) p3) (IntW.ofCode (fn / 2 % 4))
  | 21 => do return .vsne (← mReg p1) (← vReg p2) (← viSrc (fn % 2) p3) (IntW.ofCode (fn / 2 % 4))
  | 22 => do return .vslt (← mReg p1) (← vReg p2) (← viSrc (fn % 2) p3) (IntW.ofCode (fn / 2 % 4))
  | 23 => do return .vsltu (← mReg p1) (← vReg p2) (← viSrc (fn % 2) p3) (IntW.ofCode (fn / 2 % 4))
  | 24 => do return .vsle (← mReg p1) (← vReg p2) (← viSrc (fn % 2) p3) (IntW.ofCode (fn / 2 % 4))
  | 25 => do return .vsleu (← mReg p1) (← vReg p2) (← viSrc (fn % 2) p3) (IntW.ofCode (fn / 2 % 4))
  | _ => .error .unlistedCode

/-- Major 0x25 (VCARRY), Table 3-8. -/
def decVcarry (p1 p2 p3 fn : Nat) : Dec Instr :=
  match fn % 2 with
  | 0 => do return .vadc (← vReg p1) (← vReg p2) (← vReg p3) (← mReg (fn / 4)) (CarryW.ofCode (fn / 2 % 2))
  | 1 => do return .vsbc (← vReg p1) (← vReg p2) (← vReg p3) (← mReg (fn / 4)) (CarryW.ofCode (fn / 2 % 2))
  | _ => .error .unlistedCode

/-- Major 0x26 (VF), Table 3-9: operation fn[7:3], format fn[2:1], scalar bit fn[0]. -/
def decVf (p1 p2 p3 fn : Nat) : Dec Instr :=
  match fn / 8 with
  | 0 => do return .vfadd (← vReg p1) (← vReg p2) (← vfSrc (fn % 2) p3) (FpF.ofCode (fn / 2 % 4))
  | 1 => do return .vfsub (← vReg p1) (← vReg p2) (← vfSrc (fn % 2) p3) (FpF.ofCode (fn / 2 % 4))
  | 2 => do return .vfmul (← vReg p1) (← vReg p2) (← vfSrc (fn % 2) p3) (FpF.ofCode (fn / 2 % 4))
  | 3 => do return .vfdiv (← vReg p1) (← vReg p2) (← vfSrc (fn % 2) p3) (FpF.ofCode (fn / 2 % 4))
  | 4 => do zero p3; zero (fn % 2); return .vfsqrt (← vReg p1) (← vReg p2) (FpF.ofCode (fn / 2 % 4))
  | 5 => do return .vfmin (← vReg p1) (← vReg p2) (← vfSrc (fn % 2) p3) (FpF.ofCode (fn / 2 % 4))
  | 6 => do return .vfmax (← vReg p1) (← vReg p2) (← vfSrc (fn % 2) p3) (FpF.ofCode (fn / 2 % 4))
  | 7 => do return .vfmadd (← vReg p1) (← vReg p2) (← vfSrc (fn % 2) p3) (FpF.ofCode (fn / 2 % 4))
  | 8 => do return .vfmsub (← vReg p1) (← vReg p2) (← vfSrc (fn % 2) p3) (FpF.ofCode (fn / 2 % 4))
  | 9 => do return .vfnmadd (← vReg p1) (← vReg p2) (← vfSrc (fn % 2) p3) (FpF.ofCode (fn / 2 % 4))
  | 10 => do return .vfnmsub (← vReg p1) (← vReg p2) (← vfSrc (fn % 2) p3) (FpF.ofCode (fn / 2 % 4))
  | 11 => do zero p3; zero (fn % 2); return .vfabs (← vReg p1) (← vReg p2) (FpF.ofCode (fn / 2 % 4))
  | 12 => do zero p3; zero (fn % 2); return .vfneg (← vReg p1) (← vReg p2) (FpF.ofCode (fn / 2 % 4))
  | 13 => do return .vfsgn (← vReg p1) (← vReg p2) (← vfSrc (fn % 2) p3) (FpF.ofCode (fn / 2 % 4))
  | 14 => do return .vfsgnn (← vReg p1) (← vReg p2) (← vfSrc (fn % 2) p3) (FpF.ofCode (fn / 2 % 4))
  | 15 => do return .vfsgnx (← vReg p1) (← vReg p2) (← vfSrc (fn % 2) p3) (FpF.ofCode (fn / 2 % 4))
  | 16 => do zero p3; zero (fn % 2); return .vfclass (← vReg p1) (← vReg p2) (FpF.ofCode (fn / 2 % 4))
  | 17 => do return .vfeq (← mReg p1) (← vReg p2) (← vfSrc (fn % 2) p3) (FpF.ofCode (fn / 2 % 4))
  | 18 => do return .vfne (← mReg p1) (← vReg p2) (← vfSrc (fn % 2) p3) (FpF.ofCode (fn / 2 % 4))
  | 19 => do return .vflt (← mReg p1) (← vReg p2) (← vfSrc (fn % 2) p3) (FpF.ofCode (fn / 2 % 4))
  | 20 => do return .vfle (← mReg p1) (← vReg p2) (← vfSrc (fn % 2) p3) (FpF.ofCode (fn / 2 % 4))
  | 21 => do return .vfun (← mReg p1) (← vReg p2) (← vfSrc (fn % 2) p3) (FpF.ofCode (fn / 2 % 4))
  | _ => .error .unlistedCode

/-- Major 0x27 (VG), Table 3-10. -/
def decVg (p1 p2 p3 fn : Nat) : Dec Instr :=
  match fn / 8 with
  | 0 => do zero p3; zero (fn % 2); return .vgrd (← vReg p1) (← vReg p2) (FpF.ofCode (fn / 2 % 4))
  | 1 => do zero p3; zero (fn % 2); return .vgwr (← vReg p1) (← vReg p2) (FpF.ofCode (fn / 2 % 4))
  | 2 => do zero p3; zero (fn % 2); return .vgset (← vReg p1) (← gReg p2) (FpF.ofCode (fn / 2 % 4))
  | 3 => do zero (fn % 2); return .vglt (← mReg p1) (← vReg p2) (← gReg p3) (FpF.ofCode (fn / 2 % 4))
  | 4 => do zero p3; zero (fn % 2); return .vgmin (← gReg p1) (← vReg p2) (FpF.ofCode (fn / 2 % 4))
  | 5 => do zero p2; zero p3; zero (fn % 2); return .vgfull (← vReg p1) (FpF.ofCode (fn / 2 % 4))
  | _ => .error .unlistedCode

/-- Major 0x28 (VMEM), Table 3-11: operation fn[7:3], type code fn[2:0]. -/
def decVmem (p1 p2 p3 fn : Nat) : Dec Instr :=
  match fn / 8 with
  | 0 => do zero p3; return .vld (← vReg p1) (← gReg p2) (ElTy.ofCode (fn % 8))
  | 1 => do zero p3; return .vst (← vReg p1) (← gReg p2) (ElTy.ofCode (fn % 8))
  | 2 => do zero p3; return .vlds (← vReg p1) (← gReg p2) (ElTy.ofCode (fn % 8))
  | 3 => do zero p3; return .vsts (← vReg p1) (← gReg p2) (ElTy.ofCode (fn % 8))
  | 4 => do return .vldx (← vReg p1) (← gReg p2) (← vReg p3) (ElTy.ofCode (fn % 8))
  | 5 => do return .vstx (← vReg p1) (← gReg p2) (← vReg p3) (ElTy.ofCode (fn % 8))
  | 6 => do return .vstxa (← vReg p1) (← gReg p2) (← vReg p3) (← sumTy (fn % 8))
  | 7 => do zero p2; return .vldLn (← vReg p1) (← vReg p3) (ElTy.ofCode (fn % 8))
  | 8 => do zero p2; return .vstLn (← vReg p1) (← vReg p3) (ElTy.ofCode (fn % 8))
  | 9 => do zero p3; return .vldb (← vReg p1) (← gReg p2) (ElTy.ofCode (fn % 8))
  | 10 => do zero p3; fpCode (fn % 8); return .vldG (← vReg p1) (← gReg p2) (FpF.ofCode (fn % 4))
  | 11 => do zero p3; fpCode (fn % 8); return .vstG (← vReg p1) (← gReg p2) (FpF.ofCode (fn % 4))
  | 12 => do return .sbind (← vReg p1) (← gReg p2) (← slot p3) (ElTy.ofCode (fn % 8))
  | 13 => do zero p1; zero p2; zero (fn % 8); return .sfree (← slot p3)
  | 14 => do zero p1; zero (fn % 8); return .sskip (← gReg p2) (← slot p3)
  | 15 => do zero p2; zero (fn % 8); return .sstat (← gReg p1) (← slot p3)
  | 16 => do zero p1; zero p3; zero (fn % 8); return .vpre (← gReg p2)
  | _ => .error .unlistedCode

/-- Major 0x29 (MASK), Table 3-12. -/
def decMask (p1 p2 p3 fn : Nat) : Dec Instr :=
  match fn with
  | 0 => do return .mand (← mReg p1) (← mReg p2) (← mReg p3)
  | 1 => do return .mor (← mReg p1) (← mReg p2) (← mReg p3)
  | 2 => do return .mxor (← mReg p1) (← mReg p2) (← mReg p3)
  | 3 => do return .mandn (← mReg p1) (← mReg p2) (← mReg p3)
  | 4 => do zero p3; return .mnot (← mReg p1) (← mReg p2)
  | 5 => do return .mshl (← mReg p1) (← mReg p2) (← gReg p3)
  | 6 => do return .mshr (← mReg p1) (← mReg p2) (← gReg p3)
  | 7 => do zero p3; return .mpop (← gReg p1) (← mReg p2)
  | 8 => do zero p3; return .mfirst (← gReg p1) (← mReg p2)
  | 9 => do zero p2; zero p3; return .mset (← mReg p1)
  | 10 => do zero p2; zero p3; return .mclr (← mReg p1)
  | 11 => do zero p3; return .mfrom (← mReg p1) (← vReg p2)
  | _ => .error .unlistedCode

/-- Major 0x2A (PERM), Table 3-13 and Table 10-1. -/
def decPerm (p1 p2 p3 fn : Nat) : Dec Instr :=
  match fn / 8 with
  | 0 => do return .vslup (← vReg p1) (← vReg p2) (← gReg p3) (ElTy.ofCode (fn % 8))
  | 1 => do return .vsldn (← vReg p1) (← vReg p2) (← gReg p3) (ElTy.ofCode (fn % 8))
  | 2 => do zero p3; return .vpack (← vReg p1) (← vReg p2) (ElTy.ofCode (fn % 8))
  | 3 => do zero p3; return .vunpk (← vReg p1) (← vReg p2) (ElTy.ofCode (fn % 8))
  | 4 => do return .vperm (← vReg p1) (← vReg p2) (← vReg p3) (ElTy.ofCode (fn % 8))
  | 5 => do zero p3; return .vconfl (← vReg p1) (← vReg p2) (← intTy (fn % 8))
  | 6 => do zero p3; return .vrsum (← redDst (fn % 8) p1) (← vReg p2)
  | 7 => do zero p3; return .vrosum (← fReg p1) (← vReg p2) (← fpTy (fn % 8))
  | 8 => do zero p3; return .vrmin (← redDst (fn % 8) p1) (← vReg p2)
  | 9 => do zero p3; return .vrmax (← redDst (fn % 8) p1) (← vReg p2)
  | 10 => do zero p3; return .vrand (← gReg p1) (← vReg p2) (← intTy (fn % 8))
  | 11 => do zero p3; return .vrior (← gReg p1) (← vReg p2) (← intTy (fn % 8))
  | 12 => do zero p3; return .vrosat (← gReg p1) (← vReg p2) (← intTy (fn % 8))
  | 13 => do zero p3; return .vscan (← vReg p1) (← vReg p2) (ElTy.ofCode (fn % 8))
  | 14 => do return .vlrec (← vReg p1) (← vReg p2) (← vReg p3) (← fpTy (fn % 8))
  | 15 => do return .vsel (← vReg p1) (← vReg p2) (← vReg p3) (ElTy.ofCode (fn % 8))
  | _ => .error .unlistedCode

/-- Major 0x2C (MX), Table 3-15. -/
def decMx (p1 p2 p3 fn : Nat) : Dec Instr :=
  match fn / 16 with
  | 0 => do zero p1; zero (fn % 2); return .mxLdw (← gReg p2) (← gReg p3) (← mxFmt (fn / 2 % 8))
  | 1 => do zero p1; zero (fn % 2); return .mxLdwg (← gReg p2) (← vReg p3) (← mxFmt (fn / 2 % 8))
  | 2 => do zero p1; zero p2; zero p3; zero (fn % 16); return .mxSwap
  | 3 => do zero (fn % 2); mxBand (fn / 2 % 8) p3; return .mxStep (← tile p1) (← vReg p2) (← fReg p3) (← mxFmt (fn / 2 % 8))
  | 4 => do zero (fn % 2); mxBand (fn / 2 % 8) p3; return .mxStepz (← tile p1) (← vReg p2) (← fReg p3) (← mxFmt (fn / 2 % 8))
  | 5 => do zero (fn % 2); mxBand (fn / 2 % 8) p3; return .mxSteps (← tile p1) (← vReg p2) (← fReg p3) (← mxFmt (fn / 2 % 8))
  | 6 => do zero p2; zero p3; zero (fn % 16); return .mxZero (← tile p1)
  | 7 => do zero (fn % 16); return .mxRd (← vReg p1) (← tile p2) (← gReg p3)
  | 8 => do zero (fn % 16); return .mxWr (← tile p1) (← vReg p2) (← gReg p3)
  | 9 => do zero (fn % 16); return .mxSt (← tile p1) (← gReg p2) (← gReg p3)
  | 10 => do zero p1; zero p3; zero (fn % 16); return .mxCfg (← gReg p2)
  | 11 => do zero p3; zero (fn % 16); return .mxSkip (← tile p1) (← fReg p2)
  | 12 => do zero p1; zero p3; zero (fn % 16); return .mxGrant (← gReg p2)
  | 13 => do zero p1; zero p2; zero p3; zero (fn % 16); return .mxRet
  | _ => .error .unlistedCode

/-- Major 0x2D (AMO), Table 3-16. -/
def decAmo (p1 p2 p3 fn : Nat) : Dec Instr :=
  match fn / 16 with
  | 0 => do return .amoAddW (← gReg p1) (← gReg p2) (← gReg p3) (lvl (fn % 16))
  | 1 => do return .amoAddL (← gReg p1) (← gReg p2) (← gReg p3) (lvl (fn % 16))
  | 2 => do return .amoMinL (← gReg p1) (← gReg p2) (← gReg p3) (lvl (fn % 16))
  | 3 => do return .amoMaxL (← gReg p1) (← gReg p2) (← gReg p3) (lvl (fn % 16))
  | 4 => do return .amoMinuL (← gReg p1) (← gReg p2) (← gReg p3) (lvl (fn % 16))
  | 5 => do return .amoMaxuL (← gReg p1) (← gReg p2) (← gReg p3) (lvl (fn % 16))
  | 6 => do return .amoAndL (← gReg p1) (← gReg p2) (← gReg p3) (lvl (fn % 16))
  | 7 => do return .amoOrL (← gReg p1) (← gReg p2) (← gReg p3) (lvl (fn % 16))
  | 8 => do return .amoXorL (← gReg p1) (← gReg p2) (← gReg p3) (lvl (fn % 16))
  | 9 => do return .amoSwapW (← gReg p1) (← gReg p2) (← gReg p3) (lvl (fn % 16))
  | 10 => do return .amoSwapL (← gReg p1) (← gReg p2) (← gReg p3) (lvl (fn % 16))
  | 11 => do return .amoCasW (← gReg p1) (← gReg p2) (← gReg p3) (lvl (fn % 16))
  | 12 => do return .amoCasL (← gReg p1) (← gReg p2) (← gReg p3) (lvl (fn % 16))
  | 13 => do return .amoFaddF32 (← gReg p1) (← gReg p2) (← gReg p3) (lvl (fn % 16))
  | 14 => do return .amoFaddF64 (← gReg p1) (← gReg p2) (← gReg p3) (lvl (fn % 16))
  | _ => .error .unlistedCode

/-- Major 0x2E (VAMO), Table 3-16. -/
def decVamo (p1 p2 p3 fn : Nat) : Dec Instr :=
  match fn / 16 with
  | 0 => do return .vamoAddW (← vReg p1) (← gReg p2) (← vReg p3) (lvl (fn % 16))
  | 1 => do return .vamoAddL (← vReg p1) (← gReg p2) (← vReg p3) (lvl (fn % 16))
  | 2 => do return .vamoMinL (← vReg p1) (← gReg p2) (← vReg p3) (lvl (fn % 16))
  | 3 => do return .vamoMaxL (← vReg p1) (← gReg p2) (← vReg p3) (lvl (fn % 16))
  | 4 => do return .vamoMinuL (← vReg p1) (← gReg p2) (← vReg p3) (lvl (fn % 16))
  | 5 => do return .vamoMaxuL (← vReg p1) (← gReg p2) (← vReg p3) (lvl (fn % 16))
  | 6 => do return .vamoAndL (← vReg p1) (← gReg p2) (← vReg p3) (lvl (fn % 16))
  | 7 => do return .vamoOrL (← vReg p1) (← gReg p2) (← vReg p3) (lvl (fn % 16))
  | 8 => do return .vamoXorL (← vReg p1) (← gReg p2) (← vReg p3) (lvl (fn % 16))
  | 9 => do return .vamoSwapW (← vReg p1) (← gReg p2) (← vReg p3) (lvl (fn % 16))
  | 10 => do return .vamoSwapL (← vReg p1) (← gReg p2) (← vReg p3) (lvl (fn % 16))
  | 13 => do return .vamoFaddF32 (← vReg p1) (← gReg p2) (← vReg p3) (lvl (fn % 16))
  | 14 => do return .vamoFaddF64 (← vReg p1) (← gReg p2) (← vReg p3) (lvl (fn % 16))
  | _ => .error .unlistedCode

/-- Major 0x2F (ORD), Table 3-17; field b selects among the fences. -/
def decOrd (p1 p2 p3 fn : Nat) : Dec Instr :=
  match fn / 16 with
  | 0 => do
    zero p1; zero p2
    match p3 with
    | 0 => return .fence (lvl (fn % 16))
    | 1 => return .fenceAcq (lvl (fn % 16))
    | 2 => return .fenceRel (lvl (fn % 16))
    | _ => .error .unlistedCode
  | 1 => do zero p3; return .ldAcqW (← gReg p1) (← gReg p2) (lvl (fn % 16))
  | 2 => do zero p3; return .ldAcqL (← gReg p1) (← gReg p2) (lvl (fn % 16))
  | 3 => do zero p3; return .stRelW (← gReg p1) (← gReg p2) (lvl (fn % 16))
  | 4 => do zero p3; return .stRelL (← gReg p1) (← gReg p2) (lvl (fn % 16))
  | 5 => do zero p3; return .vldAcqL (← vReg p1) (← gReg p2) (lvl (fn % 16))
  | 6 => do zero p3; return .vldAcqF64 (← vReg p1) (← gReg p2) (lvl (fn % 16))
  | 7 => do zero p3; return .vstRelL (← vReg p1) (← gReg p2) (lvl (fn % 16))
  | 8 => do zero p3; return .vstRelF64 (← vReg p1) (← gReg p2) (lvl (fn % 16))
  | 9 => do zero p1; zero p2; zero p3; zero (fn % 16); return .tlAcq
  | 10 => do zero p1; zero p2; zero p3; zero (fn % 16); return .vsync
  | _ => .error .unlistedCode

/-- Major 0x30 (SYNC), Table 3-17. -/
def decSync (p1 p2 p3 fn : Nat) : Dec Instr :=
  match fn / 16 with
  | 0 => do zero p2; zero p3; return .bar (← gReg p1) (lvl (fn % 16))
  | 1 => do zero (fn % 16); return .claim (← gReg p1) (← gReg p2) (← gReg p3)
  | 2 => do zero p1; zero p2; zero (fn % 16); return .vsplit (← splitN p3)
  | 3 => do zero p1; zero p2; zero p3; zero (fn % 16); return .vmerge
  | 4 => do zero p1; zero p2; zero p3; zero (fn % 16); return .swait
  | 5 => do zero p1; zero p3; zero (fn % 16); return .swake (← gReg p2)
  | 6 => do zero p3; return .hq (← gReg p1) (← gReg p2) (lvl (fn % 16))
  | 7 => do zero p1; zero p2; zero p3; zero (fn % 16); return .sdone
  | 8 => do zero p1; zero p2; zero p3; zero (fn % 16); return .syield
  | 9 => do zero p1; zero p2; zero (fn % 16); return .rplCap (← capN p3)
  | 10 => do zero p1; zero p3; zero (fn % 16); return .rplRun (← gReg p2)
  | _ => .error .unlistedCode

/-- Major 0x31 (ENG), Table 3-18. -/
def decEng (p1 p2 sel : Nat) : Dec Instr :=
  match sel / 4096 with
  | 0 => do zero p1; zero (sel / 8 % 512); return .engPush (← gReg p2) (fin8 (sel % 8))
  | 1 => do zero (sel / 8 % 512); return .engPop (← gReg p1) (← gReg p2) (fin8 (sel % 8))
  | 2 => do zero p2; zero (sel / 8 % 512); return .engPoll (← gReg p1) (fin8 (sel % 8))
  | 3 => do zero p1; zero p2; zero (sel / 8 % 512); return .engDrain (fin8 (sel % 8))
  | _ => .error .unlistedCode

/-- Major 0x32 (COLL), Table 3-18: OP is sel[10:8], OPR sel[7:5], TYPE sel[4:2], TOPK sel[1]. -/
def decColl (p1 p2 sel : Nat) : Dec Instr :=
  match sel / 256 % 8 with
  | 0 => do zero (sel % 2); colReduce (sel / 32 % 8) (sel / 4 % 8) (sel / 2 % 2); return .colRed (← vReg p1) (← vReg p2) (fin8 (sel / 2048)) (← colOp (sel / 32 % 8)) (ElTy.ofCode (sel / 4 % 8)) ((sel / 2 % 2) == 1)
  | 1 => do zero (sel % 2); colReduce (sel / 32 % 8) (sel / 4 % 8) (sel / 2 % 2); return .colAred (← vReg p1) (← vReg p2) (fin8 (sel / 2048)) (← colOp (sel / 32 % 8)) (ElTy.ofCode (sel / 4 % 8)) ((sel / 2 % 2) == 1)
  | 2 => do zero (sel / 32 % 8); zero (sel % 4); return .colGat (← vReg p1) (← vReg p2) (fin8 (sel / 2048)) (ElTy.ofCode (sel / 4 % 8))
  | 3 => do zero (sel / 32 % 8); zero (sel % 4); return .colAgat (← vReg p1) (← vReg p2) (fin8 (sel / 2048)) (ElTy.ofCode (sel / 4 % 8))
  | 4 => do zero (sel / 32 % 8); zero (sel % 4); return .colSct (← vReg p1) (← vReg p2) (fin8 (sel / 2048)) (ElTy.ofCode (sel / 4 % 8))
  | 5 => do zero (sel / 32 % 8); zero (sel % 4); return .colA2a (← vReg p1) (← vReg p2) (fin8 (sel / 2048)) (ElTy.ofCode (sel / 4 % 8))
  | 6 => do
    zero (sel % 32)
    match sel / 32 % 8 with
    | 0 => do return .grpJoin (← gReg p1) (← gReg p2) (fin8 (sel / 2048))
    | 1 => do zero p2; return .grpLeave (← gReg p1) (fin8 (sel / 2048))
    | 2 => do return .grpInfo (← gReg p1) (← gReg p2) (fin8 (sel / 2048))
    | 3 => do return .grpLoad (← gReg p1) (← gReg p2) (fin8 (sel / 2048))
    | _ => .error .unlistedCode
  | _ => .error .unlistedCode

/-- Major 0x38 (SYS), Table 3-19. -/
def decSys (p1 p2 p3 fn : Nat) : Dec Instr :=
  match fn with
  | 0 => do zero p1; zero p2; zero p3; return .sys
  | 1 => do zero p1; zero p3; return .trap (← gReg p2)
  | 2 => do zero p1; zero p2; zero p3; return .tret
  | 3 => do zero p1; zero p2; zero p3; return .brk
  | 4 => do zero p1; zero p2; zero p3; return .wait
  | 5 => do zero p3; return .drd (← gReg p1) (← gReg p2)
  | 6 => do zero p1; zero p3; return .svc (← gReg p2)
  | 7 => do zero p1; zero p3; return .logApp (← gReg p2)
  | _ => .error .unlistedCode

/-- Major 0x2B (CVT), Table 3-14: the destination and source codes choose between vquant, vdequant and vcvt, and
the combinations R64 lists raise ILL. -/
def decCvt (p1 p2 x : Nat) : Dec Instr := do
  zero (x / 4096)
  let src := x / 256 % 16
  let dst := x / 16 % 16
  let r ← rnd (x / 2 % 8)
  let sat := x % 2 == 1
  if dst = 14 then
    let s ← cvFp src
    if sat then .error .unlistedCode else return .vquant (← vReg p1) (← vReg p2) s r
  else if src = 14 then
    let t ← cvFp dst
    if dequantOk t r sat then return .vdequant (← vReg p1) (← vReg p2) t r sat else .error .unlistedCode
  else
    let s ← cvTy src
    let t ← cvTy dst
    if cvtOk s t r sat then return .vcvt (← vReg p1) (← vReg p2) s t r sat else .error .unlistedCode

/-- An instruction word split into op, the three 6-bit fields' values and the low 14 bits (Table 3-1), decoded by its
major opcode (Table 3-3). Majors 0x00 and 0x39–0x3F are unallocated (R52). -/
def decodeFields (op p1 p2 x : Nat) : Dec Instr :=
  match op with
  | 1 => decInt p1 p2 (x / 256) (x % 256)
  | 2 => do return .addi (← gReg p1) (← gReg p2) (BitVec.ofNat 14 x)
  | 3 => do return .andi (← gReg p1) (← gReg p2) (BitVec.ofNat 14 x)
  | 4 => do return .ori (← gReg p1) (← gReg p2) (BitVec.ofNat 14 x)
  | 5 => do return .xori (← gReg p1) (← gReg p2) (BitVec.ofNat 14 x)
  | 6 => do return .slti (← gReg p1) (← gReg p2) (BitVec.ofNat 14 x)
  | 7 => do return .sltiu (← gReg p1) (← gReg p2) (BitVec.ofNat 14 x)
  | 8 => do return .lhi (← gReg p1) (BitVec.ofNat 20 (p2 * 16384 + x))
  | 9 => do return .adpc (← gReg p1) (BitVec.ofNat 20 (p2 * 16384 + x))
  | 10 => do return .ldB (← gReg p1) (← gReg p2) (BitVec.ofNat 14 x)
  | 11 => do return .ldBu (← gReg p1) (← gReg p2) (BitVec.ofNat 14 x)
  | 12 => do return .ldH (← gReg p1) (← gReg p2) (BitVec.ofNat 14 x)
  | 13 => do return .ldHu (← gReg p1) (← gReg p2) (BitVec.ofNat 14 x)
  | 14 => do return .ldW (← gReg p1) (← gReg p2) (BitVec.ofNat 14 x)
  | 15 => do return .ldWu (← gReg p1) (← gReg p2) (BitVec.ofNat 14 x)
  | 16 => do return .ldL (← gReg p1) (← gReg p2) (BitVec.ofNat 14 x)
  | 17 => do return .stB (← gReg p1) (← gReg p2) (BitVec.ofNat 14 x)
  | 18 => do return .stH (← gReg p1) (← gReg p2) (BitVec.ofNat 14 x)
  | 19 => do return .stW (← gReg p1) (← gReg p2) (BitVec.ofNat 14 x)
  | 20 => do return .stL (← gReg p1) (← gReg p2) (BitVec.ofNat 14 x)
  | 21 => do zero (p1 / 16 % 2); return .fld (ScF.ofCode (p1 / 32)) (← fReg (p1 % 16)) (← gReg p2) (BitVec.ofNat 14 x)
  | 22 => do zero (p1 / 16 % 2); return .fst (ScF.ofCode (p1 / 32)) (← fReg (p1 % 16)) (← gReg p2) (BitVec.ofNat 14 x)
  | 23 => decFpr p1 p2 (x / 256) (x % 256)
  | 24 => decFma p1 p2 (x / 256) (x % 256)
  | 25 => do return .beq (← gReg p1) (← gReg p2) (BitVec.ofNat 14 x)
  | 26 => do return .bne (← gReg p1) (← gReg p2) (BitVec.ofNat 14 x)
  | 27 => do return .blt (← gReg p1) (← gReg p2) (BitVec.ofNat 14 x)
  | 28 => do return .bge (← gReg p1) (← gReg p2) (BitVec.ofNat 14 x)
  | 29 => do return .bltu (← gReg p1) (← gReg p2) (BitVec.ofNat 14 x)
  | 30 => do return .bgeu (← gReg p1) (← gReg p2) (BitVec.ofNat 14 x)
  | 31 =>
    match p2 with
    | 0 => do return .bmz (← mReg p1) (BitVec.ofNat 14 x)
    | 1 => do return .bmnz (← mReg p1) (BitVec.ofNat 14 x)
    | 2 => do return .bmall (← mReg p1) (BitVec.ofNat 14 x)
    | _ => .error .unlistedCode
  | 32 => .ok (.jmp (BitVec.ofNat 26 (p1 * 1048576 + p2 * 16384 + x)))
  | 33 => .ok (.jal (BitVec.ofNat 26 (p1 * 1048576 + p2 * 16384 + x)))
  | 34 => do return .jr (← gReg p1) (← gReg p2) (BitVec.ofNat 14 x)
  | 35 => decVmove p1 p2 (x / 256) (x % 256)
  | 36 => decVi p1 p2 (x / 256) (x % 256)
  | 37 => decVcarry p1 p2 (x / 256) (x % 256)
  | 38 => decVf p1 p2 (x / 256) (x % 256)
  | 39 => decVg p1 p2 (x / 256) (x % 256)
  | 40 => decVmem p1 p2 (x / 256) (x % 256)
  | 41 => decMask p1 p2 (x / 256) (x % 256)
  | 42 => decPerm p1 p2 (x / 256) (x % 256)
  | 43 => decCvt p1 p2 x
  | 44 => decMx p1 p2 (x / 256) (x % 256)
  | 45 => decAmo p1 p2 (x / 256) (x % 256)
  | 46 => decVamo p1 p2 (x / 256) (x % 256)
  | 47 => decOrd p1 p2 (x / 256) (x % 256)
  | 48 => decSync p1 p2 (x / 256) (x % 256)
  | 49 => decEng p1 p2 x
  | 50 => decColl p1 p2 x
  | 51 => do zero p2; return .crd (← gReg p1) (← cReg x)
  | 52 => do zero p1; return .cwr (← gReg p2) (← cReg x)
  | 53 => do zero p2; return .srd (← gReg p1) (← sReg x)
  | 54 => do zero p1; return .swr (← gReg p2) (← sReg x)
  | 55 => do zero p2; counterOk (x / 64) (x % 64); return .cntRd (← gReg p1) (← counter (x / 64)) (BitVec.ofNat 6 (x % 64))
  | 56 => decSys p1 p2 (x / 256) (x % 256)
  | _ => .error .unallocatedMajor
/-- The decoder of one instruction word: op is bits [31:26], then the fields of Table 3-1. -/
def decodeWord (w : Nat) : Dec Instr :=
  decodeFields (w / 67108864) (w / 1048576 % 64) (w / 16384 % 64) (w % 16384)

/-- The decoder of bytes: an instruction is one 32-bit little-endian word (R47). -/
def decodeBytes : List Byte → Dec Instr
  | b0 :: b1 :: b2 :: b3 :: _ =>
    decodeWord (b0.toNat + 256 * b1.toNat + 65536 * b2.toNat + 16777216 * b3.toNat)
  | _ => .error .truncated

/-- The bytes of an instruction word, the least significant first (R47). -/
def wordBytes (w : Nat) : List Byte :=
  [BitVec.ofNat 8 w, BitVec.ofNat 8 (w / 256), BitVec.ofNat 8 (w / 65536), BitVec.ofNat 8 (w / 16777216)]

/-- The instruction the decoder reads from a table word: its bytes laid out as the hardware stores them. -/
def decodeTableWord (nbits w : Nat) : Option Instr :=
  match decodeBytes (wordBytes (w % 2 ^ nbits)) with
  | .ok i => some i
  | .error _ => none

/-- A word from its op, its fields [25:20] and [19:14] and its low 14 bits (Table 3-1). -/
def pack (op p1 p2 x : Nat) : Nat := op * 67108864 + p1 * 1048576 + p2 * 16384 + x

/-- The instruction word of a well-formed instruction; an event has none and gives 0, the word that raises ILL. -/
def encode : Instr → Nat
  | .add d a b => pack 1 (d.val) (a.val) (b.val * 256)
  | .sub d a b => pack 1 (d.val) (a.val) (b.val * 256 + 1)
  | .and d a b => pack 1 (d.val) (a.val) (b.val * 256 + 2)
  | .or d a b => pack 1 (d.val) (a.val) (b.val * 256 + 3)
  | .xor d a b => pack 1 (d.val) (a.val) (b.val * 256 + 4)
  | .sll d a b => pack 1 (d.val) (a.val) (b.val * 256 + 5)
  | .srl d a b => pack 1 (d.val) (a.val) (b.val * 256 + 6)
  | .sra d a b => pack 1 (d.val) (a.val) (b.val * 256 + 7)
  | .slt d a b => pack 1 (d.val) (a.val) (b.val * 256 + 8)
  | .sltu d a b => pack 1 (d.val) (a.val) (b.val * 256 + 9)
  | .min d a b => pack 1 (d.val) (a.val) (b.val * 256 + 10)
  | .max d a b => pack 1 (d.val) (a.val) (b.val * 256 + 11)
  | .minu d a b => pack 1 (d.val) (a.val) (b.val * 256 + 12)
  | .maxu d a b => pack 1 (d.val) (a.val) (b.val * 256 + 13)
  | .mul d a b => pack 1 (d.val) (a.val) (b.val * 256 + 14)
  | .mulh d a b => pack 1 (d.val) (a.val) (b.val * 256 + 15)
  | .mulhu d a b => pack 1 (d.val) (a.val) (b.val * 256 + 16)
  | .div d a b => pack 1 (d.val) (a.val) (b.val * 256 + 17)
  | .divu d a b => pack 1 (d.val) (a.val) (b.val * 256 + 18)
  | .rem d a b => pack 1 (d.val) (a.val) (b.val * 256 + 19)
  | .remu d a b => pack 1 (d.val) (a.val) (b.val * 256 + 20)
  | .clz d a => pack 1 (d.val) (a.val) (21)
  | .popc d a => pack 1 (d.val) (a.val) (22)
  | .slli d a n => pack 1 (d.val) (a.val) (n.toNat * 256 + 24)
  | .srli d a n => pack 1 (d.val) (a.val) (n.toNat * 256 + 25)
  | .srai d a n => pack 1 (d.val) (a.val) (n.toNat * 256 + 26)
  | .addi d a i => pack 2 (d.val) (a.val) (i.toNat)
  | .andi d a i => pack 3 (d.val) (a.val) (i.toNat)
  | .ori d a i => pack 4 (d.val) (a.val) (i.toNat)
  | .xori d a i => pack 5 (d.val) (a.val) (i.toNat)
  | .slti d a i => pack 6 (d.val) (a.val) (i.toNat)
  | .sltiu d a i => pack 7 (d.val) (a.val) (i.toNat)
  | .lhi d i => pack 8 (d.val) ((i.toNat) / 16384) ((i.toNat) % 16384)
  | .adpc d i => pack 9 (d.val) ((i.toNat) / 16384) ((i.toNat) % 16384)
  | .ldB d a i => pack 10 (d.val) (a.val) (i.toNat)
  | .ldBu d a i => pack 11 (d.val) (a.val) (i.toNat)
  | .ldH d a i => pack 12 (d.val) (a.val) (i.toNat)
  | .ldHu d a i => pack 13 (d.val) (a.val) (i.toNat)
  | .ldW d a i => pack 14 (d.val) (a.val) (i.toNat)
  | .ldWu d a i => pack 15 (d.val) (a.val) (i.toNat)
  | .ldL d a i => pack 16 (d.val) (a.val) (i.toNat)
  | .stB s a i => pack 17 (s.val) (a.val) (i.toNat)
  | .stH s a i => pack 18 (s.val) (a.val) (i.toNat)
  | .stW s a i => pack 19 (s.val) (a.val) (i.toNat)
  | .stL s a i => pack 20 (s.val) (a.val) (i.toNat)
  | .fld wd f a i => pack 21 (wd.code * 32 + f.val) (a.val) (i.toNat)
  | .fst wd f a i => pack 22 (wd.code * 32 + f.val) (a.val) (i.toNat)
  | .fadd d a b wd => pack 23 (d.val) (a.val) (b.val * 256 + wd.code)
  | .fsub d a b wd => pack 23 (d.val) (a.val) (b.val * 256 + wd.code + 2)
  | .fmul d a b wd => pack 23 (d.val) (a.val) (b.val * 256 + wd.code + 4)
  | .fdiv d a b wd => pack 23 (d.val) (a.val) (b.val * 256 + wd.code + 6)
  | .fsqrt d a wd => pack 23 (d.val) (a.val) (wd.code + 8)
  | .fmin d a b wd => pack 23 (d.val) (a.val) (b.val * 256 + wd.code + 10)
  | .fmax d a b wd => pack 23 (d.val) (a.val) (b.val * 256 + wd.code + 12)
  | .feq d a b wd => pack 23 (d.val) (a.val) (b.val * 256 + wd.code + 16)
  | .flt d a b wd => pack 23 (d.val) (a.val) (b.val * 256 + wd.code + 18)
  | .fle d a b wd => pack 23 (d.val) (a.val) (b.val * 256 + wd.code + 20)
  | .fcvtFmtWidth d a wd => pack 23 (d.val) (a.val) (wd.code + 24)
  | .fcvtFmtL d a wd => pack 23 (d.val) (a.val) (wd.code + 26)
  | .fcvtLFmt d a wd => pack 23 (d.val) (a.val) (wd.code + 28)
  | .fgrd d a wd => pack 23 (d.val) (a.val) (wd.code + 32)
  | .fgset d a wd => pack 23 (d.val) (a.val) (wd.code + 34)
  | .fmvFmtG d a wd => pack 23 (d.val) (a.val) (wd.code + 36)
  | .fmvGFmt d a wd => pack 23 (d.val) (a.val) (wd.code + 38)
  | .fmadd d a b c wd => pack 24 (d.val) (a.val) (b.val * 256 + c.val * 4 + wd.code)
  | .fmsub d a b c wd => pack 24 (d.val) (a.val) (b.val * 256 + c.val * 4 + wd.code + 2)
  | .beq a b o => pack 25 (a.val) (b.val) (o.toNat)
  | .bne a b o => pack 26 (a.val) (b.val) (o.toNat)
  | .blt a b o => pack 27 (a.val) (b.val) (o.toNat)
  | .bge a b o => pack 28 (a.val) (b.val) (o.toNat)
  | .bltu a b o => pack 29 (a.val) (b.val) (o.toNat)
  | .bgeu a b o => pack 30 (a.val) (b.val) (o.toNat)
  | .bmz a o => pack 31 (a.val) (0) (o.toNat)
  | .bmnz a o => pack 31 (a.val) (1) (o.toNat)
  | .bmall a o => pack 31 (a.val) (2) (o.toNat)
  | .jmp o => pack 32 ((o.toNat) / 1048576) ((o.toNat) / 16384 % 64) ((o.toNat) % 16384)
  | .jal o => pack 33 ((o.toNat) / 1048576) ((o.toNat) / 16384 % 64) ((o.toNat) % 16384)
  | .jr d a i => pack 34 (d.val) (a.val) (i.toNat)
  | .vins d a b => pack 35 (d.val) (a.val) (b.val * 256)
  | .vext d a b => pack 35 (d.val) (a.val) (b.val * 256 + 1)
  | .vfins d a b => pack 35 (d.val) (a.val) (b.val * 256 + 2)
  | .vfext d a b => pack 35 (d.val) (a.val) (b.val * 256 + 3)
  | .vadd d a b wd => pack 36 (d.val) (a.val) (b.reg * 256 + wd.code * 2 + b.bit)
  | .vsub d a b wd => pack 36 (d.val) (a.val) (b.reg * 256 + wd.code * 2 + b.bit + 8)
  | .vmul d a b wd => pack 36 (d.val) (a.val) (b.reg * 256 + wd.code * 2 + b.bit + 16)
  | .vmulh d a b wd => pack 36 (d.val) (a.val) (b.reg * 256 + wd.code * 2 + b.bit + 24)
  | .vmulhu d a b wd => pack 36 (d.val) (a.val) (b.reg * 256 + wd.code * 2 + b.bit + 32)
  | .vmin d a b wd => pack 36 (d.val) (a.val) (b.reg * 256 + wd.code * 2 + b.bit + 40)
  | .vmax d a b wd => pack 36 (d.val) (a.val) (b.reg * 256 + wd.code * 2 + b.bit + 48)
  | .vminu d a b wd => pack 36 (d.val) (a.val) (b.reg * 256 + wd.code * 2 + b.bit + 56)
  | .vmaxu d a b wd => pack 36 (d.val) (a.val) (b.reg * 256 + wd.code * 2 + b.bit + 64)
  | .vand d a b wd => pack 36 (d.val) (a.val) (b.reg * 256 + wd.code * 2 + b.bit + 72)
  | .vor d a b wd => pack 36 (d.val) (a.val) (b.reg * 256 + wd.code * 2 + b.bit + 80)
  | .vxor d a b wd => pack 36 (d.val) (a.val) (b.reg * 256 + wd.code * 2 + b.bit + 88)
  | .vsll d a b wd => pack 36 (d.val) (a.val) (b.reg * 256 + wd.code * 2 + b.bit + 96)
  | .vsrl d a b wd => pack 36 (d.val) (a.val) (b.reg * 256 + wd.code * 2 + b.bit + 104)
  | .vsra d a b wd => pack 36 (d.val) (a.val) (b.reg * 256 + wd.code * 2 + b.bit + 112)
  | .vsadd d a b wd => pack 36 (d.val) (a.val) (b.reg * 256 + wd.code * 2 + b.bit + 120)
  | .vsaddu d a b wd => pack 36 (d.val) (a.val) (b.reg * 256 + wd.code * 2 + b.bit + 128)
  | .vssub d a b wd => pack 36 (d.val) (a.val) (b.reg * 256 + wd.code * 2 + b.bit + 136)
  | .vssubu d a b wd => pack 36 (d.val) (a.val) (b.reg * 256 + wd.code * 2 + b.bit + 144)
  | .vmv d b wd => pack 36 (d.val) (0) (b.reg * 256 + wd.code * 2 + b.bit + 152)
  | .vseq d a b wd => pack 36 (d.val) (a.val) (b.reg * 256 + wd.code * 2 + b.bit + 160)
  | .vsne d a b wd => pack 36 (d.val) (a.val) (b.reg * 256 + wd.code * 2 + b.bit + 168)
  | .vslt d a b wd => pack 36 (d.val) (a.val) (b.reg * 256 + wd.code * 2 + b.bit + 176)
  | .vsltu d a b wd => pack 36 (d.val) (a.val) (b.reg * 256 + wd.code * 2 + b.bit + 184)
  | .vsle d a b wd => pack 36 (d.val) (a.val) (b.reg * 256 + wd.code * 2 + b.bit + 192)
  | .vsleu d a b wd => pack 36 (d.val) (a.val) (b.reg * 256 + wd.code * 2 + b.bit + 200)
  | .vadc d a b c wd => pack 37 (d.val) (a.val) (b.val * 256 + c.val * 4 + wd.code * 2)
  | .vsbc d a b c wd => pack 37 (d.val) (a.val) (b.val * 256 + c.val * 4 + wd.code * 2 + 1)
  | .vfadd d a b f => pack 38 (d.val) (a.val) (b.reg * 256 + f.code * 2 + b.bit)
  | .vfsub d a b f => pack 38 (d.val) (a.val) (b.reg * 256 + f.code * 2 + b.bit + 8)
  | .vfmul d a b f => pack 38 (d.val) (a.val) (b.reg * 256 + f.code * 2 + b.bit + 16)
  | .vfdiv d a b f => pack 38 (d.val) (a.val) (b.reg * 256 + f.code * 2 + b.bit + 24)
  | .vfsqrt d a f => pack 38 (d.val) (a.val) (f.code * 2 + 32)
  | .vfmin d a b f => pack 38 (d.val) (a.val) (b.reg * 256 + f.code * 2 + b.bit + 40)
  | .vfmax d a b f => pack 38 (d.val) (a.val) (b.reg * 256 + f.code * 2 + b.bit + 48)
  | .vfmadd d a b f => pack 38 (d.val) (a.val) (b.reg * 256 + f.code * 2 + b.bit + 56)
  | .vfmsub d a b f => pack 38 (d.val) (a.val) (b.reg * 256 + f.code * 2 + b.bit + 64)
  | .vfnmadd d a b f => pack 38 (d.val) (a.val) (b.reg * 256 + f.code * 2 + b.bit + 72)
  | .vfnmsub d a b f => pack 38 (d.val) (a.val) (b.reg * 256 + f.code * 2 + b.bit + 80)
  | .vfabs d a f => pack 38 (d.val) (a.val) (f.code * 2 + 88)
  | .vfneg d a f => pack 38 (d.val) (a.val) (f.code * 2 + 96)
  | .vfsgn d a b f => pack 38 (d.val) (a.val) (b.reg * 256 + f.code * 2 + b.bit + 104)
  | .vfsgnn d a b f => pack 38 (d.val) (a.val) (b.reg * 256 + f.code * 2 + b.bit + 112)
  | .vfsgnx d a b f => pack 38 (d.val) (a.val) (b.reg * 256 + f.code * 2 + b.bit + 120)
  | .vfclass d a f => pack 38 (d.val) (a.val) (f.code * 2 + 128)
  | .vfeq d a b f => pack 38 (d.val) (a.val) (b.reg * 256 + f.code * 2 + b.bit + 136)
  | .vfne d a b f => pack 38 (d.val) (a.val) (b.reg * 256 + f.code * 2 + b.bit + 144)
  | .vflt d a b f => pack 38 (d.val) (a.val) (b.reg * 256 + f.code * 2 + b.bit + 152)
  | .vfle d a b f => pack 38 (d.val) (a.val) (b.reg * 256 + f.code * 2 + b.bit + 160)
  | .vfun d a b f => pack 38 (d.val) (a.val) (b.reg * 256 + f.code * 2 + b.bit + 168)
  | .vgrd d a f => pack 39 (d.val) (a.val) (f.code * 2)
  | .vgwr d a f => pack 39 (d.val) (a.val) (f.code * 2 + 8)
  | .vgset d a f => pack 39 (d.val) (a.val) (f.code * 2 + 16)
  | .vglt d a b f => pack 39 (d.val) (a.val) (b.val * 256 + f.code * 2 + 24)
  | .vgmin d a f => pack 39 (d.val) (a.val) (f.code * 2 + 32)
  | .vgfull d f => pack 39 (d.val) (0) (f.code * 2 + 40)
  | .vld d a t => pack 40 (d.val) (a.val) (t.code)
  | .vst s a t => pack 40 (s.val) (a.val) (t.code + 8)
  | .vlds d a t => pack 40 (d.val) (a.val) (t.code + 16)
  | .vsts s a t => pack 40 (s.val) (a.val) (t.code + 24)
  | .vldx d a b t => pack 40 (d.val) (a.val) (b.val * 256 + t.code + 32)
  | .vstx s a b t => pack 40 (s.val) (a.val) (b.val * 256 + t.code + 40)
  | .vstxa s a b t => pack 40 (s.val) (a.val) (b.val * 256 + t.code + 48)
  | .vldLn d b t => pack 40 (d.val) (0) (b.val * 256 + t.code + 56)
  | .vstLn s b t => pack 40 (s.val) (0) (b.val * 256 + t.code + 64)
  | .vldb d a t => pack 40 (d.val) (a.val) (t.code + 72)
  | .vldG d a t => pack 40 (d.val) (a.val) (t.code + 84)
  | .vstG s a t => pack 40 (s.val) (a.val) (t.code + 92)
  | .sbind d a b t => pack 40 (d.val) (a.val) (b.val * 256 + t.code + 96)
  | .sfree b => pack 40 (0) (0) (b.val * 256 + 104)
  | .sskip a b => pack 40 (0) (a.val) (b.val * 256 + 112)
  | .sstat d b => pack 40 (d.val) (0) (b.val * 256 + 120)
  | .vpre a => pack 40 (0) (a.val) (128)
  | .mand d a b => pack 41 (d.val) (a.val) (b.val * 256)
  | .mor d a b => pack 41 (d.val) (a.val) (b.val * 256 + 1)
  | .mxor d a b => pack 41 (d.val) (a.val) (b.val * 256 + 2)
  | .mandn d a b => pack 41 (d.val) (a.val) (b.val * 256 + 3)
  | .mnot d a => pack 41 (d.val) (a.val) (4)
  | .mshl d a b => pack 41 (d.val) (a.val) (b.val * 256 + 5)
  | .mshr d a b => pack 41 (d.val) (a.val) (b.val * 256 + 6)
  | .mpop d a => pack 41 (d.val) (a.val) (7)
  | .mfirst d a => pack 41 (d.val) (a.val) (8)
  | .mset d => pack 41 (d.val) (0) (9)
  | .mclr d => pack 41 (d.val) (0) (10)
  | .mfrom d a => pack 41 (d.val) (a.val) (11)
  | .vslup d a b t => pack 42 (d.val) (a.val) (b.val * 256 + t.code)
  | .vsldn d a b t => pack 42 (d.val) (a.val) (b.val * 256 + t.code + 8)
  | .vpack d a t => pack 42 (d.val) (a.val) (t.code + 16)
  | .vunpk d a t => pack 42 (d.val) (a.val) (t.code + 24)
  | .vperm d a b t => pack 42 (d.val) (a.val) (b.val * 256 + t.code + 32)
  | .vconfl d a t => pack 42 (d.val) (a.val) (t.code + 40)
  | .vrsum r a => pack 42 (r.dst) (a.val) (r.code + 48)
  | .vrosum d a t => pack 42 (d.val) (a.val) ((4 + t.code) + 56)
  | .vrmin r a => pack 42 (r.dst) (a.val) (r.code + 64)
  | .vrmax r a => pack 42 (r.dst) (a.val) (r.code + 72)
  | .vrand d a t => pack 42 (d.val) (a.val) (t.code + 80)
  | .vrior d a t => pack 42 (d.val) (a.val) (t.code + 88)
  | .vrosat d a t => pack 42 (d.val) (a.val) (t.code + 96)
  | .vscan d a t => pack 42 (d.val) (a.val) (t.code + 104)
  | .vlrec d a b t => pack 42 (d.val) (a.val) (b.val * 256 + (4 + t.code) + 112)
  | .vsel d a b t => pack 42 (d.val) (a.val) (b.val * 256 + t.code + 120)
  | .vcvt d a s t r x => pack 43 (d.val) (a.val) (s.code * 256 + t.code * 16 + r.code * 2 + x.toNat)
  | .vquant d a s r => pack 43 (d.val) (a.val) ((8 + s.code) * 256 + r.code * 2 + 224)
  | .vdequant d a t r x => pack 43 (d.val) (a.val) ((8 + t.code) * 16 + r.code * 2 + x.toNat + 3584)
  | .mxLdw a b f => pack 44 (0) (a.val) (b.val * 256 + f.code * 2)
  | .mxLdwg a b f => pack 44 (0) (a.val) (b.val * 256 + f.code * 2 + 16)
  | .mxSwap => pack 44 (0) (0) (32)
  | .mxStep t a b f => pack 44 (t.val) (a.val) (b.val * 256 + f.code * 2 + 48)
  | .mxStepz t a b f => pack 44 (t.val) (a.val) (b.val * 256 + f.code * 2 + 64)
  | .mxSteps t a b f => pack 44 (t.val) (a.val) (b.val * 256 + f.code * 2 + 80)
  | .mxZero t => pack 44 (t.val) (0) (96)
  | .mxRd d t b => pack 44 (d.val) (t.val) (b.val * 256 + 112)
  | .mxWr t a b => pack 44 (t.val) (a.val) (b.val * 256 + 128)
  | .mxSt t a b => pack 44 (t.val) (a.val) (b.val * 256 + 144)
  | .mxCfg a => pack 44 (0) (a.val) (160)
  | .mxSkip t a => pack 44 (t.val) (a.val) (176)
  | .mxGrant a => pack 44 (0) (a.val) (192)
  | .mxRet => pack 44 (0) (0) (208)
  | .amoAddW d a b l => pack 45 (d.val) (a.val) (b.val * 256 + l.val)
  | .amoAddL d a b l => pack 45 (d.val) (a.val) (b.val * 256 + l.val + 16)
  | .amoMinL d a b l => pack 45 (d.val) (a.val) (b.val * 256 + l.val + 32)
  | .amoMaxL d a b l => pack 45 (d.val) (a.val) (b.val * 256 + l.val + 48)
  | .amoMinuL d a b l => pack 45 (d.val) (a.val) (b.val * 256 + l.val + 64)
  | .amoMaxuL d a b l => pack 45 (d.val) (a.val) (b.val * 256 + l.val + 80)
  | .amoAndL d a b l => pack 45 (d.val) (a.val) (b.val * 256 + l.val + 96)
  | .amoOrL d a b l => pack 45 (d.val) (a.val) (b.val * 256 + l.val + 112)
  | .amoXorL d a b l => pack 45 (d.val) (a.val) (b.val * 256 + l.val + 128)
  | .amoSwapW d a b l => pack 45 (d.val) (a.val) (b.val * 256 + l.val + 144)
  | .amoSwapL d a b l => pack 45 (d.val) (a.val) (b.val * 256 + l.val + 160)
  | .amoCasW d a b l => pack 45 (d.val) (a.val) (b.val * 256 + l.val + 176)
  | .amoCasL d a b l => pack 45 (d.val) (a.val) (b.val * 256 + l.val + 192)
  | .amoFaddF32 d a b l => pack 45 (d.val) (a.val) (b.val * 256 + l.val + 208)
  | .amoFaddF64 d a b l => pack 45 (d.val) (a.val) (b.val * 256 + l.val + 224)
  | .vamoAddW d a b l => pack 46 (d.val) (a.val) (b.val * 256 + l.val)
  | .vamoAddL d a b l => pack 46 (d.val) (a.val) (b.val * 256 + l.val + 16)
  | .vamoMinL d a b l => pack 46 (d.val) (a.val) (b.val * 256 + l.val + 32)
  | .vamoMaxL d a b l => pack 46 (d.val) (a.val) (b.val * 256 + l.val + 48)
  | .vamoMinuL d a b l => pack 46 (d.val) (a.val) (b.val * 256 + l.val + 64)
  | .vamoMaxuL d a b l => pack 46 (d.val) (a.val) (b.val * 256 + l.val + 80)
  | .vamoAndL d a b l => pack 46 (d.val) (a.val) (b.val * 256 + l.val + 96)
  | .vamoOrL d a b l => pack 46 (d.val) (a.val) (b.val * 256 + l.val + 112)
  | .vamoXorL d a b l => pack 46 (d.val) (a.val) (b.val * 256 + l.val + 128)
  | .vamoSwapW d a b l => pack 46 (d.val) (a.val) (b.val * 256 + l.val + 144)
  | .vamoSwapL d a b l => pack 46 (d.val) (a.val) (b.val * 256 + l.val + 160)
  | .vamoFaddF32 d a b l => pack 46 (d.val) (a.val) (b.val * 256 + l.val + 208)
  | .vamoFaddF64 d a b l => pack 46 (d.val) (a.val) (b.val * 256 + l.val + 224)
  | .fence l => pack 47 (0) (0) (l.val)
  | .fenceAcq l => pack 47 (0) (0) (l.val + 256)
  | .fenceRel l => pack 47 (0) (0) (l.val + 512)
  | .ldAcqW d a l => pack 47 (d.val) (a.val) (l.val + 16)
  | .ldAcqL d a l => pack 47 (d.val) (a.val) (l.val + 32)
  | .stRelW s a l => pack 47 (s.val) (a.val) (l.val + 48)
  | .stRelL s a l => pack 47 (s.val) (a.val) (l.val + 64)
  | .vldAcqL d a l => pack 47 (d.val) (a.val) (l.val + 80)
  | .vldAcqF64 d a l => pack 47 (d.val) (a.val) (l.val + 96)
  | .vstRelL s a l => pack 47 (s.val) (a.val) (l.val + 112)
  | .vstRelF64 s a l => pack 47 (s.val) (a.val) (l.val + 128)
  | .tlAcq => pack 47 (0) (0) (144)
  | .vsync => pack 47 (0) (0) (160)
  | .bar d l => pack 48 (d.val) (0) (l.val)
  | .claim d a b => pack 48 (d.val) (a.val) (b.val * 256 + 16)
  | .vsplit n => pack 48 (0) (0) (n.code * 256 + 32)
  | .vmerge => pack 48 (0) (0) (48)
  | .swait => pack 48 (0) (0) (64)
  | .swake a => pack 48 (0) (a.val) (80)
  | .hq d a l => pack 48 (d.val) (a.val) (l.val + 96)
  | .sdone => pack 48 (0) (0) (112)
  | .syield => pack 48 (0) (0) (128)
  | .rplCap n => pack 48 (0) (0) (n.toNat * 256 + 144)
  | .rplRun a => pack 48 (0) (a.val) (160)
  | .engPush a e => pack 49 (0) (a.val) (e.val)
  | .engPop d a e => pack 49 (d.val) (a.val) (e.val + 4096)
  | .engPoll d e => pack 49 (d.val) (0) (e.val + 8192)
  | .engDrain e => pack 49 (0) (0) (e.val + 12288)
  | .colRed d a q r t k => pack 50 (d.val) (a.val) (q.val * 2048 + r.code * 32 + t.code * 4 + k.toNat * 2)
  | .colAred d a q r t k => pack 50 (d.val) (a.val) (q.val * 2048 + r.code * 32 + t.code * 4 + k.toNat * 2 + 256)
  | .colGat d a q t => pack 50 (d.val) (a.val) (q.val * 2048 + t.code * 4 + 512)
  | .colAgat d a q t => pack 50 (d.val) (a.val) (q.val * 2048 + t.code * 4 + 768)
  | .colSct d a q t => pack 50 (d.val) (a.val) (q.val * 2048 + t.code * 4 + 1024)
  | .colA2a d a q t => pack 50 (d.val) (a.val) (q.val * 2048 + t.code * 4 + 1280)
  | .grpJoin d a q => pack 50 (d.val) (a.val) (q.val * 2048 + 1536)
  | .grpLeave d q => pack 50 (d.val) (0) (q.val * 2048 + 1568)
  | .grpInfo d a q => pack 50 (d.val) (a.val) (q.val * 2048 + 1600)
  | .grpLoad d a q => pack 50 (d.val) (a.val) (q.val * 2048 + 1632)
  | .crd d s => pack 51 (d.val) (0) (s.code)
  | .cwr a s => pack 52 (0) (a.val) (s.code)
  | .srd d s => pack 53 (d.val) (0) (s.code)
  | .swr a s => pack 54 (0) (a.val) (s.code)
  | .cntRd d c i => pack 55 (d.val) (0) (c.code * 64 + i.toNat)
  | .sys => pack 56 (0) (0) (0)
  | .trap a => pack 56 (0) (a.val) (1)
  | .tret => pack 56 (0) (0) (2)
  | .brk => pack 56 (0) (0) (3)
  | .wait => pack 56 (0) (0) (4)
  | .drd d a => pack 56 (d.val) (a.val) (5)
  | .svc a => pack 56 (0) (a.val) (6)
  | .logApp a => pack 56 (0) (a.val) (7)
  | .waitTimeout .. => 0
  | .swapEffect .. => 0
  | .copy .. => 0
  | .planeLoad .. => 0
  | .followOn .. => 0
  | .convert .. => 0
  | .compact .. => 0
  | .remap .. => 0
  | .mxfp4 .. => 0
  | .colour .. => 0
  | .topoCreate .. => 0
  | .adapt .. => 0
  | .topoExport .. => 0
  | .hold .. => 0
  | .drop .. => 0
  | .partition .. => 0
  | .topoDestroy .. => 0
  | .collCreate .. => 0
  | .collDestroy .. => 0
  | .memcoll .. => 0
  | .flush .. => 0
  | .query .. => 0
  | .pageWalk .. => 0
  | .hostWalkReply .. => 0
  | .logApply .. => 0
  | .rowActivateHint .. => 0
  | .hintRowClose .. => 0
  | .elementTrain .. => 0
  | .trainAck .. => 0
  | .contribution .. => 0
  | .collectiveComplete .. => 0
  | .barrierComplete .. => 0
  | .membershipRequest .. => 0
  | .newgen .. => 0
  | .newgenAck .. => 0
  | .newgenTimeout .. => 0
  | .hostMemberList .. => 0
  | .launch .. => 0
  | .hostPlacement .. => 0
  | .houseFault .. => 0
  | .seatDecision .. => 0
  | .quantumExpiry .. => 0
  | .priorityAging .. => 0
  | .park .. => 0
  | .unpark .. => 0
  | .preemption .. => 0
  | .preemptQuiesce .. => 0
  | .save .. => 0
  | .imageCopy .. => 0
  | .restore .. => 0
  | .trapEntry .. => 0
  | .powerSample .. => 0
  | .thermalStop .. => 0
  | .linkFailure .. => 0
  | .dieCutoff .. => 0
  | .scrubPass .. => 0
  | .heartbeat .. => 0
  | .baseDieCoreFailed .. => 0
  | .refreshTakeover .. => 0
  | .refreshDouble .. => 0
  | .remapCommitReply .. => 0
  | .partitionEntryWrite .. => 0
  | .regionRecordWrite .. => 0
  | .saveAreaWrite .. => 0
  | .dutyWrite .. => 0
  | .dutyActUpdate .. => 0
  | .registerWrite .. => 0
  | .quote .. => 0
  | .cert .. => 0
  | .stage .. => 0
  | .swap .. => 0
  | .prepare .. => 0
  | .commit .. => 0
  | .scrub .. => 0
  | .logapp .. => 0
  | .powerUp .. => 0
  | .fwgo .. => 0
  | .firmwareBoot .. => 0
  | .linkReset => 0
  | .vfFlr .. => 0
  | .illegalInstruction .. => 0
  | .instructionFetchFault .. => 0
  | .fabricRequest .. => 0
  | .fabricReply .. => 0
  | .junctionCooled .. => 0
  | .powerDown => 0
  | .capacityTierControllerFailed .. => 0
  | .hostLogConfirmation .. => 0
  | .hostTopologyResult .. => 0
  | .hostRefreshSetting .. => 0

end

end Sys2Proof
end

