-- ==== Sys2Proof/Machine/Sparse.lean ====
section
/-!
DEFINITION. Sparse data by a number: maps as lists with strictly rising keys, and memory in its one canonical form.
-/

namespace Sys2Proof.Machine

/-- A map from numbers to values: keys strictly rising. -/
abbrev SMap (α : Type) := List (Nat × α)

/-- The value at a key. -/
def SMap.find {α : Type} : SMap α → Nat → Option α
  | [], _ => none
  | (k', v) :: r, k => if k = k' then some v else if k < k' then none else SMap.find r k

/-- The value at a key, or a default. -/
def SMap.getD {α : Type} (m : SMap α) (k : Nat) (d : α) : α := (SMap.find m k).getD d

/-- Set the value at a key. -/
def SMap.put {α : Type} : SMap α → Nat → α → SMap α
  | [], k, v => [(k, v)]
  | (k', v') :: r, k, v =>
    if k = k' then (k, v) :: r
    else if k < k' then (k, v) :: (k', v') :: r
    else (k', v') :: SMap.put r k v

/-- Remove a key. -/
def SMap.del {α : Type} : SMap α → Nat → SMap α
  | [], _ => []
  | (k', v') :: r, k => if k = k' then r else if k < k' then (k', v') :: r else (k', v') :: SMap.del r k

/-- Memory: bytes at addresses, in one canonical form. An unlisted byte reads 0 (assumption log 1). -/
abbrev Memory := List Host.Cell

/-- The keys rise strictly from a bound, and no entry holds the value an unlisted byte reads as. -/
def Memory.wfFrom : Nat → Memory → Bool
  | _, [] => true
  | lo, (a, b) :: r => decide (lo ≤ a) && (b != 0) && Memory.wfFrom (a + 1) r

/-- The canonical form. -/
def Memory.wf (m : Memory) : Bool := Memory.wfFrom 0 m

/-- What a byte that nothing has written reads as (assumption log 1). -/
def Memory.unlisted : Byte := 0

/-- One byte. -/
def Memory.read : Memory → Nat → Byte
  | [], _ => Memory.unlisted
  | (a', b) :: r, a => if a = a' then b else if a < a' then Memory.unlisted else Memory.read r a

/-- Insert a byte that differs from the unlisted value. -/
def Memory.insert : Memory → Nat → Byte → Memory
  | [], a, b => [(a, b)]
  | (a', b') :: r, a, b =>
    if a = a' then (a, b) :: r
    else if a < a' then (a, b) :: (a', b') :: r
    else (a', b') :: Memory.insert r a b

/-- Remove the entry of a byte. -/
def Memory.erase : Memory → Nat → Memory
  | [], _ => []
  | (a', b') :: r, a => if a = a' then r else if a < a' then (a', b') :: r else (a', b') :: Memory.erase r a

/-- Write one byte, keeping the canonical form. -/
def Memory.write (m : Memory) (a : Nat) (b : Byte) : Memory :=
  if b = Memory.unlisted then Memory.erase m a else Memory.insert m a b

/-- n bytes from an address, as a number, the lowest address least significant (R3). -/
def Memory.readN (m : Memory) (a : Nat) : Nat → Nat
  | 0 => 0
  | n + 1 => (Memory.read m a).toNat + 256 * Memory.readN m (a + 1) n

/-- The low n bytes of a number to an address, the least significant at the lowest address (R3). -/
def Memory.writeN (m : Memory) (a : Nat) : Nat → Nat → Memory
  | 0, _ => m
  | n + 1, x => Memory.writeN (Memory.write m a (BitVec.ofNat 8 x)) (a + 1) n (x / 256)

/-- The cells of n bytes from an address, numbered from it. -/
def Memory.cut (m : Memory) (a n : Nat) : Memory :=
  (m.filter fun c => decide (a ≤ c.1) && decide (c.1 < a + n)).map fun c => (c.1 - a, c.2)

/-- n bytes from an address take the unlisted value. -/
def Memory.wipe (m : Memory) (a n : Nat) : Memory := m.filter fun c => !(decide (a ≤ c.1) && decide (c.1 < a + n))

/-- Cells written from an address on. -/
def Memory.paste (m : Memory) (a : Nat) (cells : Memory) : Memory := cells.foldl (fun m c => Memory.write m (a + c.1) c.2) m

/-- n bytes take the values that n bytes of another memory have. -/
def Memory.move (m : Memory) (a : Nat) (src : Memory) (b n : Nat) : Memory := (m.wipe a n).paste a (src.cut b n)

end Sys2Proof.Machine
end

