-- ==== Sys2Proof/Machine/State.lean ====
section
/-!
DEFINITION. The state of one VX640 package as plain data: what the spec names, one field each. Register values at
creation and at reset are those of Table 2-1 and the Reset columns; a value the spec does not give is named in the
assumption log (notes/assumptions).
-/

namespace Sys2Proof.Machine

open Sys2Proof

/-- Why the machine stops. -/
inductive Fault where
  /-- Raised by `step` when the module has no supply (R464: POWER_DOWN, before the next POWER_UP) and no turn is
  queued: nothing runs. Safe: the hardware does nothing either. -/
  | powerOff
  deriving DecidableEq, Repr

/-- Why an instruction has no meaning. -/
inductive Refusal where
  /-- Answered by an arm of `exec` for an instruction the model gives no meaning. Safe: the machine stops. -/
  | notModelled (mnemonic : String)
  deriving DecidableEq, Repr

/-! ### Strands (Table 2-1) -/

/-- P runs programs, S system software (R34). -/
inductive Mode | p | s
  deriving DecidableEq, Repr

/-- A 64-bit vector element or scalar FP register with its grade word (R30, R158). -/
structure Elem where
  val : Word
  grade : Grade
  deriving DecidableEq, Repr

/-- The creation value of every FP register and vector element (Table 2-1). -/
def Elem.init : Elem := ⟨0, 0xFFFF⟩

/-- A bound stream slot (R33): the register, the type of the bind, the descriptor of Table 5-3, and the position. -/
structure Stream where
  reg : VReg
  ty : ElTy
  kind : Nat
  level : Nat
  len : Nat
  base : Word
  stride : Word
  pos : Nat
  /-- KIND 1: the mesh handle and the version the stream is bound to (R314, R315). -/
  mesh : Option (Nat × Nat)
  deriving DecidableEq, Repr

/-- A group handle q0–q7: the group and the generation of the last join (R33); a handle of a group that has
been destroyed holds its generation plus 2^32 (R321). -/
structure Handle where
  gid : Nat
  gen : Nat
  deriving DecidableEq, Repr

/-- Where a byte is. -/
inductive Loc
  /-- bytes of `State.mem` from a key, on a page of a kind, with the sidecar frame and page offset of a GT page -/
  | mem (key : Nat) (kind : Nat) (sidecar : Option Nat)
  /-- a device register of a function page -/
  | dev (fn off : Nat)
  /-- another package: handle, remote address, and the kind of the local page entry (R269, R402) -/
  | remote (handle addr kind : Nat)
  deriving DecidableEq, Repr

/-- One part of an access: its place, the offset of its first byte in the access, its length. -/
structure Part where
  loc : Loc
  at_ : Nat
  len : Nat
  deriving DecidableEq, Repr

/-- An access of an instruction that waits, begun and not to be begun again (R91, R257, R258): whether it stores, its address and
length, whose it is (as in `Remote`), where its parts lie, and what has been read of those performed, lowest first. -/
structure Begun where
  store : Bool
  va : Nat
  len : Nat
  owner : Nat
  parts : List Part
  got : List (Nat × Option Grade)
  deriving DecidableEq, Repr

/-- An element of a train that an instruction has gathered and not yet sent (R269, R331): destination package, KIND 0 store
or 1 scatter-add, remote address, length in bytes, data, grade word (none for a datum without one), the scatter-add's type
code, 8 more for a misaligned FP datum (for a store 1 marks a part of a misaligned FP datum, and 2 a datum that brings the
whole grade word of its unit), FCR, the source virtual address, the element of its instruction, and the trap enables and
threshold under which a sum is stored (`amoCtl`). -/
structure TrainOut where
  handle : Nat
  kind : Nat
  addr : Nat
  len : Nat
  val : Nat
  grade : Option Grade
  ty : Nat
  fcr : BitVec 10
  va : Nat
  elem : Nat
  ctl : Nat
  /-- It lies on an SO or DV page of the strand (R258). -/
  strong : Bool
  deriving DecidableEq, Repr

/-- What a debug-ring record says of the elements of an entry, fixed when the entry starts (R429): POP, FIRST and LAST. -/
structure RingNote where
  pop : Nat
  first : Option Word
  last : Option Word
  deriving DecidableEq, Repr

/-- A vector-queue entry: all fixed at commit (R39, R369, Table 27-3). -/
structure VEntry where
  word : InstrWord
  pc : Word
  opA : Word
  opAGrade : Grade
  opB : Word
  vl : Nat
  vms : Nat
  vstr : Word
  gth : Nat
  fcr : BitVec 10
  /-- SRSF and SRS of Table 27-3: a `cwr SRS` lay between this entry and the one before it. -/
  srs : Option (BitVec 32)
  /-- The entry was re-issued by `rpl.run` (R373). -/
  rpl : Bool
  /-- The entry has been tried before and its next try is no fresh start: a WH entry restarting after a trap (R37). -/
  again : Bool
  /-- A group instruction or collective of this entry has sent its contribution (R322). -/
  sent : Bool
  /-- The restart element of R371, for the first attempt after `tret`. -/
  restart : Option Nat
  /-- Lines the elements performed so far have touched, already counted (R252, R253). -/
  lines : List Nat
  /-- An entry behind the head that has started (R369): its start element and the FXR records it has merged. -/
  begun : Bool
  start : Nat
  fxr : BitVec 48
  /-- POS of Table 22-2: entries that stood ahead of it when it raised its trap. -/
  pos : Nat
  /-- Elements of trains that the entry had gathered when it had to wait (R269). -/
  trains : List TrainOut
  /-- Set when the entry first starts. -/
  note : Option RingNote
  deriving DecidableEq, Repr

/-- One access through a fabric window that the strand has sent and not finished with (R269, R408). -/
structure Remote where
  /-- Sequence number of the request on this package. -/
  tag : Nat
  /-- 0 load, 1 vector store train, 2 atomic, 3 scatter-add train, 4 scalar store; and of the engine of selector e, 8 (e + 1) for a
  load and 8 (e + 1) + 1 for a train. -/
  op : Nat
  /-- Destination package and the remap generation the request carries (R446). -/
  handle : Nat
  rgen : Nat
  /-- Source virtual address, remote address and length in bytes. -/
  va : Nat
  addr : Nat
  len : Nat
  /-- Whose access it is: 0 the scalar stream's, 1 the running queue entry's, 2 and 3 those of a scalar instruction and an entry
  that a trap has put off, 4 an instruction's that was given up. -/
  owner : Nat
  /-- The answer: none while outstanding; a refusal, or the bytes and the grade word returned. -/
  answer : Option (Option (Nat × Option Grade))
  deriving DecidableEq, Repr

/-- One record of the debug ring (Table 26-9). -/
structure DebugRec where
  pc : Word
  seq : Nat
  rpl : Bool
  mem : Bool
  width : Nat
  pop : Nat
  vl : Nat
  first : Nat
  last : Nat
  deriving DecidableEq, Repr

/-- One entry of the claim table (R375). -/
structure Claim where
  counter : Nat
  base : Word
  grant : Nat
  deriving DecidableEq, Repr

/-- The replay buffer (R373, R385): the captured body, the instructions still to capture, and the position at which an
`rpl.run` that failed a decode check goes on. -/
structure Replay where
  body : List (InstrWord × Word)
  /-- Instructions still to capture: 0 when no capture is open. -/
  left : Nat
  pos : Nat
  /-- An `rpl.run` is committing the body. -/
  going : Bool
  /-- For each body entry the VL and VSTR of its last strip and the bases of its last strips, newest first, at most three
  (R249). -/
  bases : SMap (List Word)
  deriving DecidableEq, Repr

/-- A pushed command with the mode of the push (R283, R284). -/
structure Command where
  dw : List Word
  mode : Mode
  /-- Address the record was read from, named by a failed result (R288). -/
  addr : Nat
  /-- Core and slot of the pushing strand at the push (R230). -/
  core : Nat
  slot : Nat
  deriving DecidableEq, Repr

/-- A result element (Table 16-1) with the QUIET bit of its command (R289). -/
structure Result where
  addr : Word
  info : Word
  quiet : Bool
  deriving DecidableEq, Repr

/-- A contribution (R322): identity, header words, elements, and for top-k the index of each element. -/
structure Contrib where
  gid : Nat
  gen : Nat
  form : Nat
  seq : Nat
  rank : Nat
  a : Word
  b : Word
  elems : List Elem
  idx : List Nat
  deriving DecidableEq, Repr

/-- What has become of a collective that a member waits in (R321, R332): its group still stands; it was destroyed before the
collective committed; or it was destroyed after, and these are the contributions. -/
inductive CollFate
  | standing
  | lost
  | kept (cs : List Contrib)
  deriving DecidableEq, Repr

/-- A collective that a member has contributed to and not completed (R322): group, generation, sequence count, the member's
rank, size, root rank and K of the group in that generation, and its fate. -/
structure CollAt where
  gid : Nat
  gen : Nat
  seq : Nat
  rank : Nat
  size : Nat
  root : Nat
  k : Nat
  fate : CollFate
  deriving DecidableEq, Repr

/-- The FIFO pair of one selector (R283). -/
structure Fifo where
  cmds : List Command
  /-- A command its engine has taken and not finished, such as a plane load with a follow-on (R292). -/
  running : Option Command
  /-- The collective of a running MEMCOLL (R332). -/
  coll : Option CollAt
  results : List Result
  /-- The command at the head has been begun and waits for the fabric, the host, a link or a plane: its engine takes no other (R284);
  its lines that have been counted (R253). -/
  paused : Bool
  lines : List Nat
  deriving DecidableEq, Repr

/-- Strand states (Table 22-1). -/
inductive Status | ready | seated | parked | retired | ended
  deriving DecidableEq, Repr

/-- What a strand waits for when its instruction did not complete. -/
inductive Wait
  | none
  /-- peer waits that park (R361) -/
  | bar | swait | grp | coll | engPop (e : Fin 8) | engPush (e : Fin 8) | engDrain (e : Fin 8) | tlAcq
  /-- waits that do not park: `wait` (R426), log room (R428), a fabric answer (R269), a reserved plane (R218), the vector
  queue (R40), an undelivered stream group (R430), a save or a host answer -/
  | wakeOrResult | logRoom | fabric | plane | queue | stream | host
  deriving DecidableEq, Repr

/-- The general registers of a strand (Table 2-1). -/
structure Regs where
  g : Vector Word 32
  f : Vector Elem 16
  v : Vector (Vector Elem 128) 48
  m : Vector (BitVec 128) 12
  deriving DecidableEq, Repr

/-- The control registers of a strand (Table 2-2). -/
structure Ctl where
  vl : Nat
  vms : BitVec 4
  vstr : Word
  vei : BitVec 7
  gth : BitVec 6
  fcr : BitVec 10
  fflags : BitVec 6
  fxr : BitVec 48
  srs : BitVec 32
  deriving DecidableEq, Repr

/-- The trap registers of a strand (Table 26-2). TSTAT.PQ is the length of the pending queue. -/
structure TrapRegs where
  tvec : Word
  tpc : Word
  tcause : BitVec 8
  tval : Word
  telem : BitVec 7
  tqpos : BitVec 6
  tres : Word
  tscr0 : Word
  tscr1 : Word
  /-- TSTAT.PM, IN, PN and SKIP (Table 26-7). -/
  pm : Mode
  inHandler : Bool
  pn : Bool
  skip : Bool
  deriving DecidableEq, Repr

/-- Dirty and valid-length tags (R435). -/
structure Tags where
  vlen : Vector Nat 48
  vdirty : Vector Bool 48
  laneDirty : List Nat
  laneValid : List Nat
  deriving DecidableEq, Repr

/-- Where a strand belongs and how it is scheduled (R353, R360–R366). -/
structure Sched where
  status : Status
  /-- Core and slot while seated. -/
  place : Option (Nat × Nat)
  /-- DIV and SLOT of the saved image, and whether it was saved as MXO.OWNER (R432, R438). -/
  saved : Option (Nat × Nat × Bool)
  /-- Where the saved image is: 0 none, 1 shadow store, 2 frame (R440), 3 shadow store after a copy to a frame that failed
  (R437); the core and slot of the shadow region; frame number; VALID lanes of the image (R435). -/
  image : Nat
  shadowAt : Nat × Nat
  /-- The region there still holds the image (R438). -/
  inShadow : Bool
  frame : Nat
  imageLanes : List Nat
  /-- A, cycles spent READY since last seated (R362), and the step at which the strand became READY. -/
  aged : Nat
  readySince : Nat
  /-- Cycles the strand has held its seat (R364), and consecutive cycles it has waited in a wait that parks (R361). -/
  seatedFor : Nat
  waited : Nat
  lastCore : Option Nat
  /-- Scheduling priority the strand was seated with (R362). -/
  prio : Nat
  /-- A pre-emption has been asked for; its stop and drain are done; its accesses have been performed (Table 27-1). -/
  preemptAsked : Bool
  preempting : Bool
  quiesced : Bool
  /-- A seat has been given and the image is being read (R438). -/
  restoring : Bool
  /-- The seat held when the partition was suspended (R441). -/
  resume : Option (Nat × Nat)
  /-- The launch, the index of the strand's level-0 instance, and its claim on a seat: the unit's core range is the
  instance's. -/
  lid : Nat
  inst : Nat
  deriving DecidableEq, Repr

/-- A translation held by a TLB (R404). -/
structure TlbEntry where
  region : Nat
  /-- Virtual page number in units of 64 KiB. -/
  vpn : Nat
  /-- 512 MiB page. -/
  large : Bool
  leaf : Word
  deriving DecidableEq, Repr

/-- One strand. -/
structure Strand where
  sn : Nat
  partn : Nat
  region : Nat
  pc : Word
  regs : Regs
  ctl : Ctl
  mode : Mode
  trap : TrapRegs
  k : Vector (Option Stream) 8
  q : Vector (Option Handle) 8
  vq : List VEntry
  pend : List VEntry
  /-- The entry being executed from the queue, and whether the next step serves the scalar stream while the head waits. -/
  issue : Option VEntry
  scalarNext : Bool
  /-- This turn is the scalar stream's alone: a vector instruction is committed and not run (R39). -/
  queueOnly : Bool
  /-- This turn runs an entry up to an element: how many entries stand ahead of it, and the element (R369, R430). -/
  early : Option (Nat × Nat)
  /-- Restart attempt of a scalar instruction: its PC (R371); for each trap not returned from, the last first, the PC of the
  scalar instruction that raised it. -/
  restartPc : Option Word
  rearm : List (Option Word)
  /-- Where the scalar stream stood at the last trap entry. -/
  resumePc : Word
  /-- Translations that a restart attempt holds until it ends (R371). -/
  hold : List TlbEntry
  /-- PREEMPT is to be raised before the next scalar instruction (R419): SID before the pre-emption. -/
  preemptNote : Option Word
  /-- What the scalar stream waits for, and what the head of the queue waits for. -/
  wait : Wait
  qwait : Wait
  ring : List DebugRec
  seqv : Nat
  rpl : Replay
  claims : List Claim
  wake : Bool
  fifo : Vector Fifo 8
  remote : List Remote
  /-- Accesses begun and not finished with, of instructions that wait. -/
  begun : List Begun
  /-- Elements of the trains the instruction has gathered and not yet sent (R269, R331). -/
  trains : List TrainOut
  /-- FP flags that the command an engine performs for the strand has raised so far (FL of Table 16-1). -/
  engFlags : BitVec 6
  /-- Lines an instruction has touched, for the request counters, and those of them counted in earlier cycles (R252, R253). -/
  lines : List Nat
  counted : List Nat
  /-- Those counted of a scalar instruction that waits. -/
  scalarLines : List Nat
  /-- Log records of the strand's die below this count are in its view (R270). -/
  viewTail : Nat
  /-- The tail that a `tl.acq` has read and waits for (R280). -/
  tailRead : Option Nat
  /-- Episode numbers this strand has arrived at and not returned from, by house level (R378). -/
  arrivals : SMap Nat
  /-- The last generation of each group in which the strand was a member (R329). -/
  memberOf : SMap Nat
  /-- `wait` may complete: a wake, a result, its 4,096 cycles, or a new seat (R426). -/
  waitDone : Bool
  /-- The collective the strand has contributed to, and the group it has asked to join (R322, R329). -/
  coll : Option CollAt
  asked : Option Nat
  /-- The same of an entry that a trap has put off. -/
  collOff : Option CollAt
  askedOff : Option Nat
  /-- The home refused the strand's join request (R329); and that of an entry that a trap has put off. -/
  joinRefused : Bool
  refusedOff : Bool
  /-- A trap entry has been made, and the handler has issued nothing yet (R419). -/
  entered : Bool
  tags : Tags
  sched : Sched
  deriving DecidableEq, Repr

/-! ### Cores, sections and dies -/

/-- A weight plane tag (R209). -/
structure PlaneTag where
  valid : Bool
  fmt : Nat
  n : Nat
  sw : Vector (BitVec 16) 64
  deriving DecidableEq, Repr

/-- An accumulator tile without its values, which are bytes of `onchip` (R209). Row grades are the code 0xFF in an INT32
tile. -/
structure Tile where
  kind : Nat
  rho : Nat
  rowGrade : Vector Nat 64
  rmax : Vector (BitVec 32) 64
  dirty : Bool
  deriving DecidableEq, Repr

/-- One core (R43, R209, R251). -/
structure Core where
  div : Nat
  owner : Nat
  granted : Bool
  active : PlaneTag
  shadow : PlaneTag
  activeDirty : Bool
  shadowDirty : Bool
  tiles : Vector Tile 4
  skf : Bool
  /-- The strand and selector of the copy command that has reserved the shadow plane (R218), and of the one whose follow-on is
  due. -/
  reserved : Option (Nat × Nat)
  followOn : Option (Nat × Nat)
  tlb : List TlbEntry
  hints : Word
  hintu : Word
  pwrhold : Word
  tlbm : Word
  /-- An `mx.swap` has been issued and its exchange has not taken effect (R217). -/
  swapDue : Bool
  /-- DRAM rows that a hint opened and that are still open (R249, R250). -/
  hintRows : List Nat
  /-- Issue holds of R27: matrix issue, vector issue. -/
  holdMx : Bool
  holdVec : Bool
  /-- `vsplit` or `vmerge` is changing the division: no slot commits a vector instruction (R381). -/
  dividing : Bool
  deriving DecidableEq, Repr

/-- A broadcast buffer (R128): the launch and the house instance of its participants, the descriptor, the positions and lengths
of the groups held, newest first, at most eight, and those of the groups evicted. -/
structure Bcast where
  lid : Nat
  inst : Nat
  desc : List Nat
  held : List (Nat × Nat)
  gone : List (Nat × Nat)
  deriving DecidableEq, Repr

/-- One section (R251, R404). -/
structure Sect where
  bconf : Word
  bmiss : Word
  tlb : List TlbEntry
  /-- Broadcast buffers (R128). -/
  bcast : List Bcast
  deriving DecidableEq, Repr

/-- An HBM4E stack (R452): its temperature in degrees, the rate it was given, the sequencer's own doubling, the heartbeats
its base-die core has written, whether that core has failed, whether the control die has taken over, and whether it holds the
issue of the die's cores (Table 28-3). -/
structure Stack where
  temp : Nat
  given : Nat
  doubled : Bool
  beats : Nat
  failed : Bool
  taken : Bool
  hold : Bool
  deriving DecidableEq, Repr

/-- One compute die. -/
structure Die where
  cyc : Word
  reql : Word
  reqr : Word
  reqf : Word
  reqe : Word
  hopw : Word
  tlb : List TlbEntry
  /-- Invalidation log (R405): records not yet applied, oldest first, TAIL, and records posted to the host (R409). -/
  log : List (Word × Word)
  tail : Nat
  logPosted : Nat
  /-- Engine rotation: the strand each selector last served (R284); the colouring units have one each. -/
  lastServed : Vector Nat 8
  lastColour : Vector Nat 8
  /-- Issue stopped at 110 degrees (R466). -/
  hot : Bool
  /-- Cut off after a link failure (R447, R448). -/
  cut : Bool
  hbm : Vector Stack 3
  deriving DecidableEq, Repr

/-! ### Launches (R344–R359) -/

/-- A house record with its effective values (Table 21-3, R350). -/
structure House where
  level : Nat
  count : Nat
  nchild : Nat
  subtree : Nat
  entry : Nat
  ownBudget : Bool
  slots : Nat
  weight : Nat
  prio : Nat
  policy : Nat
  deriving DecidableEq, Repr

/-- The life of a house instance. -/
inductive InstStatus | live | retired | withdrawn | ended
  deriving DecidableEq, Repr

/-- A house instance (R352, R378): its record, its number among the instances of the record, its parent, its unit, its
strand at level 0 and that strand's MID on whichever package it is, retries, its barrier: episodes completed, MIDs of the strands that
have arrived at the next, the last result word, and whether a strand was withdrawn since the last completion; and for a strand on
another package the unfinished claims that this one has been told of. -/
structure Inst where
  record : Nat
  number : Nat
  parent : Option Nat
  pkg : Nat
  home : Nat
  status : InstStatus
  strand : Option Nat
  mid : Option Nat
  retries : Nat
  episode : Nat
  arrived : List Nat
  lastResult : Word
  newWithdrawal : Bool
  claims : List Claim
  deriving DecidableEq, Repr

/-- A house fault waiting for the binder (R357, R359). -/
structure HouseFault where
  inst : Nat
  event : Nat
  child : Option Nat
  mid : Nat
  cause : Nat
  val : Word
  /-- Unfinished claims of the strand ended with the fault (R375). -/
  ranges : List Claim
  /-- Of a LINK fault, the level-0 instances whose strands the cut-off ended (R448). -/
  gone : List Nat
  deriving DecidableEq, Repr

/-- A launch (R348); `origin` is the package that launched it, where that is another one. -/
structure Launch where
  lid : Nat
  origin : Option Nat
  live : Bool
  fn : Nat
  partn : Nat
  region : Nat
  recordAddr : Nat
  phys : List Nat
  houses : List House
  insts : List Inst
  arg : Word
  flog : Nat
  flogn : Nat
  flogIdx : Nat
  seq : Nat
  range : Nat
  rangen : Nat
  rangeNext : Nat
  pkgs : List Nat
  status : Nat
  faults : List HouseFault
  deriving DecidableEq, Repr

/-! ### Meshes (R300–R317) -/

/-- A cell of a mesh version: vertices, level, child index (255 for a cell that is no new child), predecessor id, the
vertices of its parent and its child index there, and so on up to level 0, and its key. -/
structure MCell where
  verts : List Nat
  level : Nat
  child : Nat
  pred : Nat
  path : List (List Nat × Nat)
  /-- The version-1 cell it stems from. -/
  root : Nat
  key : Nat
  deriving DecidableEq, Repr

/-- A version of a mesh (R301). -/
structure MVersion where
  num : Nat
  verts : List (List Word)
  cells : List MCell
  /-- The neighbour entries of every cell, in stream order (R314). -/
  entries : List Word
  holds : Nat
  deriving DecidableEq, Repr

/-- A mesh (R300, Table 17-1). -/
structure Mesh where
  partn : Nat
  handle : Nat
  region : Nat
  dim : Nat
  kb : Nat
  maxLvl : Nat
  arena : Nat
  asize : Nat
  lo : List Word
  hi : List Word
  current : Nat
  versions : List MVersion
  deriving DecidableEq, Repr

/-! ### Groups (R319–R332, R442–R444) -/

/-- A group record with the membership state of its home (Table 18-1, Table 28-1). -/
structure Group where
  gid : Nat
  region : Nat
  gen : Nat
  members : List Nat
  root : Nat
  k : Nat
  /-- 0 STABLE, 1 FORMING, 2 COMMIT; 3 for a copy on a package that holds no member. -/
  phase : Nat
  /-- Requests of the open formation and of the one after: kind 0 join, 1 leave, 2 withdrawal; and the MID. -/
  reqs : List (Nat × Nat)
  later : List (Nat × Nat)
  /-- The members of the generation being committed, and the packages that have still to acknowledge it. -/
  next : List Nat
  waiting : List Nat
  /-- Sequence counts of the members of this package in this generation: MID, instructions, commands (R322). -/
  counts : SMap (Nat × Nat)
  /-- The generation has reached STABLE, as far as this package has been told; if not, the members that it adds and those that it
  removes (R442, R444). -/
  settled : Bool
  fresh : List Nat
  gone : List Nat
  /-- Packages that have still to hold the record of a group created here (R455). -/
  holders : List Nat
  deriving DecidableEq, Repr

/-- A membership change is posted, answered and acknowledged by messages; requests, trains and their answers too. What the
package sends into the fabric, oldest first (assumption log 94). -/
inductive FabMsg
  /-- load or atomic: tag, destination, region (DRID), RGEN, operation, address, length, operand, compare, grade -/
  | request (tag handle drid rgen op addr len x y : Nat) (grade : Option Grade)
  /-- a train of Table 18-5's format: tag, destination, KIND, DRID, RGEN, elements -/
  | train (tag handle kind drid rgen : Nat) (elems : List TrainOut)
  /-- a collective contribution to another package of the group: destination, RGEN (R331); and to the other packages, that the engine
  forming the root has committed a collective -/
  | contribution (handle rgen : Nat) (c : Contrib)
  | committed (handle gid gen form seq : Nat)
  /-- answer to a request: tag, source package, the value and grade, or none for a refusal -/
  | reply (tag handle : Nat) (answer : Option (Nat × Option Grade))
  /-- acknowledgement of a train: tag, source package, elements performed, places of refused elements, and the flags of each
  FP sum (assumption log 31) -/
  | ack (tag handle count : Nat) (refused : List Nat) (flags : List (BitVec 6))
  /-- membership request to a group's home: group, kind, MID, and the domain region of its strand -/
  | member (gid kind mid drid : Nat)
  /-- NEWGEN to a package, with the forms and sequence counts of the collectives of the generation before that had committed; its
  acknowledgement; that the generation is STABLE; and a group's record at its creation or its end -/
  | newgen (handle gid gen : Nat) (members : List Nat) (committed : List (Nat × Nat))
  | stable (handle gid gen : Nat)
  | newgenAck (handle gid gen : Nat)
  | group (gid region gen root k : Nat) (members : List Nat)
  | ungroup (gid : Nat)
  /-- remap: handle, generation, PID, PORTS; PREPARE, COMMIT and their replies (R446) -/
  | prepare (handle gen pid ports : Nat)
  | commit (handle gen : Nat)
  | remapReply (handle gen phase : Nat)
  /-- strands of a launch to create on another package: package, region, the launch and its instances; one of them to end; the end
  of the launch; all but `wake` name a launch by its package and LID -/
  | bind (pkg drid : Nat) (l : Launch) (insts : List Nat)
  | unbind (pkg home lid inst : Nat)
  | launchOver (pkg home lid : Nat)
  | wake (mid home lid : Nat)
  /-- to the launching package: an instance's new status, with the unfinished claims of an ended strand; the failure of a strand:
  MID, cause, value, claims; the strands ended by the cut-off of a die -/
  | inst (home lid inst : Nat) (status : InstStatus) (ranges : List Claim)
  | failed (home lid inst mid cause : Nat) (val : Word) (ranges : List Claim)
  | cutOff (home lid : Nat) (insts : List (Nat × List Claim))
  /-- an arrival at a barrier of a house that has strands on other packages: package and LID, instance, episode, MID; and the MIDs of
  the strands created for instances -/
  | arrive (home lid inst episode mid : Nat)
  | bound (home lid : Nat) (mids : List (Nat × Nat))
  deriving DecidableEq, Repr

/-- What the control die posts to the host for a host-assisted function (Table 25-8), oldest first. -/
inductive HostPost
  /-- a walk: who waits for it, region, address and access -/
  | walk (who region va acc : Nat)
  /-- a roster with its effective values (R354) -/
  | placement (fn record : Nat) (l : Launch)
  | members (gid : Nat) (reqs : List (Nat × Nat))
  | log (die : Nat) (r : Word × Word)
  | topo (die : Nat) (dw : List Word)
  deriving DecidableEq, Repr

/-- A remap table entry (Table 28-2) with the packages that have still to reply to this package's PREPARE or COMMIT. -/
structure Remap where
  v : Bool
  pend : Bool
  pid : Nat
  rgen : Nat
  ports : Nat
  opid : Nat
  oports : Nat
  deriving DecidableEq, Repr

/-- A PREPARE or COMMIT that waits for the replies of the domain (R446): the mailbox function, the request's address, the
handle, the phase, and the packages that have not replied. -/
structure RemapOp where
  fn : Nat
  req : Nat
  handle : Nat
  phase : Nat
  left : List Nat
  deriving DecidableEq, Repr

/-- One level of the timetable (R362, R363): active entries in ring order, each the launch, the budget holder's instance
and DEF; and the entry the pointer names. -/
structure Ring where
  entries : List (Nat × Nat × Int)
  ptr : Option (Nat × Nat)
  deriving DecidableEq, Repr

/-- What another package's control die tells this one about a launch that both have strands of (R348, R357–R359, R378, R382), named
by the package that launched it and its LID, or about a group (R332, R442) (assumption log 80). -/
inductive PeerMsg
  /-- create these instances of a launch, in the region of that DRID -/
  | bind (home drid : Nat) (l : Launch) (insts : List Nat)
  /-- end the strand of an instance; the launch is over -/
  | unbind (home lid inst : Nat)
  | launchOver (home lid : Nat)
  /-- an instance on another package has that status; the unfinished claims of its strand -/
  | inst (home lid inst : Nat) (status : InstStatus) (ranges : List Claim)
  /-- to the launching package: a strand has failed, or strands were ended by the cut-off of a die (R448) -/
  | failed (lid inst mid cause : Nat) (val : Word) (ranges : List Claim)
  | cutOff (lid : Nat) (insts : List (Nat × List Claim))
  /-- a wake for a strand of this package (R382) -/
  | wake (sn home lid : Nat)
  /-- the MIDs of strands of another package, and the arrival of one at an episode of a house -/
  | bound (home lid : Nat) (mids : List (Nat × Nat))
  | arrive (home lid inst episode mid : Nat)
  /-- a generation of a group is STABLE at its home; a group has been destroyed -/
  | stable (gid gen : Nat)
  | ungroup (gid : Nat)
  deriving DecidableEq, Repr

/-- Which agent moves next. Every turn is a choice the spec leaves to time, to the host, to another package or to
physics; `step` takes the head of `State.turns` (assumption log 118). -/
inductive Turn
  /-- The strand of that number issues its next instruction or queue entry. -/
  | strand (sn : Nat)
  /-- Its scalar stream alone issues: a vector instruction is committed and not run (R39). -/
  | scalar (sn : Nat)
  /-- Entry k of its queue runs up to element m and stops there: the head, or one behind it while the head has not completed (R130,
  R369, R430). -/
  | ahead (sn k m : Nat)
  /-- A message of another package about a launch or a group. -/
  | peer (m : PeerMsg)
  /-- A die-to-die request has waited n cycles at a die (R23). -/
  | hopWait (die n : Nat)
  /-- An event of the opcode table. -/
  | event (i : Instr)
  /-- A translation cache drops an entry (R404): the core, section or die and the place in its list. -/
  | dropTlb (scope unit idx : Nat)
  /-- The host writes its own memory, or a frame of it is or is no longer open to DMA (R463). -/
  | hostStore (addr n data : Nat)
  | hostFrame (frame : Nat) (readable writable : Bool)
  /-- The host reads a BAR window (R461). -/
  | hostRead (fn bar off len : Nat)
  /-- Firmware extends a measurement register (R412). -/
  | measure (n : Nat) (digest : BitVec 512)
  /-- Firmware hands a function of Table 25-8 to the host, its hardware form having failed (R410). -/
  | assist (bit : Nat)
  /-- A line of memory becomes uncorrectable (R450). -/
  | lineBad (line : Nat)
  deriving DecidableEq, Repr

/-- The power controller (R27): the samples of the last 100 ms in watts, newest first; how long the present excursion above
3.6 kW has lasted, in samples; and whether the running mean has been below 3.6 kW since the last one. -/
structure Power where
  samples : List Nat
  excursion : Nat
  armed : Bool
  deriving DecidableEq, Repr

/-- A write to a register window that waits for room in the invalidation logs, and those after it (R397): function, record,
doubleword and byte in it where the write begins, number of bytes, bytes. -/
structure HeldWrite where
  fn : Nat
  record : Nat
  dw : Nat
  lo : Nat
  n : Nat
  data : Nat
  deriving DecidableEq, Repr

/-- How far bring-up has come (Table 30-4). -/
inductive Phase
  /-- no supply -/
  | off
  /-- steps 1 to 4: the boot ROM waits for an image (FWST 0 or a failure code) -/
  | rom
  /-- step 5: verifying (FWST 1) -/
  | verifying
  /-- step 7: READY (FWST 2) -/
  | ready
  deriving DecidableEq, Repr

/-- A function page (Table 30-2): VFn is n, the physical function is 16. -/
structure FnPage where
  err : Bool
  mpend : Nat
  evring : Word
  evtail : BitVec 32
  /-- Launches taken by the doorbell, oldest first: record address and RIDX (R348). -/
  launches : List (Nat × Nat)
  /-- Mailbox requests, oldest first: bus addresses (R463). -/
  requests : List Nat
  /-- The sixteen doublewords of the oldest request, once it has been read. -/
  taken : List Word
  deriving DecidableEq, Repr

/-- The state of the package. -/
structure State where
  /-- Supply and boot (R464); FWST (Table 30-2). -/
  phase : Phase
  fwst : BitVec 8
  /-- The strand whose turn it is, and its number when there is one; every other strand of the package. -/
  st : Strand
  cur : Option Nat
  others : SMap Strand
  /-- The word of the instruction being executed; TVAL of ILL and PRIV. -/
  ir : InstrWord
  /-- Which agent moves next, and next after that. -/
  turns : List Turn
  /-- Steps taken, and free values drawn (arguments of the open values of Config). -/
  stepNo : Nat
  freeNo : Nat
  /-- Memory by physical address; the section scratch of die d stands at 2^52 + d * 2^28 (R46). -/
  mem : Memory
  /-- Lines whose data cannot be corrected (R450): physical address / 64. -/
  badLines : List Nat
  /-- Bytes that the step's stores would put on such lines, each with 256 times the partition they are for: a store that covers a
  whole line repairs it, and of any other the part on the line is not performed (R450). -/
  badBytes : SMap Nat
  /-- Lane SRAM, weight planes and tile values of the cores (R42, R43, R209). -/
  onchip : Memory
  /-- Shadow stores and context areas of the dies (R17). -/
  shadow : Memory
  /-- Host memory as the package's DMA sees it (R463); bus addresses that no DMA may use. -/
  hostMem : Memory
  hostBad : List Nat
  /-- Frames of it that DMA can read and not write, and what the host's last read of a BAR window returned: none for an Unsupported
  Request (R461, R463). -/
  hostRO : List Nat
  hostAnswer : Option Nat
  cores : SMap Core
  sects : Vector Sect 32
  dies : Vector Die 4
  /-- The power controller (R27), and link errors counted on trains of an unlisted KIND (R331). -/
  power : Power
  linkErrors : Nat
  /-- Writes of region records that wait for room in the logs, oldest first (R397). -/
  heldWrites : List HeldWrite
  /-- DIECFG0–3 (Table 1-6), HBMSPLIT.SHARE (Table 13-4), DUTY and its ACT field (Table 25-8). -/
  diecfg : Vector Word 4
  share : BitVec 10
  /-- Firmware has set SHARE since power-up (R247). -/
  shareSet : Bool
  /-- The package's own handle (R319). -/
  handle : BitVec 10
  duty : BitVec 7
  act : BitVec 7
  /-- Partition entries, region records, fabric tables and save-area entries by number (Tables 25-1, 25-2, 25-7, R436). -/
  parts : SMap (List Word)
  regions : SMap (List Word)
  outTable : SMap (List Word)
  inTable : SMap (List Word)
  saveArea : SMap (List Word)
  /-- Function pages: VF0–VF15, and the physical function at 16. -/
  fns : Vector FnPage 17
  /-- LIDs accepted since power-up (R349) and the launches of the package. -/
  lids : Nat
  launches : List Launch
  /-- The timetable, one ring per priority. -/
  rings : Vector Ring 8
  /-- Meshes of every partition. -/
  meshes : List Mesh
  /-- Groups with a member of the package, the contributions held, and the collectives committed: GID, generation, form,
  sequence count. -/
  groups : List Group
  contribs : List Contrib
  committed : List (Nat × Nat × Nat × Nat)
  /-- The fabric: the remap table, PREPARE and COMMIT in progress, the next request tag and what has been sent. -/
  remap : SMap Remap
  remapOps : List RemapOp
  nextTag : Nat
  fabricOut : List FabMsg
  /-- Accesses of the control die itself through fabric windows. -/
  binderRemote : List Remote
  /-- The host: what was posted, and the leaves it has returned: for whom, region, page number in 64 KiB units, leaf, large. -/
  hostPosts : List HostPost
  hostLeaves : List (Nat × Nat × Nat × Word × Bool)
  /-- RRS but for its OR bit (Table 28-4), MEAS0–7 (R412), the firmware staging area and the length FWGO took. -/
  rrs : Word
  meas : Vector (BitVec 512) 8
  staging : Memory
  fwLen : Word
  /-- Partitions suspended by SWAP (R441), and the partition STAGE has loaded. -/
  suspended : List Nat
  staged : List Nat
  deriving DecidableEq, Repr

/-! ### Creation and reset values -/

/-- Registers at creation (Table 2-1). -/
def Regs.init : Regs :=
  { g := .replicate 32 0, f := .replicate 16 Elem.init, v := .replicate 48 (.replicate 128 Elem.init),
    m := .replicate 12 0 }

/-- Control registers at creation: the Reset columns of Tables 2-3 to 2-11. -/
def Ctl.init : Ctl :=
  { vl := 128, vms := 15, vstr := 0, vei := 0, gth := 0, fcr := 0, fflags := 0, fxr := 0, srs := 1 }

/-- Trap registers at creation but TVEC, which comes from the region record (R416). -/
def TrapRegs.init (tvec : Word) : TrapRegs :=
  { tvec := tvec, tpc := 0, tcause := 0, tval := 0, telem := 0, tqpos := 0, tres := 0, tscr0 := 0, tscr1 := 0,
    pm := .p, inHandler := false, pn := false, skip := false }

def Replay.init : Replay := { body := [], left := 0, pos := 0, going := false, bases := [] }
def Tags.init : Tags :=
  { vlen := .replicate 48 0, vdirty := .replicate 48 false, laneDirty := [], laneValid := [] }
def Sched.init : Sched :=
  { status := .ended, place := none, saved := none, image := 0, shadowAt := (0, 0), inShadow := false, frame := 0, imageLanes := [], aged := 0,
    readySince := 0, seatedFor := 0, waited := 0, lastCore := none, prio := 0, preemptAsked := false,
    preempting := false, quiesced := false, restoring := false, resume := none, lid := 0, inst := 0 }

/-- A strand at creation (R30): entry address, partition, region and handler of its region. -/
def Strand.create (sn partn region : Nat) (entry tvec : Word) : Strand :=
  { sn, partn, region, pc := entry, regs := .init, ctl := .init, mode := .p, trap := .init tvec,
    k := .replicate 8 none, q := .replicate 8 none, vq := [], pend := [], issue := none, scalarNext := false,
    queueOnly := false, early := none, restartPc := none, rearm := [], resumePc := 0, hold := [], preemptNote := none, wait := .none, qwait := .none, ring := [], seqv := 0, rpl := .init, claims := [],
    wake := false, fifo := .replicate 8 { cmds := [], running := none, coll := none, results := [], paused := false, lines := [] }, remote := [], begun := [], trains := [], engFlags := 0,
    lines := [], counted := [], scalarLines := [], viewTail := 0, tailRead := none, arrivals := [], memberOf := [], waitDone := false, coll := none, asked := none, collOff := none, askedOff := none,
    joinRefused := false, refusedOff := false, entered := false, tags := .init, sched := .init }

/-- No strand: what `State.st` holds while no strand has a turn. It has ended, so it never issues. -/
def Strand.nobody : Strand := Strand.create 0 0 0 0 0

def PlaneTag.invalid : PlaneTag := { valid := false, fmt := 0, n := 0, sw := .replicate 64 0 }
/-- A tile after die reset (R209): kind 0 and rotation 0; row grades and RMAX are undefined there, and hold the values of
`mx.zero` here (assumption log 2). -/
def Tile.init : Tile :=
  { kind := 0, rho := 0, rowGrade := .replicate 64 24, rmax := .replicate 64 0xFF800000, dirty := false }
/-- A core after die reset (R209, Table 2-13, R253). -/
def Core.init : Core :=
  { div := 0, owner := 0, granted := false, active := .invalid, shadow := .invalid, activeDirty := false, shadowDirty := false,
    tiles := .replicate 4 .init, skf := false, reserved := none, followOn := none, tlb := [], hints := 0, hintu := 0,
    pwrhold := 0, tlbm := 0, swapDue := false, hintRows := [], holdMx := false, holdVec := false, dividing := false }
def Sect.init : Sect := { bconf := 0, bmiss := 0, tlb := [], bcast := [] }
/-- A stack after die reset: nominal refresh (R452); its temperature is a reading, 0 before the first. -/
def Stack.init : Stack := { temp := 0, given := 1, doubled := false, beats := 0, failed := false, taken := false, hold := false }
def Die.init : Die :=
  { cyc := 0, reql := 0, reqr := 0, reqf := 0, reqe := 0, hopw := 0, tlb := [], log := [], tail := 0, logPosted := 0,
    lastServed := .replicate 8 0, lastColour := .replicate 8 0, hot := false, cut := false, hbm := .replicate 3 .init }
def Power.init : Power := { samples := [], excursion := 0, armed := true }
def FnPage.init : FnPage :=
  { err := false, mpend := 0, evring := 0, evtail := 0, launches := [], requests := [], taken := [] }

/-- DIECFG of a die with every unit enabled: sixteen cores in each of eight sections, three stacks, four capacity-tier
controllers, four copy engines, topology and collective engines, usable (Table 1-6; assumption log 3). -/
def diecfgFull : Word := 0x007FF78421084210#64

/-- The machine right after power good (R464 steps 1 to 3): the boot ROM waits, nothing else runs. HBMSPLIT.SHARE is set by firmware at
boot (Table 13-4) and is 0 before: DESIGN CHOICE (assumption log 7, 58, 85). -/
def State.reset : State :=
  { phase := .rom, fwst := 0, st := .nobody, cur := none, others := [], ir := 0, turns := [], stepNo := 0, freeNo := 0,
    mem := [], badLines := [], badBytes := [], onchip := [], shadow := [], hostMem := [], hostBad := [], hostRO := [],
    hostAnswer := none, cores := [],
    sects := .replicate 32 .init, dies := .replicate 4 .init, power := .init, linkErrors := 0, heldWrites := [],
    diecfg := .replicate 4 diecfgFull, share := 0, shareSet := false, handle := 0, duty := 0,
    act := 0, parts := [], regions := [], outTable := [], inTable := [], saveArea := [],
    fns := .replicate 17 .init, lids := 0, launches := [],
    rings := .replicate 8 { entries := [], ptr := none }, meshes := [], groups := [], contribs := [], committed := [],
    remap := [], remapOps := [], nextTag := 0, fabricOut := [], binderRemote := [],
    hostPosts := [], hostLeaves := [], rrs := 0,
    meas := (Vector.replicate 8 0).set 0 Config.romDigest, staging := [], fwLen := 0, suspended := [], staged := [] }
end Sys2Proof.Machine
end

