-- ==== Sys2Proof/Machine/Ops.lean ====
section
/-!
DEFINITION. The named operations over the state: registers, cores and dies, launches, translation and the page-table walk,
memory access with its checks, taking a trap and returning from one, and how an instruction completes, waits or traps.
-/

namespace Sys2Proof.Machine

open Sys2Proof

/-- The answer of a meaning. -/
abbrev Out := Host.Outcome State Fault Refusal

/-! ### Registers -/

/-- Change the strand whose turn it is. -/
def State.mapSt (s : State) (f : Strand → Strand) : State := { s with st := f s.st }
/-- Change the general registers. -/
def State.mapRegs (s : State) (f : Regs → Regs) : State := { s with st := { s.st with regs := f s.st.regs } }
/-- Change the control registers. -/
def State.mapCtl (s : State) (f : Ctl → Ctl) : State := { s with st := { s.st with ctl := f s.st.ctl } }

/-- Read an integer register; g0 reads zero (Table 2-1). -/
def State.g (s : State) (r : GReg) : Word := if r = 0 then 0 else s.st.regs.g[r]
/-- Write an integer register; g0 ignores writes. -/
def State.setG (s : State) (r : GReg) (x : Word) : State :=
  if r = 0 then s else s.mapRegs fun q => { q with g := q.g.set r x }
/-- A scalar FP register with its grade word. -/
def State.f (s : State) (r : FReg) : Elem := s.st.regs.f[r]
def State.setF (s : State) (r : FReg) (x : Elem) : State := s.mapRegs fun q => { q with f := q.f.set r x }
/-- elem(v, e) with grade(v, e) (R76). -/
def State.v (s : State) (r : VReg) (e : Nat) : Elem :=
  if h : e < 128 then s.st.regs.v[r][e] else Elem.init
/-- Write an element; VLEN and DIRTY of the register follow (R435). -/
def State.setV (s : State) (r : VReg) (e : Nat) (x : Elem) : State :=
  if h : e < 128 then
    { s with st := { s.st with
        regs := { s.st.regs with v := s.st.regs.v.set r (s.st.regs.v[r].set e x) },
        tags := { s.st.tags with vlen := s.st.tags.vlen.set r (max s.st.tags.vlen[r] (e + 1)),
                                 vdirty := s.st.tags.vdirty.set r true } } }
  else s
/-- mbit(m, e). -/
def State.mbit (s : State) (r : MReg) (e : Nat) : Bool := s.st.regs.m[r].getLsbD e
def setBit (x : BitVec 128) (e : Nat) (b : Bool) : BitVec 128 :=
  if b then x ||| BitVec.ofNat 128 (2 ^ e) else x &&& ~~~ BitVec.ofNat 128 (2 ^ e)
def State.setMbit (s : State) (r : MReg) (e : Nat) (b : Bool) : State :=
  s.mapRegs fun q => { q with m := q.m.set r (setBit q.m[r] e b) }
def State.setM (s : State) (r : MReg) (x : BitVec 128) : State := s.mapRegs fun q => { q with m := q.m.set r x }
def State.setPc (s : State) (x : Word) : State := { s with st := { s.st with pc := x } }
/-- The next instruction's address. -/
def State.nextPc (s : State) : Word := s.st.pc + 4

/-! ### Cores, sections, dies, launches -/

/-- The core and the slot the strand sits on; core 0 and slot 0 when it holds no seat. -/
def Strand.core (t : Strand) : Nat := (t.sched.place.map (·.1)).getD 0
def Strand.slot (t : Strand) : Nat := (t.sched.place.map (·.2)).getD 0
def coreDie (c : Nat) : DieNo := ⟨c / 128 % 4, Nat.mod_lt _ (by decide)⟩
def coreSect (c : Nat) : Fin 32 := ⟨c / 16 % 32, Nat.mod_lt _ (by decide)⟩
def State.coreOf (s : State) (c : Nat) : Core := SMap.getD s.cores c Core.init
def State.setCore (s : State) (c : Nat) (x : Core) : State := { s with cores := SMap.put s.cores c x }
def State.myCore (s : State) : Core := s.coreOf s.st.core
def State.mapCore (s : State) (c : Nat) (f : Core → Core) : State := s.setCore c (f (s.coreOf c))
def State.mapDie (s : State) (d : DieNo) (f : Die → Die) : State := { s with dies := s.dies.set d (f s.dies[d]) }
def State.mapSect (s : State) (x : Fin 32) (f : Sect → Sect) : State :=
  { s with sects := s.sects.set x (f s.sects[x]) }
def State.myDie (s : State) : DieNo := coreDie s.st.core

/-- Lanes of a strand's block under a division (R42). -/
def laneCount (div : Nat) : Nat := if div = 0 then 64 else if div = 1 then 32 else 16

/-- A strand of the package by number. -/
def State.strand? (s : State) (sn : Nat) : Option Strand :=
  if s.cur = some sn then some s.st else SMap.find s.others sn
def State.setStrand (s : State) (t : Strand) : State :=
  if s.cur = some t.sn then { s with st := t } else { s with others := SMap.put s.others t.sn t }
/-- Every strand of the package, ascending by number but for the one whose turn it is, which comes first. -/
def State.strands (s : State) : List Strand :=
  (match s.cur with | some _ => [s.st] | none => []) ++ s.others.map (·.2)
/-- The same change to every strand. -/
def State.mapStrands (s : State) (f : Strand → Strand) : State :=
  { s with st := f s.st, others := s.others.map fun x => (x.1, f x.2) }
/-- A live strand: one that has neither retired nor ended (R378). -/
def Strand.live (t : Strand) : Bool := t.sched.status != .retired && t.sched.status != .ended
def Strand.seated (t : Strand) : Bool := t.sched.status == .seated

/-- Hand the turn to another strand. -/
def State.switchTo (s : State) (sn : Nat) : State :=
  if s.cur = some sn then s
  else match SMap.find s.others sn with
  | none => s
  | some t =>
    let others := SMap.del s.others sn
    { s with st := t, cur := some sn, others := match s.cur with | some c => SMap.put others c s.st | none => others }

def State.launch? (s : State) (lid : Nat) : Option Launch := s.launches.find? (fun l => l.lid == lid)
def State.setLaunch (s : State) (l : Launch) : State :=
  { s with launches := s.launches.map fun x => if x.lid = l.lid then l else x }
def State.mapLaunch (s : State) (lid : Nat) (f : Launch → Launch) : State :=
  { s with launches := s.launches.map fun x => if x.lid = lid then f x else x }
/-- Physical level codes of the declared levels of the strand's launch (Table 21-1). -/
def State.phys (s : State) : List Nat := ((s.launch? s.st.sched.lid).map (·.phys)).getD []
/-- NLEV of the strand's launch (R356). -/
def State.depth (s : State) : Nat := s.phys.length

/-- A launch of another package is kept under a number of its own, above every LID (R349). -/
def foreignLid (home lid : Nat) : Nat := (home + 1) * 2 ^ 32 + lid
/-- The number under which a launch of a package is kept here. -/
def State.launchKey (s : State) (home lid : Nat) : Nat := if home = s.handle.toNat then lid else foreignLid home lid
/-- A launch as the domain names it: the package that launched it. -/
def State.launchHome (s : State) (l : Launch) : Nat := l.origin.getD s.handle.toNat

/-- The instance of a strand's house at a level: follow parents from the level-0 instance. -/
def ancestorAt (l : Launch) : Nat → Nat → Option Nat
  | 0, i => some i
  | n + 1, i => match (l.insts[i]?).bind (·.parent) with
    | some p => ancestorAt l n p
    | none => none

/-- A member identifier: package handle and strand number (R319). -/
def State.mid (s : State) (sn : Nat) : Nat := s.handle.toNat * 65536 + sn % 65536

/-! ### DIECFG (Table 1-6) and HBMSPLIT -/

def dieScores (cfg : Word) (sec : Nat) : Nat := fld cfg (5 * sec + 4) (5 * sec)
def dieOk (cfg : Word) : Bool := fbit cfg 54
def dieColl (cfg : Word) : Bool := fbit cfg 53
def dieTopo (cfg : Word) : Bool := fbit cfg 52
def dieCopy (cfg : Word) (n : Nat) : Bool := fbit cfg (48 + n)
def dieStacks (cfg : Word) : Nat := popLow (fld cfg 42 40) 3

/-- A section is enabled. -/
def State.sectOn (s : State) (i : Nat) : Bool :=
  let cfg := s.diecfg[coreDie (i * 16)]
  dieOk cfg && dieScores cfg (i % 8) != 0

/-! ### Partitions and regions (Tables 25-1, 25-2) -/

def State.part (s : State) (n : Nat) : List Word := SMap.getD s.parts n []
def State.regionRec (s : State) (r : Nat) : List Word := SMap.getD s.regions r []
/-- A partition entry holds something only while V is 1 (R396) (assumption log 81). -/
def partValid (p : List Word) : Bool := fbit (nth p 0 0) 35
/-- The partition holds a section; an entry that is not valid holds nothing (Table 25-1). -/
def partSect (p : List Word) (i : Nat) : Bool := partValid p && fbit (nth p 0 0) i
/-- Ranges, each a base and a size, cover what lies from an address up to another, at most so many of them one after the other. -/
def rangesCover (rs : List (Nat × Nat)) (stop : Nat) : Nat → Nat → Bool
  | 0, pa => decide (stop ≤ pa)
  | k + 1, pa => decide (stop ≤ pa) || match rs.find? fun r => decide (r.1 ≤ pa) && decide (pa < r.1 + r.2) with
    | some r => rangesCover rs stop k (r.1 + r.2)
    | none => false
/-- A physical range lies inside the ranges of a valid partition, in one or across several that abut (R396, R398, R400, R436). -/
def partHolds (p : List Word) (pa len : Nat) : Bool :=
  partValid p && rangesCover ((p.drop 2).map fun w => (fld w 22 0 * 536870912, fld w 45 23 * 536870912)) (pa + len) 7 pa
def regionRoot (r : List Word) : Nat := fld (nth r 0 0) 51 16 * 65536
def regionScb (r : List Word) : Nat := fld (nth r 1 0) 51 27 * 134217728
def regionDrid (r : List Word) : Nat := fld (nth r 2 0) 15 0
def regionHvec (r : List Word) : Word := nth r 3 0
def regionPart (r : List Word) : Nat := fld (nth r 0 0) 7 4
def regionValid (r : List Word) : Bool := fbit (nth r 0 0) 0

/-! ### The physical map (R245–R247) -/

def mib512 : Nat := 536870912
/-- Base of the window of a placement code (Tables 13-2, 13-3) (assumption log 87). -/
def placeBase (place : Nat) : Option Nat :=
  match place with
  | 0 => some 0
  | 2 => some 0x200000000000
  | 3 => some 0x300000000000
  | 4 => some 0x100000000000
  | 5 => some 0x110000000000
  | 6 => some 0x120000000000
  | 7 => some 0x130000000000
  | _ => none

/-- HBM4E capacity of a die under its enabled stacks: 64 GB each, decimal (R4, R10, R29). A die that is not usable has none
(R28); one that was cut off keeps its addresses, whose accesses raise LINK (R449). -/
def State.hbmCap (s : State) (d : DieNo) : Nat :=
  if dieOk s.diecfg[d] || s.dies[d].cut then dieStacks s.diecfg[d] * 64000000000 else 0

/-- Populated bytes of the window of a placement code (Table 13-2). The windows of the capacity tier keep the 2 TiB of a full part where a
controller is disabled by LPEN (assumption log 111). -/
def State.populated (s : State) (place : Nat) : Nat :=
  let share := s.share.toNat * mib512
  match place with
  | 0 => 4 * share
  | 2 => 2199023255552
  | 3 => 2199023255552
  | n => if n < 4 then 0 else (s.hbmCap ⟨n % 4, Nat.mod_lt _ (by decide)⟩ - share) / mib512 * mib512

/-- The placement whose window holds a physical address, and the offset in that window. -/
def paPlace (pa : Nat) : Option (Nat × Nat) :=
  if pa < 0x40000000000 then some (0, pa)
  else if 0x100000000000 ≤ pa ∧ pa < 0x140000000000 then
    some (4 + (pa - 0x100000000000) / 0x10000000000, (pa - 0x100000000000) % 0x10000000000)
  else if 0x200000000000 ≤ pa ∧ pa < 0x220000000000 then some (2, pa - 0x200000000000)
  else if 0x300000000000 ≤ pa ∧ pa < 0x320000000000 then some (3, pa - 0x300000000000)
  else none

/-- The frame lies in a populated part of a window (R246). -/
def State.paPopulated (s : State) (pa len : Nat) : Bool :=
  match paPlace pa with
  | some (p, o) => decide (o + len ≤ s.populated p)
  | none => false

/-- The home die of a physical address (Table 13-3). -/
def homeDie (pa : Nat) : Nat :=
  match paPlace pa with
  | some (0, _) => bits pa 13 12 ^^^ bits pa 21 20 ^^^ bits pa 29 28
  | some (2, _) => bits pa 13 12 ^^^ bits pa 21 20 ^^^ bits pa 29 28
  | some (3, _) => bits pa 30 29 ^^^ bits pa 32 31 ^^^ bits pa 34 33
  | some (p, _) => p % 4
  | none => 0

/-- What serves a location of its home die (R244, R247): a stack of HBM4E by its number, or a capacity-tier controller. -/
inductive Server | stack (n : Nat) | controller (n : Nat)
  deriving DecidableEq, Repr

/-- Die storage offset of a location of HBM4E (R247). -/
def State.dieOffset (s : State) (pa : Nat) : Nat :=
  match paPlace pa with
  | some (0, _) => bits pa 51 14 * 4096 + pa % 4096
  | some (_, x) => s.share.toNat * mib512 + x
  | none => 0

/-- The numbers of the enabled stacks of a die, ascending. -/
def enabledStacks (cfg : Word) : List Nat := (upTo 3).filter fun n => fbit cfg (40 + n)

/-- The server of a physical address on its home die (R247): HBM4E granules go round the enabled stacks, the capacity tier
takes the controller that two address bits name. -/
def State.server (s : State) (pa : Nat) : Option Server :=
  match paPlace pa with
  | none => none
  | some (2, _) => some (.controller (bits pa 15 14))
  | some (3, _) => some (.controller (bits pa 13 12))
  | some _ =>
    let l := enabledStacks s.diecfg[coreDie (homeDie pa * 128)]
    if l = [] then none else some (.stack (nth l (s.dieOffset pa / 4096 % l.length) 0))

/-! ### Cause codes (Table 26-1) -/

def cILL : Nat := 1
def cPRIV : Nat := 2
def cXLATE : Nat := 3
def cPERM : Nat := 4
def cMEMERR : Nat := 5
def cGRADE : Nat := 6
def cFPX : Nat := 7
def cLEVEL : Nat := 8
def cMXOWN : Nat := 9
def cSTREAM : Nat := 10
def cCOLLMIS : Nat := 11
def cGROUP : Nat := 12
def cCOUNTWIDTH : Nat := 13
def cLINK : Nat := 14
def cBRK : Nat := 15
def cSYSCALL : Nat := 16
def cPREEMPT : Nat := 17

/-- A raised trap: cause, TVAL, TELEM. -/
structure Trap where
  code : Nat
  val : Word
  elem : Nat
  eng : Bool := false
  /-- The trap names the next instruction: `sys`, and a pop that has retired (R289, R417). -/
  nextPc : Bool := false
  deriving DecidableEq, Repr

/-- Why an instruction does not complete in this step. -/
inductive Stop
  | trap (t : Trap)
  | wait (w : Wait)
  deriving DecidableEq, Repr

/-- Computations over the state that may trap or wait; the state reached is kept. -/
abbrev M := EStateM Stop State

def raise {α : Type} (code : Nat) (val : Word) (elem : Nat) : M α := throw (.trap { code, val, elem })
def waitFor {α : Type} (w : Wait) : M α := throw (.wait w)
def require (b : Bool) (code : Nat) (val : Word) (elem : Nat) : M Unit := if b then pure () else raise code val elem

/-! ### Translation (R398–R402, R404, R407) -/

/-- What an access needs of a leaf (Table 25-5). -/
inductive Acc | load | store | rmw | fetch
  deriving DecidableEq, Repr
/-- The number of an access in what a walker posts. -/
def Acc.code : Acc → Nat | .load => 0 | .store => 1 | .rmw => 2 | .fetch => 3

/-- A failed translation: cause. -/
abbrev Xl := Except Nat

def scratchBase : Nat := 0x7FFFFFF0000000
def vaTop : Nat := 0x80000000000000
/-- Key of a scratch byte of a die: the physical space is 52 bits wide, so these keys name no physical byte. -/
def scratchKey (die off : Nat) : Nat := 2 ^ 52 + die * 2 ^ 28 + off

/-- A line that cannot be corrected (R450). -/
def State.lineOk (s : State) (key n : Nat) : Bool :=
  (upTo ((key + n - 1) / 64 - key / 64 + 1)).all fun i => !s.badLines.contains (key / 64 + i)

/-- The control die as an end of a link: it walks page tables and drives the fabric ports (R11). -/
def controlDie : Nat := 4
/-- The die-to-die link of two dies (R447). -/
def dieLink (a b : Nat) : Option Nat :=
  match min a b, max a b with
  | 0, 1 => some 0
  | 0, 2 => some 1
  | 0, 3 => some 2
  | 1, 2 => some 3
  | 1, 3 => some 4
  | 2, 3 => some 5
  | d, 4 => if d < 4 then some (6 + d) else none
  | _, _ => none
/-- The link of two dies has failed (RRS.LINKF); until the cut-off an access that needs it waits. -/
def State.linkDown (s : State) (a b : Nat) : Bool :=
  match dieLink a b with
  | some n => fbit s.rrs (32 + n)
  | none => false

/-- A walk that waits for the host (R409, R410), or for the cut-off after a link failure (R447): no causes of Table 26-1. -/
def cHOST : Nat := 0
def cWAIT : Nat := 64

/-- One page-table walk (R398): the leaf and whether it maps 512 MiB. -/
def State.walkFrom (s : State) (partn region va : Nat) : Nat → Nat → Xl (Word × Bool)
  | 0, _ => .error cXLATE
  | fuel + 1, table =>
    let lvl := 2 - fuel
    let idx := bits va (54 - 13 * lvl) (42 - 13 * lvl)
    let a := table + 8 * idx
    if !partHolds (s.part partn) table 65536 then .error cXLATE
    else if s.dies[coreDie (homeDie a * 128)].cut then .error cLINK
    else if s.linkDown controlDie (homeDie a) then .error cWAIT
    else if !s.lineOk a 8 then .error cMEMERR
    else
      let e : Word := BitVec.ofNat 64 (Memory.readN s.mem a 8)
      if !fbit e 0 || fld e 63 56 != region then .error cXLATE
      else if fbit e 1 then (if lvl = 0 then .error cXLATE else .ok (e, lvl == 1))
      else if lvl = 2 then .error cXLATE
      else if fld e 55 52 != 0 || fld e 15 2 != 0 then .error cXLATE
      else s.walkFrom partn region va fuel (fld e 51 16 * 65536)

/-- A leaf that the host returned for someone's walk of an address. -/
def leafFor (who region va : Nat) (l : Nat × Nat × Nat × Word × Bool) : Bool :=
  l.1 == who && l.2.1 == region && (if l.2.2.2.2 then l.2.2.1 / 8192 == va / mib512 else l.2.2.1 == va / 65536)
/-- The leaf the host returned for a walk. -/
def State.hostLeaf (s : State) (who region va : Nat) : Option (Word × Bool) :=
  (s.hostLeaves.find? (leafFor who region va)).map fun l => (l.2.2.2.1, l.2.2.2.2)

/-- The walk of a virtual address in a region (R398): by hardware, or by the host, whose leaf passes the same checks (R410). -/
def State.walk (s : State) (who partn region va : Nat) : Xl (Word × Bool) :=
  if s.act.getLsbD 0 then
    match s.hostLeaf who region va with
    | none => .error cHOST
    | some (e, large) =>
      if !fbit e 0 || fld e 63 56 != region || !fbit e 1 then .error cXLATE else .ok (e, large)
  else s.walkFrom partn region va 3 (regionRoot (s.regionRec region))

/-- The walker posts region, address and access to the host (R409), once while no answer has come. -/
def State.postWalk (s : State) (who region va acc : Nat) : State :=
  if s.hostPosts.contains (.walk who region va acc) then s
  else { s with hostPosts := s.hostPosts ++ [.walk who region va acc] }

/-- A leaf of the host has served its walk. -/
def State.dropLeaf (s : State) (who region va : Nat) : State :=
  match s.hostLeaves with
  | [] => s
  | l => { s with
    hostLeaves := l.filter fun x => !leafFor who region va x
    hostPosts := s.hostPosts.filter fun p => match p with
      | .walk w r v _ => !(w == who && r == region && v / 65536 == va / 65536)
      | _ => true }

/-- A walk for an access: it waits for the host's leaf, or for the cut-off of a die whose link has failed. -/
def walkM (who partn region : Nat) (acc : Acc) (va : Nat) : M (Xl (Word × Bool)) := do
  let s ← get
  match s.walk who partn region va with
  | .error c =>
    if c = cHOST then set (s.postWalk who region va acc.code); waitFor .host
    else if c = cWAIT then waitFor .fabric
    else pure (.error c)
  | .ok x => pure (.ok x)

/-- The outbound fabric table (R407): the first valid entry that matches, with its R, W and A bits. -/
def State.outbound (s : State) (region handle wpi : Nat) : Option (Bool × Bool × Bool) :=
  (s.outTable.find? fun (_, e) =>
    let w := nth e 0 0
    let l := nth e 1 0
    fbit w 0 && fld w 63 36 == 0 && fld w 7 4 == 0 && fld l 63 33 == 0 &&
    fld w 15 8 == region && decide (fld w 25 16 ≤ handle) && decide (handle ≤ fld w 35 26) &&
    decide (wpi < fld l 32 0)).map fun (_, e) =>
      (fbit (nth e 0 0) 1, fbit (nth e 0 0) 2, fbit (nth e 0 0) 3)

/-- The leaf's permissions for an access in a mode (Table 25-5). -/
def leafAllows (e : Word) (mode : Mode) (acc : Acc) : Bool :=
  (mode == .s || fbit e 5) &&
  match acc with
  | .load => fbit e 2
  | .store => fbit e 3
  | .rmw => fbit e 2 && fbit e 3
  | .fetch => fbit e 4 && fbit e 2

/-- A leaf checked under R399 to R402 and R407, and the place of a byte it maps. -/
def State.leafLoc (s : State) (partn region : Nat) (mode : Mode) (acc : Acc) (e : Word) (large : Bool) (va : Nat) :
    Xl Loc :=
  let size := if large then mib512 else 65536
  let off := va % size
  let frame := fld e 55 31
  let scf := fld e 30 13
  let place := fld e 12 10
  let kind := fld e 9 8
  let gt := fbit e 7
  let p := s.part partn
  if fbit e 6 then
    if place != 0 || gt then .error cXLATE
    else if !leafAllows e mode acc then .error cPERM
    else
      let handle := fld e 55 46
      match s.outbound region handle (fld e 45 13) with
      | none => .error cPERM
      | some (r, w, a) =>
        if (match acc with | .load => r | .store => w | .rmw => a | .fetch => false)
        then .ok (.remote handle (fld e 45 13 * 65536 + off) kind) else .error cPERM
  else if kind = 3 then
    if gt || scf != 0 || (large && frame % 8192 != 0) then .error cXLATE
    else if off / 65536 + frame != partn then .error cXLATE
    else if !leafAllows e mode acc then .error cPERM
    else if acc == .fetch then .error cPERM
    else .ok (.dev partn (off % 65536))
  else
    let bad := (large && frame % 8192 != 0) || (!gt && scf != 0) || (large && gt && scf % 8192 != 0)
    match placeBase place with
    | none => .error cXLATE
    | some b =>
      let pa := b + frame * 65536
      let sc := regionScb (s.regionRec region) + scf * 16384
      if bad || decide (s.populated place < frame * 65536 + size) || !partHolds p pa size then .error cXLATE
      else if gt && (!partHolds p sc (size / 4) || !s.paPopulated sc (size / 4)) then .error cXLATE
      else if !leafAllows e mode acc then .error cPERM
      else .ok (.mem (pa + off) kind (if gt then some (sc + off / 8 * 2) else none))

/-- The frame that a leaf names lies outside the window of its placement, or outside that window's populated part (R246). -/
def State.unpopulated (s : State) (e : Word) (large : Bool) : Bool :=
  !fbit e 6 && fld e 9 8 != 3 && match placeBase (fld e 12 10) with
    | none => true
    | some _ => decide (s.populated (fld e 12 10) < fld e 55 31 * 65536 + (if large then mib512 else 65536))

/-! ### The scratch window (R46) -/

/-- The section at a virtual address of the scratch window is enabled and held by the partition. -/
def State.scratchOk (s : State) (die partn va : Nat) : Bool :=
  let sec := (va - scratchBase) / 33554432
  let d := coreDie (die * 128)
  dieScores s.diecfg[d] sec != 0 && partSect (s.part partn) (8 * die + sec)

/-! ### Translation caches (R404) and views (R270) -/

/-- A log record removes a translation (R406). -/
def recMatches (r : Word × Word) (e : TlbEntry) : Bool :=
  let op := fld r.1 3 0
  let first := fld r.2 54 16
  let count := if op = 2 then fld r.1 47 16 else 1
  let lo := if e.large then e.vpn / 8192 * 8192 else e.vpn
  let hi := if e.large then lo + 8192 else lo + 1
  if op = 4 then true
  else if op = 3 then fld r.1 15 8 == e.region
  else fld r.1 15 8 == e.region && decide (first < hi) && decide (lo < first + count)

/-- Records of a die's log that a view holds and no applier has applied. -/
def viewRecs (d : Die) (viewTail : Nat) : List (Word × Word) :=
  d.log.take (viewTail - (d.tail - d.log.length))

/-- A cached translation of the page, not invalidated by a record in the strand's view. -/
def tlbFind (recs : List (Word × Word)) (region va : Nat) (l : List TlbEntry) : Option TlbEntry :=
  l.find? fun e =>
    e.region == region &&
    (if e.large then e.vpn / 8192 == va / mib512 else e.vpn == va / 65536) &&
    !(recs.any fun r => recMatches r e)

/-- A cached translation for the strand, with whether the core TLB held it. -/
def State.cached (s : State) (va : Nat) : Option (TlbEntry × Bool) :=
  let d := s.dies[s.myDie]
  let recs := viewRecs d s.st.viewTail
  match tlbFind recs s.st.region va s.myCore.tlb with
  | some e => some (e, true)
  | none =>
    match tlbFind recs s.st.region va s.sects[coreSect s.st.core].tlb with
    | some e => some (e, false)
    | none => (tlbFind recs s.st.region va d.tlb).map fun e => (e, false)

/-- Install a translation in the core, section and die TLBs of a core (R404), the oldest entries making room. -/
def State.tlbFill (s : State) (core : Nat) (e : TlbEntry) : State :=
  let s := s.mapCore core fun c => { c with tlb := (e :: c.tlb).take 128 }
  let s := s.mapSect (coreSect core) fun x => { x with tlb := (e :: x.tlb).take 2048 }
  s.mapDie (coreDie core) fun d => { d with tlb := (e :: d.tlb).take 16384 }

/-- A leaf that the host returned before a record in a view does not serve: its walk is made again (R270, R406). -/
def State.staleLeaf (s : State) (recs : List (Word × Word)) (who region va : Nat) : Bool :=
  match s.hostLeaf who region va with
  | none => false
  | some (leaf, large) => recs.any fun r => recMatches r { region, vpn := va / 65536, large, leaf }

/-- A walk for a strand of a partition, mode and core with its view of the log: the leaf checked and placed. The caches are filled
unless the walk faulted (R403). -/
def walkPlace (who partn region core view : Nat) (mode : Mode) (acc : Acc) (va : Nat) : M (Except Nat Loc) := do
  modify fun s => if s.staleLeaf (viewRecs s.dies[coreDie core] view) who region va then s.dropLeaf who region va else s
  if (← get).linkDown controlDie (coreDie core) then waitFor .fabric
  match ← walkM who partn region acc va with
  | .error c => modify fun s => s.dropLeaf who region va; pure (.error c)
  | .ok (leaf, large) =>
    let s ← get
    let r := s.leafLoc partn region mode acc leaf large va
    let s := s.dropLeaf who region va
    match r with
    | .ok _ => set (s.tlbFill core { region, vpn := va / 65536, large, leaf })
    | .error _ => set s
    pure r

/-- This access has been tried before and its walk posted to the host: its miss is counted (R251). -/
def State.walkPosted (s : State) (who region va : Nat) : Bool :=
  s.act.getLsbD 0 && ((s.hostLeaf who region va).isSome || s.hostPosts.any fun p => match p with
    | .walk w r v _ => w == who && r == region && v / 65536 == va / 65536
    | _ => false)

/-- The instruction being run is a restart attempt (R371). -/
def State.restarting (s : State) : Bool :=
  match s.st.issue with
  | some n => n.restart.isSome
  | none => s.st.restartPc == some s.st.pc

/-- A restart attempt holds the translation it has obtained, of the lowest pages first and at most 96 (R371). -/
def State.holdXl (s : State) (e : TlbEntry) : State :=
  if !s.restarting then s
  else
    let e := { e with vpn := if e.large then e.vpn / 8192 * 8192 else e.vpn }
    let l := s.st.hold.filter fun x => decide (x.vpn < e.vpn)
    let r := s.st.hold.filter fun x => decide (e.vpn < x.vpn)
    { s with st := { s.st with hold := (l ++ e :: r).take 96 } }

/-- The place of an address for an access of the strand: by a translation it holds, by a cached leaf or by a walk; TLBM counts
misses of the core TLB (Table 13-6). -/
def leafM (acc : Acc) (va : Nat) : M (Except Nat Loc) := do
  let s ← get
  match (if s.restarting then tlbFind [] s.st.region va s.st.hold else none) with
  | some e => pure (s.leafLoc s.st.partn s.st.region s.st.mode acc e.leaf e.large va)
  | none =>
    match s.cached va with
    | some (e, true) =>
      set (s.holdXl { e with vpn := va / 65536 })
      pure (s.leafLoc s.st.partn s.st.region s.st.mode acc e.leaf e.large va)
    | some (e, false) =>
      set ((s.mapCore s.st.core fun c => { c with tlbm := c.tlbm + 1, tlb := (e :: c.tlb).take 128 }).holdXl
        { e with vpn := va / 65536 })
      pure (s.leafLoc s.st.partn s.st.region s.st.mode acc e.leaf e.large va)
    | none =>
      let t := if s.walkPosted s.st.sn s.st.region va then s else s.mapCore s.st.core fun c => { c with tlbm := c.tlbm + 1 }
      set t
      let r ← walkPlace t.st.sn t.st.partn t.st.region t.st.core t.st.viewTail t.st.mode acc va
      let s ← get
      match r, s.cached va with
      | .ok _, some (e, _) => set (s.holdXl { e with vpn := va / 65536 })
      | _, _ => pure ()
      pure r

/-! ### The remap table (R445, R446) -/

/-- A handle whose entry is not valid or names no port refuses every access. -/
def remapOk (handle va elem : Nat) : M Unit := do
  match SMap.find (← get).remap handle with
    | none => raise cPERM (BitVec.ofNat 64 va) elem
    | some e => require (e.v && e.ports != 0) cPERM (BitVec.ofNat 64 va) elem

/-! ### Checks of an access (R90, R91, R116, R272) -/

/-- How alignment is checked. -/
inductive AlignRule
  /-- plain access: a misaligned access to DV raises PERM, and to GT too when it is of an FP type (R90, R116) -/
  | plain (fp : Bool)
  /-- ordered forms and atomics: any misalignment raises PERM before translation; DV raises PERM when not allowed (R272) -/
  | natural (devOk : Bool)
  deriving DecidableEq, Repr

/-- The bytes of an access that lie on the page or section granule of its first byte. -/
def headLen (va n : Nat) : Nat :=
  if scratchBase ≤ va then min n (33554432 - (va - scratchBase) % 33554432) else min n (65536 - va % 65536)

/-- What the address of an access of n bytes is to be a multiple of: n, and 8 for a chunk of weights, which is a row of
doublewords (R212). -/
def alignUnit (n : Nat) : Nat := if n = 48 then 8 else n

/-- The bytes of an access before its first cut: a misaligned datum is cut at 8-byte boundaries (R90, R116), a longer access at
the end of its page. -/
def cutLen (va n : Nat) : Nat := if n ≤ 8 ∧ va % n ≠ 0 then min n (8 - va % 8) else headLen va n

/-- The kind of the page a place lies on (Table 14-1). -/
def Loc.kind : Loc → Nat
  | .mem _ k _ => k
  | .dev .. => 3
  | .remote _ _ k => k

/-- A die that holds what an access needs: the data, and the sidecar of a store or an atomic, on a GT page. -/
def Loc.homes (loc : Loc) (sidecar : Bool) : List Nat :=
  match loc with
  | .mem key _ sc => homeDie key :: (if sidecar then (sc.map homeDie).toList else [])
  | .dev .. | .remote .. => []

/-- Every die of a list can be reached from a die: LINK where one has been cut off (R449), and a wait where the link to one has
failed (R447). -/
def reach (die : Nat) (homes : List Nat) (tv : Word) (elem : Nat) : M Unit := do
  let s ← get
  if homes.any fun h => s.dies[coreDie (h * 128)].cut then raise cLINK tv elem
  else if homes.any fun h => s.linkDown die h then waitFor .fabric

/-- Place one part of an access, TVAL naming its lowest byte at fault; of a misaligned access to a DV page, or of an FP type to
a GT page, that is the access's first byte, also where only its upper page is such a page (assumption log 25). Only a die that a failed
link has cut off raises LINK: memory of one disabled from the start is as any other (assumption log 111). -/
def placePart (acc : Acc) (rule : AlignRule) (aligned : Bool) (va0 va off n elem : Nat) : M Part := do
  let s ← get
  let tv : Word := BitVec.ofNat 64 va
  if scratchBase ≤ va then
    let d := s.myDie.val
    if !s.scratchOk d s.st.partn va then raise cXLATE tv elem
    else if s.dies[s.myDie].cut then raise cLINK tv elem
    else pure { loc := .mem (scratchKey d (va - scratchBase)) 1 none, at_ := off, len := n }
  else
    match ← leafM acc va with
    | .error c => raise c tv elem
    | .ok loc =>
      let s ← get
      let refused := match rule with
        | .plain fp => !aligned && (loc.kind == 3 || (fp && match loc with | .mem _ _ sc => sc.isSome | _ => false))
        | .natural devOk => loc.kind == 3 && !devOk
      if refused then raise cPERM (BitVec.ofNat 64 va0) elem
      else
        match loc with
        | .dev .. => pure { loc, at_ := off, len := n }
        | .mem .. =>
          reach s.myDie (loc.homes (acc != .load)) tv elem
          pure { loc, at_ := off, len := n }
        | .remote h _ _ =>
          remapOk h va elem
          if s.linkDown s.myDie controlDie then waitFor .fabric
          pure { loc, at_ := off, len := n }

/-- A byte of an access is one that no strand of the partition can have: scratch that it may not reach (R46), or a page whose
frame is not populated (R246). -/
def outOfRange (acc : Acc) (va : Nat) : M Bool := do
  let s ← get
  if scratchBase ≤ va then pure (!s.scratchOk s.myDie.val s.st.partn va)
  else match s.cached va with
    | some (e, _) => pure (s.unpopulated e.leaf e.large)
    | none =>
      match ← walkM s.st.sn s.st.partn s.st.region acc va with
      | .error _ => pure false
      | .ok (e, large) => pure (s.unpopulated e large)

/-- The range rules of R90 and R116: the address that TVAL takes where an access breaks one. An ordered or atomic access takes its
own (R272); of another the lowest byte at fault, but its own where it begins below the scratch window and ends in it (assumption
log 25). -/
def rangeFault (rule : AlignRule) (va n : Nat) : Option Nat :=
  if vaTop ≤ va then some va
  else if vaTop < va + n then some (match rule with | .plain _ => vaTop | .natural _ => va)
  else if va < scratchBase ∧ scratchBase < va + n then some va
  else none

/-- Check an access of n bytes at a 64-bit address and place its parts, the lower first: its range, then its alignment where
that is its own, then translation and permission (R90, R91, R116, R272). A misaligned ordered or atomic access gives its own address,
also where only its upper bytes are past 2^55 or in a section that it may not reach (assumption log 25). -/
def placeM (acc : Acc) (rule : AlignRule) (va n elem : Nat) : M (List Part) := do
  let aligned := va % alignUnit n == 0
  match rangeFault rule va n with
  | some b => raise cXLATE (BitVec.ofNat 64 b) elem
  | none =>
    match rule, aligned with
    | .natural _, false =>
      let low ← outOfRange acc va
      let high ← outOfRange acc (va + n - 1)
      raise (if low || high then cXLATE else cPERM) (BitVec.ofNat 64 va) elem
    | _, _ =>
      let n0 := cutLen va n
      let p0 ← placePart acc rule aligned va va 0 n0 elem
      if n0 = n then pure [p0]
      else do
        let p1 ← placePart acc rule aligned va (va + n0) n0 (n - n0) elem
        pure [p0, p1]

/-! ### Accesses begun (R91, R257, R258) -/

/-- Whose access a new one is: the running entry's, or the scalar stream's. -/
def State.accessOwner (s : State) : Nat := if s.st.issue.isSome then 1 else 0
def Begun.same (a b : Begun) : Bool := a.store == b.store && a.va == b.va && a.len == b.len && a.owner == b.owner
/-- An access is kept for the next try of its instruction (assumption log 96). -/
def State.keepBegun (s : State) (b : Begun) : State :=
  { s with st := { s.st with begun := (s.st.begun.filter fun x => !x.same b) ++ [b] } }

/-- The access as an earlier try of the instruction has begun it, or its checks and its places. -/
def beginM (acc : Acc) (rule : AlignRule) (va n elem : Nat) : M Begun := do
  let s ← get
  let b : Begun := { store := acc != .load, va, len := n, owner := s.accessOwner, parts := [], got := [] }
  match s.st.begun.find? b.same with
  | some x => pure x
  | none => return { b with parts := ← placeM acc rule va n elem }

/-- A computation on an access that is kept where it has to wait. -/
def keeping {α : Type} (b : Begun) (m : M α) : M α := fun s =>
  match m s with
  | .error (.wait w) t => .error (.wait w) (t.keepBegun b)
  | r => r

/-! ### Request counters (R129, R251, R252) -/

/-- Note the lines of a part: own-die home 0, other-die home 1, fabric 2, scratch words 3; 4 is for the lines that the
collective engine reads for a fabric stream (R330). Lines of a grade sidecar are no requests of their own (assumption log 113). -/
def State.touch (s : State) (p : Part) : State :=
  let note := fun (s : State) (k : Nat) => { s with st := { s.st with lines := insertAsc s.st.lines k } }
  match p.loc with
  | .dev .. => s
  | .remote h a _ =>
    (upTo ((a + p.len - 1) / 64 - a / 64 + 1)).foldl (fun s i => note s (2 * 2 ^ 70 + h * 2 ^ 56 + a / 64 + i)) s
  | .mem key .. =>
    let cls := fun line => if 2 ^ 46 ≤ line then 3 else if homeDie (line * 64) = s.myDie.val then 0 else 1
    (upTo ((key + p.len - 1) / 64 - key / 64 + 1)).foldl (fun s i => note s (cls (key / 64 + i) * 2 ^ 70 + key / 64 + i)) s

/-- Distinct scratch words of one section, per bank: the sum of max(0, w - 1) (R129). A word of scratch is 64 bytes:
bank = bits [6:0] of the word number. -/
def bankConflicts (ws : List Nat) : Nat :=
  ((upTo 128).map fun b => (ws.filter fun w => w % 128 == b).length - 1).foldl (· + ·) 0

/-- Demand requests of HBM4E that find a row which a hint of the same core opened (HINTU, R250, R251; assumption log 114). -/
def State.hintUses (s : State) (l : List Nat) : Nat :=
  let rows := s.myCore.hintRows
  if rows = [] then 0
  else (l.filter fun k => decide (k / 2 ^ 70 ≤ 1) && rows.contains (Config.dramRow (k % 2 ^ 70))).length

/-- Scratch words of one section of the die among lines. -/
def scratchWords (l : List Nat) (sec : Nat) : List Nat :=
  ((l.filter fun k => k / 2 ^ 70 == 3).map fun k => k % 2 ^ 70 - 2 ^ 46).filterMap fun w =>
    if w / 524288 % 8 = sec then some (w % 524288) else none

/-- Count the lines an instruction has touched and not counted before, as they leave (R252, R253), and take them as counted. -/
def State.countLines (s : State) : State :=
  let old := s.st.counted
  let l := s.st.lines.filter fun k => !old.contains k
  let cnt := fun c => (l.filter fun k => k / 2 ^ 70 == c).length
  let s := s.mapDie s.myDie fun d =>
    { d with reql := d.reql + BitVec.ofNat 64 (cnt 0), reqr := d.reqr + BitVec.ofNat 64 (cnt 1),
             reqf := d.reqf + BitVec.ofNat 64 (cnt 2), reqe := d.reqe + BitVec.ofNat 64 (cnt 4) }
  let used := s.hintUses l
  let s := if used = 0 then s else s.mapCore s.st.core fun c => { c with hintu := c.hintu + BitVec.ofNat 64 used }
  let all := old ++ l
  let s := (upTo 8).foldl (fun s sec =>
    let c := bankConflicts (scratchWords all sec) - bankConflicts (scratchWords old sec)
    if c = 0 then s
    else s.mapSect (coreSect (s.myDie.val * 128 + sec * 16)) fun x => { x with bconf := x.bconf + BitVec.ofNat 64 c }) s
  { s with st := { s.st with lines := [], counted := all } }

/-- The instruction has ended: its last lines are counted and all are forgotten. -/
def State.flushLines (s : State) : State :=
  let s := if s.st.lines = [] then s else s.countLines
  { s with st := { s.st with counted := [] } }

/-! ### Keys of the storage of a core (R42, R43, R209) -/

/-- Base of a core's storage in `State.onchip`. -/
def coreBase (c : Nat) : Nat := c * 2 ^ 24
/-- Key of byte `o` of the slice of lane `l`. -/
def laneKey (c l o : Nat) : Nat := coreBase c + l * 4096 + o
/-- Key of byte `o` of the active (0) or shadow (1) plane: column c is the 3,072-byte K-row at 3072c (R208, R215). -/
def planeKey (c which o : Nat) : Nat := coreBase c + 2 ^ 20 + which * 2 ^ 19 + o
/-- Key of byte `o` of the values of tile `t`, in architectural row order (assumption log 13). -/
def tileKey (c t o : Nat) : Nat := coreBase c + 2 ^ 22 + t * 16384 + o
def planeBytes : Nat := 147456
def tileBytes : Nat := 12288

/-- A tile owned by a slot under a division (R43). -/
def tileOwned (div slot t : Nat) : Bool :=
  if div = 0 then slot == 0 else if div = 1 then t % 2 == slot else t == slot
/-- Tile `t` as after `mx.zero` with a kind (R224). -/
def State.zeroTile (s : State) (c : Nat) (t : Fin 4) (kind : Nat) : State :=
  let s := { s with onchip := Memory.wipe s.onchip (tileKey c t.val 0) tileBytes }
  let z : Tile :=
    { kind, rho := 0, rowGrade := .replicate 64 (if kind = 1 then 0xFF else if kind = 0 then 24 else 53),
      rmax := .replicate 64 0xFF800000, dirty := true }
  s.mapCore c fun k => { k with tiles := k.tiles.set t z }
/-- Both planes cleared, their tags invalid, and the MXO fields at reset (R44). -/
def State.clearPlanes (s : State) (c : Nat) : State :=
  let m := Memory.wipe s.onchip (planeKey c 0 0) planeBytes
  let m := Memory.wipe m (planeKey c 1 0) planeBytes
  { s with onchip := m }.mapCore c fun k =>
    { k with active := .invalid, shadow := .invalid, activeDirty := true, shadowDirty := true, swapDue := false, owner := 0, granted := false }
/-- The tiles of a slot cleared with kind 0 (R44, R435). -/
def State.clearTiles (s : State) (c slot : Nat) : State :=
  [(0 : Fin 4), 1, 2, 3].foldl (fun s t => if tileOwned (s.coreOf c).div slot t.val then s.zeroTile c t 0 else s) s

/-! ### Events to the host (R453, R463) -/

/-- DMA can read n bytes at a bus address: none of them lies on a frame named in `hostBad`. -/
def State.hostOk (s : State) (a n : Nat) : Bool :=
  (upTo ((a + n - 1) / 4096 - a / 4096 + 1)).all fun i => !s.hostBad.contains (a / 4096 + i)
/-- DMA can write those bytes: their frames are not open for reading only. -/
def State.hostWritable (s : State) (a n : Nat) : Bool :=
  s.hostOk a n && (upTo ((a + n - 1) / 4096 - a / 4096 + 1)).all fun i => !s.hostRO.contains (a / 4096 + i)

def fnIx (n : Nat) : Fin 17 := ⟨n % 17, Nat.mod_lt _ (by decide)⟩
def State.mapFn (s : State) (n : Fin 17) (f : FnPage → FnPage) : State := { s with fns := s.fns.set n (f s.fns[n]) }
/-- The physical function. -/
def pf : Fin 17 := 16

/-- Bits of an event's doubleword 0 that the spec gives: KIND, and the TAG of kind 3. -/
def eventMask (kind : Nat) : Word := if kind = 3 then 0xFFFF00FF else 0xFF

/-- The doublewords of an event: those given, and free ones where the spec gives none (assumption log 22). -/
def eventWords (free : Nat) (dw : List Word) : List Word :=
  (upTo 8).map fun i =>
    let x := Config.freeWord (free + i)
    if i = 0 then
      let m := eventMask ((nth dw 0 0).toNat % 256)
      (nth dw 0 0 &&& m) ||| (x &&& ~~~ m)
    else nth dw i x

/-- Write a ring entry to a function (R463); EVTAIL advances even when the entry is dropped. A management event of kind 4 or
5 that is written to the physical function's ring counts in RRS (Table 28-4). -/
def State.event (s : State) (fn : Fin 17) (dw : List Word) : State :=
  let p := s.fns[fn]
  let a := fld p.evring 54 12 * 4096 + p.evtail.toNat % 64 * 64
  let k := (nth dw 0 0).toNat % 256
  let s := s.mapFn fn fun q => { q with evtail := q.evtail + 1 }
  if fld p.evring 54 12 != 0 && s.hostWritable a 64 then
    let ws := eventWords s.freeNo dw
    { s with
      hostMem := (upTo 8).foldl (fun m i => Memory.writeN m (a + 8 * i) 8 (nth ws i 0).toNat) s.hostMem
      freeNo := s.freeNo + 8
      rrs := if fn = pf ∧ (k = 4 ∨ k = 5) ∧ fld s.rrs 63 48 < 65535 then s.rrs + BitVec.ofNat 64 (2 ^ 48) else s.rrs }
  else s

/-- A management event of kind 5, also sent to a partition's function when it arises from that partition (R463). -/
def State.manageWith (s : State) (partn : Option Nat) (dw : List Word) : State :=
  let s := s.event pf (5 :: dw)
  match partn with
  | some n => s.event (fnIx (n % 16)) (5 :: dw)
  | none => s
/-- The same with a value in doubleword 1. -/
def State.manage (s : State) (partn : Option Nat) (val : Nat) : State := s.manageWith partn [BitVec.ofNat 64 val]

/-- Set bits of RRS; a field that becomes set sends a management event of kind 4 (R453). -/
def State.setRrs (s : State) (mask : Nat) : State :=
  let new := s.rrs.toNat ||| mask
  if new = s.rrs.toNat then s else { s with rrs := BitVec.ofNat 64 new }.event pf [4]

/-- The RRS register, RQ being the OR of every field but EVT and UE (Table 28-4). -/
def State.rrsRead (s : State) : Word :=
  if s.rrs.toNat % 2 ^ 42 / 8 = 0 && !fbit s.rrs 1 then s.rrs &&& ~~~ (1#64) else s.rrs ||| 1

/-! ### Function pages (Table 30-2) -/

/-- The doubleword at an offset of a function page, as it reads. -/
def State.fnRead (s : State) (fn : Fin 17) (off : Nat) : Word :=
  let p := s.fns[fn]
  if off = 0x08 then
    BitVec.ofNat 64 (p.launches.length % 256 + p.mpend % 256 * 256 + (if p.err then 65536 else 0))
  else if off = 0x18 then p.evring
  else if off = 0x20 then BitVec.ofNat 64 p.evtail.toNat
  else if off = 0x30 && fn == pf then BitVec.ofNat 64 s.fwst.toNat
  else 0

/-- A write of a doubleword of a function page but FWGO. -/
def State.fnWrite (s : State) (fn : Fin 17) (off : Nat) (x : Word) : State :=
  let p := s.fns[fn]
  let err := s.mapFn fn fun q => { q with err := true }
  if off = 0x00 then
    let part := s.part fn.val
    let ridx := fld x 62 55
    let r := fld (nth part 0 0) 47 40 + ridx
    if fn = pf ∨ fld x 5 0 ≠ 0 ∨ fbit x 63 = true ∨ partValid part = false ∨ fld (nth part 0 0) 55 48 ≤ ridx ∨
        regionValid (s.regionRec r) = false ∨ 16 ≤ p.launches.length ∨ 2 ^ 32 - 1 ≤ s.lids then err
    else s.mapFn fn fun q => { q with launches := q.launches ++ [(fld x 54 6 * 64, ridx)] }
  else if off = 0x08 then
    if fbit x 16 then s.mapFn fn fun q => { q with err := false } else s
  else if off = 0x10 then
    if fld x 7 0 ≠ 0 ∨ 8 ≤ p.mpend then err
    else s.mapFn fn fun q => { q with mpend := q.mpend + 1, requests := q.requests ++ [x.toNat] }
  else if off = 0x18 then s.mapFn fn fun q => { q with evring := BitVec.ofNat 64 (fld x 54 12 * 4096) }
  else s

/-- Bytes of a function page: an access of n bytes at an offset, within one doubleword, or of a row of doublewords (R257). -/
def State.devRead (s : State) (fn : Fin 17) (off n : Nat) : Nat :=
  ((upTo ((n + 7) / 8)).foldl (fun x i => x + (s.fnRead fn (off / 8 * 8 + 8 * i)).toNat * 2 ^ (64 * i)) 0) / 2 ^ (8 * (off % 8)) %
    2 ^ (8 * n)
/-- The bytes written stand beside the register's own for a register that can be read and written, and beside zeros
otherwise (assumption log 8). -/
def State.devWrite (s : State) (fn : Fin 17) (off n x : Nat) : State :=
  let base := off / 8 * 8
  let old := if base = 0x18 then (s.fnRead fn base).toNat else 0
  let sh := 8 * (off % 8)
  let keep := old % 2 ^ sh + old / 2 ^ (sh + 8 * n) * 2 ^ (sh + 8 * n)
  s.fnWrite fn base (BitVec.ofNat 64 (keep + x % 2 ^ (8 * n) * 2 ^ sh))

/-- A doubleword of a function's oldest mailbox request: as it was read, or as the host's memory has it. -/
def State.mailDw (s : State) (fn : Fin 17) (a i : Nat) : Word :=
  match (s.fns[fn]).taken with
  | [] => BitVec.ofNat 64 (Memory.readN s.hostMem (a + 8 * i) 8)
  | l => nth l i 0
/-- The request has been read, or can be (R463). -/
def State.mailOpen (s : State) (fn : Fin 17) (a : Nat) : Bool := !(s.fns[fn]).taken.isEmpty || s.hostOk a 128
/-- A request that takes more than one event has been read: it is not read again (assumption log 120). -/
def State.takeMail (s : State) (fn : Fin 17) (a : Nat) : State :=
  s.mapFn fn fun p => { p with taken := (upTo 16).map fun i => s.mailDw fn a i }

/-! ### Groups: requests (R442, R444) -/

def State.group? (s : State) (gid : Nat) : Option Group := s.groups.find? fun g => g.gid == gid
def State.mapGroup (s : State) (gid : Nat) (f : Group → Group) : State :=
  { s with groups := s.groups.map fun g => if g.gid = gid then f g else g }
/-- The package that is home of a group's current generation: that of its lowest MID (R442). -/
def Group.home (g : Group) : Nat := (g.members.foldl min (2 ^ 26)) / 65536 % 1024

/-- A membership request at the home (Table 28-1). -/
def Group.request (g : Group) (kind mid : Nat) : Group :=
  if g.phase = 0 then { g with phase := 1, reqs := [(kind, mid)] }
  else { g with later := g.later ++ [(kind, mid)] }

/-- The record is this package's to change: not before the generation that makes it the home is STABLE (R442). -/
def State.isHome (s : State) (g : Group) : Bool := g.phase != 3 && g.settled && g.home == s.handle.toNat

/-- Send a membership request to a group's home, which may be this package. -/
def State.groupRequest (s : State) (gid kind mid : Nat) : State :=
  let drid := regionDrid (s.regionRec (((s.strand? (mid % 65536)).map (·.region)).getD 0))
  let away := { s with fabricOut := s.fabricOut ++ [.member gid kind mid drid] }
  match s.group? gid with
  | some g => if s.isHome g then s.mapGroup gid fun g => g.request kind mid else away
  | none => away

/-- A strand that ends or retires leaves every group it is a member of, or is to be: of the generation being committed, or by a join
that it has asked for (R384, R444). -/
def State.leaveAll (s : State) (sn kind : Nat) : State :=
  let m := s.mid sn
  let asked := match s.strand? sn with
    | some t => t.asked.toList ++ t.askedOff.toList
    | none => []
  let held := (s.groups.filter fun g => g.members.contains m || g.next.contains m).map (·.gid)
  (held ++ asked.filter fun x => !held.contains x).eraseDups.foldl (fun s gid => s.groupRequest gid kind m) s

/-- The descriptor a slot was bound with, as far as it tells broadcast streams apart (R128). -/
def Stream.desc (k : Stream) : List Nat := [k.level, k.len, k.base.toNat, k.stride.toNat]

/-! ### Mesh versions (R301) -/

/-- Streams of any strand bound to a version of a mesh (R301). -/
def State.boundTo (s : State) (partn handle num : Nat) : Bool :=
  s.strands.any fun t => t.partn == partn && t.k.toList.any fun k => match k with
    | some k => k.mesh == some (handle, num)
    | none => false
/-- Versions that are no longer retained are released (R301). -/
def State.pruneMeshes (s : State) : State :=
  if s.meshes = [] then s
  else { s with meshes := s.meshes.map fun m => { m with
    versions := m.versions.filter fun v => v.num == m.current || v.holds != 0 || s.boundTo m.partn m.handle v.num } }

/-- The house instance of a strand at a level of its launch. -/
def State.houseInst (s : State) (t : Strand) (level : Nat) : Nat :=
  ((s.launch? t.sched.lid).bind fun l => ancestorAt l level t.sched.inst).getD 0

/-- A live strand of the house has a slot bound to the stream of a broadcast buffer (R128). -/
def State.bcastShared (s : State) (b : Bcast) : Bool :=
  s.strands.any fun t => t.live && t.sched.lid == b.lid && t.k.toList.any fun k => match k with
    | some k => k.kind == 3 && k.desc == b.desc && s.houseInst t k.level == b.inst
    | none => false

/-- Broadcast buffers that no live strand's slot shares any more are given up (R128). -/
def State.pruneBcast (s : State) : State :=
  if s.sects.all (fun x => x.bcast.isEmpty) then s
  else { s with sects := s.sects.map fun x => { x with bcast := x.bcast.filter s.bcastShared } }

/-- What streams hold is given up with them: mesh versions and broadcast buffers. -/
def State.pruneStreams (s : State) : State := s.pruneMeshes.pruneBcast

/-! ### The end of a strand (R44, R357, R384, R418) -/

/-- A strand gives up its seat, with the array cleared if it owned it (R44), and a change of the division that it waits with (R381). -/
def State.unseat (s : State) (t : Strand) : State :=
  match t.sched.place with
  | none => s
  | some (c, slot) =>
    let s := if slot = 0 then s.mapCore c fun k => { k with dividing := false } else s
    if (s.coreOf c).owner = slot then (s.clearPlanes c).clearTiles c slot else s

/-- The strand with what its life ends: no seat, no queue, no slots, no handles, no engine results; its claims only where
they are to be reported; its outstanding commands run on (R283), and the trains it has sent are still to be acknowledged (R446). -/
def Strand.close (t : Strand) (st : Status) : Strand :=
  { t with
    k := .replicate 8 none, q := .replicate 8 none, vq := [], pend := [], issue := none, scalarNext := false,
    queueOnly := false, early := none, restartPc := none, rearm := [], hold := [], tailRead := none,
    preemptNote := none, wait := .none, qwait := .none, wake := false, claims := [],
    remote := t.remote.filter fun r => decide (8 ≤ r.op) || r.op == 1 || r.op == 3 || r.op == 4, begun := [], trains := [],
    scalarLines := [], coll := none, asked := none,
    collOff := none, askedOff := none, joinRefused := false, refusedOff := false, entered := false,
    fifo := t.fifo.map fun f => { f with results := [] },
    sched := { t.sched with status := st, place := none, preemptAsked := false, preempting := false, quiesced := false,
                            restoring := false, resume := none,
                            image := 0 } }

/-- The level-0 instance of a strand's launch, and the house a strand failure is raised at: its parent, or itself in a
roster of one level (R357). -/
def failHouse (l : Launch) (inst : Nat) : Nat := ((l.insts[inst]?).bind (·.parent)).getD inst

/-- What the launching package is told about a launch of its own with strands here goes out by the fabric. -/
def State.tell (s : State) (m : FabMsg) : State := { s with fabricOut := s.fabricOut ++ [m] }

/-- A strand's failure in its launch (R357): its instance has ended; the fault waits for the binder, here or at the package that
launched it. -/
def State.raiseFailure (s : State) (t : Strand) (cause : Nat) (val : Word) : State :=
  let gone := fun (l : Launch) => match l.insts[t.sched.inst]? with
    | some x => { l with insts := listSet l.insts t.sched.inst { x with status := .ended } }
    | none => l
  match (s.launch? t.sched.lid).bind (·.origin) with
  | some home =>
    (s.mapLaunch t.sched.lid gone).tell (.failed home (t.sched.lid % 2 ^ 32) t.sched.inst (s.mid t.sn) cause val t.claims)
  | none =>
    s.mapLaunch t.sched.lid fun l => { gone l with
      faults := l.faults ++ [{ inst := failHouse l t.sched.inst, event := 1, child := some t.sched.inst,
                               mid := s.mid t.sn, cause, val, ranges := t.claims, gone := [] }] }

/-- A strand is ended where a trap entry has been made and its handler has issued nothing: the ending wins, and the trap's cause goes
to the binder as a fault of a child that has ended already, which it records as superseded (R359, R419; assumption log 105). -/
def State.superTrap (s : State) (t : Strand) : State :=
  if !t.entered then s
  else
    let cause := t.trap.tcause.toNat % 64
    match (s.launch? t.sched.lid).bind (·.origin) with
    | some home => s.tell (.failed home (t.sched.lid % 2 ^ 32) t.sched.inst (s.mid t.sn) cause t.trap.tval [])
    | none => s.mapLaunch t.sched.lid fun l => { l with
        faults := l.faults ++ [{ inst := failHouse l t.sched.inst, event := 1, child := some t.sched.inst, mid := s.mid t.sn, cause,
                                 val := t.trap.tval, ranges := [], gone := [] }] }

/-- End a strand with a strand failure (R357, R418): it is ended, and the fault waits for the binder. -/
def State.fail (s : State) (t : Strand) (cause : Nat) (val : Word) : State :=
  (((((s.unseat t).leaveAll t.sn 2).setStrand (t.close .ended)).raiseFailure t cause val)).pruneStreams

/-! ### Taking a trap, and returning from one (R417, R418, R421) -/

/-- What raised a trap: a queue entry, or the scalar stream at a PC (a decode check of a vector instruction among it), with
the resume point TRES takes when the trap is that of an `rpl.run` (R373). -/
inductive TrapSrc
  | entry (e : VEntry)
  | scalar (pc : Word) (tres : Option Word)
  deriving DecidableEq, Repr

/-- The accesses of what a trap puts off are kept for its return, and taken up again then. -/
def putOffOwner (n : Nat) : Nat := if n < 2 then n + 2 else n
def takeUpOwner (scalar entry : Bool) (n : Nat) : Nat :=
  if n = 2 then (if scalar then 0 else 4) else if n = 3 then (if entry then 1 else 4) else n
def Remote.putOff (r : Remote) : Remote := { r with owner := putOffOwner r.owner }
def Remote.takeUp (scalar entry : Bool) (r : Remote) : Remote := { r with owner := takeUpOwner scalar entry r.owner }

/-- An entry that had started behind the head becomes the head: VEI, FXR and the flags of its records are taken up from it
(R369). -/
def State.promote (s : State) : State :=
  match s.st.vq with
  | e :: l =>
    if e.begun then
      let flags := (upTo 6).foldl (fun f i => if e.fxr.getLsbD (8 * i + 7) then f ||| BitVec.ofNat 6 (2 ^ i) else f) s.st.ctl.fflags
      { s with st := { s.st with
          ctl := { s.st.ctl with vei := BitVec.ofNat 7 e.start, fxr := e.fxr, fflags := flags }
          vq := { e with begun := false, again := true } :: l } }
    else s
  | [] => s

/-- Trap entry (R417); MEMERR names an uncorrectable line, which sets RRS.UE (Table 28-4) (assumption log 42, 66). -/
def State.takeTrap (s : State) (t : Trap) (src : TrapSrc) : State :=
  let s := if t.code = cMEMERR then s.setRrs 4 else s
  let r := s.st.trap
  if r.tvec.toNat = 0 ∨ r.inHandler = true then s.fail s.st t.code t.val
  else
    let entries := match src with | .entry e => e :: s.st.vq | .scalar .. => s.st.vq
    { s with st := { s.st with
        trap := { r with
          tcause := BitVec.ofNat 8 (t.code + (if t.eng then 128 else 0)), tval := t.val, telem := BitVec.ofNat 7 t.elem,
          tqpos := match src with | .entry e => BitVec.ofNat 6 e.pos | .scalar .. => 32,
          tpc := match src with | .entry e => e.pc | .scalar pc _ => pc,
          tres := match src with | .entry _ => s.st.pc | .scalar _ none => r.tres | .scalar _ (some x) => x,
          pm := s.st.mode, inHandler := true },
        rearm := (match src with
          | .entry _ => none
          | .scalar pc _ => if t.nextPc || t.code == cPREEMPT then none else some pc) :: s.st.rearm,
        pend := s.st.pend ++ entries, vq := [], issue := none, scalarNext := false, restartPc := none, hold := [],
        wait := .none, preemptNote := none, remote := s.st.remote.map Remote.putOff,
        begun := s.st.begun.map fun b => { b with owner := putOffOwner b.owner }, scalarLines := [],
        resumePc := s.st.pc, collOff := s.st.collOff.orElse fun _ => s.st.coll, coll := none,
        askedOff := s.st.askedOff.orElse fun _ => s.st.asked, asked := none, tailRead := none,
        refusedOff := if s.st.askedOff.isSome then s.st.refusedOff else s.st.joinRefused, joinRefused := false, entered := true,
        qwait := .none, mode := .s, pc := r.tvec, rpl := { s.st.rpl with going := false } } }

/-- The return from a handler (R421), after its checks: the head of the queue, or the scalar instruction that trapped, makes its
restart attempt (R371). -/
def State.doTret (s : State) : State :=
  let r := s.st.trap
  let skip := r.skip && !s.st.pend.isEmpty
  let pend := (if skip then s.st.pend.drop 1 else s.st.pend).map fun e => { e with pos := 0 }
  let scal := r.tqpos.getLsbD 5
  let vq := match pend with
    | [] => []
    | e :: l => (if skip || scal then e else { e with restart := some r.telem.toNat }) :: l
  let pc := (if scal then r.tpc else r.tres) &&& ~~~ (3#64)
  let s := { s with st := { s.st with
      ctl := if skip then { s.st.ctl with vei := 0 } else s.st.ctl,
      vq, pend := [], mode := r.pm, coll := if skip then none else s.st.collOff, collOff := none,
      asked := if skip then none else s.st.askedOff, askedOff := none,
      joinRefused := !skip && s.st.refusedOff, refusedOff := false, trap := { r with inHandler := false, skip := false },
      remote := s.st.remote.map (Remote.takeUp (pc == s.st.resumePc) (!skip)),
      begun := (s.st.begun.map fun b => { b with owner := takeUpOwner (pc == s.st.resumePc) (!skip) b.owner }).filter
        fun b => b.owner != 4,
      pc, restartPc := if scal && s.st.rearm.head? == some (some pc) then some pc else none, rearm := s.st.rearm.drop 1, hold := [],
      scalarNext := false, wait := .none } }
  if skip then s.promote else s

/-! ### How a scalar instruction completes -/

/-- The word of the instruction being executed. -/
def State.irWord (s : State) : Word := BitVec.ofNat 64 s.ir.toNat

/-- The scalar stream waits: the instruction has not retired, the requests that have left are counted (R253), and the queue is
served next. -/
def State.waiting (s : State) (w : Wait) : State :=
  let s := if s.st.lines = [] then s else s.countLines
  { s with st := { s.st with wait := w, scalarLines := s.st.counted, counted := [], scalarNext := false } }
/-- A scalar instruction's next try: what it has counted is not counted again. -/
def State.resuming (s : State) : State :=
  if s.st.scalarLines = [] then s else { s with st := { s.st with counted := s.st.scalarLines } }

/-- The instruction that owned accesses has ended, or its element has: what answered them has been used, and what is still to
be answered is nobody's. -/
def State.dropAnswers (s : State) (owner : Nat) : State :=
  if s.st.remote = [] ∧ s.st.begun = [] then s
  else { s with st := { s.st with
    begun := s.st.begun.filter fun b => b.owner != owner
    remote := s.st.remote.filterMap fun r =>
      if r.owner = owner ∧ (r.op = 0 ∨ r.op = 2 ∨ r.op = 4) then
        (if r.answer.isSome then none else some { r with owner := 4 })
      else if r.owner = 4 ∧ r.answer.isSome then none else some r } }

/-- The instruction has retired: requests counted, waits over. -/
def State.retire (s : State) (pc : Word) : State :=
  let s := (if s.st.lines = [] then s else s.countLines).dropAnswers 0
  let hold := if s.st.restartPc.isSome then [] else s.st.hold
  { s with st := { s.st with
    pc, wait := .none, restartPc := none, hold, scalarNext := false, counted := [], scalarLines := [], entered := false } }

/-- Run a scalar instruction that names its next address: it retires there, traps precisely, or waits. -/
def runJump (s : State) (m : M Word) : Out :=
  match m s.resuming with
  | .ok pc s' => .next (s'.retire pc)
  | .error (.trap t) s' =>
    .next ((s'.flushLines.dropAnswers 0).takeTrap t
      (.scalar (if t.nextPc then s'.st.pc + 4 else s'.st.pc) none))
  | .error (.wait w) s' => .next (s'.waiting w)

/-- Run a scalar instruction that goes on with the next one. -/
def runScalar (s : State) (m : M Unit) : Out := runJump s (do m; return s.nextPc)

/-- ILL for an operand that is invalid at run time, or PRIV: TVAL holds the word (assumption log 51). -/
def raiseIr {α : Type} (code : Nat) : M α := do raise code (← get).irWord 0
/-- An instruction that needs mode S (R34). -/
def needS : M Unit := do if (← get).st.mode == .s then pure () else raiseIr cPRIV
/-- A level at or above the depth of the roster raises LEVEL (R356). -/
def needLevel (l elem : Nat) : M Unit := do require (decide (l < (← get).depth)) cLEVEL (BitVec.ofNat 64 l) elem

end Sys2Proof.Machine
end

