-- ==== Sys2Proof/Machine/Access.lean ====
section
/-!
DEFINITION. Reading and writing through a checked access (R88–R92, R106, R114–R116, R169–R171), through a fabric window
(R269, R407, R408, R446), and the elements of streams (R127, R128, R330).
-/

namespace Sys2Proof.Machine

open Sys2Proof

/-! ### Memory with lines that cannot be corrected (R450) -/

/-- Offset in an access of n bytes of its first byte on an uncorrectable line. -/
def State.badOff (s : State) (key n : Nat) : Nat :=
  match (upTo ((key + n - 1) / 64 - key / 64 + 1)).find? fun i => s.badLines.contains (key / 64 + i) with
  | some i => (key / 64 + i) * 64 - key
  | none => 0

/-- The bytes that a step has stored on an uncorrectable line cover it in full: the line takes them and is good again. -/
def State.repair (s : State) (line : Nat) : State :=
  let bytes := (upTo 64).map fun i => SMap.find s.badBytes (line * 64 + i)
  if bytes.all Option.isSome then
    { s with
      mem := bytes.zipIdx.foldl (fun m (b, i) => Memory.writeN m (line * 64 + i) 1 (b.getD 0 % 256)) s.mem
      badLines := s.badLines.filter (· != line)
      badBytes := (upTo 64).foldl (fun l i => SMap.del l (line * 64 + i)) s.badBytes }
  else s

/-- Store bytes; those on an uncorrectable line wait until the line is covered in full or the step ends. -/
def State.storeBytes (s : State) (key n x : Nat) : State :=
  if s.lineOk key n then { s with mem := Memory.writeN s.mem key n x }
  else (upTo ((key + n - 1) / 64 - key / 64 + 1)).foldl (fun s i =>
    let line := key / 64 + i
    let lo := max key (line * 64)
    let hi := min (key + n) (line * 64 + 64)
    let y := x / 2 ^ (8 * (lo - key))
    if s.badLines.contains line then
      { s with badBytes := (upTo (hi - lo)).foldl (fun l j =>
          SMap.put l (lo + j) (y / 2 ^ (8 * j) % 256 + 256 * s.st.partn)) s.badBytes }.repair line
    else { s with mem := Memory.writeN s.mem lo (hi - lo) y }) s

/-- The step has ended: what it would have stored on lines that it did not cover in full is not performed; the control die sends an
event for each such line with the first of those addresses (R450). -/
def State.dropBad (s : State) : State :=
  if s.badBytes = [] then s
  else
    let l := s.badBytes
    let first := fun (x : Nat × Nat) => !(l.any fun y => y.1 / 64 == x.1 / 64 && decide (y.1 < x.1))
    (l.filter first).foldl (fun s x => (s.setRrs 4).manage (some (x.2 / 256)) x.1) { s with badBytes := [] }

/-- A computation on behalf of a partition: what it reports arises from that one (R463). -/
def asPartn {α : Type} (p : Nat) (m : M α) : M α := do
  let own := (← get).st.partn
  modify fun s => { s with st := { s.st with partn := p } }
  let r ← m
  modify fun s => { s with st := { s.st with partn := own } }
  return r

/-- Full-grade word of a format (Table 8-1). -/
def fullGrade : FpF → Grade | .f64 => 0x0035 | .f32 => 0x1818 | .bf16 => 0x8888 | .f16 => 0xBBBB

/-- Size of a datum of a type and whether it is an FP type (Table 5-1). -/
def elSize : ElTy → Nat | .int wd => intBytes wd | .fp _ => 8

/-! ### Fabric windows -/

/-- The remap generation that a request or a train to a handle carries; while the handle is being moved, a train waits for those
sent under the old generation (R446). -/
def sendGen (handle : Nat) (train : Bool) : M Nat := do
  let s ← get
  match SMap.find s.remap handle with
  | none => pure 0
  | some e =>
    if train && e.pend && s.strands.any (fun t => t.remote.any fun r =>
        r.handle == handle && r.rgen != e.rgen && r.answer.isNone && r.op % 8 != 0 && r.op % 8 != 2) then waitFor .fabric
    else pure e.rgen

/-- A train or request tagged with that remap generation is accepted here (R446): the current one; while a move of this package's
handle is between its phases, the new one at the package it moves to and the one before at the package it moves from. -/
def State.genAccepted (s : State) (rgen : Nat) : Bool :=
  match SMap.find s.remap s.handle.toNat with
  | none => rgen == 0
  | some e =>
    if e.pend then (rgen == e.rgen && e.pid == Config.ownPid) || (rgen + 1 == e.rgen && e.opid == Config.ownPid)
    else rgen == e.rgen

/-- A train. -/
def Remote.isTrain (r : Remote) : Bool := r.op == 1 || r.op == 3
/-- A train of the strand to a destination, or to any, has not been acknowledged. -/
def State.trainsOut (s : State) (handle : Option Nat) : Bool :=
  s.st.remote.any fun r => r.isTrain && r.answer.isNone && (match handle with | some h => r.handle == h | none => true)

/-- A load or an atomic at its remote home: the request is sent once, after the acknowledgement of the strand's earlier trains to
that package (R255), its lines are noted as it leaves (R253), and the instruction waits for its answer (R269, R277, R408) (assumption log 121). -/
def remoteOp (slotOp op handle addr len x y : Nat) (grade : Option Grade) (va elem : Nat) (note : State → State) :
    M (Nat × Option Grade) := do
  let s ← get
  match s.st.remote.find? fun r =>
      r.op == slotOp && r.va == va && r.addr == addr && r.len == len && (r.owner == s.accessOwner || decide (8 ≤ slotOp)) with
  | some { answer := some (some a), .. } => pure a
  | some { answer := some none, .. } => raise cPERM (BitVec.ofNat 64 va) elem
  | some { answer := none, .. } => waitFor .fabric
  | none => do
    if slotOp < 8 && s.trainsOut (some handle) then waitFor .fabric
    let g ← sendGen handle false
    let s := note (← get)
    let tag := s.nextTag
    set { s with
      nextTag := tag + 1
      fabricOut := s.fabricOut ++ [FabMsg.request tag handle (regionDrid (s.regionRec s.st.region)) g op addr len x y grade]
      st := { s.st with remote := s.st.remote ++
        [({ tag, op := slotOp, handle, rgen := g, va, addr, len, owner := s.accessOwner, answer := none } : Remote)] } }
    waitFor .fabric

/-- Send one train, and remember it until it is acknowledged. -/
def sendTrain (slotOp : Nat) (handle : Nat) (elems : List TrainOut) : M Unit := do
  let va := (elems.head?.map (·.va)).getD 0
  let addr := (elems.head?.map (·.addr)).getD 0
  let g ← sendGen handle true
  let s ← get
  let tag := s.nextTag
  set { s with
    nextTag := tag + 1
    fabricOut := s.fabricOut ++
      [FabMsg.train tag handle (if slotOp = 3 then 1 else 0) (regionDrid (s.regionRec s.st.region)) g elems]
    st := { s.st with remote := s.st.remote ++
      [({ tag, op := slotOp, handle, rgen := g, va, addr, len := elems.length, owner := s.accessOwner, answer := none } : Remote)] } }

/-- The elements of a train that was sent. -/
def State.trainElems (s : State) (tag : Nat) : List TrainOut :=
  (s.fabricOut.findSome? fun m => match m with
    | .train t _ _ _ _ es => if t = tag then some es else none
    | _ => none).getD []

/-- Destination and kind of an element of a train. -/
def TrainOut.key (x : TrainOut) : Nat × Nat := (x.handle, x.kind)

/-- The train of a destination and kind leaves with what has been gathered for it, in element order (R269); one that has to wait for
its handle (R446) stays gathered and keeps no other back. -/
def State.sendKey (s : State) (k : Nat × Nat) : State :=
  match sendTrain (if k.2 = 1 then 3 else 1) k.1 (s.st.trains.filter fun x => x.key == k) s with
  | .ok _ t => { t with st := { t.st with trains := t.st.trains.filter fun x => x.key != k } }
  | .error _ _ => s

/-- Send what an instruction has gathered, one train to each destination and kind (R269). -/
def sendTrains : M Unit := do
  modify fun s => ((s.st.trains.map TrainOut.key).eraseDups).foldl State.sendKey s
  if (← get).st.trains = [] then pure () else waitFor .fabric

/-- Every train of the strand has been acknowledged (R269, R273, R281). -/
def trainsDone (s : State) : Bool := !s.trainsOut none
/-- Wait for that, and forget the acknowledged ones. -/
def awaitTrains : M Unit := do
  let s ← get
  if s.st.remote = [] then pure ()
  else if trainsDone s then
    set { s with st := { s.st with remote := s.st.remote.filter fun r => !r.isTrain } }
  else waitFor .fabric

/-- An access that comes after the earlier elements of its instruction on SO and DV pages, and after the trains that a trap has left
behind (R256, R258, R267): those gathered for another train leave, and every one sent is to be acknowledged first. -/
def orderTrains (keep : Option (Nat × Nat)) : M Unit := do
  let s ← get
  let ks := (((s.st.trains.filter (·.strong)).map TrainOut.key).eraseDups).filter fun k => keep != some k
  if ks ≠ [] then
    modify fun s => ks.foldl State.sendKey s
    waitFor .fabric
  else if s.trainsOut none then waitFor .fabric

/-- The order of an access to a page of a kind among the strand's SO and DV accesses. -/
def kindOrder (kind : Nat) (keep : Option (Nat × Nat)) : M Unit := if kind < 2 then pure () else orderTrains keep

/-! ### Reading -/

/-- What the home must know of a load besides its bytes (R402, R408): 0 an integer datum, 1 an FP datum, 2 a part of a
misaligned FP datum, which a GT page refuses. -/
def loadNote (fp : Bool) (aligned : Bool) : Nat := if !fp then 0 else if aligned then 1 else 2

/-- Read one placed part: its bytes, and for an FP datum the sidecar word of its unit. -/
def readPart (fp : Bool) (aligned : Bool) (va elem : Nat) (p : Part) : M (Nat × Option Grade) := do
  kindOrder p.loc.kind none
  let s ← get
  match p.loc with
  | .dev fn off => pure (s.devRead (fnIx fn) off p.len, none)
  | .remote h a _ => remoteOp 0 0 h a p.len (loadNote fp aligned) 0 none (va + p.at_) elem (·.touch p)
  | .mem key _ sc =>
    if !s.lineOk key p.len then raise cMEMERR (BitVec.ofNat 64 (va + p.at_ + s.badOff key p.len)) elem
    else
      match (if fp && aligned then sc else none) with
      | none => pure (Memory.readN s.mem key p.len, none)
      | some k => do
        reach s.myDie [homeDie k] (BitVec.ofNat 64 (va + p.at_)) elem
        if !s.lineOk k 2 then raise cMEMERR (BitVec.ofNat 64 (va + p.at_)) elem
        else pure (Memory.readN s.mem key p.len, some (BitVec.ofNat 16 (Memory.readN s.mem k 2)))

/-- Read the parts of an access that no earlier try has read, the lower first. -/
def readRest (fp aligned : Bool) (va elem : Nat) : Begun → List Part → M Begun
  | b, [] => pure b
  | b, p :: ps => do
    let r ← keeping b (readPart fp aligned va elem p)
    readRest fp aligned va elem { b with got := b.got ++ [r] } ps

/-- An access that the rest of its instruction must not repeat: one on SO or DV pages (R257), or in more than one part. -/
def Begun.once (b : Begun) : Bool := b.parts.length != 1 || b.parts.any fun p => decide (2 ≤ p.loc.kind)

/-- The value of the parts that an access has read. -/
def Begun.value (b : Begun) : Nat × Option Grade :=
  match b.parts, b.got with
  | [_], [r] => r
  | ps, rs => ((ps.zip rs).foldl (fun x (p, r) => x + r.1 * 2 ^ (8 * p.at_)) 0, none)

/-- Load n bytes with the checks of a rule; the grade word is that of a datum read in one part. Its lines are noted when all of
it has been read (R252). -/
def loadM (fp : Bool) (rule : AlignRule) (va n elem : Nat) : M (Nat × Option Grade) := do
  let b ← beginM .load rule va n elem
  let aligned := va % alignUnit n == 0 && b.parts.length == 1
  let b ← readRest fp aligned va elem b (b.parts.drop b.got.length)
  modify fun s => b.parts.foldl State.touch s
  if b.once then modify fun s => s.keepBegun b
  pure b.value

/-! ### Writing -/

/-- What a store writes to sidecars (R89, R106, R115): 0xFFFF in each touched unit, a grade word, or byte j with the grade
of one FP32 value. -/
inductive Side
  | int
  | word (g : Grade)
  | byte (g : Nat)
  deriving DecidableEq, Repr

/-- Write the sidecar of a store of n bytes at a key, when its page has one. -/
def State.storeSide (s : State) (key n : Nat) (sc : Option Nat) (side : Side) : State :=
  match sc with
  | none => s
  | some k =>
    match side with
    | .int => s.storeBytes k (2 * ((key % 8 + n + 7) / 8)) (2 ^ (16 * ((key % 8 + n + 7) / 8)) - 1)
    | .word g => s.storeBytes k 2 g.toNat
    | .byte g => s.storeBytes (k + key / 4 % 2) 1 g

/-- The grade word a store carries through a fabric window. -/
def Side.grade : Side → Option Grade
  | .int => none
  | .word g => some g
  | .byte g => some (BitVec.ofNat 16 g)

/-- Write one placed part of a local page (assumption log 88). -/
def writePart (x : Nat) (side : Side) (p : Part) : M Unit := do
  let s ← get
  let y := x / 2 ^ (8 * p.at_) % 2 ^ (8 * p.len)
  match p.loc with
  | .dev fn off => set (s.devWrite (fnIx fn) off p.len y)
  | .remote .. => pure ()
  | .mem key _ sc => set (((s.touch p).storeBytes key p.len y).storeSide key p.len sc side)

/-- Gather an element for a train. -/
def gather (t : TrainOut) : M Unit := modify fun s => { s with st := { s.st with trains := s.st.trains ++ [t] } }

/-- The place of a part of a store among what the strand has sent. -/
def State.sentPart (s : State) (va : Nat) (p : Part) : Option Remote :=
  match p.loc with
  | .remote _ addr _ =>
    s.st.remote.find? fun r => r.op == 4 && r.va == va + p.at_ && r.addr == addr && r.owner == s.accessOwner
  | _ => none

/-- Write one part: at its page, or through a fabric window, where a vector store gathers it for a train, and a scalar store sends
it and waits for its acknowledgement (R269). It comes after the strand's earlier trains to that package (R255). -/
def writeRemote (train : Bool) (aligned : Bool) (va x elem : Nat) (side : Side) (p : Part) : M Unit := do
  match p.loc with
  | .remote handle addr kind =>
    let t : TrainOut :=
      { handle, kind := 0, addr, len := p.len, val := x / 2 ^ (8 * p.at_) % 2 ^ (8 * p.len), grade := side.grade,
        ty := if side.grade.isSome && !aligned then 1 else 0, fcr := 0, va := va + p.at_, elem, ctl := 0,
        strong := decide (2 ≤ kind) }
    match (← get).sentPart va p with
    | some r =>
      match r.answer with
      | some (some _) => pure ()
      | some none => raise cPERM (BitVec.ofNat 64 (va + p.at_)) elem
      | none => waitFor .fabric
    | none =>
      kindOrder kind (if train then some (handle, 0) else none)
      if (← get).trainsOut (some handle) then waitFor .fabric
      if train then
        modify fun s => s.touch p
        gather t
      else
        sendTrain 4 handle [t]
        modify fun s => s.touch p
        waitFor .fabric
  | _ =>
    kindOrder p.loc.kind none
    writePart x side p

/-- Write the parts of an access that no earlier try has written, the lower first (R258). -/
def writeRest (train aligned : Bool) (va x elem : Nat) (side : Side) : Begun → List Part → M Begun
  | b, [] => pure b
  | b, p :: ps => do
    keeping b (writeRemote train aligned va x elem side p)
    writeRest train aligned va x elem side { b with got := b.got ++ [(0, none)] } ps

/-- Store n bytes with the checks of a rule: the lower part first, and each part once (assumption log 43). -/
def storeM (train : Bool) (rule : AlignRule) (side : Side) (va n x elem : Nat) : M Unit := do
  let b ← beginM .store rule va n elem
  let b ← writeRest train (va % alignUnit n == 0) va x elem side b (b.parts.drop b.got.length)
  if b.once then modify fun s => s.keepBegun b

/-- An access of the instruction that has been performed in full: a later try does not perform it again. -/
def performed (store : Bool) (va n : Nat) : M Unit := modify fun s =>
  { s with st := { s.st with begun := s.st.begun.map fun b =>
    if b.store == store && b.va == va && b.len == n && b.owner == s.accessOwner then
      { b with got := List.replicate b.parts.length (0, none) } else b } }

/-! ### Elements (R114, R115) -/

/-- Load the datum of one element. -/
def loadEl (rule : Bool → AlignRule) (t : ElTy) (va elem : Nat) : M Elem := do
  match t with
  | .int wd =>
    let (x, _) ← loadM false (rule false) va (intBytes wd) elem
    pure { val := sextWord x (intBits wd), grade := 0xFFFF }
  | .fp f =>
    let (x, g) ← loadM true (rule true) va 8 elem
    pure { val := BitVec.ofNat 64 x, grade := g.getD (fullGrade f) }

/-- Store the datum of one element. -/
def storeEl (rule : Bool → AlignRule) (t : ElTy) (va : Nat) (x : Elem) (elem : Nat) : M Unit :=
  match t with
  | .int wd => storeM true (rule false) .int va (intBytes wd) (x.val.toNat % 2 ^ intBits wd) elem
  | .fp _ => storeM true (rule true) (.word x.grade) va 8 x.val.toNat elem

/-! ### Atomic read and write (R266, R277) -/

/-- The place of an atomic access; it never straddles. -/
def placeAtomic (va n elem : Nat) : M (Begun × Part) := do
  let b ← beginM .rmw (.natural false) va n elem
  pure (b, (b.parts.head?).getD { loc := .dev 0 0x38, at_ := 0, len := n })

/-! ### Stream elements (R127, R128, R315, R330) -/

/-- REMAIN of Table 5-4; a position that has passed LEN leaves 0 (assumption log 26). -/
def Stream.remain (k : Stream) : Nat := k.len - k.pos
/-- The slot a register is bound to. -/
def State.boundSlot (s : State) (r : VReg) : Option (Fin 8) :=
  (List.finRange 8).find? fun i => match s.st.k[i] with | some k => k.reg == r | none => false

def State.meshVersion (s : State) (partn handle num : Nat) : Option MVersion :=
  (s.meshes.find? fun m => m.partn == partn && m.handle == handle).bind fun m => m.versions.find? fun v => v.num == num

/-- The house instance that shares a broadcast stream (R128). -/
def State.bcastInst (s : State) (k : Stream) : Nat := s.houseInst s.st k.level

/-- The section's buffer of a broadcast stream. -/
def State.bcastOf (s : State) (k : Stream) : Option Bcast :=
  s.sects[coreSect s.st.core].bcast.find? fun b => b.lid == s.st.sched.lid && b.inst == s.bcastInst k && b.desc == k.desc

/-- The buffer holds the group of n elements at the slot's position. -/
def State.bcastHeld (s : State) (k : Stream) (n : Nat) : Bool :=
  match s.bcastOf k with
  | some b => b.held.contains (k.pos, n)
  | none => false

/-- The lines that an access has added are those of the collective engine, which makes it: they count for the engine, and those of
scratch nowhere (R252, R330). -/
def State.engineLines (before : List Nat) (s : State) : State :=
  let new := s.st.lines.filter fun l => !before.contains l && l / 2 ^ 70 != 3
  { s with st := { s.st with lines := new.foldl (fun a l => insertAsc a (4 * 2 ^ 70 + l % 2 ^ 70)) before } }

/-- What a computation leaves, changed whatever its outcome. -/
def leaving {α : Type} (f : State → State) (m : M α) : M α := fun s =>
  match m s with
  | .ok x t => .ok x (f t)
  | .error e t => .error e (f t)

/-- Element n of a bound stream, fetched for element e of the consuming instruction, whose VL is vl. A broadcast group that the
section's buffer holds costs no access of its own (R128, R252). -/
def streamElem (i : Fin 8) (k : Stream) (n vl e : Nat) : M Elem := do
  if k.len ≤ n then raise cSTREAM (BitVec.ofNat 64 i.val) e
  else if k.kind = 1 then
    let s ← get
    let (h, v) := k.mesh.getD (0, 0)
    let l := ((s.meshVersion s.st.partn h v).map (·.entries)).getD []
    let first := (l.takeWhile fun w => decide (fld w 63 40 < fld k.stride 23 0)).length
    pure { val := nth l (first + n) 0, grade := 0xFFFF }
  else
    let va := (k.base + k.stride * BitVec.ofNat 64 n).toNat
    let before := (← get).st.lines
    let x ← (if k.kind = 2 then leaving (State.engineLines before) else id) (loadEl .plain k.ty va e)
    if k.kind = 3 then
      modify fun s => if s.bcastHeld k vl then { s with st := { s.st with lines := before } } else s
    pure x

/-- VL of the instruction being run. -/
def State.runVl (s : State) : Nat := (s.st.issue.map (·.vl)).getD s.st.ctl.vl

/-- Element e of a vector source: the register's, or the stream's at position + e (R127). -/
def srcV (r : VReg) (e : Nat) : M Elem := do
  let s ← get
  match s.boundSlot r with
  | none => pure (s.v r e)
  | some i => match s.st.k[i] with
    | some k => streamElem i k (k.pos + e) s.runVl e
    | none => pure (s.v r e)

/-- A broadcast group has been asked for by a participant (R128): the section reads each group once, into a buffer of eight, as
one request of its die (R252; assumption log 27); a participant that asks for an evicted group makes a broadcast miss. -/
def State.bcastAsk (s : State) (k : Stream) (n : Nat) : State :=
  if k.kind ≠ 3 ∨ s.bcastHeld k n then s
  else
    let g := (k.pos, n)
    match s.bcastOf k with
    | none =>
      (s.mapSect (coreSect s.st.core) fun x => { x with
        bcast := x.bcast ++ [{ lid := s.st.sched.lid, inst := s.bcastInst k, desc := k.desc, held := [g], gone := [] }] }).mapDie
        s.myDie fun d => { d with reql := d.reql + 1 }
    | some b =>
      if b.gone.contains g then s.mapSect (coreSect s.st.core) fun x => { x with bmiss := x.bmiss + 1 }
      else
        (s.mapSect (coreSect s.st.core) fun x => { x with bcast := x.bcast.map fun c =>
          if c.lid = b.lid ∧ c.inst = b.inst ∧ c.desc = b.desc then
            { c with held := (g :: c.held).take 8, gone := c.held.drop 7 ++ c.gone } else c }).mapDie
          s.myDie fun d => { d with reql := d.reql + 1 }

/-- The slots bound to the vector sources of an instruction, each once. -/
def State.srcSlots (s : State) (rs : List VReg) : List (Fin 8) := (rs.filterMap s.boundSlot).eraseDups

/-- The position of each consumed slot advances (R127). -/
def State.advance (s : State) (rs : List VReg) (n : Nat) : State :=
  (s.srcSlots rs).foldl (fun s i => match s.st.k[i] with
    | some k =>
      let s := s.bcastAsk k n
      { s with st := { s.st with k := s.st.k.set i (some { k with pos := k.pos + n }) } }
    | none => s) s

end Sys2Proof.Machine
end

