-- ==== Sys2Proof/Machine/Flags.lean ====
section
/-!
DEFINITION. Flags and exception records: FFLAGS, FXR, the traps FPX and GRADE, the stochastic rounding register
(R37, R98, R148, R153, R154, R167, R371).
-/

namespace Sys2Proof.Machine

open Sys2Proof

/-- FXR with element e merged into the record of each raised flag (R37). -/
def mergeFxr (x : BitVec 48) (fl : BitVec 6) (e : Nat) : BitVec 48 :=
  (upTo 6).foldl (fun x f =>
    if fl.getLsbD f then
      let r := x.toNat / 2 ^ (8 * f) % 256
      if 128 ≤ r ∧ r % 128 ≤ e then x
      else BitVec.ofNat 48 (x.toNat - r * 2 ^ (8 * f) + (128 + e % 128) * 2 ^ (8 * f))
    else x) x

/-- A vector element's flags: set in FFLAGS and merged into FXR (R153). -/
def State.flag (s : State) (fl : BitVec 6) (e : Nat) : State :=
  if fl = 0 then s
  else s.mapCtl fun c => { c with fflags := c.fflags ||| fl, fxr := mergeFxr c.fxr fl e }

/-- Traps FPX and GRADE of one element of a vector instruction, after its flags are merged; none on a restart attempt at or
below the restart element (R154, R167, R371). -/
def fpTraps (n : VEntry) (e : Nat) (fl : BitVec 6) (p : Nat) (grades : List Nat) (word : Grade) : M Unit := do
  modify fun s => s.flag fl e
  if (match n.restart with | some r => decide (e ≤ r) | none => false) then pure ()
  else if fl &&& n.fcr.extractLsb' 4 6 ≠ 0 then raise cFPX (BitVec.ofNat 64 fl.toNat) e
  else if n.gth ≠ 0 ∧ grades.any (fun g => decide (g < min n.gth p)) then raise cGRADE (BitVec.ofNat 64 word.toNat) e
  else pure ()

/-- Rounding mode, trap enables and threshold of an FP sum, as what goes through a window carries them (assumption log 15, 31):
the home performs it only where no trap is taken. -/
def amoCtl (fcr : BitVec 10) (gth : Nat) (quiet : Bool) : Nat :=
  fcr.toNat % 4 + (if quiet then 0 else fcr.toNat / 16 * 16 + gth * 1024)
/-- A trap may be taken under those controls. -/
def ctlArmed (ctl : Nat) : Bool := ctl / 16 != 0
/-- A sum of a precision with those flags and grades traps under them. -/
def ctlTraps (ctl p : Nat) (fl : BitVec 6) (grades : List Nat) : Bool :=
  fl.toNat &&& (ctl / 16 % 64) != 0 || (ctl / 1024 != 0 && grades.any fun g => decide (g < min (ctl / 1024) p))

/-! ### Scalar FP results (R97, R98) -/

/-- On a restart attempt no FPX or GRADE trap is taken (R371). -/
def State.isRestart (s : State) : Bool := s.st.restartPc == some s.st.pc

/-- Flags of a scalar FP instruction: set in FFLAGS; an enabled one raises FPX (R98 items 1 and 2). -/
def scalarFlags (fl : BitVec 6) : M Unit := do
  modify fun s => s.mapCtl fun c => { c with fflags := c.fflags ||| fl }
  let s ← get
  if !s.isRestart && fl &&& s.st.ctl.fcr.extractLsb' 4 6 != 0 then raise cFPX (BitVec.ofNat 64 fl.toNat) 0

/-- The threshold trap of a scalar FP result (R98 item 3). -/
def scalarGrade (p g : Nat) : M Unit := do
  let s ← get
  let th := s.st.ctl.gth.toNat
  if !s.isRestart && th != 0 && decide (g < min th p) then raise cGRADE (BitVec.ofNat 64 g) 0

/-! ### The stochastic rounding register (R148) -/

/-- One step of SRS. -/
def srsStep (x : BitVec 32) : BitVec 32 :=
  let b := x.getLsbD 31 ^^ x.getLsbD 21 ^^ x.getLsbD 1 ^^ x.getLsbD 0
  (x <<< 1) ||| (if b then 1 else 0)

/-- Step SRS and take the new state. -/
def drawSrs : M Nat := do
  let s ← get
  let r := srsStep s.st.ctl.srs
  set (s.mapCtl fun c => { c with srs := r })
  pure r.toNat

end Sys2Proof.Machine
end

