-- ==== Sys2Proof/Machine/Operands.lean ====
section
/-!
DEFINITION. Operand forms: the values and grades in an element or a scalar register (R31, R134–R136, R158–R160), scalar
operands of vector instructions (R172, R178), and addresses.
-/

namespace Sys2Proof.Machine

open Sys2Proof

/-! ### Grade words (R158, R159) -/

/-- Width of a grade field of a format (Table 8-1). -/
def gradeBits : Fmt → Nat | .f64 => 6 | .bf16 => 4 | .f16 => 4 | _ => 8
/-- Significant bits of a grade field. -/
def gradeMask : Fmt → Nat | .f64 => 64 | .f32 => 32 | .bf16 => 16 | .f16 => 16 | _ => 1

/-- The grade of value j as an instruction of a format reads it (R159). -/
def gradeAt (f : Fmt) (w : Grade) (j : Nat) : Nat :=
  if w = 0xFFFF then fmtP f else min (fmtP f) (w.toNat / 2 ^ (gradeBits f * j) % gradeMask f)

/-- The grade word of values of a format (R158). -/
def gradeWord (f : Fmt) (gs : List Nat) : Grade := BitVec.ofNat 16 (packVals (gradeBits f) gs)

/-- The element holding values of a format with grades. -/
def packElem (f : Fmt) (vs gs : List Nat) : Elem :=
  { val := BitVec.ofNat 64 (packVals (fmtBits f) vs), grade := gradeWord f gs }

/-- Value j of an element. -/
def Elem.valAt (x : Elem) (f : Fmt) (j : Nat) : Nat := valJ x.val.toNat (fmtBits f) j

/-! ### Scalar FP registers (R31, R84, R136) -/

/-- val(f) and gr(f) in a width. -/
def scVal (x : Elem) (wd : ScF) : Nat := x.valAt (scOf wd) 0
def scGrade (x : Elem) (wd : ScF) : Nat := gradeAt (scOf wd) x.grade 0
/-- setf: the value and grade in the register layout, every other bit zero (assumption log 98). -/
def scElem (wd : ScF) (pat g : Nat) : Elem :=
  { val := BitVec.ofNat 64 (pat % 2 ^ fmtBits (scOf wd)), grade := BitVec.ofNat 16 (min g (fmtP (scOf wd))) }

/-- FCR.RM as a rounding mode. -/
def fcrRm (fcr : BitVec 10) : Rm := rmOfCode (fcr.toNat % 4)
def fcrFtz (fcr : BitVec 10) : Bool := fcr.getLsbD 3
def fcrSr (fcr : BitVec 10) : Bool := fcr.getLsbD 2
/-- FTZ as it applies to the vector results of a format (R150). -/
def ftzFor (f : Fmt) (fcr : BitVec 10) : Bool := fcrFtz fcr && (f == .f32 || f == .bf16 || f == .f16)

/-! ### Addresses -/

/-- addr of R84: a base register and a signed immediate. -/
def State.addr (s : State) (a : GReg) (i : BitVec 14) : Nat := (s.g a + i.signExtend 64).toNat

end Sys2Proof.Machine
end

