-- ==== Sys2Proof/Machine/Queue.lean ====
section
/-!
DEFINITION. How an instruction runs: what a scalar instruction waits for (R40, R83, R92, R108, R424), how a vector
instruction is committed and executed from the queue (R37–R41, R70–R74, R127, R369, R371, R373, R385), and the debug ring
(R429).
-/

namespace Sys2Proof.Machine

open Sys2Proof

/-! ### What a queue entry makes a later scalar instruction wait for -/

def wMaj (w : InstrWord) : Nat := bits w.toNat 31 26
def wD (w : InstrWord) : Nat := bits w.toNat 25 20
def wA (w : InstrWord) : Nat := bits w.toNat 19 14
def wB (w : InstrWord) : Nat := bits w.toNat 13 8
def wFn (w : InstrWord) : Nat := bits w.toNat 7 0

/-- The scalar destination an entry makes pending: FP file or integer file, and the register (R108, R126, R186, R190,
R329). -/
def scDest (w : InstrWord) : Option (Bool × Nat) :=
  let op := wFn w / 8
  let m := wMaj w
  if m = 0x23 then (if wFn w = 1 then some (false, wD w) else if wFn w = 3 then some (true, wD w) else none)
  else if m = 0x27 then (if op = 4 then some (false, wD w) else none)
  else if m = 0x28 then (if op = 15 then some (false, wD w) else none)
  else if m = 0x29 then (if wFn w = 7 ∨ wFn w = 8 then some (false, wD w) else none)
  else if m = 0x2A then
    if op = 7 then some (true, wD w)
    else if op = 6 ∨ op = 8 ∨ op = 9 then some (decide (4 ≤ wFn w % 8), wD w)
    else if op = 10 ∨ op = 11 ∨ op = 12 then some (false, wD w)
    else none
  else if m = 0x32 then (if bits w.toNat 10 8 = 6 then some (false, wD w) else none)
  else none

/-- The mask register an entry writes (R94). -/
def maskDest (w : InstrWord) : Option Nat :=
  let op := wFn w / 8
  let m := wMaj w
  if m = 0x24 then (if 20 ≤ op then some (wD w) else none)
  else if m = 0x25 then some (wFn w / 4)
  else if m = 0x26 then (if 17 ≤ op then some (wD w) else none)
  else if m = 0x27 then (if op = 3 then some (wD w) else none)
  else if m = 0x29 then (if wFn w = 7 ∨ wFn w = 8 then none else some (wD w))
  else none

/-- The bytes an entry may touch: none of memory, every byte, or a range (R92). -/
inductive Touch
  | nothing | every
  | range (lo hi : Int)
  deriving DecidableEq, Repr

/-- Bytes of VL elements of n bytes at a stride. -/
def strideTouch (base : Word) (stride : Int) (vl n : Nat) : Touch :=
  if vl = 0 then .nothing
  else
    let last := (base.toNat : Int) + stride * (vl - 1 : Nat)
    let lo := min (base.toNat : Int) last
    let hi := max (base.toNat : Int) last + n
    if lo < 0 ∨ 2 ^ 64 < hi then .every else .range lo hi

/-- A format's columns in a weight plane (Table 11-1). -/
def planeCols (w : InstrWord) : Nat := let f := wFn w / 2 % 8; if f = 5 then 24 else if f = 6 then 16 else 48

/-- What an entry may touch (R92); an entry that reads a register in a list of bound ones is a stream entry. The accesses that
follow an `mx.grant` or `mx.ret` wait for it whatever their bytes (R229). -/
def entryTouch (bound : List Nat) (e : VEntry) : Touch :=
  let w := e.word
  let m := wMaj w
  let op := wFn w / 8
  let size : Nat := if wFn w % 8 < 4 then 2 ^ (wFn w % 8) else 8
  let strm := bound.contains (wA w) || bound.contains (wB w) || bound.contains (wD w)
  if m = 0x28 then
    if strm && op != 12 && op != 13 && op != 14 && op != 15 && op != 16 then .every
    else if op = 0 ∨ op = 1 then strideTouch e.opA size e.vl size
    else if op = 2 ∨ op = 3 then strideTouch e.opA e.vstr.toInt e.vl size
    else if op = 9 then strideTouch e.opA 0 e.vl size
    else if op = 10 ∨ op = 11 then strideTouch e.opA 1280 1 1280
    else if op = 12 then strideTouch e.opA 32 1 32
    else if op = 4 ∨ op = 5 ∨ op = 6 then .every
    else .nothing
  else if m = 0x2E then .every
  else if m = 0x2F then (if wFn w / 16 = 10 ∨ strm then .every else strideTouch e.opA 8 e.vl 8)
  else if m = 0x2C then
    let o := wFn w / 16
    if o = 0 then (if e.vl = 0 then .nothing else strideTouch e.opA (sx (e.opB.toNat % 2 ^ 32) 32) (planeCols w) 3072)
    else if o = 9 then strideTouch e.opA e.opB.toInt (min e.vl 64) 192
    else if o = 1 ∨ (3 ≤ o ∧ o ≤ 5) ∨ o = 12 ∨ o = 13 ∨ (o = 8 ∧ strm) then .every
    else .nothing
  else if strm then .every else .nothing

/-- The vector registers bound to a stream slot. -/
def State.boundRegs (s : State) : List Nat := s.st.k.toList.filterMap fun k => k.map fun k => k.reg.val

/-- What the entries of a queue may touch, each with the registers that the `sbind`s before it bind as well. -/
def queueTouch : List Nat → List VEntry → List (VEntry × Touch)
  | _, [] => []
  | bound, e :: r =>
    (e, entryTouch bound e) ::
      queueTouch (if wMaj e.word = 0x28 ∧ wFn e.word / 8 = 12 then wD e.word :: bound else bound) r

/-- An entry of the ordering operations that name a level (Table 14-2): a vector atomic, `vld.acq` or `vst.rel`. -/
def ordersLevel (w : InstrWord) : Bool := wMaj w == 0x2E || (wMaj w == 0x2F && decide (5 ≤ wFn w / 16) && decide (wFn w / 16 ≤ 8))
/-- An entry that later accesses to covered kinds come after (Table 14-2). -/
def acquires (w : InstrWord) : Bool := wMaj w == 0x2E || (wMaj w == 0x2F && (wFn w / 16 == 5 || wFn w / 16 == 6))

/-- The kind of the page that holds an address, where an access to it finds one (Table 14-1). -/
def State.kindAt (s : State) (va : Nat) : Option Nat :=
  if scratchBase ≤ va then some 1
  else match leafM .load va s with
    | .ok (.ok loc) _ => some loc.kind
    | _ => match leafM .store va s with
      | .ok (.ok loc) _ => some loc.kind
      | _ => none

/-- An entry may access SO or DV pages: the pages of its range are looked at, and every page is possible where it has no range
(assumption log 28). -/
def State.mayBeStrong (s : State) (t : Touch) : Bool :=
  match t with
  | .nothing => false
  | .every => true
  | .range lo hi =>
    let first := lo.toNat / 65536
    let n := (hi.toNat - 1) / 65536 - first + 1
    decide (32 < n) || (upTo n).any fun i => match s.kindAt ((first + i) * 65536) with
      | some k => decide (2 ≤ k)
      | none => true

/-- A scalar instruction waits for entries that write the registers it names (R83, R108). -/
def hazard (gs : List GReg) (fs : List FReg) : M Unit := do
  let s ← get
  if s.st.vq = [] then pure ()
  else if s.st.vq.any fun e => match scDest e.word with
      | some (false, n) => gs.any fun r => r.val == n
      | some (true, n) => fs.any fun r => r.val == n
      | none => false
    then waitFor .queue else pure ()

/-- It waits for every earlier entry (R40, R109, R384). -/
def drained : M Unit := do if (← get).st.vq = [] then pure () else waitFor .queue

/-- The order of a scalar access to pages of a kind after the earlier entries (R256, R261, R273): an SO or DV access comes after
every earlier one, and an access to a covered kind after an earlier acquire or atomic. -/
def State.orderHeld (s : State) (kind : Nat) (q : List (VEntry × Touch)) : Bool :=
  q.any fun (e, t) => (kind != 0 && acquires e.word) || (decide (2 ≤ kind) && s.mayBeStrong t)

/-- A scalar access waits for entries that may touch its bytes (R92), and for those that its page's kind, or a stronger one that it
counts as, orders before it. -/
def memHazardOf (least va n : Nat) : M Unit := do
  let s ← get
  if s.st.vq = [] then pure ()
  else
    let q := queueTouch s.boundRegs s.st.vq
    if q.any fun (_, t) => match t with
      | .nothing => false
      | .every => true
      | .range lo hi => decide (lo < (va + n : Nat)) && decide ((va : Int) < hi)
    then waitFor .queue
    else if s.orderHeld (max least (max ((s.kindAt va).getD 0) ((s.kindAt (va + n - 1)).getD 0))) q then waitFor .queue
    else pure ()
def memHazard (va n : Nat) : M Unit := memHazardOf 0 va n

/-- An operation of Table 14-2 that names a level comes after every earlier one that does (R261). -/
def levelHazard : M Unit := do
  let s ← get
  if s.st.vq.any fun e => ordersLevel e.word then waitFor .queue else pure ()

/-- A mask branch waits for entries that write its mask (R94). -/
def maskHazard (m : MReg) : M Unit := do
  let s ← get
  if s.st.vq.any fun e => maskDest e.word == some m.val then waitFor .queue else pure ()

/-! ### The debug ring (R429) -/

/-- WIDTH of the ring: the CVT code of the element content of an instruction word, 15 where it has none; of a conversion that of
its destination (assumption log 100). -/
def wWidth (w : InstrWord) : Nat :=
  let m := wMaj w
  let ty3 := fun t => if t < 4 then t else t + 4
  if m = 0x24 then bits w.toNat 2 1
  else if m = 0x25 then (if bits w.toNat 1 0 < 2 then 3 else 2)
  else if m = 0x26 ∨ m = 0x27 then 8 + bits w.toNat 2 1
  else if m = 0x28 then (if wFn w / 8 < 13 then ty3 (wFn w % 8) else 15)
  else if m = 0x2A then ty3 (wFn w % 8)
  else if m = 0x2B then bits w.toNat 7 4
  else if m = 0x2C then
    let o := wFn w / 16
    if o = 0 ∨ o = 1 ∨ (3 ≤ o ∧ o ≤ 5) then nth [10, 12, 13, 0, 14, 9, 8] (wFn w / 2 % 8) 15 else 15
  else if m = 0x2E then
    let o := wFn w / 16
    if o = 0 ∨ o = 9 then 2 else if o = 13 then 9 else if o = 14 then 8 else 3
  else if m = 0x2F then (if wFn w / 16 = 6 ∨ wFn w / 16 = 8 then 8 else if wFn w / 16 < 10 then 3 else 15)
  else if m = 0x32 then (if bits w.toNat 10 8 < 6 then ty3 (bits w.toNat 4 2) else 15)
  else 15

/-- Active elements of an entry under the mask as it now stands (R32). -/
def State.isActive (s : State) (n : VEntry) (e : Nat) : Bool :=
  decide (e < n.vl) && (n.vms == 15 || (if h : n.vms < 12 then s.mbit ⟨n.vms, h⟩ e else false))
def State.activeList (s : State) (n : VEntry) : List Nat := (upTo n.vl).filter (s.isActive n)

/-- Address of an element of a memory entry, for FIRST and LAST of the ring. -/
abbrev AddrOf := State → VEntry → Nat → Option Word

/-- The record of a completed entry, with what was noted of its elements when it started. -/
def State.ringPut (s : State) (n : VEntry) (x : RingNote) : State :=
  let seq := (s.st.seqv + 1) % 2 ^ 32
  let r : DebugRec :=
    { pc := n.pc, seq, rpl := n.rpl, mem := x.first.isSome, width := wWidth n.word, pop := x.pop, vl := n.vl,
      first := (x.first.getD 0).toNat % 2 ^ 55, last := (x.last.getD 0).toNat % 2 ^ 55 }
  { s with st := { s.st with ring := (r :: s.st.ring).take 64, seqv := seq } }

/-! ### Commit and execution of a vector instruction -/

/-- A scalar operand that an instruction names: captured at commit (R39). -/
inductive Operand
  | none
  | g (r : GReg)
  | f (r : FReg)
  deriving DecidableEq, Repr

def Operand.gs : Operand → List GReg | .g r => [r] | _ => []
def Operand.fs : Operand → List FReg | .f r => [r] | _ => []
def Operand.value (s : State) : Operand → Word | .none => 0 | .g r => s.g r | .f r => (s.f r).val
def Operand.gradeWord (s : State) : Operand → Grade | .f r => (s.f r).grade | _ => 0

/-- The class of a vector instruction (R75). -/
inductive Cls | el | wh
  deriving DecidableEq, Repr

/-- What the queue needs to know of a vector instruction besides its effect: its class, scalar operands, the vector registers
it writes and reads, whether it runs with VL = 0 (R72), whether it abandons a capture (R385), the element addresses for the
ring, and whether its sources advance by VL as they complete. -/
structure VInfo where
  cls : Cls
  opA : Operand := .none
  opB : Operand := .none
  dst : List VReg := []
  src : List VReg := []
  zeroVl : Bool := false
  noCapture : Bool := false
  addr : Option AddrOf := .none
  advance : Bool := true
  /-- A load or a store, which leaves FXR as it is (R115; assumption log 29). -/
  keepFxr : Bool := false
  /-- Sources that no stream may feed (R190). -/
  plainSrc : List VReg := []

/-- One entry captured from the registers as they stand (R39). -/
def State.capture (s : State) (k : VInfo) (rpl : Bool) (w : InstrWord) (pc : Word) : VEntry :=
  { word := w, pc, opA := k.opA.value s, opAGrade := k.opA.gradeWord s, opB := k.opB.value s, vl := s.st.ctl.vl,
    vms := s.st.ctl.vms.toNat, vstr := s.st.ctl.vstr, gth := s.st.ctl.gth.toNat, fcr := s.st.ctl.fcr, srs := none, rpl,
    again := false, sent := false, restart := none, lines := [], begun := false, start := 0, fxr := 0, pos := 0, trains := [],
    note := none }

/-- Elements from a start upward, each in turn: VEI names the element being performed (R38, R73). -/
def elRun (n : VEntry) (body : Nat → M Unit) : Nat → Nat → M Unit
  | 0, _ => pure ()
  | k + 1, e => do
    modify fun s => s.mapCtl fun c => { c with vei := BitVec.ofNat 7 e }
    if (← get).isActive n e then
      body e
      modify fun s => s.dropAnswers 1
    elRun n body k (e + 1)

/-- Mark the entry being run: its contribution, request or trains have left (R269, R322). -/
def markSent : M Unit :=
  modify fun s => { s with st := { s.st with issue := s.st.issue.map fun n => { n with sent := true } } }

/-- Trains that an instruction has gathered leave, and it waits for their acknowledgements, of which it may have something to take
(R269). -/
def finishTrains (take : M Unit) : M Unit := do
  if (← get).st.trains = [] then pure ()
  else
    markSent
    sendTrains
  if trainsDone (← get) then take
  awaitTrains

/-- The body of an EL instruction: the elements from VEI, then the trains it has gathered (R73, R269). -/
def elBody (body : VEntry → Nat → M Unit) (n : VEntry) : M Unit := do
  let start := (← get).st.ctl.vei.toNat
  if n.sent = false ∧ start < n.vl then elRun n (body n) (n.vl - start) start
  finishTrains (pure ())

/-- The strand after an entry has completed: VEI, stream positions, ring, requests (R38, R127, R429). -/
def State.complete (s : State) (k : VInfo) (n : VEntry) (x : RingNote) : State :=
  let s := if k.advance && n.vl != 0 then s.advance k.src n.vl else s
  let s := ((s.ringPut n x).flushLines).dropAnswers 1
  let s := if n.restart.isSome then { s with st := { s.st with hold := [] } } else s
  { s with st := { s.st with ctl := { s.st.ctl with vei := 0 }, issue := none, qwait := .none, scalarNext := false } }.promote

/-- What the ring will say of an entry that starts: its active elements, and the addresses of the lowest and the highest of them
(assumption log 14, 116). -/
def State.ringNote (s : State) (k : VInfo) (n : VEntry) : RingNote :=
  let act := s.activeList n
  match k.addr with
  | none => { pop := act.length, first := none, last := none }
  | some f =>
    let l := act.filterMap (f s n)
    { pop := act.length, first := l.head?, last := l.getLast? }

/-- The trains of the elements performed leave, when an EL instruction traps (R73, R269). -/
def sendDone (s : State) : State :=
  match sendTrains s with | .ok _ x => x | .error _ x => x

/-- An entry starts: a fresh start at element 0 clears FXR (R37), but that of a load or a store (R115), and the lines of an earlier
try are counted already. -/
def State.started (s : State) (k : VInfo) (n : VEntry) : State :=
  let fresh := match k.cls with | .el => s.st.ctl.vei == 0 | .wh => !n.again
  let s0 := if (fresh && !k.keepFxr) || n.vl == 0 then s.mapCtl fun c => { c with fxr := 0 } else s
  { s0 with st := { s0.st with lines := [], counted := n.lines, trains := n.trains } }

/-- The element a trap names before any element has been performed: VEI of an EL instruction, 0 of a WH one (Table 26-1). -/
def State.firstElem (s : State) (k : VInfo) : Nat := match k.cls with | .el => s.st.ctl.vei.toNat | .wh => 0

/-- A register that the entry names against a stream: a bound destination (R127), or a bound source where none may be (R190). -/
def State.streamClash (s : State) (k : VInfo) (n : VEntry) : Option VReg :=
  if n.vl = 0 ∨ (k.cls = .el ∧ n.vl ≤ s.st.ctl.vei.toNat) then none
  else (k.dst ++ k.plainSrc).find? fun r => (s.boundSlot r).isSome

/-- An entry goes back to its place in the queue, with what it has gathered and counted. -/
def State.stay (s : State) (n : VEntry) (ahead : Nat) : State :=
  let s := if s.st.lines = [] then s else s.countLines
  let n := { n with lines := s.st.counted, trains := s.st.trains }
  { s with st := { s.st with
      vq := s.st.vq.take ahead ++ n :: s.st.vq.drop ahead, issue := none, trains := [], counted := [] } }

/-- An entry behind the head has run up to an element, or to where it would trap: it keeps its start element and its records, and
the entries ahead of it go on (R369). -/
def State.putBack (s0 s' : State) (n : VEntry) (ahead start : Nat) (pos : Nat) : State :=
  let s1 := s'.mapCtl fun c => { c with vei := s0.st.ctl.vei, fxr := s0.st.ctl.fxr, fflags := s0.st.ctl.fflags }
  s1.stay { n with begun := true, start, fxr := s'.st.ctl.fxr, pos } ahead

/-- Run an entry behind the head (R369): its elements from its start up to one, from its own records. One that finds a trap stops at
it; one that needs the fabric or has to wait has not run. -/
def runEarly (s : State) (k : VInfo) (body : VEntry → M Unit) (n : VEntry) (ahead upto : Nat) : Out :=
  let s1 := { s with st := { s.st with
    ctl := { s.st.ctl with vei := BitVec.ofNat 7 n.start, fxr := n.fxr }, lines := [], counted := n.lines } }
  let n1 := { n with note := some (n.note.getD (s.ringNote k n)) }
  let not := s.stay n ahead
  match k.cls with
  | .wh => .next not
  | .el =>
    match body { n1 with vl := min upto n.vl } s1 with
    | .ok _ s' => .next (if s'.st.remote = s.st.remote ∧ s'.st.trains = [] then s.putBack s' n1 ahead (min upto n.vl) 0 else not)
    | .error (.trap t) s' => .next (if s'.st.remote = s.st.remote ∧ s'.st.trains = [] then s.putBack s' n1 ahead t.elem ahead else not)
    | .error (.wait _) _ => .next not

/-- What a trap of a WH instruction leaves of the control registers (R38, R74, R148, R154); one that finds the array not owned or
its operands invalid changes nothing but VEI (R43, R210, R211; assumption log 101). -/
def whTrapCtl (old : Ctl) (code : Nat) (c : Ctl) : Ctl :=
  { c with vei := 0, fflags := old.fflags, srs := old.srs, fxr := if code = cMXOWN ∨ code = cILL then old.fxr else c.fxr }

/-- An entry that has to wait keeps its place: an EL one with the elements it has performed, a WH one as before the attempt but for
what it has sent. -/
def State.holdBack (s s' : State) (k : VInfo) (n : VEntry) (w : Wait) : State :=
  let s' := match k.cls with
    | .el => s'
    | .wh => s'.mapCtl fun q => { q with fflags := s.st.ctl.fflags, fxr := s.st.ctl.fxr, srs := s.st.ctl.srs }
  let t := s'.stay { n with sent := ((s'.st.issue.map (·.sent)).getD n.sent) } 0
  { t with st := { t.st with scalarNext := true, qwait := w } }

/-- The head of the queue stops before an element, the ones below it performed (R369, R430). -/
def State.stopAt (s : State) (n : VEntry) (m : Nat) : State :=
  let s := s.mapCtl fun c => { c with vei := BitVec.ofNat 7 m }
  let t := s.stay { n with again := true, sent := false } 0
  { t with st := { t.st with scalarNext := false, qwait := .none } }

/-- The trap of an entry: elements of an EL instruction below the trapping one are performed and their trains leave; nothing of a WH
one is written, and it restarts from element 0 (R73, R74). -/
def State.entryTrap (s s' : State) (k : VInfo) (n : VEntry) (t : Trap) : State :=
  let s' := s'.flushLines.dropAnswers 1
  match k.cls with
  | .el =>
    let s' := sendDone s'
    let n' := { n with lines := [], restart := none, sent := false, trains := s'.st.trains }
    { s' with st := { s'.st with trains := [] } }.takeTrap t (.entry n')
  | .wh =>
    { s' with st := { s'.st with ctl := whTrapCtl s.st.ctl t.code s'.st.ctl, trains := [] } }.takeTrap t
      (.entry { n with lines := [], again := true, restart := none, trains := [] })

/-- Run an entry that stands in `issue`, to its end or up to an element. The STREAM trap of a bound register comes before any other
check of the instruction; it names that register, a destination before a source, and the element the instruction would begin
with (assumption log 33). So it comes before MXOWN of `mx.rd` and before LEVEL of an ordered vector access (assumption log 112, 115). -/
def runHead (s : State) (k : VInfo) (body : VEntry → M Unit) (n : VEntry) (upto : Option Nat) : Out :=
  let note := n.note.getD (s.ringNote k n)
  let n := { n with note := some note }
  if n.vl = 0 ∧ k.zeroVl = false then .next ((s.started k n).complete k n { pop := 0, first := none, last := none })
  else
    match s.streamClash k n with
    | some r =>
      -- no state changes but VEI of a WH instruction (R38)
      let s' := match k.cls with | .el => s | .wh => s.mapCtl fun c => { c with vei := 0 }
      .next (s'.takeTrap { code := cSTREAM, val := BitVec.ofNat 64 r.val, elem := s.firstElem k }
        (.entry { n with again := n.again || k.cls == .wh, restart := none }))
    | none =>
      match upto with
      | none =>
        match body n (s.started k n) with
        | .ok _ s' => .next (s'.complete k n note)
        | .error (.trap t) s' => .next (s.entryTrap s' k n t)
        | .error (.wait w) s' => .next (s.holdBack s' k n w)
      | some m =>
        match body { n with vl := min m n.vl } (s.started k n) with
        | .ok _ s' => .next (s'.stopAt n m)
        | .error (.trap t) s' => .next (s.entryTrap s' k n t)
        | .error (.wait w) s' =>
          -- the elements below m are done and their trains have left
          let done := (s'.st.issue.map (·.sent)).getD n.sent && !n.sent
          .next (if done then s'.stopAt n m else s.holdBack s' k n w)

/-- Run an entry that stands in `issue`: the head of the queue, or one whose turn it is to run up to an element (R369, R430). `runHead` takes
the STREAM trap of a bound register, with the register's number in TVAL (assumption log 33). -/
def runEntry (s : State) (k : VInfo) (body : VEntry → M Unit) (n : VEntry) : Out :=
  match s.st.early with
  | none => runHead s k body n none
  | some (ahead, upto) =>
    let s := { s with st := { s.st with early := none } }
    match ahead, k.cls with
    | 0, .el => runHead s k body n (some upto)
    | 0, .wh => .next (s.stay n 0)
    | a + 1, _ => runEarly s k body n (a + 1) upto

/-- A committed vector instruction is recorded in an open capture, or abandons it (R385). -/
def State.record (s : State) (k : VInfo) : State :=
  let r := s.st.rpl
  if r.left = 0 then s
  else
    let r := if k.noCapture then Replay.init
      else { r with body := r.body ++ [(s.ir, s.st.pc)], left := r.left - 1 }
    { s with st := { s.st with rpl := r } }

/-- The address at which the body instruction that `rpl.run` commits next was captured (R373). -/
def Replay.at_ (r : Replay) : Word := ((r.body[r.pos]?).map (·.2)).getD 0

/-- An entry committed by `rpl.run`: the body position moves on, and past its end the scalar stream goes on after the
`rpl.run` (R373). The bases of its memory entries are kept for the hints of R249. -/
def State.commitReplay (s : State) (n : VEntry) : State :=
  let r := s.st.rpl
  let done := decide (r.body.length ≤ r.pos + 1)
  let r' := { r with
    pos := if done then 0 else r.pos + 1, going := !done,
    bases := SMap.put r.bases r.pos
      (BitVec.ofNat 64 n.vl :: n.vstr :: (n.opA :: (SMap.getD r.bases r.pos []).drop 2).take 3) }
  { s with st := { s.st with
      pc := if done then s.st.pc + 4 else s.st.pc, vq := s.st.vq ++ [n], rpl := r', wait := .none, scalarNext := false,
      restartPc := none, entered := false } }

/-- Where a decode check of R53 that a vector instruction fails is reported: at the instruction, or at the `rpl.run` that
commits it (R373). -/
def State.checkSrc (s : State) : TrapSrc := .scalar s.st.pc (if s.st.rpl.going then some s.st.rpl.at_ else none)

/-! ### Issue holds (R27, R452) -/

/-- A stack of a die holds the issue of its cores (Table 28-3). -/
def State.stackHold (s : State) (d : DieNo) : Bool := (s.dies[d]).hbm.any fun k => k.hold

/-- An issue hold keeps an entry of the queue from issuing (R27, R452). -/
def State.held (s : State) (w : InstrWord) : Bool :=
  let c := s.myCore
  s.stackHold s.myDie || if wMaj w = 0x2C then c.holdMx || c.holdVec else c.holdVec
/-- The head of the queue has begun: it waits in its middle, or has elements behind it. A hold takes effect at an instruction
boundary (R27) and does not stop it. -/
def State.midway (s : State) : Bool := s.st.qwait != .none || s.st.ctl.vei != 0

/-- A vector instruction that is being committed is not run in the same step: the turn is the scalar stream's alone, or an issue hold
stands. -/
def State.commitOnly (s : State) : Bool := s.st.queueOnly || s.held s.ir

/-- Commit a vector instruction and run it when the queue before it is empty, or run the entry in `issue`: the checks of
R53, the waits of R108, the capture of R39. While the division of the core is about to change nothing commits (R381). -/
def runVec (s : State) (k : VInfo) (body : VEntry → M Unit) : Out :=
  match s.st.issue with
  | some n => runEntry s k body n
  | none =>
    if 12 ≤ s.st.ctl.vms.toNat ∧ s.st.ctl.vms.toNat ≤ 14 then
      if s.st.vq = [] then .next (s.takeTrap { code := cILL, val := s.irWord, elem := 0 } s.checkSrc)
      else .next (s.waiting .queue)
    else
      if s.myCore.dividing then .next (s.waiting .queue)
      else match hazard (k.opA.gs ++ k.opB.gs) (k.opA.fs ++ k.opB.fs) s with
      | .error _ s' => .next (s'.waiting .queue)
      | .ok _ s =>
        let room := decide (s.st.vq.length + s.st.pend.length < 32)
        if s.st.rpl.going then
          if room then .next (s.commitReplay (s.capture k true s.ir s.st.rpl.at_)) else .next (s.waiting .queue)
        else
          let n := s.capture k false s.ir s.st.pc
          if s.st.vq = [] ∧ s.commitOnly = false ∧ room = true then
            let s := s.record k
            runEntry { s with st := { s.st with pc := s.st.pc + 4, issue := some n, restartPc := none, entered := false } } k body n
          else if room then
            let s := s.record k
            .next { s with st := { s.st with pc := s.st.pc + 4, vq := s.st.vq ++ [n], scalarNext := false, restartPc := none, entered := false } }
          else .next (s.waiting .queue)

/-- An EL instruction. -/
def runEl (s : State) (k : VInfo) (body : VEntry → Nat → M Unit) : Out :=
  runVec s { k with cls := .el } (elBody body)

end Sys2Proof.Machine
end

