-- ==== Sys2Proof/Machine/Mem.lean ====
section
/-!
DEFINITION. Scalar loads and stores (R88–R92, R106, R170).
-/

namespace Sys2Proof.Machine

open Sys2Proof

/-- An integer load of n bytes (R88). -/
def scalarLoad (n : Nat) (signed : Bool) (d a : GReg) (i : BitVec 14) : M Unit := do
  hazard [d, a] []
  let va := (← get).addr a i
  memHazard va n
  let (x, _) ← loadM false (.plain false) va n 0
  modify fun s => s.setG d (if signed then sextWord x (8 * n) else BitVec.ofNat 64 x)

/-- An integer store of n bytes (R89). -/
def scalarStore (n : Nat) (r a : GReg) (i : BitVec 14) : M Unit := do
  hazard [r, a] []
  let s ← get
  let va := s.addr a i
  memHazard va n
  storeM false (.plain false) .int va n ((s.g r).toNat % 2 ^ (8 * n)) 0

def execLdB (d a : GReg) (i : BitVec 14) (s : State) : Out := runScalar s (scalarLoad 1 true d a i)
def execLdBu (d a : GReg) (i : BitVec 14) (s : State) : Out := runScalar s (scalarLoad 1 false d a i)
def execLdH (d a : GReg) (i : BitVec 14) (s : State) : Out := runScalar s (scalarLoad 2 true d a i)
def execLdHu (d a : GReg) (i : BitVec 14) (s : State) : Out := runScalar s (scalarLoad 2 false d a i)
def execLdW (d a : GReg) (i : BitVec 14) (s : State) : Out := runScalar s (scalarLoad 4 true d a i)
def execLdWu (d a : GReg) (i : BitVec 14) (s : State) : Out := runScalar s (scalarLoad 4 false d a i)
def execLdL (d a : GReg) (i : BitVec 14) (s : State) : Out := runScalar s (scalarLoad 8 false d a i)
def execStB (r a : GReg) (i : BitVec 14) (s : State) : Out := runScalar s (scalarStore 1 r a i)
def execStH (r a : GReg) (i : BitVec 14) (s : State) : Out := runScalar s (scalarStore 2 r a i)
def execStW (r a : GReg) (i : BitVec 14) (s : State) : Out := runScalar s (scalarStore 4 r a i)
def execStL (r a : GReg) (i : BitVec 14) (s : State) : Out := runScalar s (scalarStore 8 r a i)

/-- The grade word of an FP register after a load of that width from a unit with that sidecar word, none on a page without
one: field j of the word for value j of its unit (R106). -/
def loadGrade (wd : ScF) (va : Nat) (g : Option Grade) : Nat :=
  match wd, g with
  | .f64, some w => gradeAt .f64 w 0
  | .f32, some w => gradeAt .f32 w (va / 4 % 2)
  | _, none => fmtP (scOf wd)

def scBytes : ScF → Nat | .f64 => 8 | .f32 => 4

/-- What a load leaves: the value and the grade in the register layout (Table 4-1, R106, R158). -/
def loadElem (wd : ScF) (va x : Nat) (g : Option Grade) : Elem := scElem wd x (loadGrade wd va g)

def execFld (wd : ScF) (f : FReg) (a : GReg) (i : BitVec 14) (s : State) : Out :=
  runScalar s (do
    hazard [a] [f]
    let va := (← get).addr a i
    memHazard va (scBytes wd)
    let (x, g) ← loadM true (.plain true) va (scBytes wd) 0
    modify fun s => s.setF f (loadElem wd va x g))

/-- The sidecar of a scalar FP store (R106). -/
def storeSideOf (wd : ScF) (x : Elem) : Side :=
  match wd with
  | .f64 => .word x.grade
  | .f32 => .byte (scGrade x .f32)

def execFst (wd : ScF) (f : FReg) (a : GReg) (i : BitVec 14) (s : State) : Out :=
  runScalar s (do
    hazard [a] [f]
    let s ← get
    let va := s.addr a i
    memHazard va (scBytes wd)
    storeM false (.plain true) (storeSideOf wd (s.f f)) va (scBytes wd) (scVal (s.f f) wd) 0)

end Sys2Proof.Machine
end

