-- ==== Sys2Proof/Machine/FpScalar.lean ====
section
/-!
DEFINITION. Scalar floating point (R97–R105).
-/

namespace Sys2Proof.Machine

open Sys2Proof

/-- Steps 1 to 3 of R98 for a result in an FP register. -/
def putF (wd : ScF) (d : FReg) (r : FOut) : M Unit := do
  scalarFlags r.flags
  scalarGrade (fmtP (scOf wd)) r.grade
  modify fun s => s.setF d (scElem wd r.pat r.grade)

/-- An arithmetic operation on scalar registers (R99, R100). -/
def fpScalar (op : FOp) (d a b c : FReg) (wd : ScF) : M Unit := do
  hazard [] [d, a, b, c]
  let s ← get
  let x := s.f a
  let y := s.f b
  let z := s.f c
  putF wd d (fpArith (scOf wd) (fcrRm s.st.ctl.fcr) false op (scVal x wd) (scVal y wd) (scVal z wd)
    (scGrade x wd) (scGrade y wd) (scGrade z wd))

def execFadd (d a b : FReg) (wd : ScF) (s : State) : Out := runScalar s (fpScalar .add d a b a wd)
def execFsub (d a b : FReg) (wd : ScF) (s : State) : Out := runScalar s (fpScalar .sub d a b a wd)
def execFmul (d a b : FReg) (wd : ScF) (s : State) : Out := runScalar s (fpScalar .mul d a b a wd)
def execFdiv (d a b : FReg) (wd : ScF) (s : State) : Out := runScalar s (fpScalar .div d a b a wd)
def execFsqrt (d a : FReg) (wd : ScF) (s : State) : Out := runScalar s (fpScalar .sqrt d a a a wd)
def execFmadd (d a b c : FReg) (wd : ScF) (s : State) : Out := runScalar s (fpScalar (.fma false false) d a b c wd)
def execFmsub (d a b c : FReg) (wd : ScF) (s : State) : Out := runScalar s (fpScalar (.fma false true) d a b c wd)

/-- Minimum and maximum (R101). -/
def fpScalarMin (isMin : Bool) (d a b : FReg) (wd : ScF) : M Unit := do
  hazard [] [d, a, b]
  let s ← get
  let x := s.f a
  let y := s.f b
  putF wd d (fpMinMax (scOf wd) false isMin (scVal x wd) (scVal y wd) (scGrade x wd) (scGrade y wd))

def execFmin (d a b : FReg) (wd : ScF) (s : State) : Out := runScalar s (fpScalarMin true d a b wd)
def execFmax (d a b : FReg) (wd : ScF) (s : State) : Out := runScalar s (fpScalarMin false d a b wd)

/-- The three compares of R102. -/
inductive FCmp | eq | lt | le
  deriving DecidableEq, Repr

/-- The result of a compare and its flags: eq is quiet, lt and le signal on any NaN (R102). -/
def fpCompare (f : Fmt) (c : FCmp) (a b : Nat) : Bool × BitVec 6 :=
  let x := unpack f a
  let y := unpack f b
  match c with
  | .eq => (fvEq x y, flagIf (isSnan f x || isSnan f y) flNV)
  | .lt => (fvLt x y, flagIf (isNan x || isNan y) flNV)
  | .le => (fvLt x y || fvEq x y, flagIf (isNan x || isNan y) flNV)

def fpScalarCmp (c : FCmp) (d : GReg) (a b : FReg) (wd : ScF) : M Unit := do
  hazard [d] [a, b]
  let s ← get
  let (r, fl) := fpCompare (scOf wd) c (scVal (s.f a) wd) (scVal (s.f b) wd)
  scalarFlags fl
  modify fun s => s.setG d (if r then 1 else 0)

def execFeq (d : GReg) (a b : FReg) (wd : ScF) (s : State) : Out := runScalar s (fpScalarCmp .eq d a b wd)
def execFlt (d : GReg) (a b : FReg) (wd : ScF) (s : State) : Out := runScalar s (fpScalarCmp .lt d a b wd)
def execFle (d : GReg) (a b : FReg) (wd : ScF) (s : State) : Out := runScalar s (fpScalarCmp .le d a b wd)

/-- The grade of a conversion's source: none where its word is ungraded, which counts as the p of the result (R159, R162). -/
def cvtSource (x : Elem) (wd : ScF) : Option Nat := if x.grade = 0xFFFF then none else some (scGrade x wd)

/-- The other scalar width: the source of `fcvt` between widths. -/
def otherSc : ScF → ScF | .f64 => .f32 | .f32 => .f64

def execFcvtFmtWidth (d a : FReg) (wd : ScF) (s : State) : Out :=
  runScalar s (do
    hazard [] [d, a]
    let s ← get
    let x := s.f a
    let w := otherSc wd
    putF wd d (fpConvert (scOf w) (scOf wd) (fcrRm s.st.ctl.fcr) false false (scVal x w) (cvtSource x w)))

def execFcvtFmtL (d : FReg) (a : GReg) (wd : ScF) (s : State) : Out :=
  runScalar s (do
    hazard [a] [d]
    let s ← get
    putF wd d (fpFromInt (scOf wd) (fcrRm s.st.ctl.fcr) false false (s.g a).toInt))

def execFcvtLFmt (d : GReg) (a : FReg) (wd : ScF) (s : State) : Out :=
  runScalar s (do
    hazard [d] [a]
    let s ← get
    let (x, fl) := fpToInt (scOf wd) (fcrRm s.st.ctl.fcr) false (-2 ^ 63) (2 ^ 63 - 1) (scVal (s.f a) wd)
    scalarFlags fl
    modify fun s => s.setG d (wordOfInt x))

def execFgrd (d : GReg) (a : FReg) (wd : ScF) (s : State) : Out :=
  runScalar s (do
    hazard [d] [a]
    modify fun s => s.setG d (BitVec.ofNat 64 (scGrade (s.f a) wd)))

def execFgset (d : FReg) (a : GReg) (wd : ScF) (s : State) : Out :=
  runScalar s (do
    hazard [a] [d]
    modify fun s => s.setF d (scElem wd (scVal (s.f d) wd) (s.g a).toNat))

def execFmvFmtG (d : FReg) (a : GReg) (wd : ScF) (s : State) : Out :=
  runScalar s (do
    hazard [a] [d]
    modify fun s => s.setF d (scElem wd (s.g a).toNat (fmtP (scOf wd))))

def execFmvGFmt (d : GReg) (a : FReg) (wd : ScF) (s : State) : Out :=
  runScalar s (do
    hazard [d] [a]
    modify fun s => s.setG d (BitVec.ofNat 64 (scVal (s.f a) wd)))

/-! ### Scalar–vector moves (R107) -/

/-- The index of a move is active. -/
def moveActive (s : State) (n : VEntry) (idx : Word) : Bool := s.isActive n idx.toNat

def execVins (d : VReg) (a b : GReg) (s : State) : Out :=
  runVec s { cls := .wh, opA := .g a, opB := .g b, dst := [d] } fun n => do
    let s ← get
    if moveActive s n n.opB then set (s.setV d n.opB.toNat { val := n.opA, grade := 0xFFFF })

def execVext (d : GReg) (a : VReg) (b : GReg) (s : State) : Out :=
  runVec s { cls := .wh, opA := .g b, src := [a], zeroVl := true } fun n => do
    let x ← if moveActive (← get) n n.opA then srcV a n.opA.toNat else pure { val := 0, grade := 0xFFFF }
    modify fun s => s.setG d x.val

def execVfins (d : VReg) (a : FReg) (b : GReg) (s : State) : Out :=
  runVec s { cls := .wh, opA := .f a, opB := .g b, dst := [d] } fun n => do
    let s ← get
    if moveActive s n n.opB then set (s.setV d n.opB.toNat { val := n.opA, grade := n.opAGrade })

def execVfext (d : FReg) (a : VReg) (b : GReg) (s : State) : Out :=
  runVec s { cls := .wh, opA := .g b, src := [a], zeroVl := true } fun n => do
    let x ← if moveActive (← get) n n.opA then srcV a n.opA.toNat else pure { val := 0, grade := 0xFFFF }
    modify fun s => s.setF d x

end Sys2Proof.Machine
end

