-- ==== Sys2Proof/Machine/VFp.lean ====
section
/-!
DEFINITION. Floating-point and grade vector operations (R172, R173, R177–R186).
-/

namespace Sys2Proof.Machine

open Sys2Proof

/-- The queue's facts of a VF instruction: field b is a vector register or a captured FP register (R172). -/
def vfInfo (dst a : List VReg) (b : VFSrc) : VInfo :=
  match b with
  | .vec v => { cls := .el, dst, src := a ++ [v] }
  | .sca f => { cls := .el, opA := .f f, dst, src := a }

/-- Element e of field b; a scalar stands as every value (R178). -/
def vfB (f : Fmt) (b : VFSrc) (n : VEntry) (e : Nat) : M Elem :=
  match b with
  | .vec v => srcV v e
  | .sca _ =>
    let x : Elem := { val := n.opA, grade := n.opAGrade }
    pure (packElem f (List.replicate (fmtVals f) (x.valAt f 0)) (List.replicate (fmtVals f) (gradeAt f x.grade 0)))

/-- Write the values of an element after its flags and its threshold check (R153, R154, R167). -/
def putV (f : Fmt) (n : VEntry) (d : VReg) (e : Nat) (rs : List FOut) : M Unit := do
  let gs := rs.map (·.grade)
  let x := packElem f (rs.map (·.pat)) gs
  fpTraps n e (rs.foldl (fun a r => a ||| r.flags) 0) (fmtP f) gs x.grade
  modify fun s => s.setV d e x

/-- A VF operation, value by value (R177); c is value j of the destination. Source va is read before vb: where two bound sources fail at one
element, va's fault is raised (assumption log 34). -/
def vfOp (g : Fmt → VEntry → (a b c : Nat) → (ga gb gc : Nat) → FOut) (d a : VReg) (b : VFSrc) (ff : FpF) (s : State) : Out :=
  runEl s (vfInfo [d] [a] b) fun n e => do
    let f := fpOf ff
    let x ← srcV a e
    let y ← vfB f b n e
    let z := (← get).v d e
    putV f n d e ((upTo (fmtVals f)).map fun j =>
      g f n (x.valAt f j) (y.valAt f j) (z.valAt f j) (gradeAt f x.grade j) (gradeAt f y.grade j) (gradeAt f z.grade j))

/-- Arithmetic under the captured FCR (R179, R180). -/
def vfArith (op : FOp) (f : Fmt) (n : VEntry) (a b c ga gb gc : Nat) : FOut :=
  fpArith f (fcrRm n.fcr) (ftzFor f n.fcr) op a b c ga gb gc

def execVfadd (d a : VReg) (b : VFSrc) (f : FpF) (s : State) : Out := vfOp (vfArith .add) d a b f s
def execVfsub (d a : VReg) (b : VFSrc) (f : FpF) (s : State) : Out := vfOp (vfArith .sub) d a b f s
def execVfmul (d a : VReg) (b : VFSrc) (f : FpF) (s : State) : Out := vfOp (vfArith .mul) d a b f s
def execVfdiv (d a : VReg) (b : VFSrc) (f : FpF) (s : State) : Out := vfOp (vfArith .div) d a b f s
def execVfsqrt (d a : VReg) (f : FpF) (s : State) : Out := vfOp (vfArith .sqrt) d a (.vec a) f s
def execVfmadd (d a : VReg) (b : VFSrc) (f : FpF) (s : State) : Out := vfOp (vfArith (.fma false false)) d a b f s
def execVfmsub (d a : VReg) (b : VFSrc) (f : FpF) (s : State) : Out := vfOp (vfArith (.fma false true)) d a b f s
def execVfnmadd (d a : VReg) (b : VFSrc) (f : FpF) (s : State) : Out := vfOp (vfArith (.fma true true)) d a b f s
def execVfnmsub (d a : VReg) (b : VFSrc) (f : FpF) (s : State) : Out := vfOp (vfArith (.fma true false)) d a b f s

/-- Minimum and maximum (R181). -/
def vfMinMax (isMin : Bool) (f : Fmt) (n : VEntry) (a b _c ga gb _gc : Nat) : FOut :=
  fpMinMax f (ftzFor f n.fcr) isMin a b ga gb

def execVfmin (d a : VReg) (b : VFSrc) (f : FpF) (s : State) : Out := vfOp (vfMinMax true) d a b f s
def execVfmax (d a : VReg) (b : VFSrc) (f : FpF) (s : State) : Out := vfOp (vfMinMax false) d a b f s

/-- The sign bit of a pattern. -/
def patSign (f : Fmt) (x : Nat) : Bool := x / 2 ^ (fmtBits f - 1) % 2 == 1

/-- A sign operation (R182): only the sign bit changes; the grade is that of a, 0 for a NaN or an infinity. -/
def vfSign (g : Bool → Bool → Bool) (f : Fmt) (_n : VEntry) (a b _c ga _gb _gc : Nat) : FOut :=
  { pat := a % 2 ^ (fmtBits f - 1) + (if g (patSign f a) (patSign f b) then 2 ^ (fmtBits f - 1) else 0),
    grade := match unpack f a with | .fin .. => ga | _ => 0, flags := 0 }

def execVfabs (d a : VReg) (f : FpF) (s : State) : Out := vfOp (vfSign fun _ _ => false) d a (.vec a) f s
def execVfneg (d a : VReg) (f : FpF) (s : State) : Out := vfOp (vfSign fun x _ => !x) d a (.vec a) f s
def execVfsgn (d a : VReg) (b : VFSrc) (f : FpF) (s : State) : Out := vfOp (vfSign fun _ y => y) d a b f s
def execVfsgnn (d a : VReg) (b : VFSrc) (f : FpF) (s : State) : Out := vfOp (vfSign fun _ y => !y) d a b f s
def execVfsgnx (d a : VReg) (b : VFSrc) (f : FpF) (s : State) : Out := vfOp (vfSign fun x y => x != y) d a b f s

/-- The class pattern of a value (Table 9-3). -/
def classOf (f : Fmt) (x : Nat) : Nat :=
  match unpack f x with
  | .inf s => if s then 1 else 128
  | .nan s t => (if isSnan f (.nan s t) then 256 else 512) + t / 2 ^ (fmtT f - 4) % 8 * 1024
  | .fin s m e =>
    if m = 0 then (if s then 8 else 16)
    else if gtDyadic 1 (fmtEmin f) m e then (if s then 4 else 32)
    else if s then 2 else 64

def execVfclass (d a : VReg) (f : FpF) (s : State) : Out :=
  runEl s { cls := .el, dst := [d], src := [a] } fun _ e => do
    let ff := fpOf f
    let x ← srcV a e
    modify fun s => s.setV d e
      { val := BitVec.ofNat 64 (packVals (fmtBits ff) ((upTo (fmtVals ff)).map fun j => classOf ff (x.valAt ff j))), grade := 0xFFFF }

/-! ### Compares to a mask (R184) -/

/-- The five relations of Table 9-4. -/
inductive VCmp | eq | ne | lt | le | un
  deriving DecidableEq, Repr

/-- Whether the relation holds for the pairs of values, and its flags. -/
def vfCompare (f : Fmt) (c : VCmp) (vs : List (Nat × Nat)) : Bool × BitVec 6 :=
  let k : FCmp := match c with | .lt => .lt | .le => .le | _ => .eq
  let rs := vs.map fun (a, b) => fpCompare f k a b
  let fl := rs.foldl (fun a r => a ||| r.2) 0
  match c with
  | .ne => (!(rs.all (·.1)), fl)
  | .un => (vs.any fun (a, b) => isNan (unpack f a) || isNan (unpack f b), fl)
  | _ => (rs.all (·.1), fl)

def vfCmp (c : VCmp) (d : MReg) (a : VReg) (b : VFSrc) (ff : FpF) (s : State) : Out :=
  runEl s (vfInfo [] [a] b) fun n e => do
    let f := fpOf ff
    let x ← srcV a e
    let y ← vfB f b n e
    let (r, fl) := vfCompare f c ((upTo (fmtVals f)).map fun j => (x.valAt f j, y.valAt f j))
    fpTraps n e fl 0 [] 0
    modify fun s => s.setMbit d e r

def execVfeq (d : MReg) (a : VReg) (b : VFSrc) (f : FpF) (s : State) : Out := vfCmp .eq d a b f s
def execVfne (d : MReg) (a : VReg) (b : VFSrc) (f : FpF) (s : State) : Out := vfCmp .ne d a b f s
def execVflt (d : MReg) (a : VReg) (b : VFSrc) (f : FpF) (s : State) : Out := vfCmp .lt d a b f s
def execVfle (d : MReg) (a : VReg) (b : VFSrc) (f : FpF) (s : State) : Out := vfCmp .le d a b f s
def execVfun (d : MReg) (a : VReg) (b : VFSrc) (f : FpF) (s : State) : Out := vfCmp .un d a b f s

/-! ### Grades (R185, R186) -/

/-- The grades of an element's values. -/
def gradesOf (f : Fmt) (w : Grade) : List Nat := (upTo (fmtVals f)).map (gradeAt f w)

def execVgrd (d a : VReg) (f : FpF) (s : State) : Out :=
  runEl s { cls := .el, dst := [d], src := [a] } fun _ e => do
    let ff := fpOf f
    let x ← srcV a e
    modify fun s => s.setV d e { val := BitVec.ofNat 64 (packVals (fmtBits ff) (gradesOf ff x.grade)), grade := 0xFFFF }

def execVgwr (d a : VReg) (_f : FpF) (s : State) : Out :=
  runEl s { cls := .el, dst := [d], src := [a] } fun _ e => do
    let x ← srcV a e
    modify fun s => s.setV d e { val := (s.v d e).val, grade := x.val.setWidth 16 }

def execVgset (d : VReg) (a : GReg) (f : FpF) (s : State) : Out :=
  runEl s { cls := .el, opA := .g a, dst := [d] } fun n e => do
    let ff := fpOf f
    modify fun s => s.setV d e
      { val := (s.v d e).val, grade := gradeWord ff (List.replicate (fmtVals ff) (min n.opA.toNat (fmtP ff))) }

def execVglt (d : MReg) (a : VReg) (b : GReg) (f : FpF) (s : State) : Out :=
  runEl s { cls := .el, opA := .g b, src := [a] } fun n e => do
    let x ← srcV a e
    modify fun s => s.setMbit d e ((gradesOf (fpOf f) x.grade).any fun g => decide (g < n.opA.toNat))

/-- Read every active element of a source, lowest first. -/
def readActive (r : VReg) (es : List Nat) : M (List (Nat × Elem)) :=
  es.mapM fun e => do return (e, ← srcV r e)

def execVgmin (d : GReg) (a : VReg) (f : FpF) (s : State) : Out :=
  runVec s { cls := .wh, src := [a], zeroVl := true } fun n => do
    let xs ← readActive a ((← get).activeList n)
    let gs := (xs.map fun x => gradesOf (fpOf f) x.2.grade).flatten
    modify fun s => s.setG d (BitVec.ofNat 64 (gs.foldl min (fmtP (fpOf f))))

def execVgfull (d : VReg) (f : FpF) (s : State) : Out :=
  runEl s { cls := .el, dst := [d] } fun _ e => do
    modify fun s => s.setV d e { val := (s.v d e).val, grade := fullGrade f }

end Sys2Proof.Machine
end

