-- ==== Sys2Proof/Machine/VMem.lean ====
section
/-!
DEFINITION. Vector loads and stores, lane SRAM, prefetch and stream slots (R114–R129, R315, R330).
-/

namespace Sys2Proof.Machine

open Sys2Proof

/-! ### Addresses -/

/-- ga + e × S, and ga + e × VSTR (Table 5-2). -/
def unitAddr (size : Nat) (n : VEntry) (e : Nat) : Nat := (n.opA + BitVec.ofNat 64 (e * size)).toNat
def strideAddr (n : VEntry) (e : Nat) : Nat := (n.opA + n.vstr * BitVec.ofNat 64 e).toNat
/-- ga + s(elem(vb, e)) (R120). -/
def indexAddr (b : VReg) (n : VEntry) (e : Nat) : M Nat := do return (n.opA + (← srcV b e).val).toNat

/-- The address of an element, for the ring. -/
def addrPure (f : VEntry → Nat → Nat) : AddrOf := fun _ n e => some (BitVec.ofNat 64 (f n e))
def addrM (f : VEntry → Nat → M Nat) : AddrOf := fun s n e =>
  match f n e s with | .ok a _ => some (BitVec.ofNat 64 a) | .error .. => none

/-! ### Direct and indexed forms (R118–R120) -/

def vLoad (addr : VEntry → Nat → M Nat) (src : List VReg) (d : VReg) (a : GReg) (t : ElTy) (s : State) : Out :=
  runEl s { cls := .el, opA := .g a, dst := [d], src, addr := some (addrM addr), keepFxr := true } fun n e => do
    let x ← loadEl .plain t (← addr n e) e
    modify fun s => s.setV d e x

def vStore (addr : VEntry → Nat → M Nat) (src : List VReg) (r : VReg) (a : GReg) (t : ElTy) (s : State) : Out :=
  runEl s { cls := .el, opA := .g a, src := r :: src, addr := some (addrM addr), keepFxr := true } fun n e => do
    let x ← srcV r e
    storeEl .plain t (← addr n e) x e

def execVld (d : VReg) (a : GReg) (t : ElTy) (s : State) : Out :=
  vLoad (fun n e => pure (unitAddr (elSize t) n e)) [] d a t s
def execVst (r : VReg) (a : GReg) (t : ElTy) (s : State) : Out :=
  vStore (fun n e => pure (unitAddr (elSize t) n e)) [] r a t s
def execVlds (d : VReg) (a : GReg) (t : ElTy) (s : State) : Out := vLoad (fun n e => pure (strideAddr n e)) [] d a t s
def execVsts (r : VReg) (a : GReg) (t : ElTy) (s : State) : Out := vStore (fun n e => pure (strideAddr n e)) [] r a t s
def execVldx (d : VReg) (a : GReg) (b : VReg) (t : ElTy) (s : State) : Out := vLoad (indexAddr b) [b] d a t s
def execVstx (r : VReg) (a : GReg) (b : VReg) (t : ElTy) (s : State) : Out := vStore (indexAddr b) [b] r a t s

/-- vldb reads its datum once, at the lowest active element from VEI upward (R119). -/
def execVldb (d : VReg) (a : GReg) (t : ElTy) (s : State) : Out :=
  runVec s { cls := .el, opA := .g a, dst := [d], addr := some (addrPure fun n _ => n.opA.toNat), keepFxr := true } fun n => do
    let s ← get
    let es := (s.activeList n).filter fun e => decide (s.st.ctl.vei.toNat ≤ e)
    match es with
    | [] => pure ()
    | e :: _ =>
      modify fun s => s.mapCtl fun c => { c with vei := BitVec.ofNat 7 e }
      let x ← loadEl .plain t n.opA.toNat e
      modify fun s => es.foldl (fun s e => s.setV d e x) s

/-! ### Scatter-add (R121, R269) -/

/-- The sum that a scatter-add stores: a 4- or 8-byte integer sum, or an FP sum of each value with flags and grades; `x` is
the old datum with its grade word. -/
def scatterSum (t : ElTy) (fcr : BitVec 10) (old add : Elem) : Elem × BitVec 6 × List Nat :=
  match t with
  | .int wd => ({ val := BitVec.ofNat 64 ((old.val.toNat + add.val.toNat) % 2 ^ intBits wd), grade := 0xFFFF }, 0, [])
  | .fp ff =>
    let f := fpOf ff
    let rs := (upTo (fmtVals f)).map fun j =>
      fpArith f (fcrRm fcr) (ftzFor f fcr) .add (old.valAt f j) (add.valAt f j) 0 (gradeAt f old.grade j) (gradeAt f add.grade j) 0
    (packElem f (rs.map (·.pat)) (rs.map (·.grade)), rs.foldl (fun a r => a ||| r.flags) 0, rs.map (·.grade))

/-- Bits of a precision check that a type makes: the p of an FP format. -/
def elP : ElTy → Nat | .int _ => 0 | .fp f => fmtP (fpOf f)

def elIsFp : ElTy → Bool | .fp _ => true | .int _ => false

/-- The flags that the home of an element of an FP scatter-add found (assumption log 31): the format of an acknowledgement has no
field for them. Those of an element performed raise no enabled trap. -/
def remoteFlags (tag i ctl : Nat) : BitVec 6 :=
  BitVec.ofNat 6 (Config.peerAnswer [3, tag, i] % 64) &&& ~~~ BitVec.ofNat 6 (ctl / 16 % 64)
/-- The trap of the element at which a home stopped: FPX with flags of which one is enabled, or GRADE. -/
def remoteTrap (tag i ctl elem : Nat) : BitVec 6 × Trap :=
  let te := BitVec.ofNat 6 (ctl / 16 % 64)
  let fl := BitVec.ofNat 6 (Config.peerAnswer [3, tag, i] % 64)
  if fl &&& te ≠ 0 ∨ ctl / 1024 = 0 then
    let fl := if fl &&& te = 0 then fl ||| te else fl
    (fl, { code := cFPX, val := BitVec.ofNat 64 fl.toNat, elem })
  else (fl, { code := cGRADE, val := BitVec.ofNat 64 (Config.peerAnswer [4, tag, i] % 65536), elem })

/-- The acknowledged trains of the instruction's scatter-adds: the flags of the elements performed are set and merged, and the element
at which a home stopped takes its trap, those below it performed (R121, R153, R154, R168). -/
def scatterAcks : M Unit := do
  let s ← get
  let rs := s.st.remote.filter fun r => r.op == 3 && r.owner == 1
  for r in rs do
    match r.answer with
    | some (some (count, _)) => do
      modify fun s => { s with st := { s.st with remote := s.st.remote.filter fun q => q.tag != r.tag } }
      let es := s.trainElems r.tag
      for (x, i) in es.zipIdx do
        if x.grade.isSome && decide (i < count) then modify fun s => s.flag (remoteFlags r.tag i x.ctl) x.elem
      match es[count]? with
      | some x =>
        if x.grade.isSome && ctlArmed x.ctl then
          let (fl, t) := remoteTrap r.tag count x.ctl x.elem
          modify fun s => (s.flag fl x.elem).mapCtl fun c => { c with vei := BitVec.ofNat 7 x.elem }
          throw (.trap t)
      | none => pure ()
    | _ => pure ()

/-- Every element gathered leaves, and is performed before what comes next. -/
def scatterFlush : M Unit := do
  let s ← get
  if s.st.trains ≠ [] then
    sendTrains
    waitFor .fabric
  else if s.trainsOut none then waitFor .fabric
  else scatterAcks

/-- The window address of an element that lies on one page of one destination, with the kind of its page. -/
def remoteElem (ps : List Part) (size : Nat) : Option (Nat × Nat × Nat) :=
  match ps with
  | [{ loc := .remote h a k, .. }] => some (h, a, k)
  | [{ loc := .remote h a k, at_ := _, len := n }, { loc := .remote h' a' k', .. }] =>
    if h = h' ∧ a + n = a' ∧ a / 65536 = (a + size - 1) / 65536 then some (h, a, max k k') else none
  | _ => none

/-- One element of a scatter-add: at its pages, or gathered for a train with the type, FCR and controls that its home adds under
(R269; assumption log 23, 31). One that may trap, and one whose bytes lie on pages of two destinations, comes after all elements
below it (R121). -/
def scatterEl (t : ElTy) (n : VEntry) (va e : Nat) (x : Elem) : M Unit := do
  let rule : AlignRule := .plain (elIsFp t)
  let size := elSize t
  let quiet := match n.restart with | some r => decide (e ≤ r) | none => false
  let ctl := if elIsFp t then amoCtl n.fcr n.gth quiet else 0
  let b ← beginM .rmw rule va size e
  match remoteElem b.parts size with
  | some (handle, addr, kind) =>
    let strong := decide (2 ≤ kind) || ctlArmed ctl
    if strong then
      orderTrains (some (handle, 1))
      scatterAcks
    if (← get).trainsOut (some handle) then waitFor .fabric
    modify fun s => s.touch { loc := .remote handle addr kind, at_ := 0, len := size }
    gather { handle, kind := 1, addr, len := size, val := x.val.toNat % 2 ^ (8 * size),
             grade := if elIsFp t then some x.grade else none, ty := t.code + (if elIsFp t && va % size != 0 then 8 else 0),
             fcr := n.fcr, va, elem := e, ctl, strong }
  | none =>
    let away := b.parts.any fun p => match p.loc with | .remote .. => true | _ => false
    if away || ctlArmed ctl then scatterFlush
    let old ← loadEl (fun _ => rule) t va e
    let (y, fl, gs) := scatterSum t n.fcr old x
    fpTraps n e fl (elP t) gs y.grade
    match t with
    | .int wd => storeM (!away) rule .int va size (y.val.toNat % 2 ^ intBits wd) e
    | .fp _ => storeM (!away) rule (.word y.grade) va size y.val.toNat e

/-- A check that may fail: the trap it would raise, and what it found in the caches. -/
def tryCheck (m : M Unit) : M (Option Trap) := fun s =>
  match m s with
  | .ok _ t => .ok none t
  | .error (.trap q) t => .ok (some q) t
  | .error (.wait w) t => .error (.wait w) t

/-- Every active element from one upward is translated before any request leaves: the first element whose check fails, with its
trap, and VL when none does (R335 steps 1 and 2; a bound source is read later, assumption log 122). -/
def scatterChecks (check : Nat → M Unit) (n : VEntry) : Nat → Nat → M (Nat × Option Trap)
  | 0, _ => pure (n.vl, none)
  | k + 1, e => do
    if (← get).isActive n e then
      match ← tryCheck (check e) with
      | none => scatterChecks check n k (e + 1)
      | some q =>
        let _ ← scatterChecks check n k (e + 1)
        pure (e, some q)
    else scatterChecks check n k (e + 1)

def execVstxa (r : VReg) (a : GReg) (b : VReg) (t : ElTy) (s : State) : Out :=
  runVec s { cls := .el, opA := .g a, src := [r, b], addr := some (addrM (indexAddr b)) } fun n => do
    let rule : AlignRule := .plain (match t with | .fp _ => true | .int _ => false)
    let start := (← get).st.ctl.vei.toNat
    if n.sent = false ∧ start < n.vl then
      let (k, fault) ← scatterChecks (fun e => do let _ ← placeM .rmw rule (← indexAddr b n e) (elSize t) e) n (n.vl - start) start
      elRun n (fun e => do
        let x ← srcV r e
        let va ← indexAddr b n e
        scatterEl t n va e x) (k - start) start
      match fault with
      | none => pure ()
      | some q => do
        modify fun s => s.mapCtl fun c => { c with vei := BitVec.ofNat 7 k }
        throw (.trap q)
    finishTrains scatterAcks

/-! ### Lane SRAM (R42, R122, R435) -/

/-- The lane of an element within its block (R42). -/
def laneOf (div e : Nat) : Nat := e % laneCount div

/-- The key of a lane access: XLATE past the slice, PERM when misaligned (R122); of an offset that is both, XLATE
(assumption log 30). -/
def lanePlace (size : Nat) (off : Word) (e : Nat) : M (Nat × Nat) := do
  if 4096 < off.toNat + size then raise cXLATE off e
  else if off.toNat % size ≠ 0 then raise cPERM off e
  else
    let s ← get
    let div := s.myCore.div
    let l := laneOf div e
    pure (laneKey s.st.core (s.st.slot * laneCount div + l) off.toNat, l)

def execVldLn (d b : VReg) (t : ElTy) (s : State) : Out :=
  runEl s { cls := .el, dst := [d], src := [b], keepFxr := true } fun _ e => do
    let (k, _) ← lanePlace (elSize t) (← srcV b e).val e
    let x := Memory.readN (← get).onchip k (elSize t)
    modify fun s => s.setV d e (match t with
      | .int wd => { val := sextWord x (intBits wd), grade := 0xFFFF }
      | .fp f => { val := BitVec.ofNat 64 x, grade := fullGrade f })

def execVstLn (r b : VReg) (t : ElTy) (s : State) : Out :=
  runEl s { cls := .el, src := [r, b], keepFxr := true } fun _ e => do
    let (k, l) ← lanePlace (elSize t) (← srcV b e).val e
    let x ← srcV r e
    modify fun s => { s with
      onchip := Memory.writeN s.onchip k (elSize t) x.val.toNat
      st := { s.st with tags := { s.st.tags with
        laneDirty := insertAsc s.st.tags.laneDirty l, laneValid := insertAsc s.st.tags.laneValid l } } }

/-! ### Grade-carrying spill forms (R123) -/

/-- Address of the grade word of element e in the 1,280-byte area. -/
def gradeAddr (n : VEntry) (e : Nat) : Nat := (n.opA + BitVec.ofNat 64 (1024 + 2 * e)).toNat

/-- The checks of both accesses, the lower address first (assumption log 97), and both kept for the instruction's next try. -/
def spillCheck (acc : Acc) (n : VEntry) (e : Nat) : M Unit := do
  let da := unitAddr 8 n e
  let ga := gradeAddr n e
  let (x, y) ← if da < ga then do
      let x ← beginM acc (.plain true) da 8 e
      let y ← beginM acc (.plain false) ga 2 e
      pure (x, y)
    else do
      let y ← beginM acc (.plain false) ga 2 e
      let x ← beginM acc (.plain true) da 8 e
      pure (x, y)
  modify fun s => (s.keepBegun x).keepBegun y

def execVldG (d : VReg) (a : GReg) (_t : FpF) (s : State) : Out :=
  runEl s { cls := .el, opA := .g a, dst := [d], addr := some (addrPure (unitAddr 8)), keepFxr := true } fun n e => do
    spillCheck .load n e
    -- an FP type code: a misaligned datum on a GT page is refused at its home too (R116)
    let (x, _) ← loadM (unitAddr 8 n e % 8 != 0) (.plain true) (unitAddr 8 n e) 8 e
    let (g, _) ← loadM false (.plain false) (gradeAddr n e) 2 e
    modify fun s => s.setV d e { val := BitVec.ofNat 64 x, grade := BitVec.ofNat 16 g }

def execVstG (r : VReg) (a : GReg) (_t : FpF) (s : State) : Out :=
  runEl s { cls := .el, opA := .g a, src := [r], addr := some (addrPure (unitAddr 8)), keepFxr := true } fun n e => do
    let x ← srcV r e
    spillCheck .store n e
    storeM true (.plain true) (.word x.grade) (unitAddr 8 n e) 8 x.val.toNat e
    performed true (unitAddr 8 n e) 8
    storeM true (.plain false) .int (gradeAddr n e) 2 x.grade.toNat e

/-! ### Prefetch (R124, R252) -/

/-- The lines of an element that vpre asks for: none where the element would fault, falls on a DV page, or lies in the scratch
window. -/
def preTouch (va e : Nat) : M Unit := fun s =>
  match placeM .load (.plain false) va 8 e s with
  | .ok ps t =>
    let dropped := ps.any fun p => p.loc.kind == 3 || match p.loc with
      | .mem key .. => decide (2 ^ 52 ≤ key) || !t.lineOk key p.len
      | _ => false
    .ok () (if dropped then t else ps.foldl (fun s p => s.touch p) t)
  | .error (.trap _) t => .ok () t
  | .error (.wait w) t => .error (.wait w) t

def execVpre (a : GReg) (s : State) : Out :=
  runEl s { cls := .el, opA := .g a, addr := some (addrPure strideAddr) } fun n e => preTouch (strideAddr n e) e

/-! ### Stream slots (R125, R126, R315, R330) -/

/-- The doublewords of the descriptor at an address. -/
def readDesc (va : Nat) : M (List Word) :=
  (upTo 4).mapM fun i => do
    let (x, _) ← loadM false (.plain false) (va + 8 * i) 8 0
    return BitVec.ofNat 64 x

/-- Field rules of Table 5-3. -/
def descOk (d : List Word) : Bool :=
  let d0 := nth d 0 0
  fld d0 63 16 == 0 && fld d0 11 4 == 0 && decide (fld d0 3 0 ≤ 3) && (fld d0 3 0 == 3 || fld d0 15 12 == 0) &&
  fld (nth d 1 0) 63 40 == 0

/-- The checks of a neighbour query, and the mesh version it binds (R315). -/
def meshBind (s : State) (t : ElTy) (d : List Word) : Option (Nat × Nat) :=
  let base := nth d 2 0
  let stride := nth d 3 0
  let h := fld base 15 0
  let v := fld base 63 32
  match s.meshes.find? (fun m => m.partn == s.st.partn && m.handle == h && m.region == s.st.region) with
  | none => none
  | some m =>
    match m.versions.find? (fun x => x.num == v) with
    | none => none
    | some x =>
      let first := fld stride 23 0
      let below := (x.entries.takeWhile fun w => decide (fld w 63 40 < first)).length
      if t = .int .l ∧ fld base 31 16 = 0 ∧ fld stride 63 24 = 0 ∧ first < x.cells.length ∧
          below + fld (nth d 1 0) 39 0 ≤ x.entries.length then some (h, v) else none

/-- The checks and the effect of `sbind`. A broadcast stream whose BASE lies outside the scratch window raises STREAM with ga
(assumption log 102). -/
def bindSlot (d : VReg) (b : Slot) (t : ElTy) (n : VEntry) : M Unit := do
  let ga := n.opA
  let bad {α : Type} : M α := raise cSTREAM ga 0
  if ga.toNat % 32 ≠ 0 then raise cPERM ga 0
  let w ← readDesc ga.toNat
  if !descOk w then bad
  let s ← get
  match s.boundSlot d with
  | some i => if i ≠ b then bad
  | none => pure ()
  let kind := fld (nth w 0 0) 3 0
  let level := fld (nth w 0 0) 15 12
  let base := nth w 2 0
  let mesh := if kind = 1 then meshBind s t w else none
  if kind = 1 ∧ mesh = none then bad
  if kind = 2 ∧ (t = .int .b ∨ t = .int .h ∨ t = .int .w) then bad
  if kind = 3 then
    needLevel level 0
    if nth s.phys level 0 ≠ 2 ∨ base.toNat < scratchBase ∨ vaTop ≤ base.toNat then bad
  let k : Stream :=
    { reg := d, ty := t, kind, level, len := fld (nth w 1 0) 39 0, base, stride := nth w 3 0, pos := 0, mesh }
  -- what the slot held is given up first, as by `sfree`
  modify fun s =>
    let s := { s with st := { s.st with k := s.st.k.set b none } }.pruneStreams
    { s with st := { s.st with k := s.st.k.set b (some k) } }

/-- With VL = 0 an instruction raises no fault but those of R53 (R72): what would trap has no effect (assumption log 44). -/
def quietIfEmpty (n : VEntry) (m : M Unit) : M Unit :=
  if n.vl = 0 then fun s => match m s with
    | .error (.trap _) _ => .ok () s
    | r => r
  else m

def execSbind (d : VReg) (a : GReg) (b : Slot) (t : ElTy) (s : State) : Out :=
  runVec s { cls := .wh, opA := .g a, zeroVl := true } fun n => quietIfEmpty n (bindSlot d b t n)

def execSfree (b : Slot) (s : State) : Out :=
  runVec s { cls := .wh, zeroVl := true } fun _ =>
    modify fun s => { s with st := { s.st with k := s.st.k.set b none } }.pruneStreams

def execSskip (a : GReg) (b : Slot) (s : State) : Out :=
  runVec s { cls := .wh, opA := .g a, zeroVl := true } fun n =>
    modify fun s =>
      let k := s.st.k[b].map fun k => { k with pos := min (k.pos + n.opA.toNat) k.len }
      { s with st := { s.st with k := s.st.k.set b k } }

/-- The result of `sstat` (Table 5-4). -/
def statWord (k : Option Stream) : Word :=
  match k with
  | none => 0
  | some k => BitVec.ofNat 64
    (2 ^ 63 + k.kind * 2 ^ 60 + k.reg.val * 2 ^ 54 + k.ty.code * 2 ^ 51 + k.remain % 2 ^ 40)

def execSstat (d : GReg) (b : Slot) (s : State) : Out :=
  runVec s { cls := .wh, zeroVl := true } fun _ => modify fun s => s.setG d (statWord s.st.k[b])

end Sys2Proof.Machine
end

