-- ==== Sys2Proof/Machine/Atomic.lean ====
section
/-!
DEFINITION. Atomics, fences and ordered accesses (R259–R281).
-/

namespace Sys2Proof.Machine

open Sys2Proof

/-! ### Ordering -/

/-- Scope of a level: package or domain (R270). -/
def State.wide (s : State) (l : Level) : Bool := decide (4 ≤ nth s.phys l.val 0)

/-- An acquire of package or domain scope brings the records appended to the log of its die into view (R270; assumption
log 16). -/
def State.acquire (s : State) (l : Level) : State :=
  if s.wide l then { s with st := { s.st with viewTail := s.dies[s.myDie].tail } } else s

/-- Wait for every earlier access of the strand: its queue, and the acknowledgements of its accesses through the fabric, which an
operation of package or domain scope waits for (R273, R282). A store to another die of the package is performed in the step that
makes it. -/
def settle : M Unit := do
  drained
  awaitTrains

/-! ### The operations of Table 15-1 -/

inductive AmoOp | add | min | max | minu | maxu | and | or | xor | swap | cas | fadd
  deriving DecidableEq, Repr

/-- The code of an operation and size (Table 15-1). -/
def amoCode (op : AmoOp) (n : Nat) : Nat :=
  match op with
  | .add => if n = 4 then 0 else 1
  | .min => 2 | .max => 3 | .minu => 4 | .maxu => 5 | .and => 6 | .or => 7 | .xor => 8
  | .swap => if n = 4 then 9 else 10
  | .cas => if n = 4 then 11 else 12
  | .fadd => if n = 4 then 13 else 14

/-- The operation of a code. -/
def amoOfCode (c : Nat) : AmoOp :=
  if c ≤ 1 then .add else if c = 2 then .min else if c = 3 then .max else if c = 4 then .minu else if c = 5 then .maxu
  else if c = 6 then .and else if c = 7 then .or else if c = 8 then .xor else if c ≤ 10 then .swap else if c ≤ 12 then .cas
  else .fadd
def amoSize (c : Nat) : Nat := if c = 0 ∨ c = 9 ∨ c = 11 ∨ c = 13 then 4 else 8

/-- The new value of an integer operation: old, operand and compare value of n bytes; none for a failed cas. -/
def amoInt (op : AmoOp) (n old x cmp : Nat) : Option Nat :=
  let w := 8 * n
  match op with
  | .add => some ((old + x) % 2 ^ w)
  | .min => some (if sx x w < sx old w then x else old)
  | .max => some (if sx old w < sx x w then x else old)
  | .minu => some (if x < old then x else old)
  | .maxu => some (if old < x then x else old)
  | .and => some (old &&& x)
  | .or => some (old ||| x)
  | .xor => some (old ^^^ x)
  | .swap => some x
  | .cas => if old = cmp then some x else none
  | .fadd => none

/-- Format of an FP atomic. -/
def amoFmt (n : Nat) : Fmt := if n = 4 then .f32 else .f64

/-- The sum of an FP atomic (R278): the memory value is operand a. -/
def amoSum (n : Nat) (rm : Rm) (old gold x gx : Nat) : FOut := fpArith (amoFmt n) rm false .add old x 0 gold gx 0

/-- The grade of the old value from a sidecar word: the whole word for 8 bytes, field j for 4 (R278). -/
def amoGrade (n va : Nat) (g : Option Grade) : Nat :=
  match g with
  | none => fmtP (amoFmt n)
  | some w => if n = 4 then gradeAt .f32 w (va / 4 % 2) else gradeAt .f64 w 0

/-- An FP atomic traps under those controls. -/
def amoTraps (ctl n : Nat) (r : FOut) : Bool := ctlTraps ctl (fmtP (amoFmt n)) r.flags [r.grade]

/-- What an atomic needs besides its place: operand and its grade, compare value, control word, and the check of an FP sum. -/
structure AmoArgs where
  op : AmoOp
  n : Nat
  x : Nat
  gx : Nat
  cmp : Nat
  ctl : Nat
  check : FOut → M Unit

/-- One atomic access (R266, R277, R278): the old value and its grade. -/
def atomicAt (k : AmoArgs) (va elem : Nat) : M (Nat × Nat) := do
  let (b, p) ← placeAtomic va k.n elem
  match p.loc with
  | .dev .. => raise cPERM (BitVec.ofNat 64 va) elem
  | .remote h a kind =>
    let y := if k.op = .fadd then k.ctl else k.cmp
    let g := if k.op = .fadd then some (BitVec.ofNat 16 k.gx) else none
    let (old, go) ← keeping b (do
      kindOrder kind none
      remoteOp 2 (1 + amoCode k.op k.n) h a k.n k.x y g va elem (·.touch p))
    let gold := amoGrade k.n va go
    if k.op = .fadd then k.check (amoSum k.n (rmOfCode (k.ctl % 4)) old gold k.x k.gx)
    return (old, gold)
  | .mem key _ sc =>
    let fp := k.op == .fadd
    let (old, go) ← keeping b (readPart fp true va elem p)
    let gold := amoGrade k.n va go
    match k.op with
    | .fadd =>
      let r := amoSum k.n (rmOfCode (k.ctl % 4)) old gold k.x k.gx
      k.check r
      let side : Side := if k.n = 4 then .byte r.grade else .word (gradeWord .f64 [r.grade])
      modify fun s => (s.storeBytes key k.n r.pat).storeSide key k.n sc side
    | op =>
      match amoInt op k.n old k.x k.cmp with
      | some y => modify fun s => (s.storeBytes key k.n y).storeSide key k.n sc .int
      | none => pure ()
    modify fun s => s.touch p
    return (old, gold)

/-! ### Scalar atomics -/

/-- A scalar atomic on n bytes. -/
def amoScalar (op : AmoOp) (n : Nat) (d a b : GReg) (l : Level) : M Unit := do
  hazard [d, a, b] []
  needLevel l.val 0
  settle
  let s ← get
  let w := 2 ^ (8 * n)
  let (old, _) ← atomicAt
    { op, n, x := (s.g b).toNat % w, gx := fmtP (amoFmt n), cmp := (s.g d).toNat % w,
      ctl := amoCtl s.st.ctl.fcr s.st.ctl.gth.toNat s.isRestart,
      check := fun r => do
        scalarFlags r.flags
        scalarGrade (fmtP (amoFmt n)) r.grade } (s.g a).toNat 0
  modify fun s => (s.setG d (if op = .fadd then BitVec.ofNat 64 old else sextWord old (8 * n))).acquire l

def execAmoAddW (d a b : GReg) (l : Level) (s : State) : Out := runScalar s (amoScalar .add 4 d a b l)
def execAmoAddL (d a b : GReg) (l : Level) (s : State) : Out := runScalar s (amoScalar .add 8 d a b l)
def execAmoMinL (d a b : GReg) (l : Level) (s : State) : Out := runScalar s (amoScalar .min 8 d a b l)
def execAmoMaxL (d a b : GReg) (l : Level) (s : State) : Out := runScalar s (amoScalar .max 8 d a b l)
def execAmoMinuL (d a b : GReg) (l : Level) (s : State) : Out := runScalar s (amoScalar .minu 8 d a b l)
def execAmoMaxuL (d a b : GReg) (l : Level) (s : State) : Out := runScalar s (amoScalar .maxu 8 d a b l)
def execAmoAndL (d a b : GReg) (l : Level) (s : State) : Out := runScalar s (amoScalar .and 8 d a b l)
def execAmoOrL (d a b : GReg) (l : Level) (s : State) : Out := runScalar s (amoScalar .or 8 d a b l)
def execAmoXorL (d a b : GReg) (l : Level) (s : State) : Out := runScalar s (amoScalar .xor 8 d a b l)
def execAmoSwapW (d a b : GReg) (l : Level) (s : State) : Out := runScalar s (amoScalar .swap 4 d a b l)
def execAmoSwapL (d a b : GReg) (l : Level) (s : State) : Out := runScalar s (amoScalar .swap 8 d a b l)
def execAmoCasW (d a b : GReg) (l : Level) (s : State) : Out := runScalar s (amoScalar .cas 4 d a b l)
def execAmoCasL (d a b : GReg) (l : Level) (s : State) : Out := runScalar s (amoScalar .cas 8 d a b l)
def execAmoFaddF32 (d a b : GReg) (l : Level) (s : State) : Out := runScalar s (amoScalar .fadd 4 d a b l)
def execAmoFaddF64 (d a b : GReg) (l : Level) (s : State) : Out := runScalar s (amoScalar .fadd 8 d a b l)

/-! ### Vector atomics (R278, R279) -/

/-- The level check of an EL form, made before any element (R272). -/
def elLevel (n : VEntry) (l : Level) : M Unit := do
  let v := (← get).st.ctl.vei.toNat
  if v < n.vl ∧ n.sent = false then needLevel l.val v

/-- An EL instruction with a level: checked, run when the trains of earlier accesses have been acknowledged (R261, R273), and its
acquire taken. -/
def runLevelEl (s : State) (k : VInfo) (l : Level) (acq : Bool) (body : VEntry → Nat → M Unit) : Out :=
  runVec s { k with cls := .el } fun n => do
    elLevel n l
    if n.sent = false ∧ (← get).st.ctl.vei.toNat < n.vl then awaitTrains
    elBody body n
    if acq then modify fun s => s.acquire l

/-- A vector atomic on n bytes. -/
def amoVector (op : AmoOp) (n : Nat) (d : VReg) (a : GReg) (b : VReg) (l : Level) (s : State) : Out :=
  runLevelEl s { cls := .el, opA := .g a, dst := [d], src := [b], addr := some (addrM (indexAddr b)) } l true fun k e => do
    let va ← indexAddr b k e
    let x := (← get).v d e
    let f := amoFmt n
    let quiet := match k.restart with | some r => decide (e ≤ r) | none => false
    let (old, gold) ← atomicAt
      { op, n, x := x.val.toNat % 2 ^ (8 * n), gx := gradeAt f x.grade 0, cmp := 0,
        ctl := amoCtl k.fcr k.gth quiet,
        check := fun r => fpTraps k e r.flags (fmtP f) [r.grade] (gradeWord f [r.grade]) } va e
    modify fun s => s.setV d e (match op with
      | .fadd => { val := BitVec.ofNat 64 old, grade := gradeWord f (if n = 4 then [gold, 0] else [gold]) }
      | _ => { val := sextWord old (8 * n), grade := 0xFFFF })

def execVamoAddW (d : VReg) (a : GReg) (b : VReg) (l : Level) (s : State) : Out := amoVector .add 4 d a b l s
def execVamoAddL (d : VReg) (a : GReg) (b : VReg) (l : Level) (s : State) : Out := amoVector .add 8 d a b l s
def execVamoMinL (d : VReg) (a : GReg) (b : VReg) (l : Level) (s : State) : Out := amoVector .min 8 d a b l s
def execVamoMaxL (d : VReg) (a : GReg) (b : VReg) (l : Level) (s : State) : Out := amoVector .max 8 d a b l s
def execVamoMinuL (d : VReg) (a : GReg) (b : VReg) (l : Level) (s : State) : Out := amoVector .minu 8 d a b l s
def execVamoMaxuL (d : VReg) (a : GReg) (b : VReg) (l : Level) (s : State) : Out := amoVector .maxu 8 d a b l s
def execVamoAndL (d : VReg) (a : GReg) (b : VReg) (l : Level) (s : State) : Out := amoVector .and 8 d a b l s
def execVamoOrL (d : VReg) (a : GReg) (b : VReg) (l : Level) (s : State) : Out := amoVector .or 8 d a b l s
def execVamoXorL (d : VReg) (a : GReg) (b : VReg) (l : Level) (s : State) : Out := amoVector .xor 8 d a b l s
def execVamoSwapW (d : VReg) (a : GReg) (b : VReg) (l : Level) (s : State) : Out := amoVector .swap 4 d a b l s
def execVamoSwapL (d : VReg) (a : GReg) (b : VReg) (l : Level) (s : State) : Out := amoVector .swap 8 d a b l s
def execVamoFaddF32 (d : VReg) (a : GReg) (b : VReg) (l : Level) (s : State) : Out := amoVector .fadd 4 d a b l s
def execVamoFaddF64 (d : VReg) (a : GReg) (b : VReg) (l : Level) (s : State) : Out := amoVector .fadd 8 d a b l s

/-! ### Fences and ordered accesses (R274–R276) -/

def execFence (l : Level) (s : State) : Out :=
  runScalar s (do
    needLevel l.val 0
    settle
    modify fun s => s.acquire l)

def execFenceAcq (l : Level) (s : State) : Out :=
  runScalar s (do
    needLevel l.val 0
    settle
    modify fun s => s.acquire l)

def execFenceRel (l : Level) (s : State) : Out :=
  runScalar s (do
    needLevel l.val 0
    settle)

/-- A scalar acquire load of n bytes. -/
def loadAcq (n : Nat) (d a : GReg) (l : Level) : M Unit := do
  hazard [d, a] []
  needLevel l.val 0
  let va := ((← get).g a).toNat
  levelHazard
  awaitTrains
  memHazard va n
  let (x, _) ← loadM false (.natural true) va n 0
  modify fun s => (s.setG d (sextWord x (8 * n))).acquire l

def execLdAcqW (d a : GReg) (l : Level) (s : State) : Out := runScalar s (loadAcq 4 d a l)
def execLdAcqL (d a : GReg) (l : Level) (s : State) : Out := runScalar s (loadAcq 8 d a l)

/-- A scalar release store of n bytes. -/
def storeRel (n : Nat) (r a : GReg) (l : Level) : M Unit := do
  hazard [r, a] []
  needLevel l.val 0
  settle
  let s ← get
  storeM false (.natural true) .int (s.g a).toNat n ((s.g r).toNat % 2 ^ (8 * n)) 0

def execStRelW (r a : GReg) (l : Level) (s : State) : Out := runScalar s (storeRel 4 r a l)
def execStRelL (r a : GReg) (l : Level) (s : State) : Out := runScalar s (storeRel 8 r a l)

/-- A vector acquire load: unit stride, 8-byte alignment (R276). -/
def vLoadAcq (t : ElTy) (d : VReg) (a : GReg) (l : Level) (s : State) : Out :=
  runLevelEl s { cls := .el, opA := .g a, dst := [d], addr := some (addrPure (unitAddr 8)), keepFxr := true } l true fun n e => do
    let x ← loadEl (fun _ => .natural false) t (unitAddr 8 n e) e
    modify fun s => s.setV d e x

def execVldAcqL (d : VReg) (a : GReg) (l : Level) (s : State) : Out := vLoadAcq (.int .l) d a l s
def execVldAcqF64 (d : VReg) (a : GReg) (l : Level) (s : State) : Out := vLoadAcq (.fp .f64) d a l s

/-- A vector release store; a bound register named as vs raises STREAM (R276). -/
def vStoreRel (t : ElTy) (r : VReg) (a : GReg) (l : Level) (s : State) : Out :=
  runLevelEl s { cls := .el, opA := .g a, dst := [r], addr := some (addrPure (unitAddr 8)), keepFxr := true } l false fun n e => do
    storeEl (fun _ => .natural false) t (unitAddr 8 n e) ((← get).v r e) e

def execVstRelL (r : VReg) (a : GReg) (l : Level) (s : State) : Out := vStoreRel (.int .l) r a l s
def execVstRelF64 (r : VReg) (a : GReg) (l : Level) (s : State) : Out := vStoreRel (.fp .f64) r a l s

/-! ### tl.acq and vsync (R280, R281) -/

/-- The tail is read once; the records below it are then awaited (R280). -/
def execTlAcq (s : State) : Out :=
  runScalar s (do
    let s ← get
    let d := s.dies[s.myDie]
    let tail := s.st.tailRead.getD d.tail
    if tail ≤ d.tail - d.log.length then
      set { s with st := { s.st with viewTail := max s.st.viewTail tail, tailRead := none } }
    else
      set { s with st := { s.st with tailRead := some tail } }
      waitFor .tlAcq)

def execVsync (s : State) : Out := runVec s { cls := .wh, zeroVl := true, noCapture := true } fun _ => awaitTrains

end Sys2Proof.Machine
end

