-- ==== Sys2Proof/Machine/Agent.lean ====
section
/-!
DEFINITION. Accesses that an engine or the control die makes for a strand or a launch (R284, R348, R349, R403): by address,
through a walk of their own, with no cache.
-/

namespace Sys2Proof.Machine

open Sys2Proof

/-- On whose behalf an access is made: partition, region and mode; the core whose die serves the scratch window; and, for an
engine or the control die, the number under which its accesses through fabric windows are kept; 0 for the control die, which
reaches no scratch. -/
structure Agent where
  partn : Nat
  region : Nat
  mode : Mode
  core : Nat
  op : Nat
  deriving DecidableEq, Repr

/-- The binder's accesses for a launch (R348; assumption log 18). -/
def Launch.agent (l : Launch) : Agent := { partn := l.partn, region := l.region, mode := .s, core := 0, op := 0 }

/-- Under which name the host knows the walks of an agent: an engine's of a strand, the control die's (R409). A strand's own are
known by its number. -/
def Agent.who (a : Agent) (sn : Nat) : Nat := if a.op = 0 then 65536 else (a.op + 1) * 65536 + sn % 65536
/-- Those of accesses that other packages ask for. -/
def inboundWho : Nat := 2 ^ 30
/-- The die an agent reaches memory from (R447). -/
def Agent.die (a : Agent) : Nat := if a.op = 0 then controlDie else (coreDie a.core).val

/-- The place of a byte (R284, R398): a device register is no place for an engine. -/
def agentLoc (a : Agent) (acc : Acc) (va : Nat) : M Loc := do
  let s ← get
  let tv : Word := BitVec.ofNat 64 va
  if vaTop ≤ va then raise cXLATE tv 0
  else if scratchBase ≤ va then
    let d := coreDie a.core
    if a.op = 0 ∨ s.scratchOk d.val a.partn va = false then raise cXLATE tv 0
    else if s.dies[d].cut then raise cLINK tv 0
    else pure (.mem (scratchKey d.val (va - scratchBase)) 1 none)
  else if s.linkDown a.die controlDie then waitFor .fabric
  else
    match ← walkM (a.who s.st.sn) a.partn a.region acc va with
    | .error c => raise c tv 0
    | .ok (leaf, large) =>
      match (← get).leafLoc a.partn a.region a.mode acc leaf large va with
      | .error c => raise c tv 0
      | .ok (.dev ..) => raise cPERM tv 0
      | .ok (.remote h x k) => do
        if k = 3 then raise cPERM tv 0
        remapOk h va 0
        pure (.remote h x k)
      | .ok (.mem key kind sc) =>
        reach a.die ((Loc.mem key kind sc).homes (acc != .load)) tv 0
        pure (.mem key kind sc)

/-- Note the lines that an engine touches, for REQE (R252); scratch counts nowhere. -/
def State.touchEngine (s : State) (loc : Loc) (n : Nat) : State :=
  let note := fun (s : State) (k : Nat) => { s with st := { s.st with lines := insertAsc s.st.lines (4 * 2 ^ 70 + k) } }
  match loc with
  | .dev .. => s
  | .remote h x _ => (upTo ((x + n - 1) / 64 - x / 64 + 1)).foldl (fun s i => note s (2 ^ 60 + h * 2 ^ 49 + x / 64 + i)) s
  | .mem key .. =>
    if 2 ^ 52 ≤ key then s
    else (upTo ((key + n - 1) / 64 - key / 64 + 1)).foldl (fun s i => note s (key / 64 + i)) s

/-- Where the sidecar word of a unit is known from: its bytes of a local GT page, or what a remote page returned (R402). -/
inductive Sidecar | at_ (key : Nat) | word (g : Grade)
  deriving DecidableEq, Repr

/-- What an engine's load asks of a remote page besides the bytes: the sidecar word of their unit, where there is one. -/
def engineNote : Nat := 3

/-- Read n bytes on one page: their value, and the sidecar of the unit of the first byte on a GT page. -/
def agentReadPart (a : Agent) (va n : Nat) : M (Nat × Option Sidecar) := do
  match ← agentLoc a .load va with
  | .dev .. => raise cPERM (BitVec.ofNat 64 va) 0
  | .remote h x k =>
    let (r, g) ← remoteOp (if a.op = 0 then 72 else a.op) 0 h x n engineNote 0 none va 0 (·.touchEngine (.remote h x k) n)
    pure (r, g.map .word)
  | .mem key kind sc =>
    let s ← get
    if !s.lineOk key n then raise cMEMERR (BitVec.ofNat 64 (va + s.badOff key n)) 0
    else
      set (s.touchEngine (.mem key kind sc) n)
      pure (Memory.readN s.mem key n, sc.map .at_)

/-- Read n bytes, at most a page of them. -/
def agentRead (a : Agent) (va n : Nat) : M Nat := do
  let n0 := headLen va n
  let (x, _) ← agentReadPart a va n0
  if n0 = n then pure x
  else
    let (y, _) ← agentReadPart a (va + n0) (n - n0)
    pure (x + y * 2 ^ (8 * n0))

/-- Read consecutive doublewords. -/
def agentWords (a : Agent) (va : Nat) : Nat → M (List Word)
  | 0 => pure []
  | n + 1 => do
    let x ← agentRead a va 8
    let r ← agentWords a (va + 8) n
    pure (BitVec.ofNat 64 x :: r)

/-- The train that an engine has gathered leaves, once, and its acknowledgement is awaited (R269): what its command writes next
is performed after it (R255). -/
def engineFlush (op : Nat) : M Unit := do
  let s ← get
  match s.st.trains with
  | [] => pure ()
  | t :: _ =>
    match s.st.remote.find? fun r => r.op == op + 1 && decide (s.trainElems r.tag = s.st.trains) with
    | some r =>
      if r.answer.isSome then set { s with st := { s.st with trains := [] } } else waitFor .fabric
    | none => sendTrain (op + 1) t.handle s.st.trains; waitFor .fabric

/-- Write n bytes on one page; a store through a fabric window is gathered for the command's train (R269), and the control die's
is sent at once. -/
def agentWritePart (a : Agent) (va n x : Nat) (side : Side) : M Unit := do
  match ← agentLoc a .store va with
  | .dev .. => raise cPERM (BitVec.ofNat 64 va) 0
  | .remote h y k =>
    let t : TrainOut := { handle := h, kind := 0, addr := y, len := n, val := x, grade := side.grade,
                           ty := match side with | .word _ => 2 | _ => 0, fcr := 0, va, elem := 0, ctl := 0, strong := false }
    if a.op = 0 then sendTrain 73 h [t]
    else
      if (← get).st.trains.any fun u => u.handle != h then engineFlush a.op
      gather t
      modify fun s => s.touchEngine (.remote h y k) n
  | .mem key kind sc =>
    if a.op ≠ 0 then engineFlush a.op
    asPartn a.partn (modify fun s => ((s.touchEngine (.mem key kind sc) n).storeBytes key n x).storeSide key n sc side)

/-- Write n bytes, at most a page of them; both pages are checked before either is written. -/
def agentWrite (a : Agent) (va n x : Nat) (side : Side) : M Unit := do
  let n0 := headLen va n
  if n0 = n then agentWritePart a va n x side
  else
    let _ ← agentLoc a .store va
    let _ ← agentLoc a .store (va + n0)
    agentWritePart a va n0 (x % 2 ^ (8 * n0)) side
    agentWritePart a (va + n0) (n - n0) (x / 2 ^ (8 * n0)) side

/-- The place of every page of a range allows an access. -/
def agentCheck (a : Agent) (acc : Acc) (va : Nat) : Nat → M Unit
  | 0 => pure ()
  | n + 1 => do
    let _ ← agentLoc a acc va
    agentCheck a acc ((va / 65536 + 1) * 65536) n

/-- Number of 64 KiB pages that n bytes touch. -/
def pagesOf (va n : Nat) : Nat := if n = 0 then 0 else (va + n - 1) / 65536 - va / 65536 + 1

/-! ### Waiting in the middle -/

/-- What an attempt that has to wait leaves: the requests it sent, the walks it posted, and the leaves of the host it found
stale. -/
def State.keepPosts (s t : State) : State :=
  { s with
    hostPosts := t.hostPosts, hostLeaves := t.hostLeaves, fabricOut := t.fabricOut, nextTag := t.nextTag,
    st := { s.st with remote := t.st.remote } }

/-- A computation that happens whole: where it has to wait, or trap, nothing of it has happened but what it asked for. -/
def atomically {α : Type} (m : M α) : M α := fun s =>
  match m s with
  | .ok x t => .ok x t
  | .error e t => .error e (s.keepPosts t)

/-- The same of the waits alone: what a trap leaves stands. The lines touched are noted as they were. -/
def wholly {α : Type} (m : M α) : M α := fun s =>
  match m s with
  | .error (.wait w) t => .error (.wait w) (let k := s.keepPosts t; { k with st := { k.st with lines := t.st.lines } })
  | r => r

/-- The host's leaves of a walker have served, and what it has asked for is not waited for any more. -/
def State.dropLeaves (s : State) (who : Nat) : State :=
  { s with
    hostLeaves := s.hostLeaves.filter fun l => l.1 != who
    hostPosts := s.hostPosts.filter fun p => match p with | .walk w .. => w != who | _ => true }

/-- A write of the binder: one that does not translate, or is not allowed, is dropped (R349). -/
def binderStore (l : Launch) (va n x : Nat) : M Unit := fun s =>
  match agentWrite l.agent va n x .int s with
  | .ok _ t => .ok () { t with st := { t.st with lines := s.st.lines } }
  | .error (.trap _) _ => .ok () s
  | .error (.wait w) t => .error (.wait w) t

/-- The accesses of the control die through fabric windows stand in for the strand's while it works (assumption log 83). -/
def State.asControl (s : State) : State := { s with st := { s.st with remote := s.binderRemote, trains := [] } }
/-- And are put back; those answered have been used when the work is done. -/
def State.fromControl (s t : State) (used : Bool) : State :=
  { t with
    binderRemote := if used then t.st.remote.filter fun r => r.answer.isNone else t.st.remote
    st := { t.st with remote := s.st.remote, trains := s.st.trains, lines := s.st.lines } }

/-- What another package asks for: no access of this one stands in its way. -/
def runInbound (s : State) (m : M Unit) : Out :=
  match m s with
  | .ok _ t => .next (t.dropLeaves inboundWho)
  | .error _ t => .next (s.keepPosts t)

/-- An event of the package that needs no strand: what it leaves when it has to wait, or cannot happen, is what it asked for. -/
def runEvent (s : State) (m : M Unit) : Out :=
  match m s.asControl with
  | .ok _ t => .next (s.fromControl (t.dropLeaves 65536) true)
  | .error _ t => .next (s.fromControl (s.asControl.keepPosts t) false)

end Sys2Proof.Machine
end

