-- ==== Sys2Proof/Machine/House.lean ====
section
/-!
DEFINITION. Houses at run time: units and who may sit where (Table 21-1, R352, R362, R363), the strands of a house, how a
house retires and a launch ends (R349, R359).
-/

namespace Sys2Proof.Machine

open Sys2Proof

/-! ### Units -/

/-- A core is enabled, and its die not cut off (R18, R28, R447). -/
def State.coreOn (s : State) (c : Nat) : Bool :=
  let d := coreDie c
  decide (c < 512) && dieOk s.diecfg[d] && !s.dies[d].cut && decide (c % 16 < dieScores s.diecfg[d] (c / 16 % 8))

/-- A unit of a physical code contains a core. -/
def unitHas (code unit core : Nat) : Bool :=
  if code ≤ 1 then core == unit
  else if code = 2 then core / 16 == unit
  else if code = 3 then core / 128 == unit
  else true

/-- The lowest bound unit above a level-0 instance: physical code and number (R352); the package for a roster of one
level. -/
def Launch.unitOf (l : Launch) (i : Nat) : Nat × Nat :=
  (nth l.phys 1 4, ((l.insts[i]?).map (·.home)).getD 0)

/-- A strand may sit on a core: its unit contains it, it is enabled, and the strand's partition holds the section (R363). -/
def State.mayUse (s : State) (t : Strand) (core : Nat) : Bool :=
  match s.launch? t.sched.lid with
  | none => false
  | some l =>
    let (code, unit) := l.unitOf t.sched.inst
    s.coreOn core && unitHas code unit core && partSect (s.part t.partn) (core / 16) && !s.suspended.contains t.partn

/-- A candidate for a seat of a core (R363). -/
def State.candidate (s : State) (t : Strand) (core : Nat) : Bool := t.sched.status == .ready && s.mayUse t core

/-! ### Strands of a house -/

/-- The record of an instance. -/
def Launch.house (l : Launch) (x : Inst) : Option House := l.houses[x.record]?
/-- The declared level of an instance. -/
def Launch.levelOf (l : Launch) (i : Nat) : Nat := (((l.insts[i]?).bind l.house).map (·.level)).getD 0

/-- Instance h is instance i or one of its ancestors. -/
def Launch.underFrom (l : Launch) (h : Nat) : Nat → Nat → Bool
  | 0, i => i == h
  | n + 1, i => i == h || match (l.insts[i]?).bind (·.parent) with
    | some p => l.underFrom h n p
    | none => false
def Launch.under (l : Launch) (h i : Nat) : Bool := l.underFrom h 16 i

/-- The level-0 instances of a house, in pre-order. -/
def Launch.leaves (l : Launch) (h : Nat) : List Nat :=
  (upTo l.insts.length).filter fun i => l.levelOf i == 0 && l.under h i
def Launch.children (l : Launch) (h : Nat) : List Nat :=
  (upTo l.insts.length).filter fun i => ((l.insts[i]?).bind (·.parent)) == some h
def Launch.statusOf (l : Launch) (i : Nat) : InstStatus := ((l.insts[i]?).map (·.status)).getD .ended
def Launch.mapInst (l : Launch) (i : Nat) (f : Inst → Inst) : Launch :=
  match l.insts[i]? with
  | some x => { l with insts := listSet l.insts i (f x) }
  | none => l
/-- Live strands of a house (R378). -/
def Launch.liveLeaves (l : Launch) (h : Nat) : List Nat := (l.leaves h).filter fun i => l.statusOf i == .live

/-- The strand's instance at a level. -/
def State.houseAt (s : State) (level : Nat) : Option (Launch × Nat × Inst) :=
  match s.launch? s.st.sched.lid with
  | none => none
  | some l =>
    match ancestorAt l level s.st.sched.inst with
    | none => none
    | some i => (l.insts[i]?).map fun x => (l, i, x)

/-! ### Other packages of a launch (R348) -/

/-- The package of a unit is this one. -/
def State.isHere (s : State) (l : Launch) (pkg : Nat) : Bool := nth l.pkgs pkg 0 == s.handle.toNat
/-- The other packages of a launch. -/
def State.farPkgs (s : State) (l : Launch) : List Nat := (l.pkgs.filter fun h => h != s.handle.toNat).eraseDups
/-- The other packages of a launch learn of the status of an instance. -/
def State.tellInst (s : State) (l : Launch) (i : Nat) (st : InstStatus) (ranges : List Claim) : State :=
  if (s.farPkgs l).isEmpty then s else s.tell (.inst (s.launchHome l) (l.lid % 2 ^ 32) i st ranges)

/-! ### Retirement and the end of a launch (R349, R359) -/

/-- A house retires when each of its children has retired or been withdrawn, at least one of them retired; then its parent is
considered. -/
def Launch.retireUp : Nat → Launch → Nat → Launch
  | 0, l, _ => l
  | n + 1, l, h =>
    let kids := (l.children h).map l.statusOf
    if l.statusOf h = .live ∧ kids.contains .retired = true ∧
        kids.all (fun k => k == .retired || k == .withdrawn) = true then
      let l := l.mapInst h fun x => { x with status := .retired }
      match (l.insts[h]?).bind (·.parent) with
      | some p => Launch.retireUp n l p
      | none => l
    else l

/-- A strand's instance has retired: so may the houses above it. -/
def Launch.retireLeaf (l : Launch) (i : Nat) : Launch :=
  let l := l.mapInst i fun x => { x with status := .retired }
  match (l.insts[i]?).bind (·.parent) with
  | some p => l.retireUp 16 p
  | none => l

/-- The strands in a subtree that is to be withdrawn: the MIDs of those not retired or withdrawn yet. -/
def Launch.goingStrands (l : Launch) (h : Nat) : List Nat :=
  (l.leaves h).filterMap fun i =>
    if l.statusOf i = .retired ∨ l.statusOf i = .withdrawn then none else (l.insts[i]?).bind (·.mid)

/-- The houses from h upward learn of the withdrawal of strands: a withdrawal that the next episode of a house counts, where some
strand of them has not arrived at that episode itself (R378). -/
def Launch.noteWithdrawal (gone : List Nat) : Nat → Launch → Nat → Launch
  | 0, l, _ => l
  | n + 1, l, h =>
    let l := l.mapInst h fun x => { x with newWithdrawal := x.newWithdrawal || gone.any fun m => !x.arrived.contains m }
    match (l.insts[h]?).bind (·.parent) with
    | some p => Launch.noteWithdrawal gone n l p
    | none => l

/-- STATUS of an accepted launch (Table 21-5). -/
def statusWord (lid cause : Nat) : Nat := lid * 2 ^ 32 + cause

/-- The binder writes STATUS and sends the event of kind 1 (R349). -/
def binderStatus (l : Launch) (status : Nat) : M Unit := do
  binderStore l (l.recordAddr + 56) 8 status
  modify fun s => s.event (fnIx l.fn) [1, BitVec.ofNat 64 status, BitVec.ofNat 64 l.recordAddr]

/-- The launch ends with a cause, its reservations and its numbers free again (R353, R359); its other packages are told. -/
def endLaunch (l : Launch) (cause : Nat) : M Unit := do
  let status := statusWord l.lid cause
  modify fun s => (s.farPkgs l).foldl (fun s h => s.tell (.launchOver h s.handle.toNat l.lid)) (s.setLaunch { l with live := false, status })
  binderStatus l status

/-- Put back a launch whose instances have changed, and end it when its root has retired: one of another package ends there. -/
def settleLaunch (l : Launch) : M Unit := do
  modify fun s => s.setLaunch l
  if l.live ∧ l.origin = none ∧ l.statusOf 0 = .retired then endLaunch l 0x40

end Sys2Proof.Machine
end

