-- ==== Sys2Proof/Machine/Binder.lean ====
section
/-!
DEFINITION. The binder: launches (R345–R355) and house faults (R357–R359).
-/

namespace Sys2Proof.Machine

open Sys2Proof

/-! ### Launch faults (Table 21-5) -/

/-- A launch fault: cause, record, level. -/
def launchFault {α : Type} (cause record level : Nat) : M α := raise (512 + cause) 0 (record * 16 + level % 16)
def lfBIND : Nat := 1
def lfNOFIT : Nat := 2
def lfDEPTH : Nat := 3
def lfBUDGET : Nat := 4
def lfPRIO : Nat := 5
def lfFORMAT : Nat := 6
def lfXLATE : Nat := 7

def needForm (ok : Bool) (cause record level : Nat) : M Unit := if ok then pure () else launchFault cause record level

/-! ### Form (Tables 21-2, 21-3, 21-4, R347) -/

/-- A launch as its record names it, before it is accepted. -/
def launchOf (fn partn region addr : Nat) (d : List Word) : Launch :=
  { lid := 0, origin := none, live := false, fn, partn, region, recordAddr := addr, phys := [], houses := [], insts := [], arg := nth d 2 0,
    flog := (nth d 3 0).toNat, flogn := fld (nth d 4 0) 15 0, flogIdx := 0, seq := 0, range := (nth d 5 0).toNat,
    rangen := fld (nth d 4 0) 63 32, rangeNext := 0, pkgs := [], status := 0, faults := [] }

/-- The field rules of the launch record. -/
def recordOk (d : List Word) : Bool :=
  fld (nth d 0 0) 63 55 == 0 && fld (nth d 1 0) 63 37 == 0 && fld (nth d 1 0) 36 35 != 3 && fld (nth d 3 0) 63 55 == 0 &&
  fld (nth d 3 0) 5 0 == 0 && fld (nth d 4 0) 15 0 != 0 && decide (fld (nth d 4 0) 31 16 ≤ 640) && fld (nth d 5 0) 63 55 == 0 &&
  fld (nth d 6 0) 63 55 == 0

/-- STATUS, the fault ring and the range area can be written (R349). -/
def probeAreas (l : Launch) : M Unit := do
  let a := l.agent
  agentCheck a .store (l.recordAddr + 56) (pagesOf (l.recordAddr + 56) 8)
  agentCheck a .store l.flog (pagesOf l.flog (64 * l.flogn))
  agentCheck a .store l.range (pagesOf l.range (24 * l.rangen))

/-- A house record as it stands in the roster. -/
structure RawHouse where
  w0 : Word
  w1 : Word
  w2 : Word
  w3 : Word

def RawHouse.level (r : RawHouse) : Nat := fld r.w0 3 0
def RawHouse.nchild (r : RawHouse) : Nat := fld r.w0 47 32
def RawHouse.count (r : RawHouse) : Nat := fld r.w0 63 48
/-- The rules of the record's own fields but LEVEL, NCHILD, ENTRY and SUBTREE. -/
def RawHouse.ok (r : RawHouse) (root : Bool) : Bool :=
  r.count != 0 && (!root || r.count == 1) && fld r.w0 31 22 == 0 && fld r.w0 21 20 != 3 && fld r.w0 19 19 == 0 &&
  fld r.w0 15 11 == 0 && fld r.w0 7 4 == 0 && fld r.w1 63 32 == 0 && fld r.w2 63 55 == 0 && fld r.w3 63 16 == 0
/-- ENTRY is a multiple of 4 at level 0, and zero above. -/
def RawHouse.entryOk (r : RawHouse) : Bool := if r.level = 0 then fld r.w2 1 0 == 0 else r.w2 == 0

/-- The rules of a record by itself: FORMAT, DEPTH, FORMAT (assumption log 60). -/
def checkRaw (r : RawHouse) (lvl i : Nat) : M Unit := do
  needForm (r.ok (i == 0)) lfFORMAT i r.level
  needForm (r.level == lvl && (r.nchild == 0) == (r.level == 0)) lfDEPTH i r.level
  needForm r.entryOk lfFORMAT i r.level

/-- The subtree of a record of a level: the index after it. -/
def checkTree (rs : List RawHouse) : Nat → Nat → M Nat
  | 0, i => do
    match rs[i]? with
    | none => launchFault lfFORMAT 0 0
    | some r =>
      checkRaw r 0 i
      needForm (fld r.w3 15 0 == 1) lfFORMAT i 0
      pure (i + 1)
  | lvl + 1, i => do
    match rs[i]? with
    | none => launchFault lfFORMAT 0 0
    | some r =>
      checkRaw r (lvl + 1) i
      let j ← (upTo r.nchild).foldlM (fun j _ => do
        needForm (decide (j < rs.length)) lfFORMAT i r.level
        checkTree rs lvl j) (i + 1)
      needForm (fld r.w3 15 0 == j - i) lfFORMAT i r.level
      pure j

/-- The roster's header, level table and records. -/
def readRoster (a : Agent) (ra : Nat) : M (List Nat × List RawHouse) := do
  needForm (ra % 8 == 0) lfFORMAT 0 0
  let h ← agentWords a ra 2
  let t ← agentWords a (ra + 16) 2
  let nh := fld (nth h 0 0) 47 32
  let nlev := fld (nth h 0 0) 7 0
  needForm (fld (nth h 0 0) 63 48 == 0 && decide (1 ≤ nh) && decide (nh ≤ 4096) && fld (nth h 0 0) 31 8 == 0 && nth h 1 0 == 0)
    lfFORMAT 0 0
  needForm (decide (1 ≤ nlev) && decide (nlev ≤ 16)) lfDEPTH 0 0
  let codes := (upTo 16).map fun n => fld (nth t (n / 8) 0) (8 * (n % 8) + 7) (8 * (n % 8))
  needForm ((codes.drop nlev).all (fun c => c == 0) && (codes.take nlev).all fun c => decide (c ≤ 6)) lfFORMAT 0 0
  let rs ← (upTo nh).mapM fun i => do
    let w ← agentWords a (ra + 32 + 32 * i) 4
    pure ({ w0 := nth w 0 0, w1 := nth w 1 0, w2 := nth w 2 0, w3 := nth w 3 0 } : RawHouse)
  let n ← checkTree rs (nlev - 1) 0
  needForm (n == nh) lfFORMAT 0 (nlev - 1)
  pure (codes.take nlev, rs)

/-- The level table under R352 item 1. -/
def checkOrder (phys : List Nat) : M Unit := do
  for n in upTo phys.length do
    let c := nth phys n 0
    let ok := if n = 0 then c == 0 else c != 0 && c != 6 && decide (nth phys (n - 1) 0 ≤ c)
    needForm ok lfBIND 0 n

/-! ### Effective values (R350, R351) -/

/-- The effective values that a house hands down: priority, policy and weight. -/
structure Eff where
  prio : Nat
  policy : Nat
  weight : Nat

/-- A record with its effective values; `top` is the priority that it must not exceed, `own` that the budget is its own. -/
def effHouse (r : RawHouse) (up : Eff) (budget : Word) (own : Bool) : House :=
  let weight := fld budget 31 16
  { level := r.level, count := r.count, nchild := r.nchild, subtree := fld r.w3 15 0, entry := r.w2.toNat, ownBudget := own,
    slots := if own then fld budget 15 0 else 0,
    weight := if own then (if weight = 0 then 1 else weight) else up.weight,
    prio := if fbit r.w0 8 then fld r.w0 18 16 else up.prio,
    policy := if fbit r.w0 10 then fld r.w0 21 20 else up.policy }

def House.eff (h : House) : Eff := { prio := h.prio, policy := h.policy, weight := h.weight }

/-- The subtree of record i with effective values, in pre-order, below a house of values `up`. -/
def effTree (rs : List RawHouse) : Nat → Nat → Eff → M (List House)
  | 0, i, up => do
    match rs[i]? with
    | none => pure []
    | some r =>
      let h := effHouse r up r.w1 (fbit r.w0 9)
      needForm (decide (h.prio ≤ up.prio)) lfPRIO i 0
      pure [h]
  | lvl + 1, i, up => do
    match rs[i]? with
    | none => pure []
    | some r =>
      let h := effHouse r up r.w1 (fbit r.w0 9)
      needForm (decide (h.prio ≤ up.prio)) lfPRIO i r.level
      (upTo r.nchild).foldlM (fun hs _ => do return hs ++ (← effTree rs lvl (i + hs.length) h.eff)) [h]

/-- Every record with its effective values; the launch record gives the root its own where it overrides nothing. -/
def effValues (rs : List RawHouse) (nlev : Nat) (d : List Word) (ceiling : Nat) : M (List House) := do
  match rs with
  | [] => pure []
  | r :: _ =>
    let given : Eff := { prio := fld (nth d 1 0) 34 32, policy := fld (nth d 1 0) 36 35, weight := 1 }
    let root := effHouse r given (if fbit r.w0 9 then r.w1 else BitVec.ofNat 64 (fld (nth d 1 0) 31 0)) true
    needForm (decide (root.prio ≤ ceiling)) lfPRIO 0 (nlev - 1)
    (upTo r.nchild).foldlM (fun hs _ => do return hs ++ (← effTree rs (nlev - 2) hs.length root.eff)) [root]

/-! ### Instances -/

/-- An instance that has not been placed. -/
def newInst (record number : Nat) (parent : Option Nat) : Inst :=
  { record, number, parent, pkg := 0, home := 0, status := .live, strand := none, mid := none, retries := 0, episode := 0, arrived := [],
    lastResult := 0, newWithdrawal := false, claims := [] }

/-- The child records of record i. -/
def kidsOf (hs : List House) (i : Nat) : List Nat :=
  match hs[i]? with
  | none => []
  | some h => ((upTo h.nchild).foldl (fun (acc : List Nat × Nat) _ =>
      (acc.1 ++ [acc.2], acc.2 + ((hs[acc.2]?).map (·.subtree)).getD 1)) ([], i + 1)).1

/-- Strands in the subtree of one instance of a record. -/
def demandOf (hs : List House) : Nat → Nat → Nat
  | 0, _ => 1
  | lvl + 1, i => ((kidsOf hs i).map fun k => ((hs[k]?).map (·.count)).getD 0 * demandOf hs lvl k).foldl (· + ·) 0

/-- The instances of one instance of a record and its subtree, in pre-order, added to a list. -/
def instTree (hs : List House) : Nat → Nat → Option Nat → List Inst → List Inst
  | lvl, i, parent, acc =>
    let me := acc.length
    let acc := acc ++ [newInst i ((acc.filter fun x => x.record == i).length) parent]
    match lvl with
    | 0 => acc
    | l + 1 => (kidsOf hs i).foldl (fun acc k =>
        (upTo (((hs[k]?).map (·.count)).getD 0)).foldl (fun acc _ => instTree hs l k (some me) acc) acc) acc

/-! ### Units and placement (R352) -/

/-- A unit of a launch: code, place of its package in PKGLIST, and number. -/
structure Place where
  code : Nat
  pkg : Nat
  num : Nat
  deriving DecidableEq, Repr

def Place.key (p : Place) : Nat := p.code * 2 ^ 40 + p.pkg * 2 ^ 20 + p.num

/-- The units one level below a unit. -/
def Place.parts (npkg : Nat) (p : Place) : List Place :=
  if p.code = 5 then (upTo npkg).map fun i => { code := 4, pkg := i, num := 0 }
  else if p.code = 4 then (upTo 4).map fun d => { code := 3, pkg := p.pkg, num := d }
  else if p.code = 3 then (upTo 8).map fun x => { code := 2, pkg := p.pkg, num := p.num * 8 + x }
  else (upTo 16).map fun c => { code := 1, pkg := p.pkg, num := p.num * 16 + c }
/-- The units of a code inside a unit, ascending. -/
def Place.inside (npkg code : Nat) : Nat → Place → List Place
  | 0, p => [p]
  | n + 1, p => if p.code ≤ code then [p] else ((p.parts npkg).map (Place.inside npkg code n)).flatten
/-- A unit and those that contain it. -/
def Place.outward : Nat → Place → List Place
  | 0, p => [p]
  | n + 1, p =>
    if p.code = 1 then p :: Place.outward n { code := 2, pkg := p.pkg, num := p.num / 16 }
    else if p.code = 2 then p :: Place.outward n { code := 3, pkg := p.pkg, num := p.num / 8 }
    else if p.code = 3 then p :: Place.outward n { code := 4, pkg := p.pkg, num := 0 }
    else if p.code = 4 then p :: Place.outward n { code := 5, pkg := 0, num := 0 }
    else [p]

/-- What another package answers about a unit of its own (assumption log 17): 3 its strand slots, 4 the slots reserved there that this
package does not know of, 5 its free strand numbers, 6 the free save frames of the partition there. -/
def State.askUnit (s : State) (l : Launch) (q : Nat) (p : Place) : Nat :=
  Config.peerAnswer [q, s.stepNo, nth l.pkgs p.pkg 0, p.code, p.num]

/-- Strand slots of a unit of this package (Table 21-1). -/
def State.slotsHere (s : State) (l : Launch) : Nat → Place → Nat
  | 0, _ => 0
  | n + 1, p =>
    if p.code = 1 then (if s.coreOn p.num && partSect (s.part l.partn) (p.num / 16) then 4 else 0)
    else ((p.parts 0).map (s.slotsHere l n)).foldl (· + ·) 0

/-- cap(u). -/
def State.capOf (s : State) (l : Launch) (p : Place) : Nat :=
  let one := fun (p : Place) => if s.isHere l p.pkg then s.slotsHere l 5 p else s.askUnit l 3 p
  if p.code = 5 then ((p.parts l.pkgs.length).map one).foldl (· + ·) 0 else one p

/-- The unit of an instance that has been placed; the range of a root. -/
def Launch.placeOf (l : Launch) (i : Nat) : Place :=
  let code := if l.levelOf i = 0 then nth l.phys 1 4 else nth l.phys (l.levelOf i) 4
  match l.insts[i]? with
  | some x => { code, pkg := x.pkg, num := x.home }
  | none => { code, pkg := 0, num := 0 }
/-- The first package of the launch stands for the unit of a root house bound to the domain (assumption log 90). -/
def Launch.rootRange (l : Launch) : Place :=
  { code := if nth l.phys (l.phys.length - 1) 0 = 5 then 5 else 4, pkg := 0, num := 0 }

/-- Place instance i, with what the placement has used so far; `host` gives the host's unit, its package times 65,536 plus
its number. -/
def placeInst (host : Option (List Nat)) (x : Launch × SMap Nat) (i : Nat) : M (Launch × SMap Nat) := do
  let (l, used) := x
  let s ← get
  match l.insts[i]? with
  | none => pure x
  | some y =>
    let lvl := l.levelOf i
    let outer := match y.parent with
      | some p => l.placeOf p
      | none => l.rootRange
    let demand := demandOf l.houses lvl y.record
    let cands := if lvl = 0 then [outer] else outer.inside l.pkgs.length (nth l.phys lvl 0) 5
    let use := fun (p : Place) => SMap.getD used p.key 0
    let cands := cands.filter fun p => decide (use p + demand ≤ s.capOf l p)
    let chosen := match host with
      | some us => if lvl = 0 then cands.head? else cands.find? fun p => some (p.pkg * 65536 + p.num) == us[i]?
      | none => cands.foldl (fun (best : Option Place) p => match best with
        | none => some p
        | some b => if use p < use b then some p else best) none
    match chosen with
    | none => launchFault lfNOFIT y.record lvl
    | some p =>
      let l := l.mapInst i fun y => { y with pkg := p.pkg, home := p.num }
      let used := if lvl = 0 then (p.outward 5).foldl (fun u v => SMap.put u v.key (SMap.getD u v.key 0 + 1)) used else used
      pure (l, used)

/-! ### Reservations (R351) -/

/-- The slots that an instance reserves. -/
def Launch.slotsOf (l : Launch) (i : Nat) : Nat :=
  match (l.insts[i]?).bind l.house with
  | some h => if h.ownBudget then h.slots else 0
  | none => 0
/-- The nearest ancestor that holds a pool. -/
def Launch.poolFrom (l : Launch) : Nat → Option Nat → Option Nat
  | 0, _ => none
  | _ + 1, none => none
  | n + 1, some i => if l.slotsOf i != 0 then some i else l.poolFrom n ((l.insts[i]?).bind (·.parent))
def Launch.poolOf (l : Launch) (i : Nat) : Option Nat := l.poolFrom 16 ((l.insts[i]?).bind (·.parent))

/-- The packages of a launch's domain, ascending. -/
def Launch.domain (l : Launch) : List Nat := l.pkgs.foldl insertAsc []
/-- A unit by its code, the packages it lies in and its number: the domain is that of a package list (Table 21-1). -/
def Launch.unitKey (l : Launch) (p : Place) : Nat × List Nat × Nat :=
  (p.code, if p.code = 5 then l.domain else [nth l.pkgs p.pkg 0], p.num)

/-- The units in which an instance's reservation is held: its own and those that contain it, up to the package or its own domain; one
taken from a pool is held in those inside the pool's unit, which holds the pool itself (R351). -/
def Launch.heldIn (l : Launch) (i : Nat) : List Place :=
  let u := l.placeOf i
  let out := (u.outward 5).filter fun p => u.code == 5 || p.code != 5
  match l.poolOf i with
  | none => out
  | some a => out.takeWhile fun p => decide (p.code < (l.placeOf a).code)

/-- Reservations of the houses of a launch that a test admits: each unit they are held in, and the slots. -/
def Launch.held (l : Launch) (accepts : Nat → Bool) : List ((Nat × List Nat × Nat) × Nat) :=
  ((upTo l.insts.length).filter fun i => accepts i && l.statusOf i == .live && l.slotsOf i != 0).map (fun i =>
    (l.heldIn i).map fun p => (l.unitKey p, l.slotsOf i)) |>.flatten

/-- What is held in a unit, of reservations by their units. -/
def heldOf (held : List ((Nat × List Nat × Nat) × Nat)) (key : Nat × List Nat × Nat) : Nat :=
  ((held.filter fun h => h.1 == key).map (·.2)).foldl (· + ·) 0
/-- What is held in the domain of a package list: its own reservations and those of its packages. -/
def heldDomain (held : List ((Nat × List Nat × Nat) × Nat)) (pkgs : List Nat) : Nat :=
  heldOf held (5, pkgs, 0) + (pkgs.map fun h => heldOf held (4, [h], 0)).foldl (· + ·) 0
/-- The root of a launch is bound to the domain. -/
def Launch.overDomain (l : Launch) : Bool := nth l.phys (l.phys.length - 1) 0 == 5
def Launch.heldTotal (l : Launch) (accepts : Nat → Bool) : Nat :=
  (((upTo l.insts.length).filter fun i => accepts i && l.statusOf i == .live && l.slotsOf i != 0 && l.poolOf i == none).map l.slotsOf).foldl
    (· + ·) 0

/-- Reserve for instance i, after those that `done` names: no unit is to hold more than its cap, and no pool more than it has (R351); a
domain is a unit for the launches that are bound to it (assumption log 107). -/
def reserveInst (l : Launch) (done : Nat → Bool) (i : Nat) : M Unit := do
  let s ← get
  let n := l.slotsOf i
  let record := ((l.insts[i]?).map (·.record)).getD 0
  let fail : M Unit := launchFault lfBUDGET record (l.levelOf i)
  if n = 0 then pure ()
  else
    let others := s.launches.filter fun x => x.live && x.lid != l.lid
    let held := (others.map fun x => x.held fun _ => true).flatten ++ l.held done
    let elsewhere := fun (l : Launch) (ps : List Place) =>
      ((ps.filter fun u => !s.isHere l u.pkg).map (s.askUnit l 4)).foldl (· + ·) 0
    for p in (l.heldIn i).filter fun p => p.code != 5 do
      if s.capOf l p < heldOf held (l.unitKey p) + elsewhere l [p] + n then fail
    match l.poolOf i with
    | some a =>
      let taken := (((upTo l.insts.length).filter fun j =>
        done j && l.statusOf j == .live && l.slotsOf j != 0 && l.poolOf j == some a).map l.slotsOf).foldl (· + ·) 0
      if l.slotsOf a < taken + n then fail
    | none =>
      let mine := l.unitKey (l.placeOf i)
      for x in (others ++ [l]).filter Launch.overDomain do
        if (if mine.1 = 5 then mine.2.1 == x.domain else mine.2.1.all x.domain.contains) then
          let d : Place := { code := 5, pkg := 0, num := 0 }
          if s.capOf x d < heldDomain held x.domain + elsewhere x (d.parts x.pkgs.length) + n then fail
      let total := ((others.filter fun x => x.partn == l.partn).map fun x => x.heldTotal fun _ => true).foldl (· + ·) 0 +
        l.heldTotal done
      if fld (nth (s.part l.partn) 1 0) 15 0 < total + n then fail

/-! ### Creating strands (R353, R436) -/

/-- The lowest n numbers from k on that are free. -/
def lowestFree (taken : Nat → Bool) : Nat → Nat → Nat → List Nat
  | 0, _, _ => []
  | _ + 1, _, 0 => []
  | fuel + 1, k, n + 1 => if taken k then lowestFree taken fuel (k + 1) (n + 1) else k :: lowestFree taken fuel (k + 1) n

/-- A number held by a strand of a live launch. -/
def State.numberTaken (s : State) (n : Nat) : Bool :=
  match s.strand? n with
  | some t => ((s.launch? t.sched.lid).map (·.live)).getD false
  | none => false

/-- The save frames of a partition, and those that its live strands hold (R436). -/
def State.frames (s : State) (partn : Nat) : Nat := fld (nth (SMap.getD s.saveArea partn []) 1 0) 15 0
def State.frameTaken (s : State) (partn n : Nat) : Bool :=
  s.strands.any fun t => t.live && t.partn == partn && t.sched.frame == n

/-- The strand of an ended launch gives up its number; while it has commands outstanding it is kept under one of its own (assumption log 63). -/
def State.renumber (s : State) (n : Nat) : State :=
  match s.strand? n with
  | none => s
  | some t =>
    let s := if s.cur = some n then { s with st := Strand.nobody, cur := none } else { s with others := SMap.del s.others n }
    if t.fifo.toList.all Fifo.isQuiet then s
    else
      let m := ((upTo (s.others.length + 1)).map fun j => n + 65536 * (j + 1)).find? fun m => (s.strand? m).isNone
      let m := m.getD (n + 65536)
      { s with
        others := SMap.put s.others m { t with sn := m }
        cores := s.cores.map fun (c, k) =>
          let moved := fun (f : Nat × Nat) => if f.1 = n then (m, f.2) else f
          (c, { k with followOn := k.followOn.map moved, reserved := k.reserved.map moved }) }
where
  Fifo.isQuiet (f : Fifo) : Bool := f.cmds.isEmpty && f.running.isNone

/-- Create the strand of a level-0 instance (R30, R353, R416). -/
def createStrand (l : Launch) (i sn frame : Nat) : M Unit := modify fun s =>
  let s := s.renumber sn
  let h := (l.insts[i]?).bind l.house
  let t := Strand.create sn l.partn l.region (BitVec.ofNat 64 ((h.map (·.entry)).getD 0))
    (regionHvec (s.regionRec l.region) &&& 0x7FFFFFFFFFFFFC)
  s.setStrand { t with sched := { t.sched with
    status := .ready, frame, readySince := s.stepNo, prio := (h.map (·.prio)).getD 0, lid := l.lid, inst := i } }

/-- Level-0 instances placed on a package of PKGLIST. -/
def Launch.placedOn (l : Launch) (is : List Nat) (pkg : Nat) : List Nat :=
  is.filter fun i => l.levelOf i == 0 && ((l.insts[i]?).map (·.pkg)).getD 0 == pkg

/-- Give the instances of this package their strands: numbers and frames, lowest first, in pre-order. The other packages of the launch
learn their MIDs. -/
def createHere (l : Launch) (is : List Nat) : M Launch := do
  let s ← get
  let mine := is.filter fun i => l.levelOf i == 0 && s.isHere l (((l.insts[i]?).map (·.pkg)).getD 0)
  let nums := lowestFree s.numberTaken 65536 0 mine.length
  let frames := lowestFree (s.frameTaken l.partn) (s.frames l.partn) 0 mine.length
  needForm (nums.length == mine.length) lfNOFIT 0 (l.phys.length - 1)
  needForm (frames.length == mine.length) lfBUDGET 0 0
  let todo := mine.zip (nums.zip frames)
  for x in todo do createStrand l x.1 x.2.1 x.2.2
  modify fun s => if todo = [] ∨ s.farPkgs l = [] then s
    else s.tell (.bound (s.launchHome l) (l.lid % 2 ^ 32) (todo.map fun x => (x.1, s.mid x.2.1)))
  return todo.foldl (fun l x => l.mapInst x.1 fun y => { y with strand := some x.2.1, mid := some (s.mid x.2.1) }) l

/-- Create the strands of instances: here, and on the other packages that they are placed on, where numbers and frames are free too. -/
def createStrands (l : Launch) (is : List Nat) : M Launch := do
  let s ← get
  for pkg in upTo l.pkgs.length do
    let n := (l.placedOn is pkg).length
    if n ≠ 0 ∧ s.isHere l pkg = false then
      let u : Place := { code := 4, pkg, num := 0 }
      needForm (decide (n ≤ s.askUnit l 5 u)) lfNOFIT 0 (l.phys.length - 1)
      needForm (decide (n ≤ s.askUnit l 6 u)) lfBUDGET 0 0
  let l ← createHere l is
  let drid := regionDrid (s.regionRec l.region)
  for pkg in upTo l.pkgs.length do
    if (l.placedOn is pkg).isEmpty = false ∧ s.isHere l pkg = false then
      modify fun s => s.tell (.bind (nth l.pkgs pkg 0) drid l (l.placedOn is pkg))
  return l

/-! ### LAUNCH (R348, R349, R352, R354) -/

/-- The form and value checks: the launch with its instances not yet placed. -/
def launchForms (l : Launch) (d : List Word) : M Launch := do
  let a := l.agent
  needForm (recordOk d) lfFORMAT 0 0
  probeAreas l
  let (phys, rs) ← readRoster a (nth d 0 0).toNat
  checkOrder phys
  let s ← get
  let hs ← effValues rs phys.length d (fld (nth (s.part l.partn) 0 0) 34 32)
  let domain := nth phys (phys.length - 1) 0 = 5
  let npkg := fld (nth d 4 0) 31 16
  let pkgs ← if domain then (upTo npkg).mapM fun i => agentRead a ((nth d 6 0).toNat + 2 * i) 2 else pure [s.handle.toNat]
  return { l with phys, houses := hs, pkgs }

/-- A package of PKGLIST has the region (R348). -/
def State.hasRegion (s : State) (l : Launch) (h : Nat) : Bool :=
  h == s.handle.toNat || Config.peerAnswer [2, s.stepNo, h, regionDrid (s.regionRec l.region)] != 0

/-- Placement, reservation and creation. -/
def bindLaunch (l : Launch) (host : Option (List Nat)) : M Launch := do
  let s ← get
  let top := l.phys.length - 1
  needForm (l.pkgs.all (s.hasRegion l)) lfNOFIT 0 top
  let range := l.rootRange.inside l.pkgs.length (nth l.phys top 4) 5
  needForm ((if top = 0 then [l.rootRange] else range).any fun p => decide (demandOf l.houses top 0 ≤ s.capOf l p)) lfNOFIT 0 top
  let l := { l with insts := instTree l.houses top 0 none [] }
  let all := upTo l.insts.length
  match host with
  | some us => needForm (us.length == all.length) lfNOFIT 0 top
  | none => pure ()
  let (l, _) ← all.foldlM (placeInst host) (l, [])
  for i in all do reserveInst l (fun j => decide (j < i)) i
  let l := { l with lid := s.lids + 1, live := true, status := statusWord (s.lids + 1) 0 }
  modify fun s => { s with lids := s.lids + 1, launches := s.launches ++ [l] }
  let l ← createStrands l all
  modify fun s => s.setLaunch l
  return l

/-- The launch that a function's doorbell took first, as its record names it. -/
def takeLaunch (fn : Nat) (addr ridx : Nat) : M (Launch × List Word) := do
  let s ← get
  let region := fld (nth (s.part fn) 0 0) 47 40 + ridx
  let l := launchOf fn fn region addr []
  let d ← agentWords l.agent addr 8
  return (launchOf fn fn region addr d, d)

/-- STATUS of a launch fault (Table 21-5). -/
def faultStatus (t : Trap) : Nat :=
  if 512 ≤ t.code then t.elem % 16 * 2 ^ 28 + t.elem / 16 % 4096 * 2 ^ 16 + (t.code - 512) else lfXLATE

/-- A computation of the binder: a launch fault leaves nothing of it. -/
def catchFault {α : Type} (m : M α) : M (Except Nat α) := fun s =>
  match m s with
  | .ok x t => .ok (.ok x) t
  | .error (.trap t) _ => .ok (.error (faultStatus t)) s
  | .error (.wait w) t => .error (.wait w) t

/-- The launch leaves the doorbell's list with its first STATUS. -/
def State.dropLaunch (s : State) (fn : Nat) : State := s.mapFn (fnIx fn) fun p => { p with launches := p.launches.drop 1 }

/-- The binder answers the oldest launch of a function: bound, or faulted. -/
def answerLaunch (fn addr ridx : Nat) (m : M Launch) : M Unit := do
  let region := fld (nth ((← get).part fn) 0 0) 47 40 + ridx
  let r ← catchFault m
  modify fun s => s.dropLaunch fn
  match r with
  | .ok l => binderStatus l l.status
  | .error st => binderStatus (launchOf fn fn region addr []) st
  modify fun s => s.dropLeaves 65536

/-- The form and value checks of the oldest launch of a function. -/
def checkLaunch (fn addr ridx : Nat) : M Launch := do
  let (l, d) ← takeLaunch fn addr ridx
  launchForms l d

/-- The roster that has been posted to the host for a function's oldest launch (R354). -/
def State.posted (s : State) (fn addr : Nat) : Option Launch :=
  s.hostPosts.findSome? fun p => match p with
    | .placement f a l => if f = fn ∧ a = addr then some l else none
    | _ => none

/-- LAUNCH: by hardware; or, with DUTY.BIND in force, checked and posted to the host with its effective values (R354). -/
def execLaunch (fn : Nat) (s : State) : Out :=
  match (s.fns[fnIx fn]).launches with
  | [] => .next s
  | (addr, ridx) :: _ =>
    if 16 ≤ fn ∨ s.phase ≠ .ready then .next s
    else if s.act.getLsbD 1 then
      if (s.posted fn addr).isSome then .next s
      else runEvent s (do
        match ← catchFault (checkLaunch fn addr ridx) with
        | .ok l => modify fun s => { s with hostPosts := s.hostPosts ++ [HostPost.placement fn addr l] }
        | .error st =>
          modify fun s => s.dropLaunch fn
          binderStatus (launchOf fn fn (fld (nth (s.part fn) 0 0) 47 40 + ridx) addr []) st)
    else runEvent s (answerLaunch fn addr ridx (do bindLaunch (← checkLaunch fn addr ridx) none))

/-- HOST_PLACEMENT: the host's units for the roster posted, checked as the hardware's would be (R354, R410). -/
def execHostPlacement (fn : Nat) (units : List Nat) (s : State) : Out :=
  match (s.fns[fnIx fn]).launches with
  | [] => .next s
  | (addr, ridx) :: _ =>
    match s.posted fn addr with
    | some l => runEvent s (do
        answerLaunch fn addr ridx (bindLaunch l (some units))
        modify fun s => { s with hostPosts := s.hostPosts.erase (HostPost.placement fn addr l) })
    | none => .next s

/-! ### House faults (R357–R359) -/

/-- End the strand of a level-0 instance of this package: the claims of a live one. -/
def endHere (sn : Nat) : M (List Claim) := do
  let s ← get
  match s.strand? sn with
  | none => pure []
  | some t =>
    if t.live then
      set ((((s.unseat t).leaveAll t.sn 2).setStrand (t.close .ended)).pruneStreams.superTrap t)
      pure t.claims
    else pure []

/-- End a level-0 instance: its strand here, or by its package; the unfinished claims. -/
def endLeaf (lid : Nat) (i : Nat) (st : InstStatus) : M (List Claim) := do
  let s ← get
  match s.launch? lid with
  | none => pure []
  | some l =>
    match l.insts[i]? with
    | none => pure []
    | some x =>
      modify fun s => (s.mapLaunch lid fun l => l.mapInst i fun x => { x with status := st, claims := [] }).tellInst l i st []
      if s.isHere l x.pkg then
        match x.strand with
        | some sn => endHere sn
        | none => pure []
      else
        modify fun s => if x.status == .live then s.tell (.unbind (nth l.pkgs x.pkg 0) s.handle.toNat lid i) else s
        pure (if x.status == .live then x.claims else [])

/-- End every strand of a subtree that has not retired, and its houses; the claims of the strands ended. -/
def endSubtree (lid h : Nat) (st : InstStatus) : M (List Claim) := do
  let s ← get
  match s.launch? lid with
  | none => pure []
  | some l =>
    let sub := (upTo l.insts.length).filter fun i => l.under h i && l.statusOf i != .retired
    let cs ← sub.mapM fun i =>
      if l.levelOf i = 0 then endLeaf lid i st
      else do
        modify fun s => s.mapLaunch lid fun l => l.mapInst i fun x => { x with status := st }
        pure []
    return cs.flatten

/-- Write the claim ranges and the record, and send its event (R358). -/
def faultRecord (lid : Nat) (f : HouseFault) (event policy : Nat) (ranges : List Claim) : M Unit := do
  match (← get).launch? lid with
  | none => pure ()
  | some l =>
    let first := l.rangeNext
    for x in ranges.zipIdx do
      if first + x.2 < l.rangen then
        let va := l.range + 24 * (first + x.2)
        binderStore l va 8 x.1.counter
        binderStore l (va + 8) 8 x.1.base.toNat
        binderStore l (va + 16) 8 x.1.grant
    let h := l.insts[f.inst]?
    let seq := l.seq + 1
    let dw : List Nat :=
      [((h.map (·.number)).getD 0) * 2 ^ 32 + ((h.map (·.record)).getD 0) % 4096 * 2 ^ 20 + l.levelOf f.inst * 2 ^ 16 +
          policy * 256 + event,
       f.mid % 2 ^ 26, f.cause % 64, f.val.toNat, ranges.length % 2 ^ 32 + first % 2 ^ 32 * 2 ^ 32, seq % 2 ^ 32 + lid * 2 ^ 32, 0, 0]
    for x in dw.zipIdx do binderStore l (l.flog + 64 * (l.flogIdx % l.flogn) + 8 * x.2) 8 x.1
    modify fun s => s.mapLaunch lid fun l =>
      { l with seq, flogIdx := (l.flogIdx + 1) % l.flogn, rangeNext := first + ranges.length }
    modify fun s => s.event (fnIx l.fn) ([2] ++ (dw.take 7).map (BitVec.ofNat 64))

/-- H aborts: what of it has not retired is ended already; the root ends the launch, another raises a child abort above, which names
the failing strand that the fault at H named (R358, R457) (assumption log 117). -/
def abortHouse (lid h : Nat) (f : HouseFault) : M Unit := do
  match (← get).launch? lid with
  | none => pure ()
  | some l =>
    match (l.insts[h]?).bind (·.parent) with
    | none => endLaunch l 0x41
    | some p =>
      modify fun s => s.mapLaunch lid fun l => { l with
        faults := l.faults ++ [({ inst := p, event := 3, child := some h, mid := f.mid, cause := f.cause, val := f.val, ranges := [],
                                  gone := [] } : HouseFault)] }

/-- The failing children of a house: of a LINK fault those whose strands the cut-off ended, and no later fault has settled. -/
def Launch.failing (l : Launch) (f : HouseFault) : List Nat :=
  match f.event, f.child with
  | 2, _ => (l.children f.inst).filter fun c => (l.statusOf c == .live || l.levelOf c == 0) &&
      (l.leaves c).any fun i => f.gone.contains i && l.statusOf i == .ended
  | _, some c => [c]
  | _, none => []

/-- An earlier fault has ended or re-created the house or the child, or the child has retired (R359). -/
def Launch.superseded (l : Launch) (f : HouseFault) : Bool :=
  !l.live || l.statusOf f.inst == .retired || l.statusOf f.inst == .withdrawn ||
  (l.statusOf f.inst == .ended && f.child != some f.inst) ||
  match f.event, f.child with
  | 2, none => (l.failing f).isEmpty
  | 1, some c => l.statusOf c != .ended || ((l.insts[c]?).bind (·.mid)).any fun m => m != f.mid
  | _, some c => l.statusOf c != .ended
  | _, none => false

/-- Retry: the children that have not retired are placed again and created anew (Table 21-7). -/
def retryHouse (lid h : Nat) : M Unit := do
  match (← get).launch? lid with
  | none => pure ()
  | some l =>
    let again := (upTo l.insts.length).filter fun i => i != h && l.under h i && l.statusOf i != .retired && l.statusOf i != .withdrawn
    let fresh := again.foldl (fun l i => l.mapInst i fun x =>
      { newInst x.record x.number x.parent with pkg := x.pkg, home := x.home }) l
    let (l, _) ← again.foldlM (placeInst none) (fresh, [])
    for i in again do reserveInst l (fun j => !again.contains j || decide (j < i)) i
    let l ← createStrands l again
    modify fun s => s.setLaunch l

/-- Abort: the subtree is ended, the record written, and H aborts. -/
def faultAbort (lid : Nat) (f : HouseFault) (event policy : Nat) (before : List Claim) : M Unit := do
  let cs ← endSubtree lid f.inst .ended
  faultRecord lid f event policy (before ++ cs)
  abortHouse lid f.inst f

/-- The binder handles a fault by the policy of its house. -/
def handleFault (l : Launch) (f : HouseFault) : M Unit := do
  let policy := if l.levelOf f.inst = 0 then 0 else (((l.insts[f.inst]?).bind l.house).map (·.policy)).getD 0
  if l.superseded f then faultRecord l.lid f (f.event + 0x80) policy f.ranges
  else if policy = 0 then faultAbort l.lid f f.event 0 f.ranges
  else if policy = 1 then
    if 3 ≤ ((l.insts[f.inst]?).map (·.retries)).getD 0 then faultAbort l.lid f 4 1 f.ranges
    else
      modify fun s => s.mapLaunch l.lid fun l => l.mapInst f.inst fun x => { x with retries := x.retries + 1 }
      let cs ← ((l.children f.inst).filter fun c => l.statusOf c != .retired && l.statusOf c != .withdrawn).mapM fun c =>
        endSubtree l.lid c .ended
      faultRecord l.lid f f.event 1 (f.ranges ++ cs.flatten)
      match ← catchFault (retryHouse l.lid f.inst) with
      | .ok _ => pure ()
      | .error _ =>
        modify fun s => s.mapLaunch l.lid fun l => l.mapInst f.inst fun x => { x with status := .ended }
        abortHouse l.lid f.inst f
  else
    let gone := ((l.failing f).map l.goingStrands).flatten
    let cs ← (l.failing f).mapM fun c => endSubtree l.lid c .withdrawn
    faultRecord l.lid f f.event 2 (f.ranges ++ cs.flatten)
    match (← get).launch? l.lid with
    | none => pure ()
    | some l =>
      let l := l.noteWithdrawal gone 16 f.inst
      if (l.children f.inst).all fun c => l.statusOf c == .withdrawn then
        let l := l.mapInst f.inst fun x => { x with status := .ended }
        modify fun s => s.setLaunch l
        abortHouse l.lid f.inst f
      else settleLaunch (l.retireUp 16 f.inst)

/-- HOUSE_FAULT: the oldest fault of a launch. -/
def execHouseFault (lid : Nat) (s : State) : Out :=
  match s.launch? lid with
  | none => .next s
  | some l =>
    match l.faults with
    | [] => .next s
    | f :: r => if l.origin.isSome then .next s else runEvent s (do
        modify fun s => s.mapLaunch lid fun l => { l with faults := r }
        handleFault { l with faults := r } f
        modify fun s => s.dropLeaves 65536)

end Sys2Proof.Machine
end

