-- ==== Sys2Proof/Machine/Crypto.lean ====
section
/-!
DEFINITION. Digests and signatures (R411–R413): SHA-512, MGF1 and RSASSA-PSS as their standards define them; the spec names the
functions, and the keys, the salt and the fused digest of the signing key are constants of the part (assumption log 24). Strings of
octets are numbers here with the first octet highest, as the standards number them.
-/

namespace Sys2Proof.Machine

open Sys2Proof

/-! ### SHA-512 -/

/-- The first eighty primes. -/
def primes : List Nat := (List.range 410).filter fun n => decide (2 ≤ n) && ((List.range n).drop 2).all fun d => n % d != 0

/-- The first 64 bits of the fraction of the k-th root of a prime below 512. -/
def rootBits (k p : Nat) : BitVec 64 :=
  BitVec.ofNat 64 ((List.range 70).foldr (fun i r => if (r + 2 ^ i) ^ k ≤ p * 2 ^ (64 * k) then r + 2 ^ i else r) 0)

/-- The initial digest and the constants of the rounds. -/
def shaInit : List (BitVec 64) := (primes.take 8).map (rootBits 2)
def shaK : List (BitVec 64) := primes.map (rootBits 3)

/-- The message schedule, newest word first: n more words. -/
def shaSchedule : Nat → List (BitVec 64) → List (BitVec 64)
  | 0, w => w
  | n + 1, w =>
    let x := w.getD 1 0
    let y := w.getD 14 0
    let s1 := x.rotateRight 19 ^^^ x.rotateRight 61 ^^^ x >>> 6
    let s0 := y.rotateRight 1 ^^^ y.rotateRight 8 ^^^ y >>> 7
    shaSchedule n ((s1 + w.getD 6 0 + s0 + w.getD 15 0) :: w)

/-- One round on the eight working variables. -/
def shaRound (v : List (BitVec 64)) (kw : BitVec 64 × BitVec 64) : List (BitVec 64) :=
  let a := v.getD 0 0
  let b := v.getD 1 0
  let c := v.getD 2 0
  let e := v.getD 4 0
  let s1 := e.rotateRight 14 ^^^ e.rotateRight 18 ^^^ e.rotateRight 41
  let s0 := a.rotateRight 28 ^^^ a.rotateRight 34 ^^^ a.rotateRight 39
  let t := v.getD 7 0 + s1 + ((e &&& v.getD 5 0) ^^^ (~~~ e &&& v.getD 6 0)) + kw.1 + kw.2
  [t + s0 + ((a &&& b) ^^^ (a &&& c) ^^^ (b &&& c)), a, b, c, v.getD 3 0 + t, e, v.getD 5 0, v.getD 6 0]

/-- One block of 1,024 bits. -/
def shaBlock (h : List (BitVec 64)) (block : Nat) : List (BitVec 64) :=
  let first := (List.range 16).map fun i => BitVec.ofNat 64 (block / 2 ^ (64 * i))
  let w := (shaSchedule 64 first).reverse
  List.zipWith (· + ·) h ((shaK.zip w).foldl shaRound h)

/-- SHA-512 of a string of n octets. -/
def sha512 (n x : Nat) : Nat :=
  let blocks := (n + 144) / 128
  let padded := (x % 2 ^ (8 * n) * 256 + 128) * 2 ^ (8 * (128 * blocks - n - 1)) + 8 * n
  let h := (List.range blocks).foldl (fun h i => shaBlock h (padded / 2 ^ (1024 * (blocks - 1 - i)) % 2 ^ 1024)) shaInit
  h.foldl (fun d w => d * 2 ^ 64 + w.toNat) 0

/-- The octets of a string in the opposite order: of bytes in memory, where the first is lowest, and of a string. -/
def swapOctets : Nat → Nat → Nat
  | 0, _ => 0
  | n + 1, x => x % 256 * 256 ^ n + swapOctets n (x / 256)

/-- SHA-512 of n bytes as memory holds them, and the digest so. -/
def digest (n x : Nat) : BitVec 512 := BitVec.ofNat 512 (swapOctets 64 (sha512 n (swapOctets n x)))

/-! ### RSASSA-PSS with SHA-512, MGF1 with SHA-512 and a salt of 64 octets, for a modulus of 4,096 bits -/

/-- MGF1: the first 447 octets of the mask of a seed of 64. -/
def mgf447 (seed : Nat) : Nat := (List.range 7).foldl (fun t i => t * 2 ^ 512 + sha512 68 (seed * 2 ^ 32 + i)) 0 / 256

/-- The digest that binds a message digest and a salt. -/
def pssHash (mHash salt : Nat) : Nat := sha512 136 (mHash * 2 ^ 512 + salt)

/-- EMSA-PSS-ENCODE for 4,095 bits. -/
def pssEncode (mHash salt : Nat) : Nat :=
  let h := pssHash mHash salt
  let db := Nat.xor (2 ^ 512 + salt) (mgf447 h) % 2 ^ 3575
  (db * 2 ^ 512 + h) * 256 + 0xBC

/-- EMSA-PSS-VERIFY. -/
def pssOk (mHash em : Nat) : Bool :=
  let h := em / 256 % 2 ^ 512
  let db := Nat.xor (em / 2 ^ 520) (mgf447 h) % 2 ^ 3575
  em % 256 == 0xBC && decide (em < 2 ^ 4095) && db / 2 ^ 512 == 1 && pssHash mHash (db % 2 ^ 512) == h

/-- A power modulo n, of an exponent of so many bits. -/
def powMod (n b : Nat) : Nat → Nat → Nat
  | 0, _ => 1 % n
  | k + 1, e =>
    let q := powMod n b k (e / 2)
    let q := q * q % n
    if e % 2 = 1 then q * b % n else q

/-- A signature over n bytes of memory, made with the identity key; the salt is a free value. -/
def identitySign (n x salt : Nat) : BitVec 4096 :=
  let em := pssEncode (sha512 n (swapOctets n x)) (Config.salt salt).toNat
  BitVec.ofNat 4096 (swapOctets 512 (powMod Config.identityModulus em 4096 Config.identityExponent))

/-- The boot ROM's check of an image: the signing key is the one whose digest is fused, and the signature over header bytes 0 to 511
is that key's, with public exponent 65,537. -/
def imageSigned (header : Nat) (sig : BitVec 4096) : Bool :=
  let n := Config.signingModulus.toNat
  let s := swapOctets 512 sig.toNat
  sha512 512 n == Config.fusedKeyDigest.toNat && decide (s < n) && pssOk (sha512 512 (swapOctets 512 header)) (powMod n s 17 65537)

/-- A measurement register extended with a digest (R412). -/
def extended (old new : BitVec 512) : BitVec 512 := digest 128 (old.toNat + new.toNat * 2 ^ 512)

end Sys2Proof.Machine
end

