-- ==== Sys2Proof/Machine/Perm.lean ====
section
/-!
DEFINITION. Mask, permute, reduction and scan instructions (R156, R157, R164, R189–R202).
-/

namespace Sys2Proof.Machine

open Sys2Proof

/-! ### Masks (R191–R193) -/

/-- An element-wise mask operation (Table 10-2). -/
def maskOp (f : Bool → Bool → Bool) (d a b : MReg) (s : State) : Out :=
  runEl s { cls := .el } fun _ e => modify fun s => s.setMbit d e (f (s.mbit a e) (s.mbit b e))

def execMand (d a b : MReg) (s : State) : Out := maskOp (fun x y => x && y) d a b s
def execMor (d a b : MReg) (s : State) : Out := maskOp (fun x y => x || y) d a b s
def execMxor (d a b : MReg) (s : State) : Out := maskOp (fun x y => x != y) d a b s
def execMandn (d a b : MReg) (s : State) : Out := maskOp (fun x y => x && !y) d a b s
def execMnot (d a : MReg) (s : State) : Out := maskOp (fun x _ => !x) d a a s
def execMset (d : MReg) (s : State) : Out := maskOp (fun _ _ => true) d d d s
def execMclr (d : MReg) (s : State) : Out := maskOp (fun _ _ => false) d d d s
def execMfrom (d : MReg) (a : VReg) (s : State) : Out :=
  runEl s { cls := .el, src := [a] } fun _ e => do
    let x ← srcV a e
    modify fun s => s.setMbit d e (x.val != 0)

/-- Bits of a mask from a function of the element, on its active elements. -/
def State.putMask (s : State) (d : MReg) (es : List Nat) (f : Nat → Bool) : State :=
  s.setM d (es.foldl (fun x e => setBit x e (f e)) s.st.regs.m[d])

def execMshl (d a : MReg) (b : GReg) (s : State) : Out :=
  runVec s { cls := .wh, opA := .g b } fun n => modify fun s =>
    s.putMask d (s.activeList n) fun e => decide (n.opA.toNat ≤ e) && s.mbit a (e - n.opA.toNat)

def execMshr (d a : MReg) (b : GReg) (s : State) : Out :=
  runVec s { cls := .wh, opA := .g b } fun n => modify fun s =>
    s.putMask d (s.activeList n) fun e => decide (e + n.opA.toNat ≤ 127) && s.mbit a (e + n.opA.toNat)

def execMpop (d : GReg) (a : MReg) (s : State) : Out :=
  runVec s { cls := .wh, zeroVl := true } fun n => modify fun s =>
    s.setG d (BitVec.ofNat 64 ((s.activeList n).filter (s.mbit a)).length)

def execMfirst (d : GReg) (a : MReg) (s : State) : Out :=
  runVec s { cls := .wh, zeroVl := true } fun n => modify fun s =>
    s.setG d (match (s.activeList n).find? (s.mbit a) with | some e => BitVec.ofNat 64 e | none => -1)

/-! ### Moves between positions (R190, R194–R198) -/

/-- Write elements at once. -/
def State.putAll (s : State) (d : VReg) (xs : List (Nat × Elem)) : State := xs.foldl (fun s x => s.setV d x.1 x.2) s

def execVslup (d a : VReg) (b : GReg) (_t : ElTy) (s : State) : Out :=
  runVec s { cls := .wh, opA := .g b, dst := [d], src := [a], plainSrc := [a] } fun n => do
    let k := n.opA.toNat
    modify fun s => s.putAll d (((s.activeList n).filter fun e => decide (k ≤ e)).map fun e => (e, s.v a (e - k)))

def execVsldn (d a : VReg) (b : GReg) (_t : ElTy) (s : State) : Out :=
  runVec s { cls := .wh, opA := .g b, dst := [d], src := [a], plainSrc := [a] } fun n => do
    let k := n.opA.toNat
    modify fun s => s.putAll d (((s.activeList n).filter fun e => decide (e + k ≤ 127)).map fun e => (e, s.v a (e + k)))

def execVpack (d a : VReg) (_t : ElTy) (s : State) : Out :=
  runVec s { cls := .wh, dst := [d], src := [a] } fun n => do
    let xs ← readActive a ((← get).activeList n)
    modify fun s => s.putAll d ((xs.zipIdx).map fun (x, i) => (i, x.2))

def execVunpk (d a : VReg) (_t : ElTy) (s : State) : Out :=
  runVec s { cls := .wh, dst := [d], src := [a] } fun n => do
    let es := (← get).activeList n
    let xs ← es.zipIdx.mapM fun (e, i) => do return (e, ← srcV a i)
    modify fun s => s.putAll d xs

/-- What `vperm` writes for an index that names no element (R196). -/
def permEmpty : ElTy → Elem
  | .int _ => { val := 0, grade := 0xFFFF }
  | .fp f => { val := 0, grade := fullGrade f }

def execVperm (d a b : VReg) (t : ElTy) (s : State) : Out :=
  runVec s { cls := .wh, dst := [d], src := [a, b], plainSrc := [a, b] } fun n => do
    modify fun s => s.putAll d ((s.activeList n).map fun e =>
      let i := (s.v b e).val.toNat
      (e, if i ≤ 127 then s.v a i else permEmpty t))

/-- The greatest earlier active index of the same value. -/
def prevMatch (w : Nat) (xs : List (Nat × Elem)) (e : Nat) (x : Elem) : Option Nat :=
  (xs.filter fun y => decide (y.1 < e) && y.2.val.toNat % 2 ^ w == x.val.toNat % 2 ^ w).getLast?.map (·.1)

def execVconfl (d a : VReg) (t : IntW) (s : State) : Out :=
  runVec s { cls := .wh, dst := [d], src := [a] } fun n => do
    let xs ← readActive a ((← get).activeList n)
    modify fun s => s.putAll d (xs.map fun (e, x) =>
      (e, { val := match prevMatch (intBits t) xs e x with | some i => BitVec.ofNat 64 i | none => -1, grade := 0xFFFF }))

/-- Bits that select in `vsel` (R197). -/
def selBits : ElTy → Nat | .int wd => intBits wd | .fp _ => 64

/-- vsel (R197): both sources of an active element are read (assumption log 50). -/
def execVsel (d a b : VReg) (t : ElTy) (s : State) : Out :=
  runEl s { cls := .el, dst := [d], src := [a, b] } fun _ e => do
    let x ← srcV a e
    let y ← srcV b e
    if y.val.toNat % 2 ^ selBits t ≠ 0 then modify fun s => s.setV d e x

/-! ### Reductions (R156, R164, R199–R201) -/

/-- A result beneath which the lowest active element is named. -/
abbrev Leaf (α : Type) := Option (Nat × α)

/-- One level of a tree: nodes 2i and 2i + 1 combine; a lone child passes through. -/
def treeLevel {α : Type} (node : α → α → α × BitVec 6) : List (Leaf α) → List (Leaf α) × List (Nat × BitVec 6)
  | a :: b :: r =>
    let (xs, fl) := treeLevel node r
    match a, b with
    | some (i, x), some (_, y) => let (z, f) := node x y; (some (i, z) :: xs, (i, f) :: fl)
    | some x, none => (some x :: xs, fl)
    | none, y => (y :: xs, fl)
  | l => (l, [])

/-- Levels of a tree, with the flags raised and the elements they are recorded against. -/
def treeFold {α : Type} (node : α → α → α × BitVec 6) : Nat → List (Leaf α) → Leaf α × List (Nat × BitVec 6)
  | 0, l => ((l.head?).join, [])
  | k + 1, l =>
    let (xs, f1) := treeLevel node l
    let (r, f2) := treeFold node k xs
    (r, f1 ++ f2)

/-- Raise what was recorded against each element, lowest first (R200). -/
def raiseFlags (n : VEntry) (fls : List (Nat × BitVec 6)) : M Unit :=
  (upTo 128).forM fun e =>
    let fl := fls.foldl (fun a x => if x.1 = e then a ||| x.2 else a) 0
    if fl = 0 then pure () else fpTraps n e fl 0 [] 0

/-- The leaves of element positions 0 to 127. -/
def leavesOf (xs : List (Nat × Elem)) (f : Elem → Nat) : List (Leaf Nat) :=
  (upTo 128).map fun e => (xs.find? fun x => x.1 == e).map fun x => (e, f x.2)

/-- An integer tree reduction: the n-bit pattern. -/
def intTree (node : Nat → Nat → Nat) (ident w : Nat) (xs : List (Nat × Elem)) : Nat :=
  let r := (treeFold (fun a b => (node a b, 0)) 7 (leavesOf xs fun x => x.val.toNat % 2 ^ w)).1
  (r.map (·.2)).getD ident

/-- A value with its grade. -/
abbrev GVal := Nat × Nat

/-- A node of an FP reduction: the left operand is a. -/
abbrev FNode := GVal → GVal → GVal × BitVec 6

def addNode (f : Fmt) (n : VEntry) : FNode := fun a b =>
  let r := fpArith f (fcrRm n.fcr) false .add a.1 b.1 0 a.2 b.2 0
  ((r.pat, r.grade), r.flags)
def minNode (f : Fmt) (isMin : Bool) : FNode := fun a b =>
  let r := fpMinMax f false isMin a.1 b.1 a.2 b.2
  ((r.pat, r.grade), r.flags)

/-- Value j of an element with its grade. -/
def gval (f : Fmt) (x : Elem) (j : Nat) : GVal := (x.valAt f j, gradeAt f x.grade j)

/-- The J trees and their pairwise combination (R200). -/
def fpTree (f : Fmt) (node : FNode) (xs : List (Nat × Elem)) : Option GVal × List (Nat × BitVec 6) :=
  let ts := (upTo (fmtVals f)).map fun j =>
    treeFold node 7 ((upTo 128).map fun e => (xs.find? fun x => x.1 == e).map fun x => (e, gval f x.2 j))
  let low := (xs.head?.map (·.1)).getD 0
  let (r, fl) := treeFold node (Nat.log2 (fmtVals f)) (ts.map fun t => t.1.map fun x => (low, x.2))
  (r.map (·.2), (ts.map (·.2)).flatten ++ fl)

/-- The ordered sum (R201). -/
def fpOrdered (node : FNode) : List (Nat × GVal) → Option GVal × List (Nat × BitVec 6)
  | [] => (none, [])
  | (_, x) :: r =>
    let (y, fl) := r.foldl (fun (acc : GVal × List (Nat × BitVec 6)) x =>
      let (z, f) := node acc.1 x.2
      (z, acc.2 ++ [(x.1, f)])) (x, [])
    (some y, fl)

/-- The values of active elements in sequence order (R201). -/
def seqVals (f : Fmt) (xs : List (Nat × Elem)) : List (Nat × GVal) :=
  (xs.map fun x => (upTo (fmtVals f)).map fun j => (x.1, gval f x.2 j)).flatten

/-- Write an FP reduction: flags, the threshold check, fd (R167, R199). -/
def putRed (f : Fmt) (n : VEntry) (d : FReg) (ident : Nat) (low : Nat) (r : Option GVal × List (Nat × BitVec 6)) : M Unit := do
  raiseFlags n r.2
  let (x, g) := r.1.getD (ident, fmtP f)
  let word : Grade := BitVec.ofNat 16 g
  fpTraps n low 0 (fmtP f) [g] word
  modify fun s => s.setF d { val := BitVec.ofNat 64 x, grade := word }

/-- The three tree reductions with an integer and an FP form. -/
inductive TreeOp | sum | min | max
  deriving DecidableEq, Repr

/-- Integer nodes on n-bit patterns, and identities (Table 10-3). -/
def intNode (op : TreeOp) (w a b : Nat) : Nat :=
  match op with
  | .sum => (a + b) % 2 ^ w
  | .min => if sx b w < sx a w then b else a
  | .max => if sx a w < sx b w then b else a
def intIdent (op : TreeOp) (w : Nat) : Nat :=
  match op with | .sum => 0 | .min => 2 ^ (w - 1) - 1 | .max => 2 ^ (w - 1)
def fpNode (op : TreeOp) (f : Fmt) (n : VEntry) : FNode :=
  match op with | .sum => addNode f n | .min => minNode f true | .max => minNode f false
def fpIdent (op : TreeOp) (f : Fmt) : Nat :=
  match op with | .sum => 0 | .min => packInf f false | .max => packInf f true

def treeRed (op : TreeOp) (r : RedDst) (a : VReg) (s : State) : Out :=
  runVec s { cls := .wh, src := [a], zeroVl := true } fun n => do
    let xs ← readActive a ((← get).activeList n)
    match r with
    | .int wd d =>
      let w := intBits wd
      modify fun s => s.setG d (sextWord (intTree (intNode op w) (intIdent op w) w xs) w)
    | .fp ff d =>
      let f := fpOf ff
      putRed f n d (fpIdent op f) ((xs.head?.map (·.1)).getD 0) (fpTree f (fpNode op f n) xs)

def execVrsum (r : RedDst) (a : VReg) (s : State) : Out := treeRed .sum r a s
def execVrmin (r : RedDst) (a : VReg) (s : State) : Out := treeRed .min r a s
def execVrmax (r : RedDst) (a : VReg) (s : State) : Out := treeRed .max r a s

def execVrosum (d : FReg) (a : VReg) (t : FpF) (s : State) : Out :=
  runVec s { cls := .wh, src := [a], zeroVl := true } fun n => do
    let xs ← readActive a ((← get).activeList n)
    let f := fpOf t
    putRed f n d 0 ((xs.head?.map (·.1)).getD 0) (fpOrdered (addNode f n) (seqVals f xs))

/-- A bitwise tree reduction. -/
def bitRed (f : Nat → Nat → Nat) (ones : Bool) (d : GReg) (a : VReg) (t : IntW) (s : State) : Out :=
  runVec s { cls := .wh, src := [a], zeroVl := true } fun n => do
    let xs ← readActive a ((← get).activeList n)
    let w := intBits t
    modify fun s => s.setG d (sextWord (intTree f (if ones then 2 ^ w - 1 else 0) w xs) w)

def execVrand (d : GReg) (a : VReg) (t : IntW) (s : State) : Out := bitRed (fun x y => x &&& y) true d a t s
def execVrior (d : GReg) (a : VReg) (t : IntW) (s : State) : Out := bitRed (fun x y => x ||| y) false d a t s

def execVrosat (d : GReg) (a : VReg) (t : IntW) (s : State) : Out :=
  runVec s { cls := .wh, src := [a], zeroVl := true } fun n => do
    let xs ← readActive a ((← get).activeList n)
    let w := intBits t
    let r := xs.foldl (fun acc x => clampI (acc + sx x.2.val.toNat w) (-2 ^ (w - 1)) (2 ^ (w - 1) - 1)) (0 : Int)
    modify fun s => s.setG d (wordOfInt r)

/-! ### Scans and recurrences (R202) -/

/-- The steps of one element: the running value, and the results of its values. -/
def scanEl (step : GVal → GVal → GVal → FOut) (f : Fmt) (run : GVal) (x y : Elem) : GVal × List FOut :=
  (upTo (fmtVals f)).foldl (fun acc j =>
    let r := step acc.1 (gval f x j) (gval f y j)
    ((r.pat, r.grade), acc.2 ++ [r])) (run, [])

/-- The carry-in: the last value of element 127 of vd. -/
def carryIn (f : Fmt) (x : Elem) : GVal := gval f x (fmtVals f - 1)

/-- An FP scan: every element checked in ascending order, then all written at once. -/
def fpScan (step : GVal → GVal → GVal → FOut) (f : Fmt) (n : VEntry) (d : VReg) (xs : List (Nat × Elem × Elem)) : M Unit := do
  let mut run := carryIn f ((← get).v d 127)
  let mut out : List (Nat × Elem) := []
  for (e, x, y) in xs do
    let (r, fs) := scanEl step f run x y
    let gs := fs.map (·.grade)
    let z := packElem f (fs.map (·.pat)) gs
    fpTraps n e (fs.foldl (fun a r => a ||| r.flags) 0) (fmtP f) gs z.grade
    run := r
    out := out ++ [(e, z)]
  modify fun s => s.putAll d out

def execVscan (d a : VReg) (t : ElTy) (s : State) : Out :=
  runVec s { cls := .wh, dst := [d], src := [a] } fun n => do
    let xs ← readActive a ((← get).activeList n)
    match t with
    | .int wd =>
      let w := intBits wd
      let c := ((← get).v d 127).val.toNat % 2 ^ w
      let r := xs.foldl (fun (acc : Nat × List (Nat × Elem)) x =>
        let y := (acc.1 + x.2.val.toNat) % 2 ^ w
        (y, acc.2 ++ [(x.1, ({ val := sextWord y w, grade := 0xFFFF } : Elem))])) (c, [])
      modify fun s => s.putAll d r.2
    | .fp ff =>
      let f := fpOf ff
      fpScan (fun run x _ => fpArith f (fcrRm n.fcr) (ftzFor f n.fcr) .add run.1 x.1 0 run.2 x.2 0) f n d
        (xs.map fun x => (x.1, x.2, x.2))

def execVlrec (d a b : VReg) (t : FpF) (s : State) : Out :=
  runVec s { cls := .wh, dst := [d], src := [a, b] } fun n => do
    let es := (← get).activeList n
    let xs ← es.mapM fun e => do return (e, ← srcV a e, ← srcV b e)
    let f := fpOf t
    fpScan (fun run x y => fpArith f (fcrRm n.fcr) (ftzFor f n.fcr) (.fma false false) x.1 run.1 y.1 x.2 run.2 y.2) f n d xs

end Sys2Proof.Machine
end

