-- ==== Sys2Proof/Machine/Cvt.lean ====
section
/-!
DEFINITION. Conversions (R137–R140, R147, R148, R203–R206).
-/

namespace Sys2Proof.Machine

open Sys2Proof

/-! ### Types -/

/-- An FP code as a format; an integer code as its width and whether it is signed. -/
inductive CvKind
  | int (w : Nat) (signed : Bool)
  | fp (f : Fmt)
  deriving DecidableEq, Repr

def cvKind : CvTy → CvKind
  | .i8 => .int 8 true | .i16 => .int 16 true | .i32 => .int 32 true | .i64 => .int 64 true
  | .u8 => .int 8 false | .u16 => .int 16 false | .u32 => .int 32 false | .u64 => .int 64 false
  | .f64 => .fp .f64 | .f32 => .fp .f32 | .bf16 => .fp .bf16 | .f16 => .fp .f16 | .e4m3 => .fp .e4m3 | .e5m2 => .fp .e5m2

/-- Values in an element. -/
def CvKind.vals : CvKind → Nat | .int .. => 1 | .fp f => fmtVals f

/-- A destination that stochastic rounding applies to (R147). -/
def stochOk : CvKind → Bool | .fp .bf16 => true | .fp .e4m3 => true | .fp .e5m2 => true | .fp .e2m1 => true | _ => false

/-- The mode of a conversion: none for stochastic rounding (R203). -/
def cvMode (r : Rnd) (fcr : BitVec 10) (stoch : Bool) : Option Rm :=
  match r with
  | .rne => some .rne | .rtz => some .rtz | .rdn => some .rdn | .rup => some .rup
  | .stoch => none
  | .dyn => if fcrSr fcr && stoch then none else some (fcrRm fcr)

/-- Limits of an integer type. -/
def intLo (w : Nat) (signed : Bool) : Int := if signed then -2 ^ (w - 1) else 0
def intHi (w : Nat) (signed : Bool) : Int := if signed then 2 ^ (w - 1) - 1 else 2 ^ w - 1
/-- The low bits of an element read as an integer type. -/
def intOf (w : Nat) (signed : Bool) (x : Word) : Int := if signed then sx x.toNat w else (x.toNat % 2 ^ w : Nat)
/-- An integer written to an element (R135). -/
def intPut (w : Nat) (signed : Bool) (x : Int) : Word :=
  if signed then sextWord (wrapN x w) w else BitVec.ofNat 64 (wrapN x w)

/-- A source value that a rounding works on: finite, or an integer. -/
def isFinite (k : CvKind) (x : Nat) : Bool :=
  match k with
  | .int .. => true
  | .fp f => match unpack f x with | .fin .. => true | _ => false

/-- One value converted to an FP format; an infinity raises no flag but the NV of an E4M3 destination, so no GL either (Table
10-4; assumption log 35). -/
def cvToFp (src : CvKind) (dst : Fmt) (mode : Rm) (ftz sat : Bool) (x : Elem) (j : Nat) : FOut :=
  match src with
  | .int w sg => fpFromInt dst mode ftz sat (intOf w sg x.val)
  | .fp f =>
    let r := fpConvert f dst mode ftz sat (x.valAt f j)
      (if x.grade = 0xFFFF ∨ fmtGraded f = false then none else some (gradeAt f x.grade j))
    match unpack f (x.valAt f j) with
    | .inf _ => { r with flags := r.flags &&& ~~~flGL }
    | _ => r

/-- One value converted to an integer, with its flags (Table 10-4). -/
def cvToInt (src : CvKind) (w : Nat) (sg : Bool) (mode : Rm) (sat : Bool) (x : Elem) : Int × BitVec 6 :=
  match src with
  | .int w' sg' =>
    let v := intOf w' sg' x.val
    (if sat then clampI v (intLo w sg) (intHi w sg) else v, 0)
  | .fp f => fpToInt f mode sat (intLo w sg) (intHi w sg) (x.valAt f 0)

/-- The values of an FP destination, SRS stepping at each finite one under stochastic rounding (R148) (assumption log 49). -/
def cvFpVals (src : CvKind) (dst : Fmt) (mode : Option Rm) (ftz sat : Bool) (x : Elem) (srs : BitVec 32) : List FOut × BitVec 32 :=
  (upTo (fmtVals dst)).foldl (fun (acc : List FOut × BitVec 32) j =>
    if src.vals ≤ j then (acc.1 ++ [{ pat := 0, grade := 0, flags := 0 }], acc.2)
    else match mode with
      | some m => (acc.1 ++ [cvToFp src dst m ftz sat x j], acc.2)
      | none =>
        let fin := match src with | .int .. => true | .fp f => isFinite src (x.valAt f j)
        let r := if fin then srsStep acc.2 else acc.2
        (acc.1 ++ [cvToFp src dst (.stoch r.toNat) ftz sat x j], r)) ([], srs)

def execVcvt (d a : VReg) (st dt : CvTy) (r : Rnd) (sat : Bool) (s : State) : Out :=
  runEl s { cls := .el, dst := [d], src := [a] } fun n e => do
    let x ← srcV a e
    let src := cvKind st
    match cvKind dt with
    | .int w sg =>
      let (v, fl) := cvToInt src w sg ((cvMode r n.fcr false).getD .rne) sat x
      fpTraps n e fl 0 [] 0
      modify fun s => s.setV d e { val := intPut w sg v, grade := 0xFFFF }
    | .fp f =>
      let (fs, srs) := cvFpVals src f (cvMode r n.fcr (stochOk (.fp f))) (ftzFor f n.fcr) sat x (← get).st.ctl.srs
      let gs := fs.map (·.grade)
      let y := packElem f (fs.map (·.pat)) gs
      let word : Grade := if fmtGraded f then y.grade else 0xFFFF
      fpTraps n e (fs.foldl (fun a r => a ||| r.flags) 0) (fmtP f) (if fmtGraded f then gs else []) word
      modify fun s => (s.setV d e { val := y.val, grade := word }).mapCtl fun c => { c with srs }

/-! ### SB4 (R138–R140, R205, R206) -/

/-- The value of a finite E3M5 code. -/
def sb4Scale (c : Nat) : Nat × Int := match unpack .e3m5 c with | .fin _ m e => (m, e) | _ => (0, 0)

/-- The block scale of the largest magnitude m × 2^e: the least code at or above a sixth of it, or 31. -/
def scaleFor (m : Nat) (e : Int) : Nat :=
  ((upTo 255).drop 1).find? (fun c => let (sm, se) := sb4Scale c; !gtDyadic m e (6 * sm) se) |>.getD 0xFE

/-- x ÷ s rounded to E2M1: the nibble and the flags OF and NX; under RTZ a quotient above 6 raises NX only (R205;
assumption log 36). -/
def quantOne (mode : Rm) (s : Bool) (m : Nat) (e : Int) (sm : Nat) (se : Int) : Nat × BitVec 6 :=
  let k := 48 + bitLen sm + (se - e).natAbs
  let n := m * 2 ^ k
  let r := roundTo .e2m1 mode s (n / sm) (e - se - k) (n % sm != 0)
  if r.ovf then (signBit .e2m1 s + 7, if mode = .rtz then flNX else flOF ||| flNX) else (packFin .e2m1 s r.m r.e, flagIf r.nx flNX)

/-- A value of the sequence: the element that supplied it, none for padding, and the value. -/
abbrev SeqVal := Option Nat × Fv

/-- Nibbles of a block, SRS stepping at each value that is no padding. -/
def quantVals (mode : Option Rm) (sm : Nat) (se : Int) : List SeqVal → BitVec 32 → List Nat × BitVec 32 × List (Nat × BitVec 6)
  | [], r => ([], r, [])
  | (el, v) :: l, r =>
    let r' := match mode, el with | none, some _ => srsStep r | _, _ => r
    let (nib, fl) := match v with
      | .fin s m e => quantOne (match mode with | some x => x | none => .stoch r'.toNat) s m e sm se
      | _ => (0, 0)
    let (ns, r'', fls) := quantVals mode sm se l r'
    (nib :: ns, r'', match el with | some i => (i, fl) :: fls | none => fls)

/-- One block of fourteen values: its slot, SRS, and the flags recorded. -/
def quantBlock (mode : Option Rm) (vs : List SeqVal) (srs : BitVec 32) : Nat × BitVec 32 × List (Nat × BitVec 6) :=
  let bad := vs.filter fun x => match x.2 with | .fin .. => false | _ => true
  if bad ≠ [] then (0xFF, srs, bad.filterMap fun x => x.1.map fun e => (e, flNV))
  else
    let amax := vs.foldl (fun (a : Nat × Int) x => match x.2 with
      | .fin _ m e => if gtDyadic m e a.1 a.2 then (m, e) else a
      | _ => a) (0, 0)
    if amax.1 = 0 then (0, srs, [])
    else
      let c := scaleFor amax.1 amax.2
      let (sm, se) := sb4Scale c
      let (ns, r, fls) := quantVals mode sm se vs srs
      (c + 256 * packVals 4 ns, r, fls)

/-- Cut a list into blocks of fourteen, the last one padded with zeros. -/
def blocks14 : Nat → List SeqVal → List (List SeqVal)
  | 0, _ => []
  | k + 1, l => if l = [] then [] else
      (l.take 14 ++ List.replicate (14 - l.length) (none, .fin false 0 0)) :: blocks14 k (l.drop 14)

def execVquant (d a : VReg) (sf : FpF) (r : Rnd) (s : State) : Out :=
  runVec s { cls := .wh, dst := [d], src := [a] } fun n => do
    let s0 ← get
    let f := fpOf sf
    -- an inactive element contributes zeros and steps SRS no more than padding does (R148, R205)
    let xs : List (Option Nat × Elem) ← (upTo n.vl).mapM fun e => do
      if s0.isActive n e then return (some e, ← srcV a e) else return (none, { val := 0, grade := 0xFFFF })
    let seq : List SeqVal := (xs.map fun x => (upTo (fmtVals f)).map fun j => (x.1, unpack f (x.2.valAt f j))).flatten
    let (slots, srs, fls) := (blocks14 40 seq).foldl (fun (acc : List Nat × BitVec 32 × List (Nat × BitVec 6)) b =>
      let (x, r, fl) := quantBlock (cvMode r n.fcr true) b acc.2.1
      (acc.1 ++ [x], r, acc.2.2 ++ fl)) ([], s0.st.ctl.srs, [])
    raiseFlags n fls
    modify fun s => (s.putAll d (slots.zipIdx.map fun (x, i) => (i, { val := BitVec.ofNat 64 x, grade := 0xFFFF }))).mapCtl
      fun c => { c with srs }

/-- Element i of a slot in a format: exact, or nan(4) under a NaN scale (R140). -/
def sb4Elem (f : Fmt) (slot : Word) (i : Nat) : Nat :=
  let c := slot.toNat % 256
  let nib := slot.toNat / 2 ^ (4 * i + 8) % 16
  let sg := 8 ≤ nib
  if c = 0xFF then nanC f false 4
  else
    let (sm, se) := sb4Scale c
    match unpack .e2m1 nib with
    | .fin _ m e => (fpFromDyadic f .rne false false sg (m * sm) (e + se)).1
    | _ => 0

def execVdequant (d a : VReg) (t : FpF) (_r : Rnd) (_x : Bool) (s : State) : Out :=
  runVec s { cls := .wh, dst := [d], src := [a], plainSrc := [a] } fun n => do
    let f := fpOf t
    let s0 ← get
    let mut out : List (Nat × Elem) := []
    for e in s0.activeList n do
      let ps := (upTo (fmtVals f)).map fun j =>
        let i := fmtVals f * e + j
        sb4Elem f (s0.v a (i / 14)).val (i % 14)
      let gs := ps.map fun p => match unpack f p with | .fin .. => fmtP f | _ => 0
      let y := packElem f ps gs
      fpTraps n e 0 (fmtP f) gs y.grade
      out := out ++ [(e, y)]
    modify fun s => s.putAll d out

end Sys2Proof.Machine
end

