-- ==== Sys2Proof/Machine/Eng.lean ====
section
/-!
DEFINITION. The engine FIFOs and their instructions (R283–R289, R468), and how an engine takes and finishes a command.
-/

namespace Sys2Proof.Machine

open Sys2Proof

/-! ### FIFOs -/

/-- Commands outstanding (R283): pushed and not popped. -/
def Fifo.out (f : Fifo) : Nat := f.cmds.length + (if f.running.isSome then 1 else 0) + f.results.length
/-- Every command has posted its result. -/
def Fifo.idle (f : Fifo) : Bool := f.cmds.isEmpty && f.running.isNone
def State.mapFifo (s : State) (e : Fin 8) (f : Fifo → Fifo) : State :=
  { s with st := { s.st with fifo := s.st.fifo.set e (f s.st.fifo[e]) } }

/-- The engine of a selector is enabled on the strand's die, or its section for the colouring unit (R286). -/
def State.engineOn (s : State) (e : Fin 8) : Bool :=
  let cfg := s.diecfg[s.myDie]
  if e.val < 4 then dieCopy cfg e.val
  else if e.val = 4 then dieTopo cfg
  else if e.val = 5 then dieScores cfg (s.st.core / 16 % 8) != 0
  else if e.val = 6 then dieColl cfg
  else true

/-- The checks of every engine instruction (R286). -/
def engineChecks (e : Fin 8) : M Unit := do
  if e = 7 then needS
  if (← get).engineOn e then pure () else raiseIr cILL

/-- The doublewords of a record read as one number. -/
def wordsOf (x : Nat) (n : Nat) : List Word := (upTo n).map fun i => BitVec.ofNat 64 (x / 2 ^ (64 * i) % 2 ^ 64)

/-- A push is a release towards its engine (R268): it waits for the earlier entries but those of the array that store nothing, and for
the acknowledgements of earlier stores. -/
def pushReady : M Unit := do
  if (← get).st.vq.all fun e => wMaj e.word == 0x2C then awaitTrains else waitFor .queue

/-- An `mx.st` (R226). -/
def mxStores (w : InstrWord) : Bool := wMaj w == 0x2C && wFn w / 16 == 9

/-- A command with a follow-on on the array, which may overtake an earlier `mx.st` (R211, R392, R394). -/
def followsOn (dw0 : Nat) : Bool := dw0 % 256 == 1 && decide (dw0 / 2 ^ 32 % 4 = 3)

/-- eng.push: the alignment of the entry before the wait for room in the FIFO (assumption log 92); the tiles that earlier entries store
are stored before the push, but for a command with a follow-on (R268; assumption log 37). -/
def execEngPush (a : GReg) (e : Fin 8) (s : State) : Out :=
  runScalar s (do
    engineChecks e
    hazard [a] []
    let va := ((← get).g a).toNat
    if va % 64 ≠ 0 then raise cPERM (BitVec.ofNat 64 va) 0
    if 16 ≤ (((← get).st.fifo[e]).out) then waitFor (.engPush e)
    pushReady
    memHazard va 64
    let (x, _) ← loadM false (.plain false) va 64 0
    if !followsOn x && (← get).st.vq.any (fun n => mxStores n.word) then waitFor .queue
    modify fun s => s.mapFifo e fun f => { f with
      cmds := f.cmds ++ [({ dw := wordsOf x 8, mode := s.st.mode, addr := va, core := s.st.core, slot := s.st.slot } : Command)] })

/-- STATUS of a result element (Table 16-1). -/
def Result.status (r : Result) : Nat := fld r.info 47 40

/-- The cause a status raises at the pop (Tables 16-3, 17-4, 18-6; R440). -/
def statusCause (e status : Nat) : Nat :=
  if status < 0x10 then nth [0, cILL, cXLATE, cPERM, cMEMERR, cCOUNTWIDTH, cMXOWN, cSTREAM, cLINK] status cILL
  else if e = 4 then nth [cILL, cCOUNTWIDTH, cILL, cILL, cCOUNTWIDTH, cILL] (status - 0x10) cILL
  else if e = 6 then nth [cGROUP, cCOLLMIS, cILL, cCOUNTWIDTH] (status - 0x10) cILL
  else cILL

/-- GD of a pop with nothing outstanding: STATUS NONE. -/
def popNone : Word := 0x0000FF0000000000

def execEngPop (d a : GReg) (e : Fin 8) (s : State) : Out :=
  runScalar s (do
    engineChecks e
    hazard [d, a] []
    let s ← get
    let va := (s.g a).toNat
    if a ≠ 0 ∧ va % 16 ≠ 0 then raise cPERM (BitVec.ofNat 64 va) 0
    let f := s.st.fifo[e]
    if f.out = 0 then set (s.setG d popNone)
    else
      match f.results with
      | [] => waitFor (.engPop e)
      | r :: rest => do
        if a ≠ 0 then
          memHazard va 16
          storeM false (.plain false) .int va 16 (r.addr.toNat + r.info.toNat * 2 ^ 64) 0
        modify fun s => (s.setG d r.info).mapFifo e fun f => { f with results := rest }
        if r.status ≠ 0 ∧ r.quiet = false then
          throw (.trap { code := statusCause e.val r.status, val := r.addr, elem := 0, eng := true, nextPc := true }))

/-- Table 16-2. -/
def pollWord (f : Fifo) : Word :=
  BitVec.ofNat 64 (f.out + f.results.length * 256 + if f.out = 0 then 65536 else 0)

def execEngPoll (d : GReg) (e : Fin 8) (s : State) : Out :=
  runScalar s (do
    engineChecks e
    hazard [d] []
    modify fun s => s.setG d (pollWord s.st.fifo[e]))

def execEngDrain (e : Fin 8) (s : State) : Out :=
  runScalar s (do
    engineChecks e
    if (((← get).st.fifo[e]).idle) then pure () else waitFor (.engDrain e))

/-! ### An engine at work (R284, R287, R288) -/

/-- Which commands an engine serves: those pushed on its die, and for the colouring unit in its section. -/
structure EngineUnit where
  sel : Fin 8
  die : DieNo
  sect : Option Nat

def EngineUnit.serves (u : EngineUnit) (c : Command) : Bool :=
  match u.sect with
  | none => coreDie c.core == u.die
  | some x => c.core / 16 == x

/-- A strand put in its place in an ascending list. -/
def insertStrand (t : Strand) : List Strand → List Strand
  | [] => [t]
  | u :: r => if t.sn < u.sn then t :: u :: r else u :: insertStrand t r

/-- The strands of the package in ascending order of their numbers. -/
def State.numbered (s : State) : List Strand :=
  match s.cur with
  | some _ => insertStrand s.st (s.others.map (·.2))
  | none => s.others.map (·.2)

/-- One more than the strand last served, 0 when there is none since the reset of the die. -/
def State.lastOf (s : State) (u : EngineUnit) : Nat :=
  match u.sect with
  | none => (s.dies[u.die]).lastServed[u.sel]
  | some x => (s.dies[u.die]).lastColour[(⟨x % 8, Nat.mod_lt _ (by decide)⟩ : Fin 8)]
def State.setLast (s : State) (u : EngineUnit) (n : Nat) : State :=
  s.mapDie u.die fun d => match u.sect with
    | none => { d with lastServed := d.lastServed.set u.sel n }
    | some x => { d with lastColour := d.lastColour.set (⟨x % 8, Nat.mod_lt _ (by decide)⟩ : Fin 8) n }

/-- The commands an engine has taken and not finished, with their strands. -/
def State.runningOf (s : State) (u : EngineUnit) : List (Strand × Command) :=
  s.numbered.filterMap fun t => match (t.fifo[u.sel]).running with
    | some c => if u.serves c then some (t, c) else none
    | none => none

/-- The command an engine takes next, with its strand: the one it has begun, and none while it performs one (R284). A MEMCOLL that waits
for its peers, and a CREATE that waits for the member packages, do not keep their engine from the others (assumption log 19). -/
def State.headOf (s : State) (u : EngineUnit) : Option (Strand × Command) :=
  let waiting := s.numbered.filterMap fun t => match (t.fifo[u.sel]).running, (t.fifo[u.sel]).cmds with
    | none, c :: _ => if u.serves c then some (t, c) else none
    | _, _ => none
  if u.sel ≠ 6 ∧ s.runningOf u ≠ [] then none
  else match waiting.find? fun x => (x.1.fifo[u.sel]).paused with
  | some x => some x
  | none =>
    match waiting.find? fun x => decide (s.lastOf u ≤ x.1.sn) with
    | some x => some x
    | none => waiting.head?

/-- What a command gives: the lowest byte and the length of its named range, and its flags. -/
structure Done where
  addr : Nat
  len : Nat
  flags : Nat
  deriving DecidableEq, Repr

/-- A command fails with a status and an address. -/
def failWith {α : Type} (status addr : Nat) : M α := raise (256 + status) (BitVec.ofNat 64 addr) 0
def badCmd {α : Type} (c : Command) : M α := failWith 0x01 c.addr
/-- A field rule of a command (R288). -/
def cmdRule (c : Command) (ok : Bool) : M Unit := if ok then pure () else badCmd c

/-- STATUS of a failure: a fault of an access, or one the command names. -/
def statusOf (code : Nat) : Nat :=
  if 256 ≤ code then code - 256
  else if code = cXLATE then 0x02 else if code = cPERM then 0x03 else if code = cMEMERR then 0x04
  else if code = cSTREAM then 0x07 else if code = cLINK then 0x08 else if code = cMXOWN then 0x06 else 0x01

/-- On whose behalf an engine works for a command (R284). -/
def Command.agent (c : Command) (t : Strand) (sel : Fin 8) : Agent :=
  { partn := t.partn, region := t.region, mode := c.mode, core := c.core, op := 8 * (sel.val + 1) }

/-- The result element (Table 16-1). -/
def resultOf (c : Command) (status : Nat) (d : Done) : Result :=
  let dw0 := nth c.dw 0 0
  { addr := BitVec.ofNat 64 d.addr,
    info := BitVec.ofNat 64 (fld dw0 31 16 * 2 ^ 48 + status * 2 ^ 40 + d.flags % 64 * 2 ^ 34 +
      (if status = 0 then d.len % 2 ^ 34 else 0)),
    quiet := fbit dw0 8 }

/-- A command has left the FIFO; its strand, when it is live, takes the result, and a `wait` of its may complete (R283,
R284, R426). -/
def State.post (s : State) (u : EngineUnit) (sn : Nat) (r : Result) : State :=
  match s.strand? sn with
  | none => s
  | some t =>
    let f := t.fifo[u.sel]
    let f := { f with cmds := if f.running.isSome then f.cmds else f.cmds.drop 1, running := none, coll := none, paused := false, lines := [],
                      results := if t.live then f.results ++ [r] else [] }
    let s' := s.setStrand { t with fifo := t.fifo.set u.sel f, waitDone := t.waitDone || t.wait == .wakeOrResult }
    if (t.fifo[u.sel]).running.isSome then s' else s'.setLast u (sn + 1)

/-- A command has been taken and is not finished. -/
def State.begin (s : State) (u : EngineUnit) (sn : Nat) (c : Command) (coll : Option CollAt) : State :=
  match s.strand? sn with
  | none => s
  | some t =>
    let f := t.fifo[u.sel]
    (s.setStrand { t with fifo := t.fifo.set u.sel { f with
      cmds := if f.running.isSome then f.cmds else f.cmds.drop 1, running := some c, coll, paused := false } }).setLast u (sn + 1)

/-- Where a command stands after an attempt: finished, or begun and waiting for another party. -/
inductive Progress
  | done (d : Done)
  | begun (coll : Option CollAt)
  deriving DecidableEq, Repr

/-- FP flags that a command raises: kept for its result, also where it fails (Table 16-1). -/
def engFlag (fl : BitVec 6) : M Unit := modify fun s => { s with st := { s.st with engFlags := s.st.engFlags ||| fl } }

/-- The command waits in its middle: its engine is kept to it, and its lines count as they are touched (R253, R284). -/
def State.pauseFifo (s : State) (sel : Fin 8) (sn : Nat) (lines : List Nat) : State :=
  match s.strand? sn with
  | none => s
  | some t => s.setStrand { t with fifo := t.fifo.set sel { t.fifo[sel] with
      paused := true, lines := (t.fifo[sel]).lines ++ lines.filter fun k => !(t.fifo[sel]).lines.contains k } }

/-- An engine works on a command: it posts a result, has begun, or waits for the fabric or the host. What it has written by then
stays written (R255), and is written again when it goes on (assumption log 53, 95). -/
def engineWork (s : State) (u : EngineUnit) (t : Strand) (c : Command) (body : Agent → M Progress) : State :=
  let a := c.agent t u.sel
  let s1 := s.switchTo t.sn
  let trains := s1.st.trains
  let s1 := { s1 with st := { s1.st with trains := [], lines := [], engFlags := 0 } }
  let back := fun (s : State) => { s with st := { s.st with trains, lines := [] } }
  let touched := fun (s : State) =>
    let n := (s.st.lines.filter fun k => !(t.fifo[u.sel]).lines.contains k).length
    s.mapDie u.die fun d => { d with reqe := d.reqe + BitVec.ofNat 64 n }
  let count := fun (s : State) => back (touched (s.dropLeaves (a.who t.sn)))
  let forget := fun (s : State) =>
    { s with st := { s.st with remote := s.st.remote.filter fun r => r.op != a.op && r.op != a.op + 1 } }
  let pause := fun (s' : State) =>
    let k := { s1.keepPosts s' with
      mem := s'.mem, badLines := s'.badLines, badBytes := s'.badBytes, cores := s'.cores, onchip := s'.onchip, dies := (touched s').dies }
    (back k).pauseFifo u.sel t.sn s'.st.lines
  let out :=
    match (do
        if (← get).dies[u.die].cut then failWith 0x08 c.addr
        if fld (nth c.dw 0 0) 15 9 ≠ 0 then badCmd c
        let d ← body a
        engineFlush a.op
        return d : M Progress) s1 with
    | .ok (.done d) s' => (forget (count s')).post u t.sn (resultOf c 0 { d with flags := s'.st.engFlags.toNat })
    | .ok (.begun k) s' => (count s').begin u t.sn c k
    | .error (.wait _) s' => pause s'
    | .error (.trap x) s' =>
      match engineFlush a.op s' with
      | .error (.wait _) y => pause y
      | .ok _ y | .error (.trap _) y =>
        let y := if x.code = cMEMERR then y.setRrs 4 else y
        (forget (count y)).post u t.sn
          (resultOf c (statusOf x.code) { addr := x.val.toNat, len := 0, flags := y.st.engFlags.toNat })
  match s.cur with
  | some b => out.switchTo b
  | none => out

/-- An engine performs the command at the head of its rotation, when it is one that a test admits. -/
def runEngine (s : State) (u : EngineUnit) (accepts : Command → Bool) (body : Strand → Command → Agent → M Progress) : Out :=
  match s.headOf u with
  | none => .next s
  | some (t, c) => if accepts c then .next (engineWork s u t c (body t c)) else .next s

/-- A command without a named range has been performed. -/
def doneEmpty : Progress := .done { addr := 0, len := 0, flags := 0 }

/-- CMD of a command (Table 16-4). -/
def Command.code (c : Command) : Nat := fld (nth c.dw 0 0) 7 0
/-- A doubleword, and SPEC. -/
def Command.w (c : Command) (n : Nat) : Word := nth c.dw n 0
def Command.spec (c : Command) : Nat := fld (c.w 0) 63 32
/-- An address field: bits [54:0], with zero above (Table 16-5). -/
def addrOk (w : Word) : Bool := fld w 63 55 == 0

end Sys2Proof.Machine
end

