-- ==== Sys2Proof/Machine/Matrix.lean ====
section
/-!
DEFINITION. The matrix array (R43, R44, R165, R166, R208–R232).
-/

namespace Sys2Proof.Machine

open Sys2Proof

/-! ### Shapes (Table 11-1) -/

/-- Columns of a weight tile, rows of a step, the tile kind it needs. -/
def mxCols : MxF → Nat | .fp32 => 24 | .fp64 => 16 | _ => 48
def mxRows : MxF → Nat | .fp64 => 16 | _ => 64
def mxKind : MxF → Nat | .int8 => 1 | .fp64 => 2 | _ => 0
/-- Rows and columns of a tile of a kind, and bytes of a value. -/
def kindRows (k : Nat) : Nat := if k = 2 then 16 else 64
def kindCols (k : Nat) : Nat := if k = 2 then 16 else 48
def kindSize (k : Nat) : Nat := if k = 2 then 8 else 4
def kindFmt (k : Nat) : Fmt := if k = 2 then .f64 else .f32
/-- The MX formats by code. -/
def mxOfCode (n : Nat) : MxF :=
  if n = 0 then .bf16 else if n = 1 then .e4m3 else if n = 2 then .e5m2 else if n = 3 then .int8
  else if n = 4 then .sb4 else if n = 5 then .fp32 else .fp64
def isFp8 (f : MxF) : Bool := f == .e4m3 || f == .e5m2
/-- A step format runs on a plane format (R210). -/
def mxPairs (stepF planeF : MxF) : Bool := stepF == planeF || (isFp8 stepF && isFp8 planeF)

/-! ### Tiles -/

/-- The value at a row and column of a tile, and its write. -/
def State.acc (s : State) (c : Nat) (t : Fin 4) (i col : Nat) : Nat :=
  let k := (s.coreOf c).tiles[t].kind
  Memory.readN s.onchip (tileKey c t.val ((i * kindCols k + col) * kindSize k)) (kindSize k)
def State.setAcc (s : State) (c : Nat) (t : Fin 4) (i col x : Nat) : State :=
  let k := (s.coreOf c).tiles[t].kind
  { s with onchip := Memory.writeN s.onchip (tileKey c t.val ((i * kindCols k + col) * kindSize k)) (kindSize k) x }
def State.mapTile (s : State) (c : Nat) (t : Fin 4) (f : Tile → Tile) : State :=
  s.mapCore c fun k => { k with tiles := k.tiles.set t (f k.tiles[t]) }
def row64 (i : Nat) : Fin 64 := ⟨i % 64, Nat.mod_lt _ (by decide)⟩

/-! ### Planes (R215–R218) -/

/-- The exchange that a retired `mx.swap` asked for takes effect (R217). -/
def State.settleSwap (s : State) (c : Nat) : State :=
  if (s.coreOf c).swapDue then
    let m := Memory.move s.onchip (planeKey c 0 0) s.onchip (planeKey c 1 0) planeBytes
    let m := Memory.move m (planeKey c 1 0) s.onchip (planeKey c 0 0) planeBytes
    { s with onchip := m }.mapCore c fun k =>
      { k with active := k.shadow, shadow := k.active, activeDirty := true, shadowDirty := true, swapDue := false }
  else s

/-- Write a loaded tile of weights and its tag to the shadow plane: the chunks by column and row. -/
def State.putShadow (s : State) (c : Nat) (chunks : List (Nat × Nat)) (tag : PlaneTag) : State :=
  let m := chunks.foldl (fun m x => Memory.writeN m (planeKey c 1 x.1) 48 x.2) s.onchip
  { s with onchip := m }.mapCore c fun k => { k with shadow := tag, shadowDirty := true }

/-- BF16 1.0. -/
def bf16One : BitVec 16 := 0x3F80

/-- One 48-byte chunk of weights, which ignores sidecars: one access. -/
def loadChunk (va : Word) : M Nat := do
  if va.toNat % 8 ≠ 0 then raise cPERM va 0
  let (x, _) ← loadM false (.plain false) va.toNat 48 0
  return x

/-! ### Checks at issue (R210, R211) -/

/-- The slot owns the array, and the tile when one is named: looked at before the instruction's other traps (assumption log 112). -/
def mxOwned (tile : Option (Fin 4)) : M Unit := do
  let s ← get
  let c := s.myCore
  require (c.owner == s.st.slot) cMXOWN 0 0
  match tile with
  | some t => require (tileOwned c.div s.st.slot t.val) cMXOWN 0 0
  | none => pure ()
  set (s.settleSwap s.st.core)

/-- The facts of an MX instruction. -/
def mxInfo : VInfo := { cls := .wh }

/-- The shadow plane is not reserved by a copy command (R218). -/
def planeFree : M Unit := do if (← get).myCore.reserved.isSome then waitFor .plane

/-- Load the shadow plane: a chunk for each column and row, none for a row of zeros; a failure leaves its tag invalid
(R216). -/
def loadShadow (f : MxF) (rows : Nat) (addr : Nat → Nat → Option Word) (scales : Vector (BitVec 16) 64) : M Unit := do
  let s0 ← get
  let core := s0.st.core
  let get1 : M (List (Nat × Nat)) :=
    (upTo (mxCols f * 64)).mapM fun i => do
      let c := i / 64
      let r := i % 64
      match addr c r with
      | some va => return (c * 3072 + 48 * r, ← loadChunk va)
      | none => return (c * 3072 + 48 * r, 0)
  fun s => match get1 s with
    | .ok xs s => .ok () (s.putShadow core xs { valid := true, fmt := f.code, n := rows, sw := scales })
    | .error (.trap t) s =>
      .error (.trap t) (s.mapCore core fun k => { k with shadow := { k.shadow with valid := false }, shadowDirty := true })
    | .error e s => .error e s

def execMxLdw (a b : GReg) (f : MxF) (s : State) : Out :=
  runVec s { mxInfo with opA := .g a, opB := .g b, addr := some (addrPure fun n r => (n.opA + BitVec.ofNat 64 (48 * r)).toNat) } fun n => do
    mxOwned none
    planeFree
    let step := sextWord n.opB.toNat 32
    let w := if f = .sb4 then BitVec.ofNat 16 (fld n.opB 47 32) else bf16One
    loadShadow f 64 (fun c r => some (n.opA + BitVec.ofNat 64 c * step + BitVec.ofNat 64 (48 * r))) (.replicate 64 w)

def execMxLdwg (a : GReg) (b : VReg) (f : MxF) (s : State) : Out :=
  runVec s { mxInfo with opA := .g a, src := [b], addr := some (addrM fun n r => do
    return (n.opA + BitVec.ofNat 64 (48 * ((← srcV b r).val.toNat % 2 ^ 32))).toNat) } fun n => do
    mxOwned none
    planeFree
    let rows := min n.vl 64
    let s0 ← get
    let xs ← readActive b ((upTo rows).filter (s0.isActive n))
    let row := fun r => xs.find? fun x => x.1 == r
    loadShadow f rows
      (fun c r => (row r).map fun x =>
        n.opA + BitVec.ofNat 64 c * n.vstr + BitVec.ofNat 64 (48 * (x.2.val.toNat % 2 ^ 32)))
      (Vector.ofFn fun (r : Fin 64) => match row r.val with
        | some x => if f = .sb4 then BitVec.ofNat 16 (fld x.2.val 47 32) else bf16One
        | none => bf16One)

def execMxSwap (s : State) : Out :=
  runVec s mxInfo fun _ => do
    mxOwned none
    planeFree
    modify fun s => s.mapCore s.st.core fun k => { k with swapDue := true }

/-- SWAP_EFFECT (R217). -/
def execSwapEffect (core : Nat) (s : State) : Out := .next (s.settleSwap core)

/-! ### Terms of a dot product (R165, R220) -/

/-- One product: a NaN with its cause, an infinity, or exact. -/
inductive Term
  | nan (c : Nat)
  | inf (s : Bool)
  | fin (s : Bool) (m : Nat) (e : Int)
  deriving DecidableEq, Repr

/-- The product of two values. -/
def termOf (a w : Fv) : Term :=
  match a, w with
  | .nan .., _ => .nan 3
  | _, .nan .. => .nan 3
  | .fin s m e, .fin s' m' e' => .fin (s != s') (m * m') (e + e')
  | a, w => if isZero a || isZero w then .nan 2 else .inf (fvSign a != fvSign w)

/-- An SB4 term x_a · s_a · Ba · x_w · s_w · S_w (R140, R141, R220): slots and element, band scale and weight scale. -/
def termSb4 (sa sw : Word) (i : Nat) (ba ws : Fv) : Term :=
  let na := sa.toNat / 2 ^ (4 * i + 8) % 16
  let nw := sw.toNat / 2 ^ (4 * i + 8) % 16
  if sa.toNat % 256 = 0xFF ∨ sw.toNat % 256 = 0xFF ∨ isNan ba ∨ isNan ws then .nan 4
  else
    let (ma, ea) := sb4Scale (sa.toNat % 256)
    let (mw, ew) := sb4Scale (sw.toNat % 256)
    match unpack .e2m1 na, unpack .e2m1 nw with
    | .fin s x e, .fin s' x' e' =>
      let m := x * x' * ma * mw
      let sg := (s != s') != (fvSign ba != fvSign ws)
      if m = 0 then .fin sg 0 0
      else match termOf ba ws with
        | .fin _ mb eb => .fin sg (m * mb) (e + e' + ea + ew + eb)
        | .inf _ => .inf sg
        | t => t
    | _, _ => .nan 4

/-- Values of a doubleword in a step format. -/
def mxFmt? : MxF → Option Fmt
  | .bf16 => some .bf16 | .e4m3 => some .e4m3 | .e5m2 => some .e5m2 | .fp32 => some .f32 | .fp64 => some .f64 | _ => none

/-- The grade of an activation value: its field of the word at the accumulator's p (R159, R165); content without a field of its
own counts as full (Table 8-1; assumption log 32). -/
def actGrade (f : Fmt) (p : Nat) (w : Grade) (j : Nat) : Nat :=
  if w = 0xFFFF ∨ fmtGraded f = false then p else min p (w.toNat / 2 ^ (gradeBits f * j) % gradeMask f)

/-- The terms of one activation element and the weight doubleword it meets, with the activation's grades (R165). -/
def termsOf (f wf : MxF) (p : Nat) (x : Elem) (w : Word) (ba ws : Fv) : List (Term × Nat) :=
  match mxFmt? f, mxFmt? wf with
  | some fa, some fw => (upTo (fmtVals fa)).map fun j =>
      (termOf (unpack fa (x.valAt fa j)) (unpack fw (valJ w.toNat (fmtBits fw) j)),
       actGrade fa p x.grade j)
  | _, _ => (upTo 14).map fun i => (termSb4 x.val w i ba ws, p)

/-- ⌊log₂|x|⌋ of a term that is no zero. -/
def termExp : Term → Option Int
  | .fin _ m e => if m = 0 then none else some (e + Nat.log2 m)
  | _ => none

/-- x truncated toward zero to a multiple of 2^q, in units of 2^q. -/
def truncTo (q : Int) (s : Bool) (m : Nat) (e : Int) : Int :=
  let a : Nat := if q ≤ e then m * 2 ^ (e - q).toNat else m / 2 ^ (q - e).toNat
  if s then -(a : Int) else a

/-- One element of an FP tile after a step (R165, R220): value and grade. `old` is none for `mx.stepz`. -/
def accumulate (f : Fmt) (old : Option (Nat × Nat)) (ts : List (Term × Nat)) : Nat × Nat :=
  let p := fmtP f
  let o := old.map fun x => (unpack f x.1, x.2)
  let infs := (ts.filterMap fun t => match t.1 with | .inf s => some s | _ => none) ++
    (match o with | some (.inf s, _) => [s] | _ => [])
  match old, o with
  | some (x, _), some (.nan .., _) => (x, 0)
  | _, _ =>
    if ts.any (fun t => t.1 == .nan 4) then (nanC f false 4, 0)
    else if ts.any (fun t => t.1 == .nan 3) then (nanC f false 3, 0)
    else if ts.any (fun t => t.1 == .nan 2) then (nanC f false 2, 0)
    else if infs.contains true && infs.contains false then (nanC f false 1, 0)
    else match infs with
    | s :: _ => (packInf f s, 0)
    | [] =>
      let live := ts.filterMap fun t => match t.1 with
        | .fin s m e => if m = 0 then none else some (s, m, e, t.2)
        | _ => none
      let live := live ++ (match o with
        | some (.fin s m e, g) => if m = 0 then [] else [(s, m, e, g)]
        | _ => [])
      match live with
      | [] => ((match o with | some (.fin true _ _, _) => signBit f true | _ => 0), p)
      | x :: _ =>
        let ex := live.foldl (fun a y => max a (y.2.2.1 + (Nat.log2 y.2.1 : Int))) (x.2.2.1 + (Nat.log2 x.2.1 : Int))
        let gIn := live.foldl (fun a y => min a y.2.2.2) p
        let q := ex - (if f = .f64 then 112 else 40)
        let sum := live.foldl (fun a y => a + truncTo q y.1 y.2.1 y.2.2.1) 0
        if sum = 0 then (0, 0)
        else
          let r := roundTo f .rne (decide (sum < 0)) sum.natAbs q false
          let (y, _, _, isInf) := finish f .rne false r
          if isInf then (y, 0)
          else if r.m = 0 then (y, 0)
          else (y, clampN (r.e + Nat.log2 r.m - (ex - gIn)) p)

/-! ### Tile steps (R219–R222, R228) -/

/-- The checks of R210 on a tile and the active plane. -/
def stepFits (c : Core) (t : Fin 4) (f : MxF) : Bool :=
  c.active.valid && c.tiles[t].kind == mxKind f && mxPairs f (mxOfCode c.active.fmt)

/-- A weight doubleword of the active plane: column, element of the K-row. -/
def State.weight (s : State) (c col q : Nat) : Word :=
  BitVec.ofNat 64 (Memory.readN s.onchip (planeKey c 0 (col * 3072 + 8 * q)) 8)

/-- One row of a step: its new values and its new row grade. -/
def stepRow (s : State) (c : Nat) (t : Fin 4) (f : MxF) (zero : Bool) (ba : Fv) (i : Nat) (row : List Elem) : List Nat × Nat :=
  let k := s.coreOf c
  let wf := mxOfCode k.active.fmt
  let old := (k.tiles[t].rowGrade[row64 i])
  if f = .int8 then
    ((upTo 48).map fun col =>
      let sum := (row.zipIdx.map fun (x, q) =>
        let w := s.weight c col q
        ((upTo 8).map fun j => sx (valJ x.val.toNat 8 j) 8 * sx (valJ w.toNat 8 j) 8).foldl (· + ·) 0).foldl (· + ·) (0 : Int)
      wrapN ((if zero then 0 else (s.acc c t i col : Int)) + sum) 32, old)
  else
    let ff := kindFmt k.tiles[t].kind
    let rs := (upTo (mxCols f)).map fun col =>
      let ts := (row.zipIdx.map fun (x, q) =>
        termsOf f wf (fmtP ff) x (s.weight c col q) ba (unpack .bf16 (k.active.sw[row64 (q / 6)]).toNat)).flatten
      accumulate ff (if zero then none else some (s.acc c t i col, old)) ts
    (rs.map (·.1), (rs.map (·.2)).foldl min (if f = .fp32 then old else fmtP ff))

/-- A tile step over its activation rows. -/
def State.tileStep (s : State) (c : Nat) (t : Fin 4) (f : MxF) (zero : Bool) (ba : Fv) (rows : List (List Elem)) : State :=
  let rs := rows.zipIdx.map fun (row, i) => (i, stepRow s c t f zero ba i row)
  let s' := rs.foldl (fun s (i, vs, _) => vs.zipIdx.foldl (fun s (x, col) => s.setAcc c t i col x) s) s
  s'.mapTile c t fun k =>
    { k with rowGrade := rs.foldl (fun g (i, _, x) => g.set (row64 i) x) k.rowGrade, rho := (k.rho + 1) % mxRows f, dirty := true }

/-- The activation slot of a step: bound, with type .l or an FP type (R219). -/
def stepSlot (a : VReg) : M (Fin 8 × Stream) := do
  let s ← get
  let bad {α : Type} : M α := raise cSTREAM (BitVec.ofNat 64 a.val) 0
  match s.boundSlot a with
  | none => bad
  | some i => match s.st.k[i] with
    | none => bad
    | some k => match k.ty with
      | .int .l => pure (i, k)
      | .int _ => bad
      | .fp _ => pure (i, k)

/-- A step: op 3 mx.step, 4 mx.stepz, 5 mx.steps. MXOWN comes before ILL, and ILL before the STREAM of its source (assumption log 112). -/
def mxStepOp (op : Nat) (t : Fin 4) (a : VReg) (b : FReg) (f : MxF) (s : State) : Out :=
  runVec s { mxInfo with opA := if f = .sb4 then .f b else .none, src := [a], advance := false } fun n => do
    mxOwned (some t)
    let s ← get
    let c := s.st.core
    if !stepFits s.myCore t f then raiseIr cILL
    let (i, k) ← stepSlot a
    let w := 6 * s.myCore.active.n
    let h := mxRows f
    let move : M Unit := modify fun s =>
      let s := (upTo h).foldl (fun s r => s.bcastAsk { k with pos := k.pos + r * w } w) s
      { s with st := { s.st with k := s.st.k.set i (some { k with pos := k.pos + h * w }) } }
    if op = 5 ∧ s.myCore.skf = true then
      if k.len < k.pos + h * w then raise cSTREAM (BitVec.ofNat 64 i.val) 0
      modify fun s => { s with st := { s.st with k := s.st.k.set i (some { k with pos := k.pos + h * w }) } }
    else
      let rows ← (upTo h).mapM fun r => (upTo w).mapM fun q => streamElem i { k with pos := k.pos + r * w } (k.pos + r * w + q) w 0
      let ba := if f = .sb4 then unpack .bf16 (n.opA.toNat % 65536) else .fin false 1 0
      modify fun s => s.tileStep c t f (op == 4) ba rows
      move

def execMxStep (t : Fin 4) (a : VReg) (b : FReg) (f : MxF) (s : State) : Out := mxStepOp 3 t a b f s
def execMxStepz (t : Fin 4) (a : VReg) (b : FReg) (f : MxF) (s : State) : Out := mxStepOp 4 t a b f s
def execMxSteps (t : Fin 4) (a : VReg) (b : FReg) (f : MxF) (s : State) : Out := mxStepOp 5 t a b f s

/-! ### Tile access (R166, R223–R226) -/

def execMxZero (t : Fin 4) (s : State) : Out :=
  runVec s mxInfo fun _ => do
    mxOwned (some t)
    modify fun s => s.zeroTile s.st.core t (s.myCore.tiles[t].kind)

def execMxCfg (a : GReg) (s : State) : Out :=
  runVec s { mxInfo with opA := .g a } fun n => do
    mxOwned none
    let s ← get
    let own := fun (t : Fin 4) => tileOwned s.myCore.div s.st.slot t.val
    let kind := fun (t : Fin 4) => n.opA.toNat / 4 ^ t.val % 4
    let ts : List (Fin 4) := [0, 1, 2, 3]
    if ts.any fun t => own t && kind t == 3 then raise cILL n.opA 0
    set (ts.foldl (fun s t =>
      if own t && s.myCore.tiles[t].kind != kind t then s.zeroTile s.st.core t (kind t) else s) s)

/-- What stands at a tile offset (R223). -/
inductive TileAt
  | vals (row col n : Nat)
  | rmax (row : Nat)
  | status
  | empty
  deriving DecidableEq, Repr

def tileAt (kind o : Nat) : TileAt :=
  if o < 1536 then
    if kind = 2 then (if o < 256 then .vals (o / 16) (o % 16) 1 else .empty)
    else .vals (o / 24) (2 * (o % 24)) 2
  else if o < 1568 then .rmax (2 * (o - 1536))
  else if o = 1568 then .status
  else .empty

/-- The element that `mx.rd` reads at an offset (R225). -/
def State.tileRead (s : State) (c : Nat) (t : Fin 4) (o : Nat) : Elem :=
  let k := (s.coreOf c).tiles[t]
  match tileAt k.kind o with
  | .vals r col n =>
    let g := k.rowGrade[row64 r]
    if n = 1 then { val := BitVec.ofNat 64 (s.acc c t r col), grade := BitVec.ofNat 16 g }
    else
      { val := BitVec.ofNat 64 (s.acc c t r col + s.acc c t r (col + 1) * 2 ^ 32),
        grade := if k.kind = 1 then 0xFFFF else gradeWord .f32 [g, g] }
  | .rmax r => { val := BitVec.ofNat 64 ((k.rmax[row64 r]).toNat + (k.rmax[row64 (r + 1)]).toNat * 2 ^ 32), grade := 0x1818 }
  | .status => { val := if (s.coreOf c).skf then 1 else 0, grade := 0xFFFF }
  | .empty => { val := 0, grade := 0xFFFF }

def execMxRd (d : VReg) (t : Fin 4) (b : GReg) (s : State) : Out :=
  runVec s { mxInfo with opA := .g b, dst := [d] } fun n => do
    mxOwned (some t)
    modify fun s => s.putAll d ((s.activeList n).map fun e => (e, s.tileRead s.st.core t (n.opA.toNat + e)))

/-- Write one element at an offset; row grades apart. -/
def State.tileWrite (s : State) (c : Nat) (t : Fin 4) (o : Nat) (x : Elem) : State :=
  let k := (s.coreOf c).tiles[t]
  match tileAt k.kind o with
  | .vals r col n =>
    if n = 1 then s.setAcc c t r col x.val.toNat
    else (s.setAcc c t r col (x.val.toNat % 2 ^ 32)).setAcc c t r (col + 1) (x.val.toNat / 2 ^ 32)
  | .rmax r => s.mapTile c t fun k => { k with
      rmax := (k.rmax.set (row64 r) (BitVec.ofNat 32 x.val.toNat)).set (row64 (r + 1)) (BitVec.ofNat 32 (x.val.toNat / 2 ^ 32)) }
  | .status => s.mapCore c fun k => { k with skf := fbit x.val 0 }
  | .empty => s

/-- The row grade after a write of elements: the least grade written, with the old one unless the whole row was (R166). -/
def rowGradeAfter (kind old : Nat) (ws : List Elem) : Nat :=
  if kind = 1 then old
  else
    let f := kindFmt kind
    let gs := (ws.map fun x => gradesOf f x.grade).flatten
    gs.foldl min (if ws.length < (if kind = 2 then 16 else 24) then old else fmtP f)

def execMxWr (t : Fin 4) (a : VReg) (b : GReg) (s : State) : Out :=
  runVec s { mxInfo with opA := .g b, src := [a] } fun n => do
    mxOwned (some t)
    let s0 ← get
    let xs ← readActive a (s0.activeList n)
    let ws := xs.map fun x => (n.opA.toNat + x.1, x.2)
    modify fun s =>
      let c := s.st.core
      let k := s.myCore.tiles[t]
      let s := ws.foldl (fun s x => s.tileWrite c t x.1 x.2) s
      let inRow := fun r => (ws.filter fun x => match tileAt k.kind x.1 with | .vals r' _ _ => r' == r | _ => false).map (·.2)
      s.mapTile c t fun k => { k with
        rowGrade := (upTo (kindRows k.kind)).foldl (fun g r =>
          let l := inRow r
          if l = [] then g else g.set (row64 r) (rowGradeAfter k.kind g[row64 r] l)) k.rowGrade,
        dirty := true }

/-- Address of row e of a stored tile. -/
def rowAddr (t : Fin 4) : AddrOf := fun s n e =>
  let rows := kindRows s.myCore.tiles[t].kind
  if e < rows then some (n.opA + BitVec.ofNat 64 e * n.opB) else none

def execMxSt (t : Fin 4) (a b : GReg) (s : State) : Out :=
  runVec s { mxInfo with opA := .g a, opB := .g b, addr := some (rowAddr t) } fun n => do
    if n.sent = false then
      mxOwned (some t)
      let s ← get
      let c := s.st.core
      let k := s.myCore.tiles[t]
      let rows := (s.activeList n).filter fun i => decide (i < kindRows k.kind)
      let units := kindCols k.kind * kindSize k.kind / 8
      let base := fun i => n.opA + BitVec.ofNat 64 i * n.opB
      for i in rows do
        let va := (base i).toNat
        require (va % 8 == 0) cPERM (base i) 0
        require (!(decide (va < scratchBase) && decide (scratchBase < va + 8 * units))) cXLATE (base i) 0
        for j in upTo units do
          let _ ← placeM .store (.plain false) (va + 8 * j) 8 0
      -- the doublewords in ascending order, each once: those of an earlier try are done
      let all : Begun := { store := true, va := n.opA.toNat, len := 0, owner := s.accessOwner, parts := [], got := [] }
      let done := ((s.st.begun.find? all.same).map (·.got.length)).getD 0
      for (i, r) in rows.zipIdx do
        let g := k.rowGrade[row64 i]
        let side : Side := if k.kind = 1 then .int else .word (if k.kind = 2 then BitVec.ofNat 16 g else gradeWord .f32 [g, g])
        for j in upTo units do
          if done ≤ r * units + j then
            let x := (s.tileRead c t (i * units + j)).val.toNat
            keeping { all with got := List.replicate (r * units + j) (0, none) }
              (storeM true (.plain false) side ((base i).toNat + 8 * j) 8 x 0)
            modify fun s => s.dropAnswers 1
    finishTrains (pure ())

/-! ### The skip test (R227) -/

/-- The largest value of a row by value, -0 below +0; none when a value is a NaN. -/
def rowMax (vs : List Nat) : Option Nat :=
  if vs.any fun v => isNan (unpack .f32 v) then none
  else match vs with
    | [] => none
    | v :: r => some (r.foldl (fun a b => (fpSelect .f32 false a b 24 24).1) v)

/-- b < r - m exactly, for a finite m (assumption log 45). -/
def belowBy (b r m : Fv) : Bool :=
  match r, m with
  | .fin sr mr er, .fin sm mm em =>
    match addFin .rne sr mr er (!sm) mm em with
    | .num s x e _ => fvLt b (.fin s x e)
    | _ => false
  | .inf s, .fin .. => fvLt b (.inf s)
  | _, _ => false

def execMxSkip (t : Fin 4) (a : FReg) (s : State) : Out :=
  runVec s { mxInfo with opA := .f a } fun n => do
    mxOwned (some t)
    let s ← get
    if s.myCore.tiles[t].kind ≠ 0 then raiseIr cILL
    let c := s.st.core
    let m := unpack .f32 (n.opA.toNat % 2 ^ 32)
    let fin := match m with | .fin .. => true | _ => false
    let rows := (upTo 64).map fun i => rowMax ((upTo 48).map fun col => s.acc c t i col)
    let k := s.myCore.tiles[t]
    let pass := rows.zipIdx.all fun (b, i) => match b with
      | none => false
      | some b => belowBy (unpack .f32 b) (unpack .f32 (k.rmax[row64 i]).toNat) m
    let rmax := rows.zipIdx.foldl (fun v (b, i) => match b with
      | none => v
      | some b => v.set (row64 i) (BitVec.ofNat 32 (fpSelect .f32 false (k.rmax[row64 i]).toNat b 24 24).1)) k.rmax
    set ((s.mapTile c t fun k => { k with rmax, dirty := true }).mapCore c fun k => { k with skf := fin && pass })

/-! ### Ownership (R229) -/

/-- Slots in use under a division (R42). -/
def slotsOf (div : Nat) : Nat := if div = 0 then 1 else if div = 1 then 2 else 4

def execMxGrant (a : GReg) (s : State) : Out :=
  runVec s { mxInfo with opA := .g a } fun n => do
    mxOwned none
    let s ← get
    if slotsOf s.myCore.div ≤ n.opA.toNat then raise cMXOWN n.opA 0
    set (s.mapCore s.st.core fun k => { k with owner := n.opA.toNat, granted := true })

def execMxRet (s : State) : Out :=
  runVec s mxInfo fun _ => do
    mxOwned none
    modify fun s => s.mapCore s.st.core fun k => { k with owner := 0, granted := false }

end Sys2Proof.Machine
end

