-- ==== Sys2Proof/Machine/Copy.lean ====
section
/-!
DEFINITION. The copy engines and the colouring unit (R290–R299), with OCP MXFP4 conversion (R143–R145) and the follow-on
matrix command (R218, R292).
-/

namespace Sys2Proof.Machine

open Sys2Proof

/-! ### Geometry -/

/-- A signed 32-bit stride field. -/
def stride32 (w : Word) (hi lo : Nat) : Int := sx (fld w hi lo) 32
/-- An address moved by a signed offset, modulo 2^64. -/
def moved (base : Nat) (off : Int) : Nat := wrapN ((base : Int) + off) 64

/-- The geometry of COPY and CONVERT (Table 16-5): counts, source and destination strides. -/
structure Geo where
  src : Nat
  dst : Nat
  x : Nat
  y : Nat
  z : Nat
  sys : Int
  dys : Int
  szs : Int
  dzs : Int

def Command.geo (c : Command) : Geo :=
  { src := (c.w 1).toNat, dst := (c.w 2).toNat, x := fld (c.w 3) 31 0, y := fld (c.w 3) 47 32, z := fld (c.w 3) 63 48,
    sys := stride32 (c.w 4) 31 0, dys := stride32 (c.w 4) 63 32, szs := stride32 (c.w 5) 31 0, dzs := stride32 (c.w 5) 63 32 }

def Geo.srcRow (g : Geo) (z y : Nat) : Nat := moved g.src (z * g.szs + y * g.sys)
def Geo.dstRow (g : Geo) (z y : Nat) : Nat := moved g.dst (z * g.dzs + y * g.dys)
/-- The rows in ascending (z, y) order. -/
def Geo.rows (g : Geo) : List (Nat × Nat) := ((upTo g.z).map fun z => (upTo g.y).map fun y => (z, y)).flatten
/-- Lowest destination byte written and the length of the range, rows of w bytes. -/
def Geo.range (g : Geo) (w : Nat) : Nat × Nat :=
  let reach := fun (n : Nat) (st : Int) => ((n : Int) - 1) * st
  let lo := min 0 (reach g.y g.dys) + min 0 (reach g.z g.dzs)
  let hi := max 0 (reach g.y g.dys) + max 0 (reach g.z g.dzs)
  (moved g.dst lo, (hi - lo + w).toNat)

/-! ### Moving bytes with sidecars (R290) -/

/-- For each destination unit written so far: the source unit its bytes came from, and which bytes. -/
abbrev Filled := SMap (Nat × Nat)

/-- The sidecar word of a unit, where it has one: of a local GT page, or as a remote one returned it (R402). -/
def sideWord (a : Agent) (va : Nat) (sc : Option Sidecar) : M (Option Grade) := do
  match sc with
  | none => pure none
  | some (.word g) => pure (some g)
  | some (.at_ k) =>
    reach a.die [homeDie k] (BitVec.ofNat 64 va) 0
    let s ← get
    if s.lineOk k 2 then pure (some (BitVec.ofNat 16 (Memory.readN s.mem k 2))) else raise cMEMERR (BitVec.ofNat 64 va) 0

/-- Move n bytes that lie on one source page and in one destination unit. A unit filled whole from one whole unit of a GT
page takes its sidecar word, any other 0xFFFF. -/
def moveChunk (a : Agent) (src dst n : Nat) (f : Filled) : M Filled := do
  let (x, sc) ← agentReadPart a src n
  let aligned := src % 8 == dst % 8
  let bits := (2 ^ n - 1) * 2 ^ (dst % 8)
  let old := match SMap.find f (dst / 8) with
    | some (u, k) => if u = src / 8 then k else 0
    | none => 0
  let mask := if aligned then old ||| bits else 0
  let w ← if mask = 255 then sideWord a src sc else pure none
  agentWritePart a dst n x (match w with | some g => .word g | none => .int)
  return SMap.put f (dst / 8) (src / 8, mask)

/-- Move n bytes in ascending order, at most `fuel` chunks. -/
def moveRow (a : Agent) : Nat → Nat → Nat → Nat → Filled → M Filled
  | 0, _, _, _, f => pure f
  | k + 1, src, dst, n, f =>
    if n = 0 then pure f
    else do
      let c := min n (min (8 - dst % 8) (headLen src n))
      let f ← moveChunk a src dst c f
      moveRow a k (src + c) (dst + c) (n - c) f

def moveRows (a : Agent) (g : Geo) : List (Nat × Nat) → Filled → M Unit
  | [], _ => pure ()
  | (z, y) :: r, f => do
    let f ← moveRow a g.x (g.srcRow z y) (g.dstRow z y) g.x f
    moveRows a g r f

/-- Geometry limits of COPY and CONVERT. -/
def geoOk (c : Command) : Bool :=
  let g := c.geo
  addrOk (c.w 1) && addrOk (c.w 2) && decide (g.x * g.y * g.z < 2 ^ 34)

/-- Field rules of COPY with PLANE = 0. -/
def copyOk (c : Command) : Bool :=
  geoOk c && bits c.spec 15 5 == 0 && bits c.spec 1 1 == 0 && c.w 6 == 0 && c.w 7 == 0

def copyBody (_t : Strand) (c : Command) (a : Agent) : M Progress := do
  cmdRule c (decide (c.code = 1) && copyOk c)
  let g := c.geo
  if g.x * g.y * g.z = 0 then return .done { addr := g.dst, len := 0, flags := 0 }
  moveRows a g g.rows []
  let (lo, n) := g.range g.x
  return .done { addr := lo, len := n, flags := 0 }

/-- A copy engine of a die. -/
def copyEngine (die eng : Nat) : EngineUnit := { sel := ⟨eng % 4, by omega⟩, die := coreDie (die * 128), sect := none }

/-- PLANE of a COPY command. -/
def Command.plane (c : Command) : Bool := decide (c.code = 1) && c.spec % 2 == 1

/-- COPY; a command of an unlisted code fails here too. -/
def execCopy (die eng : Nat) (s : State) : Out :=
  runEngine s (copyEngine die eng) (fun c => !c.plane && (c.code == 1 || c.code == 0 || decide (5 < c.code))) copyBody

/-! ### Plane loads and follow-ons (R291, R292) -/

def Command.follow (c : Command) : Bool := bits c.spec 1 1 == 1
def Command.pfmt (c : Command) : Nat := bits c.spec 4 2

/-- Field rules of COPY with PLANE = 1. -/
def planeOk (c : Command) : Bool :=
  let g := c.geo
  geoOk c && bits c.spec 15 5 == 0 && c.w 2 == 0 && g.x == 3072 && g.z == 1 && c.pfmt != 7 &&
  g.y == mxCols (mxOfCode c.pfmt) &&
  (if c.follow then
    addrOk (c.w 6) && fld (c.w 6) 4 0 == 0 && fld (c.w 7) 3 2 == 0 && fld (c.w 7) 7 5 != 7
   else c.w 6 == 0 && c.w 7 == 0)

/-- Read the columns of a weight tile. -/
def readColumns (a : Agent) (g : Geo) : M (List (Nat × Nat)) :=
  (upTo (g.y * 64)).mapM fun i => do
    let col : Nat := i / 64
    let r : Nat := i % 64
    return (col * 3072 + 48 * r, ← agentRead a (moved g.src ((col : Int) * g.sys) + 48 * r) 48)

/-- A plane load of a strand seated on the core is in progress (R218): an `mx.ldw` or `mx.ldwg` at the head of its queue has begun
and waits. -/
def State.planeLoading (s : State) (core : Nat) : Bool :=
  s.strands.any fun t => t.seated && t.core == core && t.qwait != .none && t.qwait != .plane &&
    match t.vq with
    | e :: _ => wMaj e.word == 0x2C && decide (wFn e.word / 16 < 2)
    | [] => false

/-- The array accepts a plane load from its owner, and reserves the plane for it: while another holds it, or a strand's load is in
progress, the command waits (R218). A fault leaves the shadow tag invalid (assumption log 93). -/
def planeBody (t : Strand) (c : Command) (a : Agent) : M Progress := do
  cmdRule c (planeOk c)
  let s ← get
  let me := (t.sn, a.op / 8 - 1)
  let k := s.coreOf c.core
  if k.reserved ≠ some me then
    if k.owner ≠ c.slot then failWith 0x06 c.addr
    if k.reserved.isSome || s.planeLoading c.core then waitFor .plane
    set ((s.settleSwap c.core).mapCore c.core fun k => { k with reserved := some me })
  let sw : BitVec 16 := if mxOfCode c.pfmt = .sb4 then BitVec.ofNat 16 (bits c.spec 31 16) else bf16One
  let bad := fun (s : State) => s.mapCore c.core fun k =>
    { k with shadow := { k.shadow with valid := false }, shadowDirty := true, reserved := none }
  let xs ← fun s => match readColumns a c.geo s with
    | .error (.trap t) s => .error (.trap t) (bad s)
    | r => r
  modify fun s => s.putShadow c.core xs { valid := true, fmt := c.pfmt, n := 64, sw := .replicate 64 sw }
  if c.follow then
    modify fun s => s.mapCore c.core fun k => { k with followOn := some me }
    return .begun none
  else
    modify fun s => s.mapCore c.core fun k => { k with reserved := none }
    return doneEmpty

def execPlaneLoad (die eng : Nat) (s : State) : Out :=
  runEngine s (copyEngine die eng) Command.plane planeBody

/-- The bind type that a step format implies. -/
def followType (f : MxF) : ElTy :=
  match f with | .fp64 => .fp .f64 | .fp32 => .fp .f32 | .bf16 => .fp .bf16 | _ => .int .l

/-- An element of an engine's source: eight bytes, with the sidecar's grade word or full grade for an FP type; a misaligned one of a
GT page is refused (R116). -/
def followEl (a : Agent) (ty : ElTy) (va : Nat) : M Elem := do
  let n0 := headLen va 8
  match ty with
  | .int _ =>
    let x ← agentRead a va 8
    return { val := BitVec.ofNat 64 x, grade := 0xFFFF }
  | .fp f =>
    let (x, sc) ← agentReadPart a va n0
    if n0 = 8 ∧ (va % 8 = 0 ∨ sc.isNone) then
      let w ← sideWord a va sc
      return { val := BitVec.ofNat 64 x, grade := w.getD (fullGrade f) }
    else
      let (y, sc') ← if n0 = 8 then pure (0, none) else agentReadPart a (va + n0) (8 - n0)
      if sc.isSome || sc'.isSome then raise cPERM (BitVec.ofNat 64 va) 0
      return { val := BitVec.ofNat 64 (x + y * 2 ^ (8 * n0)), grade := fullGrade f }

/-- The descriptor of a follow-on names a memory or section-broadcast stream (R125, R128, R292). -/
def followStream (s : State) (c : Command) (ty : ElTy) (w : List Word) : M Stream := do
  let kind := fld (nth w 0 0) 3 0
  let level := fld (nth w 0 0) 15 12
  let base := nth w 2 0
  if kind ≠ 0 ∧ kind ≠ 3 then badCmd c
  if !descOk w then failWith 0x07 c.addr
  if kind = 3 ∧ (nth s.phys level 0 ≠ 2 ∨ base.toNat < scratchBase ∨ vaTop ≤ base.toNat) then failWith 0x07 c.addr
  return { reg := 0, ty, kind, level, len := fld (nth w 1 0) 39 0, base, stride := nth w 3 0, pos := fld (c.w 7) 63 24, mesh := none }

/-- The follow-on at the array: ownership, the swap, the checks of a step, and the step (assumption log 91). A stream that is too short
is found before any of its elements is read (assumption log 106). -/
def followBody (c : Command) (a : Agent) : M Progress := do
  let t : Fin 4 := ⟨fld (c.w 7) 1 0 % 4, Nat.mod_lt _ (by decide)⟩
  let s ← get
  let k := s.coreOf c.core
  if k.owner ≠ c.slot ∨ tileOwned k.div c.slot t.val = false then failWith 0x06 c.addr
  let s := s.settleSwap c.core
  set ((s.mapCore c.core fun k => { k with swapDue := true }).settleSwap c.core)
  let f := mxOfCode (fld (c.w 7) 7 5)
  let s ← get
  let k := s.coreOf c.core
  if !stepFits k t f then badCmd c
  let w ← agentWords a (c.w 6).toNat 4
  let strm ← followStream s c (followType f) w
  let h := mxRows f
  let wd := 6 * k.active.n
  if strm.len < strm.pos + h * wd then failWith 0x07 c.addr
  let rows ← (upTo h).mapM fun r => (upTo wd).mapM fun q =>
    followEl a strm.ty (strm.base + strm.stride * BitVec.ofNat 64 (strm.pos + r * wd + q)).toNat
  let ba := if f = .sb4 then unpack .bf16 (fld (c.w 7) 23 8) else .fin false 1 0
  modify fun s =>
    let s := s.tileStep c.core t f (fbit (c.w 7) 4) ba rows
    (upTo h).foldl (fun s r => s.bcastAsk { strm with pos := strm.pos + r * wd } wd) s
  return doneEmpty

/-- Matrix issue of a core is held, or its die is at its thermal stop (R27, R452, R466): its array takes no follow-on. -/
def State.arrayHeld (s : State) (core : Nat) : Bool :=
  (s.dies[coreDie core]).hot || s.stackHold (coreDie core) || (s.coreOf core).holdMx || (s.coreOf core).holdVec

/-- FOLLOW_ON: the follow-on due on a core reaches its array; the plane is then free. -/
def execFollowOn (core : Nat) (s : State) : Out :=
  if s.arrayHeld core then .next s
  else match (s.coreOf core).followOn with
  | none => .next s
  | some (sn, sel) =>
    let u := copyEngine (core / 128) sel
    match (s.strand? sn).bind fun t => (t.fifo[u.sel]).running.map fun c => (t, c) with
    | none => .next s
    | some (t, c) =>
      let s' := engineWork s u t c fun a => wholly (followBody c a)
      let finished := ((s'.strand? sn).map fun t => (t.fifo[u.sel]).running.isNone).getD true
      .next (if finished then s'.mapCore core fun k => { k with reserved := none, followOn := none } else s')

/-! ### CONVERT (R293) -/

/-- Bytes of a value. -/
def cvBytes : CvTy → Nat
  | .i8 | .u8 | .e4m3 | .e5m2 => 1
  | .i16 | .u16 | .bf16 | .f16 => 2
  | .i32 | .u32 | .f32 => 4
  | .i64 | .u64 | .f64 => 8

/-- A value type by its code, SB4 and 15 being none. -/
def cvOfCode (n : Nat) : Option CvTy := match cvTy n with | .ok t => some t | .error _ => none

def rndOfCode (n : Nat) : Rnd := if n = 0 then .rne else if n = 1 then .rtz else if n = 2 then .rdn else .rup

/-- Types, mode and saturation of a CONVERT command that breaks no field rule. -/
def convertKind (c : Command) : Option (CvTy × CvTy × Rnd × Bool) :=
  match cvOfCode (bits c.spec 3 0), cvOfCode (bits c.spec 7 4) with
  | some src, some dst =>
    let r := bits c.spec 10 8
    let sat := bits c.spec 11 11 == 1
    if geoOk c && c.w 6 == 0 && c.w 7 == 0 && bits c.spec 31 12 == 0 && decide (r < 4) && cvtOk src dst (rndOfCode r) sat
    then some (src, dst, rndOfCode r, sat) else none
  | _, _ => none

/-- A misaligned FP value on a GT page is refused (R106, R116; assumption log 20). -/
def cvAligned (a : Agent) (acc : Acc) (va n : Nat) (graded : Bool) : M Unit := do
  if va % n ≠ 0 ∧ graded then
    match ← agentLoc a acc va with
    | .mem _ _ (some _) => raise cPERM (BitVec.ofNat 64 va) 0
    | _ => pure ()

/-- The grade of a value of an FP format: of its field of its unit's sidecar word, where 0xFFFF is full grade of the format computed in
(R159, R162); full grade of its own format where the unit has none (Table 8-3). -/
def cvGrade (k : CvKind) (va n : Nat) (w : Option Grade) : Grade :=
  match k, w with
  | .fp f, some g => if g = 0xFFFF ∨ fmtGraded f = false then 0xFFFF else gradeWord f [gradeAt f g (va % 8 / n)]
  | .fp f, none => if fmtGraded f then gradeWord f [fmtP f] else 0xFFFF
  | _, _ => 0xFFFF

/-- Convert one value: its bits and grade, and the flags. -/
def convertOne (src dst : CvKind) (r : Rnd) (sat : Bool) (x : Elem) : Nat × Nat × BitVec 6 :=
  let mode := (cvMode r 0 false).getD .rne
  match dst with
  | .int w sg =>
    let (v, fl) := cvToInt src w sg mode sat x
    ((intPut w sg v).toNat % 2 ^ w, 0, fl)
  | .fp f =>
    let o := cvToFp src f mode false sat x 0
    (o.pat, o.grade, o.flags)

/-- The grades of the fields of each destination unit written so far. -/
abbrev UnitGrades := SMap (List Nat)

/-- A kind of values that carry grades. -/
def CvKind.graded : CvKind → Bool | .fp f => fmtGraded f | .int .. => false

/-- Read one value: its bits and, of an FP format, its grade. A misaligned one of a remote GT page is refused too. -/
def convertRead (a : Agent) (k : CvKind) (va n : Nat) : M Elem := do
  cvAligned a .load va n k.graded
  let x ← agentRead a va n
  if k.graded then
    let (_, sc) ← agentReadPart a va (headLen va n)
    if va % n ≠ 0 ∧ sc.isSome = true then raise cPERM (BitVec.ofNat 64 va) 0
    let w ← sideWord a va sc
    return { val := BitVec.ofNat 64 x, grade := cvGrade k va n w }
  else return { val := BitVec.ofNat 64 x, grade := 0xFFFF }

/-- One value read, converted and written; its flags go to the command's. -/
def convertValue (a : Agent) (st dt : CvTy) (r : Rnd) (sat : Bool) (from_ to_ : Nat) (acc : UnitGrades) : M UnitGrades := do
  let dst := cvKind dt
  let m := cvBytes dt
  let x ← convertRead a (cvKind st) from_ (cvBytes st)
  let (v, g, fl) := convertOne (cvKind st) dst r sat x
  engFlag fl
  match dst with
  | .fp f =>
    if fmtGraded f then
      cvAligned a .store to_ m true
      let gs := listSet (SMap.getD acc (to_ / 8) (List.replicate (fmtVals f) (fmtP f))) (to_ % 8 / m) g
      agentWrite a to_ m v (.word (gradeWord f gs))
      return SMap.put acc (to_ / 8) gs
    else
      agentWrite a to_ m v .int
      return acc
  | .int .. =>
    agentWrite a to_ m v .int
    return acc

def convertRow (a : Agent) (st dt : CvTy) (r : Rnd) (sat : Bool) : Nat → Nat → Nat → UnitGrades → M UnitGrades
  | 0, _, _, acc => pure acc
  | k + 1, from_, to_, acc => do
    let acc ← convertValue a st dt r sat from_ to_ acc
    convertRow a st dt r sat k (from_ + cvBytes st) (to_ + cvBytes dt) acc

def convertRows (a : Agent) (g : Geo) (st dt : CvTy) (r : Rnd) (sat : Bool) : List (Nat × Nat) → UnitGrades → M Unit
  | [], _ => pure ()
  | (z, y) :: l, acc => do
    let acc ← convertRow a st dt r sat g.x (g.srcRow z y) (g.dstRow z y) acc
    convertRows a g st dt r sat l acc

def convertBody (_t : Strand) (c : Command) (a : Agent) : M Progress := do
  match convertKind c with
  | none => badCmd c
  | some (st, dt, r, sat) =>
    let g := c.geo
    if g.x * g.y * g.z = 0 then return .done { addr := g.dst, len := 0, flags := 0 }
    convertRows a g st dt r sat g.rows []
    let (lo, n) := g.range (g.x * cvBytes dt)
    return .done { addr := lo, len := n, flags := 0 }

def execConvert (die eng : Nat) (s : State) : Out :=
  runEngine s (copyEngine die eng) (fun c => c.code == 2) convertBody

/-! ### COMPACT (R294) -/

def compactOk (c : Command) : Bool :=
  addrOk (c.w 1) && addrOk (c.w 2) && fld (c.w 3) 63 48 == 0 && fld (c.w 4) 63 32 == 0 && c.w 5 == 0 && c.w 6 == 0 && c.w 7 == 0 &&
  bits c.spec 31 3 == 0

/-- The segments from i on: an offset, then the elements (assumption log 89). -/
def compactFrom (a : Agent) (c : Command) (w size start : Nat) : Nat → Nat → Nat → Filled → M Nat
  | 0, i, total, _ => do
    agentWrite a ((c.w 2).toNat + i * w) w total .int
    pure total
  | k + 1, i, total, f => do
    agentWrite a ((c.w 2).toNat + i * w) w total .int
    let seg := moved (c.w 1).toNat (i * stride32 (c.w 4) 31 0)
    let n := (← agentRead a seg 8) % 2 ^ 32
    if fld (c.w 3) 31 0 < n ∨ 2 ^ (8 * w) ≤ total + n then failWith 0x05 seg
    let f ← moveRow a (n * size) (seg + 8) (start + total * size) (n * size) f
    compactFrom a c w size start k (i + 1) (total + n) f

def compactBody (_t : Strand) (c : Command) (a : Agent) : M Progress := do
  cmdRule c (compactOk c)
  let segs := fld (c.w 3) 47 32
  let size := 2 ^ bits c.spec 1 0
  let w := if bits c.spec 2 2 = 1 then 4 else 2
  let head := ((segs + 1) * w + 7) / 8 * 8
  let total ← compactFrom a c w size ((c.w 2).toNat + head) segs 0 0 []
  return .done { addr := (c.w 2).toNat, len := head + total * size, flags := 0 }

def execCompact (die eng : Nat) (s : State) : Out :=
  runEngine s (copyEngine die eng) (fun c => c.code == 3) compactBody

/-! ### REMAP (R295, R311) -/

def remapCmdOk (c : Command) : Bool :=
  addrOk (c.w 1) && addrOk (c.w 2) && c.w 3 == 0 && c.w 4 == 0 && c.w 5 == 0 && c.w 6 == 0 && c.w 7 == 0 && bits c.spec 31 2 == 0

/-- The old indices from i on. -/
def remapFrom (a : Agent) (size oldBase map dst new : Nat) : Nat → Nat → Filled → M Unit
  | 0, _, _ => pure ()
  | k + 1, i, f => do
    let m ← agentRead a (map + 4 * i) 4
    if m = 0xFFFFFFFF then remapFrom a size oldBase map dst new k (i + 1) f
    else if new ≤ m then failWith 0x01 (map + 4 * i)
    else do
      let f ← moveRow a size (oldBase + i * size) (dst + m * size) size f
      remapFrom a size oldBase map dst new k (i + 1) f

def remapBody (_t : Strand) (c : Command) (a : Agent) : M Progress := do
  cmdRule c (remapCmdOk c)
  let r ← agentWords a (c.w 1).toNat 4
  let w := fun i => nth r i 0
  cmdRule c (addrOk (w 0) && addrOk (w 1))
  let size := 2 ^ bits c.spec 1 0
  let new := fld (w 2) 63 32
  remapFrom a size (w 0).toNat (w 1).toNat (c.w 2).toNat new (fld (w 2) 31 0) 0 []
  return .done { addr := (c.w 2).toNat, len := new * size, flags := 0 }

def execRemap (die eng : Nat) (s : State) : Out :=
  runEngine s (copyEngine die eng) (fun c => c.code == 4) remapBody

/-! ### MXFP4 (R143–R145, R296) -/

/-- A block of a source row: its 32 nibbles and its E8M0 scale. -/
structure MxBlock where
  nibbles : List Nat
  scale : Nat

def MxBlock.live (b : MxBlock) : Bool := b.scale != 0xFF && b.nibbles.any fun x => x % 8 != 0

/-- The largest scale of a live block of a band (R144). -/
def bandMax (bs : List MxBlock) : Option Nat := (bs.filter MxBlock.live).foldl (fun a b => some (max b.scale (a.getD 0))) none

/-- The BF16 band scale 2^(Xmax - 131), or 1.0 (R144). -/
def bandScale (m : Option Nat) : Nat :=
  match m with
  | none => 0x3F80
  | some x => let r := roundTo .bf16 .rne false 1 ((x : Int) - 131) false; packFin .bf16 false r.m r.e

/-- An E2M1 nibble multiplied by a power of two and rounded (R145). -/
def scaleNibble (e : Int) (x : Nat) : Nat :=
  match unpack .e2m1 x with
  | .fin sg m ex => let r := roundTo .e2m1 .rne sg m (ex + e) false; packFin .e2m1 sg r.m r.e
  | _ => x

/-- The scale code and nibbles of a block, and whether it rounds (R144, R145). -/
def blockOut (m : Option Nat) (b : MxBlock) : Nat × List Nat × Bool :=
  if b.scale = 0xFF then (0xFF, b.nibbles, false)
  else if !b.live then (0, b.nibbles, false)
  else
    let top := m.getD b.scale
    if top ≤ b.scale + 6 then ((b.scale + 7 - top) * 32, b.nibbles, false)
    else (0x20, b.nibbles.map (scaleNibble ((b.scale : Int) - top + 6)), true)

/-- The three slots of a block (R143). -/
def blockSlots (code : Nat) (ns : List Nat) : List Nat :=
  [code + 256 * packVals 4 (ns.take 14), code + 256 * packVals 4 ((ns.drop 14).take 14), code + 256 * packVals 4 (ns.drop 28)]

/-- Read one source row. -/
def readMxRow (a : Agent) (c : Command) (n r : Nat) : M (List MxBlock) :=
  (upTo n).mapM fun j => do
    let x ← agentRead a (moved (c.w 1).toNat (r * stride32 (c.w 4) 31 0) + 16 * j) 16
    let sc ← agentRead a ((c.w 5).toNat + r * n + j) 1
    return { nibbles := (upTo 32).map fun i => x / 16 ^ i % 16, scale := sc }

/-- Write one output row; a block that rounds raises NX as its slots are written. -/
def writeMxRow (a : Agent) (c : Command) (m : Option Nat) (r : Nat) (bs : List MxBlock) : M Unit := do
  let slots := (bs.map fun b =>
    (blockSlots (blockOut m b).1 (blockOut m b).2.1).map fun x => (x, (blockOut m b).2.2)).flatten
  slots.zipIdx.forM fun (x, i) => do
    agentWrite a (moved (c.w 2).toNat (r * stride32 (c.w 4) 63 32) + 8 * i) 8 x.1 .int
    if x.2 then engFlag flNX

/-- The bands from b on. -/
def mxBands (a : Agent) (c : Command) (n y : Nat) (scales : Nat) : Nat → Nat → M Unit
  | 0, _ => pure ()
  | k + 1, b => do
    let rs := (upTo 64).filterMap fun i => if 64 * b + i < y then some (64 * b + i) else none
    let rows ← rs.mapM fun r => do return (r, ← readMxRow a c n r)
    let m := bandMax (rows.map (·.2)).flatten
    for x in rows do writeMxRow a c m x.1 x.2
    agentWrite a (scales + 2 * b) 2 (bandScale m) .int
    mxBands a c n y scales k (b + 1)

def mxfp4Body (_t : Strand) (c : Command) (a : Agent) : M Progress := do
  let n := fld (c.w 3) 31 0
  let y := fld (c.w 3) 47 32
  let dys := stride32 (c.w 4) 63 32
  cmdRule c (c.spec == 0 && addrOk (c.w 1) && addrOk (c.w 2) && fld (c.w 3) 63 48 == 0 && addrOk (c.w 5) && c.w 6 == 0 &&
    c.w 7 == 0 && decide (1 ≤ n) && decide (n ≤ 65535) && decide ((24 * n : Int) ≤ dys))
  let dst := (c.w 2).toNat
  if y = 0 then return .done { addr := dst, len := 0, flags := 0 }
  let bands := (y + 63) / 64
  let off := y * dys.toNat
  mxBands a c n y (dst + off) bands 0
  return .done { addr := dst, len := off + 2 * bands, flags := 0 }

def execMxfp4 (die eng : Nat) (s : State) : Out :=
  runEngine s (copyEngine die eng) (fun c => c.code == 5) mxfp4Body

/-! ### COLOUR (R298, R299) -/

/-- The colour of each index: how many earlier ones equal it. -/
def colours : List Nat → List Nat → List Nat
  | _, [] => []
  | seen, x :: r => (seen.filter fun y => y == x).length :: colours (x :: seen) r

/-- COLOUR; its fields that are not listed, and the bits above its addresses, are to be zero as those of the copy commands
(assumption log 104). -/
def colourBody (_t : Strand) (c : Command) (a : Agent) : M Progress := do
  let n := fld (c.w 3) 31 0
  let maxc := fld (c.w 3) 47 32
  cmdRule c (c.code == 1 && addrOk (c.w 1) && addrOk (c.w 2) && fld (c.w 3) 63 48 == 0 && c.w 4 == 0 && c.w 5 == 0 && c.w 6 == 0 &&
    c.w 7 == 0 && bits c.spec 31 1 == 0 && decide (1 ≤ n) && decide (n ≤ 1048576) && decide (1 ≤ maxc))
  let w := if c.spec % 2 = 1 then 8 else 4
  let src := (c.w 1).toNat
  let dst := (c.w 2).toNat
  let xs ← (upTo n).mapM fun i => agentRead a (src + w * i) w
  let cols := colours [] xs
  let count := cols.foldl max 0 + 1
  if maxc < count then failWith 0x05 src
  let perm := ((upTo count).map fun k => (upTo n).filter fun i => nth cols i 0 == k).flatten
  perm.zipIdx.forM fun (x, i) => agentWrite a (dst + 4 * i) 4 x .int
  let head := (4 * n + 7) / 8 * 8
  (upTo (count + 1)).forM fun k =>
    agentWrite a (dst + head + 4 * k) 4 ((cols.filter fun x => decide (x < k)).length) .int
  return .done { addr := dst, len := head + 4 * (count + 1), flags := 0 }

def execColour (sect : Nat) (s : State) : Out :=
  runEngine s { sel := 5, die := coreDie (sect * 16), sect := some sect } (fun _ => true) colourBody

end Sys2Proof.Machine
end

