-- ==== Sys2Proof/Machine/Coll.lean ====
section
/-!
DEFINITION. Collectives and group instructions (R319–R330): headers, contributions, the rank tree, top-k compression, and
what each member writes.
-/

namespace Sys2Proof.Machine

open Sys2Proof

/-! ### Headers and contributions (R322) -/

/-- Kind of a collective: OP, OPR, TYPE and TOPK of Table 3-18. -/
structure ColKind where
  op : Nat
  opr : Nat
  ty : ElTy
  topk : Bool
  deriving DecidableEq, Repr

/-- Header word A; FORM is 0 for an instruction, 1 for an engine command. -/
def headerA (k : ColKind) (gen form : Nat) : Word :=
  BitVec.ofNat 64 (gen * 2 ^ 32 + k.op * 2 ^ 29 + k.opr * 2 ^ 26 + k.ty.code * 2 ^ 23 + (if k.topk then 2 ^ 22 else 0) +
    form * 2 ^ 21)

/-- The rank of a member, and the root of the current generation. -/
def Group.rankOf (g : Group) (mid : Nat) : Nat := (g.members.takeWhile fun m => m != mid).length
def Group.rootRank (g : Group) : Nat := min g.root (g.members.length - 1)
/-- The info word (R329); RANK 0xFFFF for a strand that is no member. -/
def Group.info (g : Group) (mid : Nat) : Word :=
  BitVec.ofNat 64 ((if g.members.contains mid then g.rankOf mid else 0xFFFF) * 2 ^ 48 + g.members.length * 2 ^ 32 + g.gen)

/-- The shape rule of Table 18-2 holds. -/
def shapeOk (k : ColKind) (size n : Nat) : Bool :=
  if k.op = 2 ∨ k.op = 3 ∨ k.op = 4 then decide (size * n ≤ 128)
  else if k.op = 5 then n % size == 0
  else true

/-! ### Node arithmetic (R325) -/

/-- One level of the rank tree: a node with one child passes it through. -/
def rankLevel {α : Type} (node : α → α → α × BitVec 6) : List α → List α × BitVec 6
  | a :: b :: r =>
    let (x, f) := node a b
    let (y, g) := rankLevel node r
    (x :: y, f ||| g)
  | l => (l, 0)
/-- The rank tree over at most 4,096 leaves in rank order. -/
def rankTree {α : Type} (node : α → α → α × BitVec 6) : Nat → List α → Option α × BitVec 6
  | 0, l => (l.head?, 0)
  | k + 1, l =>
    let (x, f) := rankLevel node l
    let (y, g) := rankTree node k x
    (y, f ||| g)

/-- Integer node of an operator: sum, min, max, and, or, xor. -/
def colInt (opr w a b : Nat) : Nat :=
  match opr with
  | 0 => intNode .sum w a b
  | 1 => intNode .min w a b
  | 2 => intNode .max w a b
  | 3 => a &&& b
  | 4 => a ||| b
  | _ => a ^^^ b
/-- FP node: rounded RNE, nothing flushed. -/
def colFp (opr : Nat) (f : Fmt) : FNode := fun a b =>
  match opr with
  | 0 => let r := fpArith f .rne false .add a.1 b.1 0 a.2 b.2 0; ((r.pat, r.grade), r.flags)
  | 1 => minNode f true a b
  | _ => minNode f false a b

/-- A combination of elements in rank order by a fold of their values, with the flags raised. -/
def combine (opr : Nat) (ty : ElTy) (fold : {α : Type} → (α → α → α × BitVec 6) → List α → Option α × BitVec 6)
    (xs : List Elem) : Elem × BitVec 6 :=
  match ty with
  | .int wd =>
    let w := intBits wd
    let (r, _) := fold (fun a b => (colInt opr w a b, 0)) (xs.map fun x => x.val.toNat % 2 ^ w)
    ({ val := sextWord (r.getD 0) w, grade := 0xFFFF }, 0)
  | .fp ff =>
    let f := fpOf ff
    let rs := (upTo (fmtVals f)).map fun j => fold (colFp opr f) (xs.map fun x => gval f x j)
    let gs := rs.map fun r => r.1.getD (0, fmtP f)
    (packElem f (gs.map (·.1)) (gs.map (·.2)), rs.foldl (fun a r => a ||| r.2) 0)

/-- X(e): the rank tree. -/
def treeCombine (opr : Nat) (ty : ElTy) (xs : List Elem) : Elem × BitVec 6 :=
  combine opr ty (fun node l => rankTree node 12 l) xs
/-- In ascending rank order, one after the other (R328). -/
def orderCombine (ty : ElTy) (xs : List Elem) : Elem × BitVec 6 :=
  combine 0 ty (fun node l => match l with
    | [] => (none, 0)
    | a :: r =>
      let (x, f) := r.foldl (fun acc b => let (y, g) := node acc.1 b; (y, acc.2 ||| g)) (a, (0 : BitVec 6))
      (some x, f)) xs

/-! ### Top-k compression (R328) -/

/-- Magnitude of an element. -/
def magnitude (ty : ElTy) (x : Elem) : Nat :=
  match ty with
  | .int wd => (sx x.val.toNat (intBits wd)).natAbs
  | .fp ff =>
    let f := fpOf ff
    ((upTo (fmtVals f)).map fun j =>
      let v := x.valAt f j
      if isNan (unpack f v) then packInf f false + 1 else v % 2 ^ (fmtBits f - 1)).foldl max 0

/-- Places of the selected elements: the K largest of each block of 32, the lower index on a tie. -/
def topSelect (k : Nat) (mags : List Nat) : List Nat :=
  (upTo mags.length).filter fun i =>
    let m := nth mags i 0
    let block := (upTo mags.length).filter fun j => j / 32 == i / 32
    decide ((block.filter fun j => decide (m < nth mags j 0) || (nth mags j 0 == m && decide (j < i))).length < k)

/-! ### What a member writes (Table 18-2) -/

/-- Element e of the result at a member, or none where it writes none. -/
def colElem (k : ColKind) (cs : List Contrib) (n rank root e : Nat) : Option (Elem × BitVec 6) :=
  let size := cs.length
  let of := fun (q i : Nat) => nth ((cs[q]?).map (·.elems) |>.getD []) i Elem.init
  if k.op ≤ 1 then
    if e < n ∧ (k.op = 1 ∨ rank = root) then
      if k.topk then
        let sent := cs.filterMap fun c => ((c.idx.zip c.elems).find? fun x => x.1 == e).map (·.2)
        match sent with
        | [] => some (orderCombine k.ty [])
        | xs => some (orderCombine k.ty xs)
      else some (treeCombine k.opr k.ty ((upTo size).map fun q => of q e))
    else none
  else if k.op ≤ 3 then
    if e < size * n ∧ (k.op = 3 ∨ rank = root) then some (of (e / n) (e % n), 0) else none
  else if k.op = 4 then (if e < n then some (of root (rank * n + e), 0) else none)
  else if e < n then
    let b := n / size
    some (of (e / b) (rank * b + e % b), 0)
  else none

/-- The contributions to a collective, in rank order, once all are here. -/
def State.gathered (s : State) (k : CollAt) (form : Nat) : Option (List Contrib) :=
  let cs := (upTo k.size).filterMap fun r => s.contribs.find? fun c =>
    c.gid == k.gid && c.gen == k.gen && c.form == form && c.seq == k.seq && c.rank == r
  if cs.length = k.size then some cs else none

/-- A contribution is kept, and a repeat dropped (R322). -/
def State.contribute (s : State) (c : Contrib) : State :=
  if s.contribs.any fun x => x.gid == c.gid && x.gen == c.gen && x.form == c.form && x.seq == c.seq && x.rank == c.rank then s
  else { s with contribs := s.contribs ++ [c] }

/-- Packages of a member list. -/
def packagesOf (members : List Nat) : List Nat := sortNats ((members.map fun m => m / 65536 % 1024).eraseDups)
where sortNats (l : List Nat) : List Nat := l.foldl insertAsc []

/-- A member of this package contributes: its sequence count goes up, and every other package of the group is sent the contribution, under
the remap generation of its handle (R331); while one of those is being moved, the collective has not started (R446). -/
def sendContrib (g : Group) (mid : Nat) (c : Contrib) : M Unit := do
  let own := (← get).handle.toNat
  let far := (packagesOf g.members).filter fun p => p != own
  let gens ← far.mapM fun p => sendGen p true
  let (i, e) := SMap.getD g.counts mid (0, 0)
  let counts := SMap.put g.counts mid (if c.form = 0 then (i + 1, e) else (i, e + 1))
  modify fun s =>
    let s := (s.mapGroup g.gid fun g => { g with counts }).contribute c
    { s with fabricOut := s.fabricOut ++ (far.zip gens).map fun (p, r) => FabMsg.contribution p r c }

/-- A collective has been committed, and its contributions are here. -/
def State.isCommitted (s : State) (k : CollAt) (form : Nat) : Bool := s.committed.contains (k.gid, k.gen, form, k.seq)

/-! ### The collective instructions (R321–R328) -/

/-- GROUP checks at issue (R321). -/
def colGroup (q : Fin 8) (topk : Bool) : M Group := do
  let s ← get
  match s.st.q[q] with
  | none => raise cGROUP 0 0
  | some h =>
    match s.group? h.gid with
    | none => raise cGROUP (BitVec.ofNat 64 h.gid) 0
    | some g =>
      if g.gen < h.gen then raise cGROUP (BitVec.ofNat 64 h.gid) 0
      else if h.gen < g.gen then raise cGROUP (BitVec.ofNat 64 g.gen) 0
      else if !g.members.contains (s.mid s.st.sn) then raise cGROUP (BitVec.ofNat 64 h.gid) 0
      else if topk && g.k == 0 then raise cGROUP 0 0
      else pure g

/-- The elements a member sends: 0 to n - 1 of va, or at the root of `col.sct` one slice for every rank; none where the
shape rule fails. -/
def colSource (k : ColKind) (g : Group) (rank n : Nat) (a : VReg) : M (List Elem) := do
  if !shapeOk k g.members.length n then pure []
  else
    let count := if k.op = 4 ∧ rank = g.rootRank then g.members.length * n else n
    match (← get).boundSlot a with
    | some i => if n < count then raise cSTREAM (BitVec.ofNat 64 i.val) n else pure ()
    | none => pure ()
    (upTo count).mapM fun e => srcV a e

/-- The first attempt: the checks, the header, the contribution. -/
def colStart (k : ColKind) (q : Fin 8) (a : VReg) (n : VEntry) : M CollAt := do
  let g ← colGroup q k.topk
  let mid := (← get).mid (← get).st.sn
  let rank := g.rankOf mid
  let xs ← colSource k g rank n.vl a
  let idx := if k.topk then topSelect g.k (xs.map (magnitude k.ty)) else []
  let at_ : CollAt :=
    { gid := g.gid, gen := g.gen, seq := (SMap.getD g.counts mid (0, 0)).1 + 1, rank, size := g.members.length, root := g.rootRank,
      k := g.k, fate := .standing }
  let c : Contrib :=
    { gid := g.gid, gen := g.gen, form := 0, seq := at_.seq, rank, a := headerA k g.gen 0, b := BitVec.ofNat 64 n.vl,
      elems := if k.topk then idx.map fun i => nth xs i Elem.init else xs, idx }
  sendContrib g mid c
  modify fun s => { s with st := { s.st with coll := some at_ } }
  return at_

/-- The collective is over for the member. -/
def colEnd : M Unit := modify fun s => { s with st := { s.st with coll := none } }

/-- Wait for the contribution of every rank; a superseded or destroyed group raises GROUP at a waiting member (R321), but where the
collective had committed (R443). -/
def colWait (k : CollAt) (form : Nat) : M (List Contrib) := do
  let s ← get
  let lost : M (List Contrib) := do
    colEnd
    raise cGROUP (BitVec.ofNat 64 (match k.fate with | .standing => ((s.group? k.gid).map (·.gen)).getD 0 | _ => 0)) 0
  match k.fate, s.gathered k form with
  | .lost, _ => lost
  | .kept cs, _ => pure cs
  | .standing, g =>
    if s.isCommitted k form then
      match g with
      | some cs => pure cs
      | none => waitFor .coll
    else if ((s.group? k.gid).map fun x => decide (k.gen < x.gen)).getD true then lost
    else waitFor .coll

/-- mask(e), for any element. -/
def State.maskAt (s : State) (n : VEntry) (e : Nat) : Bool :=
  n.vms == 15 || (if h : n.vms < 12 then s.mbit ⟨n.vms, h⟩ e else false)

def colBody (k : ColKind) (d : VReg) (a : VReg) (q : Fin 8) (n : VEntry) : M Unit := do
  let at_ ← match (← get).st.coll with
    | some x => pure x
    | none => colStart k q a n
  let cs ← colWait at_ 0
  let ha := headerA k at_.gen 0
  let hb : Word := BitVec.ofNat 64 n.vl
  colEnd
  if cs.any fun c => c.a != ha || c.b != hb then raise cCOLLMIS ha 0
  if !shapeOk k at_.size n.vl then raise cGROUP (BitVec.ofNat 64 at_.size) 0
  for e in upTo 128 do
    if (← get).maskAt n e then
      match colElem k cs n.vl at_.rank at_.root e with
      | some (x, fl) => modify fun s => (s.setV d e x).flag fl e
      | none => pure ()

def colOp (k : ColKind) (d a : VReg) (q : Fin 8) (s : State) : Out :=
  runVec s { cls := .wh, dst := [d], src := [a], zeroVl := true, noCapture := true } (colBody k d a q)

/-- The number of an operator (Table 3-18). -/
def colOpr : ColOp → Nat | .sum => 0 | .min => 1 | .max => 2 | .and => 3 | .or => 4 | .xor => 5

def execColRed (d a : VReg) (q : Fin 8) (r : ColOp) (t : ElTy) (k : Bool) (s : State) : Out :=
  colOp { op := 0, opr := colOpr r, ty := t, topk := k } d a q s
def execColAred (d a : VReg) (q : Fin 8) (r : ColOp) (t : ElTy) (k : Bool) (s : State) : Out :=
  colOp { op := 1, opr := colOpr r, ty := t, topk := k } d a q s
def execColGat (d a : VReg) (q : Fin 8) (t : ElTy) (s : State) : Out :=
  colOp { op := 2, opr := 0, ty := t, topk := false } d a q s
def execColAgat (d a : VReg) (q : Fin 8) (t : ElTy) (s : State) : Out :=
  colOp { op := 3, opr := 0, ty := t, topk := false } d a q s
def execColSct (d a : VReg) (q : Fin 8) (t : ElTy) (s : State) : Out :=
  colOp { op := 4, opr := 0, ty := t, topk := false } d a q s
def execColA2a (d a : VReg) (q : Fin 8) (t : ElTy) (s : State) : Out :=
  colOp { op := 5, opr := 0, ty := t, topk := false } d a q s

/-! ### Group management (R329) -/

def grpInfoOf (a : Operand) : VInfo := { cls := .wh, opA := a, zeroVl := true, noCapture := true }

/-- A group instruction fails; issued with VL = 0 it raises no fault, and leaves its destination (R72; assumption log 38). -/
def grpFails (n : VEntry) (val : Word) : M Unit := if n.vl = 0 then pure () else raise cGROUP val 0

/-- Bind a handle to the current generation of a group; gd takes the info word. -/
def bindHandle (d : GReg) (q : Fin 8) (g : Group) : M Unit :=
  modify fun s =>
    let s := { s with st := { s.st with q := s.st.q.set q (some { gid := g.gid, gen := g.gen }), asked := none, joinRefused := false } }
    s.setG d (g.info (s.mid s.st.sn))

/-- The strand's domain region (R319). -/
def State.drid (s : State) : Nat := regionDrid (s.regionRec s.st.region)

/-- A join that fails is over. -/
def joinFails (n : VEntry) : M Unit := do
  modify fun s => { s with st := { s.st with asked := none, joinRefused := false } }
  grpFails n n.opA

/-- Ask to join, once, and wait. -/
def joinAsk (gid : Nat) : M Unit := do
  let s ← get
  if s.st.asked = some gid then waitFor .grp
  else
    let s := s.groupRequest gid 0 (s.mid s.st.sn)
    set { s with st := { s.st with asked := some gid } }
    waitFor .grp

/-- grp.join: the strand is bound once the generation that holds it is STABLE (R442). -/
def execGrpJoin (d a : GReg) (q : Fin 8) (s : State) : Out :=
  runVec s (grpInfoOf (.g a)) fun n => do
    let s ← get
    let gid := n.opA.toNat % 2 ^ 32
    match s.group? gid with
    | some g =>
      if g.members.contains (s.mid s.st.sn) && !g.fresh.contains (s.mid s.st.sn) then bindHandle d q g
      else if s.st.joinRefused || g.phase != 3 && g.region != s.drid then joinFails n
      else joinAsk gid
    | none => if s.st.joinRefused then joinFails n else joinAsk gid

/-- The last generation of a handle's group in which the strand was a member (R329). -/
def State.lastGen (s : State) (h : Handle) : Nat :=
  if h.gen < 2 ^ 32 then SMap.getD s.st.memberOf h.gid h.gen else h.gen - 2 ^ 32

def execGrpLeave (d : GReg) (q : Fin 8) (s : State) : Out :=
  runVec s (grpInfoOf .none) fun n => do
    let s ← get
    match s.st.q[q] with
    | none => grpFails n 0
    | some h =>
      let mid := s.mid s.st.sn
      let null := { s with st := { s.st with q := s.st.q.set q none } }
      let member := decide (h.gen < 2 ^ 32) && (s.group? h.gid).any fun g => g.members.contains mid
      set ((if member then null.groupRequest h.gid 1 mid else null).setG d (BitVec.ofNat 64 (s.lastGen h)))

/-- An item of `grp.info`. -/
def Group.item (g : Group) (mid x : Nat) : Word :=
  if x = 0 then g.info mid
  else if x = 1 then BitVec.ofNat 64 (g.rootRank + g.k * 65536)
  else match g.members[x - 2]? with
    | some m => BitVec.ofNat 64 m
    | none => BitVec.ofInt 64 (-1)

def execGrpInfo (d a : GReg) (q : Fin 8) (s : State) : Out :=
  runVec s (grpInfoOf (.g a)) fun n => do
    let s ← get
    match s.st.q[q] with
    | none => grpFails n 0
    | some h =>
      match (if h.gen < 2 ^ 32 then s.group? h.gid else none) with
      | none => grpFails n (BitVec.ofNat 64 h.gid)
      | some g => set (s.setG d (g.item (s.mid s.st.sn) n.opA.toNat))

def execGrpLoad (d a : GReg) (q : Fin 8) (s : State) : Out :=
  runVec s (grpInfoOf (.g a)) fun n => do
    let s ← get
    match s.group? (n.opA.toNat % 2 ^ 32) with
    | none => grpFails n n.opA
    | some g => if g.members.contains (s.mid s.st.sn) then bindHandle d q g else grpFails n n.opA

end Sys2Proof.Machine
end

