-- ==== Sys2Proof/Machine/Sync.lean ====
section
/-!
DEFINITION. Barriers, claims, lane division, wait and wake, house queries, ending, yielding and replay (R373–R386).
-/

namespace Sys2Proof.Machine

open Sys2Proof

/-! ### Barriers (R378) -/

/-- The barrier result (Table 23-2). -/
def barResult (wd newWd : Bool) (arr episode : Nat) : Word :=
  BitVec.ofNat 64 ((if wd then 2 ^ 63 else 0) + (if newWd then 2 ^ 62 else 0) + arr % 2 ^ 30 * 2 ^ 32 + episode % 2 ^ 32)

/-- Some strand of the house has been withdrawn. -/
def Launch.someWithdrawn (l : Launch) (h : Nat) : Bool := (l.leaves h).any fun i => l.statusOf i == .withdrawn

/-- `bar`: at level 0 the strand's own episode completes at once; above, an arrival is recorded once, and the result is that
of the episode. -/
def barOp (d : GReg) (l : Level) : M Unit := do
  hazard [d] []
  needLevel l.val 0
  match (← get).houseAt l.val with
  | none => pure ()
  | some (la, h, x) =>
    if l.val = 0 then
      settle
      modify fun s =>
        (s.setLaunch (la.mapInst h fun x => { x with episode := x.episode + 1 })).setG d (barResult false false 1 (x.episode + 1))
    else
      match SMap.find (← get).st.arrivals l.val with
      | none =>
        settle
        let s ← get
        let s := s.setLaunch (la.mapInst h fun x => { x with arrived := x.arrived ++ [s.mid s.st.sn] })
        let s := if (s.farPkgs la).isEmpty then s
          else s.tell (.arrive (s.launchHome la) (la.lid % 2 ^ 32) h (x.episode + 1) (s.mid s.st.sn))
        set { s with st := { s.st with arrivals := SMap.put s.st.arrivals l.val (x.episode + 1) } }
        waitFor .bar
      | some n =>
        if x.episode < n then waitFor .bar
        else modify fun s =>
          (({ s with st := { s.st with arrivals := SMap.del s.st.arrivals l.val } }).setG d x.lastResult).acquire l

def execBar (d : GReg) (l : Level) (s : State) : Out := runScalar s (barOp d l)

/-! ### Claims (R374, R375, R380) -/

/-- The claim table after a claim (R375). -/
def claimTable (t : List Claim) (counter : Nat) (base : Word) (grant : Nat) : List Claim :=
  let t := t.filter fun c => c.counter != counter
  let t := if grant = 0 then t else t ++ [({ counter, base, grant } : Claim)]
  if 8 < t.length then t.drop 1 else t

/-- The grant of a claim (R374). -/
def claimGrant (want base lim : Nat) : Nat := if lim ≤ base then 0 else min want (min (lim - base) 128)

/-- The atomic of a claim at its home: the counter moves, its sidecar takes 0xFFFF (R380). -/
def State.claimAt (s : State) (key : Nat) (sc : Option Nat) (old want : Nat) : State :=
  let base := old % 2 ^ 64
  (s.storeBytes key 8 (base + claimGrant want base (old / 2 ^ 64))).storeSide key 8 sc .int

/-- The number of the claim operation in a request through a fabric window. -/
def claimCode : Nat := 16

/-- `claim` (R374, R380). What is unfinished of a strand of another package's launch, that package is told (R375; assumption
log 46, 80). -/
def claimOp (d a b : GReg) : M Unit := do
  hazard [d, a, b] []
  let s ← get
  let va := (s.g a).toNat
  let want := (s.g b).toNat
  memHazard va 16
  let (b, p) ← placeAtomic va 16 0
  let old ← match p.loc with
    | .dev .. => raise cPERM (BitVec.ofNat 64 va) 0
    | .remote h x kind => do
      let (r, _) ← keeping b (do
        kindOrder kind none
        remoteOp 2 claimCode h x 16 want 0 none va 0 (·.touch p))
      pure r
    | .mem key _ sc => do
      let (r, _) ← keeping b (readPart false true va 0 p)
      modify fun s => (s.touch p).claimAt key sc r want
      pure r
  let base := old % 2 ^ 64
  let grant := claimGrant want base (old / 2 ^ 64)
  modify fun s =>
    let s := (s.setG d (BitVec.ofNat 64 base)).mapCtl fun c => { c with vl := grant }
    let s := { s with st := { s.st with claims := claimTable s.st.claims va (BitVec.ofNat 64 base) grant } }
    match s.launch? s.st.sched.lid with
    | some l => if l.origin.isSome then s.tellInst l s.st.sched.inst .live s.st.claims else s
    | none => s

def execClaim (d a b : GReg) (s : State) : Out := runScalar s (claimOp d a b)

/-! ### Division of the lanes (R381) -/

/-- Strands seated on a core, restored and not being saved, in slots that satisfy a test. -/
def State.seatedOn (s : State) (core : Nat) (p : Nat → Bool) : List Strand :=
  s.strands.filter fun t => match t.sched.place with
    | some (c, slot) => t.seated && c == core && p slot
    | none => false

/-- Only slot 0 issues `vsplit` and `vmerge`; each waits for the queues of the core, and from then on no slot of it commits a vector
instruction. -/
def divisionReady : M Unit := do
  let s ← get
  if s.st.slot = 0 then
    if s.myCore.dividing then pure ()
    else if (s.seatedOn s.st.core fun _ => true).all fun t => t.vq.isEmpty then
      set (s.mapCore s.st.core fun c => { c with dividing := true })
    else waitFor .queue
  else raiseIr cILL

/-- The change has been made, or there was none to make. -/
def State.divided (s : State) (f : Core → Core) : State := s.mapCore s.st.core fun c => { f c with dividing := false }

def execVsplit (n : SplitN) (s : State) : Out :=
  runScalar s (do
    divisionReady
    modify fun s => s.divided fun c =>
      match n with
      | .two => if c.div = 0 then { c with div := 1 } else c
      | .four => { c with div := 2 })

/-- Ask for the pre-emption of a strand at its next boundary (R364). -/
def State.askPreempt (s : State) (sn : Nat) : State :=
  match s.strand? sn with
  | some t => s.setStrand { t with sched := { t.sched with preemptAsked := true } }
  | none => s

/-- vmerge (R381): it asks the strands of the slots that end to leave, waits, and keeps the others from committing (assumption log 46). -/
def execVmerge (s : State) : Out :=
  runScalar s (do
    divisionReady
    let s ← get
    let core := s.st.core
    let div := (s.coreOf core).div
    if div = 0 then set (s.divided id)
    else
      let keep := if div = 2 then 2 else 1
      let out := s.seatedOn core fun slot => decide (keep ≤ slot)
      if out.isEmpty then
        set (s.divided fun c =>
          let gone := decide (keep ≤ c.owner)
          { c with div := div - 1, owner := if gone then 0 else c.owner, granted := if gone then false else c.granted })
      else
        set (out.foldl (fun s t => s.askPreempt t.sn) s)
        waitFor .queue)

/-! ### Wait and wake (R382) -/

/-- `swait` clears the flag as a `fence.acq` does: after every earlier access, and whatever was appended to the log of its die is in
view. -/
def execSwait (s : State) : Out :=
  runScalar s (do
    if (← get).st.wake then
      settle
      modify fun s => { s with st := { s.st with wake := false, viewTail := s.dies[s.myDie].tail } }
    else waitFor .swait)

/-- Set the wake flag of a live strand; `wait` may then complete (R382, R426). -/
def State.wakeStrand (s : State) (sn : Nat) : State :=
  match s.strand? sn with
  | some t => s.setStrand { t with wake := true, waitDone := t.waitDone || t.wait == .wakeOrResult }
  | none => s

/-- The strand of this package that a MID names. -/
def State.strandOfMid (s : State) (mid : Nat) : Option Strand :=
  if mid / 65536 = s.handle.toNat then s.strand? (mid % 65536) else none

def execSwake (a : GReg) (s : State) : Out :=
  runScalar s (do
    hazard [a] []
    settle
    let s ← get
    let x := (s.g a).toNat
    if 2 ^ 26 ≤ x then pure ()
    else if x / 65536 ≠ s.handle.toNat then
      match s.launch? s.st.sched.lid with
      | some l => set (s.tell (.wake x (s.launchHome l) (l.lid % 2 ^ 32)))
      | none => pure ()
    else
      match s.strandOfMid x with
      | some t => if t.live && t.sched.lid == s.st.sched.lid then set (s.wakeStrand t.sn) else pure ()
      | none => pure ())

/-! ### House queries (Table 23-4) -/

/-- The place of a value in a list. -/
def placeIn (l : List Nat) (x : Nat) : Nat := (l.takeWhile fun y => y != x).length

def hqItem (s : State) (la : Launch) (level h : Nat) (x : Inst) (item : Nat) : Word :=
  match item with
  | 0 => BitVec.ofNat 64 x.number
  | 1 => BitVec.ofNat 64 (((la.house x).map (·.count)).getD 0)
  | 2 => BitVec.ofNat 64 (placeIn (la.leaves h) s.st.sched.inst)
  | 3 => BitVec.ofNat 64 (la.liveLeaves h).length
  | 4 => BitVec.ofNat 64 (nth la.phys level 0)
  | 5 => BitVec.ofNat 64 la.phys.length
  | 6 => la.arg
  | 7 => BitVec.ofNat 64 (s.mid s.st.sn)
  | 8 => BitVec.ofNat 64 x.episode
  | _ => BitVec.ofInt 64 (-1)

def execHq (d a : GReg) (l : Level) (s : State) : Out :=
  runScalar s (do
    hazard [d, a] []
    needLevel l.val 0
    let s ← get
    match s.houseAt l.val with
    | none => pure ()
    | some (la, h, x) => set (s.setG d (hqItem s la l.val h x (s.g a).toNat)))

/-! ### Ending and yielding (R384) -/

/-- The strand retires: its house may retire and its launch end with it. -/
def retireStrand : M Unit := do
  let s ← get
  let t := s.st
  let s := ((s.unseat t).leaveAll t.sn 1).setStrand ({ t with claims := [] }.close .retired)
  set s.pruneStreams
  match s.launch? t.sched.lid with
  | none => pure ()
  | some l =>
    modify fun s => s.tellInst l t.sched.inst .retired []
    settleLaunch (l.retireLeaf t.sched.inst)

def execSdone (s : State) : Out := runScalar s (do settle; atomically retireStrand)

/-- A candidate for a seat of the strand's core waits at an equal or higher priority (R364). -/
def State.rivalWaits (s : State) (t : Strand) : Bool :=
  s.strands.any fun u => s.candidate u t.core && decide (t.sched.prio ≤ u.sched.prio)

def execSyield (s : State) : Out :=
  runScalar s (modify fun s => if s.rivalWaits s.st then s.askPreempt s.st.sn else s)

/-! ### Replay (R373, R385, R386) -/

def execRplCap (n : BitVec 6) (s : State) : Out :=
  runScalar s (modify fun s => { s with st := { s.st with rpl := { Replay.init with left := n.toNat } } })

/-- `rpl.run` begins to commit the body: its VL write, and from then on the body instructions one by one from the position
kept (assumption log 47). -/
def rplStart (a : GReg) : M Unit := do
  hazard [a] []
  let s ← get
  let r := s.st.rpl
  if r.body = [] ∨ r.left ≠ 0 then raiseIr cILL
  else if 32 < s.st.vq.length + s.st.pend.length + (r.body.length - r.pos) then waitFor .queue
  else
    let vl := if a = 0 then s.st.ctl.vl else min (s.g a).toNat 128
    let s := s.mapCtl fun c => { c with vl }
    set { s with st := { s.st with
      rpl := { r with going := true }, wait := .none } }

/-- The scalar stream stays at the `rpl.run` until its last body instruction has been committed. -/
def execRplRun (a : GReg) (s : State) : Out :=
  match rplStart a s with
  | .ok _ s' => .next s'
  | .error (.trap t) s' => .next (s'.takeTrap t (.scalar s'.st.pc none))
  | .error (.wait w) s' => .next (s'.waiting w)

end Sys2Proof.Machine
end

