-- ==== Sys2Proof/Machine/Turn.lean ====
section
/-!
DEFINITION. What happens at a step besides an instruction's own effect: fetching a word (R47, R96, R399–R401), which of a
strand's instructions is next (R27, R40, R41, R419, R430, R466), the passing of time (R251, R362, R363), and a program placed
where the machine fetches.
-/

namespace Sys2Proof.Machine

open Sys2Proof

/-! ### Fetching -/

/-- Fetch the word at the strand's PC (R96, R401, R450). No instruction is fetched from the scratch window, from a device
register or from another package (R46; assumption log 9). -/
def fetchM : M InstrWord := do
  let s ← get
  let va := s.st.pc.toNat
  if scratchBase ≤ va then raise cXLATE s.st.pc 0
  else
    match ← leafM .fetch va with
    | .error c => raise c (BitVec.ofNat 64 va) 0
    | .ok (.mem key _ _) =>
      let s ← get
      reach s.myDie [homeDie key] (BitVec.ofNat 64 va) 0
      if !s.lineOk key 4 then raise cMEMERR (BitVec.ofNat 64 va) 0
      else pure (BitVec.ofNat 32 (Memory.readN s.mem key 4))
    | .ok _ => raise cPERM (BitVec.ofNat 64 va) 0

/-! ### What a strand does next -/

/-- The strand with the lowest number that holds a seat. -/
def State.firstSeated (s : State) : Option Nat := (s.strands.filter Strand.seated).foldl (fun a t => match a with
  | none => some t.sn
  | some n => some (min n t.sn)) none

/-- The strand that moves when no turn is queued: the one that moved last, or the lowest-numbered seated one. -/
def State.chosen (s : State) : Option Nat :=
  if s.cur.isSome && s.st.seated then s.cur else s.firstSeated

/-- An entry that waits so waits on another party: a drain ends there (Table 27-1). -/
def awaitsParty : Wait → Bool
  | .grp | .coll | .stream | .plane => true
  | _ => false

/-- What the strand whose turn it is does next. -/
inductive Next
  | entry (e : VEntry) (rest : List VEntry)
  | replay (w : InstrWord)
  | notify
  | word
  | idle
  deriving DecidableEq, Repr

/-- The queue is served before the scalar stream; while its head waits, they alternate (assumption log 10). A strand asked to
pre-empt drains its queue and issues nothing new; its drain ends at an entry that waits on another party (R430). One resumed from
pre-emption re-runs its saved queue before its next scalar instruction (R419); an `rpl.run` commits its body before an entry of it
runs, but where it waits for the queue; a die at its thermal stop issues nothing (R466). -/
def State.nextOf (s : State) : Next :=
  let t := s.st
  if !t.seated || t.sched.preempting || t.sched.restoring || s.dies[s.myDie].hot then .idle
  else if t.rpl.going && (t.vq.isEmpty || t.wait != .queue) then
    .replay (((t.rpl.body[t.rpl.pos]?).map (·.1)).getD 0)
  else
    match t.vq with
    | e :: r =>
      if t.scalarNext && !t.rpl.going && !t.sched.preemptAsked && t.preemptNote.isNone then .word
      else if (t.sched.preemptAsked && awaitsParty t.qwait) || (s.held e.word && !s.midway) then .idle else .entry e r
    | [] =>
      if t.sched.preemptAsked then .idle
      else if t.preemptNote.isSome then .notify else .word

/-- Vector registers, or bits that could name one, of an instruction word. -/
def wRegs (w : InstrWord) : List Nat := [wD w, wA w, wB w]

/-- An instruction of class EL (Table 3-20). -/
def elWord (w : InstrWord) : Bool :=
  let op := wFn w / 8
  let m := wMaj w
  m == 0x24 || m == 0x25 || m == 0x26 || m == 0x2E || (m == 0x27 && op != 4) || (m == 0x28 && (op ≤ 11 || op == 16)) ||
  (m == 0x2F && decide (5 ≤ wFn w / 16) && decide (wFn w / 16 ≤ 8)) ||
  (m == 0x29 && (wFn w ≤ 4 || wFn w == 9 || wFn w == 10 || wFn w == 11)) || (m == 0x2A && op == 15) ||
  (m == 0x2B && bits w.toNat 11 8 != 14 && bits w.toNat 7 4 != 14)

/-- The three kinds of entries of which the queue runs one each at once (R130): a load 0, an arithmetic entry 1, a store 2. -/
def runsAs (w : InstrWord) : Option Nat :=
  let op := wFn w / 8
  let m := wMaj w
  if m = 0x28 then
    if op = 0 ∨ op = 2 ∨ op = 4 ∨ op = 7 ∨ op = 9 ∨ op = 10 ∨ op = 16 then some 0
    else if op = 1 ∨ op = 3 ∨ op = 5 ∨ op = 8 ∨ op = 11 then some 2
    else none
  else if (0x24 ≤ m ∧ m ≤ 0x27) ∨ (0x29 ≤ m ∧ m ≤ 0x2B) then some 1
  else none

/-- How many elements an entry of the queue has completed: the head by VEI, a later one by its start element. -/
def State.progress (s : State) (j : Nat) (x : VEntry) : Nat :=
  if !elWord x.word then 0 else if j = 0 then s.st.ctl.vei.toNat else if x.begun then x.start else 0

/-- The bytes that elements lo and up of an entry may touch. -/
def VEntry.touchFrom (e : VEntry) (bound : List Nat) (lo hi : Nat) : Touch :=
  let op := wFn e.word / 8
  let size : Nat := if wFn e.word % 8 < 4 then 2 ^ (wFn e.word % 8) else 8
  if wMaj e.word = 0x28 ∧ op ≤ 1 then entryTouch bound { e with opA := e.opA + BitVec.ofNat 64 (lo * size), vl := hi - lo }
  else if wMaj e.word = 0x28 ∧ op ≤ 3 then
    entryTouch bound { e with opA := e.opA + e.vstr * BitVec.ofNat 64 lo, vl := hi - lo }
  else entryTouch bound e

def Touch.apart : Touch → Touch → Bool
  | .nothing, _ | _, .nothing => true
  | .range a b, .range c d => decide (b ≤ c) || decide (d ≤ a)
  | _, _ => false

/-- Two entries name one register of a kind, as far as their words tell. -/
def shareRegs (x e : VEntry) : Bool :=
  (wRegs x.word).any (fun r => (wRegs e.word).contains r) || maskDest x.word == some e.vms || maskDest e.word == some x.vms

/-- A lane form of a load or a store. -/
def laneForm (w : InstrWord) : Bool := wMaj w == 0x28 && (wFn w / 8 == 7 || wFn w / 8 == 8)

/-- Elements up to m of an entry do not depend on what an entry ahead of it has still to do: the two share no register, or the elements
of that one up to m are completed (R73, R130), and no byte (R117, R369). -/
def State.clearOf (s : State) (j : Nat) (x e : VEntry) (m : Nat) : Bool :=
  let p := s.progress j x
  let b := s.boundRegs
  (!shareRegs x e || decide (m ≤ p)) && !(laneForm x.word && laneForm e.word) &&
  Touch.apart (x.touchFrom b p x.vl) (e.touchFrom b e.start m)

/-- An entry may run up to element m while those ahead of it have not completed (R130, R369): with them it makes at most one load, one
arithmetic entry and one store; it is of class EL, reads no stream, accesses no SO or DV page, follows no stochastic rounding, and what
it needs of them is done (assumption log 78). -/
def State.mayRunEarly (s : State) (ahead : List VEntry) (e : VEntry) (m : Nat) : Bool :=
  let kinds := (ahead ++ [e]).map fun x => runsAs x.word
  elWord e.word && kinds.all Option.isSome && kinds.eraseDups.length == kinds.length && !s.held e.word &&
  (wRegs e.word).all (fun r => !s.boundRegs.contains r) && (scDest e.word).isNone &&
  !(wMaj e.word == 0x2B && fcrSr e.fcr) && (runsAs e.word == some 1 || !s.mayBeStrong (e.touchFrom s.boundRegs e.start m)) &&
  ahead.zipIdx.all fun (x, j) => s.clearOf j x e m

/-- Entry k of the queue, to be run up to element m, a group boundary before its end (R369, R430): the head, or one of the two behind it. -/
def State.earlyEntry (s : State) (k m : Nat) : Option VEntry :=
  let t := s.st
  if !t.seated || t.sched.preempting || t.sched.restoring || s.dies[s.myDie].hot || decide (2 < k) ||
      m % laneCount s.myCore.div != 0 then none
  else match t.vq[k]? with
    | none => none
    | some e =>
      let ok :=
        if k = 0 then elWord e.word && decide (t.ctl.vei.toNat < m) && (!s.held e.word || s.midway)
        else s.mayRunEarly (t.vq.take k) e m && decide (e.start < m)
      if ok && decide (m < e.vl) then some e else none

/-- The scalar stream of the strand issues alone: what it commits is not run with it. -/
def State.asScalar (s : State) : State := { s with st := { s.st with queueOnly := true, scalarNext := true } }
def State.scalarDone (s : State) : State := { s with st := { s.st with queueOnly := false } }
/-- The strand's scalar stream is what moves next. -/
def Next.scalar : Next → Bool
  | .replay _ | .notify | .word => true
  | .entry .. | .idle => false

/-- Entry k leaves its place to run up to element m. -/
def State.runsAhead (s : State) (k m : Nat) (e : VEntry) : State :=
  { s with st := { s.st with vq := s.st.vq.eraseIdx k, issue := some e, early := some (k, m) } }

/-! ### The timetable (R362, R363) -/

/-- The budget holder of an instance: the nearest house with a budget of its own, going up to the root (R362). -/
def Launch.holder (l : Launch) : Nat → Nat → Nat
  | 0, i => i
  | n + 1, i => match l.insts[i]? with
    | none => i
    | some x =>
      if ((l.houses[x.record]?).map (·.ownBudget)).getD false then i
      else match x.parent with
        | none => i
        | some p => l.holder n p

/-- The entry of a strand: its launch and budget holder, at its scheduling priority. -/
def State.entryOf (s : State) (t : Strand) : Nat × Nat :=
  (t.sched.lid, match s.launch? t.sched.lid with
    | none => t.sched.inst
    | some l => l.holder 16 t.sched.inst)

def prioIx (p : Nat) : Fin 8 := ⟨p % 8, Nat.mod_lt _ (by decide)⟩

/-- A ring keeps the entries that are still active, in order, and takes the new ones at its tail with DEF 0. A pointer to an
entry that has left names the entry after it. -/
def Ring.renew (r : Ring) (active : List (Nat × Nat)) : Ring :=
  let live := fun (x : Nat × Nat × Int) => active.contains (x.1, x.2.1)
  let kept := r.entries.filter live
  let new := active.filter fun a => !(kept.any fun x => x.1 == a.1 && x.2.1 == a.2)
  let ptr := match r.ptr with
    | none => none
    | some p =>
      let tail := r.entries.dropWhile fun x => !(x.1 == p.1 && x.2.1 == p.2)
      ((tail ++ r.entries).find? live).map fun x => (x.1, x.2.1)
  { entries := kept ++ new.map fun a => (a.1, a.2, 0), ptr }

/-- Every ring holds the entries of its READY and SEATED strands. -/
def State.renewRings (s : State) : State :=
  let act := (s.strands.filter fun t => t.sched.status == .ready || t.seated).map fun t => (t.sched.prio, s.entryOf t)
  { s with rings := Vector.ofFn fun (i : Fin 8) =>
      (s.rings[i]).renew ((act.filter fun x => x.1 % 8 == i.val).map (·.2)).eraseDups }

/-- Cycles charged to the entry of a seated strand, until its save begins. -/
def State.charge (s : State) (t : Strand) (c : Nat) : State :=
  if t.seated && !t.sched.quiesced && !t.sched.restoring then
    let e := s.entryOf t
    let p := prioIx t.sched.prio
    { s with rings := s.rings.set p { s.rings[p] with
        entries := s.rings[p].entries.map fun x => if x.1 = e.1 ∧ x.2.1 = e.2 then (x.1, x.2.1, x.2.2 - (c : Int)) else x } }
  else s

/-! ### Time -/

/-- The waits that park: of the scalar stream, and of a queue entry (R361). -/
def parks : Wait → Bool
  | .bar | .swait | .grp | .coll | .engPop _ | .engPush _ | .engDrain _ | .tlAcq => true
  | _ => false
def parksEntry : Wait → Bool
  | .grp | .coll => true
  | _ => false
/-- The strand waits in such a wait. -/
def Strand.inParkingWait (t : Strand) : Bool := parks t.wait || (!t.vq.isEmpty && parksEntry t.qwait)

/-- The effective priority of a strand's level-0 house (R350). -/
def State.baseprio (s : State) (t : Strand) : Nat :=
  match s.launch? t.sched.lid with
  | none => 0
  | some l => (((l.insts[t.sched.inst]?).bind l.house).map (·.prio)).getD 0

/-- The scheduling priority of a READY strand: min(7, P + A / 2^16) (R362). -/
def State.readyPrio (s : State) (t : Strand) (aged : Nat) : Nat := min 7 (s.baseprio t + aged / 65536)

/-- A strand that is READY ages, and its scheduling priority with it (R362); a seated one holds its seat (R364), and counts the
cycles of a wait that parks (R361). -/
def State.age (s : State) (t : Strand) (c : Nat) : Strand :=
  match t.sched.status with
  | .ready => { t with sched := { t.sched with aged := t.sched.aged + c, prio := s.readyPrio t (t.sched.aged + c) } }
  | .seated => { t with sched := { t.sched with
      seatedFor := t.sched.seatedFor + c, waited := if t.inParkingWait then t.sched.waited + c else 0 } }
  | _ => t

/-- The enabled cores of a die. -/
def State.dieCores (s : State) (d : DieNo) : List Nat :=
  ((upTo 128).map fun i => d.val * 128 + i).filter fun c => decide (c % 16 < dieScores s.diecfg[d] (c / 16 % 8))

/-- The cores whose issue is held count the cycles (PWRHOLD, R27, R452). -/
def State.countHolds (s : State) (c : Word) : State :=
  let held := (([0, 1, 2, 3] : List DieNo).filter s.stackHold).flatMap s.dieCores
  let own := (s.cores.filter fun x => (x.2.holdMx || x.2.holdVec) && !held.contains x.1).map (·.1)
  (held ++ own).foldl (fun s n => s.mapCore n fun k => { k with pwrhold := k.pwrhold + c }) s

/-- The cycles of a step pass: CYC of every die (R251), PWRHOLD, the ages of strands, and the charges of the timetable. -/
def State.tick (s : State) : State :=
  let c := Config.stepCycles s.stepNo
  let s := s.renewRings
  let s := (s.strands.foldl (fun s t => s.charge t c.toNat) s).countHolds c
  { s with
    stepNo := s.stepNo + 1
    dies := s.dies.map fun d => { d with cyc := d.cyc + c }
    st := s.age s.st c.toNat
    others := s.others.map fun (n, t) => (n, s.age t c.toNat) }

/-! ### Choices of the environment -/

/-- A translation cache drops an entry (R404). -/
def State.dropTlb (s : State) (scope unit idx : Nat) : State :=
  if scope = 0 then s.mapCore (unit % 512) fun c => { c with tlb := c.tlb.eraseIdx idx }
  else if scope = 1 then s.mapSect (coreSect (unit * 16)) fun x => { x with tlb := x.tlb.eraseIdx idx }
  else s.mapDie (coreDie (unit * 128)) fun d => { d with tlb := d.tlb.eraseIdx idx }

/-- A die-to-die request has queued n cycles at a die, each counted there (R23). -/
def State.hopWait (s : State) (die n : Nat) : State := s.mapDie (coreDie (die * 128)) fun d => { d with hopw := d.hopw + BitVec.ofNat 64 n }

/-- The host opens a frame of its memory to DMA, for reading alone or for both, or closes it. -/
def State.hostFrame (s : State) (frame : Nat) (readable writable : Bool) : State :=
  let put := fun (on : Bool) (l : List Nat) => if on then insertAsc l frame else l.filter (· != frame)
  { s with hostBad := put (!readable) s.hostBad, hostRO := put (readable && !writable) s.hostRO }

/-! ### A program placed where the machine fetches (assumption log 11) -/

/-- A leaf of region 0 in the RC window: V, L, R, W, X, P and KIND RC, with its frame. -/
def leafWord (frame : Nat) : Nat := frame * 2 ^ 31 + 0x13F

/-- READY firmware, partition 0 with every section and 2 GiB, region 0 with page tables at 0x10000, 0x20000 and 0x30000,
and one seated strand of launch 1 whose code page is frame 4 at VA 0x10000. -/
def State.withProgram (s : State) : State :=
  let m := Memory.writeN s.mem 0x10000 8 0x20001
  let m := Memory.writeN m 0x20000 8 0x30001
  let m := Memory.writeN m 0x30008 8 (leafWord 4)
  let t := Strand.create 0 0 0 0x10000 0
  { s with
    phase := .ready, fwst := 2, share := 1, shareSet := true, mem := m, turns := []
    parts := SMap.put s.parts 0 [BitVec.ofNat 64 (0xFFFFFFFF + 2 ^ 35 + 2 ^ 48), 0, BitVec.ofNat 64 (4 * 2 ^ 23), 0, 0, 0, 0, 0]
    regions := SMap.put s.regions 0 [BitVec.ofNat 64 0x10001, 0, 0, 0, 0, 0, 0, 0]
    launches := [{ lid := 1, origin := none, live := true, fn := 0, partn := 0, region := 0, recordAddr := 0, phys := [0],
                   houses := [{ level := 0, count := 1, nchild := 0, subtree := 1, entry := 0x10000, ownBudget := true, slots := 0,
                                weight := 1, prio := 0, policy := 0 }],
                   insts := [{ record := 0, number := 0, parent := none, pkg := 0, home := 0, status := .live, strand := some 0, mid := some (s.mid 0),
                               retries := 0, episode := 0, arrived := [], lastResult := 0, newWithdrawal := false, claims := [] }],
                   arg := 0, flog := 0, flogn := 0, flogIdx := 0, seq := 0, range := 0, rangen := 0, rangeNext := 0, pkgs := [0],
                   status := 0, faults := [] }]
    lids := 1
    cur := some 0
    st := { t with sched := { t.sched with status := .seated, place := some (0, 0), lid := 1 } }
    others := [] }

/-- Where the strand's next word stands, when the next step fetches one. -/
def State.fetchKey (s : State) : Option Nat :=
  if s.turns = [] ∧ s.cur.isSome ∧ s.phase = .ready ∧ s.nextOf = .word then
    match leafM .fetch s.st.pc.toNat s with
    | .ok (.ok (.mem key _ _)) _ => if scratchBase ≤ s.st.pc.toNat then none else some key
    | _ => none
  else none

/-- Store a word where the next step fetches: at the strand's PC, or in the program page of `withProgram` when the machine
does not fetch next. -/
def State.placeWord (s : State) (w : Nat) : State :=
  match s.fetchKey with
  | some key => { s with mem := Memory.writeN s.mem key 4 w }
  | none =>
    let s := s.withProgram
    { s with mem := Memory.writeN s.mem 0x40000 4 w }

end Sys2Proof.Machine
end

