-- ==== Sys2Proof/Machine/Sched.lean ====
section
/-!
DEFINITION. The control-die scheduler (R360–R366, R376, R438) and the completion of barriers (R378): which strand takes a free
seat, which seated strand gives one up, how priorities age, and when a wait is over.
-/

namespace Sys2Proof.Machine

open Sys2Proof

/-! ### READY strands (R360–R362) -/

/-- The strand becomes READY, with A = 0 (R362, R364). -/
def State.ready (s : State) (t : Strand) : State :=
  s.setStrand { t with sched := { t.sched with
    status := .ready, aged := 0, readySince := s.stepNo, prio := s.baseprio t } }

/-- PRIORITY_AGING: each 2^16 cycles spent READY raise the scheduling priority by one, to 7 at most (R362). -/
def execPriorityAging (sn : Nat) (s : State) : Out :=
  match s.strand? sn with
  | none => .next s
  | some t =>
    let p := s.readyPrio t t.sched.aged
    if t.sched.status = .ready ∧ t.sched.prio < p then .next (s.setStrand { t with sched := { t.sched with prio := p } })
    else .next s

/-! ### Seats (R363, R366, R438) -/

/-- Some strand holds a slot of a core, or any slot of it. -/
def State.slotTaken (s : State) (core slot : Nat) : Bool := s.strands.any fun t => t.sched.place == some (core, slot)
def State.emptyCore (s : State) (core : Nat) : Bool :=
  s.strands.all fun t => match t.sched.place with
    | some (c, _) => c != core
    | none => true

/-- The seat of a core that a strand could take: the division the core would have, none where the count of candidates gives
it (R366), and the slot. A saved strand takes slot SLOT at division DIV only, and one saved as MXO.OWNER only where MXO.OWNER
names an unseated slot (R438). -/
def State.seatFor (s : State) (t : Strand) (core : Nat) : Option (Option Nat × Nat) :=
  let k := s.coreOf core
  if s.emptyCore core then
    match t.sched.saved with
    | none => some (none, 0)
    | some (div, slot, _) => some (some div, slot)
  else
    match t.sched.saved with
    | none => ((upTo (slotsOf k.div)).find? fun i => !s.slotTaken core i).map fun i => (some k.div, i)
    | some (div, slot, own) =>
      if div = k.div ∧ s.slotTaken core slot = false ∧ (own = false ∨ s.slotTaken core k.owner = false) then some (some div, slot) else none

/-- A candidate with a seat of the core that it could take now. -/
def State.seatable (s : State) (t : Strand) (core : Nat) : Bool := s.candidate t core && (s.seatFor t core).isSome

/-- DIV for an empty core: by the READY strands that are candidates for a seat of it (R366). -/
def State.divOf (s : State) (core : Nat) : Nat :=
  min ((s.strands.filter fun t => s.candidate t core).length - 1) 2

/-! ### Reservations (R365) -/

/-- The slots that the budget holder of an entry reserves. -/
def State.reservedOf (s : State) (e : Nat × Nat) : Nat :=
  match s.launch? e.1 with
  | none => 0
  | some l => match (l.insts[e.2]?).bind l.house with
    | none => 0
    | some h => if h.ownBudget then h.slots else 0

/-- Two strands are of one entry of the timetable: the same budget holder and scheduling priority (R362). -/
def State.sameEntry (s : State) (t u : Strand) : Bool := s.entryOf t == s.entryOf u && t.sched.prio == u.sched.prio

/-- Seated strands of the entry of a strand. -/
def State.holding (s : State) (t : Strand) : List Strand := s.strands.filter fun u => u.seated && s.sameEntry t u

/-- The entry of the strand holds fewer seats than its budget holder reserves. -/
def State.short (s : State) (t : Strand) : Bool := decide ((s.holding t).length < s.reservedOf (s.entryOf t))

/-- A seated strand holds a reserved seat: it is among the first of its entry's strands, as many as are reserved, in the order in
which they were seated (assumption log 39). -/
def State.reserved (s : State) (t : Strand) : Bool :=
  let before := (s.holding t).filter fun u =>
    decide (t.sched.seatedFor < u.sched.seatedFor) || (t.sched.seatedFor == u.sched.seatedFor && decide (u.sn < t.sn))
  decide (before.length < s.reservedOf (s.entryOf t))

/-! ### The decision (R363) -/

/-- READY longest; on a tie, the lowest strand number. -/
def longestReady (cs : List Strand) : Option Strand :=
  cs.foldl (fun a t => match a with
    | none => some t
    | some u =>
      if t.sched.readySince < u.sched.readySince ∨ (t.sched.readySince = u.sched.readySince ∧ t.sn < u.sn) then some t else some u) none

/-- The weight of an entry: WEIGHT of its budget holder, 0 read as 1. -/
def State.weightOf (s : State) (e : Nat × Nat) : Nat :=
  match s.launch? e.1 with
  | none => 1
  | some l => match (l.insts[e.2]?).bind l.house with
    | none => 1
    | some h => max h.weight 1

/-- Rounds until DEF is positive: each adds W × Q. -/
def roundsFor (w : Nat) (d : Int) : Nat := if 0 < d then 0 else (-d).toNat / (w * 4096) + 1

/-- DEF after n rounds, limited to 2 × W × Q. -/
def afterRounds (w n : Nat) (d : Int) : Int := if n = 0 then d else min (d + (n * w * 4096 : Nat)) (2 * w * 4096 : Nat)

/-- A ring in order from its pointer. -/
def Ring.fromPtr (r : Ring) : List (Nat × Nat × Int) :=
  match r.ptr with
  | none => r.entries
  | some p =>
    let before := r.entries.takeWhile fun x => !(x.1 == p.1 && x.2.1 == p.2)
    r.entries.drop before.length ++ before

/-- The entry of a level that the decision chooses among those holding a candidate, with the level's ring after it. -/
def State.chooseEntry (s : State) (p : Fin 8) (cs : List Strand) : Option ((Nat × Nat) × Ring) :=
  let r := s.rings[p]
  let es := r.fromPtr.filter fun x => cs.any fun t => s.entryOf t == (x.1, x.2.1)
  match es with
  | [] => none
  | e0 :: _ =>
    let need := fun (x : Nat × Nat × Int) => roundsFor (s.weightOf (x.1, x.2.1)) x.2.2
    let n := es.foldl (fun a x => min a (need x)) (need e0)
    let credit := fun (x : Nat × Nat × Int) => (x.1, x.2.1, afterRounds (s.weightOf (x.1, x.2.1)) n x.2.2)
    ((es.map credit).find? fun x => decide (0 < x.2.2)).map fun x =>
      ((x.1, x.2.1), { entries := r.entries.map credit, ptr := some (x.1, x.2.1) })

/-- The strand that a decision seats: one whose entry is short of its reservation first (R365), else by the ring of the
highest priority. -/
def State.pickStrand (s : State) (cs : List Strand) : Option (Strand × State) :=
  match longestReady (cs.filter s.short) with
  | some t => some (t, s)
  | none =>
    let p := cs.foldl (fun a t => max a t.sched.prio) 0
    let cs := cs.filter fun t => t.sched.prio == p
    match s.chooseEntry (prioIx p) cs with
    | none => none
    | some (e, r) =>
      (longestReady (cs.filter fun t => s.entryOf t == e)).map fun t => (t, { s with rings := s.rings.set (prioIx p) r })

/-- The lanes of a slot hold zeros, and its tiles are as after `mx.zero` with kind 0 (R435). -/
def State.freshSlot (s : State) (core slot : Nat) : State :=
  let n := laneCount (s.coreOf core).div
  let s := { s with onchip := Memory.wipe s.onchip (laneKey core (slot * n) 0) (4096 * n) }
  s.clearTiles core slot

/-- Seat a strand on a core: on an empty core the division is set (R366, R438); a strand with an image is restored first. -/
def State.seat (s : State) (t : Strand) (core slot div : Nat) : State :=
  let s := if s.emptyCore core then s.mapCore core fun k => { k with div } else s
  let s := match t.sched.saved with
    | none => s.freshSlot core slot
    | some (_, _, own) => if own then s.mapCore core fun k => { k with owner := slot, granted := false } else s
  s.setStrand { t with sched := { t.sched with
    status := .seated, place := some (core, slot), aged := 0, seatedFor := 0, lastCore := some core,
    restoring := t.sched.saved.isSome } }

/-- The core a strand is seated on: the one it last ran on if it has a seat for it, otherwise the lowest-numbered (R366). -/
def State.coreFor (s : State) (t : Strand) : Option Nat :=
  match t.sched.lastCore with
  | some c => if s.seatable t c then some c else (upTo 512).find? fun c => s.seatable t c
  | none => (upTo 512).find? fun c => s.seatable t c

/-- SEAT_DECISION: a free seat of a core; on an empty core, whose division is not set yet, the decision names the slot (assumption log 65). -/
def execSeatDecision (core slot : Nat) (s : State) : Out :=
  let s := s.renewRings
  let cs := s.strands.filter fun t => s.seatable t core &&
    (s.emptyCore core || (s.seatFor t core).any fun z => z.2 == slot)
  match s.pickStrand cs with
  | none => .next s
  | some (t, s) =>
    match s.coreFor t with
    | none => .next s
    | some c => match s.seatFor t c with
      | none => .next s
      | some (div, z) => .next (s.seat t c z (div.getD (s.divOf c)))

/-! ### Victims (R364, R365) -/

/-- Some seat is free for a candidate. -/
def State.hasSeat (s : State) (u : Strand) : Bool := (upTo 512).any fun c => s.seatable u c

/-- The seat of t would be one that the READY strand u could take. -/
def State.wouldFit (s : State) (u t : Strand) : Bool :=
  match t.sched.place with
  | none => false
  | some (core, slot) =>
    s.candidate u core &&
    match u.sched.saved with
    | none => true
    | some (div, z, own) =>
      (s.strands.all fun x => x.sn == t.sn || match x.sched.place with | some (c, _) => c != core | none => true) ||
      (div == (s.coreOf core).div && z == slot && (!own || (s.coreOf core).owner == slot || !s.slotTaken core (s.coreOf core).owner))

/-- A seated strand that may have to give its seat to the candidate u. -/
def State.qualifies (s : State) (u t : Strand) : Bool :=
  t.seated && !t.sched.preemptAsked && s.wouldFit u t &&
  if s.short u then !s.reserved t && !s.hasSeat u
  else
    ((decide (t.sched.prio < u.sched.prio) && !s.hasSeat u) ||
      (decide (4096 ≤ t.sched.seatedFor) && decide (t.sched.prio ≤ u.sched.prio))) &&
    (!s.reserved t || s.sameEntry t u)

/-- The keys of R364: lowest priority, longest seated, lowest core, lowest slot. -/
def victimBefore (t u : Strand) : Bool :=
  if t.sched.prio ≠ u.sched.prio then decide (t.sched.prio < u.sched.prio)
  else if t.sched.seatedFor ≠ u.sched.seatedFor then decide (u.sched.seatedFor < t.sched.seatedFor)
  else if t.core ≠ u.core then decide (t.core < u.core)
  else decide (t.slot < u.slot)

/-- Seats that are being given up serve the candidates that come before u: higher priority, READY longer, lower number. -/
def State.served (s : State) (u : Strand) : Bool :=
  let leaving := s.strands.filter fun t => t.seated && t.sched.preemptAsked && s.wouldFit u t
  let before := s.strands.filter fun x => x.sched.status == .ready && (decide (u.sched.prio < x.sched.prio) ||
    (x.sched.prio == u.sched.prio && (decide (x.sched.readySince < u.sched.readySince) ||
      (x.sched.readySince == u.sched.readySince && decide (x.sn < u.sn)))))
  decide (before.length < leaving.length)

/-- QUANTUM_EXPIRY: the strand is the victim of some waiting candidate (R364, R365). -/
def execQuantumExpiry (sn : Nat) (s : State) : Out :=
  match s.strand? sn with
  | none => .next s
  | some t =>
    let all := s.strands
    if all.any fun u => u.sched.status == .ready && !s.served u && s.qualifies u t &&
        all.all fun x => !s.qualifies u x || !victimBefore x t then .next (s.askPreempt sn)
    else .next s

/-! ### Waits that end (R361, R378, R426) -/

/-- A barrier the strand has arrived at has completed. -/
def State.barOver (s : State) (t : Strand) : Bool :=
  match s.launch? t.sched.lid with
  | none => true
  | some l => t.arrivals.any fun (level, n) => match (ancestorAt l level t.sched.inst).bind fun h => l.insts[h]? with
    | some x => decide (n ≤ x.episode)
    | none => true

/-- A join the strand asked for has been answered (R329). -/
def State.joinOver (s : State) (t : Strand) : Bool :=
  t.joinRefused || match t.asked with
  | none => true
  | some gid => match s.group? gid with
    | some g => g.members.contains (s.mid t.sn) && !g.fresh.contains (s.mid t.sn)
    | none => false

/-- A collective the strand has contributed to has been committed, or its generation has been superseded (R321, R443). -/
def State.collDue (s : State) (t : Strand) : Bool :=
  match t.coll with
  | none => true
  | some k => k.fate != .standing || match s.group? k.gid with
    | none => true
    | some g => decide (k.gen < g.gen) || ((s.gathered k 0).isSome && s.isCommitted k 0)

/-- A wait that parks could complete. -/
def State.waitOver (s : State) (t : Strand) : Wait → Bool
  | .bar => s.barOver t
  | .swait => t.wake
  | .grp => s.joinOver t
  | .coll => s.collDue t
  | .engPop e => !(t.fifo[e]).results.isEmpty
  | .engPush e => decide ((t.fifo[e]).cmds.length + (if (t.fifo[e]).running.isSome then 1 else 0) + (t.fifo[e]).results.length < 16)
  | .engDrain e => (t.fifo[e]).cmds.isEmpty && (t.fifo[e]).running.isNone
  | .tlAcq =>
    let d := s.dies[coreDie (t.sched.lastCore.getD 0)]
    decide (t.tailRead.getD d.tail ≤ d.tail - d.log.length)
  | _ => false

/-- UNPARK: the wait of a parked strand could complete. -/
def execUnpark (sn : Nat) (s : State) : Out :=
  match s.strand? sn with
  | none => .next s
  | some t =>
    if t.sched.status = .parked ∧ (s.waitOver t t.wait || s.waitOver t t.qwait) = true then .next (s.ready t) else .next s

/-- WAIT_TIMEOUT: 4,096 cycles have passed since a `wait` issued (assumption log 79). -/
def execWaitTimeout (sn : Nat) (s : State) : Out :=
  match s.strand? sn with
  | none => .next s
  | some t => if t.wait = .wakeOrResult then .next (s.setStrand { t with waitDone := true }) else .next s

/-! ### Barriers (R378, R444) -/

/-- A strand that was withdrawn is still a member of a group, or is removed by a generation that is not STABLE yet: its withdrawal has
no effect at barriers yet (R444). -/
def State.stillMember (s : State) (x : Inst) : Bool :=
  match x.mid with
  | none => false
  | some m => s.groups.any fun g => g.members.contains m || g.gone.contains m

/-- The strand of an instance has arrived by `bar`. -/
def Inst.isIn (x : Inst) (arrived : List Nat) : Bool :=
  match x.mid with
  | some m => arrived.contains m
  | none => false

/-- The withdrawn level-0 instances of a house, which the next episode counts by their withdrawal. -/
def Launch.withdrawnLeaves (l : Launch) (h : Nat) (arrived : List Nat) : List Inst :=
  ((l.leaves h).filterMap fun i => l.insts[i]?).filter fun x => x.status == .withdrawn && !x.isIn arrived

/-- The parked participants of a completed episode become READY. -/
def State.readyArrived (s : State) (mids : List Nat) : State :=
  mids.foldl (fun s m => match s.strandOfMid m with
    | some t => if t.sched.status = .parked ∧ t.wait = .bar then s.ready t else s
    | none => s) s

/-- What the other packages of a house report of its next episode, arrivals, live strands that have not arrived, withdrawals, and whether
one of those is new, agrees with what this package has been told: no word of it is on its way (assumption log 80). -/
def State.farAgrees (s : State) (l : Launch) (h : Nat) (x : Inst) (arrived missing : Nat) (wd newwd : Bool) : Bool :=
  let far := (l.leaves h).filterMap fun i => (l.insts[i]?).filter fun y => !s.isHere l y.pkg
  far.isEmpty || (decide (missing = 0) && decide (arrived = (x.arrived.filter fun m => m / 65536 != s.handle.toNat).length) &&
    wd == (far.any fun y => y.status == .withdrawn && !y.isIn x.arrived) && (!newwd || x.newWithdrawal))

/-- BARRIER_COMPLETE: every live strand of the house has arrived, here and on the other packages of the launch; someone has arrived; and no
withdrawal is still on its way. -/
def execBarrierComplete (lid inst arrived missing : Nat) (wd newwd : Bool) (s : State) : Out :=
  match s.launch? lid with
  | none => .next s
  | some l =>
    match l.insts[inst]? with
    | none => .next s
    | some x =>
      let live := (l.liveLeaves inst).filterMap fun i => l.insts[i]?
      let out := l.withdrawnLeaves inst x.arrived
      if l.levelOf inst = 0 ∨ s.farAgrees l inst x arrived missing wd newwd = false ∨ x.arrived = [] ∨
          live.all (·.isIn x.arrived) = false ∨ out.any s.stillMember = true then .next s
      else
        let r := barResult (!out.isEmpty) x.newWithdrawal x.arrived.length (x.episode + 1)
        let s := s.setLaunch (l.mapInst inst fun x =>
          { x with episode := x.episode + 1, lastResult := r, arrived := [], newWithdrawal := false })
        .next (s.readyArrived x.arrived)

end Sys2Proof.Machine
end

