-- ==== Sys2Proof/Machine/Save.lean ====
section
/-!
DEFINITION. Parking, pre-emption and the saved context (R230, R271, R361, R419, R430–R440): the image of a strand, its save to
the shadow store, its copy to a frame, its restore, and the commands of the save engine.
-/

namespace Sys2Proof.Machine

open Sys2Proof

/-! ### The image (R431–R434) -/

/-- A part of an image: offset, length, value. -/
abbrev ImgPart := Nat × Nat × Nat

/-- The instruction captures VSTR (Tables 5-2, 11-4): the strided loads and stores, `vpre` (R124) and `mx.ldwg`. -/
def readsVstr (w : InstrWord) : Bool :=
  (wMaj w == 0x28 && (wFn w / 8 == 2 || wFn w / 8 == 3 || wFn w / 8 == 16)) || (wMaj w == 0x2C && wFn w / 16 == 1)

/-- A saved queue entry (Table 27-3) at its offset. -/
def entryParts (o : Nat) (n : VEntry) (start : Nat) : List ImgPart :=
  [(o, 8, n.word.toNat + start % 128 * 2 ^ 32 + (if n.srs.isSome then 2 ^ 39 else 0) + n.vl % 256 * 2 ^ 40 + n.vms % 16 * 2 ^ 48 +
      n.gth % 64 * 2 ^ 52),
   (o + 8, 8, n.pc.toNat % 2 ^ 55),
   (o + 16, 8, n.opA.toNat),
   (o + 24, 8, if readsVstr n.word then n.vstr.toNat else n.opB.toNat),
   (o + 32, 8, ((n.srs.map BitVec.toNat).getD 0) + n.fcr.toNat * 2 ^ 32 + n.opAGrade.toNat * 2 ^ 42)]

/-- The strand record (Table 27-2), for a core's division, a slot, and whether the slot is MXO.OWNER. -/
def recordParts (t : Strand) (tstat : Word) (div slot : Nat) (own : Bool) : List ImgPart :=
  let c := t.ctl
  let r := t.trap
  let qn := t.pend.length + t.vq.length
  [(0, 8, t.pc.toNat),
   (8, 8, (if t.mode = .s then 1 else 0) + qn % 64 * 2 + t.pend.length % 64 * 128 + div % 4 * 2 ^ 13 + slot % 4 * 2 ^ 15 +
      (if own then 2 ^ 17 else 0))] ++
  ((List.finRange 32).drop 1).map (fun i => (8 + 8 * i.val, 8, (t.regs.g[i]).toNat)) ++
  (List.finRange 16).map (fun i => (264 + 8 * i.val, 8, (t.regs.f[i]).val.toNat)) ++
  (List.finRange 16).map (fun i => (392 + 2 * i.val, 2, (t.regs.f[i]).grade.toNat)) ++
  [(424, 8, c.vl % 256 + c.vms.toNat * 2 ^ 8 + c.vei.toNat * 2 ^ 12 + c.gth.toNat * 2 ^ 19 + c.fcr.toNat * 2 ^ 25 +
      c.fflags.toNat * 2 ^ 35),
   (432, 8, c.vstr.toNat), (440, 8, c.fxr.toNat), (448, 8, c.srs.toNat),
   (456, 8, r.tvec.toNat), (464, 8, r.tpc.toNat), (472, 8, r.tval.toNat), (480, 8, r.tres.toNat),
   (488, 8, r.tscr0.toNat), (496, 8, r.tscr1.toNat),
   (504, 8, r.tcause.toNat + r.telem.toNat * 2 ^ 8 + r.tqpos.toNat * 2 ^ 15 + tstat.toNat % 2 ^ 14 * 2 ^ 21)] ++
  (List.finRange 12).map (fun i => (512 + 16 * i.val, 16, (t.regs.m[i]).toNat)) ++
  (List.finRange 48).map (fun i => (704 + i.val, 1, t.tags.vlen[i])) ++
  ([1, 2] : List Nat).map (fun i => (744 + 8 * i, 8, match t.vq[i]? with
    | some n => if n.begun then n.fxr.toNat else 0
    | none => 0)) ++
  ((t.pend ++ t.vq).zipIdx.map fun x =>
    entryParts (768 + 40 * x.2) x.1 (if x.2 = 0 ∨ x.2 = t.pend.length then c.vei.toNat else x.1.start)).flatten

/-- A plane tag (Table 27-5). -/
def tagParts (o so : Nat) (k : PlaneTag) : List ImgPart :=
  (o, 8, (if k.valid then 1 else 0) + k.fmt % 8 * 2 + k.n % 128 * 16) ::
  (List.finRange 64).map fun i => (so + 2 * i.val, 2, (k.sw[i]).toNat)

/-- The tiles that a slot owns (R43). -/
def ownedTiles (div slot : Nat) : List (Fin 4) := (List.finRange 4).filter fun t => tileOwned div slot t.val

/-- Bytes of a tile row. -/
def rowBytes (kind : Nat) : Nat := kindCols kind * kindSize kind

/-- The values of a tile in physical row order (R222). -/
def tileRows (s : State) (core : Nat) (t : Fin 4) : List ImgPart :=
  let k := (s.coreOf core).tiles[t]
  let h := kindRows k.kind
  let b := rowBytes k.kind
  (upTo h).map fun i => (327680 + tileBytes * t.val + (i + k.rho) % h * b, b, Memory.readN s.onchip (tileKey core t.val (i * b)) b)

/-- The entry of a tile in the matrix control block (Tables 27-4, 27-5). -/
def tileBlock (s : State) (core : Nat) (t : Fin 4) : List ImgPart :=
  let k := (s.coreOf core).tiles[t]
  let o := 2328 + 328 * t.val
  [(o, 8, k.kind % 4 + k.rho % 64 * 4)] ++
  (List.finRange 64).map (fun i => (o + 8 + i.val, 1, k.rowGrade[i])) ++
  (List.finRange 64).map (fun i => (o + 72 + 4 * i.val, 4, (k.rmax[i]).toNat))

/-- Elements 0 to VLEN − 1 of a register with their grade words. -/
def regParts (t : Strand) (r : Fin 48) : List ImgPart :=
  let es := (List.finRange 128).filter fun e => decide (e.val < t.tags.vlen[r])
  es.map (fun e => (4096 + 1280 * r.val + 8 * e.val, 8, (t.regs.v[r][e]).val.toNat)) ++
  es.map fun e => (5120 + 1280 * r.val + 2 * e.val, 2, (t.regs.v[r][e]).grade.toNat)

/-- The parts of an image beside its record (R435): registers, lane slices, tiles, the matrix control block, and the planes. -/
structure ImgSet where
  regs : List (Fin 48)
  lanes : List Nat
  tiles : List (Fin 4)
  block : Bool
  planes : List Nat
  deriving DecidableEq, Repr

/-- The parts that a save writes: those that are dirty, and those that no earlier image of the strand holds (R435). -/
def State.dirtySet (s : State) (t : Strand) (core div slot : Nat) (own : Bool) : ImgSet :=
  let k := s.coreOf core
  let first := t.sched.saved.isNone
  let newOwner := !(t.sched.saved.any fun z => z.2.2)
  let tiles := (ownedTiles div slot).filter fun i => first || (k.tiles[i]).dirty
  let planes := if own then (if newOwner || k.activeDirty then [0] else []) ++ (if newOwner || k.shadowDirty then [1] else []) else []
  { regs := (List.finRange 48).filter fun r => first || t.tags.vdirty[r]
    lanes := t.tags.laneValid.filter fun j => decide (j < laneCount div) && (first || t.tags.laneDirty.contains j)
    tiles, planes, block := !tiles.isEmpty || !planes.isEmpty }

/-- The parts that the image has and a save does not write. -/
def ImgSet.kept (w : ImgSet) (t : Strand) (div slot : Nat) (own : Bool) : ImgSet :=
  { regs := (List.finRange 48).filter fun r => !w.regs.contains r
    lanes := t.tags.laneValid.filter fun j => decide (j < laneCount div) && !w.lanes.contains j
    tiles := (ownedTiles div slot).filter fun i => !w.tiles.contains i
    block := !w.block
    planes := if own then ([0, 1] : List Nat).filter fun p => !w.planes.contains p else [] }

/-- Where the planes stand in an image. -/
def planeOff (p : Nat) : Nat := if p = 0 then 376832 else 524288

/-- Offset and length of each part of a set. -/
def ImgSet.ranges (w : ImgSet) (vlen : Fin 48 → Nat) : List (Nat × Nat) :=
  (if w.block then [(2048, 2048)] else []) ++
  (w.regs.map fun r => [(4096 + 1280 * r.val, 8 * vlen r), (5120 + 1280 * r.val, 2 * vlen r)]).flatten ++
  w.lanes.map (fun j => (65536 + 4096 * j, 4096)) ++
  w.tiles.map (fun i => (327680 + tileBytes * i.val, tileBytes)) ++
  w.planes.map fun p => (planeOff p, planeBytes)

/-- What a save writes of a set word by word: registers, tiles, and the control block of the slot's tiles and of an owner's planes
(R434, R435). -/
def dataParts (s : State) (t : Strand) (core div slot : Nat) (own : Bool) (w : ImgSet) : List ImgPart :=
  let k := s.coreOf core
  (w.regs.map (regParts t)).flatten ++ (w.tiles.map (tileRows s core)).flatten ++
  (if w.block then
    ((ownedTiles div slot).map (tileBlock s core)).flatten ++
    (if own then [(2048, 8, if k.skf then 1 else 0)] ++ tagParts 2056 2072 k.active ++ tagParts 2064 2200 k.shadow else [])
   else [])

/-- The bulk of a set: offset in the image, key in the core's storage, and length of lane slices and planes. -/
def bulkParts (core div slot : Nat) (lanes planes : List Nat) : List (Nat × Nat × Nat) :=
  let n := laneCount div
  ((lanes.filter fun j => decide (j < n)).map fun j => (65536 + 4096 * j, laneKey core (slot * n + j) 0, 4096)) ++
  planes.map fun p => (planeOff p, planeKey core p 0, planeBytes)

/-! ### Where images stand (R17) -/

/-- Bytes of a core's region of the shadow store: register data of four slots, lanes, tiles and planes. -/
def regionBytes : Nat := 851968
def regionKey (core : Nat) : Nat := 2 ^ 32 + core * regionBytes
/-- The strand's 2 KiB of the context area, and the control block that the control die holds beside it. -/
def contextKey (core slot : Nat) : Nat := (core * 4 + slot) * 2048
def blockKey (core slot : Nat) : Nat := 2 ^ 24 + contextKey core slot

/-- Where the byte at an offset of an image stands: the record in the context area, the control block with the core's, and the
rest in the core's region, each slot's registers, lanes, tiles and planes at places of their own. -/
def shadowKey (core slot div off : Nat) : Nat :=
  if off < 2048 then contextKey core slot + off
  else if off < 4096 then blockKey core slot + (off - 2048)
  else if off < 65536 then regionKey core + 61440 * slot + (off - 4096)
  else if off < 327680 then regionKey core + 245760 + 4096 * (slot * laneCount div) + (off - 65536)
  else if off < 376832 then regionKey core + 507904 + (off - 327680)
  else if off < 524288 then regionKey core + 557056 + (off - 376832)
  else regionKey core + 704512 + (off - 524288)

/-- The ranges that an image has in its layout: record, block, register data, lanes, owned tiles, and an owner's planes. -/
def slotRanges (div slot : Nat) (own : Bool) : List (Nat × Nat) :=
  [(0, 2048), (2048, 2048), (4096, 61440), (65536, 4096 * laneCount div)] ++
  (ownedTiles div slot).map (fun t => (327680 + tileBytes * t.val, tileBytes)) ++
  (if own then [(376832, planeBytes), (524288, planeBytes)] else [])

/-- Write the parts of an image to memory, each at the key of its offset. -/
def putParts (m : Memory) (at_ : Nat → Nat) (ps : List ImgPart) : Memory :=
  ps.foldl (fun m p => Memory.writeN m (at_ p.1) p.2.1 p.2.2) m

/-- A place that images are read from: a memory, and the key of each offset. -/
abbrev ImgSrc := Memory × (Nat → Nat)
/-- A number read from an image. -/
def readImg (src : ImgSrc) (o n : Nat) : Nat := Memory.readN src.1 (src.2 o) n
/-- An image in a frame lies in one piece. -/
def frameSrc (m : Memory) (pa : Nat) : ImgSrc := (m, fun o => pa + o)
/-- An image in the shadow stores. -/
def shadowSrc (m : Memory) (core slot div : Nat) : ImgSrc := (m, shadowKey core slot div)

/-! ### Save (R430, R435, R437) -/

/-- The strand has a plane command, or a follow-on, that a save waits for (R230). -/
def State.planeBusy (s : State) (t : Strand) : Bool :=
  ([0, 1, 2, 3] : List (Fin 8)).any (fun e =>
    ((t.fifo[e]).cmds.any Command.plane) || ((t.fifo[e]).running.any Command.plane)) ||
  s.cores.any fun c => c.2.followOn.any fun f => f.1 == t.sn

/-- Every access of the strand has been performed and every train acknowledged (R271). -/
def Strand.quiet (t : Strand) : Bool :=
  t.trains.isEmpty && t.remote.all fun r => decide (8 ≤ r.op) || r.answer.isSome

/-- The image is in a shadow store and no frame holds it. -/
def Strand.uncopied (t : Strand) : Bool := t.sched.image == 1 || t.sched.image == 3

/-- The core's region of the shadow store holds no image that has yet to be copied (R437). -/
def State.shadowFree (s : State) (core : Nat) : Bool := s.strands.all fun t => !(t.uncopied && t.sched.shadowAt.1 == core)

/-- What a core's region holds is overwritten: the images there that have been copied are in their frames only. -/
def State.regionTaken (s : State) (core : Nat) : State :=
  s.mapStrands fun t => if t.sched.shadowAt.1 = core ∧ t.uncopied = false then { t with sched := { t.sched with inShadow := false } } else t

/-- TSTAT of a strand (Table 26-7). -/
def Strand.tstat (t : Strand) : Word :=
  let r := t.trap
  BitVec.ofNat 64 ((if r.pm = .s then 1 else 0) + (if r.inHandler then 2 else 0) + (if r.pn then 4 else 0) +
    (if r.skip then 8 else 0) + t.pend.length % 64 * 256)

/-- SID of a strand (Table 2-12). -/
def State.sidOf (s : State) (t : Strand) : Word :=
  BitVec.ofNat 64 ((if t.mode = .s then 2 ^ 14 else 0) + t.core * 32 + (s.coreOf t.core).div * 8 + t.slot)

/-- The image of a strand in the shadow store. -/
def State.shadowOf (s : State) (t : Strand) : ImgSrc :=
  shadowSrc s.shadow t.sched.shadowAt.1 t.sched.shadowAt.2 ((t.sched.saved.map (·.1)).getD 0)

/-- The physical address of a partition's frame. -/
def State.framePa (s : State) (partn frame : Nat) : Nat :=
  fld (nth (SMap.getD s.saveArea partn []) 0 0) 51 20 * 2 ^ 20 + frame * 2 ^ 20

/-- The image is still in a shadow store that can be reached. -/
def State.stillShadow (s : State) (t : Strand) : Bool :=
  t.uncopied || (t.sched.inShadow && !s.dies[coreDie t.sched.shadowAt.1].cut)

/-- The place an image is read from: the shadow store while it is there, the frame otherwise (R438). -/
def State.imageSrc (s : State) (t : Strand) : ImgSrc :=
  if s.stillShadow t then s.shadowOf t else frameSrc s.mem (s.framePa t.partn t.sched.frame)

/-- The image that a save leaves in the shadow store: the record and the dirty parts are written; the clean ones are those of the
earlier image (R435, assumption log 64). -/
def State.savedImage (s : State) (t : Strand) (core slot : Nat) (own : Bool) : Memory :=
  let div := (s.coreOf core).div
  let at_ := shadowKey core slot div
  let w := s.dirtySet t core div slot own
  let src := s.imageSrc t
  let m := (slotRanges div slot own).foldl (fun m r => Memory.wipe m (at_ r.1) r.2) s.shadow
  let kept := (w.kept t div slot own).ranges fun r => t.tags.vlen[r]
  let m := if t.sched.saved.isNone then m
    else kept.foldl (fun m r => Memory.move m (at_ r.1) src.1 (src.2 r.1) r.2) m
  let m := putParts m at_ (recordParts t t.tstat div slot own ++ dataParts s t core div slot own w)
  (bulkParts core div slot w.lanes w.planes).foldl (fun m p => Memory.move m (at_ p.1) s.onchip p.2.1 p.2.2) m

/-- The tags of a core once a strand has been saved: its tiles, and an owner's planes, are clean (R435). -/
def Core.cleaned (k : Core) (slot : Nat) (own : Bool) : Core :=
  { k with tiles := (ownedTiles k.div slot).foldl (fun ts (i : Fin 4) => ts.set i { ts[i] with dirty := false }) k.tiles
           activeDirty := k.activeDirty && !own, shadowDirty := k.shadowDirty && !own }

/-- Save a seated strand: its image is written and it holds no seat; MXO and the planes of an owner are cleared (R44). Its
status is for the caller. -/
def State.saveStrand (s : State) (t : Strand) : State :=
  let core := t.core
  let slot := t.slot
  let s := if (s.coreOf core).owner = slot then s.settleSwap core else s
  let k := s.coreOf core
  let own := k.owner == slot
  let m := s.savedImage t core slot own
  let s := ((({ s with shadow := m }).mapCore core fun k => k.cleaned slot own).regionTaken core).unseat t
  s.setStrand { t with
    tags := { t.tags with vdirty := .replicate 48 false, laneDirty := [] }
    issue := none, scalarNext := false, lines := []
    sched := { t.sched with
      place := none, saved := some (k.div, slot, own), image := 1, shadowAt := (core, slot), inShadow := true,
      imageLanes := t.tags.laneValid, waited := 0, preemptAsked := false, preempting := false, quiesced := false } }

/-- The strand stands where a drain may end: the head of its queue has not started, unwinds, or stands at a group boundary with nothing
gathered or sent that it has yet to see through (R430, Table 27-1). -/
def State.atBoundary (s : State) (t : Strand) : Bool :=
  match t.vq with
  | [] => true
  | e :: _ => !elWord e.word || (t.ctl.vei.toNat % laneCount (s.coreOf t.core).div == 0 && e.trains.isEmpty && !e.sent)

/-- PREEMPTION: the strand has stopped at a boundary and its drain has ended (R430). -/
def execPreemption (sn : Nat) (s : State) : Out :=
  match s.strand? sn with
  | none => .next s
  | some t =>
    if t.seated && t.sched.preemptAsked && !t.sched.restoring && s.atBoundary t then
      .next (s.setStrand { t with sched := { t.sched with preempting := true } })
    else .next s

/-- PREEMPT_QUIESCE: its accesses have been performed, its trains acknowledged, its plane commands are done. -/
def execPreemptQuiesce (sn : Nat) (s : State) : Out :=
  match s.strand? sn with
  | none => .next s
  | some t =>
    if t.seated && t.sched.preempting && t.quiet && !s.planeBusy t then
      .next (s.setStrand { t with sched := { t.sched with quiesced := true } })
    else .next s

/-- A pre-empted strand is saved and becomes READY; with TSTAT.PN its notification is due (R364, R419). -/
def State.savePreempted (s : State) (t : Strand) : State :=
  let note := if t.trap.pn then some (s.sidOf t) else none
  let s := s.saveStrand t
  match s.strand? t.sn with
  | some u => s.ready { u with preemptNote := note }
  | none => s

/-- The physical function's oldest request is to suspend a partition: its cores are being halted, and their strands leave in the
exchange itself (R441). -/
def State.halting (s : State) (partn : Nat) : Bool :=
  match (s.fns[pf]).requests with
  | [] => false
  | q :: _ =>
    s.mailOpen pf q && fld (s.mailDw pf q 0) 15 0 == 4 && fld (s.mailDw pf q 1) 3 0 == partn

/-- SAVE: once the core's shadow region holds no image that has yet to be copied (R437). -/
def execSave (sn : Nat) (s : State) : Out :=
  match s.strand? sn with
  | none => .next s
  | some t =>
    if t.seated && t.sched.quiesced && s.shadowFree t.core && !s.halting t.partn then .next (s.savePreempted t) else .next s

/-! ### Parking (R361) -/

/-- The drain of a queue ends at an entry that waits on another party (R430). -/
def Strand.drainEnds (t : Strand) : Bool := t.vq.isEmpty || awaitsParty t.qwait

/-- PARK: the strand has waited for 256 cycles in a wait that parks and that is not over; it is saved, and is PARKED (assumption log 67). -/
def execPark (sn : Nat) (s : State) : Out :=
  match s.strand? sn with
  | none => .next s
  | some t =>
    let scalar := parks t.wait && !s.waitOver t t.wait
    let entry := !t.vq.isEmpty && parksEntry t.qwait && !s.waitOver t t.qwait
    if t.seated && !t.sched.preemptAsked && !t.sched.restoring && decide (256 ≤ t.sched.waited) && (scalar || entry) && t.drainEnds && t.quiet &&
        !s.planeBusy t && s.shadowFree t.core && !s.halting t.partn then
      let s := s.saveStrand t
      match s.strand? sn with
      | some u => .next (s.setStrand { u with sched := { u.sched with status := .parked } })
      | none => .next s
    else .next s

/-! ### Copying to the frame (R436, R437) -/

/-- The ranges of an image that hold its parts, as its record and the lanes of the save tell. -/
def imageRanges (rd : Nat → Nat → Nat) (lanes : List Nat) : List (Nat × Nat) :=
  let st := rd 8 8
  let div := bits st 14 13
  let slot := bits st 16 15
  let own := bits st 17 17 == 1
  (0, 2048) ::
  ({ regs := List.finRange 48, lanes := lanes.filter fun j => decide (j < laneCount div), tiles := ownedTiles div slot, block := true,
     planes := if own then [0, 1] else [] } : ImgSet).ranges fun r => min (rd (704 + r.val) 1) 128

/-- The home dies of n bytes of a frame are not cut off. -/
def State.homesOn (s : State) (pa n : Nat) : Bool :=
  (upTo ((pa + n - 1) / 4096 - pa / 4096 + 1)).all fun i => !s.dies[coreDie (homeDie ((pa / 4096 + i) * 4096) * 128)].cut

/-- A copy of n bytes to a frame can be made: reachable, and no uncorrectable line covered only in part. -/
def State.frameOk (s : State) (pa n : Nat) : Bool :=
  n == 0 || (s.homesOn pa n && (upTo ((pa + n - 1) / 64 - pa / 64 + 1)).all fun i =>
    let line := pa / 64 + i
    !s.badLines.contains line || (decide (pa ≤ line * 64) && decide (line * 64 + 64 ≤ pa + n)))

/-- Copy n bytes of a shadow store to a frame: a line covered in full is correct from then on. -/
def State.putFrame (s : State) (pa base n : Nat) : State :=
  { s with mem := Memory.move s.mem pa s.shadow base n,
           badLines := s.badLines.filter fun l => !(decide (pa ≤ l * 64) && decide (l * 64 + 64 ≤ pa + n)) }

/-- Copy an image from its shadow region to a frame. -/
def State.copyImage (s : State) (t : Strand) : State :=
  let src := s.shadowOf t
  let pa := s.framePa t.partn t.sched.frame
  (imageRanges (readImg src) t.sched.imageLanes).foldl (fun s r => s.putFrame (pa + r.1) (src.2 r.1) r.2) s

/-- A frame of the partition that no live strand holds. -/
def State.otherFrame (s : State) (t : Strand) : Option Nat :=
  (upTo (fld (nth (SMap.getD s.saveArea t.partn []) 1 0) 15 0)).find? fun n =>
    !(s.strands.any fun u => u.live && u.partn == t.partn && u.sched.frame == n)

/-- IMAGE_COPY: the copy succeeds; or it fails, and the image is to be copied to another free frame; or that fails too, or
there is none, and the strand ends. A management event is sent in each case. -/
def execImageCopy (sn : Nat) (ok : Bool) (s : State) : Out :=
  match s.strand? sn with
  | none => .next s
  | some t =>
    if t.live && t.uncopied && !s.dies[coreDie t.sched.shadowAt.1].cut then
      let rs := imageRanges (readImg (s.shadowOf t)) t.sched.imageLanes
      let pa := s.framePa t.partn t.sched.frame
      if ok && rs.all fun r => s.frameOk (pa + r.1) r.2 then
        .next ((s.copyImage t).setStrand { t with sched := { t.sched with image := 2 } })
      else
        let badLine := rs.all (fun r => r.2 == 0 || s.homesOn (pa + r.1) r.2) && rs.any fun r => !s.frameOk (pa + r.1) r.2
        let s := (if badLine then s.setRrs 4 else s).manage (some t.partn) pa
        match (if t.sched.image = 1 then s.otherFrame t else none) with
        | some n => .next (s.setStrand { t with sched := { t.sched with image := 3, frame := n } })
        | none => .next (s.fail t cMEMERR (BitVec.ofNat 64 pa))
    else .next s

/-! ### Restore (R438, R439) -/

/-- A queue entry as its image and the control die hold it (Table 27-3, R431), with the FXR records it has merged; no restart
element applies (R372), and on another die the lines that it touched on the old one count anew (R253). -/
def decodeEntry (rd : Nat → Nat → Nat) (o : Nat) (old : Option VEntry) (fxr : BitVec 48) (moved : Bool) : VEntry :=
  let begun := (old.map (·.begun)).getD false
  let d0 := rd o 8
  let d4 := rd (o + 32) 8
  let b : Word := BitVec.ofNat 64 (rd (o + 24) 8)
  { word := BitVec.ofNat 32 d0, pc := BitVec.ofNat 64 (rd (o + 8) 8), opA := BitVec.ofNat 64 (rd (o + 16) 8),
    opAGrade := BitVec.ofNat 16 (bits d4 57 42), opB := b, vl := min (bits d0 47 40) 128, vms := bits d0 51 48, vstr := b,
    gth := bits d0 57 52, fcr := BitVec.ofNat 10 (bits d4 41 32),
    srs := if bits d0 39 39 = 1 then some (BitVec.ofNat 32 d4) else none,
    rpl := (old.map (·.rpl)).getD false, again := (old.map (·.again)).getD false, sent := (old.map (·.sent)).getD false,
    restart := none, lines := if moved then [] else (old.map (·.lines)).getD [], begun,
    start := if begun then bits d0 38 32 else 0, fxr, pos := (old.map (·.pos)).getD 0,
    trains := (old.map (·.trains)).getD [], note := old.bind (·.note) }

/-- The registers of an image. -/
def decodeRegs (rd : Nat → Nat → Nat) : Regs :=
  { g := Vector.ofFn fun i => if i.val = 0 then 0 else BitVec.ofNat 64 (rd (8 + 8 * i.val) 8)
    f := Vector.ofFn fun i => { val := BitVec.ofNat 64 (rd (264 + 8 * i.val) 8), grade := BitVec.ofNat 16 (rd (392 + 2 * i.val) 2) }
    v := Vector.ofFn fun r => Vector.ofFn fun e =>
      if e.val < rd (704 + r.val) 1 then
        { val := BitVec.ofNat 64 (rd (4096 + 1280 * r.val + 8 * e.val) 8),
          grade := BitVec.ofNat 16 (rd (5120 + 1280 * r.val + 2 * e.val) 2) }
      else Elem.init
    m := Vector.ofFn fun i => BitVec.ofNat 128 (rd (512 + 16 * i.val) 16) }

/-- The control registers of an image. -/
def decodeCtl (rd : Nat → Nat → Nat) : Ctl :=
  let x := rd 424 8
  { vl := min (bits x 7 0) 128, vms := BitVec.ofNat 4 (bits x 11 8), vstr := BitVec.ofNat 64 (rd 432 8),
    vei := BitVec.ofNat 7 (bits x 18 12), gth := BitVec.ofNat 6 (bits x 24 19), fcr := BitVec.ofNat 10 (bits x 34 25),
    fflags := BitVec.ofNat 6 (bits x 40 35), fxr := BitVec.ofNat 48 (rd 440 8), srs := BitVec.ofNat 32 (rd 448 8) }

/-- The trap registers of an image (assumption log 68). -/
def decodeTrap (rd : Nat → Nat → Nat) : TrapRegs :=
  let x := rd 504 8
  { tvec := BitVec.ofNat 64 (rd 456 8) &&& 0x7FFFFFFFFFFFFC, tpc := BitVec.ofNat 64 (rd 464 8), tval := BitVec.ofNat 64 (rd 472 8),
    tres := BitVec.ofNat 64 (rd 480 8), tscr0 := BitVec.ofNat 64 (rd 488 8), tscr1 := BitVec.ofNat 64 (rd 496 8),
    tcause := BitVec.ofNat 8 (bits x 7 0) &&& 0xBF, telem := BitVec.ofNat 7 (bits x 14 8), tqpos := BitVec.ofNat 6 (bits x 20 15),
    pm := if bits x 21 21 = 1 then .s else .p, inHandler := bits x 22 22 == 1, pn := bits x 23 23 == 1, skip := bits x 24 24 == 1 }

/-- The strand as its image gives it; what never leaves the control die stands as it was (R431). -/
def decodeStrand (t : Strand) (rd : Nat → Nat → Nat) : Strand :=
  let st := rd 8 8
  let moved := match t.sched.place with
    | some (c, _) => coreDie c != coreDie t.sched.shadowAt.1
    | none => false
  let pq := min (bits st 12 7) 32
  let qn := min (bits st 6 1) 32
  { t with
    pc := BitVec.ofNat 64 (rd 0 8), mode := if bits st 0 0 = 1 then .s else .p
    regs := decodeRegs rd, ctl := decodeCtl rd, trap := decodeTrap rd
    pend := (upTo pq).map fun i => decodeEntry rd (768 + 40 * i) t.pend[i]? (((t.pend[i]?).map (·.fxr)).getD 0) moved
    vq := (upTo (qn - pq)).map fun i => decodeEntry rd (768 + 40 * (pq + i)) t.vq[i]?
      (if i = 1 ∨ i = 2 then BitVec.ofNat 48 (rd (744 + 8 * i) 8) else 0) moved
    restartPc := none, hold := [], tailRead := none
    waitDone := t.waitDone || t.wait == .wakeOrResult
    tags := { vlen := Vector.ofFn fun i => min (rd (704 + i.val) 1) 128, vdirty := .replicate 48 false, laneDirty := [],
              laneValid := t.sched.imageLanes }
    sched := { t.sched with restoring := false } }

/-- A plane tag of an image. -/
def decodeTag (rd : Nat → Nat → Nat) (o so : Nat) : PlaneTag :=
  let x := rd o 8
  { valid := bits x 0 0 == 1, fmt := bits x 3 1, n := bits x 10 4, sw := Vector.ofFn fun i => BitVec.ofNat 16 (rd (so + 2 * i.val) 2) }

/-- A tile of an image. -/
def State.putTile (s : State) (core : Nat) (rd : Nat → Nat → Nat) (t : Fin 4) : State :=
  let o := 2328 + 328 * t.val
  let kind := bits (rd o 8) 1 0
  let rho := bits (rd o 8) 7 2
  let h := kindRows kind
  let b := rowBytes kind
  let m := Memory.wipe s.onchip (tileKey core t.val 0) tileBytes
  let m := (upTo h).foldl (fun m i =>
    Memory.writeN m (tileKey core t.val (i * b)) b (rd (327680 + tileBytes * t.val + (i + rho) % h * b) b)) m
  let z : Tile :=
    { kind, rho, rowGrade := Vector.ofFn fun i => rd (o + 8 + i.val) 1,
      rmax := Vector.ofFn fun i => BitVec.ofNat 32 (rd (o + 72 + 4 * i.val) 4), dirty := false }
  ({ s with onchip := m }).mapCore core fun k => { k with tiles := k.tiles.set t z }

/-- The core's storage as the image of a strand gives it: lane slices, tiles, and for the owner MXO, SKF and the planes. -/
def State.putCore (s : State) (core slot : Nat) (lanes : List Nat) (src : ImgSrc) : State :=
  let rd := readImg src
  let own := bits (rd 8 8) 17 17 == 1
  let div := (s.coreOf core).div
  let n := laneCount div
  let m := Memory.wipe s.onchip (laneKey core (slot * n) 0) (4096 * n)
  let m := (bulkParts core div slot lanes (if own then [0, 1] else [])).foldl (fun m p => Memory.move m p.2.1 src.1 (src.2 p.1) p.2.2) m
  let s := (ownedTiles div slot).foldl (fun s t => s.putTile core rd t) { s with onchip := m }
  if own then
    let skf := bits (rd 2048 8) 0 0 == 1
    s.mapCore core fun k =>
      { k with owner := slot, granted := false, skf := skf, activeDirty := false, shadowDirty := false,
               active := decodeTag rd 2056 2072, shadow := decodeTag rd 2064 2200 }
  else s

/-- A fault of the read of an image in its frame: a home cut off, or an uncorrectable line. -/
def State.frameFault (s : State) (t : Strand) : Option Nat :=
  let pa := s.framePa t.partn t.sched.frame
  let rs := (imageRanges (readImg (frameSrc s.mem pa)) t.sched.imageLanes).filter fun r => r.2 != 0
  if rs.any fun r => !s.homesOn (pa + r.1) r.2 then some cLINK
  else if rs.any fun r => !s.lineOk (pa + r.1) r.2 then some cMEMERR
  else none

/-- A fault of the read of an image where a restore reads it. -/
def State.imageFault (s : State) (t : Strand) : Option Nat := if s.stillShadow t then none else s.frameFault t

/-- The read of an image in its frame fails: the strand ends as in R437. -/
def State.frameFails (s : State) (t : Strand) (c : Nat) : State :=
  let pa := s.framePa t.partn t.sched.frame
  let s := if c = cMEMERR then s.setRrs 4 else s
  (s.manage (some t.partn) pa).fail t c (BitVec.ofNat 64 pa)

/-- Restore the strand that holds a seat: from its image, with a fence of domain scope and a `tl.acq` (R271). -/
def State.restoreStrand (s : State) (t : Strand) : State :=
  match s.imageFault t with
  | some c => s.frameFails t c
  | none =>
    let src := s.imageSrc t
    let s := s.putCore t.core t.slot t.sched.imageLanes src
    let u := decodeStrand t (readImg src)
    s.setStrand { u with viewTail := (s.dies[coreDie t.core]).tail }

/-- RESTORE: the image of a strand that was given a seat. -/
def execRestore (sn : Nat) (s : State) : Out :=
  match s.strand? sn with
  | none => .next s
  | some t => if t.seated && t.sched.restoring then .next (s.restoreStrand t) else .next s

/-- TRAP_ENTRY: PREEMPT, before the next scalar instruction of a strand resumed from pre-emption (R417, R419). -/
def execTrapEntry (sn : Nat) (s : State) : Out :=
  match s.strand? sn with
  | none => .next s
  | some _ =>
    let s' := s.switchTo sn
    match s'.nextOf, s'.st.preemptNote with
    | .notify, some sid => .next (s'.takeTrap { code := cPREEMPT, val := sid, elem := 0 } (.scalar s'.st.pc none))
    | _, _ => .next s

/-! ### The save engine (R440) -/

def saveEngine (die : Nat) : EngineUnit := { sel := 7, die := coreDie (die * 128), sect := none }

/-- SPEC and doublewords from the n-th on are zero. -/
def restZero (c : Command) (n : Nat) : Bool := c.spec == 0 && (c.dw.drop n).all fun x => x == 0

/-- FLUSH completes once no image of the partition stands in the die's shadow store only. -/
def flushBody (die : DieNo) (t : Strand) (c : Command) (_a : Agent) : M Progress := do
  cmdRule c (restZero c 1)
  if (← get).strands.any fun u => u.live && u.partn == t.partn && u.uncopied && coreDie u.sched.shadowAt.1 == die then waitFor .host
  else pure doneEmpty

/-- FLUSH (assumption log 77). -/
def execFlush (die : Nat) (s : State) : Out :=
  runEngine s (saveEngine die) (fun c => c.code == 1) (flushBody (coreDie (die * 128)))

/-- A strand's state in the order of Table 22-1, and the place of its image. -/
def queryWord (u : Strand) : Nat :=
  (match u.sched.status with | .ready => 0 | .seated => 1 | .parked => 2 | .retired => 3 | .ended => 4) +
  (if u.uncopied then 1 else u.sched.image) * 16

/-- QUERY writes the state of a strand of the pusher's partition. -/
def queryBody (t : Strand) (c : Command) (a : Agent) : M Progress := do
  cmdRule c (restZero c 3 && fld (c.w 1) 63 16 == 0 && addrOk (c.w 2) && fld (c.w 2) 2 0 == 0)
  match (← get).strand? (fld (c.w 1) 15 0) with
  | none => failWith 0x10 c.addr
  | some u =>
    if u.partn = t.partn then
      agentWrite a (c.w 2).toNat 8 (queryWord u) .int
      return .done { addr := (c.w 2).toNat, len := 8, flags := 0 }
    else failWith 0x10 c.addr

/-- QUERY; a command code that names nothing answers BADCMD with it. -/
def execQuery (die : Nat) (s : State) : Out :=
  runEngine s (saveEngine die) (fun c => c.code != 1) fun t c a => do
    cmdRule c (c.code == 2)
    queryBody t c a

end Sys2Proof.Machine
end

