-- ==== Sys2Proof/Machine/Ras.lean ====
section
/-!
DEFINITION. Power, heat, links, memory lines and base-die cores (R27, R447–R453, R466): what the control die does about a part
that is hot, broken or worn.
-/

namespace Sys2Proof.Machine

open Sys2Proof

/-! ### Power and heat (R27, R466) -/

/-- A sample joins those of the last 100 ms. An excursion above 3.6 kW counts its samples while it lasts, and once it is over the
next is allowed when the running mean has been below 3.6 kW (R27). -/
def Power.sample (p : Power) (watts : Nat) : Power :=
  let samples := (watts :: p.samples).take 100000
  let below := decide (samples.foldl (· + ·) 0 < 3600 * samples.length)
  if 3600 < watts then { samples, excursion := p.excursion + 1, armed := p.armed }
  else { samples, excursion := 0, armed := below || (p.armed && p.excursion == 0) }

/-- A limit of R27 asks for holds: 4.2 kW, an excursion that is not allowed or has lasted 10 ms, or a mean above 3.6 kW. -/
def Power.over_ (p : Power) : Bool :=
  decide (4200 < p.samples.headD 0) || (decide (0 < p.excursion) && (!p.armed || decide (10000 < p.excursion))) ||
  decide (3600 * p.samples.length < p.samples.foldl (· + ·) 0)

/-- POWER_SAMPLE: while a limit asks for it the control die holds the matrix and the vector issue of the cores it names, of all where
it names none, and otherwise it releases every core (assumption log 40). -/
def execPowerSample (watts : Nat) (mx vec : List Nat) (s : State) : Out :=
  let p := s.power.sample watts
  let s := { s with power := p }
  let all := mx.isEmpty && vec.isEmpty
  let hold := fun (named : List Nat) (c : Nat) => p.over_ && (all || named.contains c)
  .next ((upTo 512).foldl (fun s c =>
    let k := s.coreOf c
    if k.holdMx = hold mx c ∧ k.holdVec = hold vec c then s
    else s.mapCore c fun k => { k with holdMx := hold mx c, holdVec := hold vec c }) s)

/-- THERMAL_STOP: a junction at 110 degrees stops all issue of the die, with a kind 5 event. -/
def execThermalStop (die : Nat) (s : State) : Out :=
  let d := coreDie (die * 128)
  .next (if (s.dies[d]).hot then s else (s.mapDie d fun x => { x with hot := true }).manage none die)

/-- JUNCTION_COOLED: below 100 degrees, issue goes on. -/
def execJunctionCooled (die : Nat) (s : State) : Out :=
  .next (s.mapDie (coreDie (die * 128)) fun x => { x with hot := false })

/-! ### Links (R447–R449) -/

/-- LINK_FAILURE: the control die declares the failure of a link. -/
def execLinkFailure (link : Nat) (s : State) : Out := .next (if link < 10 then s.setRrs (2 ^ (32 + link)) else s)

/-- The die that the failure of a link cuts off: the compute die of a control-die link, the higher-numbered of two. -/
def cutBy (link : Nat) : Nat := if 6 ≤ link then link - 6 else nth [1, 2, 3, 2, 3, 3] link 0

/-- The strand is seated on a die, or its image lies only in that die's shadow store, of which a strand that has a seat elsewhere may
not have read it yet (R448). -/
def Strand.onDie (t : Strand) (d : DieNo) : Bool :=
  let shadowed := t.uncopied && coreDie t.sched.shadowAt.1 == d
  t.live && match t.sched.place with
    | some (c, _) => coreDie c == d || (t.sched.restoring && shadowed)
    | none => shadowed

/-- A unit lies wholly on a die. -/
def unitOnDie (code unit : Nat) (d : DieNo) : Bool :=
  if code ≤ 1 then unit / 128 == d.val else if code = 2 then unit / 8 == d.val else if code = 3 then unit == d.val else false

/-- A house holds a live strand that is not on that die of that package. -/
def Launch.liveOff (l : Launch) (pkg : Nat) (d : DieNo) (h : Nat) : Bool :=
  (l.liveLeaves h).any fun i =>
    let u := l.unitOf i
    nth l.pkgs (((l.insts[i]?).map (·.pkg)).getD 0) 0 != pkg || !unitOnDie u.1 u.2 d

/-- The lowest house at or above an instance with a live strand on another die; the root when there is none (assumption log 69). -/
def Launch.linkHouse (l : Launch) (pkg : Nat) (d : DieNo) : Nat → Nat → Nat
  | 0, _ => 0
  | n + 1, h => if l.liveOff pkg d h then h else match (l.insts[h]?).bind (·.parent) with
    | some p => l.linkHouse pkg d n p
    | none => h

/-- End a strand of the die that is cut off. -/
def State.endCut (s : State) (t : Strand) : State :=
  let s := ((s.unseat t).leaveAll t.sn 2).setStrand (t.close .ended)
  (s.mapLaunch t.sched.lid fun l => l.mapInst t.sched.inst fun x => { x with status := .ended }).superTrap t

/-- Houses in the order in which the binder takes faults raised together (R359): record, then instance. -/
def Launch.houseBefore (l : Launch) (a b : Nat) : Bool :=
  let key := fun (i : Nat) => ((l.insts[i]?).map fun x => (x.record, x.number)).getD (0, 0)
  decide ((key a).1 < (key b).1) || ((key a).1 == (key b).1 && decide ((key a).2 ≤ (key b).2))
def Launch.insertHouse (l : Launch) : List Nat → Nat → List Nat
  | [], h => [h]
  | x :: r, h => if x = h then x :: r else if l.houseBefore h x then h :: x :: r else x :: l.insertHouse r h

/-- The LINK house faults of a launch for the instances whose strands were ended with a die of a package, with what claims were
unfinished. -/
def Launch.raiseLink (l : Launch) (pkg : Nat) (d : DieNo) (gone : List (Nat × List Claim)) : Launch :=
  let house := fun (i : Nat) => l.linkHouse pkg d 16 i
  let at_ := fun (h : Nat) => gone.filter fun x => house x.1 == h
  let hs := (gone.map fun x => house x.1).foldl l.insertHouse []
  { l with faults := l.faults ++ hs.map fun h =>
      ({ inst := h, event := 2, child := if l.levelOf h = 0 then some h else none, mid := 0, cause := 0, val := 0,
         ranges := ((at_ h).map (·.2)).flatten, gone := (at_ h).map (·.1) } : HouseFault) }

/-- The strands of a die that is cut off are ended, and the LINK house faults of their launches raised (R448), by the package that
launched each. -/
def State.endOnDie (s : State) (d : DieNo) : State :=
  let gone := s.numbered.filter fun t => t.onDie d
  let s := gone.foldl State.endCut s
  (s.launches.foldl (fun s l =>
    let mine := (gone.filter fun t => t.sched.lid == l.lid).map fun t => (t.sched.inst, t.claims)
    if l.live = false ∨ mine = [] then s
    else match l.origin with
      | some home => s.tell (.cutOff home (l.lid % 2 ^ 32) mine)
      | none => s.mapLaunch l.lid fun l => l.raiseLink s.handle.toNat d mine) s).pruneStreams

/-- DIE_CUTOFF: a failed link names the die; DIEOK becomes 0, RRS and the host are told, its strands end. -/
def execDieCutoff (die : Nat) (s : State) : Out :=
  let d := coreDie (die * 128)
  if (s.dies[d]).cut || !((upTo 10).any fun n => fbit s.rrs (32 + n) && cutBy n == d.val) then .next s
  else
    let s := { s with diecfg := s.diecfg.set d (s.diecfg[d] &&& ~~~ (BitVec.ofNat 64 (2 ^ 54))) }
    let s := s.mapDie d fun x => { x with cut := true }
    .next (((s.setRrs (2 ^ (28 + d.val))).manage none d.val).endOnDie d)

/-! ### Scrub (R450, R451) -/

/-- A stack or a controller serves the line, on a die that is not cut off (R247, R447). -/
def State.scrubbable (s : State) (l : Nat) : Bool :=
  (s.server (l * 64)).isSome && !s.dies[coreDie (homeDie (l * 64) * 128)].cut

/-- One pass over lines: an uncorrectable one is left and reported. -/
def State.scrubLines (s : State) (first count : Nat) : State :=
  (s.badLines.filter fun l => decide (first ≤ l) && decide (l < first + count) && s.scrubbable l).foldl (fun s l => (s.setRrs 4).manage none (l * 64)) s

def stackIx (k : Nat) : Fin 3 := ⟨k % 3, Nat.mod_lt _ (by decide)⟩
def State.mapStack (s : State) (d : DieNo) (k : Fin 3) (f : Stack → Stack) : State :=
  s.mapDie d fun x => { x with hbm := x.hbm.set k (f x.hbm[k]) }
def State.stack (s : State) (d : DieNo) (k : Fin 3) : Stack := (s.dies[d]).hbm[k]
/-- The place of a stack in RRS.CORE and RRS.REPX. -/
def stackBit (d : DieNo) (k : Fin 3) : Nat := 3 * d.val + k.val

/-- One pass over those of some lines that a stack or a controller of a die serves (R247). -/
def State.scrubServed (s : State) (d : DieNo) (v : Server) (first count : Nat) : State :=
  (s.badLines.filter fun l => decide (first ≤ l) && decide (l < first + count) && coreDie (homeDie (l * 64) * 128) == d &&
    s.server (l * 64) == some v).foldl (fun s l => (s.setRrs 4).manage none (l * 64)) s

/-- SCRUB_PASS: by hardware, over lines of stack 0 to 2, which the stack's base-die core drives, and a row it repairs may be the last
it can; or of capacity-tier controller `stk` - 3 (assumption log 71). -/
def execScrubPass (die stk first count : Nat) (worn : Bool) (s : State) : Out :=
  let d := coreDie (die * 128)
  if s.act.getLsbD 6 || (s.dies[d]).cut then .next s
  else if 3 ≤ stk then .next (s.scrubServed d (.controller (stk - 3)) first count)
  else
    let k := stackIx stk
    if (s.stack d k).failed then .next s
    else
      let s := s.scrubServed d (.stack k.val) first count
      .next (if worn then s.setRrs (2 ^ (4 + stackBit d k)) else s)

/-! ### Base-die cores and refresh (R452) -/

/-- HEARTBEAT: a base-die core that works writes its heartbeat. -/
def execHeartbeat (die stk : Nat) (s : State) : Out :=
  let d := coreDie (die * 128)
  .next (if (s.stack d (stackIx stk)).failed then s else s.mapStack d (stackIx stk) fun k => { k with beats := k.beats + 1 })

/-- BASE_DIE_CORE_FAILED: DUTY.REFR, the replacement request, a management event. -/
def execBaseDieCoreFailed (die stk : Nat) (s : State) : Out :=
  let d := coreDie (die * 128)
  let k := stackIx stk
  if (s.stack d k).failed then .next s
  else
    let s := s.mapStack d k fun x => { x with failed := true }
    let s := { s with duty := s.duty ||| 0x20 }
    .next ((s.setRrs (2 ^ (16 + stackBit d k))).manage none (stackBit d k))

/-- The rate the control die gives by temperature, and the hold of the cores (Table 28-3) (assumption log 70). -/
def Stack.drive (k : Stack) : Stack :=
  { k with given := if k.temp < 85 then 1 else if k.temp < 95 then 2 else 4,
           hold := if 95 ≤ k.temp then true else if k.temp < 92 then false else k.hold }

/-- REFRESH_TAKEOVER: the control die drives the stack, and ACT.REFR is set. -/
def execRefreshTakeover (die stk : Nat) (s : State) : Out :=
  let d := coreDie (die * 128)
  let k := stackIx stk
  if (s.stack d k).failed && !(s.stack d k).taken then
    .next ({ s with act := s.act ||| 0x20 }.mapStack d k fun x => { x with taken := true }.drive)
  else .next s

/-- REFRESH_DOUBLE: the stack reads a temperature: its sequencer doubles by itself from 85 degrees to below 82, and the control
die, where it has taken over, gives the rate of Table 28-3. -/
def execRefreshDouble (die stk temp : Nat) (s : State) : Out :=
  .next (s.mapStack (coreDie (die * 128)) (stackIx stk) fun x =>
    let x := { x with temp, doubled := if 85 ≤ temp then true else if temp < 82 then false else x.doubled }
    if x.taken then x.drive else x)

/-- HOST_REFRESH_SETTING: with DUTY.REFR in force, the host sets the rate of a stack that the control die does not drive. -/
def execHostRefreshSetting (die stk rate : Nat) (s : State) : Out :=
  let d := coreDie (die * 128)
  let k := stackIx stk
  .next (if s.act.getLsbD 5 && !(s.stack d k).taken then s.mapStack d k fun x => { x with given := rate } else s)

/-- The rate in force: the greater of the doubled rate and the given one. -/
def Stack.rate (k : Stack) : Nat := if k.doubled then max 2 k.given else k.given

/-- CAPACITY_TIER_CONTROLLER_FAILED (R453). -/
def execCapacityTierControllerFailed (die ctl : Nat) (s : State) : Out :=
  .next ((s.setRrs 8).manage none (4 * (die % 4) + ctl % 4))

end Sys2Proof.Machine
end

