-- ==== Sys2Proof/Machine/Sys.lean ====
section
/-!
DEFINITION. Control, system and counter registers, and the system instructions (R35–R37, R109, R110, R251, R253,
R405, R415–R429).
-/

namespace Sys2Proof.Machine

open Sys2Proof

/-! ### Control registers (Table 2-2) -/

/-- SID (Table 2-12). -/
def State.sid (s : State) : Word :=
  BitVec.ofNat 64 ((if s.st.mode = .s then 2 ^ 14 else 0) + s.st.core * 32 + s.myCore.div * 8 + s.st.slot)
/-- MXO (Table 2-13). -/
def State.mxo (s : State) : Word := BitVec.ofNat 64 (s.myCore.owner % 4 + if s.myCore.granted then 4 else 0)

/-- A control register as it reads. -/
def State.creg (s : State) (r : CReg) : Word :=
  let c := s.st.ctl
  match r with
  | .vl => BitVec.ofNat 64 c.vl
  | .vms => c.vms.setWidth 64
  | .vstr => c.vstr
  | .vei => c.vei.setWidth 64
  | .gth => c.gth.setWidth 64
  | .fcr => c.fcr.setWidth 64
  | .fflags => c.fflags.setWidth 64
  | .fxr => c.fxr.setWidth 64
  | .srs => c.srs.setWidth 64
  | .sid => s.sid
  | .mxo => s.mxo

/-- A control register written under the field fates of R36; VL has been checked. -/
def State.setCreg (s : State) (r : CReg) (x : Word) : State :=
  match r with
  | .vl => s.mapCtl fun c => { c with vl := x.toNat }
  | .vms => s.mapCtl fun c => { c with vms := x.setWidth 4 }
  | .vstr => s.mapCtl fun c => { c with vstr := x }
  | .vei => s.mapCtl fun c => { c with vei := x.setWidth 7 }
  | .gth => s.mapCtl fun c => { c with gth := x.setWidth 6 }
  | .fcr => s.mapCtl fun c => { c with fcr := x.setWidth 10 }
  | .fflags => s.mapCtl fun c => { c with fflags := x.setWidth 6 }
  | .fxr => s.mapCtl fun c => { c with fxr := x.setWidth 48 }
  | .srs => s.mapCtl fun c => { c with srs := if x.setWidth 32 = 0#32 then 1 else x.setWidth 32 }
  | .sid => s
  | .mxo => s.mapCore s.st.core fun c => { c with owner := x.toNat % 4 }

/-- Registers that the queue's entries write: their accesses wait (R40, R109). -/
def cregQueued : CReg → Bool
  | .vei | .fflags | .fxr | .srs => true
  | _ => false

def execCrd (d : GReg) (r : CReg) (s : State) : Out :=
  runScalar s (do
    hazard [d] []
    if cregQueued r then drained
    modify fun s => s.setG d (s.creg r))

def execCwr (a : GReg) (r : CReg) (s : State) : Out :=
  runScalar s (do
    if r = .vei ∨ r = .mxo then needS
    hazard [a] []
    if cregQueued r then drained
    let x := (← get).g a
    if r = .vl ∧ 128 < x.toNat then raise cILL x 0
    else modify fun s => s.setCreg r x)

/-! ### System registers (Table 26-2) -/

/-- TSTAT (Table 26-7): PQ is the number of pending entries. -/
def State.tstat (s : State) : Word :=
  let r := s.st.trap
  BitVec.ofNat 64 ((if r.pm = .s then 1 else 0) + (if r.inHandler then 2 else 0) + (if r.pn then 4 else 0) +
    (if r.skip then 8 else 0) + s.st.pend.length % 64 * 256)

def State.sreg (s : State) (r : SReg) : Word :=
  let t := s.st.trap
  match r with
  | .tvec => t.tvec
  | .tpc => t.tpc
  | .tcause => t.tcause.setWidth 64
  | .tval => t.tval
  | .telem => t.telem.setWidth 64
  | .tqpos => t.tqpos.setWidth 64
  | .tstat => s.tstat
  | .tres => t.tres
  | .tscr0 => t.tscr0
  | .tscr1 => t.tscr1
  | .diecfg d => s.diecfg[d]
  | .hbmsplit => s.share.setWidth 64
  | .duty => BitVec.ofNat 64 (s.duty.toNat + s.act.toNat * 256)

/-- BASE of TVEC and of HVEC (Tables 25-2, 26-3). -/
def vecBase (x : Word) : Word := x &&& 0x7FFFFFFFFFFFFC

def TrapRegs.set (t : TrapRegs) (r : SReg) (x : Word) : TrapRegs :=
  match r with
  | .tvec => { t with tvec := vecBase x }
  | .tpc => { t with tpc := x }
  | .tcause => { t with tcause := (x &&& 0xBF).setWidth 8 }
  | .tval => { t with tval := x }
  | .telem => { t with telem := x.setWidth 7 }
  | .tqpos => { t with tqpos := x.setWidth 6 }
  | .tstat => { t with pm := if fbit x 0 then .s else .p, inHandler := fbit x 1, pn := fbit x 2, skip := fbit x 3 }
  | .tres => { t with tres := x }
  | .tscr0 => { t with tscr0 := x }
  | .tscr1 => { t with tscr1 := x }
  | .diecfg _ | .hbmsplit | .duty => t

def execSrd (d : GReg) (r : SReg) (s : State) : Out :=
  runScalar s (do
    needS
    hazard [d] []
    modify fun s => s.setG d (s.sreg r))

def execSwr (a : GReg) (r : SReg) (s : State) : Out :=
  runScalar s (do
    needS
    hazard [a] []
    modify fun s => { s with st := { s.st with trap := s.st.trap.set r (s.g a) } })

/-! ### Counters (Table 13-6) -/

inductive Scope | die | sect | core
  deriving DecidableEq, Repr
def counterScope : Counter → Scope
  | .cyc | .reql | .reqr | .reqf | .reqe | .hopw => .die
  | .bconf | .bmiss => .sect
  | .hints | .hintu | .pwrhold | .tlbm => .core

/-- The count of a counter; one of a disabled die or section reads 0. -/
def State.counter (s : State) (c : Counter) (i : Nat) : Word :=
  let d := s.dies[coreDie (i * 128)]
  let dieOn := dieOk s.diecfg[coreDie (i * 128)]
  let x := s.sects[coreSect (i * 16)]
  match c with
  | .cyc => if dieOn then d.cyc else 0
  | .reql => if dieOn then d.reql else 0
  | .reqr => if dieOn then d.reqr else 0
  | .reqf => if dieOn then d.reqf else 0
  | .reqe => if dieOn then d.reqe else 0
  | .hopw => if dieOn then d.hopw else 0
  | .bconf => if s.sectOn i then x.bconf else 0
  | .bmiss => if s.sectOn i then x.bmiss else 0
  | .hints => s.myCore.hints
  | .hintu => s.myCore.hintu
  | .pwrhold => s.myCore.pwrhold
  | .tlbm => s.myCore.tlbm

/-- Mode P may name a die or section of its partition only (R251); a bit of SECT for a disabled section is ignored (Table 25-1). -/
def State.counterOpen (s : State) (sc : Scope) (i : Nat) : Bool :=
  let p := s.part s.st.partn
  match sc with
  | .die => (upTo 8).any fun k => partSect p (8 * i + k) && s.sectOn (8 * i + k)
  | .sect => partSect p i && s.sectOn i
  | .core => true

def execCntRd (d : GReg) (c : Counter) (i : BitVec 6) (s : State) : Out :=
  runScalar s (do
    let sc := counterScope c
    let n := match sc with | .die => 4 | .sect => 32 | .core => 1
    if n ≤ i.toNat then raiseIr cILL
    hazard [d] []
    let s ← get
    if s.st.mode = .p ∧ s.counterOpen sc i.toNat = false then raiseIr cPRIV
    else set (s.setG d (s.counter c i.toNat)))

/-! ### Traps and their return (R417, R420–R425) -/

/-- `sys` raises SYSCALL, naming the next instruction. -/
def execSys (s : State) : Out := runScalar s (throw (.trap { code := cSYSCALL, val := 0, elem := 0, nextPc := true }))

def execBrk (s : State) : Out := runScalar s (raise cBRK 0 0)

/-- `trap` ends the strand (R425). -/
def execTrap (a : GReg) (s : State) : Out :=
  runScalar s (do
    needS
    hazard [a] []
    settle
    modify fun s =>
      let c := (s.g a).toNat % 64
      s.fail s.st (if c = 0 then s.st.trap.tcause.toNat % 64 else c) s.st.trap.tval)

def execTret (s : State) : Out :=
  match (do
      needS
      if (← get).st.trap.inHandler then drained else raiseIr cILL : M Unit) s with
  | .ok _ s' => .next ((s'.retire s'.st.pc).doTret)
  | .error (.trap t) s' => .next (s'.takeTrap t (.scalar s'.st.pc none))
  | .error (.wait w) s' => .next (s'.waiting w)

/-- `wait` pauses the scalar stream until a wake flag, a result, 4,096 cycles, or a new seat (R426). -/
def execWait (s : State) : Out :=
  runScalar s (do
    let s ← get
    if s.st.wake then pure ()
    else if s.st.wait = .wakeOrResult then (if s.st.waitDone then pure () else waitFor .wakeOrResult)
    else
      set { s with st := { s.st with waitDone := false } }
      waitFor .wakeOrResult)

/-! ### The debug ring (Table 26-9) -/

def DebugRec.word (r : DebugRec) : Nat → Word
  | 0 => BitVec.ofNat 64 (r.pc.toNat % 2 ^ 55)
  | 1 => BitVec.ofNat 64 (r.seq * 2 ^ 32 + (if r.rpl then 2 ^ 21 else 0) + (if r.mem then 2 ^ 20 else 0) +
      r.width * 2 ^ 16 + r.pop * 2 ^ 8 + r.vl)
  | 2 => BitVec.ofNat 64 r.first
  | _ => BitVec.ofNat 64 r.last

def Strand.ringWord (t : Strand) (age dw : Nat) : Word :=
  match t.ring[age]? with
  | some r => r.word dw
  | none => 0

/-- drd: mode S before the reserved bits (assumption log 52). -/
def execDrd (d a : GReg) (s : State) : Out :=
  runScalar s (do
    hazard [d, a] []
    let s ← get
    let x := s.g a
    let age := fld x 5 0
    let dw := fld x 7 6
    if fbit x 63 then needS
    if fld x 31 8 ≠ 0 ∨ fld x 62 58 ≠ 0 then raise cILL x 0
    else if fbit x 63 then
      set (s.setG d (match s.strandOfMid (fld x 57 32) with
        | some t => if t.live && t.partn == s.st.partn then t.ringWord age dw else 0
        | none => 0))
    else
      drained
      modify fun s => s.setG d (s.st.ringWord age dw))

/-! ### Acting on another strand (R427) -/

def execSvc (a : GReg) (s : State) : Out :=
  runScalar s (do
    needS
    hazard [a] []
    let s ← get
    let x := s.g a
    let op := fld x 3 0
    if (op ≠ 1 ∧ op ≠ 2) ∨ fld x 31 4 ≠ 0 ∨ fld x 63 58 ≠ 0 then raise cILL x 0
    else
      match s.strandOfMid (fld x 57 32) with
      | none => pure ()
      | some t =>
        if !(t.live && t.partn == s.st.partn) then pure ()
        else if op = 1 then (if t.seated then set (s.askPreempt t.sn) else pure ())
        else set ((s.fail t 0 0).superTrap t))

/-! ### The invalidation log (R405, R428) -/

/-- The 16-byte record breaks no field rule of Table 25-6. -/
def logRecOk (r : Word × Word) : Bool :=
  let op := fld r.1 3 0
  let count := fld r.1 47 16
  decide (1 ≤ op) && decide (op ≤ 4) && fld r.1 7 4 != 0 && fld r.1 63 48 == 0 && fld r.2 63 55 == 0 &&
  (if op = 2 then count != 0 else count == 0) &&
  (if op ≤ 2 then fld r.2 15 0 == 0 else fld r.2 54 0 == 0)

/-- The logs a record selects have room. -/
def State.logRoom (s : State) (r : Word × Word) : Bool :=
  (List.finRange 4).all fun d => !fbit r.1 (4 + d.val) || decide ((s.dies[d]).log.length < 4096)

/-- Append a record to every log it selects. -/
def State.logAppend (s : State) (r : Word × Word) : State :=
  (List.finRange 4).foldl (fun s d =>
    if fbit r.1 (4 + d.val) then s.mapDie d fun x => { x with log := x.log ++ [r], tail := x.tail + 1 } else s) s

/-- A valid partition owns a local region (Table 25-1). -/
def partOwns (p : List Word) (r : Nat) : Bool :=
  let first := fld (nth p 0 0) 47 40
  partValid p && decide (first ≤ r) && decide (r < first + fld (nth p 0 0) 55 48)

/-- log.app: the append counts as a store to a covered kind (R270), so an earlier acquire of the queue comes first. -/
def execLogApp (a : GReg) (s : State) : Out :=
  runScalar s (do
    needS
    hazard [a] []
    let va := ((← get).g a).toNat
    memHazardOf 1 va 16
    if va % 16 ≠ 0 then raise cPERM (BitVec.ofNat 64 va) 0
    let (x, _) ← loadM false (.plain false) va 16 0
    let s ← get
    let r : Word × Word := (BitVec.ofNat 64 (x % 2 ^ 64), BitVec.ofNat 64 (x / 2 ^ 64))
    if !logRecOk r then raise cILL (BitVec.ofNat 64 va) 0
    else if fld r.1 3 0 = 4 ∨ partOwns (s.part s.st.partn) (fld r.1 15 8) = false then raise cPERM (BitVec.ofNat 64 va) 0
    else if !s.logRoom r then waitFor .logRoom
    else set (s.logAppend r))

end Sys2Proof.Machine
end

