-- ==== Sys2Proof/Machine/Mail.lean ====
section
/-!
DEFINITION. The management mailbox (R463): quotes and certificates (R413), partition swaps (R441), remaps (R446), host-scheduled
scrub (R451) and log records (R405).
-/

namespace Sys2Proof.Machine

open Sys2Proof

/-! ### Requests and replies (R463) -/

/-- STATUS codes. -/
def mOK : Nat := 0
def mBADOP : Nat := 1
def mPRIV : Nat := 2
def mBUSY : Nat := 3
def mADDR : Nat := 4

/-- The oldest request of a function has been answered, or dropped. -/
def State.dropRequest (s : State) (fn : Fin 17) : State :=
  s.mapFn fn fun p => { p with requests := p.requests.drop 1, taken := [], mpend := p.mpend - 1 }
def State.setErr (s : State) (fn : Fin 17) : State := s.mapFn fn fun p => { p with err := true }

/-- Write the reply, in doublewords 16 to 31: STATUS and, where the spec gives none, free values (assumption log 22); then the event of
kind 3. A reply that cannot be written sets ERR. -/
def State.reply (s : State) (fn : Fin 17) (a status : Nat) : State :=
  let tag := fld (s.mailDw fn a 0) 31 16
  let s := if s.hostWritable (a + 128) 128 then
      { s with
        hostMem := (upTo 15).foldl (fun m i => Memory.writeN m (a + 136 + 8 * i) 8 (Config.freeWord (s.freeNo + i)).toNat)
          (Memory.writeN s.hostMem (a + 128) 8 status)
        freeNo := s.freeNo + 15 }
    else s.setErr fn
  (s.dropRequest fn).event fn [BitVec.ofNat 64 (3 + tag * 65536), BitVec.ofNat 64 status]

/-- An operation on a request: the state after it and its STATUS, or none while it has to wait. -/
abbrev MailOp := State → Nat → Option (State × Nat)

/-- Take the oldest request of a function when its OP is the one given. A request that cannot be read is dropped; an unlisted
OP answers BADOP; an operation of the physical function answers PRIV to another (R463). -/
def mailbox (fn op : Nat) (pfOnly : Bool) (body : MailOp) (s : State) : Out :=
  let f := fnIx fn
  match (s.fns[f]).requests with
  | [] => .next s
  | a :: _ =>
    if s.phase ≠ .ready then .next s
    else if !s.mailOpen f a then .next ((s.dropRequest f).setErr f)
    else
      let code := fld (s.mailDw f a 0) 15 0
      if code = 0 ∨ 8 < code then .next (s.reply f a mBADOP)
      else if code ≠ op then .next s
      else if pfOnly && f != pf then .next (s.reply f a mPRIV)
      else match body s a with
        | none => .next (s.takeMail f a)
        | some (s', status) => .next (s'.reply f a status)

/-- Bytes of an output area that DMA can write, from its start. -/
def State.hostPrefix (s : State) (a n : Nat) : Nat :=
  match (upTo ((a + n - 1) / 4096 - a / 4096 + 1)).find? fun i => s.hostBad.contains (a / 4096 + i) || s.hostRO.contains (a / 4096 + i) with
  | some i => (a / 4096 + i) * 4096 - a
  | none => n

/-- Write an output area: what can be written is; ADDR when not all of it could (R463). -/
def State.putHost (s : State) (a n x : Nat) : State × Nat :=
  let k := s.hostPrefix a n
  ({ s with hostMem := Memory.writeN s.hostMem a k x }, if k = n then mOK else mADDR)

/-! ### QUOTE and CERT (R413) -/

/-- A number of bytes and the number they make, first byte lowest. -/
abbrev Bytes := Nat × Nat
def catBytes (bs : List Bytes) : Bytes := bs.foldl (fun a b => (a.1 + b.1, a.2 + b.2 % 2 ^ (8 * b.1) * 2 ^ (8 * a.1))) (0, 0)
def wordBytes (ws : List Word) : Bytes := catBytes (ws.map fun w => (8, w.toNat))

/-- DUTY as it reads. -/
def State.dutyWord (s : State) : Word := BitVec.ofNat 64 (s.duty.toNat + s.act.toNat * 256)

/-- Valid region records, of one partition or of all, in ascending number. -/
def State.scopeRegions (s : State) (scope : Nat) : List Word :=
  ((s.regions.filter fun r => regionValid r.2 && (scope == 16 || regionPart r.2 == scope)).map fun r =>
    (upTo 4).map fun i => nth r.2 i 0).flatten

/-- Bytes 0 to 783 of a quote (Table 25-9). -/
def State.quoteBody (s : State) (scope : Nat) (nonce : List Word) : Bytes :=
  let rs := wordBytes (s.scopeRegions scope)
  catBytes
    ([(8, 1), (8, scope), wordBytes nonce, (16, Config.partSerial.toNat)] ++
     ((List.finRange 8).map fun i => (64, (s.meas[i]).toNat)) ++
     ((List.finRange 4).map fun d => (8, (s.diecfg[d]).toNat)) ++
     [(8, Config.fusedVersion.toNat), (8, s.dutyWord.toNat),
      wordBytes (if scope = 16 then List.replicate 8 0 else (upTo 8).map fun i => nth (s.part scope) i 0),
      (64, (digest rs.1 rs.2).toNat)])

/-- QUOTE: a partition by its own function, any scope by the physical function. -/
def quoteOp (fn : Fin 17) : MailOp := fun s a =>
  let scope := (s.mailDw fn a 1).toNat
  if 16 < scope then some (s, mBADOP)
  else if fn ≠ pf ∧ scope ≠ fn.val then some (s, mPRIV)
  else
    let b := s.quoteBody scope ((upTo 8).map fun i => s.mailDw fn a (3 + i))
    let sig := identitySign b.1 b.2 s.freeNo
    let s := { s with freeNo := s.freeNo + 1 }
    some (s.putHost (s.mailDw fn a 2).toNat 1296 (catBytes [b, (512, sig.toNat)]).2)

/-- QUOTE. -/
def execQuote (fn : Nat) (s : State) : Out := mailbox fn 1 false (quoteOp (fnIx fn)) s

/-- CERT: as much of the identity certificate as the buffer takes (assumption log 62). -/
def certOp (fn : Fin 17) : MailOp := fun s a =>
  let n := min Config.certLength (s.mailDw fn a 3).toNat
  if n = 0 then some (s, mOK)
  else some (s.putHost (s.mailDw fn a 2).toNat n (catBytes ((upTo n).map fun i => (1, (Config.certByte i).toNat))).2)

/-- CERT. -/
def execCert (fn : Nat) (s : State) : Out := mailbox fn 2 false (certOp (fnIx fn)) s

/-! ### STAGE and SWAP (R441) -/

/-- Where a section's scratch stands in the shadow stores (R17). -/
def stageScratch (sec : Nat) : Nat := 2 ^ 41 + sec * 2 ^ 25
def scratchBytes : Nat := 33554432
/-- The scratch image of a section in a partition's save area (R436). -/
def State.scratchPa (s : State) (partn sec : Nat) : Nat :=
  fld (nth (SMap.getD s.saveArea partn []) 2 0) 51 25 * 2 ^ 25 + sec * scratchBytes
def secKey (sec : Nat) : Nat := scratchKey (sec / 8) (sec % 8 * scratchBytes)

/-- The sections of a partition that are enabled. -/
def State.sectionsOf (s : State) (partn : Nat) : List Nat :=
  (upTo 32).filter fun i => partSect (s.part partn) i && dieOk s.diecfg[coreDie (i * 16)] && dieScores s.diecfg[coreDie (i * 16)] (i % 8) != 0

/-- A partition that may be staged: suspended, or with no live strand to resume (assumption log 48). -/
def State.mayStage (s : State) (b : Nat) : Bool :=
  s.suspended.contains b || s.strands.all fun t => !(t.live && t.partn == b)

/-- Load the image of a strand that is to be resumed from its frame into the region of the core that it will be resumed on. -/
def State.stageStrand (s : State) (t : Strand) : State :=
  match t.sched.resume, t.sched.saved with
  | some (core, slot), some (div, _, own) =>
    match s.frameFault t with
    | some c => s.frameFails t c
    | none =>
      let pa := s.framePa t.partn t.sched.frame
      let at_ := shadowKey core slot div
      let m := (slotRanges div slot own).foldl (fun m r => Memory.wipe m (at_ r.1) r.2) s.shadow
      let m := (imageRanges (readImg (frameSrc s.mem pa)) t.sched.imageLanes).foldl
        (fun m r => Memory.move m (at_ r.1) s.mem (pa + r.1) r.2) m
      { s with shadow := m }.setStrand { t with sched := { t.sched with shadowAt := (core, slot), inShadow := true } }
  | _, _ => s

/-- Load the scratch image of a section. -/
def State.stageSection (s : State) (b sec : Nat) : State :=
  { s with shadow := Memory.move s.shadow (stageScratch sec) s.mem (s.scratchPa b sec) scratchBytes }

/-- STAGE b: once the regions it fills hold no image that has yet to be copied (R437). What another partition has staged of the same
sections is there no longer (assumption log 61, 110). -/
def stageOp : MailOp := fun s a =>
  let b := fld (s.mailDw pf a 1) 7 4
  let mine := s.numbered.filter fun t => t.live && t.partn == b
  let cores := mine.filterMap fun t => t.sched.resume.map (·.1)
  if !s.mayStage b then some (s, mBADOP)
  else if !cores.all s.shadowFree then none
  else
    let s := cores.foldl State.regionTaken s
    let s := mine.foldl (fun s t => s.stageStrand ((s.strand? t.sn).getD t)) s
    let s := if s.suspended.contains b then (s.sectionsOf b).foldl (fun s i => s.stageSection b i) s
      else (s.sectionsOf b).foldl (fun s i => { s with shadow := Memory.wipe s.shadow (stageScratch i) scratchBytes }) s
    let others := s.staged.filter fun c => (s.sectionsOf c).all fun i => !(s.sectionsOf b).contains i
    some ({ s with staged := insertAsc others b }, mOK)

def execStage (fn : Nat) (s : State) : Out := mailbox fn 3 true stageOp s

/-- Halt: every seated strand of a partition is to be pre-empted. -/
def State.halt (s : State) (a : Nat) : State :=
  (s.strands.filter fun t => t.seated && t.partn == a).foldl (fun s t => s.askPreempt t.sn) s

/-- A halted strand leaves its seat with its image in the shadow store, and will be resumed on that seat. -/
def State.suspendStrand (s : State) (t : Strand) : State :=
  let seat := t.sched.place
  let s := s.savePreempted t
  match s.strand? t.sn with
  | some u => s.setStrand { u with sched := { u.sched with resume := seat } }
  | none => s

/-- Lines of a range that is written whole are correct from then on (R450). -/
def State.goodLines (s : State) (key n : Nat) : State :=
  { s with badLines := s.badLines.filter fun l => !(decide (key ≤ l * 64) && decide (l * 64 + 64 ≤ key + n)) }

/-- Exchange the scratch of a section with the shadow store, and copy what has left to the partition's scratch image. -/
def State.swapSection (s : State) (a sec : Nat) : State :=
  let m := Memory.move s.mem (secKey sec) s.shadow (stageScratch sec) scratchBytes
  let sh := Memory.move s.shadow (stageScratch sec) s.mem (secKey sec) scratchBytes
  let m := Memory.move m (s.scratchPa a sec) sh (stageScratch sec) scratchBytes
  (({ s with mem := m, shadow := sh }).goodLines (secKey sec) scratchBytes).goodLines (s.scratchPa a sec) scratchBytes

/-- A strand is resumed on the slot it held, from the image as it stood before the exchange. -/
def State.resumeStrand (old s : State) (t : Strand) : State :=
  match t.sched.resume, t.sched.saved with
  | some (core, slot), some (div, _, _) =>
    match old.imageFault t with
    | some c => s.frameFails t c
    | none =>
      let src := old.imageSrc t
      let s := (s.mapCore core fun k => { k with div := div }).putCore core slot t.sched.imageLanes src
      let u := { decodeStrand t (readImg src) with viewTail := (s.dies[coreDie core]).tail }
      s.setStrand { u with sched := { u.sched with
        status := .seated, place := some (core, slot), aged := 0, seatedFor := 0, lastCore := some core, resume := none,
        inShadow := false } }
  | _, _ => s

/-- SWAP a, b: a's cores are halted; once all its accesses are done, its state and b's change places. The owner of a core's array is saved
last, since MXO.OWNER is 0 once it has left (R44) (assumption log 73). -/
def swapOp : MailOp := fun s q =>
  let a := fld (s.mailDw pf q 1) 3 0
  let b := fld (s.mailDw pf q 1) 7 4
  if a = b ∨ !s.staged.contains b ∨ (SMap.find s.saveArea a).isNone ∨ s.sectionsOf a ≠ s.sectionsOf b ∨ s.suspended.contains a then some (s, mBADOP)
  else
    let seated := s.numbered.filter fun t => t.seated && t.partn == a
    if seated.all fun t => t.sched.quiesced && s.shadowFree t.core then
      let owns := fun (t : Strand) => (s.coreOf t.core).owner == t.slot
      let old := s
      let s := ((seated.filter fun t => !owns t) ++ seated.filter owns).foldl State.suspendStrand s
      let s := (s.sectionsOf a).foldl (fun s i => s.swapSection a i) s
      let s := { s with suspended := insertAsc (s.suspended.filter (· != b)) a, staged := s.staged.filter (· != b) }
      let back := old.numbered.filter fun t => t.live && t.partn == b
      some (back.foldl (State.resumeStrand old) s, mOK)
    else none

/-- SWAP; while a's strands have yet to stop, they are asked to. -/
def execSwap (fn : Nat) (s : State) : Out :=
  let f := fnIx fn
  match (s.fns[f]).requests with
  | [] => .next s
  | q :: _ =>
    if s.phase = .ready ∧ f = pf ∧ s.mailOpen pf q = true ∧ fld (s.mailDw pf q 0) 15 0 = 4 ∧ (swapOp s q).isNone then
      .next ((s.halt (fld (s.mailDw pf q 1) 3 0)).takeMail pf q)
    else mailbox fn 4 true swapOp s

/-! ### Remap of a package handle (R445, R446) -/

def State.remapOf (s : State) (h : Nat) : Remap :=
  SMap.getD s.remap h { v := false, pend := false, pid := 0, rgen := 0, ports := 0, opid := 0, oports := 0 }

/-- A remap table entry as the host reads it (Table 28-2). -/
def Remap.words (e : Remap) : List Word :=
  [BitVec.ofNat 64 ((if e.v then 1 else 0) + (if e.pend then 2 else 0) + e.pid % 2 ^ 16 * 2 ^ 16 + e.rgen % 2 ^ 32 * 2 ^ 32),
   BitVec.ofNat 64 (e.ports % 2 ^ 32), BitVec.ofNat 64 (e.opid % 2 ^ 16 * 2 ^ 16), BitVec.ofNat 64 (e.oports % 2 ^ 32)]

/-- Phase 1 at a package: the old route is kept beside the new one. -/
def State.prepareHere (s : State) (h gen pid ports : Nat) : State :=
  let e := s.remapOf h
  let e := { e with v := true, pend := true, opid := e.pid, oports := e.ports, pid := pid, ports := ports, rgen := gen }
  { s with remap := SMap.put s.remap h e }

/-- Packages of the domain besides this one: those whose handles are in use. -/
def State.otherPackages (s : State) : List Nat :=
  (s.remap.filter fun e => e.2.v && e.1 != s.handle.toNat).map (·.1)

/-- This package holds no train, load or atomic to a handle under another generation than the current one. -/
def State.oldGone (s : State) (h : Nat) : Bool :=
  let gone := fun (r : Remote) => r.handle != h || r.answer.isSome || r.rgen == (s.remapOf h).rgen
  s.binderRemote.all gone && s.strands.all fun t => t.remote.all gone

/-- The operation in progress for a handle and a phase. -/
def State.remapOp? (s : State) (h ph : Nat) : Option RemapOp := s.remapOps.find? fun o => o.handle == h && o.phase == ph
def State.dropOp (s : State) (h ph : Nat) : State :=
  { s with remapOps := s.remapOps.filter fun o => !(o.handle == h && o.phase == ph) }

/-- PREPARE: the domain is told; the reply follows when every package has replied (assumption log 72). -/
def prepareOp (fn : Fin 17) : MailOp := fun s a =>
  let h := fld (s.mailDw pf a 1) 9 0
  match s.remapOp? h 1 with
  | some o => if o.left = [] then some (s.dropOp h 1, mOK) else none
  | none =>
    if (s.remapOf h).pend then some (s, mBUSY)
    else
      let pid := fld (s.mailDw pf a 1) 31 16
      let ports := fld (s.mailDw pf a 2) 31 0
      let gen := ((s.remapOf h).rgen + 1) % 2 ^ 32
      let left := s.otherPackages
      let s := s.prepareHere h gen pid ports
      if left = [] then some (s, mOK)
      else some ({ s with
        fabricOut := s.fabricOut ++ [FabMsg.prepare h gen pid ports]
        remapOps := s.remapOps ++ [({ fn := fn.val, req := a, handle := h, phase := 1, left } : RemapOp)] }, 256)

/-- COMMIT: likewise, and PEND is cleared at the end, here and by a notice elsewhere. -/
def commitOp (fn : Fin 17) : MailOp := fun s a =>
  let h := fld (s.mailDw pf a 1) 9 0
  let e := s.remapOf h
  let finish := fun (s : State) =>
    { s with remap := SMap.put s.remap h { e with pend := false }, fabricOut := s.fabricOut ++ [FabMsg.remapReply h e.rgen 3] }
  match s.remapOp? h 2 with
  | some o => if o.left = [] ∧ s.oldGone h = true then some (finish (s.dropOp h 2), mOK) else none
  | none =>
    if !e.pend || (s.remapOp? h 1).isSome then some (s, mBADOP)
    else
      let left := s.otherPackages
      if left = [] ∧ s.oldGone h = true then some (finish s, mOK)
      else some ({ s with
        fabricOut := s.fabricOut ++ [FabMsg.commit h e.rgen]
        remapOps := s.remapOps ++ [({ fn := fn.val, req := a, handle := h, phase := 2, left } : RemapOp)] }, 256)

/-- A mailbox operation that takes more than one event: STATUS 256 stands for an operation that has begun. -/
def mailboxLong (fn op : Nat) (body : MailOp) (s : State) : Out :=
  let f := fnIx fn
  match (s.fns[f]).requests with
  | [] => .next s
  | a :: _ =>
    if s.phase = .ready ∧ f = pf ∧ s.mailOpen pf a = true ∧ fld (s.mailDw pf a 0) 15 0 = op then
      match body s a with
      | some (s', 256) => .next (s'.takeMail pf a)
      | _ => mailbox fn op true body s
    else mailbox fn op true body s

/-- PREPARE, of the mailbox or from another package, which this one answers; a second one before COMMIT is refused (R446) (assumption log 119). -/
def execPrepare (fn : Nat) (fabric : Option (Nat × Nat × Nat × Nat × Nat)) (s : State) : Out :=
  match fabric with
  | none => mailboxLong fn 5 (prepareOp (fnIx fn)) s
  | some (_, h, gen, pid, ports) =>
    if (s.remapOf (h % 1024)).pend then .next s else
    let s := s.prepareHere (h % 1024) (gen % 2 ^ 32) (pid % 65536) (ports % 2 ^ 32)
    .next { s with fabricOut := s.fabricOut ++ [FabMsg.remapReply (h % 1024) (gen % 2 ^ 32) 1] }

/-- COMMIT, of the mailbox or from another package, which this one answers once nothing of the old generation is outstanding. -/
def execCommit (fn : Nat) (fabric : Option (Nat × Nat × Nat)) (s : State) : Out :=
  match fabric with
  | none => mailboxLong fn 6 (commitOp (fnIx fn)) s
  | some (_, h, gen) =>
    if s.oldGone (h % 1024) then .next { s with fabricOut := s.fabricOut ++ [FabMsg.remapReply (h % 1024) (gen % 2 ^ 32) 2] }
    else .next s

/-- REMAP_COMMIT_REPLY: a package's reply to PREPARE (1) or COMMIT (2); 3 is the notice that a remap is complete. -/
def execRemapCommitReply (pkg handle gen ph : Nat) (s : State) : Out :=
  let e := s.remapOf handle
  if e.rgen ≠ gen then .next s
  else if ph = 3 then .next (if e.pend then { s with remap := SMap.put s.remap handle { e with pend := false } } else s)
  else .next { s with remapOps := s.remapOps.map fun o =>
      if o.handle = handle ∧ o.phase = ph then { o with left := o.left.filter (· != pkg) } else o }

/-! ### SCRUB and LOGAPP (R405, R451) -/

/-- SCRUB: with DUTY.SCRUB in force, a pass over the lines of the range that a stack or a controller of a die still reached serves
(R447, R451). -/
def scrubOp : MailOp := fun s a =>
  if s.act.getLsbD 6 then some (s.scrubLines ((s.mailDw pf a 1).toNat / 64) (s.mailDw pf a 2).toNat, mOK) else some (s, mBADOP)

def execScrub (fn : Nat) (s : State) : Out := mailbox fn 7 true scrubOp s

/-- LOGAPP: a record appended to every log it selects, once they have room. -/
def logappOp : MailOp := fun s a =>
  let r := (s.mailDw pf a 1, s.mailDw pf a 2)
  if !logRecOk r then some (s, mBADOP) else if !s.logRoom r then none else some (s.logAppend r, mOK)

def execLogapp (fn : Nat) (s : State) : Out := mailbox fn 8 true logappOp s

end Sys2Proof.Machine
end

