-- ==== Sys2Proof/Machine/Walk.lean ====
section
/-!
DEFINITION. Walkers and appliers (R398, R406, R409, R410), and the row-activate hints of the sequencer (R249, R250).
-/

namespace Sys2Proof.Machine

open Sys2Proof

/-! ### Walks -/

/-- PAGE_WALK: a walker translates an address that no cache of a seated strand holds. -/
def execPageWalk (sn va : Nat) (s : State) : Out :=
  match s.strand? sn with
  | none => .next s
  | some t =>
    if t.seated = false ∨ scratchBase ≤ va ∨ ((s.switchTo sn).cached va).isSome = true then .next s
    else match walkPlace t.sn t.partn t.region t.core t.viewTail t.mode .load va s with
      | .ok _ s' => .next s'
      | .error _ s' => .next s'

/-- A posted walk of a page. -/
def HostPost.asks (region page : Nat) (large : Bool) : HostPost → Bool
  | .walk _ r va _ => r == region && (if large then va / mib512 == page / 8192 else va / 65536 == page)
  | _ => false

/-- HOST_WALK_REPLY: the leaf of a page, which answers the oldest walk of it that was posted to the host. -/
def execHostWalkReply (region page : Nat) (leaf : Word) (large : Bool) (s : State) : Out :=
  match s.hostPosts.find? (HostPost.asks region page large) with
  | some (.walk who r va acc) => .next { s with
      hostPosts := s.hostPosts.erase (.walk who r va acc), hostLeaves := s.hostLeaves ++ [(who, region, page, leaf, large)] }
  | _ => .next s

/-! ### The invalidation log (R406, R409) -/

/-- Remove every translation that a record matches from the caches of a die. -/
def State.invalidate (s : State) (d : DieNo) (r : Word × Word) : State :=
  let keep := fun (l : List TlbEntry) => l.filter fun e => !recMatches r e
  let s := s.mapDie d fun x => { x with tlb := keep x.tlb }
  let s := (upTo 8).foldl (fun s i => s.mapSect (coreSect (d.val * 128 + i * 16)) fun x => { x with tlb := keep x.tlb }) s
  { s with cores := s.cores.map fun (n, c) => (n, if n / 128 = d.val then { c with tlb := keep c.tlb } else c) }

/-- A walk that the host makes, and whose page a record matches, is started again: neither what was asked nor a leaf that has been
returned and not used is kept. A walk whose leaf has not come is taken to be of a 512 MiB page (assumption log 41). -/
def State.restartWalks (s : State) (r : Word × Word) : State :=
  { s with
    hostLeaves := s.hostLeaves.filter fun (_, region, page, leaf, large) => !recMatches r { region, vpn := page, large, leaf }
    hostPosts := s.hostPosts.filter fun p => match p with
      | .walk _ region va _ => !recMatches r { region, vpn := va / 65536, large := true, leaf := 0 }
      | _ => true }

/-- The oldest record is applied. -/
def State.applyRecord (s : State) (d : DieNo) : State :=
  match (s.dies[d]).log with
  | [] => s
  | r :: rest => ((s.invalidate d r).restartWalks r).mapDie d fun x => { x with log := rest, logPosted := x.logPosted - 1 }

/-- LOG_APPLY: the applier applies the oldest record, or posts the next one to the host (DUTY.LOGAP). -/
def execLogApply (die : Nat) (s : State) : Out :=
  let d := coreDie (die * 128)
  if s.act.getLsbD 4 || decide (0 < (s.dies[d]).logPosted) then
    match (s.dies[d]).log[(s.dies[d]).logPosted]? with
    | some r => .next ({ s with hostPosts := s.hostPosts ++ [HostPost.log d.val r] }.mapDie d fun x => { x with logPosted := x.logPosted + 1 })
    | none => .next s
  else .next (s.applyRecord d)

/-- HOST_LOG_CONFIRMATION: the oldest posted record has been applied. -/
def execHostLogConfirmation (die : Nat) (s : State) : Out :=
  let d := coreDie (die * 128)
  match (s.dies[d]).log with
  | [] => .next s
  | r :: _ =>
    if (s.dies[d]).logPosted = 0 then .next s
    else
      let t := s.applyRecord d
      .next { t with hostPosts := t.hostPosts.erase (.log d.val r) }

/-! ### Row-activate hints (R249, R250) -/

/-- The first and last addresses of each datum of an element of a memory form that the sequencer watches, with the access it
makes. -/
def hintForm (w : InstrWord) : Option (Acc × (Word → Word → Nat → List Nat)) :=
  let n := elSize (ElTy.ofCode (wFn w % 8))
  let span := fun (x : Word) (n : Nat) => [x.toNat, x.toNat + n - 1]
  let unit := fun (base _ : Word) (e : Nat) => span (base + BitVec.ofNat 64 (e * n)) n
  let stride := fun (base vstr : Word) (e : Nat) => span (base + vstr * BitVec.ofNat 64 e) n
  let graded := fun (base _ : Word) (e : Nat) =>
    span (base + BitVec.ofNat 64 (e * 8)) 8 ++ span (base + BitVec.ofNat 64 (1024 + 2 * e)) 2
  if wMaj w ≠ 0x28 then none
  else match wFn w / 8 with
    | 0 => some (.load, unit)
    | 1 => some (.store, unit)
    | 2 => some (.load, stride)
    | 3 => some (.store, stride)
    | 10 => some (.load, graded)
    | 11 => some (.store, graded)
    | _ => none

/-- The line of an address that the core or section TLB translates without fault, to UO or RC memory. -/
def State.hintLine (s : State) (t : Strand) (acc : Acc) (va : Nat) : Option Nat :=
  if scratchBase ≤ va then none
  else
    let recs := viewRecs s.dies[coreDie t.core] t.viewTail
    let hit := match tlbFind recs t.region va (s.coreOf t.core).tlb with
      | some e => some e
      | none => tlbFind recs t.region va s.sects[coreSect t.core].tlb
    match hit with
    | none => none
    | some e => match s.leafLoc t.partn t.region t.mode acc e.leaf e.large va with
      | .ok (.mem key kind _) => if kind = 2 then none else some (key / 64)
      | _ => none

/-- ROW_ACTIVATE_HINT: hints for the strip that two equal deltas predict, each distinct row once and at most 32 of them. -/
def execRowActivateHint (sn entry : Nat) (s : State) : Out :=
  match s.strand? sn with
  | none => .next s
  | some t =>
    match t.rpl.body[entry]?, SMap.getD t.rpl.bases entry [] with
    | some (w, _), [vl, vstr, b0, b1, b2] =>
      match hintForm w with
      | none => .next s
      | some (acc, addrs) =>
        if t.seated = false ∨ b0 - b1 ≠ b1 - b2 then .next s
        else
          let lines := (((upTo vl.toNat).map (addrs (b0 + (b0 - b1)) vstr)).flatten.filterMap (s.hintLine t acc)).foldl insertAsc []
          let rows := ((lines.map Config.dramRow).eraseDups).take 32
          let s := s.setStrand { t with rpl := { t.rpl with bases := SMap.put t.rpl.bases entry [vl, vstr, b0, b1] } }
          .next (s.mapCore t.core fun c =>
            { c with hints := c.hints + BitVec.ofNat 64 rows.length, hintRows := rows.foldl insertAsc c.hintRows })
    | _, _ => .next s

/-- HINT_ROW_CLOSE. -/
def execHintRowClose (core row : Nat) (s : State) : Out :=
  .next (s.mapCore (core % 512) fun c => { c with hintRows := c.hintRows.filter fun r => r != row })

end Sys2Proof.Machine
end

