-- ==== Sys2Proof/Machine/Boot.lean ====
section
/-!
DEFINITION. Bring-up and the host's register windows (R396, R397, R407, R409, R410, R436, R461–R465, R469).
-/

namespace Sys2Proof.Machine

open Sys2Proof

/-! ### Windows (Table 30-1) -/

/-- A doubleword with n of its bytes, from byte `lo`, replaced. -/
def mergeBytes (old : Word) (lo n x : Nat) : Word :=
  let o := old.toNat
  BitVec.ofNat 64 (o % 2 ^ (8 * lo) + x % 2 ^ (8 * n) * 2 ^ (8 * lo) + o / 2 ^ (8 * (lo + n)) * 2 ^ (8 * (lo + n)))

/-- A write of `len` bytes cut at blocks of `size` bytes: offset of the block, first byte in it, number of bytes, and the bytes. -/
def blockPieces (size off len data : Nat) : List (Nat × Nat × Nat × Nat) :=
  if len = 0 then []
  else (upTo ((off + len - 1) / size - off / size + 1)).map fun i =>
    let base := (off / size + i) * size
    let lo := max off base
    let hi := min (off + len) (base + size)
    (base, lo - base, hi - lo, data / 2 ^ (8 * (lo - off)) % 2 ^ (8 * (hi - lo)))

/-- The same cut at doublewords. -/
def dwPieces (off len data : Nat) : List (Nat × Nat × Nat × Nat) := blockPieces 8 off len data

/-- An entry of a table, at its full length. -/
def padTo (n : Nat) (l : List Word) : List Word := (upTo n).map fun i => nth l i 0
/-- The entry with one doubleword replaced. -/
def withDw (n : Nat) (l : List Word) (i : Nat) (x : Word) : List Word := listSet (padTo n l) i x
/-- The entry of n doublewords with `len` bytes from byte `off` replaced. -/
def withBytes (n : Nat) (l : List Word) (off len data : Nat) : List Word :=
  (dwPieces off len data).foldl (fun e (o, lo, k, x) => listSet e (o / 8) (mergeBytes (nth e (o / 8) 0) lo k x)) (padTo n l)

/-! ### Partition entries (R396) -/

/-- The zero-field checks and the check of RFIRST + RCOUNT (Table 25-1). -/
def partFieldsOk (p : List Word) : Bool :=
  let d := nth p 0 0
  fld d 39 36 == 0 && fld d 63 56 == 0 && decide (fld d 47 40 + fld d 55 48 ≤ 256) && fld (nth p 1 0) 63 16 == 0 &&
  (p.drop 2).all fun w => fld w 63 46 == 0

/-- Physical ranges of a partition entry: first unit of 512 MiB and number of units. -/
def partRanges (p : List Word) : List (Nat × Nat) := ((p.drop 2).map fun w => (fld w 22 0, fld w 45 23)).filter fun r => r.2 != 0
def rangesMeet (a b : List (Nat × Nat)) : Bool := a.any fun x => b.any fun y => decide (x.1 < y.1 + y.2) && decide (y.1 < x.1 + x.2)

/-- A valid entry would share sections or ranges with another valid partition; sections of a suspended one do not count. -/
def State.partsMeet (s : State) (n : Nat) (p : List Word) : Bool :=
  partValid p && s.parts.any fun (m, q) => m != n && partValid q &&
    ((!s.suspended.contains m && !s.suspended.contains n && (upTo 32).any fun i => s.sectOn i && partSect p i && partSect q i) ||
      rangesMeet (partRanges p) (partRanges q))

/-- A launch of the partition, or of the region, is live. -/
def State.partLive (s : State) (n : Nat) : Bool := s.launches.any fun l => l.live && l.partn == n
def State.regionLive (s : State) (r : Nat) : Bool := s.launches.any fun l => l.live && l.region == r

/-- A write that makes a partition entry p: it is checked whole. -/
def State.setPart (s : State) (n : Nat) (p : List Word) : State :=
  if s.partLive n || !partFieldsOk p || s.partsMeet n p then s.setErr pf else { s with parts := SMap.put s.parts n p }

/-- A doubleword of a partition entry, written by the physical function. -/
def State.writePart (s : State) (n dw : Nat) (x : Word) : State :=
  if 16 ≤ n ∨ 8 ≤ dw then s else s.setPart n (withDw 8 (s.part n) dw x)

/-- PARTITION_ENTRY_WRITE. -/
def execPartitionEntryWrite (n dw : Nat) (data : Word) (s : State) : Out :=
  .next (if s.phase = .off then s else s.writePart n dw data)

/-! ### Region records (R397) -/

/-- The zero fields of a region record (Table 25-2). -/
def regionFieldsOk (r : List Word) : Bool :=
  (nth r 0 0 &&& ~~~ 0x000FFFFFFFFF00F1#64) == 0 && (nth r 1 0 &&& ~~~ 0x000FFFFFF8000000#64) == 0 &&
  (nth r 2 0 &&& ~~~ 0xFFFF#64) == 0 && (nth r 3 0 &&& ~~~ 0x007FFFFFFFFFFFFC#64) == 0

/-- The checks of a valid record: PART owns it, its root table and its sidecar pool lie in the partition's ranges, and its
DRID is not 0. -/
def State.regionOk (s : State) (r : Nat) (x : List Word) : Bool :=
  let p := s.part (regionPart x)
  !regionValid x || (partOwns p r && partHolds p (regionRoot x) 65536 && partHolds p (regionScb x) 4294967296 && regionDrid x != 0)

/-- The log record that invalidates a region on every die. -/
def regionRecord (r : Nat) : Word × Word := (BitVec.ofNat 64 (0xF3 + r * 256), 0)

/-- The record with n bytes from byte `lo` of a doubleword replaced. -/
def State.regionWith (s : State) (r dw lo n x : Nat) : List Word := withBytes 4 (s.regionRec r) (8 * dw + lo) n x

/-- Bytes of a region record, written by a function; none while V going from 1 to 0 waits for room in the logs. -/
def State.writeRegion (s : State) (fn : Fin 17) (r dw lo n x : Nat) : Option State :=
  if 256 ≤ r ∨ 4 ≤ dw then some s
  else
    let old := s.regionRec r
    let new := s.regionWith r dw lo n x
    let mine := fn == pf || partOwns (s.part fn.val) r
    if !mine || s.regionLive r || !regionFieldsOk new || !s.regionOk r new then some (s.setErr fn)
    else if regionValid old && !regionValid new then
      (if s.logRoom (regionRecord r) then some { s.logAppend (regionRecord r) with regions := SMap.put s.regions r new } else none)
    else some { s with regions := SMap.put s.regions r new }

/-- A write of a record that has to wait, or comes after one that does, is held (assumption log 82). -/
def State.regionWrite (s : State) (w : HeldWrite) : State :=
  let held := { s with heldWrites := s.heldWrites ++ [w] }
  if s.heldWrites.any fun v => v.record == w.record then held
  else (s.writeRegion (fnIx w.fn) w.record w.dw w.lo w.n w.data).getD held

/-- Held writes in order: the first of a record has been accepted, and takes effect once the logs have room for its record; those
after it follow it (R397). -/
def State.takeHeld : List HeldWrite → List Nat → State → State
  | [], _, s => s
  | w :: r, seen, s =>
    State.takeHeld r (w.record :: seen)
      (if seen.contains w.record then s.regionWrite w
       else if s.logRoom (regionRecord w.record) then
        { s.logAppend (regionRecord w.record) with
          regions := SMap.put s.regions w.record (s.regionWith w.record w.dw w.lo w.n w.data) }
       else { s with heldWrites := s.heldWrites ++ [w] })

/-- What has waited for room in the logs takes effect. -/
def State.settleHeld (s : State) : State :=
  if s.heldWrites = [] then s else State.takeHeld s.heldWrites [] { s with heldWrites := [] }

/-- A function answers the host: the physical function once the link is up, the others once firmware is READY (R461). -/
def State.fnOpen (s : State) (fn : Nat) : Bool := if fn = 16 then s.phase != .off else decide (fn < 16) && s.phase == .ready

/-- REGION_RECORD_WRITE. -/
def execRegionRecordWrite (fn r dw : Nat) (data : Word) (s : State) : Out :=
  .next (if s.fnOpen fn then s.regionWrite { fn, record := r, dw, lo := 0, n := 8, data := data.toNat } else s)

/-! ### Save areas (R436) -/

/-- The zero fields of a save-area entry, and its areas, the frames and the 32 scratch images, inside the partition's ranges; an area of
no length is no area. Each write is checked with the other bytes as they stand (assumption log 109). -/
def State.saveOk (s : State) (n : Nat) (x : List Word) : Bool :=
  let b := nth x 0 0
  let c := nth x 2 0
  let frames := fld (nth x 1 0) 15 0
  (b &&& ~~~ 0x000FFFFFFFF00000#64) == 0 && (c &&& ~~~ 0x000FFFFFFE000000#64) == 0 &&
  (frames == 0 || partHolds (s.part n) (fld b 51 20 * 2 ^ 20) (frames * 2 ^ 20)) &&
  partHolds (s.part n) (fld c 51 25 * 2 ^ 25) (32 * scratchBytes)

/-- A write that makes a save-area entry e: it is checked whole. -/
def State.setSave (s : State) (n : Nat) (e : List Word) : State :=
  if s.saveOk n e then { s with saveArea := SMap.put s.saveArea n e } else s.setErr pf

def State.writeSave (s : State) (n dw : Nat) (x : Word) : State :=
  if 16 ≤ n ∨ 3 ≤ dw then s else s.setSave n (withDw 4 (SMap.getD s.saveArea n []) dw x)

/-- SAVE_AREA_WRITE. -/
def execSaveAreaWrite (n dw : Nat) (data : Word) (s : State) : Out :=
  .next (if s.phase = .off then s else s.writeSave n dw data)

/-! ### DUTY (R409, R410) -/

/-- DUTY_WRITE. -/
def execDutyWrite (data : Word) (s : State) : Out :=
  .next (if s.phase = .off then s else { s with duty := data.setWidth 7 })

/-- A function has no operation under way that it began in its old mode. -/
def State.dutyIdle (s : State) (bit : Nat) : Bool :=
  match bit with
  | 0 => s.hostPosts.all fun p => match p with | .walk .. => false | _ => true
  | 1 => s.hostPosts.all fun p => match p with | .placement .. => false | _ => true
  | 2 => s.hostPosts.all fun p => match p with | .topo .. => false | _ => true
  | 3 => (s.hostPosts.all fun p => match p with | .members .. => false | _ => true) && s.groups.all fun g => !(s.isHome g && g.phase == 1)
  | 4 => s.dies.toList.all fun d => d.logPosted == 0
  | 5 => s.dies.toList.all fun d => d.hbm.toList.all fun k => !k.failed || k.taken
  | _ => true

/-- DUTY_ACT_UPDATE: ACT takes the value of a bit that has changed. -/
def execDutyActUpdate (fnbit : Nat) (s : State) : Out :=
  if 7 ≤ fnbit ∨ s.duty.getLsbD fnbit = s.act.getLsbD fnbit ∨ s.dutyIdle fnbit = false then .next s
  else .next { s with act := s.act ^^^ BitVec.ofNat 7 (2 ^ fnbit) }

/-- Firmware sets a bit by itself, the hardware form of the function having failed, with a management event (R410). -/
def State.assist (s : State) (bit : Nat) : State :=
  if s.phase ≠ .ready ∨ 7 ≤ bit then s else { s with duty := s.duty ||| BitVec.ofNat 7 (2 ^ bit) }.manage none bit

/-! ### Firmware (R464) -/

/-- FWGO: the ROM begins to verify; a second write while it does fails with 0x81 (assumption log 75). -/
def execFwgo (len : Word) (s : State) : Out :=
  .next (match s.phase with
    | .rom => { s with phase := .verifying, fwst := 1, fwLen := len }
    | .verifying => { s with phase := .rom, fwst := 0x81 }
    | _ => s)

/-- Bytes of the staged image. -/
def State.img (s : State) (o n : Nat) : Nat := Memory.readN s.staging o n
/-- Length of the body, from the header (Table 30-5). -/
def State.bodyLen (s : State) : Nat := s.img 0 4
/-- The header is well formed: its zero fields, its body length, and the length FWGO took. -/
def State.headerOk (s : State) : Bool :=
  s.img 8 56 == 0 && s.img 128 384 == 0 && s.img 1024 3072 == 0 && decide (s.bodyLen ≤ 268435456 - 4096) &&
  s.fwLen.toNat == 4096 + s.bodyLen
/-- SHA-512 of the body. -/
def State.bodyDigest (s : State) : BitVec 512 := digest s.bodyLen (s.img 4096 s.bodyLen)

/-- What FWST takes: a failure code, or 2 (Table 30-4 step 5). -/
def State.verify (s : State) : BitVec 8 :=
  if !s.headerOk then 0x81
  else if s.img 4 4 < Config.fusedVersion.toNat then 0x82
  else if !imageSigned (s.img 0 512) (BitVec.ofNat 4096 (s.img 512 512)) then 0x83
  else if s.bodyDigest.toNat ≠ s.img 64 64 then 0x84
  else 2

/-- Firmware extends one of MEAS3 to MEAS7 (R412). -/
def State.measure (s : State) (n : Nat) (d : BitVec 512) : State :=
  if h : n < 8 then
    if s.phase = .ready ∧ 3 ≤ n then { s with meas := s.meas.set n (extended s.meas[n] d) } else s
  else s

/-- FIRMWARE_BOOT: the verdict of the ROM, and when the image passes, what firmware does up to READY; HBMSPLIT.SHARE is set once, and
stands until the next power-up (R247). -/
def execFirmwareBoot (share : Nat) (base : BitVec 512) (s : State) : Out :=
  if s.phase ≠ .verifying then .next s
  else
    let v := s.verify
    if v ≠ 2 then .next { s with phase := .rom, fwst := v }
    else .next { s with
      phase := .ready, fwst := 2, meas := (s.meas.set 1 s.bodyDigest).set 2 base, parts := []
      share := if s.shareSet then s.share else BitVec.ofNat 10 share, shareSet := true }

/-! ### Supply and resets (R464, R465) -/

/-- What outlives the supply of the module: the host's memory, and the model's own counters and turns. -/
def State.outside (s t : State) : State :=
  { t with hostMem := s.hostMem, hostBad := s.hostBad, hostRO := s.hostRO, hostAnswer := s.hostAnswer, turns := s.turns, stepNo := s.stepNo, freeNo := s.freeNo }

/-- POWER_DOWN. -/
def execPowerDown (s : State) : Out := .next (s.outside { State.reset with phase := .off, meas := .replicate 8 0 })

/-- FUSED: some unit is disabled by its fuses (Tables 1-6, 28-4). -/
def fusedOut (cfg : Vector Word 4) : Bool := cfg.toList.any fun w => w != diecfgFull

/-- DIECFG as fuses can give it (Table 1-6): reserved bits are zero, and no section has more than 16 cores. -/
def fuseWord (w : Word) : Word :=
  BitVec.ofNat 64 ((upTo 8).foldl (fun x i => x + min (bits w.toNat (5 * i + 4) (5 * i)) 16 * 2 ^ (5 * i))
    ((w &&& 0x007FF70000000000#64).toNat))

/-- POWER_UP: from no supply; self-test sets DIECFG. What fuses and self-test disable, dies and capacity-tier controllers, takes no memory
away (assumption log 111). -/
def execPowerUp (cfg : List Word) (failed : Nat) (s : State) : Out :=
  if s.phase ≠ .off then .next s
  else
    let fuses : Vector Word 4 := Vector.ofFn fun d => fuseWord (nth cfg d.val diecfgFull)
    let bad := fun (d : Fin 4) => decide (failed / 2 ^ d.val % 2 = 1)
    let s := s.outside { State.reset with
      diecfg := Vector.ofFn fun d => if bad d then fuses[d] &&& ~~~ (BitVec.ofNat 64 (2 ^ 54)) else fuses[d] }
    let s := if fusedOut fuses then s.setRrs 2 else s
    .next (if failed % 16 = 0 then s else s.setRrs (failed % 16 * 2 ^ 28))

/-- LINK_RESET: every launch ends without STATUS, and the package returns to step 1. RRS, the measurements that firmware
extends, the state of links and dies, SHARE, and memory outlast it; the section scratch of the dies does not (R12), and its bytes are
those that nothing has written (assumption log 1, 74). -/
def execLinkReset (s : State) : Out :=
  if s.phase = .off then .next s
  else .next (s.outside { State.reset with
    diecfg := s.diecfg, rrs := s.rrs, meas := s.meas.set 0 Config.romDigest, mem := s.mem.filter fun c => decide (c.1 < 2 ^ 52)
    badLines := s.badLines.filter fun l => decide (l < 2 ^ 46), lids := s.lids, share := s.share, shareSet := s.shareSet
    power := s.power, linkErrors := s.linkErrors
    nextTag := s.nextTag, fabricOut := s.fabricOut, handle := s.handle
    dies := s.dies.map fun d => { Die.init with hot := d.hot, cut := d.cut, hbm := d.hbm } })

/-- The root of a launch aborts (STATUS 0x41). -/
def abortLaunch (l : Launch) : M Unit := do
  let _ ← endSubtree l.lid 0 .ended
  match (← get).launch? l.lid with
  | some l => endLaunch { l with faults := [] } 0x41
  | none => pure ()

/-- VF_FLR: the partition's launches abort; its pending launches and requests are discarded without reply (assumption log 76). -/
def execVfFlr (n : Nat) (s : State) : Out :=
  if 16 ≤ n ∨ s.phase ≠ .ready then .next s
  else runEvent s (do
    for l in (← get).launches.filter fun l => l.live && l.origin.isNone && l.partn == n do abortLaunch l
    modify fun s => { s with hostPosts := s.hostPosts.filter fun p => match p with
      | .placement fn _ _ => fn != n
      | _ => true }
    modify fun s => s.mapFn (fnIx n) fun p => { p with launches := [], requests := [], taken := [], mpend := 0 })

/-! ### The host reads a register (Tables 30-1, 30-2, 30-7) -/

/-- A doubleword of an entry of a table, of entries of `size` doublewords. -/
def tableRead (t : SMap (List Word)) (size o : Nat) : Word := nth (SMap.getD t (o / (8 * size)) []) (o / 8 % size) 0

/-- A doubleword of the status window (Table 30-7). -/
def State.statusRead (s : State) (o : Nat) : Word :=
  if o = 0 then s.dutyWord
  else if o = 8 then s.rrsRead
  else if h : 0x10 ≤ o ∧ o < 0x30 then s.diecfg[(o - 0x10) / 8]'(by omega)
  else if o = 0x30 then s.share.setWidth 64
  else if h : 0x40 ≤ o ∧ o < 0x240 then ((s.meas[(o - 0x40) / 64]'(by omega)) >>> (o % 64 / 8 * 64)).setWidth 64
  else 0

/-- A doubleword of the physical function's BAR 0, as it reads: unlisted offsets read as zero. -/
def State.pfRead (s : State) (o : Nat) : Word :=
  if o < 0x10000 then s.fnRead pf o
  else if 0x100000 ≤ o ∧ o < 0x100400 then tableRead s.parts 8 (o - 0x100000)
  else if 0x110000 ≤ o ∧ o < 0x112000 then nth (s.regionRec ((o - 0x110000) / 32)) (o / 8 % 4) 0
  else if 0x120000 ≤ o ∧ o < 0x121000 then tableRead s.outTable 2 (o - 0x120000)
  else if 0x130000 ≤ o ∧ o < 0x132000 then tableRead s.inTable 4 (o - 0x130000)
  else if 0x140000 ≤ o ∧ o < 0x148000 then nth (s.remapOf ((o - 0x140000) / 32)).words (o / 8 % 4) 0
  else if 0x180000 ≤ o ∧ o < 0x180200 then tableRead s.saveArea 4 (o - 0x180000)
  else if 0x1F0000 ≤ o then s.statusRead (o - 0x1F0000)
  else 0

/-- The same of a virtual function: its page, and the region records that its partition owns. -/
def State.vfRead (s : State) (fn : Fin 17) (o : Nat) : Word :=
  if o < 0x10000 then s.fnRead fn o
  else
    let part := nth (s.part fn.val) 0 0
    let i := (o - 0x10000) / 32
    if i < fld part 55 48 then nth (s.regionRec (fld part 47 40 + i)) (o / 8 % 4) 0 else 0

/-- Bytes cut from the doublewords that hold them. -/
def bytesOf (rd : Nat → Word) (off len : Nat) : Nat :=
  ((upTo ((off + len + 7) / 8 - off / 8)).foldl (fun x i => x + (rd ((off / 8 + i) * 8)).toNat * 2 ^ (64 * i)) 0) / 2 ^ (8 * (off % 8)) %
    2 ^ (8 * len)

/-- What a read of a BAR window returns; none where the function is disabled, or has no such window: an Unsupported Request (R461). -/
def State.barRead (s : State) (fn bar off len : Nat) : Option Nat :=
  if !s.fnOpen fn then none
  else if bar = 0 then
    if off + len ≤ (if fn = 16 then 0x4000000 else 0x100000) then
      some (bytesOf (if fn = 16 then s.pfRead else s.vfRead (fnIx fn)) off len)
    else none
  else if bar = 2 ∧ fn = 16 ∧ off + len ≤ 0x10000000 then some (Memory.readN s.staging off len)
  else none

/-- The host reads a window, and holds what it returned. -/
def State.hostRead (s : State) (fn bar off len : Nat) : State := { s with hostAnswer := s.barRead fn bar off len }

/-! ### The host writes a register (R461, R469) -/

/-- A doubleword of a fabric table, of entries of `size` doublewords (R407). -/
def writeTable (t : SMap (List Word)) (size o lo n x : Nat) : SMap (List Word) :=
  let e := padTo size (SMap.getD t (o / (8 * size)) [])
  let i := o / 8 % size
  SMap.put t (o / (8 * size)) (listSet e i (mergeBytes (nth e i 0) lo n x))

/-- One doubleword's share of a write to the physical function's BAR 0, outside the windows of entries and records. -/
def State.writePf (s : State) (p : Nat × Nat × Nat × Nat) : State :=
  let (o, lo, n, x) := p
  if o < 0x100000 then
    if o = 0x28 then (match execFwgo (mergeBytes 0 lo n x) s with | .next t => t | _ => s)
    else s.devWrite pf (o + lo) n x
  else if 0x120000 ≤ o ∧ o < 0x121000 then { s with outTable := writeTable s.outTable 2 (o - 0x120000) lo n x }
  else if 0x130000 ≤ o ∧ o < 0x132000 then { s with inTable := writeTable s.inTable 4 (o - 0x130000) lo n x }
  else if o = 0x1F0000 then { s with duty := (mergeBytes (BitVec.ofNat 64 s.duty.toNat) lo n x).setWidth 7 }
  else s

/-- The share of a write that falls in a block of 32 bytes, an entry or a record of its window: offset of the block, first byte in it,
number of bytes, bytes. Bytes past doubleword 2 of a save-area entry are ignored. -/
def State.writePf32 (s : State) (p : Nat × Nat × Nat × Nat) : State :=
  let (o, lo, n, x) := p
  if 0x110000 ≤ o ∧ o < 0x112000 then s.regionWrite { fn := 16, record := (o - 0x110000) / 32, dw := lo / 8, lo := lo % 8, n, data := x }
  else if 0x180000 ≤ o ∧ o < 0x180200 then
    let i := (o - 0x180000) / 32
    if 24 ≤ lo then s else s.setSave i (withBytes 4 (SMap.getD s.saveArea i []) lo (min n (24 - lo)) x)
  else (dwPieces (o + lo) n x).foldl State.writePf s

/-- The same in a block of 64 bytes, the size of a partition entry. -/
def State.writePf64 (s : State) (p : Nat × Nat × Nat × Nat) : State :=
  let (o, lo, n, x) := p
  if 0x100000 ≤ o ∧ o < 0x100400 then
    let i := (o - 0x100000) / 64
    s.setPart i (withBytes 8 (s.part i) lo n x)
  else (blockPieces 32 (o + lo) n x).foldl State.writePf32 s

/-- The share of a block of 32 bytes of a write to a virtual function's BAR 0: its page, and the records its partition owns. -/
def State.writeVf (fn : Fin 17) (s : State) (p : Nat × Nat × Nat × Nat) : State :=
  let (o, lo, n, x) := p
  if o < 0x10000 then (dwPieces (o + lo) n x).foldl (fun s (b, l, k, y) => s.devWrite fn (b + l) k y) s
  else
    let i := (o - 0x10000) / 32
    let part := nth (s.part fn.val) 0 0
    if fld part 55 48 ≤ i then s
    else s.regionWrite { fn := fn.val, record := fld part 47 40 + i, dw := lo / 8, lo := lo % 8, n, data := x }

/-- REGISTER_WRITE: bytes to a BAR window; read-only and unlisted offsets ignore it. The bytes of one write that fall in one entry or
record are checked together (R396, R397, R436). -/
def execRegisterWrite (fn bar off len data : Nat) (s : State) : Out :=
  if !s.fnOpen fn then .next s
  else if bar = 2 then
    .next (if fn = 16 ∧ s.phase ≠ .ready ∧ off + len ≤ 268435456 then { s with staging := Memory.writeN s.staging off len data } else s)
  else if bar ≠ 0 then .next s
  else .next (if fn = 16 then (blockPieces 64 off len data).foldl State.writePf64 s
    else (blockPieces 32 off len data).foldl (State.writeVf (fnIx fn)) s)

end Sys2Proof.Machine
end

