-- ==== Sys2Proof/Machine/Branch.lean ====
section
/-!
DEFINITION. Branches and jumps (R93–R96).
-/

namespace Sys2Proof.Machine

open Sys2Proof

/-- A target 4 × offset from the PC. -/
def State.relPc (s : State) (off : Word) : Word := s.st.pc + off * 4

/-- Compare and branch (R93). -/
def branch (c : Word → Word → Bool) (a b : GReg) (o : BitVec 14) : M Word := do
  hazard [a, b] []
  let s ← get
  return if c (s.g a) (s.g b) then s.relPc (o.signExtend 64) else s.nextPc

def execBeq (a b : GReg) (o : BitVec 14) (s : State) : Out := runJump s (branch (fun x y => x == y) a b o)
def execBne (a b : GReg) (o : BitVec 14) (s : State) : Out := runJump s (branch (fun x y => x != y) a b o)
def execBlt (a b : GReg) (o : BitVec 14) (s : State) : Out := runJump s (branch (fun x y => x.slt y) a b o)
def execBge (a b : GReg) (o : BitVec 14) (s : State) : Out := runJump s (branch (fun x y => !x.slt y) a b o)
def execBltu (a b : GReg) (o : BitVec 14) (s : State) : Out := runJump s (branch (fun x y => x.ult y) a b o)
def execBgeu (a b : GReg) (o : BitVec 14) (s : State) : Out := runJump s (branch (fun x y => !x.ult y) a b o)

/-- Ones among bits 0 to VL - 1 of a mask register (R94, R186). -/
def State.maskCount (s : State) (m : MReg) (vl : Nat) : Nat := ((upTo vl).filter (s.mbit m)).length

/-- A mask branch (R94): VMS has no effect on it. -/
def maskBranch (c : Nat → Nat → Bool) (a : MReg) (o : BitVec 14) : M Word := do
  maskHazard a
  let s ← get
  return if c (s.maskCount a s.st.ctl.vl) s.st.ctl.vl then s.relPc (o.signExtend 64) else s.nextPc

def execBmz (a : MReg) (o : BitVec 14) (s : State) : Out := runJump s (maskBranch (fun n _ => n == 0) a o)
def execBmnz (a : MReg) (o : BitVec 14) (s : State) : Out := runJump s (maskBranch (fun n _ => n != 0) a o)
def execBmall (a : MReg) (o : BitVec 14) (s : State) : Out := runJump s (maskBranch (fun n vl => n == vl) a o)

def execJmp (o : BitVec 26) (s : State) : Out := runJump s (do return (← get).relPc (o.signExtend 64))
def execJal (o : BitVec 26) (s : State) : Out :=
  runJump s (do
    hazard [31] []
    let s ← get
    set (s.setG 31 s.nextPc)
    return s.relPc (o.signExtend 64))
def execJr (d a : GReg) (i : BitVec 14) (s : State) : Out :=
  runJump s (do
    hazard [d, a] []
    let s ← get
    set (s.setG d s.nextPc)
    return (s.g a + i.signExtend 64) >>> 2 <<< 2)

end Sys2Proof.Machine
end

