-- ==== Sys2Proof/Machine/CollEng.lean ====
section
/-!
DEFINITION. The collective engine's commands (R332), collectives and membership as the control die keeps them (R322, R333,
R442–R444).
-/

namespace Sys2Proof.Machine

open Sys2Proof

/-! ### Generations (R442, R443) -/

/-- A superseded generation's uncommitted contributions are discarded. -/
def State.discard (s : State) (gid gen : Nat) : State :=
  { s with contribs := s.contribs.filter fun c => c.gid != gid || decide (gen ≤ c.gen) || s.committed.contains (c.gid, c.gen, c.form, c.seq) }

/-- A handle of a group that is gone keeps the last generation in which its strand was a member. -/
def staleHandle (gid : Nat) (last : Option Nat) (h : Option Handle) : Option Handle :=
  h.map fun h => if h.gid = gid ∧ h.gen < 2 ^ 32 then { h with gen := last.getD h.gen + 2 ^ 32 } else h

/-- What becomes of a collective whose group is destroyed: it stands where it had committed (R443). -/
def State.collFate (s : State) (gid form : Nat) (k : Option CollAt) : Option CollAt :=
  k.map fun k =>
    if k.gid = gid ∧ k.fate = .standing then
      { k with fate := match (if s.isCommitted k form then s.gathered k form else none) with | some cs => .kept cs | none => .lost }
    else k

/-- A strand's share in a group that is destroyed: stale handles, a join that fails, the fate of its collectives (R321, R329, R332). -/
def State.ungroupStrand (s : State) (gid : Nat) (t : Strand) : Strand :=
  { t with
    q := t.q.map (staleHandle gid (SMap.find t.memberOf gid))
    memberOf := SMap.del t.memberOf gid
    coll := s.collFate gid 0 t.coll, collOff := s.collFate gid 0 t.collOff
    fifo := t.fifo.map fun f => { f with coll := s.collFate gid 1 f.coll }
    joinRefused := t.joinRefused || t.asked == some gid
    refusedOff := t.refusedOff || t.askedOff == some gid }

/-- A group is destroyed: its contributions are discarded. -/
def State.ungroup (s : State) (gid : Nat) : State :=
  { s with
    groups := s.groups.filter fun g => g.gid != gid
    contribs := s.contribs.filter fun c => c.gid != gid
    committed := s.committed.filter fun c => c.1 != gid
    st := s.ungroupStrand gid s.st
    others := s.others.map fun x => (x.1, s.ungroupStrand gid x.2) }

/-- A member of a generation remembers it (R329). -/
def State.remember (s : State) (g : Group) (t : Strand) : Strand :=
  if g.members.contains (s.mid t.sn) then { t with memberOf := SMap.put t.memberOf g.gid g.gen } else t

/-- Put a group's record in place of any other of its identifier. -/
def State.putGroup (s : State) (g : Group) : State :=
  { s with
    groups := s.groups.filter (fun x => x.gid != g.gid) ++ [g]
    st := s.remember g s.st
    others := s.others.map fun x => (x.1, s.remember g x.2) }

/-- A copy of a record on this package: kept as one without members where none of them is of this package. -/
def State.copyPhase (s : State) (members : List Nat) : Nat :=
  if members.any fun m => m / 65536 == s.handle.toNat then 0 else 3

/-- A generation has been formed, and is STABLE, as the other packages are told: GEN goes up, counts start again, requests that came
later open the next formation, at the home of the new generation. -/
def State.enterGen (s : State) (g : Group) : State :=
  let s := s.discard g.gid (g.gen + 1)
  if g.next = [] then s.ungroup g.gid
  else
    let g' : Group := { g with
      gen := g.gen + 1, members := g.next, next := [], waiting := [], counts := [], reqs := [], later := [], settled := true, fresh := [], gone := [] }
    let here := g'.home = s.handle.toNat
    let told := (packagesOf (g.members ++ g.next)).filter fun p => p != s.handle.toNat
    let s := { s with fabricOut := s.fabricOut ++ told.map fun p => FabMsg.stable p g.gid (g.gen + 1) }
    let s := s.putGroup { g' with
      phase := if here then (if g.later = [] then 0 else 1) else s.copyPhase g.next
      reqs := if here then g.later else [] }
    if here then s
    else { s with fabricOut := s.fabricOut ++ g.later.map fun r => FabMsg.member g.gid r.1 r.2 g.region }

/-- A join is refused (R329, R442). -/
def State.refuseJoin (s : State) (gid mid : Nat) : State :=
  if mid / 65536 = s.handle.toNat then
    match s.strand? (mid % 65536) with
    | some t => s.setStrand { t with
        joinRefused := t.joinRefused || t.asked == some gid, refusedOff := t.refusedOff || t.askedOff == some gid }
    | none => s
  else { s with fabricOut := s.fabricOut ++ [FabMsg.member gid 3 mid 0] }

/-- A strand of this package that asks to join is live and of the group's region; one of another package has been checked
there. -/
def State.joinable (s : State) (g : Group) (mid : Nat) : Bool :=
  if mid / 65536 = s.handle.toNat then
    match s.strand? (mid % 65536) with
    | some t => t.live && regionDrid (s.regionRec t.region) == g.region
    | none => false
  else true

/-- The members after the requests of a formation, in order, whatever their number; those that joined, in order of arrival, and the joins
refused. -/
def requested (joinable : Nat → Bool) : List (Nat × Nat) → List Nat → List Nat → List Nat → List Nat × List Nat × List Nat
  | [], ms, joined, refused => (ms, joined, refused)
  | (kind, mid) :: r, ms, joined, refused =>
    if kind = 0 then
      if ms.contains mid then requested joinable r ms joined refused
      else if joinable mid then requested joinable r (insertAsc ms mid) (joined ++ [mid]) refused
      else requested joinable r ms joined (refused ++ [mid])
    else requested joinable r (ms.filter fun m => m != mid) (joined.filter fun m => m != mid) refused

/-- Apply the requests of a formation in order: the members, and the joins refused, the last to arrive where there would be more than 4,096
members (R442; assumption log 57). -/
def applyRequests (joinable : Nat → Bool) (reqs : List (Nat × Nat)) (members : List Nat) : List Nat × List Nat :=
  let (ms, joined, refused) := requested joinable reqs members [] []
  let excess := joined.drop (joined.length - (ms.length - 4096))
  (ms.filter fun m => !excess.contains m, refused ++ excess)

/-- The collectives of a generation that have committed. -/
def State.committedOf (s : State) (gid gen : Nat) : List (Nat × Nat) :=
  (s.committed.filter fun c => c.1 == gid && c.2.1 == gen).map fun c => c.2.2
/-- And those that the home says had. -/
def State.commitAll (s : State) (gid gen : Nat) (l : List (Nat × Nat)) : State :=
  { s with committed := s.committed ++ (l.map fun x => (gid, gen, x.1, x.2)).filter fun c => !s.committed.contains c }

/-- The formation has its member list: NEWGEN goes out, or no generation is formed (R442). -/
def State.formGen (s : State) (g : Group) (next refused : List Nat) : State :=
  let s := refused.foldl (fun s m => s.refuseJoin g.gid m) s
  if next = g.members then
    s.mapGroup g.gid fun g => { g with phase := if g.later = [] then 0 else 1, reqs := g.later, later := [] }
  else
    let pkgs := packagesOf (g.members ++ next)
    let s := s.mapGroup g.gid fun g => { g with phase := 2, reqs := [], next, waiting := pkgs }
    { s with fabricOut := s.fabricOut ++
        (pkgs.filter fun p => p != s.handle.toNat).map fun p => FabMsg.newgen p g.gid (g.gen + 1) next (s.committedOf g.gid g.gen) }

/-- A copy of a group's record as the home sends it: a generation after the first is not STABLE yet (R442, R444). -/
def State.copyOf (s : State) (gid region gen root k : Nat) (members : List Nat) : Group :=
  let old := ((s.group? gid).map (·.members)).getD []
  let again := (s.group? gid).any fun g => g.gen == gen
  let fresh := (if again then ((s.group? gid).map (·.fresh)).getD [] else []) ++ members.filter fun m => !old.contains m
  let gone := (if again then ((s.group? gid).map (·.gone)).getD [] else []) ++ old.filter fun m => !members.contains m
  { gid, region, gen, members, root, k, phase := s.copyPhase members, reqs := [], later := [], next := [], waiting := [], counts := [],
    settled := gen == 1, fresh := if gen = 1 then [] else fresh, gone := if gen = 1 then [] else gone, holders := [] }

/-- NEWGEN: the home sends it for the formation it holds, or asks the host for the member list; elsewhere the record given
replaces the copy at one instant, the collectives that had committed stand, and it is acknowledged (R443; assumption log 56). -/
def execNewgen (gid region gen root k : Nat) (members : NewMembers) (s : State) : Out :=
  match (s.groups.find? fun g => g.gid == gid && s.isHome g) with
  | some g =>
    if g.phase ≠ 1 then .next s
    else if s.act.getLsbD 3 then
      let post := HostPost.members gid g.reqs
      .next (if s.hostPosts.contains post then s else { s with hostPosts := s.hostPosts ++ [post] })
    else
      let (next, refused) := applyRequests (s.joinable g) g.reqs g.members
      .next (s.formGen g next refused)
  | none =>
    let s := s.commitAll gid (gen - 1) members.committed
    let s := if members.mids = [] then s.ungroup gid
      else (s.discard gid gen).putGroup (s.copyOf gid region gen root k members.mids)
    .next { s with fabricOut := s.fabricOut ++ [FabMsg.newgenAck s.handle.toNat gid gen] }

/-- NEWGEN_ACK: the last one completes the formation; a package acknowledges the record of a new group too (R455). -/
def execNewgenAck (gid gen pkg : Nat) (s : State) : Out :=
  match s.group? gid with
  | none => .next s
  | some g =>
    if g.phase = 2 ∧ gen = g.gen + 1 ∧ g.waiting.contains pkg = true then
      let g := { g with waiting := g.waiting.filter fun p => p != pkg }
      .next (if g.waiting = [] then s.enterGen g else s.mapGroup gid fun _ => g)
    else if gen = 1 ∧ g.holders.contains pkg = true then
      .next (s.mapGroup gid fun g => { g with holders := g.holders.filter fun p => p != pkg })
    else .next s

/-- NEWGEN_TIMEOUT: the package's members are treated as withdrawn in the formation, which the other packages are told; a
management event is sent (R444). -/
def execNewgenTimeout (gid pkg : Nat) (s : State) : Out :=
  match s.group? gid with
  | none => .next s
  | some g =>
    if g.phase = 2 ∧ g.waiting.contains pkg = true ∧ pkg ≠ s.handle.toNat then
      let next := g.next.filter fun m => m / 65536 % 1024 != pkg
      let g' := { g with next, waiting := g.waiting.filter fun p => p != pkg }
      let others := (packagesOf (g.members ++ next)).filter fun p => p != s.handle.toNat && p != pkg
      let s := { s with fabricOut := s.fabricOut ++ others.map fun p => FabMsg.newgen p gid (g.gen + 1) next (s.committedOf gid g.gen) }
      let s := s.manageWith none []
      .next (if g'.waiting = [] then s.enterGen g' else s.mapGroup gid fun _ => g')
    else .next s

/-- The host's member list breaks no rule (R442). -/
def State.listOk (s : State) (g : Group) (members : List Nat) : Bool :=
  let asked := fun (kind mid : Nat) => g.reqs.contains (kind, mid)
  members.all (fun m => (g.members.contains m || asked 0 m) && !asked 1 m && !asked 2 m && (g.members.contains m || s.joinable g m)) &&
  decide (members.length ≤ 4096)

/-- HOST_MEMBER_LIST: a list that breaks a rule is refused, and the requests are applied instead (R410, R442). -/
def execHostMemberList (gid : Nat) (members : List Nat) (s : State) : Out :=
  match (s.groups.find? fun g => g.gid == gid && s.isHome g && g.phase == 1 && s.hostPosts.contains (HostPost.members gid g.reqs)) with
  | none => .next s
  | some g =>
    let s := { s with hostPosts := s.hostPosts.filter fun p => p != HostPost.members gid g.reqs }
    if s.listOk g members then
      let next := members.foldl insertAsc []
      let refused := (g.reqs.filter fun r => r.1 == 0 && !next.contains r.2).map (·.2)
      .next (s.formGen g next refused)
    else
      let (next, refused) := applyRequests (s.joinable g) g.reqs g.members
      .next ((s.formGen g next refused).manageWith none [])

/-- A generation is STABLE at its home (R442): requests that came to a new home before open its next formation. -/
def Group.stable (g : Group) : Group :=
  { g with settled := true, fresh := [], gone := [], phase := if g.phase = 0 ∧ g.later ≠ [] then 1 else g.phase,
           reqs := if g.phase = 0 then g.later else g.reqs, later := if g.phase = 0 then [] else g.later }

/-- MEMBERSHIP_REQUEST: a request of another package at the home, a join refused where there is no such group or its strand is of
another region; or the home's refusal of a join (kind 3) (assumption log 57). -/
def execMembershipRequest (gid kind who : Nat) (s : State) : Out :=
  let mid := who % 2 ^ 26
  let drid := who / 2 ^ 26
  if kind = 3 then
    .next (if mid / 65536 = s.handle.toNat then s.refuseJoin gid mid else s)
  else
    match (s.groups.find? fun g => g.gid == gid && g.phase != 3 && g.home == s.handle.toNat) with
    | some g => .next (if kind = 0 ∧ drid ≠ g.region then s.refuseJoin gid mid else s.mapGroup g.gid fun g =>
        if g.settled then g.request kind mid else { g with later := g.later ++ [(kind, mid)] })
    | none => .next (if kind = 0 then s.refuseJoin gid mid else s)

/-! ### Contributions (R322, R443) -/

/-- CONTRIBUTION: refused under a remap generation that is not accepted here (R446); kept unless its generation has been superseded and
its collective had not committed (R443). One of a group or a generation that this package does not know of yet is kept for it. -/
def execContribution (gid : Nat) (gen : ColGen) (form seq rank : Nat) (a b : Word) (elems : List (Word × Grade)) (idx : List Nat)
    (s : State) : Out :=
  let old := (s.group? gid).any fun g => decide (gen.gen < g.gen)
  if s.genAccepted gen.rgen = false ∨ (old && !s.committed.contains (gid, gen.gen, form, seq)) then .next s
  else .next (s.contribute
    { gid, gen := gen.gen, form, seq, rank, a, b, elems := elems.map fun x => { val := x.1, grade := x.2 }, idx })

/-- COLLECTIVE_COMPLETE: at the group's home, whose engine forms the root (assumption log 108), the collective holds the contribution of
every rank of the current generation, and commits; none does once the home has sent NEWGEN (R443). Elsewhere the home's notice arrives. -/
def execCollectiveComplete (gid gen form seq : Nat) (s : State) : Out :=
  match s.group? gid with
  | none => .next s
  | some g =>
    let k : CollAt := { gid, gen, seq, rank := 0, size := g.members.length, root := 0, k := g.k, fate := .standing }
    let commit := { s with committed := s.committed ++ [(gid, gen, form, seq)] }
    if g.gen ≠ gen ∨ s.isCommitted k form = true then .next s
    else if s.isHome g then
      if g.phase ≠ 2 ∧ (s.gathered k form).isSome = true then
        .next { commit with fabricOut := s.fabricOut ++
          ((packagesOf g.members).filter fun p => p != s.handle.toNat).map fun p => FabMsg.committed p gid gen form seq }
      else .next s
    else .next commit

/-! ### The engine's commands (R332) -/

/-- The collective engine of a die. -/
def collEngine (die : Nat) : EngineUnit := { sel := 6, die := coreDie (die * 128), sect := none }

def stGROUP {α : Type} (c : Command) : M α := failWith 0x10 c.addr

/-- The domain region of a command's strand. -/
def dridOf (a : Agent) : M Nat := do return regionDrid ((← get).regionRec a.region)

/-- A MID names a live strand of a region: of this package, or one that its package has not named as bad. -/
def State.midOk (s : State) (bad : List Nat) (drid mid : Nat) : Bool :=
  if mid / 65536 = s.handle.toNat then
    match s.strand? (mid % 65536) with
    | some t => t.live && regionDrid (s.regionRec t.region) == drid
    | none => false
  else !bad.contains mid

/-- COLL_CREATE (R332); GID 0 is refused with BADCMD (assumption log 55). -/
def collCreateBody (taken : Bool) (bad : List Nat) (elsewhere : Nat) (_t : Strand) (c : Command) (a : Agent) : M Progress := do
  let gid := fld (c.w 2) 31 0
  let size := fld (c.w 2) 47 32
  let root := fld (c.w 3) 15 0
  cmdRule c (c.code == 1 && c.spec == 0 && addrOk (c.w 1) && fld (c.w 2) 63 48 == 0 && fld (c.w 3) 63 21 == 0 &&
    ((c.dw.drop 4).all fun x => x == 0) && gid != 0 && decide (1 ≤ size) && decide (size ≤ 4096) && decide (root < size))
  let mids ← (upTo size).mapM fun i => agentRead a ((c.w 1).toNat + 4 * i) 4
  cmdRule c (mids.all fun m => decide (m < 2 ^ 26))
  let drid ← dridOf a
  let s ← get
  if taken || s.groups.any (fun g => g.gid == gid && g.phase != 3) then failWith 0x12 c.addr
  if mids.eraseDups.length ≠ size ∨ mids.all (s.midOk bad drid) = false then stGROUP c
  if 1024 ≤ (s.groups.filter fun g => g.region == drid && g.phase != 3).length + elsewhere then failWith 0x13 c.addr
  let members := mids.foldl insertAsc []
  let far := (packagesOf members).filter fun p => p != s.handle.toNat
  let s := { s with contribs := s.contribs.filter fun x => x.gid != gid }
  let s := s.putGroup { s.copyOf gid drid 1 root (fld (c.w 3) 20 16) members with holders := far }
  set { s with fabricOut := s.fabricOut ++ if far = [] then [] else [FabMsg.group gid drid 1 root (fld (c.w 3) 20 16) members] }
  if far = [] then return doneEmpty else return .begun none

/-- A CREATE that waits has every member package's word that it holds the record (R455), or its group is gone. -/
def State.created (s : State) (c : Command) : Bool := c.code == 1 && (s.group? (fld (c.w 2) 31 0)).all fun g => g.holders.isEmpty

/-- COLL_CREATE: the engine finishes one that every member package holds, or takes the next command; one of an unlisted code fails here
too. -/
def execCollCreate (die : Nat) (taken : Bool) (bad : List Nat) (elsewhere : Nat) (s : State) : Out :=
  match (s.runningOf (collEngine die)).find? fun x => s.created x.2 with
  | some (t, c) => .next (engineWork s (collEngine die) t c fun _ => pure doneEmpty)
  | none => runEngine s (collEngine die) (fun c => c.code == 1 || c.code == 0 || decide (3 < c.code)) (collCreateBody taken bad elsewhere)

/-- The region of a group that this package holds no current record of (assumption log 17): none, or the region. -/
def State.peerGroup (s : State) (gid : Nat) : Option Nat :=
  if gid = 0 then none else match Config.peerAnswer [1, s.stepNo, gid] with
  | 0 => none
  | n + 1 => some n

def collDestroyBody (_t : Strand) (c : Command) (a : Agent) : M Progress := do
  let gid := fld (c.w 1) 31 0
  cmdRule c (c.spec == 0 && fld (c.w 1) 63 32 == 0 && (c.dw.drop 2).all fun x => x == 0)
  let drid ← dridOf a
  let s ← get
  let region := match s.group? gid with
    | some g => if g.phase = 3 then s.peerGroup gid else some g.region
    | none => s.peerGroup gid
  if region ≠ some drid then stGROUP c
  let local_ := match s.group? gid with
    | some g => g.members.all fun m => m / 65536 == s.handle.toNat
    | none => false
  let s := s.ungroup gid
  set (if local_ then s else { s with fabricOut := s.fabricOut ++ [FabMsg.ungroup gid] })
  return doneEmpty

def execCollDestroy (die : Nat) (s : State) : Out := runEngine s (collEngine die) (fun c => c.code == 2) collDestroyBody

/-! ### MEMCOLL -/

def colOpOf (n : Nat) : ColOp := if n = 0 then .sum else if n = 1 then .min else if n = 2 then .max else if n = 3 then .and else if n = 4 then .or else .xor

/-- The kind of a MEMCOLL, and its field rules. -/
def Command.colKind (c : Command) : ColKind :=
  { op := fld (c.w 3) 34 32, opr := fld (c.w 3) 37 35, ty := ElTy.ofCode (fld (c.w 3) 40 38), topk := false }
def memcollRule (c : Command) : Bool :=
  let k := c.colKind
  c.spec == 0 && addrOk (c.w 1) && addrOk (c.w 2) && fld (c.w 3) 63 41 == 0 && fld (c.w 4) 63 32 == 0 && fld (c.w 4) 31 0 != 0 &&
  c.w 5 == 0 && c.w 6 == 0 && c.w 7 == 0 && decide (k.op ≤ 5) &&
  (if k.op ≤ 1 then decide (k.opr ≤ 5) && (colOpOf k.opr).ok k.ty false else k.opr == 0)

/-- The shape rule that holds for MEMCOLL: no limit of 128. -/
def memShapeOk (k : ColKind) (size n : Nat) : Bool := k.op != 5 || n % size == 0

/-- The engine takes a MEMCOLL: it joins the current generation and contributes. -/
def memcollBody (t : Strand) (c : Command) (a : Agent) : M Progress := do
  cmdRule c (memcollRule c)
  let k := c.colKind
  let n := fld (c.w 4) 31 0
  let gid := fld (c.w 3) 31 0
  let s ← get
  let mid := s.mid t.sn
  match s.group? gid with
  | none => stGROUP c
  | some g =>
    if !g.members.contains mid then stGROUP c
    let rank := g.rankOf mid
    let count := if !memShapeOk k g.members.length n then 0
      else if k.op = 4 ∧ rank = g.rootRank then g.members.length * n else n
    let xs ← (upTo count).mapM fun i => followEl a k.ty ((c.w 1).toNat + 8 * i)
    let seq := (SMap.getD g.counts mid (0, 0)).2 + 1
    sendContrib g mid
      { gid, gen := g.gen, form := 1, seq, rank, a := headerA k g.gen 1, b := BitVec.ofNat 64 n, elems := xs, idx := [] }
    return .begun (some { gid, gen := g.gen, seq, rank, size := g.members.length, root := g.rootRank, k := g.k, fate := .standing })

/-- Write element e of the result. -/
def putElem (a : Agent) (ty : ElTy) (va : Nat) (x : Elem) : M Unit := do
  match ty with
  | .int _ => agentWrite a va 8 x.val.toNat .int
  | .fp _ =>
    cvAligned a .store va 8 true
    agentWrite a va 8 x.val.toNat (.word x.grade)

/-- A MEMCOLL whose collective is over: superseded or destroyed before it committed, or complete. -/
def memcollEnd (at_ : CollAt) (_t : Strand) (c : Command) (a : Agent) : M Progress := do
  let k := c.colKind
  let n := fld (c.w 4) 31 0
  let s ← get
  let held := match at_.fate with
    | .kept cs => some cs
    | .lost => none
    | .standing => if s.isCommitted at_ 1 then s.gathered at_ 1 else none
  match held with
  | none => stGROUP c
  | some cs =>
    if cs.any fun x => x.a != headerA k at_.gen 1 || x.b != BitVec.ofNat 64 n then failWith 0x11 c.addr
    if !memShapeOk k at_.size n then stGROUP c
    let span := if k.op = 2 ∨ k.op = 3 then at_.size * n else n
    let out := (upTo span).filterMap fun e => (colElem k cs n at_.rank at_.root e).map fun x => (e, x)
    engFlag (out.foldl (fun f x => f ||| x.2.2) (0 : BitVec 6))
    for x in out do putElem a k.ty ((c.w 2).toNat + 8 * x.1) x.2.1
    return .done { addr := (c.w 2).toNat, len := 8 * out.length, flags := 0 }

/-- The collective of a MEMCOLL waits no longer. -/
def State.collOver (s : State) (k : CollAt) : Bool :=
  k.fate != .standing || s.isCommitted k 1 || match s.group? k.gid with
    | none => true
    | some g => decide (k.gen < g.gen)

/-- MEMCOLL: the engine finishes a command whose collective is over, or takes the next one. -/
def execMemcoll (die : Nat) (s : State) : Out :=
  let u := collEngine die
  match (s.runningOf u).filterMap fun x => match (x.1.fifo[u.sel]).coll with
    | some k => if s.collOver k then some (x.1, x.2, k) else none
    | none => none with
  | (t, c, k) :: _ => .next (engineWork s u t c (memcollEnd k t c))
  | [] => runEngine s u (fun c => c.code == 3) memcollBody

end Sys2Proof.Machine
end

