-- ==== Sys2Proof/Machine/Exc.lean ====
section
/-!
DEFINITION. The traps of a word that no instruction stands in: it decodes to nothing (R52, R53), or it cannot be fetched (R96).
-/

namespace Sys2Proof.Machine

open Sys2Proof

/-- A word of a major whose instructions are vector instructions, or of `vld.acq`, `vst.rel` or `vsync` in ORD (R70, Table 3-3):
its decode trap waits for the queue (R53). -/
def vectorMajor (w : InstrWord) : Bool :=
  (decide (0x23 ≤ wMaj w) && decide (wMaj w ≤ 0x2C)) || wMaj w == 0x2E || wMaj w == 0x32 ||
  (wMaj w == 0x2F && ((decide (5 ≤ wFn w / 16) && decide (wFn w / 16 ≤ 8)) || wFn w / 16 == 10))

/-- ILLEGAL_INSTRUCTION: ILL, with the word in TVAL. An entry of a restored queue that decodes to nothing raises it too. -/
def execIllegalInstruction (w : InstrWord) (s : State) : Out :=
  let t : Trap := { code := cILL, val := w.setWidth 64, elem := 0 }
  match s.st.issue with
  | some n => .next (s.takeTrap t (.entry n))
  | none =>
    if vectorMajor w && !s.st.vq.isEmpty then .next (s.waiting .queue)
    else .next (s.takeTrap t s.checkSrc)

/-- INSTRUCTION_FETCH_FAULT: the cause of the walk or the check, with the address in TVAL and TPC. -/
def execInstructionFetchFault (code : Nat) (va : Word) (s : State) : Out :=
  .next (s.takeTrap { code, val := va, elem := 0 } (.scalar s.st.pc none))

/-- Events that a strand's own next word raises: no turn of another agent does. -/
def raisedByWord : Instr → Bool
  | .illegalInstruction _ | .instructionFetchFault .. => true
  | _ => false

end Sys2Proof.Machine
end

