-- ==== Sys2Proof/Machine/Fabric.lean ====
section
/-!
DEFINITION. The fabric as seen from this package (R269, R331, R407, R408): requests and trains that arrive from other packages,
and the answers to this package's own.
-/

namespace Sys2Proof.Machine

open Sys2Proof

/-! ### The inbound table (Table 25-7, R408) -/

/-- What an access through the fabric needs of an entry. -/
inductive Grant | r | w | a
  deriving DecidableEq, Repr

def grantBit : Grant → Nat | .r => 1 | .w => 2 | .a => 3
def Grant.acc : Grant → Acc | .r => .load | .w => .store | .a => .rmw

/-- A valid inbound entry with no bit outside its fields. -/
def inboundOk (e : List Word) : Bool :=
  let w := nth e 0 0
  fbit w 0 && fld w 7 4 == 0 && fld w 63 52 == 0 && fld (nth e 1 0) 63 55 == 0 && fld (nth e 1 0) 15 0 == 0 &&
  fld (nth e 2 0) 63 33 == 0 && nth e 3 0 == 0

/-- The local region and the base of the entry that serves an element. -/
def State.inbound (s : State) (src drid addr : Nat) (g : Grant) : Option (Nat × Nat) :=
  (s.inTable.find? fun (_, e) =>
    let w := nth e 0 0
    inboundOk e && fbit w (grantBit g) && fld w 31 16 == drid && decide (fld w 41 32 ≤ src) && decide (src ≤ fld w 51 42) &&
    decide (addr < fld (nth e 2 0) 32 0 * 65536)).map fun (_, e) => (fld (nth e 0 0) 15 8, (nth e 1 0).toNat)

/-- The place of an address of a local region, for an element of another package (R399–R401), in mode P (assumption log 23). -/
def inboundLoc (region : Nat) (acc : Acc) (va : Nat) : M Loc := do
  let s ← get
  let partn := regionPart (s.regionRec region)
  if !regionValid (s.regionRec region) || decide (scratchBase ≤ va) then raise cXLATE 0 0
  match ← walkM inboundWho partn region acc va with
  | .error c => raise c 0 0
  | .ok (leaf, large) =>
    match (← get).leafLoc partn region .p acc leaf large va with
    | .error c => raise c 0 0
    | .ok (.remote ..) => raise cXLATE 0 0
    | .ok (.dev fn off) => pure (.dev fn off)
    | .ok (.mem key kind sc) =>
      reach controlDie ((Loc.mem key kind sc).homes (acc != .load)) 0 0
      pure (.mem key kind sc)

/-- A computation for one element: whether it was performed; one refused has done nothing, but that an uncorrectable line it found
sets RRS.UE (Table 28-4). -/
def tryElem {α : Type} (m : M α) : M (Option α) := fun s =>
  match m s with
  | .ok x t => .ok (some x) t
  | .error (.trap t) _ => .ok none (if t.code = cMEMERR then s.setRrs 4 else s)
  | .error (.wait w) t => .error (.wait w) t

/-- Where an element is performed, or a refusal. -/
def inboundPlace (src drid addr n : Nat) (g : Grant) : M Loc := do
  match (← get).inbound src drid addr g with
  | none => raise cPERM 0 0
  | some (region, base) =>
    let va := base + addr
    if va / 65536 ≠ (va + n - 1) / 65536 then raise cPERM 0 0
    inboundLoc region g.acc va

/-- The partition of the region that serves an element. -/
def State.inboundPartn (s : State) (src drid addr : Nat) (g : Grant) : Nat :=
  ((s.inbound src drid addr g).map fun x => regionPart (s.regionRec x.1)).getD 0

/-- Read the bytes of a place, with the sidecar word that the request's note (`loadNote`) asks for: an uncorrectable line refuses
them, and so does a GT page a part of a misaligned FP datum (R116). -/
def placeRead (note : Nat) (loc : Loc) (n : Nat) : M (Nat × Option Grade) := do
  let s ← get
  match loc with
  | .remote .. => raise cPERM 0 0
  | .dev fn off =>
    if off % alignUnit n ≠ 0 ∨ 8 < alignUnit n then raise cPERM 0 0 else pure (s.devRead (fnIx fn) off n, none)
  | .mem key _ sc =>
    if note = 2 ∧ sc.isSome then raise cPERM 0 0
    if !s.lineOk key n then raise cMEMERR 0 0
    match (if note = 0 then none else sc) with
    | none => pure (Memory.readN s.mem key n, none)
    | some k =>
      reach controlDie [homeDie k] 0 0
      if !s.lineOk k 2 then raise cMEMERR 0 0
      else pure (Memory.readN s.mem key n, some (BitVec.ofNat 16 (Memory.readN s.mem k 2)))

/-- The sidecar part of a datum that arrives with a grade word, or without: of 4 bytes with a word, the byte of one FP32 value, but
the whole word where an engine brings that (R171, R290, R402). -/
def sideOf (ty n : Nat) (g : Option Grade) : Side :=
  match g with
  | none => .int
  | some w => if n = 4 ∧ ty ≠ 2 then .byte (w.toNat % 256) else .word w

/-- Write the bytes of a place; a part of a misaligned FP datum is refused on a GT page. -/
def placeWrite (ty : Nat) (loc : Loc) (n x : Nat) (g : Option Grade) : M Unit := do
  let s ← get
  match loc with
  | .remote .. => raise cPERM 0 0
  | .dev fn off => if off % n ≠ 0 ∨ 8 < n then raise cPERM 0 0 else set (s.devWrite (fnIx fn) off n x)
  | .mem key _ sc =>
    if ty = 1 && sc.isSome then raise cPERM 0 0
    set ((s.storeBytes key n x).storeSide key n sc (sideOf ty n g))

/-! ### Trains (R331) -/

/-- One element of a train: a store, or a scatter-add in the order of the train (R121), which adds under the FCR that it carries
(assumption log 23). Its flags, and whether it was stored: a sum that traps under the controls it carries is not (R168; assumption
log 31). -/
def trainElem (src kind drid : Nat) (x : TrainElem) : M (BitVec 6 × Bool) := do
  let loc ← inboundPlace src drid x.addr x.len (if kind = 0 then .w else .a)
  let partn := (← get).inboundPartn src drid x.addr (if kind = 0 then .w else .a)
  if kind = 0 then
    asPartn partn (placeWrite x.ty loc x.len x.val x.grade)
    return (0, true)
  else
    match loc with
    | .dev .. => raise cPERM 0 0
    | _ => pure ()
    let ty := ElTy.ofCode (x.ty % 8)
    let (old, g) ← placeRead (if elIsFp ty then (if 8 ≤ x.ty then 2 else 1) else 0) loc x.len
    let full := match ty with | .int _ => 0xFFFF | .fp f => fullGrade f
    let (y, fl, gs) := scatterSum ty x.fcr { val := BitVec.ofNat 64 old, grade := g.getD full }
      { val := BitVec.ofNat 64 x.val, grade := x.grade.getD full }
    if elIsFp ty && ctlTraps x.ctl (elP ty) fl gs then return (fl, false)
    asPartn partn (placeWrite 0 loc x.len y.val.toNat (match ty with | .int _ => none | .fp _ => some y.grade))
    return (fl, true)

/-- What has become of a train: the elements performed, the places of those refused, and the flags of each sum. -/
structure TrainDone where
  count : Nat
  refused : List Nat
  flags : List (BitVec 6)
  deriving DecidableEq, Repr

/-- The elements of a train in order, up to a sum that traps. -/
def trainFrom (src kind drid : Nat) : Nat → List TrainElem → TrainDone → M TrainDone
  | _, [], d => pure d
  | i, x :: r, d => do
    match ← tryElem (trainElem src kind drid x) with
    | none => trainFrom src kind drid (i + 1) r { d with refused := d.refused ++ [i], flags := d.flags ++ [0] }
    | some (fl, true) => trainFrom src kind drid (i + 1) r { d with count := d.count + 1, flags := d.flags ++ [fl] }
    | some (fl, false) => pure { d with flags := d.flags ++ [fl] }

/-- ELEMENT_TRAIN: stores (0) and scatter-adds (1) are performed and acknowledged with their count. Contributions and
acknowledgements (2 and 3) are events of their own; an unlisted KIND is discarded and counted as a link error. -/
def execElementTrain (src tag kind drid rgen : Nat) (elems : List TrainElem) (s : State) : Out :=
  if 2 ≤ kind then .next (if 4 ≤ kind then { s with linkErrors := s.linkErrors + 1 } else s)
  else runInbound s (do
    let d ← if (← get).genAccepted rgen then trainFrom src kind drid 0 elems { count := 0, refused := [], flags := [] }
      else pure { count := 0, refused := upTo elems.length, flags := [] }
    modify fun s => { s with fabricOut := s.fabricOut ++ [FabMsg.ack tag src d.count d.refused d.flags] })

/-- The strand that a request of this package belongs to. -/
def State.ownerOf (s : State) (tag : Nat) : Option Strand := s.strands.find? fun t => t.remote.any fun r => r.tag == tag

/-- An answer to a request of a strand, or else of the control die; what waits for it may complete. -/
def State.answer (s : State) (tag : Nat) (x : Option (Nat × Option Grade)) : State :=
  match s.ownerOf tag with
  | none => { s with binderRemote := s.binderRemote.map fun r => if r.tag = tag then { r with answer := some x } else r }
  | some t => s.setStrand { t with remote := t.remote.map fun r => if r.tag = tag then { r with answer := some x } else r }

/-- An acknowledgement that the format allows for a train that was sent: every element performed or refused, or those below a sum
at which its home stopped (assumption log 31). -/
def State.ackFits (s : State) (tag count : Nat) (refused : List Nat) : Bool :=
  let es := s.trainElems tag
  refused.all (· < es.length) &&
    (count + refused.length == es.length || (refused == [] && match es[count]? with
      | some x => x.grade.isSome && ctlArmed x.ctl
      | none => false))

/-- TRAIN_ACK: a refused element ends the issuing strand with a strand failure (R408); one of the control die's is dropped (R349). -/
def execTrainAck (tag count : Nat) (refused : List Nat) (s : State) : Out :=
  if !s.ackFits tag count refused then .next s
  else match s.ownerOf tag with
  | none => .next (s.answer tag (some (count, none)))
  | some t =>
    let s := s.answer tag (some (count, none))
    match refused with
    | [] => .next s
    | i :: _ =>
      let t := (s.strand? t.sn).getD t
      .next (if t.live then (s.fail t cPERM (BitVec.ofNat 64 ((((s.trainElems tag)[i]?).map (·.va)).getD 0))).superTrap t else s)

/-! ### Loads and atomics (R266, R278, R380) -/

/-- An atomic at its home, asked for from another package. -/
def inboundAtomic (loc : Loc) (op n x y : Nat) (grade : Option Grade) : M (Nat × Option Grade) := do
  match loc with
  | .mem key _ sc =>
    if key % n ≠ 0 then raise cPERM 0 0
    let (old, go) ← placeRead 3 loc n
    if op = claimCode then
      modify fun s => s.claimAt key sc old x
      return (old, none)
    else
      let k := amoOfCode (op - 1)
      if k = .fadd then
        let gold := amoGrade n key go
        let r := amoSum n (rmOfCode (y % 4)) old gold x ((grade.getD 0).toNat)
        if !amoTraps y n r then
          placeWrite 0 loc n r.pat (some (if n = 4 then BitVec.ofNat 16 r.grade else gradeWord .f64 [r.grade]))
        return (old, go)
      else
        match amoInt k n old x y with
        | some z => placeWrite 0 loc n z none
        | none => pure ()
        return (old, none)
  | _ => raise cPERM 0 0

/-- FABRIC_REQUEST: a load (0), an atomic (1 + its code of Table 15-1) or a claim (16) is performed and answered. -/
def execFabricRequest (src tag drid rgen op addr len x y : Nat) (grade : Option Grade) (s : State) : Out :=
  runInbound s (do
    let s ← get
    let r ← if s.genAccepted rgen = false ∨ 16 < op ∨ len = 0 then pure none
      else tryElem (do
        let loc ← inboundPlace src drid addr len (if op = 0 then .r else .a)
        if op = 0 then placeRead x loc len
        else asPartn (s.inboundPartn src drid addr .a) (inboundAtomic loc op len x y grade))
    modify fun s => { s with fabricOut := s.fabricOut ++ [FabMsg.reply tag src r] })

/-- FABRIC_REPLY: the answer to a load, store or atomic of this package. -/
def execFabricReply (tag : Nat) (answer : Option (Nat × Option Grade)) (s : State) : Out := .next (s.answer tag answer)

end Sys2Proof.Machine
end

