-- ==== Sys2Proof/Machine/Int.lean ====
section
/-!
DEFINITION. Integer register and immediate operations and upper immediates (R83–R87).
-/

namespace Sys2Proof.Machine

open Sys2Proof

/-- An operation on two registers (R85). -/
def intRR (f : Word → Word → Word) (d a b : GReg) : M Unit := do
  hazard [d, a, b] []
  modify fun s => s.setG d (f (s.g a) (s.g b))

/-- An operation on one register (R85, R86). -/
def intR (f : Word → Word) (d a : GReg) : M Unit := do
  hazard [d, a] []
  modify fun s => s.setG d (f (s.g a))

def boolWord (b : Bool) : Word := if b then 1 else 0

/-- Results of Table 4-2. -/
def shL (x : Word) (k : Nat) : Word := x <<< k
def shR (x : Word) (k : Nat) : Word := x >>> k
def shA (x : Word) (k : Nat) : Word := x.sshiftRight k
/-- k = gb[5:0]. -/
def shAmt (y : Word) : Nat := y.toNat % 64
def mulHi (x y : Word) : Word := wordOfInt (x.toInt * y.toInt / 2 ^ 64)
def mulHiU (x y : Word) : Word := BitVec.ofNat 64 (x.toNat * y.toNat / 2 ^ 64)
def divS (x y : Word) : Word := if y = 0 then -1 else wordOfInt (x.toInt.tdiv y.toInt)
def divU (x y : Word) : Word := if y = 0 then -1 else BitVec.ofNat 64 (x.toNat / y.toNat)
def remS (x y : Word) : Word := if y = 0 then x else wordOfInt (x.toInt.tmod y.toInt)
def remU (x y : Word) : Word := if y = 0 then x else BitVec.ofNat 64 (x.toNat % y.toNat)
def leadZeros (x : Word) : Word := BitVec.ofNat 64 (64 - bitLen x.toNat)
def onesOf (x : Word) : Word := BitVec.ofNat 64 (popLow x.toNat 64)
/-- A sign-extended immediate (R86). -/
def imm14 (i : BitVec 14) : Word := i.signExtend 64

def execAdd (d a b : GReg) (s : State) : Out := runScalar s (intRR (fun x y => x + y) d a b)
def execSub (d a b : GReg) (s : State) : Out := runScalar s (intRR (fun x y => x - y) d a b)
def execAnd (d a b : GReg) (s : State) : Out := runScalar s (intRR (fun x y => x &&& y) d a b)
def execOr (d a b : GReg) (s : State) : Out := runScalar s (intRR (fun x y => x ||| y) d a b)
def execXor (d a b : GReg) (s : State) : Out := runScalar s (intRR (fun x y => x ^^^ y) d a b)
def execSll (d a b : GReg) (s : State) : Out := runScalar s (intRR (fun x y => shL x (shAmt y)) d a b)
def execSrl (d a b : GReg) (s : State) : Out := runScalar s (intRR (fun x y => shR x (shAmt y)) d a b)
def execSra (d a b : GReg) (s : State) : Out := runScalar s (intRR (fun x y => shA x (shAmt y)) d a b)
def execSlt (d a b : GReg) (s : State) : Out := runScalar s (intRR (fun x y => boolWord (x.slt y)) d a b)
def execSltu (d a b : GReg) (s : State) : Out := runScalar s (intRR (fun x y => boolWord (x.ult y)) d a b)
def execMin (d a b : GReg) (s : State) : Out := runScalar s (intRR (fun x y => if x.slt y then x else y) d a b)
def execMax (d a b : GReg) (s : State) : Out := runScalar s (intRR (fun x y => if x.slt y then y else x) d a b)
def execMinu (d a b : GReg) (s : State) : Out := runScalar s (intRR (fun x y => if x.ult y then x else y) d a b)
def execMaxu (d a b : GReg) (s : State) : Out := runScalar s (intRR (fun x y => if x.ult y then y else x) d a b)
def execMul (d a b : GReg) (s : State) : Out := runScalar s (intRR (fun x y => x * y) d a b)
def execMulh (d a b : GReg) (s : State) : Out := runScalar s (intRR mulHi d a b)
def execMulhu (d a b : GReg) (s : State) : Out := runScalar s (intRR mulHiU d a b)
def execDiv (d a b : GReg) (s : State) : Out := runScalar s (intRR divS d a b)
def execDivu (d a b : GReg) (s : State) : Out := runScalar s (intRR divU d a b)
def execRem (d a b : GReg) (s : State) : Out := runScalar s (intRR remS d a b)
def execRemu (d a b : GReg) (s : State) : Out := runScalar s (intRR remU d a b)
def execClz (d a : GReg) (s : State) : Out := runScalar s (intR leadZeros d a)
def execPopc (d a : GReg) (s : State) : Out := runScalar s (intR onesOf d a)
def execSlli (d a : GReg) (n : BitVec 6) (s : State) : Out := runScalar s (intR (fun x => shL x n.toNat) d a)
def execSrli (d a : GReg) (n : BitVec 6) (s : State) : Out := runScalar s (intR (fun x => shR x n.toNat) d a)
def execSrai (d a : GReg) (n : BitVec 6) (s : State) : Out := runScalar s (intR (fun x => shA x n.toNat) d a)
def execAddi (d a : GReg) (i : BitVec 14) (s : State) : Out := runScalar s (intR (fun x => x + imm14 i) d a)
def execAndi (d a : GReg) (i : BitVec 14) (s : State) : Out := runScalar s (intR (fun x => x &&& imm14 i) d a)
def execOri (d a : GReg) (i : BitVec 14) (s : State) : Out := runScalar s (intR (fun x => x ||| imm14 i) d a)
def execXori (d a : GReg) (i : BitVec 14) (s : State) : Out := runScalar s (intR (fun x => x ^^^ imm14 i) d a)
def execSlti (d a : GReg) (i : BitVec 14) (s : State) : Out :=
  runScalar s (intR (fun x => boolWord (x.slt (imm14 i))) d a)
def execSltiu (d a : GReg) (i : BitVec 14) (s : State) : Out :=
  runScalar s (intR (fun x => boolWord (x.ult (imm14 i))) d a)

/-- A value that needs no source register (R87). -/
def intC (f : State → Word) (d : GReg) : M Unit := do
  hazard [d] []
  modify fun s => s.setG d (f s)

/-- sext(imm, 20) × 2^14. -/
def upper20 (i : BitVec 20) : Word := i.signExtend 64 <<< 14

def execLhi (d : GReg) (i : BitVec 20) (s : State) : Out := runScalar s (intC (fun _ => upper20 i) d)
def execAdpc (d : GReg) (i : BitVec 20) (s : State) : Out :=
  runScalar s (intC (fun s => (s.st.pc >>> 14 <<< 14) + upper20 i) d)

end Sys2Proof.Machine
end

