-- ==== Sys2Proof/Machine/Topo.lean ====
section
/-!
DEFINITION. The topology engine (R300–R317): mesh versions, refinement and coarsening, renumbering, exports and partitions.
-/

namespace Sys2Proof.Machine

open Sys2Proof

/-! ### Coordinates, exactly -/

/-- A finite FP64 coordinate in units of 2^-1074. -/
def coord? (w : Word) : Option Int :=
  match unpack .f64 w.toNat with
  | .fin sg m e => some (let x : Int := ((m * 2 ^ (e + 1074).toNat : Nat) : Int); if sg then -x else x)
  | _ => none
def coord (w : Word) : Int := (coord? w).getD 0
def point (p : List Word) : List Int := p.map coord

/-- A midpoint coordinate (R306): half the sum, rounded once. -/
def midCoord (a b : Word) : Word :=
  match unpack .f64 a.toNat, unpack .f64 b.toNat with
  | .fin sa _ _, .fin sb _ _ =>
    let x := coord a + coord b
    let r := roundTo .f64 .rne (if x = 0 then sa && sb else decide (x < 0)) x.natAbs (-1075) false
    BitVec.ofNat 64 (packFin .f64 r.s r.m r.e)
  | _, _ => 0

/-- The difference of two points, and the cross product of two vectors. -/
def vsub (p q : List Int) : List Int := (upTo 3).map fun i => nth p i 0 - nth q i 0
def cross (u v : List Int) : List Int :=
  [nth u 1 0 * nth v 2 0 - nth u 2 0 * nth v 1 0, nth u 2 0 * nth v 0 0 - nth u 0 0 * nth v 2 0,
   nth u 0 0 * nth v 1 0 - nth u 1 0 * nth v 0 0]
def dot (u v : List Int) : Int := nth u 0 0 * nth v 0 0 + nth u 1 0 * nth v 1 0 + nth u 2 0 * nth v 2 0
def isNull (u : List Int) : Bool := u.all fun x => x == 0

/-- Two edges share more than a point. -/
def edgesOverlap (p q r t : List Int) : Bool :=
  let d := vsub q p
  let at_ := fun x => dot d (vsub x p)
  isNull (cross d (vsub r p)) && isNull (cross d (vsub t p)) &&
  decide (max (min (at_ p) (at_ q)) (min (at_ r) (at_ t)) < min (max (at_ p) (at_ q)) (max (at_ r) (at_ t)))

/-- The line of an edge of the first triangle separates the second from its third corner, n being the plane's normal. -/
def separates (n p q c : List Int) (tri : List (List Int)) : Bool :=
  let side := fun x => dot n (cross (vsub q p) (vsub x p))
  let own := side c
  tri.all fun x => decide (side x = 0) || (decide (0 < own) != decide (0 < side x))

def corner (t : List (List Int)) (i : Nat) : List Int := nth t (i % 3) []
def someEdgeSeparates (n : List Int) (t u : List (List Int)) : Bool :=
  (upTo 3).any fun i => separates n (corner t i) (corner t (i + 1)) (corner t (i + 2)) u

/-- Two triangles share a part of positive area. -/
def trianglesOverlap (t u : List (List Int)) : Bool :=
  let n := cross (vsub (corner t 1) (corner t 0)) (vsub (corner t 2) (corner t 0))
  u.all (fun x => dot n (vsub x (corner t 0)) == 0) && !someEdgeSeparates n t u && !someEdgeSeparates n u t

/-! ### Cells and adjacency (R305, R306, Table 17-2) -/

/-- The vertices of each child: a vertex of the parent, or the midpoint of two. -/
def childTable (dim : Nat) : List (List (List Nat)) :=
  if dim = 2 then [[[0], [0, 1], [0, 2]], [[0, 1], [1], [1, 2]], [[0, 2], [1, 2], [2]], [[1, 2], [0, 2], [0, 1]]]
  else
    [[[0], [0, 1], [0, 2], [0, 3]], [[0, 1], [1], [1, 2], [1, 3]], [[0, 2], [1, 2], [2], [2, 3]],
     [[0, 3], [1, 3], [2, 3], [3]]] ++
    [[[0, 1], [0, 2], [0, 3], [1, 3]], [[0, 1], [0, 2], [1, 2], [1, 3]], [[0, 2], [0, 3], [1, 3], [2, 3]],
     [[0, 2], [1, 2], [1, 3], [2, 3]]]

/-- Local vertices of face j, and of each edge. -/
def faceLoc (dim j : Nat) : List Nat := (upTo (dim + 1)).filter fun i => i != j
def edgeLocs (dim : Nat) : List (List Nat) :=
  ((upTo (dim + 1)).map fun i => ((upTo (dim + 1)).filter fun j => decide (i < j)).map fun j => [i, j]).flatten

def sortSet (l : List Nat) : List Nat := l.foldl insertAsc []

/-- A face or an edge of a cell, and those of its ancestors that contain it, by their vertices. -/
def chain (dim : Nat) (same : List Nat) : List (List Nat × Nat) → List Nat → List Nat → List (List Nat)
  | [], verts, loc => [sortSet (loc.map fun i => nth same (nth verts i 0) 0)]
  | (pv, k) :: up, verts, loc =>
    let own := sortSet (loc.map fun i => nth same (nth verts i 0) 0)
    let inParent := sortSet (loc.map fun i => nth (nth (childTable dim) k []) i []).flatten
    own :: if inParent.length = loc.length then chain dim same up pv inParent else []

def MCell.chainOf (dim : Nat) (same : List Nat) (c : MCell) (loc : List Nat) : List (List Nat) :=
  chain dim same c.path c.verts loc
def MCell.faces (dim : Nat) (same : List Nat) (c : MCell) : List (List (List Nat)) :=
  (upTo (dim + 1)).map fun j => c.chainOf dim same (faceLoc dim j)
def MCell.edges (dim : Nat) (same : List Nat) (c : MCell) : List (List (List Nat)) := (edgeLocs dim).map (c.chainOf dim same)

/-- One of two faces, or edges, contains the other (assumption log 99). -/
def chainsMeet (x y : List (List Nat)) : Bool :=
  match x.head?, y.head? with
  | some p, some q => x.contains q || y.contains p
  | _, _ => false

/-- Two leaves are adjacent (R305). -/
def cellsAdjacent (dim : Nat) (same : List Nat) (a b : MCell) : Bool :=
  ((a.faces dim same).any fun x => (b.faces dim same).any (chainsMeet x)) ||
  (dim == 3 && (a.edges dim same).any fun x => (b.edges dim same).any (chainsMeet x))

/-- For each vertex, the first one at the same point. -/
def samePoint (verts : List (List Word)) : List Nat :=
  let ps := verts.map point
  ps.map fun p => (ps.takeWhile fun q => q != p).length

def noCell : MCell := { verts := [], level := 0, child := 255, pred := 0, path := [], root := 0, key := 0 }

/-- The neighbour entries of a version, in stream order (R314). -/
def cellEntries (dim : Nat) (same : List Nat) (cells : List MCell) : List Word :=
  let word := fun c n rel f => BitVec.ofNat 64 (c * 2 ^ 40 + n * 2 ^ 16 + rel * 2 ^ 6 + f)
  let all := (cells.map fun c => c.faces dim same).zipIdx
  ((cells.zipIdx).map fun (c, i) => ((c.faces dim same).zipIdx.map fun (fc, j) =>
    let nbs := (all.filter fun (fs, n) => n != i && fs.any (chainsMeet fc)).map (·.2)
    let lvl := fun n => (nth cells n noCell).level
    let finer := nbs.filter fun n => decide (c.level < lvl n)
    if finer ≠ [] then finer.map fun n => word i n 2 j
    else match nbs with
      | [] => [word i 0xFFFFFF 3 j]
      | n :: _ => [word i n (if lvl n < c.level then 1 else 0) j]).flatten).flatten

/-! ### Keys and numbering (R308) -/

/-- The quantised centroid on an axis. -/
def quantised (m : Mesh) (pts : List (List Word)) (axis : Nat) : Nat :=
  let d : Int := m.dim + 1
  let lo := coord (nth m.lo axis 0)
  let hi := coord (nth m.hi axis 0)
  let sum := (pts.map fun p => coord (nth p axis 0)).foldl (· + ·) 0
  clampN ((2 ^ m.kb * (sum - d * lo)) / (d * (hi - lo))) (2 ^ m.kb - 1)

def mortonKey (m : Mesh) (pts : List (List Word)) : Nat :=
  let qs := (upTo m.dim).map (quantised m pts)
  ((upTo m.kb).map fun b => ((upTo m.dim).map fun a => nth qs a 0 / 2 ^ b % 2 * 2 ^ (m.dim * b + a)).foldl (· + ·) 0).foldl (· + ·) 0

/-- One list of numbers before another. -/
def lexLt : List Nat → List Nat → Bool
  | a :: r, b :: t => decide (a < b) || (a == b && lexLt r t)
  | _, _ => false
def insertBy {α : Type} (key : α → List Nat) (x : α) : List α → List α
  | [] => [x]
  | y :: r => if lexLt (key x) (key y) then x :: y :: r else y :: insertBy key x r
def sortBy {α : Type} (key : α → List Nat) (l : List α) : List α := l.foldr (insertBy key) []

def withKey (m : Mesh) (verts : List (List Word)) (c : MCell) : MCell :=
  { c with key := mortonKey m (c.verts.map fun i => nth verts i []) }
/-- The cells of a new version in the order of their ids. -/
def numberCells (m : Mesh) (verts : List (List Word)) (cells : List MCell) : List MCell :=
  sortBy (fun c => [c.key, c.level, c.pred, if c.child = 255 then 0 else c.child]) (cells.map (withKey m verts))

def makeVersion (dim num : Nat) (verts : List (List Word)) (cells : List MCell) : MVersion :=
  { num, verts, cells, entries := cellEntries dim (samePoint verts) cells, holds := 0 }

/-- Bytes of arena that a version occupies (R301). -/
def MVersion.size (v : MVersion) : Nat := 4096 + 64 * v.cells.length + 32 * v.verts.length

/-! ### The engine -/

/-- The topology engine of a die. -/
def topoEngine (die : Nat) : EngineUnit := { sel := 4, die := coreDie (die * 128), sect := none }

def stVERSION {α : Type} (c : Command) : M α := failWith 0x10 c.addr
def stARENA {α : Type} (c : Command) : M α := failWith 0x11 c.addr
def stHANDLE {α : Type} (c : Command) : M α := failWith 0x12 c.addr
def stGEOMETRY {α : Type} (c : Command) : M α := failWith 0x13 c.addr
def stLIMIT {α : Type} (c : Command) : M α := failWith 0x14 c.addr
def stBUSY {α : Type} (c : Command) : M α := failWith 0x15 c.addr

/-- The mesh that a command names (R300). -/
def meshOf (c : Command) (a : Agent) : M Mesh := do
  match (← get).meshes.find? fun m => m.partn == a.partn && m.handle == bits c.spec 15 0 && m.region == a.region with
  | some m => pure m
  | none => stHANDLE c
def versionOf (c : Command) (m : Mesh) (num : Nat) : M MVersion :=
  match m.versions.find? fun v => v.num == num with
  | some v => pure v
  | none => stVERSION c
def State.setMesh (s : State) (m : Mesh) : State :=
  { s with meshes := s.meshes.map fun x => if x.partn = m.partn ∧ x.handle = m.handle then m else x }

/-- A free doubleword (R300: the engine's own form is not the program's). -/
def drawWord : M Word := fun s => .ok (Config.freeWord s.freeNo) { s with freeNo := s.freeNo + 1 }

/-- The engine writes its form of the retained versions into the arena (assumption log 21). -/
def fillArena (a : Agent) (va : Nat) : Nat → M Unit
  | 0 => pure ()
  | n + 1 => do
    agentWrite a va 8 (← drawWord).toNat .int
    fillArena a (va + 8) n

/-- Write consecutive entries of w bytes. -/
def writeList (a : Agent) (w va : Nat) : List Nat → M Unit
  | [] => pure ()
  | x :: r => do
    agentWrite a va w x .int
    writeList a w (va + w) r

/-- Read consecutive entries of w bytes. -/
def readList (a : Agent) (w va : Nat) : Nat → M (List Nat)
  | 0 => pure []
  | n + 1 => do
    let x ← agentRead a va w
    let r ← readList a w (va + w) n
    pure (x :: r)

/-- The named range of areas: lowest to highest byte written. -/
def areaRange (areas : List (Nat × Nat)) : Progress :=
  match areas.filter fun x => x.2 != 0 with
  | [] => doneEmpty
  | (a, n) :: r =>
    let lo := (r.map (·.1)).foldl min a
    let hi := (r.map fun x => x.1 + x.2).foldl max (a + n)
    .done { addr := lo, len := hi - lo, flags := 0 }

/-! ### CREATE (R303, R304) -/

def createFields (w : List Word) : Bool :=
  let d := fun i => nth w i 0
  let dim := fld (d 0) 3 0
  let kb := fld (d 0) 47 40
  fld (d 0) 63 48 == 0 && fld (d 0) 31 8 == 0 && (dim == 2 || dim == 3) && fld (d 0) 7 4 == dim - 2 &&
  decide (fld (d 0) 39 32 ≤ 15) && decide (1 ≤ kb) && decide (kb ≤ if dim = 2 then 32 else 21) &&
  fld (d 2) 2 0 == 0 && addrOk (d 2) && fld (d 3) 3 0 == 0 && addrOk (d 3) && fld (d 4) 15 0 == 0 && addrOk (d 4) &&
  d 5 != 0 && fld (d 5) 15 0 == 0 && d 6 == 0 && d 7 == 0 && d 14 == 0

/-- The points of a face or edge. -/
def pointsAt (verts : List (List Word)) (c : MCell) (loc : List Nat) : List (List Int) :=
  loc.map fun i => point (nth verts (nth c.verts i 0) [])

/-- A cell has no area or volume. -/
def flat (dim : Nat) (verts : List (List Word)) (c : MCell) : Bool :=
  let p := fun i => point (nth verts (nth c.verts i 0) [])
  let n := cross (vsub (p 1) (p 0)) (vsub (p 2) (p 0))
  if dim = 2 then isNull n else dot n (vsub (p 3) (p 0)) == 0

/-- Two different cells meet only in whole faces and, in DIM 3, whole edges. -/
def conforming (dim : Nat) (verts : List (List Word)) (same : List Nat) (a b : MCell) : Bool :=
  let clash := fun (over_ : List (List Int) → List (List Int) → Bool) (la lb : List Nat) =>
    over_ (pointsAt verts a la) (pointsAt verts b lb) && (a.chainOf dim same la).head? != (b.chainOf dim same lb).head?
  let edges := fun (x y : List (List Int)) => edgesOverlap (nth x 0 []) (nth x 1 []) (nth y 0 []) (nth y 1 [])
  !((edgeLocs dim).any fun la => (edgeLocs dim).any fun lb => clash edges la lb) &&
  (dim == 2 || !((upTo 4).any fun i => (upTo 4).any fun j => clash trianglesOverlap (faceLoc 3 i) (faceLoc 3 j)))

/-- The checks on the input of CREATE. -/
def geometryOk (dim nv : Nat) (lo hi : List Word) (verts : List (List Word)) (cells : List (List Nat)) : Bool :=
  let cs := cells.map fun v => { noCell with verts := v.take (dim + 1) }
  let same := samePoint verts
  (lo ++ hi).all (fun w => (coord? w).isSome) &&
  (upTo dim).all (fun a => decide (coord (nth lo a 0) < coord (nth hi a 0))) &&
  verts.all (fun p => p.all fun w => (coord? w).isSome) &&
  cells.all (fun v => (dim == 3 || nth v 3 0 == 0xFFFFFFFF) && (v.take (dim + 1)).all (fun x => decide (x < nv)) &&
    (v.take (dim + 1)).eraseDups.length == dim + 1) &&
  cs.all (fun c => !flat dim verts c) &&
  (let fs := (cs.map fun c => (c.faces dim same).map fun x => nth x 0 []).flatten
   fs.all fun f => decide ((fs.filter fun g => g == f).length ≤ 2)) &&
  (cs.zipIdx.all fun (a, i) => cs.zipIdx.all fun (b, j) => i == j || conforming dim verts same a b)

def createBody (_t : Strand) (c : Command) (a : Agent) : M Progress := do
  cmdRule c (c.code == 1 && bits c.spec 31 0 == 0 && addrOk (c.w 1) && fld (c.w 1) 6 0 == 0 &&
    (c.dw.drop 2).all fun x => x == 0)
  let desc := (c.w 1).toNat
  let w ← agentWords a desc 16
  let d := fun i => nth w i 0
  cmdRule c (createFields w)
  let dim := fld (d 0) 3 0
  let nv := fld (d 1) 31 0
  let nc := fld (d 1) 63 32
  if nv < 3 ∨ 2 ^ 24 ≤ nv ∨ nc < 1 ∨ 2 ^ 24 ≤ nc then stLIMIT c
  let s ← get
  match (upTo 64).find? fun h => !s.meshes.any fun m => m.partn == a.partn && m.handle == h + 1 with
  | none => stLIMIT c
  | some h0 =>
    let xyz ← agentWords a (d 2).toNat (3 * nv)
    let verts := (upTo nv).map fun i => (upTo 3).map fun k => if k < dim then nth xyz (3 * i + k) 0 else 0
    let ids ← readList a 4 (d 3).toNat (4 * nc)
    let cells := (upTo nc).map fun i => (upTo 4).map fun k => nth ids (4 * i + k) 0
    let lo := [d 8, d 9, d 10]
    let hi := [d 11, d 12, d 13]
    if !geometryOk dim nv lo hi verts cells then stGEOMETRY c
    let m : Mesh :=
      { partn := a.partn, handle := h0 + 1, region := a.region, dim, kb := fld (d 0) 47 40, maxLvl := fld (d 0) 39 32,
        arena := (d 4).toNat, asize := (d 5).toNat, lo, hi, current := 1, versions := [] }
    let v := makeVersion dim 1 verts
      (cells.zipIdx.map fun (x, i) => withKey m verts { noCell with verts := x.take (dim + 1), pred := i, root := i })
    if m.asize < v.size then stARENA c
    fillArena a m.arena (v.size / 8)
    agentWrite a (desc + 120) 8 m.handle .int
    modify fun s => { s with meshes := s.meshes ++ [{ m with versions := [v] }] }
    return .done { addr := desc + 120, len := 8, flags := 0 }

/-- TOPO_CREATE; a command of an unlisted code fails here too. -/
def execTopoCreate (die : Nat) (s : State) : Out :=
  runEngine s.pruneMeshes (topoEngine die) (fun c => c.code == 1 || c.code == 0 || decide (7 < c.code)) createBody

/-! ### ADAPT (R307, R310–R312) -/

/-- One pass of the closure adds what it forces. -/
def closePass (adj : Nat → Nat → Bool) (lvl : Nat → Nat) (n : Nat) (r : List Nat) : List Nat :=
  (upTo n).filter fun x => !r.contains x && r.any fun c => decide (lvl x < lvl c) && adj c x
/-- The closure, and what it forced. -/
def closure (adj : Nat → Nat → Bool) (lvl : Nat → Nat) (n : Nat) : Nat → List Nat → List Nat → List Nat × List Nat
  | 0, r, f => (r, f)
  | k + 1, r, f =>
    match closePass adj lvl n r with
    | [] => (r, f)
    | new => closure adj lvl n k (new.foldl insertAsc r) (new.foldl insertAsc f)

/-- The ids of a group's members in child-index order, when every child is a leaf (assumption log 54). -/
def siblings (dim : Nat) (cells : List MCell) (c : MCell) : Option (List Nat) :=
  match c.path with
  | [] => none
  | (pv, _) :: up =>
    let ids := (upTo (if dim = 2 then 4 else 8)).filterMap fun k =>
      (cells.zipIdx.find? fun x => x.1.root == c.root && x.1.level == c.level && x.1.path == (pv, k) :: up).map (·.2)
    if ids.length = (if dim = 2 then 4 else 8) then some ids else none

/-- What an ADAPT gives. -/
structure Adapted where
  version : MVersion
  base : Nat
  /-- Ids refined with those of their children, and the parents of groups with those of their members. -/
  refined : List (Nat × List Nat)
  coarsened : List (Nat × List Nat)
  forced : List Nat
  dropped : Nat
  map : List Nat

/-- Midpoints of the edges to split, added to the vertices: those of the edges in ascending order that are no vertex yet. -/
def addMidpoints (dim : Nat) : List (Nat × Nat) → List (List Word) → List ((Nat × Nat) × Nat) →
    List (List Word) × List ((Nat × Nat) × Nat)
  | [], verts, m => (verts, m)
  | (x, y) :: r, verts, m =>
    let p := (upTo 3).map fun k => if k < dim then midCoord (nth (nth verts x []) k 0) (nth (nth verts y []) k 0) else 0
    let i := (verts.takeWhile fun q => point q != point p).length
    addMidpoints dim r (if i < verts.length then verts else verts ++ [p]) (m ++ [((x, y), i)])

/-- The edges of the cells to refine, ascending. -/
def splitEdges (dim : Nat) (cs : List MCell) : List (Nat × Nat) :=
  sortBy (fun e => [e.1, e.2]) ((cs.map fun c => (edgeLocs dim).map fun l =>
    let x := nth c.verts (nth l 0 0) 0
    let y := nth c.verts (nth l 1 0) 0
    (min x y, max x y)).flatten.eraseDups)

/-- The children of a cell. -/
def childrenOf (dim : Nat) (mids : List ((Nat × Nat) × Nat)) (c : MCell) (id : Nat) : List MCell :=
  (childTable dim).zipIdx.map fun (tbl, k) =>
    { verts := tbl.map fun l =>
        let v := fun i => nth c.verts (nth l i 0) 0
        if l.length = 1 then v 0
        else ((mids.find? fun x => x.1 == (min (v 0) (v 1), max (v 0) (v 1))).map (·.2)).getD 0,
      level := c.level + 1, child := k, pred := id, path := (c.verts, k) :: c.path, root := c.root, key := 0 }

/-- The parent of a group. -/
def parentOf (c : MCell) (id : Nat) : MCell :=
  match c.path with
  | [] => c
  | (pv, _) :: up => { verts := pv, level := c.level - 1, child := 255, pred := id, path := up, root := c.root, key := 0 }

/-- The new version of ADAPT, or none where a limit is passed. -/
def adaptMesh (m : Mesh) (b : MVersion) (marks : List (Nat × Nat)) : Option Adapted :=
  let dim := m.dim
  let n := b.cells.length
  let same := samePoint b.verts
  let cell := fun i => nth b.cells i noCell
  let lvl := fun i => (cell i).level
  let adj := fun i j => i != j && cellsAdjacent dim same (cell i) (cell j)
  let ms := marks.eraseDups
  let marked := fun i => ms.contains (i, 1)
  let r0 := ((upTo n).filter fun i => marked i && decide (lvl i < m.maxLvl))
  let (r, forced) := closure adj lvl n n r0 []
  let wants := fun i => ms.contains (i, 2) && !marked i && !r.contains i
  let qualifies := fun (g : List Nat) => g.all wants && (upTo n).all fun x =>
    g.contains x || !(g.any fun i => adj i x) ||
    decide (lvl x < lvl (nth g 0 0)) || (decide (lvl x = lvl (nth g 0 0)) && !r.contains x)
  let groups := (((upTo n).filterMap fun i => siblings dim b.cells (cell i)).eraseDups).filter qualifies
  let inGroup := fun i => groups.any fun g => g.contains i
  let dropped := (ms.filter fun x =>
    if x.2 = 1 then decide (m.maxLvl ≤ lvl x.1) else !inGroup x.1).length
  let (verts, mids) := addMidpoints dim (splitEdges dim (r.map cell)) b.verts []
  let cells := ((upTo n).map fun i =>
    if r.contains i then childrenOf dim mids (cell i) i
    else if inGroup i then
      match groups.find? fun g => nth g 0 0 == i with
      | some _ => [parentOf (cell i) i]
      | none => []
    else [{ cell i with child := 255, pred := i }]).flatten
  if forced.any (fun i => decide (m.maxLvl ≤ lvl i)) || decide (2 ^ 24 ≤ cells.length) || decide (2 ^ 24 ≤ verts.length) then none
  else
    let v := makeVersion dim (b.num + 1) verts (numberCells m verts cells)
    let newId := fun i k => (v.cells.takeWhile fun c => !(c.pred == i && c.child == k)).length
    some { version := v, base := n, forced, dropped,
           refined := r.map fun i => (i, (upTo (if dim = 2 then 4 else 8)).map (newId i)),
           coarsened := sortBy (fun g => [g.1]) (groups.map fun g => (newId (nth g 0 0) 255, g)),
           map := (upTo n).map fun i =>
             if r.contains i then newId i 0
             else if inGroup i && !(groups.any fun g => nth g 0 0 == i) then 0xFFFFFFFF
             else newId i 255 }

/-- Bytes of a list of 32-bit entries padded to 8 bytes. -/
def padded (n : Nat) : Nat := (4 * n + 7) / 8 * 8

/-- The report: its 32-bit entries in order (R312). -/
def Adapted.report (x : Adapted) : List Nat :=
  [x.version.cells.length, x.version.num, x.refined.length, x.coarsened.length, x.forced.length, x.dropped] ++
  x.forced ++ List.replicate (x.forced.length % 2) 0 ++
  (x.refined.map fun g => g.1 :: g.2).flatten ++ (x.coarsened.map fun g => g.1 :: g.2).flatten

def adaptRule (c : Command) : Bool :=
  bits c.spec 31 16 == 0 && fld (c.w 1) 63 32 == 0 && addrOk (c.w 2) && decide (fld (c.w 3) 39 32 ≤ 16) && fld (c.w 3) 63 40 == 0 &&
  addrOk (c.w 4) && addrOk (c.w 5) && addrOk (c.w 6) && addrOk (c.w 7)

/-- The mark entries; one that is out of range fails the command. -/
def readMarks (a : Agent) (n va : Nat) : Nat → M (List (Nat × Nat))
  | 0 => pure []
  | k + 1 => do
    let x ← agentRead a va 4
    if n ≤ x % 2 ^ 24 ∨ (x / 2 ^ 24 ≠ 1 ∧ x / 2 ^ 24 ≠ 2) then failWith 0x01 va
    let r ← readMarks a n (va + 4) k
    pure ((x % 2 ^ 24, x / 2 ^ 24) :: r)

/-- The retained versions once a new one is current, and the bytes they occupy. -/
def keptVersions (s : State) (m : Mesh) (v : MVersion) : List MVersion :=
  m.versions.filter (fun x => x.holds != 0 || s.boundTo m.partn m.handle x.num) ++ [v]

def adaptBody (_t : Strand) (c : Command) (a : Agent) : M Progress := do
  cmdRule c (adaptRule c)
  let m ← meshOf c a
  let b ← versionOf c m (fld (c.w 1) 31 0)
  if b.num ≠ m.current then stVERSION c
  let marks ← readMarks a b.cells.length (c.w 2).toNat (fld (c.w 3) 31 0)
  let fields ← agentWords a (c.w 4).toNat (fld (c.w 3) 39 32)
  match adaptMesh m b marks with
  | none => stLIMIT c
  | some x =>
    let s ← get
    let kept := keptVersions s m x.version
    let used := (kept.map MVersion.size).foldl (· + ·) 0
    if m.asize < used then stARENA c
    fillArena a m.arena (used / 8)
    let job := (c.w 5).toNat
    let recs := (fields.map fun f => [f.toNat, (c.w 6).toNat, x.base + x.version.cells.length * 2 ^ 32,
      x.version.num + m.handle * 2 ^ 32]).flatten
    writeList a 8 job recs
    writeList a 4 (c.w 6).toNat x.map
    writeList a 4 (c.w 7).toNat x.report
    modify fun s => s.setMesh { m with current := x.version.num, versions := kept }
    return areaRange [(job, 8 * recs.length), ((c.w 6).toNat, 4 * x.map.length), ((c.w 7).toNat, 4 * x.report.length)]

/-! ### Host assistance (R409, R410) -/

/-- The command of a strand's topology FIFO that its engine has taken, or begun. -/
def Fifo.taken (f : Fifo) : Option Command := f.running.orElse fun _ => if f.paused then f.cmds.head? else none

/-- An engine of the package performs a command on the mesh (R302). -/
def State.meshBusy (s : State) (t : Strand) (c : Command) : Bool :=
  s.strands.any fun u => u.partn == t.partn && (u.sn != t.sn || !(u.fifo[4]).paused) && match (u.fifo[4]).taken with
    | some d => bits d.spec 15 0 == bits c.spec 15 0
    | none => false

/-- ADAPT and PARTITION with DUTY.TOPO in force: the host is asked, and the command is not finished. -/
def topoPost (die : Nat) (c : Command) : M Progress := do
  modify fun s => { s with hostPosts := s.hostPosts ++ [HostPost.topo (die % 4) c.dw] }
  return .begun none

/-- A topology command that no other one on its mesh keeps waiting. -/
def runTopo (s : State) (die : Nat) (code : Nat) (body : Strand → Command → Agent → M Progress) : Out :=
  let s := s.pruneMeshes
  match s.headOf (topoEngine die) with
  | none => .next s
  | some (t, c) =>
    if c.code = code ∧ s.meshBusy t c = false then .next (engineWork s (topoEngine die) t c (body t c)) else .next s

/-- ADAPT or PARTITION, by the engine or by the host. -/
def runRebuild (s : State) (die : Nat) (code : Nat) (body : Strand → Command → Agent → M Progress) : Out :=
  if s.act.getLsbD 2 then runTopo s die code fun _ c _ => topoPost die c
  else runTopo s die code body

def execAdapt (die : Nat) (s : State) : Out := runRebuild s die 2 adaptBody

/-! ### EXPORT (R313) -/

/-- Hanging vertices: those of a face or edge that lie inside a face or edge of a coarser leaf. -/
def hangingVerts (dim : Nat) (same : List Nat) (cells : List MCell) : List Nat :=
  let subs := fun (c : MCell) => c.faces dim same ++ c.edges dim same
  let own := (cells.map fun c => (subs c).map fun x => nth x 0 []).flatten
  ((cells.map subs).flatten.map fun x => ((x.drop 1).filter fun up => own.contains up).map fun up =>
    (nth x 0 []).filter fun v => !up.contains v).flatten.flatten.eraseDups

def exportCell (dim : Nat) (c : MCell) : List Nat :=
  let v := fun i => if i ≤ dim then nth c.verts i 0 else 0xFFFFFFFF
  [v 0 + v 1 * 2 ^ 32, v 2 + v 3 * 2 ^ 32, c.pred + c.level * 2 ^ 32 + c.child * 2 ^ 40, c.key]

def exportVert (used hanging : List Nat) (same : List Nat) (p : List Word) (i : Nat) : List Nat :=
  p.map BitVec.toNat ++ [(if used.contains i then 0 else 1) + if hanging.contains (nth same i 0) then 2 else 0]

def exportBody (_t : Strand) (c : Command) (a : Agent) : M Progress := do
  let addrs := (c.dw.drop 2).take 4
  cmdRule c (bits c.spec 31 16 == 0 && fld (c.w 1) 63 32 == 0 && c.w 6 == 0 && c.w 7 == 0 &&
    addrs.all fun x => addrOk x && fld x 2 0 == 0)
  let m ← meshOf c a
  let v ← versionOf c m (fld (c.w 1) 31 0)
  let same := samePoint v.verts
  let used := ((v.cells.map fun x => x.verts).flatten).eraseDups
  let hanging := hangingVerts m.dim same v.cells
  let nc := v.cells.length
  let arrays : List (Nat × List Nat) :=
    [(8, (v.cells.map (exportCell m.dim)).flatten),
     (8, (v.verts.zipIdx.map fun (p, i) => exportVert used hanging same p i).flatten),
     (4, (upTo (nc + 1)).map fun i => (v.entries.filter fun w => decide (fld w 63 40 < i)).length),
     (8, v.entries.map BitVec.toNat)]
  let todo := (addrs.zip arrays).filter fun x => x.1 != 0
  for x in todo do writeList a x.2.1 x.1.toNat x.2.2
  return areaRange (todo.map fun x => (x.1.toNat, x.2.1 * x.2.2.length))

def execTopoExport (die : Nat) (s : State) : Out := runTopo s die 3 exportBody

/-! ### HOLD, DROP and DESTROY (R316) -/

def Mesh.setHolds (m : Mesh) (num holds : Nat) : Mesh :=
  { m with versions := m.versions.map fun v => if v.num = num then { v with holds } else v }

def holdRule (c : Command) : Bool :=
  bits c.spec 31 16 == 0 && fld (c.w 1) 63 32 == 0 && (c.dw.drop 2).all fun x => x == 0

def holdBody (_t : Strand) (c : Command) (a : Agent) : M Progress := do
  cmdRule c (holdRule c)
  let m ← meshOf c a
  let v ← versionOf c m (fld (c.w 1) 31 0)
  if 65535 ≤ v.holds then stLIMIT c
  modify fun s => s.setMesh (m.setHolds v.num (v.holds + 1))
  return doneEmpty

def execHold (die : Nat) (s : State) : Out := runTopo s die 4 holdBody

def dropBody (_t : Strand) (c : Command) (a : Agent) : M Progress := do
  cmdRule c (holdRule c)
  let m ← meshOf c a
  let v ← versionOf c m (fld (c.w 1) 31 0)
  if v.holds = 0 then stVERSION c
  modify fun s => (s.setMesh (m.setHolds v.num (v.holds - 1))).pruneMeshes
  return doneEmpty

def execDrop (die : Nat) (s : State) : Out := runTopo s die 5 dropBody

def destroyBody (_t : Strand) (c : Command) (a : Agent) : M Progress := do
  cmdRule c (bits c.spec 31 16 == 0 && (c.dw.drop 1).all fun x => x == 0)
  let m ← meshOf c a
  let s ← get
  if m.versions.any fun v => s.boundTo m.partn m.handle v.num then stBUSY c
  set { s with meshes := s.meshes.filter fun x => !(x.partn == m.partn && x.handle == m.handle) }
  return doneEmpty

def execTopoDestroy (die : Nat) (s : State) : Out := runTopo s die 7 destroyBody

/-! ### PARTITION (R317) -/

/-- The part of each cell, by id. -/
def partOwners (p : Nat) (cells : List MCell) (ws : List Nat) : List Nat :=
  let order := sortBy (fun x => [x.1.key, x.1.level, x.2]) cells.zipIdx
  let total := ws.foldl (· + ·) 0
  let place := fun i => (order.takeWhile fun x => x.2 != i).map fun x => nth ws x.2 0
  (upTo cells.length).map fun i =>
    if total = 0 then 0 else min (p - 1) (p * (place i).foldl (· + ·) 0 / total)

/-- The jobs: kind, from, to, and the cells. -/
def partJobs (entries : List Word) (old new : List Nat) : List (Nat × Nat × Nat × List Nat) :=
  let n := new.length
  let moves := (upTo n).filterMap fun i => if nth old i 0 = nth new i 0 then none else some (0, nth old i 0, nth new i 0, i)
  let ghosts := entries.filterMap fun w =>
    let c := fld w 63 40
    let b := fld w 39 16
    if b = 0xFFFFFF ∨ nth new c 0 = nth new b 0 then none else some (1, nth new c 0, nth new b 0, c)
  let all := moves ++ ghosts
  let keys := sortBy (fun k => [k.1, k.2.1, k.2.2]) ((all.map fun x => (x.1, x.2.1, x.2.2.1)).eraseDups)
  keys.map fun k => (k.1, k.2.1, k.2.2,
    sortSet ((all.filter fun x => (x.1, x.2.1, x.2.2.1) == k).map fun x => x.2.2.2))

/-- The job records from the list address on. -/
def jobRecords : Nat → List (Nat × Nat × Nat × List Nat) → List Nat
  | _, [] => []
  | va, (kind, f, t, l) :: r => [f + t * 2 ^ 16 + kind * 2 ^ 32, l.length, va, 0] ++ jobRecords (va + padded l.length) r

def partitionBody (_t : Strand) (c : Command) (a : Agent) : M Progress := do
  let p := fld (c.w 1) 47 32
  cmdRule c (bits c.spec 31 16 == 0 && fld (c.w 1) 63 48 == 0 && decide (1 ≤ p) && decide (p ≤ 4096) && addrOk (c.w 2) && addrOk (c.w 3) &&
    addrOk (c.w 4) && addrOk (c.w 5) && fld (c.w 6) 63 32 == 0 && c.w 7 == 0)
  let m ← meshOf c a
  let v ← versionOf c m (fld (c.w 1) 31 0)
  let n := v.cells.length
  let ws ← if c.w 2 = 0 then pure (List.replicate n 1) else readList a 4 (c.w 2).toNat n
  let old ← readList a 2 (c.w 3).toNat n
  cmdRule c (old.all fun o => decide (o < p))
  let new := partOwners p v.cells ws
  writeList a 2 (c.w 4).toNat new
  let jobs := partJobs v.entries old new
  let base := (c.w 5).toNat
  let lists := base + 16 + 32 * jobs.length
  let size := 16 + 32 * jobs.length + (jobs.map fun j => padded j.2.2.2.length).foldl (· + ·) 0
  if fld (c.w 6) 31 0 < size then stLIMIT c
  writeList a 8 base ([jobs.length, 0] ++ jobRecords lists jobs)
  writeList a 4 lists ((jobs.map fun j => j.2.2.2 ++ List.replicate (j.2.2.2.length % 2) 0).flatten)
  return areaRange [((c.w 4).toNat, 2 * n), (base, size)]

def execPartition (die : Nat) (s : State) : Out := runRebuild s die 6 partitionBody

/-- HOST_TOPOLOGY_RESULT: the command the host was asked for is performed, with every check of its own. -/
def execHostTopologyResult (die : Nat) (s : State) : Out :=
  let s := s.pruneMeshes
  match s.runningOf (topoEngine die) with
  | [] => .next s
  | (t, c) :: _ =>
    let body := if c.code = 2 then adaptBody else partitionBody
    let s := { s with hostPosts := s.hostPosts.filter fun p => match p with | .topo d _ => d != die % 4 | _ => true }
    .next (engineWork s (topoEngine die) t c (body t c))

end Sys2Proof.Machine
end

