-- ==== Sys2Proof/Machine/VInt.lean ====
section
/-!
DEFINITION. Integer vector operations (R172–R176).
-/

namespace Sys2Proof.Machine

open Sys2Proof

/-- The queue's facts of a VI instruction: field b is a vector register or a captured integer register (R172). -/
def viInfo (dst : List VReg) (a : List VReg) (b : VISrc) : VInfo :=
  match b with
  | .vec v => { cls := .el, dst, src := a ++ [v] }
  | .sca g => { cls := .el, opA := .g g, dst, src := a }

/-- Element e of field b. -/
def viB (b : VISrc) (n : VEntry) (e : Nat) : M Word :=
  match b with
  | .vec v => do return (← srcV v e).val
  | .sca _ => pure n.opA

/-- An integer result in an element: sign-extended from its width, ungraded (R135, R160). -/
def intElem (w : Nat) (x : Int) : Elem := { val := sextWord (wrapN x w) w, grade := 0xFFFF }

/-- A VI operation on the n-bit operands (R174). -/
def viOp (f : Nat → Nat → Nat → Int) (d a : VReg) (b : VISrc) (wd : IntW) (s : State) : Out :=
  runEl s (viInfo [d] [a] b) fun n e => do
    let w := intBits wd
    let x := (← srcV a e).val.toNat % 2 ^ w
    let y := (← viB b n e).toNat % 2 ^ w
    modify fun s => s.setV d e (intElem w (f w x y))

/-- A VI compare (R175). -/
def viCmp (f : Nat → Nat → Nat → Bool) (d : MReg) (a : VReg) (b : VISrc) (wd : IntW) (s : State) : Out :=
  runEl s (viInfo [] [a] b) fun n e => do
    let w := intBits wd
    let x := (← srcV a e).val.toNat % 2 ^ w
    let y := (← viB b n e).toNat % 2 ^ w
    modify fun s => s.setMbit d e (f w x y)

/-! Table 9-1: results before wrap, on n-bit operands. -/

def viAdd (w x y : Nat) : Int := sx x w + sx y w
def viSub (w x y : Nat) : Int := sx x w - sx y w
def viMul (w x y : Nat) : Int := sx x w * sx y w
def viMulh (w x y : Nat) : Int := sx x w * sx y w / 2 ^ w
def viMulhu (w x y : Nat) : Int := (x * y / 2 ^ w : Nat)
def viMin (w x y : Nat) : Int := if sx x w < sx y w then sx x w else sx y w
def viMax (w x y : Nat) : Int := if sx x w < sx y w then sx y w else sx x w
def viMinu (_ x y : Nat) : Int := if x < y then x else y
def viMaxu (_ x y : Nat) : Int := if x < y then y else x
def viAnd (_ x y : Nat) : Int := (x &&& y : Nat)
def viOr (_ x y : Nat) : Int := (x ||| y : Nat)
def viXor (_ x y : Nat) : Int := (x ^^^ y : Nat)
def viSll (w x y : Nat) : Int := (x * 2 ^ (y % w) : Nat)
def viSrl (w x y : Nat) : Int := (x / 2 ^ (y % w) : Nat)
def viSra (w x y : Nat) : Int := sx x w / 2 ^ (y % w)
/-- The bounds of the signed and the unsigned saturating forms. -/
def satS (w : Nat) (x : Int) : Int := clampI x (-2 ^ (w - 1)) (2 ^ (w - 1) - 1)
def satU (w : Nat) (x : Int) : Int := clampI x 0 (2 ^ w - 1)
def viSadd (w x y : Nat) : Int := satS w (sx x w + sx y w)
def viSaddu (w x y : Nat) : Int := satU w ((x : Int) + y)
def viSsub (w x y : Nat) : Int := satS w (sx x w - sx y w)
def viSsubu (w x y : Nat) : Int := satU w ((x : Int) - y)

def execVadd (d a : VReg) (b : VISrc) (wd : IntW) (s : State) : Out := viOp viAdd d a b wd s
def execVsub (d a : VReg) (b : VISrc) (wd : IntW) (s : State) : Out := viOp viSub d a b wd s
def execVmul (d a : VReg) (b : VISrc) (wd : IntW) (s : State) : Out := viOp viMul d a b wd s
def execVmulh (d a : VReg) (b : VISrc) (wd : IntW) (s : State) : Out := viOp viMulh d a b wd s
def execVmulhu (d a : VReg) (b : VISrc) (wd : IntW) (s : State) : Out := viOp viMulhu d a b wd s
def execVmin (d a : VReg) (b : VISrc) (wd : IntW) (s : State) : Out := viOp viMin d a b wd s
def execVmax (d a : VReg) (b : VISrc) (wd : IntW) (s : State) : Out := viOp viMax d a b wd s
def execVminu (d a : VReg) (b : VISrc) (wd : IntW) (s : State) : Out := viOp viMinu d a b wd s
def execVmaxu (d a : VReg) (b : VISrc) (wd : IntW) (s : State) : Out := viOp viMaxu d a b wd s
def execVand (d a : VReg) (b : VISrc) (wd : IntW) (s : State) : Out := viOp viAnd d a b wd s
def execVor (d a : VReg) (b : VISrc) (wd : IntW) (s : State) : Out := viOp viOr d a b wd s
def execVxor (d a : VReg) (b : VISrc) (wd : IntW) (s : State) : Out := viOp viXor d a b wd s
def execVsll (d a : VReg) (b : VISrc) (wd : IntW) (s : State) : Out := viOp viSll d a b wd s
def execVsrl (d a : VReg) (b : VISrc) (wd : IntW) (s : State) : Out := viOp viSrl d a b wd s
def execVsra (d a : VReg) (b : VISrc) (wd : IntW) (s : State) : Out := viOp viSra d a b wd s
def execVsadd (d a : VReg) (b : VISrc) (wd : IntW) (s : State) : Out := viOp viSadd d a b wd s
def execVsaddu (d a : VReg) (b : VISrc) (wd : IntW) (s : State) : Out := viOp viSaddu d a b wd s
def execVssub (d a : VReg) (b : VISrc) (wd : IntW) (s : State) : Out := viOp viSsub d a b wd s
def execVssubu (d a : VReg) (b : VISrc) (wd : IntW) (s : State) : Out := viOp viSsubu d a b wd s

/-- vmv reads only field b (Table 9-1). -/
def execVmv (d : VReg) (b : VISrc) (wd : IntW) (s : State) : Out :=
  runEl s (viInfo [d] [] b) fun n e => do
    let y ← viB b n e
    modify fun s => s.setV d e (intElem (intBits wd) y.toNat)

def execVseq (d : MReg) (a : VReg) (b : VISrc) (wd : IntW) (s : State) : Out := viCmp (fun _ x y => x == y) d a b wd s
def execVsne (d : MReg) (a : VReg) (b : VISrc) (wd : IntW) (s : State) : Out := viCmp (fun _ x y => x != y) d a b wd s
def execVslt (d : MReg) (a : VReg) (b : VISrc) (wd : IntW) (s : State) : Out :=
  viCmp (fun w x y => decide (sx x w < sx y w)) d a b wd s
def execVsltu (d : MReg) (a : VReg) (b : VISrc) (wd : IntW) (s : State) : Out :=
  viCmp (fun _ x y => decide (x < y)) d a b wd s
def execVsle (d : MReg) (a : VReg) (b : VISrc) (wd : IntW) (s : State) : Out :=
  viCmp (fun w x y => decide (sx x w ≤ sx y w)) d a b wd s
def execVsleu (d : MReg) (a : VReg) (b : VISrc) (wd : IntW) (s : State) : Out :=
  viCmp (fun _ x y => decide (x ≤ y)) d a b wd s

/-! ### Carries (R176) -/

def carryBits : CarryW → Nat | .l => 64 | .w => 32

/-- An add or a subtract with the carry of element e in mask c: the exact result, and whether it carries out. -/
def vCarry (f : Nat → Int → Int → Int → Int × Bool) (d a b : VReg) (c : MReg) (wd : CarryW) (s : State) : Out :=
  runEl s { cls := .el, dst := [d], src := [a, b] } fun _ e => do
    let w := carryBits wd
    let x := (← srcV a e).val.toNat % 2 ^ w
    let y := (← srcV b e).val.toNat % 2 ^ w
    let s ← get
    let (r, out) := f w x y (if s.mbit c e then 1 else 0)
    set ((s.setV d e (intElem w r)).setMbit c e out)

def execVadc (d a b : VReg) (c : MReg) (wd : CarryW) (s : State) : Out :=
  vCarry (fun w x y k => (x + y + k, decide (2 ^ w ≤ x + y + k))) d a b c wd s
def execVsbc (d a b : VReg) (c : MReg) (wd : CarryW) (s : State) : Out :=
  vCarry (fun _ x y k => (x - y - k, decide (x - y - k < 0))) d a b c wd s

end Sys2Proof.Machine
end

