-- ==== Sys2Proof/Machine/Dispatch.lean ====
section
/-!
DEFINITION. The instructions' meanings: one arm for each constructor, each one call.
-/

namespace Sys2Proof.Machine

open Sys2Proof

def exec (i : Instr) (s : State) : Host.Outcome State Fault Refusal :=
  match i with
  | .add d a b => Sys2Proof.Machine.execAdd d a b s
  | .sub d a b => Sys2Proof.Machine.execSub d a b s
  | .and d a b => Sys2Proof.Machine.execAnd d a b s
  | .or d a b => Sys2Proof.Machine.execOr d a b s
  | .xor d a b => Sys2Proof.Machine.execXor d a b s
  | .sll d a b => Sys2Proof.Machine.execSll d a b s
  | .srl d a b => Sys2Proof.Machine.execSrl d a b s
  | .sra d a b => Sys2Proof.Machine.execSra d a b s
  | .slt d a b => Sys2Proof.Machine.execSlt d a b s
  | .sltu d a b => Sys2Proof.Machine.execSltu d a b s
  | .min d a b => Sys2Proof.Machine.execMin d a b s
  | .max d a b => Sys2Proof.Machine.execMax d a b s
  | .minu d a b => Sys2Proof.Machine.execMinu d a b s
  | .maxu d a b => Sys2Proof.Machine.execMaxu d a b s
  | .mul d a b => Sys2Proof.Machine.execMul d a b s
  | .mulh d a b => Sys2Proof.Machine.execMulh d a b s
  | .mulhu d a b => Sys2Proof.Machine.execMulhu d a b s
  | .div d a b => Sys2Proof.Machine.execDiv d a b s
  | .divu d a b => Sys2Proof.Machine.execDivu d a b s
  | .rem d a b => Sys2Proof.Machine.execRem d a b s
  | .remu d a b => Sys2Proof.Machine.execRemu d a b s
  | .clz d a => Sys2Proof.Machine.execClz d a s
  | .popc d a => Sys2Proof.Machine.execPopc d a s
  | .slli d a n => Sys2Proof.Machine.execSlli d a n s
  | .srli d a n => Sys2Proof.Machine.execSrli d a n s
  | .srai d a n => Sys2Proof.Machine.execSrai d a n s
  | .addi d a i0 => Sys2Proof.Machine.execAddi d a i0 s
  | .andi d a i0 => Sys2Proof.Machine.execAndi d a i0 s
  | .ori d a i0 => Sys2Proof.Machine.execOri d a i0 s
  | .xori d a i0 => Sys2Proof.Machine.execXori d a i0 s
  | .slti d a i0 => Sys2Proof.Machine.execSlti d a i0 s
  | .sltiu d a i0 => Sys2Proof.Machine.execSltiu d a i0 s
  | .lhi d i0 => Sys2Proof.Machine.execLhi d i0 s
  | .adpc d i0 => Sys2Proof.Machine.execAdpc d i0 s
  | .ldB d a i0 => Sys2Proof.Machine.execLdB d a i0 s
  | .ldBu d a i0 => Sys2Proof.Machine.execLdBu d a i0 s
  | .ldH d a i0 => Sys2Proof.Machine.execLdH d a i0 s
  | .ldHu d a i0 => Sys2Proof.Machine.execLdHu d a i0 s
  | .ldW d a i0 => Sys2Proof.Machine.execLdW d a i0 s
  | .ldWu d a i0 => Sys2Proof.Machine.execLdWu d a i0 s
  | .ldL d a i0 => Sys2Proof.Machine.execLdL d a i0 s
  | .stB s0 a i0 => Sys2Proof.Machine.execStB s0 a i0 s
  | .stH s0 a i0 => Sys2Proof.Machine.execStH s0 a i0 s
  | .stW s0 a i0 => Sys2Proof.Machine.execStW s0 a i0 s
  | .stL s0 a i0 => Sys2Proof.Machine.execStL s0 a i0 s
  | .fld wd f a i0 => Sys2Proof.Machine.execFld wd f a i0 s
  | .fst wd f a i0 => Sys2Proof.Machine.execFst wd f a i0 s
  | .fadd d a b wd => Sys2Proof.Machine.execFadd d a b wd s
  | .fsub d a b wd => Sys2Proof.Machine.execFsub d a b wd s
  | .fmul d a b wd => Sys2Proof.Machine.execFmul d a b wd s
  | .fdiv d a b wd => Sys2Proof.Machine.execFdiv d a b wd s
  | .fsqrt d a wd => Sys2Proof.Machine.execFsqrt d a wd s
  | .fmin d a b wd => Sys2Proof.Machine.execFmin d a b wd s
  | .fmax d a b wd => Sys2Proof.Machine.execFmax d a b wd s
  | .feq d a b wd => Sys2Proof.Machine.execFeq d a b wd s
  | .flt d a b wd => Sys2Proof.Machine.execFlt d a b wd s
  | .fle d a b wd => Sys2Proof.Machine.execFle d a b wd s
  | .fcvtFmtWidth d a wd => Sys2Proof.Machine.execFcvtFmtWidth d a wd s
  | .fcvtFmtL d a wd => Sys2Proof.Machine.execFcvtFmtL d a wd s
  | .fcvtLFmt d a wd => Sys2Proof.Machine.execFcvtLFmt d a wd s
  | .fgrd d a wd => Sys2Proof.Machine.execFgrd d a wd s
  | .fgset d a wd => Sys2Proof.Machine.execFgset d a wd s
  | .fmvFmtG d a wd => Sys2Proof.Machine.execFmvFmtG d a wd s
  | .fmvGFmt d a wd => Sys2Proof.Machine.execFmvGFmt d a wd s
  | .fmadd d a b c wd => Sys2Proof.Machine.execFmadd d a b c wd s
  | .fmsub d a b c wd => Sys2Proof.Machine.execFmsub d a b c wd s
  | .beq a b o => Sys2Proof.Machine.execBeq a b o s
  | .bne a b o => Sys2Proof.Machine.execBne a b o s
  | .blt a b o => Sys2Proof.Machine.execBlt a b o s
  | .bge a b o => Sys2Proof.Machine.execBge a b o s
  | .bltu a b o => Sys2Proof.Machine.execBltu a b o s
  | .bgeu a b o => Sys2Proof.Machine.execBgeu a b o s
  | .bmz a o => Sys2Proof.Machine.execBmz a o s
  | .bmnz a o => Sys2Proof.Machine.execBmnz a o s
  | .bmall a o => Sys2Proof.Machine.execBmall a o s
  | .jmp o => Sys2Proof.Machine.execJmp o s
  | .jal o => Sys2Proof.Machine.execJal o s
  | .jr d a i0 => Sys2Proof.Machine.execJr d a i0 s
  | .vins d a b => Sys2Proof.Machine.execVins d a b s
  | .vext d a b => Sys2Proof.Machine.execVext d a b s
  | .vfins d a b => Sys2Proof.Machine.execVfins d a b s
  | .vfext d a b => Sys2Proof.Machine.execVfext d a b s
  | .vadd d a b wd => Sys2Proof.Machine.execVadd d a b wd s
  | .vsub d a b wd => Sys2Proof.Machine.execVsub d a b wd s
  | .vmul d a b wd => Sys2Proof.Machine.execVmul d a b wd s
  | .vmulh d a b wd => Sys2Proof.Machine.execVmulh d a b wd s
  | .vmulhu d a b wd => Sys2Proof.Machine.execVmulhu d a b wd s
  | .vmin d a b wd => Sys2Proof.Machine.execVmin d a b wd s
  | .vmax d a b wd => Sys2Proof.Machine.execVmax d a b wd s
  | .vminu d a b wd => Sys2Proof.Machine.execVminu d a b wd s
  | .vmaxu d a b wd => Sys2Proof.Machine.execVmaxu d a b wd s
  | .vand d a b wd => Sys2Proof.Machine.execVand d a b wd s
  | .vor d a b wd => Sys2Proof.Machine.execVor d a b wd s
  | .vxor d a b wd => Sys2Proof.Machine.execVxor d a b wd s
  | .vsll d a b wd => Sys2Proof.Machine.execVsll d a b wd s
  | .vsrl d a b wd => Sys2Proof.Machine.execVsrl d a b wd s
  | .vsra d a b wd => Sys2Proof.Machine.execVsra d a b wd s
  | .vsadd d a b wd => Sys2Proof.Machine.execVsadd d a b wd s
  | .vsaddu d a b wd => Sys2Proof.Machine.execVsaddu d a b wd s
  | .vssub d a b wd => Sys2Proof.Machine.execVssub d a b wd s
  | .vssubu d a b wd => Sys2Proof.Machine.execVssubu d a b wd s
  | .vmv d b wd => Sys2Proof.Machine.execVmv d b wd s
  | .vseq d a b wd => Sys2Proof.Machine.execVseq d a b wd s
  | .vsne d a b wd => Sys2Proof.Machine.execVsne d a b wd s
  | .vslt d a b wd => Sys2Proof.Machine.execVslt d a b wd s
  | .vsltu d a b wd => Sys2Proof.Machine.execVsltu d a b wd s
  | .vsle d a b wd => Sys2Proof.Machine.execVsle d a b wd s
  | .vsleu d a b wd => Sys2Proof.Machine.execVsleu d a b wd s
  | .vadc d a b c wd => Sys2Proof.Machine.execVadc d a b c wd s
  | .vsbc d a b c wd => Sys2Proof.Machine.execVsbc d a b c wd s
  | .vfadd d a b f => Sys2Proof.Machine.execVfadd d a b f s
  | .vfsub d a b f => Sys2Proof.Machine.execVfsub d a b f s
  | .vfmul d a b f => Sys2Proof.Machine.execVfmul d a b f s
  | .vfdiv d a b f => Sys2Proof.Machine.execVfdiv d a b f s
  | .vfsqrt d a f => Sys2Proof.Machine.execVfsqrt d a f s
  | .vfmin d a b f => Sys2Proof.Machine.execVfmin d a b f s
  | .vfmax d a b f => Sys2Proof.Machine.execVfmax d a b f s
  | .vfmadd d a b f => Sys2Proof.Machine.execVfmadd d a b f s
  | .vfmsub d a b f => Sys2Proof.Machine.execVfmsub d a b f s
  | .vfnmadd d a b f => Sys2Proof.Machine.execVfnmadd d a b f s
  | .vfnmsub d a b f => Sys2Proof.Machine.execVfnmsub d a b f s
  | .vfabs d a f => Sys2Proof.Machine.execVfabs d a f s
  | .vfneg d a f => Sys2Proof.Machine.execVfneg d a f s
  | .vfsgn d a b f => Sys2Proof.Machine.execVfsgn d a b f s
  | .vfsgnn d a b f => Sys2Proof.Machine.execVfsgnn d a b f s
  | .vfsgnx d a b f => Sys2Proof.Machine.execVfsgnx d a b f s
  | .vfclass d a f => Sys2Proof.Machine.execVfclass d a f s
  | .vfeq d a b f => Sys2Proof.Machine.execVfeq d a b f s
  | .vfne d a b f => Sys2Proof.Machine.execVfne d a b f s
  | .vflt d a b f => Sys2Proof.Machine.execVflt d a b f s
  | .vfle d a b f => Sys2Proof.Machine.execVfle d a b f s
  | .vfun d a b f => Sys2Proof.Machine.execVfun d a b f s
  | .vgrd d a f => Sys2Proof.Machine.execVgrd d a f s
  | .vgwr d a f => Sys2Proof.Machine.execVgwr d a f s
  | .vgset d a f => Sys2Proof.Machine.execVgset d a f s
  | .vglt d a b f => Sys2Proof.Machine.execVglt d a b f s
  | .vgmin d a f => Sys2Proof.Machine.execVgmin d a f s
  | .vgfull d f => Sys2Proof.Machine.execVgfull d f s
  | .vld d a t => Sys2Proof.Machine.execVld d a t s
  | .vst s0 a t => Sys2Proof.Machine.execVst s0 a t s
  | .vlds d a t => Sys2Proof.Machine.execVlds d a t s
  | .vsts s0 a t => Sys2Proof.Machine.execVsts s0 a t s
  | .vldx d a b t => Sys2Proof.Machine.execVldx d a b t s
  | .vstx s0 a b t => Sys2Proof.Machine.execVstx s0 a b t s
  | .vstxa s0 a b t => Sys2Proof.Machine.execVstxa s0 a b t s
  | .vldLn d b t => Sys2Proof.Machine.execVldLn d b t s
  | .vstLn s0 b t => Sys2Proof.Machine.execVstLn s0 b t s
  | .vldb d a t => Sys2Proof.Machine.execVldb d a t s
  | .vldG d a t => Sys2Proof.Machine.execVldG d a t s
  | .vstG s0 a t => Sys2Proof.Machine.execVstG s0 a t s
  | .sbind d a b t => Sys2Proof.Machine.execSbind d a b t s
  | .sfree b => Sys2Proof.Machine.execSfree b s
  | .sskip a b => Sys2Proof.Machine.execSskip a b s
  | .sstat d b => Sys2Proof.Machine.execSstat d b s
  | .vpre a => Sys2Proof.Machine.execVpre a s
  | .mand d a b => Sys2Proof.Machine.execMand d a b s
  | .mor d a b => Sys2Proof.Machine.execMor d a b s
  | .mxor d a b => Sys2Proof.Machine.execMxor d a b s
  | .mandn d a b => Sys2Proof.Machine.execMandn d a b s
  | .mnot d a => Sys2Proof.Machine.execMnot d a s
  | .mshl d a b => Sys2Proof.Machine.execMshl d a b s
  | .mshr d a b => Sys2Proof.Machine.execMshr d a b s
  | .mpop d a => Sys2Proof.Machine.execMpop d a s
  | .mfirst d a => Sys2Proof.Machine.execMfirst d a s
  | .mset d => Sys2Proof.Machine.execMset d s
  | .mclr d => Sys2Proof.Machine.execMclr d s
  | .mfrom d a => Sys2Proof.Machine.execMfrom d a s
  | .vslup d a b t => Sys2Proof.Machine.execVslup d a b t s
  | .vsldn d a b t => Sys2Proof.Machine.execVsldn d a b t s
  | .vpack d a t => Sys2Proof.Machine.execVpack d a t s
  | .vunpk d a t => Sys2Proof.Machine.execVunpk d a t s
  | .vperm d a b t => Sys2Proof.Machine.execVperm d a b t s
  | .vconfl d a t => Sys2Proof.Machine.execVconfl d a t s
  | .vrsum r a => Sys2Proof.Machine.execVrsum r a s
  | .vrosum d a t => Sys2Proof.Machine.execVrosum d a t s
  | .vrmin r a => Sys2Proof.Machine.execVrmin r a s
  | .vrmax r a => Sys2Proof.Machine.execVrmax r a s
  | .vrand d a t => Sys2Proof.Machine.execVrand d a t s
  | .vrior d a t => Sys2Proof.Machine.execVrior d a t s
  | .vrosat d a t => Sys2Proof.Machine.execVrosat d a t s
  | .vscan d a t => Sys2Proof.Machine.execVscan d a t s
  | .vlrec d a b t => Sys2Proof.Machine.execVlrec d a b t s
  | .vsel d a b t => Sys2Proof.Machine.execVsel d a b t s
  | .vcvt d a s0 t r x => Sys2Proof.Machine.execVcvt d a s0 t r x s
  | .vquant d a s0 r => Sys2Proof.Machine.execVquant d a s0 r s
  | .vdequant d a t r x => Sys2Proof.Machine.execVdequant d a t r x s
  | .mxLdw a b f => Sys2Proof.Machine.execMxLdw a b f s
  | .mxLdwg a b f => Sys2Proof.Machine.execMxLdwg a b f s
  | .mxSwap => Sys2Proof.Machine.execMxSwap s
  | .mxStep t a b f => Sys2Proof.Machine.execMxStep t a b f s
  | .mxStepz t a b f => Sys2Proof.Machine.execMxStepz t a b f s
  | .mxSteps t a b f => Sys2Proof.Machine.execMxSteps t a b f s
  | .mxZero t => Sys2Proof.Machine.execMxZero t s
  | .mxRd d t b => Sys2Proof.Machine.execMxRd d t b s
  | .mxWr t a b => Sys2Proof.Machine.execMxWr t a b s
  | .mxSt t a b => Sys2Proof.Machine.execMxSt t a b s
  | .mxCfg a => Sys2Proof.Machine.execMxCfg a s
  | .mxSkip t a => Sys2Proof.Machine.execMxSkip t a s
  | .mxGrant a => Sys2Proof.Machine.execMxGrant a s
  | .mxRet => Sys2Proof.Machine.execMxRet s
  | .amoAddW d a b l => Sys2Proof.Machine.execAmoAddW d a b l s
  | .amoAddL d a b l => Sys2Proof.Machine.execAmoAddL d a b l s
  | .amoMinL d a b l => Sys2Proof.Machine.execAmoMinL d a b l s
  | .amoMaxL d a b l => Sys2Proof.Machine.execAmoMaxL d a b l s
  | .amoMinuL d a b l => Sys2Proof.Machine.execAmoMinuL d a b l s
  | .amoMaxuL d a b l => Sys2Proof.Machine.execAmoMaxuL d a b l s
  | .amoAndL d a b l => Sys2Proof.Machine.execAmoAndL d a b l s
  | .amoOrL d a b l => Sys2Proof.Machine.execAmoOrL d a b l s
  | .amoXorL d a b l => Sys2Proof.Machine.execAmoXorL d a b l s
  | .amoSwapW d a b l => Sys2Proof.Machine.execAmoSwapW d a b l s
  | .amoSwapL d a b l => Sys2Proof.Machine.execAmoSwapL d a b l s
  | .amoCasW d a b l => Sys2Proof.Machine.execAmoCasW d a b l s
  | .amoCasL d a b l => Sys2Proof.Machine.execAmoCasL d a b l s
  | .amoFaddF32 d a b l => Sys2Proof.Machine.execAmoFaddF32 d a b l s
  | .amoFaddF64 d a b l => Sys2Proof.Machine.execAmoFaddF64 d a b l s
  | .vamoAddW d a b l => Sys2Proof.Machine.execVamoAddW d a b l s
  | .vamoAddL d a b l => Sys2Proof.Machine.execVamoAddL d a b l s
  | .vamoMinL d a b l => Sys2Proof.Machine.execVamoMinL d a b l s
  | .vamoMaxL d a b l => Sys2Proof.Machine.execVamoMaxL d a b l s
  | .vamoMinuL d a b l => Sys2Proof.Machine.execVamoMinuL d a b l s
  | .vamoMaxuL d a b l => Sys2Proof.Machine.execVamoMaxuL d a b l s
  | .vamoAndL d a b l => Sys2Proof.Machine.execVamoAndL d a b l s
  | .vamoOrL d a b l => Sys2Proof.Machine.execVamoOrL d a b l s
  | .vamoXorL d a b l => Sys2Proof.Machine.execVamoXorL d a b l s
  | .vamoSwapW d a b l => Sys2Proof.Machine.execVamoSwapW d a b l s
  | .vamoSwapL d a b l => Sys2Proof.Machine.execVamoSwapL d a b l s
  | .vamoFaddF32 d a b l => Sys2Proof.Machine.execVamoFaddF32 d a b l s
  | .vamoFaddF64 d a b l => Sys2Proof.Machine.execVamoFaddF64 d a b l s
  | .fence l => Sys2Proof.Machine.execFence l s
  | .fenceAcq l => Sys2Proof.Machine.execFenceAcq l s
  | .fenceRel l => Sys2Proof.Machine.execFenceRel l s
  | .ldAcqW d a l => Sys2Proof.Machine.execLdAcqW d a l s
  | .ldAcqL d a l => Sys2Proof.Machine.execLdAcqL d a l s
  | .stRelW s0 a l => Sys2Proof.Machine.execStRelW s0 a l s
  | .stRelL s0 a l => Sys2Proof.Machine.execStRelL s0 a l s
  | .vldAcqL d a l => Sys2Proof.Machine.execVldAcqL d a l s
  | .vldAcqF64 d a l => Sys2Proof.Machine.execVldAcqF64 d a l s
  | .vstRelL s0 a l => Sys2Proof.Machine.execVstRelL s0 a l s
  | .vstRelF64 s0 a l => Sys2Proof.Machine.execVstRelF64 s0 a l s
  | .tlAcq => Sys2Proof.Machine.execTlAcq s
  | .vsync => Sys2Proof.Machine.execVsync s
  | .bar d l => Sys2Proof.Machine.execBar d l s
  | .claim d a b => Sys2Proof.Machine.execClaim d a b s
  | .vsplit n => Sys2Proof.Machine.execVsplit n s
  | .vmerge => Sys2Proof.Machine.execVmerge s
  | .swait => Sys2Proof.Machine.execSwait s
  | .swake a => Sys2Proof.Machine.execSwake a s
  | .hq d a l => Sys2Proof.Machine.execHq d a l s
  | .sdone => Sys2Proof.Machine.execSdone s
  | .syield => Sys2Proof.Machine.execSyield s
  | .rplCap n => Sys2Proof.Machine.execRplCap n s
  | .rplRun a => Sys2Proof.Machine.execRplRun a s
  | .engPush a e => Sys2Proof.Machine.execEngPush a e s
  | .engPop d a e => Sys2Proof.Machine.execEngPop d a e s
  | .engPoll d e => Sys2Proof.Machine.execEngPoll d e s
  | .engDrain e => Sys2Proof.Machine.execEngDrain e s
  | .colRed d a q r t k => Sys2Proof.Machine.execColRed d a q r t k s
  | .colAred d a q r t k => Sys2Proof.Machine.execColAred d a q r t k s
  | .colGat d a q t => Sys2Proof.Machine.execColGat d a q t s
  | .colAgat d a q t => Sys2Proof.Machine.execColAgat d a q t s
  | .colSct d a q t => Sys2Proof.Machine.execColSct d a q t s
  | .colA2a d a q t => Sys2Proof.Machine.execColA2a d a q t s
  | .grpJoin d a q => Sys2Proof.Machine.execGrpJoin d a q s
  | .grpLeave d q => Sys2Proof.Machine.execGrpLeave d q s
  | .grpInfo d a q => Sys2Proof.Machine.execGrpInfo d a q s
  | .grpLoad d a q => Sys2Proof.Machine.execGrpLoad d a q s
  | .crd d s0 => Sys2Proof.Machine.execCrd d s0 s
  | .cwr a s0 => Sys2Proof.Machine.execCwr a s0 s
  | .srd d s0 => Sys2Proof.Machine.execSrd d s0 s
  | .swr a s0 => Sys2Proof.Machine.execSwr a s0 s
  | .cntRd d c i0 => Sys2Proof.Machine.execCntRd d c i0 s
  | .sys => Sys2Proof.Machine.execSys s
  | .trap a => Sys2Proof.Machine.execTrap a s
  | .tret => Sys2Proof.Machine.execTret s
  | .brk => Sys2Proof.Machine.execBrk s
  | .wait => Sys2Proof.Machine.execWait s
  | .drd d a => Sys2Proof.Machine.execDrd d a s
  | .svc a => Sys2Proof.Machine.execSvc a s
  | .logApp a => Sys2Proof.Machine.execLogApp a s
  | .waitTimeout sn => Sys2Proof.Machine.execWaitTimeout sn s
  | .swapEffect core => Sys2Proof.Machine.execSwapEffect core s
  | .copy die eng => Sys2Proof.Machine.execCopy die eng s
  | .planeLoad die eng => Sys2Proof.Machine.execPlaneLoad die eng s
  | .followOn core => Sys2Proof.Machine.execFollowOn core s
  | .convert die eng => Sys2Proof.Machine.execConvert die eng s
  | .compact die eng => Sys2Proof.Machine.execCompact die eng s
  | .remap die eng => Sys2Proof.Machine.execRemap die eng s
  | .mxfp4 die eng => Sys2Proof.Machine.execMxfp4 die eng s
  | .colour sect => Sys2Proof.Machine.execColour sect s
  | .topoCreate die => Sys2Proof.Machine.execTopoCreate die s
  | .adapt die => Sys2Proof.Machine.execAdapt die s
  | .topoExport die => Sys2Proof.Machine.execTopoExport die s
  | .hold die => Sys2Proof.Machine.execHold die s
  | .drop die => Sys2Proof.Machine.execDrop die s
  | .partition die => Sys2Proof.Machine.execPartition die s
  | .topoDestroy die => Sys2Proof.Machine.execTopoDestroy die s
  | .collCreate die taken bad elsewhere => Sys2Proof.Machine.execCollCreate die taken bad elsewhere s
  | .collDestroy die => Sys2Proof.Machine.execCollDestroy die s
  | .memcoll die => Sys2Proof.Machine.execMemcoll die s
  | .flush die => Sys2Proof.Machine.execFlush die s
  | .query die => Sys2Proof.Machine.execQuery die s
  | .pageWalk sn va => Sys2Proof.Machine.execPageWalk sn va s
  | .hostWalkReply region page leaf large => Sys2Proof.Machine.execHostWalkReply region page leaf large s
  | .logApply die => Sys2Proof.Machine.execLogApply die s
  | .rowActivateHint sn entry => Sys2Proof.Machine.execRowActivateHint sn entry s
  | .hintRowClose core row => Sys2Proof.Machine.execHintRowClose core row s
  | .elementTrain src tag kind drid rgen elems => Sys2Proof.Machine.execElementTrain src tag kind drid rgen elems s
  | .trainAck tag count refused => Sys2Proof.Machine.execTrainAck tag count refused s
  | .contribution gid gen form seq rank a b elems idx => Sys2Proof.Machine.execContribution gid gen form seq rank a b elems idx s
  | .collectiveComplete gid gen form seq => Sys2Proof.Machine.execCollectiveComplete gid gen form seq s
  | .barrierComplete lid inst arrived missing wd newwd => Sys2Proof.Machine.execBarrierComplete lid inst arrived missing wd newwd s
  | .membershipRequest gid kind who => Sys2Proof.Machine.execMembershipRequest gid kind who s
  | .newgen gid region gen root k members => Sys2Proof.Machine.execNewgen gid region gen root k members s
  | .newgenAck gid gen pkg => Sys2Proof.Machine.execNewgenAck gid gen pkg s
  | .newgenTimeout gid pkg => Sys2Proof.Machine.execNewgenTimeout gid pkg s
  | .hostMemberList gid members => Sys2Proof.Machine.execHostMemberList gid members s
  | .launch fn => Sys2Proof.Machine.execLaunch fn s
  | .hostPlacement fn units => Sys2Proof.Machine.execHostPlacement fn units s
  | .houseFault lid => Sys2Proof.Machine.execHouseFault lid s
  | .seatDecision core slot => Sys2Proof.Machine.execSeatDecision core slot s
  | .quantumExpiry sn => Sys2Proof.Machine.execQuantumExpiry sn s
  | .priorityAging sn => Sys2Proof.Machine.execPriorityAging sn s
  | .park sn => Sys2Proof.Machine.execPark sn s
  | .unpark sn => Sys2Proof.Machine.execUnpark sn s
  | .preemption sn => Sys2Proof.Machine.execPreemption sn s
  | .preemptQuiesce sn => Sys2Proof.Machine.execPreemptQuiesce sn s
  | .save sn => Sys2Proof.Machine.execSave sn s
  | .imageCopy sn ok => Sys2Proof.Machine.execImageCopy sn ok s
  | .restore sn => Sys2Proof.Machine.execRestore sn s
  | .trapEntry sn => Sys2Proof.Machine.execTrapEntry sn s
  | .powerSample watts mx vec => Sys2Proof.Machine.execPowerSample watts mx vec s
  | .thermalStop die => Sys2Proof.Machine.execThermalStop die s
  | .linkFailure link => Sys2Proof.Machine.execLinkFailure link s
  | .dieCutoff die => Sys2Proof.Machine.execDieCutoff die s
  | .scrubPass die stk first count worn => Sys2Proof.Machine.execScrubPass die stk first count worn s
  | .heartbeat die stk => Sys2Proof.Machine.execHeartbeat die stk s
  | .baseDieCoreFailed die stk => Sys2Proof.Machine.execBaseDieCoreFailed die stk s
  | .refreshTakeover die stk => Sys2Proof.Machine.execRefreshTakeover die stk s
  | .refreshDouble die stk temp => Sys2Proof.Machine.execRefreshDouble die stk temp s
  | .remapCommitReply pkg handle gen ph => Sys2Proof.Machine.execRemapCommitReply pkg handle gen ph s
  | .partitionEntryWrite n dw data => Sys2Proof.Machine.execPartitionEntryWrite n dw data s
  | .regionRecordWrite fn r dw data => Sys2Proof.Machine.execRegionRecordWrite fn r dw data s
  | .saveAreaWrite n dw data => Sys2Proof.Machine.execSaveAreaWrite n dw data s
  | .dutyWrite data => Sys2Proof.Machine.execDutyWrite data s
  | .dutyActUpdate fnbit => Sys2Proof.Machine.execDutyActUpdate fnbit s
  | .registerWrite fn bar off len data => Sys2Proof.Machine.execRegisterWrite fn bar off len data s
  | .quote fn => Sys2Proof.Machine.execQuote fn s
  | .cert fn => Sys2Proof.Machine.execCert fn s
  | .stage fn => Sys2Proof.Machine.execStage fn s
  | .swap fn => Sys2Proof.Machine.execSwap fn s
  | .prepare fn fabric => Sys2Proof.Machine.execPrepare fn fabric s
  | .commit fn fabric => Sys2Proof.Machine.execCommit fn fabric s
  | .scrub fn => Sys2Proof.Machine.execScrub fn s
  | .logapp fn => Sys2Proof.Machine.execLogapp fn s
  | .powerUp cfg failed => Sys2Proof.Machine.execPowerUp cfg failed s
  | .fwgo len => Sys2Proof.Machine.execFwgo len s
  | .firmwareBoot share base => Sys2Proof.Machine.execFirmwareBoot share base s
  | .linkReset => Sys2Proof.Machine.execLinkReset s
  | .vfFlr n => Sys2Proof.Machine.execVfFlr n s
  | .illegalInstruction w => Sys2Proof.Machine.execIllegalInstruction w s
  | .instructionFetchFault code va => Sys2Proof.Machine.execInstructionFetchFault code va s
  | .fabricRequest src tag drid rgen op addr len x y grade => Sys2Proof.Machine.execFabricRequest src tag drid rgen op addr len x y grade s
  | .fabricReply tag answer => Sys2Proof.Machine.execFabricReply tag answer s
  | .junctionCooled die => Sys2Proof.Machine.execJunctionCooled die s
  | .powerDown => Sys2Proof.Machine.execPowerDown s
  | .capacityTierControllerFailed die ctl => Sys2Proof.Machine.execCapacityTierControllerFailed die ctl s
  | .hostLogConfirmation die => Sys2Proof.Machine.execHostLogConfirmation die s
  | .hostTopologyResult die => Sys2Proof.Machine.execHostTopologyResult die s
  | .hostRefreshSetting die stk rate => Sys2Proof.Machine.execHostRefreshSetting die stk rate s

end Sys2Proof.Machine
end

