-- ==== Sys2Proof/Machine/Peer.lean ====
section
/-!
DEFINITION. What the other packages of a launch or a group tell this one (R332, R344, R348, R353, R357–R359, R375, R378, R382, R442, R448):
strands to create and to end, how strands elsewhere fare, and what has become of a group.
-/

namespace Sys2Proof.Machine

open Sys2Proof

/-- The launch of a package as it is kept here. -/
def State.peerLaunch (s : State) (home lid : Nat) : Option Launch := s.launch? (s.launchKey home lid)

/-- The local region of a domain region (R397). -/
def State.regionOf (s : State) (drid : Nat) : Option Nat :=
  (s.regions.find? fun r => regionValid r.2 && regionDrid r.2 == drid).map (·.1)

/-- An instance of a launch of another package as it is kept here: a house keeps the arrivals that this package knows of, a strand's
instance its strand, unless it is created anew. -/
def mergeInst (old : Option Inst) (new : Inst) (leaf fresh : Bool) : Inst :=
  match old with
  | none => { new with strand := none }
  | some o =>
    if !leaf then { new with strand := none, arrived := if o.episode = new.episode then (o.arrived ++ new.arrived).eraseDups else new.arrived }
    else if fresh then { new with strand := none }
    else { o with status := new.status }

/-- The launch of another package, with some of its instances to be created here. -/
def State.adopt (s : State) (home region : Nat) (l : Launch) (is : List Nat) : Launch :=
  let old := s.peerLaunch home (l.lid % 2 ^ 32)
  { l with
    lid := s.launchKey home (l.lid % 2 ^ 32), origin := some home, region, partn := regionPart (s.regionRec region), faults := []
    insts := l.insts.zipIdx.map fun (x, i) => mergeInst (old.bind fun o => o.insts[i]?) x (l.levelOf i == 0) (is.contains i) }

/-- Strands are created in the region of the DRID (R348, R353). -/
def peerBind (home drid : Nat) (l : Launch) (is : List Nat) : M Unit := do
  let s ← get
  match s.regionOf drid with
  | none => pure ()
  | some region =>
    let known := (s.peerLaunch home (l.lid % 2 ^ 32)).isSome
    match ← catchFault (createHere (s.adopt home region l is) is) with
    | .error _ => pure ()
    | .ok l => modify fun s => if known then s.setLaunch l else { s with launches := s.launches ++ [l] }

/-- The status of an instance elsewhere. The launching package retires it, or keeps the unfinished claims of its strand (R358, R359);
the others note it, and a withdrawal in the houses above it (R378). -/
def peerInst (home lid i : Nat) (st : InstStatus) (ranges : List Claim) : M Unit := do
  let s ← get
  match s.peerLaunch home lid with
  | none => pure ()
  | some l =>
    if l.origin.isNone then
      if l.statusOf i ≠ .live then pure ()
      else if st = .retired then settleLaunch (l.retireLeaf i)
      else set (s.setLaunch (l.mapInst i fun x => { x with claims := ranges }))
    else
      let l' := l.mapInst i fun x => { x with status := st }
      set (s.setLaunch (match st, (l.insts[i]?).bind (·.mid), (l.insts[i]?).bind (·.parent) with
        | .withdrawn, some m, some p => if l.statusOf i = .withdrawn then l' else l'.noteWithdrawal [m] 16 p
        | _, _, _ => l'))

/-- A strand on another package has failed (R357); where a fault has ended its instance already, the binder is to record this one as
superseded (R359). -/
def peerFailed (lid i mid cause : Nat) (val : Word) (ranges : List Claim) (s : State) : State :=
  match s.launch? lid with
  | none => s
  | some l =>
    if l.origin.isSome || !l.live then s
    else s.setLaunch { l.mapInst i fun x => if x.status = .live then { x with status := .ended } else x with
      faults := l.faults ++ [{ inst := failHouse l i, event := 1, child := some i, mid, cause, val, ranges, gone := [] }] }

/-- The die of a level-0 instance's unit. -/
def Launch.dieOf (l : Launch) (i : Nat) : DieNo :=
  let u := l.unitOf i
  coreDie ((if u.1 ≤ 1 then u.2 / 128 else if u.1 = 2 then u.2 / 8 else u.2) * 128)

/-- Strands were ended with a die of another package: the LINK house faults are raised here (R448). -/
def peerCutOff (lid : Nat) (gone : List (Nat × List Claim)) (s : State) : State :=
  match s.launch? lid, gone with
  | some l, (i, _) :: _ =>
    if l.origin.isSome || !l.live then s
    else
      let ended := gone.foldl (fun l x => l.mapInst x.1 fun y => { y with status := .ended }) l
      s.setLaunch (ended.raiseLink (nth l.pkgs (((l.insts[i]?).map (·.pkg)).getD 0) 0) (l.dieOf i) gone)
  | _, _ => s

/-- The MIDs of strands elsewhere, by their instances. -/
def peerBound (home lid : Nat) (mids : List (Nat × Nat)) (s : State) : State :=
  s.mapLaunch (s.launchKey home lid) fun l => mids.foldl (fun l x => l.mapInst x.1 fun y => { y with mid := some x.2 }) l

/-- A strand elsewhere has arrived at the next episode of a house, once (R378). -/
def peerArrive (home lid h episode mid : Nat) (s : State) : State :=
  s.mapLaunch (s.launchKey home lid) fun l => l.mapInst h fun x =>
    if episode = x.episode + 1 ∧ x.arrived.contains mid = false then { x with arrived := x.arrived ++ [mid] } else x

/-- A message of another package. -/
def peerMessage : PeerMsg → M Unit
  | .bind home drid l is => peerBind home drid l is
  | .unbind home lid i => do
    let s ← get
    match (s.peerLaunch home lid).bind fun l => (l.insts[i]?).bind (·.strand) with
    | some sn => let _ ← endHere sn
    | none => pure ()
  | .launchOver home lid => modify fun s => s.mapLaunch (s.launchKey home lid) fun l => { l with live := false }
  | .inst home lid i st ranges => peerInst home lid i st ranges
  | .failed lid i mid cause val ranges => modify (peerFailed lid i mid cause val ranges)
  | .cutOff lid gone => modify (peerCutOff lid gone)
  | .wake sn home lid => modify fun s => match s.strand? sn with
    | some t => if t.live && t.sched.lid == s.launchKey home lid then s.wakeStrand sn else s
    | none => s
  | .bound home lid mids => modify (peerBound home lid mids)
  | .arrive home lid h episode mid => modify (peerArrive home lid h episode mid)
  | .stable gid gen => modify fun s => s.mapGroup gid fun g => if g.gen = gen ∧ g.settled = false then g.stable else g
  | .ungroup gid => modify fun s => s.ungroup gid

/-- The turn of a message. -/
def State.peer (s : State) (m : PeerMsg) : Out := runEvent s (peerMessage m)

end Sys2Proof.Machine
end

