-- ==== Sys2Proof/Machine/Step.lean ====
section
/-!
DEFINITION. One step of the package: the agent whose turn it is moves. A strand runs the head of its vector queue or fetches,
decodes and runs its next word; an event of the opcode table happens; a cache drops an entry; a line fails; the host uses its memory or a window.
-/

namespace Sys2Proof.Machine

open Sys2Proof

noncomputable section

/-- Run a word for the strand whose turn it is: ILL when it decodes to nothing (R52). -/
def runWord (s : State) (w : InstrWord) : Out :=
  match decodeWord w.toNat with
  | .ok i => exec i { s with ir := w }
  | .error _ => exec (.illegalInstruction w) { s with ir := w }

/-- What the strand whose turn it is does (R40, R96, R419). -/
def stepStrand (s : State) : Out :=
  match s.nextOf with
  | .idle => .next s
  | .replay w => runWord s w
  | .notify => exec (.trapEntry s.st.sn) s
  | .entry e r => runWord { s with st := { s.st with vq := r, issue := some e } } e.word
  | .word =>
    match fetchM s with
    | .ok w s' => runWord s' w
    | .error (.trap t) s' => exec (.instructionFetchFault t.code t.val) s'
    | .error (.wait w) s' => .next (s'.waiting w)

/-- The turn of a strand. -/
def turnOf (s : State) (sn : Nat) : Out :=
  match s.strand? sn with
  | none => .next s
  | some _ => stepStrand (s.switchTo sn)

/-- The turn of a strand's scalar stream alone (R39). -/
def scalarTurn (s : State) (sn : Nat) : Out :=
  match s.strand? sn with
  | none => .next s
  | some _ =>
    let t := (s.switchTo sn).asScalar
    if t.nextOf.scalar then
      match stepStrand t with
      | .next u => .next u.scalarDone
      | x => x
    else .next s

/-- The turn of an entry of a strand's queue up to a group boundary (R369, R430). -/
def aheadTurn (s : State) (sn k m : Nat) : Out :=
  match s.strand? sn with
  | none => .next s
  | some _ =>
    let t := s.switchTo sn
    match t.earlyEntry k m with
    | none => .next s
    | some e => runWord (t.runsAhead k m e) e.word

/-- The next turn: the one queued first, or the chosen strand's (assumption log 84). -/
def stepTurn (s : State) : Out :=
  match s.turns with
  | [] =>
    match s.chosen with
    | some sn => turnOf s sn
    | none => if s.phase = .off then .fault .powerOff else .next s
  | t :: r =>
    let s := { s with turns := r }
    match t with
    | .strand sn => turnOf s sn
    | .scalar sn => scalarTurn s sn
    | .ahead sn k m => aheadTurn s sn k m
    | .peer m => s.peer m
    | .hopWait die n => .next (s.hopWait die n)
    | .event i => if i.isWord || raisedByWord i then .next s else exec i s
    | .dropTlb scope unit idx => .next (s.dropTlb scope unit idx)
    | .hostStore addr n data => .next { s with hostMem := Memory.writeN s.hostMem addr n data }
    | .hostFrame frame readable writable => .next (s.hostFrame frame readable writable)
    | .hostRead fn bar off len => .next (s.hostRead fn bar off len)
    | .measure n d => .next (s.measure n d)
    | .assist bit => .next (s.assist bit)
    | .lineBad line => .next { s with badLines := insertAsc s.badLines line }

/-- One step: the turn, the end of its stores to uncorrectable lines (R450), the writes that have waited for the logs (R397), then the
passing of time (assumption log 86). -/
def step (s : State) : Host.Outcome State Fault Refusal :=
  match stepTurn s with
  | .next s' => .next s'.dropBad.settleHeld.tick
  | .fault f => .fault f
  | .refused r => .refused r

/-- The state whose next step fetches and runs the word (assumption log 11). -/
def State.withFetchWord (s : State) (nbits w : Nat) : State := s.placeWord (w % 2 ^ nbits)

end

end Sys2Proof.Machine
end

