-- ==== Sys2Proof/Safety.lean ====
section
/-!
DEFINITION. What a safe run is: the machine neither refuses nor faults, and its memories keep their canonical form.
-/

namespace Sys2Proof.Machine

open Sys2Proof

/-- Every memory of the package is in its canonical form. -/
def State.memWf (s : State) : Bool :=
  s.mem.wf && s.onchip.wf && s.shadow.wf && s.hostMem.wf && s.staging.wf

/-- The outcome is a next state. -/
def isNext (o : Out) : Bool := match o with | .next _ => true | _ => false

/-- A step is safe: it gives a next state, whose memories are in canonical form. -/
def safeStep (s : State) : Prop := ∃ t, step s = .next t ∧ t.memWf = true

end Sys2Proof.Machine
end

