-- ==== Sys2Proof/Certificates/Slice0/Obligations.lean ====
section
/-!
DEFINITION. The statements about the machine, and the words they are made in. Each statement's docstring names the rules of
spec/ it comes from.
-/

open Sys2Proof Sys2Proof.Machine

namespace Sys2Proof.Claim

/-! ### What stays the same -/

/-- Every integer register but those listed holds what it held. -/
def sameG (s t : State) (but : List GReg) : Prop := ∀ r, r ∉ but → t.g r = s.g r
/-- Every scalar FP register but those listed holds value and grade word that it held. -/
def sameF (s t : State) (but : List FReg) : Prop := ∀ r, r ∉ but → t.f r = s.f r
/-- Every element of every vector register but those listed holds what it held. -/
def sameV (s t : State) (but : List VReg) : Prop := ∀ r, r ∉ but → ∀ e, t.v r e = s.v r e
/-- Every bit of every mask register but those listed holds what it held. -/
def sameM (s t : State) (but : List MReg) : Prop := ∀ r, r ∉ but → ∀ e, t.mbit r e = s.mbit r e
/-- Control registers, trap registers, mode, bound streams, group handles, claims and replay buffer are as they were. -/
def sameSystem (s t : State) : Prop :=
  t.st.ctl = s.st.ctl ∧ t.st.trap = s.st.trap ∧ t.st.mode = s.st.mode ∧ t.st.k = s.st.k ∧ t.st.q = s.st.q ∧
  t.st.claims = s.st.claims ∧ t.st.rpl = s.st.rpl
/-- Every byte of memory reads as it did, and so does every byte of lane SRAM, planes and tiles. -/
def sameMem (s t : State) : Prop :=
  (∀ a, Memory.read t.mem a = Memory.read s.mem a) ∧ ∀ a, Memory.read t.onchip a = Memory.read s.onchip a

/-! ### Waiting for the vector queue -/

/-- No entry of the vector queue writes one of these registers, so a scalar instruction that names them does not wait
(R83, R108). -/
def regsFree (s : State) (gs : List GReg) (fs : List FReg) : Prop :=
  ∀ e ∈ s.st.vq, ∀ x, scDest e.word = some x →
    (x.1 = false → ∀ r ∈ gs, r.val ≠ x.2) ∧ (x.1 = true → ∀ r ∈ fs, r.val ≠ x.2)

/-! ### Integer operations (Tables 4-1 and 4-2, R86, R87) -/

/-- wrap(x, 64). -/
def wrap (x : Int) : Word := BitVec.ofInt 64 x
/-- sext(x, n) of an n-bit field. -/
def sext {n : Nat} (x : BitVec n) : Int := x.toInt
/-- 1 or 0. -/
def bool01 (b : Bool) : Word := wrap (if b then 1 else 0)
/-- trunc(a ÷ b). -/
def truncDiv (a b : Int) : Int := a.tdiv b
/-- Leading zero bits of a doubleword. -/
def leading (x : Word) : Nat := ((List.range 64).takeWhile fun j => !x.getLsbD (63 - j)).length
/-- One bits of a doubleword. -/
def ones (x : Word) : Nat := ((List.range 64).filter fun j => x.getLsbD j).length

/-- An integer instruction's registers, destination and result. -/
structure IntOp where
  regs : List GReg
  dst : GReg
  val : Word

/-- A row of Table 4-2 on two registers: the result before wrap, from s(ga), s(gb), u(ga), u(gb). -/
def rr (s : State) (d a b : GReg) (f : Int → Int → Nat → Nat → Int) : Option IntOp :=
  some ⟨[d, a, b], d, wrap (f (s.g a).toInt (s.g b).toInt (s.g a).toNat (s.g b).toNat)⟩
/-- The same with a constant pattern in place of gb. -/
def ri (s : State) (d a : GReg) (y : Word) (f : Int → Int → Nat → Nat → Int) : Option IntOp :=
  some ⟨[d, a], d, wrap (f (s.g a).toInt y.toInt (s.g a).toNat y.toNat)⟩

/-- The result of an integer instruction. -/
def intOp (s : State) : Instr → Option IntOp
  | .add d a b => rr s d a b fun x y _ _ => x + y
  | .sub d a b => rr s d a b fun x y _ _ => x - y
  | .and d a b => rr s d a b fun _ _ x y => (x &&& y : Nat)
  | .or d a b => rr s d a b fun _ _ x y => (x ||| y : Nat)
  | .xor d a b => rr s d a b fun _ _ x y => (x ^^^ y : Nat)
  | .sll d a b => rr s d a b fun _ _ x y => (x * 2 ^ (y % 64) : Nat)
  | .srl d a b => rr s d a b fun _ _ x y => (x / 2 ^ (y % 64) : Nat)
  | .sra d a b => rr s d a b fun x _ _ y => x / 2 ^ (y % 64)
  | .slt d a b => rr s d a b fun x y _ _ => if x < y then 1 else 0
  | .sltu d a b => rr s d a b fun _ _ x y => if x < y then 1 else 0
  | .min d a b => rr s d a b fun x y _ _ => if x < y then x else y
  | .max d a b => rr s d a b fun x y _ _ => if x < y then y else x
  | .minu d a b => rr s d a b fun _ _ x y => (Nat.min x y : Nat)
  | .maxu d a b => rr s d a b fun _ _ x y => (Nat.max x y : Nat)
  | .mul d a b => rr s d a b fun x y _ _ => x * y
  | .mulh d a b => rr s d a b fun x y _ _ => x * y / 2 ^ 64
  | .mulhu d a b => rr s d a b fun _ _ x y => (x * y / 2 ^ 64 : Nat)
  | .div d a b => rr s d a b fun x y _ _ => if y = 0 then -1 else truncDiv x y
  | .divu d a b => rr s d a b fun _ _ x y => if y = 0 then 2 ^ 64 - 1 else (x / y : Nat)
  | .rem d a b => rr s d a b fun x y _ _ => if y = 0 then x else x - y * truncDiv x y
  | .remu d a b => rr s d a b fun _ _ x y => if y = 0 then x else (x : Int) - y * (x / y : Nat)
  | .clz d a => some ⟨[d, a], d, wrap (leading (s.g a))⟩
  | .popc d a => some ⟨[d, a], d, wrap (ones (s.g a))⟩
  | .slli d a n => ri s d a (wrap n.toNat) fun _ _ x k => (x * 2 ^ k : Nat)
  | .srli d a n => ri s d a (wrap n.toNat) fun _ _ x k => (x / 2 ^ k : Nat)
  | .srai d a n => ri s d a (wrap n.toNat) fun x _ _ k => x / 2 ^ k
  | .addi d a i => ri s d a (wrap (sext i)) fun x y _ _ => x + y
  | .andi d a i => ri s d a (wrap (sext i)) fun _ _ x y => (x &&& y : Nat)
  | .ori d a i => ri s d a (wrap (sext i)) fun _ _ x y => (x ||| y : Nat)
  | .xori d a i => ri s d a (wrap (sext i)) fun _ _ x y => (x ^^^ y : Nat)
  | .slti d a i => ri s d a (wrap (sext i)) fun x y _ _ => if x < y then 1 else 0
  | .sltiu d a i => ri s d a (wrap (sext i)) fun _ _ x y => if x < y then 1 else 0
  | .lhi d i => some ⟨[d], d, wrap (sext i * 2 ^ 14)⟩
  | .adpc d i => some ⟨[d], d, wrap ((s.st.pc.toNat - s.st.pc.toNat % 2 ^ 14 : Nat) + sext i * 2 ^ 14)⟩
  | _ => none

end Sys2Proof.Claim

/-- R85, R86, R87 with R83: every integer instruction writes gd with the result of Table 4-2, wrapped to 64 bits, and goes on at
PC + 4; nothing else of the machine changes but what retiring does (`RetireOnlyCounts`), which counts no request twice. A result for g0 is discarded. -/
def Sys2Proof.Claim.IntegerResults : Prop :=
  ∀ (i : Instr) (s : State) (o : Claim.IntOp), Claim.intOp s i = some o → Claim.regsFree s o.regs [] →
    exec i s = .next ((s.resuming.setG o.dst o.val).retire (s.st.pc + 4))

/-- R83, R85: whatever an integer instruction does, waiting for the queue included, it changes no register but gd, no flag, no
control, trap or mode register and no byte of memory. -/
def Sys2Proof.Claim.IntegerFrame : Prop :=
  ∀ (i : Instr) (s t : State) (o : Claim.IntOp), Claim.intOp s i = some o → exec i s = .next t →
    Claim.sameG s t [o.dst] ∧ Claim.sameF s t [] ∧ Claim.sameV s t [] ∧ Claim.sameM s t [] ∧ Claim.sameSystem s t ∧ Claim.sameMem s t

/-- Retiring moves the PC, ends the waits of the scalar stream, counts the requests of the instruction, forgets the accesses it began
and the fabric answers it used and lets go the translations that a restart attempt held: registers, memory and everything else stay
(R83, R252, R371). -/
def Sys2Proof.Claim.RetireOnlyCounts : Prop :=
  ∀ (s : State) (pc : Word), ∃ (d : Vector Die 4) (c : SMap Core) (x : Vector Sect 32) (b : List Begun) (r : List Remote),
    s.retire pc = { s with dies := d, cores := c, sects := x, st := { s.st with
      lines := [], counted := [], scalarLines := [], begun := b, remote := r, pc, wait := .none, restartPc := none,
      hold := if s.st.restartPc.isSome then [] else s.st.hold, scalarNext := false, entered := false } } ∧
    (∀ k, (SMap.getD c k Core.init).tlb = (s.coreOf k).tlb) ∧ (s.st.remote = [] → r = []) ∧
    (∀ a ∈ b, a ∈ s.st.begun ∧ a.owner ≠ 0) ∧ (s.st.lines = [] → d = s.dies ∧ c = s.cores ∧ x = s.sects)

/-- R83, R85 to R87, R252: what every integer instruction writes, what it leaves as it was, and what retiring does. -/
def Obligations.IntegerInstructions : Prop := Sys2Proof.Claim.IntegerResults ∧ Sys2Proof.Claim.IntegerFrame ∧ Sys2Proof.Claim.RetireOnlyCounts

namespace Sys2Proof.Claim

/-! ### Branches and jumps (R93–R96) -/

/-- A target: PC + 4 × offset, wrapped. -/
def target (s : State) (off : Int) : Word := wrap (s.st.pc.toNat + 4 * off)
/-- The address of the next instruction. -/
def next (s : State) : Word := wrap (s.st.pc.toNat + 4)

/-- A branch or jump: the integer registers it names, the mask it tests, the register its return address goes to, and the
address it goes on at. -/
structure Jump where
  regs : List GReg
  mask : Option MReg
  link : Option GReg
  dest : Word

/-- Ones among bits 0 to VL - 1 of a mask register. -/
def maskOnes (s : State) (m : MReg) : Nat := ((List.range s.st.ctl.vl).filter fun e => s.mbit m e).length
def cmpJump (s : State) (a b : GReg) (o : BitVec 14) (c : Bool) : Option Jump :=
  some ⟨[a, b], none, none, if c then target s (sext o) else next s⟩
def maskJump (s : State) (m : MReg) (o : BitVec 14) (c : Bool) : Option Jump :=
  some ⟨[], some m, none, if c then target s (sext o) else next s⟩

/-- What a branch or jump does. -/
def jump (s : State) : Instr → Option Jump
  | .beq a b o => cmpJump s a b o (s.g a = s.g b)
  | .bne a b o => cmpJump s a b o (s.g a ≠ s.g b)
  | .blt a b o => cmpJump s a b o ((s.g a).toInt < (s.g b).toInt)
  | .bge a b o => cmpJump s a b o ((s.g b).toInt ≤ (s.g a).toInt)
  | .bltu a b o => cmpJump s a b o ((s.g a).toNat < (s.g b).toNat)
  | .bgeu a b o => cmpJump s a b o ((s.g b).toNat ≤ (s.g a).toNat)
  | .bmz m o => maskJump s m o (maskOnes s m = 0)
  | .bmnz m o => maskJump s m o (maskOnes s m ≠ 0)
  | .bmall m o => maskJump s m o (maskOnes s m = s.st.ctl.vl)
  | .jmp o => some ⟨[], none, none, target s (sext o)⟩
  | .jal o => some ⟨[31], none, some 31, target s (sext o)⟩
  | .jr d a i => some ⟨[d, a], none, some d, wrap (4 * ((wrap ((s.g a).toInt + sext i)).toNat / 4 : Nat))⟩
  | _ => none

/-- No entry of the vector queue writes the mask (R94). -/
def maskFree (s : State) (m : Option MReg) : Prop := ∀ r, m = some r → ∀ e ∈ s.st.vq, maskDest e.word ≠ some r.val

/-! ### Scalar loads and stores (R88–R92, R106) -/

/-- The kind of the pages of an access where it finds one, the stronger of two (Table 14-1). -/
def kindOf (s : State) (va n : Nat) : Nat := max ((s.kindAt va).getD 0) ((s.kindAt (va + n - 1)).getD 0)
/-- No entry of the vector queue may touch these bytes (R92), and none comes before an access to pages of their kind (R256,
R261, R273). -/
def bytesFree (s : State) (va n : Nat) : Prop :=
  ∀ x ∈ queueTouch s.boundRegs s.st.vq,
    (x.2 = .nothing ∨ ∃ lo hi, x.2 = .range lo hi ∧ (hi ≤ va ∨ ((va + n : Nat) : Int) ≤ lo)) ∧
    (kindOf s va n ≠ 0 → acquires x.1.word = false) ∧ (2 ≤ kindOf s va n → s.mayBeStrong x.2 = false)

/-- u(ga) plus the sign-extended immediate, wrapped. -/
def address (s : State) (a : GReg) (i : BitVec 14) : Nat := (wrap ((s.g a).toInt + sext i)).toNat

/-- A scalar load: registers it names, address, bytes, whether it is of FP type, and what it leaves given the bytes read and
the sidecar word of their unit. -/
structure Load where
  gs : List GReg
  fs : List FReg
  va : Nat
  len : Nat
  fp : Bool
  put : Nat → Option Grade → State → State

/-- The grade of FP32 value j in a sidecar word: field j, at most 24; 24 from the ungraded word (R106, R159). -/
def fp32Grade (w : Grade) (j : Nat) : Nat := if w = 0xFFFF then 24 else min 24 (w.toNat / 2 ^ (8 * j) % 32)

def intLoad (s : State) (d a : GReg) (i : BitVec 14) (n : Nat) (signed : Bool) : Option Load :=
  some ⟨[d, a], [], address s a i, n, false, fun x _ s =>
    s.setG d (wrap (if signed ∧ 2 ^ (8 * n - 1) ≤ x then (x : Int) - 2 ^ (8 * n) else x))⟩

/-- What a scalar load does. -/
def load (s : State) : Instr → Option Load
  | .ldB d a i => intLoad s d a i 1 true
  | .ldBu d a i => intLoad s d a i 1 false
  | .ldH d a i => intLoad s d a i 2 true
  | .ldHu d a i => intLoad s d a i 2 false
  | .ldW d a i => intLoad s d a i 4 true
  | .ldWu d a i => intLoad s d a i 4 false
  | .ldL d a i => intLoad s d a i 8 false
  | .fld .f64 f a i => some ⟨[a], [f], address s a i, 8, true, fun x g s => s.setF f ⟨BitVec.ofNat 64 x, match g with
      | some w => if w = 0xFFFF then 53 else BitVec.ofNat 16 (min 53 (w.toNat % 64))
      | none => 53⟩⟩
  | .fld .f32 f a i => some ⟨[a], [f], address s a i, 4, true, fun x g s =>
      s.setF f ⟨BitVec.ofNat 64 x, BitVec.ofNat 16 (match g with | some w => fp32Grade w (address s a i / 4 % 2) | none => 24)⟩⟩
  | _ => none

/-- The bytes of a part can be read here: it is on a page of this package, on lines that can be corrected, its sidecar word
too where it is read, from a die that is reached. -/
def readable (u : State) (fp : Bool) (p : Part) : Prop :=
  match p.loc with
  | .mem key _ sc => u.lineOk key p.len = true ∧ ∀ k, fp = true → sc = some k → u.lineOk k 2 = true ∧
      (u.dies[coreDie (homeDie k * 128)]).cut = false ∧ u.linkDown u.myDie (homeDie k) = false
  | .dev .. => True
  | .remote .. => False
/-- No access that came before is to be finished first: none of the instruction is begun, and where it accesses SO or DV pages no such
element is gathered and every train is acknowledged (R256, R258). -/
def unbegun (s : State) (ps : List Part) : Prop :=
  s.st.begun = [] ∧
  ((∀ p ∈ ps, p.loc.kind < 2) ∨ ((∀ x ∈ s.st.trains, x.strong = false) ∧ ∀ r ∈ s.st.remote, r.op = 1 ∨ r.op = 3 → r.answer ≠ none))
/-- The same of an access of the scalar stream. -/
def inTurn (s : State) (ps : List Part) : Prop := s.st.issue = none ∧ unbegun s ps
/-- The bytes of a part, as a number. -/
def partBytes (u : State) (p : Part) : Nat :=
  match p.loc with
  | .mem key .. => Memory.readN u.mem key p.len
  | .dev fn off => u.devRead (fnIx fn) off p.len
  | .remote .. => 0
/-- The sidecar word of an access of one part. -/
def sidecar (u : State) (fp : Bool) (ps : List Part) : Option Grade :=
  match fp, ps with
  | true, [{ loc := .mem _ _ (some k), .. }] => some (BitVec.ofNat 16 (Memory.readN u.mem k 2))
  | _, _ => none

/-- A scalar store: registers it names, address, bytes, data, whether it is of FP type, and what it writes to the sidecar of a
GT page: the key of the bytes, their number, the place of the unit's word. -/
structure Store where
  gs : List GReg
  fs : List FReg
  va : Nat
  len : Nat
  fp : Bool
  data : Nat
  side : Nat → Nat → Nat → Nat × Nat × Nat

/-- Integer data write 0xFFFF in every touched unit (R89, R170): place, bytes, value. -/
def intSide (key n k : Nat) : Nat × Nat × Nat :=
  let units := (key % 8 + n + 7) / 8
  (k, 2 * units, 2 ^ (16 * units) - 1)
def intStore (s : State) (r a : GReg) (i : BitVec 14) (n : Nat) : Option Store :=
  some ⟨[r, a], [], address s a i, n, false, (s.g r).toNat % 2 ^ (8 * n), intSide⟩
/-- What a scalar store does. -/
def store (s : State) : Instr → Option Store
  | .stB r a i => intStore s r a i 1
  | .stH r a i => intStore s r a i 2
  | .stW r a i => intStore s r a i 4
  | .stL r a i => intStore s r a i 8
  | .fst .f64 f a i =>
      some ⟨[a], [f], address s a i, 8, true, (s.f f).val.toNat, fun _ _ k => (k, 2, (s.f f).grade.toNat)⟩
  | .fst .f32 f a i =>
      some ⟨[a], [f], address s a i, 4, true, (s.f f).val.toNat % 2 ^ 32,
        fun key _ k => (k + key / 4 % 2, 1, fp32Grade (s.f f).grade 0)⟩
  | _ => none

/-- Lines a part writes can be corrected, those of the sidecar too. -/
def writable (u : State) (side : Nat → Nat → Nat → Nat × Nat × Nat) (p : Part) : Prop :=
  match p.loc with
  | .mem key _ sc => u.lineOk key p.len = true ∧ ∀ k, sc = some k →
      u.lineOk (side key p.len k).1 (side key p.len k).2.1 = true
  | .dev .. => True
  | .remote .. => False
/-- A part written: its bytes of the data, and the sidecar of a GT page. -/
def putPart (data : Nat) (side : Nat → Nat → Nat → Nat × Nat × Nat) (u : State) (p : Part) : State :=
  let y := data / 2 ^ (8 * p.at_) % 2 ^ (8 * p.len)
  match p.loc with
  | .mem key _ sc =>
    let m := Memory.writeN u.mem key p.len y
    { u with mem := match sc with
        | some k => let (a, n, x) := side key p.len k; Memory.writeN m a n x
        | none => m }
  | .dev fn off => u.devWrite (fnIx fn) off p.len y
  | .remote .. => u
/-- The bytes of memory a scalar store writes: address and number of the data, address and number of the sidecar bytes. -/
def stored (s : State) (o : Store) : List (Nat × Nat) :=
  match beginM .store (.plain o.fp) o.va o.len 0 s.resuming with
  | .ok b _ => (b.parts.map fun p => match p.loc with
      | .mem key _ (some k) => [(key, p.len), ((o.side key p.len k).1, (o.side key p.len k).2.1)]
      | .mem key _ none => [(key, p.len)]
      | _ => []).flatten
  | .error .. => []

/-! ### Scalar floating point (R97–R105) -/

/-- A scalar FP instruction: registers, flags raised, precision and grade of a graded FP result, and what it writes. -/
structure Fp where
  gs : List GReg
  fs : List FReg
  flags : BitVec 6
  grade : Option (Nat × Nat)
  put : State → State

/-- val(f) in a width. -/
def fval (s : State) (w : ScF) (r : FReg) : Nat := (s.f r).val.toNat % 2 ^ (match w with | .f64 => 64 | .f32 => 32)
/-- Precision of a width. -/
def prec : ScF → Nat | .f64 => 53 | .f32 => 24
/-- gr(f) in a width: the low field of the grade word, at most p; p from the ungraded word (R159). -/
def fgrade (s : State) (w : ScF) (r : FReg) : Nat :=
  if (s.f r).grade = 0xFFFF then prec w
  else min (prec w) ((s.f r).grade.toNat % (match w with | .f64 => 64 | .f32 => 32))
/-- setf. -/
def felem (x g : Nat) : Elem := ⟨BitVec.ofNat 64 x, BitVec.ofNat 16 g⟩
/-- A result for an FP register. -/
def fpResult (w : ScF) (d : FReg) (fs : List FReg) (gs : List GReg) (r : FOut) : Option Fp :=
  some ⟨gs, d :: fs, r.flags, some (prec w, r.grade), fun s => s.setF d (scElem w r.pat r.grade)⟩
/-- The grade of a conversion's source in its width, none for an ungraded one, which counts as the precision of the result
(R159, R162). -/
def cvtGrade (s : State) (w : ScF) (r : FReg) : Option Nat := if (s.f r).grade = 0xFFFF then none else some (fgrade s w r)
def fpOp3 (s : State) (op : FOp) (d a b c : FReg) (w : ScF) : Option Fp :=
  fpResult w d [a, b, c] [] (fpArith (scOf w) (rmOfCode (s.st.ctl.fcr.toNat % 4)) false op
    (fval s w a) (fval s w b) (fval s w c) (fgrade s w a) (fgrade s w b) (fgrade s w c))
/-- Order of the values of two patterns: less, equal, or unordered when either is a NaN (R102). -/
def fless (w : ScF) (x y : Nat) : Bool := fvLt (unpack (scOf w) x) (unpack (scOf w) y)
def fequal (w : ScF) (x y : Nat) : Bool := fvEq (unpack (scOf w) x) (unpack (scOf w) y)
def fnan (w : ScF) (x : Nat) : Bool := isNan (unpack (scOf w) x)
def fsnan (w : ScF) (x : Nat) : Bool := isSnan (scOf w) (unpack (scOf w) x)
/-- A compare: result, and whether it is invalid. -/
def fpCmp (d : GReg) (a b : FReg) (r nv : Bool) : Option Fp :=
  some ⟨[d], [a, b], if nv then 1 else 0, none, fun s => s.setG d (bool01 r)⟩

/-- What a scalar FP instruction does; its value under the arithmetic of 06_number_formats to 08_grades. -/
def fp (s : State) : Instr → Option Fp
  | .fadd d a b w => fpOp3 s .add d a b a w
  | .fsub d a b w => fpOp3 s .sub d a b a w
  | .fmul d a b w => fpOp3 s .mul d a b a w
  | .fdiv d a b w => fpOp3 s .div d a b a w
  | .fsqrt d a w => fpOp3 s .sqrt d a a a w
  | .fmadd d a b c w => fpOp3 s (.fma false false) d a b c w
  | .fmsub d a b c w => fpOp3 s (.fma false true) d a b c w
  | .fmin d a b w =>
      fpResult w d [a, b] [] (fpMinMax (scOf w) false true (fval s w a) (fval s w b) (fgrade s w a) (fgrade s w b))
  | .fmax d a b w =>
      fpResult w d [a, b] [] (fpMinMax (scOf w) false false (fval s w a) (fval s w b) (fgrade s w a) (fgrade s w b))
  | .feq d a b w => fpCmp d a b (fequal w (fval s w a) (fval s w b)) (fsnan w (fval s w a) || fsnan w (fval s w b))
  | .flt d a b w => fpCmp d a b (fless w (fval s w a) (fval s w b)) (fnan w (fval s w a) || fnan w (fval s w b))
  | .fle d a b w => fpCmp d a b (fless w (fval s w a) (fval s w b) || fequal w (fval s w a) (fval s w b))
      (fnan w (fval s w a) || fnan w (fval s w b))
  | .fcvtFmtWidth d a .f32 => fpResult .f32 d [a] [] (fpConvert .f64 .f32 (rmOfCode (s.st.ctl.fcr.toNat % 4)) false false
      (fval s .f64 a) (cvtGrade s .f64 a))
  | .fcvtFmtWidth d a .f64 => fpResult .f64 d [a] [] (fpConvert .f32 .f64 (rmOfCode (s.st.ctl.fcr.toNat % 4)) false false
      (fval s .f32 a) (cvtGrade s .f32 a))
  | .fcvtFmtL d a w => fpResult w d [] [a] (fpFromInt (scOf w) (rmOfCode (s.st.ctl.fcr.toNat % 4)) false false (s.g a).toInt)
  | .fcvtLFmt d a w =>
      let r := fpToInt (scOf w) (rmOfCode (s.st.ctl.fcr.toNat % 4)) false (-2 ^ 63) (2 ^ 63 - 1) (fval s w a)
      some ⟨[d], [a], r.2, none, fun s => s.setG d (wrap r.1)⟩
  | .fgrd d a w => some ⟨[d], [a], 0, none, fun t => t.setG d (wrap (fgrade s w a))⟩
  | .fgset d a w => some ⟨[a], [d], 0, none, fun t => t.setF d (felem (fval s w d) (min (s.g a).toNat (prec w)))⟩
  | .fmvFmtG d a w =>
      some ⟨[a], [d], 0, none, fun t => t.setF d (felem ((s.g a).toNat % 2 ^ (match w with | .f64 => 64 | .f32 => 32)) (prec w))⟩
  | .fmvGFmt d a w => some ⟨[d], [a], 0, none, fun t => t.setG d (wrap (fval s w a))⟩
  | _ => none

/-- FFLAGS with the raised flags set (R98 item 1). -/
def raised (s : State) (fl : BitVec 6) : State := s.mapCtl fun c => { c with fflags := c.fflags ||| fl }
/-- The trap of R98 items 2 and 3, none on the restart attempt of R371: cause and TVAL. -/
def fpTrap (s : State) (o : Fp) : Option (Nat × Word) :=
  if s.st.restartPc = some s.st.pc then none
  else if o.flags &&& s.st.ctl.fcr.extractLsb' 4 6 ≠ 0 then some (7, wrap o.flags.toNat)
  else match o.grade with
    | some (p, g) => if s.st.ctl.gth ≠ 0 ∧ g < min s.st.ctl.gth.toNat p then some (6, wrap g) else none
    | none => none
/-- Nothing of an earlier instruction is left to count or to forget. -/
def settled (s : State) : Prop :=
  s.st.lines = [] ∧ s.st.counted = [] ∧ s.st.scalarLines = [] ∧ s.st.remote = [] ∧ s.st.begun = []

end Sys2Proof.Claim

/-- R93, R94, R95 with R83: a branch goes to PC + 4 × offset where its condition holds and to PC + 4 where it does not; jal and
jr write PC + 4 to g31 and to gd and go to PC + 4 × offset and to ga + imm with bits [1:0] clear, ga as it stood before. -/
def Obligations.BranchTargets : Prop :=
  ∀ (i : Instr) (s : State) (j : Claim.Jump), Claim.jump s i = some j → Claim.regsFree s j.regs [] → Claim.maskFree s j.mask →
    exec i s = .next ((match j.link with | some d => s.resuming.setG d (Claim.next s) | none => s.resuming).retire j.dest)

/-- Placing an access translates and checks it and changes nothing but translation caches, their miss counters, the translations
that a restart attempt holds, and what passes between a walker and the host (R91, R371, R403, R404, R409). -/
def Sys2Proof.Claim.PlacementOnlyTranslates : Prop :=
  ∀ (acc : Acc) (rule : AlignRule) (va n e : Nat) (s t : State),
    ((∃ ps, placeM acc rule va n e s = .ok ps t) ∨ ∃ x, placeM acc rule va n e s = .error x t) →
    ∃ d c x hp hl h, t = { s with dies := d, cores := c, sects := x, hostPosts := hp, hostLeaves := hl, st := { s.st with hold := h } } ∧
      (s.restarting = false → h = s.st.hold)

/-- The parts of a placed access follow each other, make up its bytes, and are at most two (R91). -/
def Sys2Proof.Claim.PartsMakeTheAccess : Prop :=
  ∀ (acc : Acc) (rule : AlignRule) (va n e : Nat) (s t : State) (ps : List Part), 0 < n → n ≤ 65536 →
    placeM acc rule va n e s = .ok ps t →
    (∃ p, ps = [p] ∧ p.at_ = 0 ∧ p.len = n) ∨
    ∃ p q, ps = [p, q] ∧ p.at_ = 0 ∧ 0 < p.len ∧ q.at_ = p.len ∧ 0 < q.len ∧ p.len + q.len = n

/-- R90, R91, R272: an access that does not lie below 2^55 raises XLATE with TVAL at its lowest byte at fault, and nothing is performed;
one that enters the scratch window from below reports its own first address, which is the model's choice (assumption log 25). An ordered
or atomic access takes its range before its alignment: misaligned, it raises XLATE or PERM with its own address, and never goes on. -/
def Sys2Proof.Claim.AddressChecks : Prop :=
  ∀ (acc : Acc) (fp : Bool) (va n e : Nat) (s : State), 0 < n →
    (0x80000000000000 ≤ va → placeM acc (.plain fp) va n e s = .error (.trap { code := 3, val := BitVec.ofNat 64 va, elem := e }) s) ∧
    (va < 0x80000000000000 → 0x80000000000000 < va + n →
      placeM acc (.plain fp) va n e s = .error (.trap { code := 3, val := 0x80000000000000, elem := e }) s) ∧
    (va < 0x7FFFFFF0000000 → 0x7FFFFFF0000000 < va + n → va + n ≤ 0x80000000000000 →
      placeM acc (.plain fp) va n e s = .error (.trap { code := 3, val := BitVec.ofNat 64 va, elem := e }) s) ∧
    (∀ dev, n ≤ 16 → va % n ≠ 0 → 0x80000000000000 < va + n ∨ va < 0x7FFFFFF0000000 ∧ 0x7FFFFFF0000000 < va + n →
      placeM acc (.natural dev) va n e s = .error (.trap { code := 3, val := BitVec.ofNat 64 va, elem := e }) s) ∧
    (∀ dev x t, n ≤ 16 → va % n ≠ 0 → placeM acc (.natural dev) va n e s = .error (.trap x) t →
      x.val = BitVec.ofNat 64 va ∧ (x.code = 3 ∨ x.code = 4)) ∧
    (∀ dev ps t, n ≤ 16 → va % n ≠ 0 → placeM acc (.natural dev) va n e s ≠ .ok ps t)

/-- R90, R91: what placing an access changes, what it finds, and the addresses it refuses. -/
def Obligations.MemoryAccess : Prop := Sys2Proof.Claim.PlacementOnlyTranslates ∧ Sys2Proof.Claim.PartsMakeTheAccess ∧ Sys2Proof.Claim.AddressChecks

/-- R88, R91, R106: a scalar load of bytes that are here completes: gd holds the bytes, lowest address lowest, sign- or
zero-extended; fd holds value and grade from the sidecar of a GT page, full grade on another page. -/
def Sys2Proof.Claim.LoadResults : Prop :=
  ∀ (i : Instr) (s u : State) (o : Claim.Load) (ps : List Part), Claim.load s i = some o → Claim.regsFree s o.gs o.fs →
    Claim.bytesFree s o.va o.len → placeM .load (.plain o.fp) o.va o.len 0 s.resuming = .ok ps u → Claim.inTurn s ps →
    (∀ p ∈ ps, Claim.readable u (o.fp && ps.length == 1) p) →
    ∃ ls, exec i s = .next ((o.put (ps.map fun p => Claim.partBytes u p * 2 ^ (8 * p.at_)).sum (Claim.sidecar u o.fp ps)
      { u with st := { u.st with lines := ls } }).retire (Claim.next s))

/-- R89, R91, R106, R170: a scalar store to pages that are here completes: its bytes are written, lowest address lowest, and
the sidecar of a GT page: 0xFFFF in every touched unit for integer data, the grade word of fs or the byte of its value. -/
def Sys2Proof.Claim.StoreResults : Prop :=
  ∀ (i : Instr) (s u : State) (o : Claim.Store) (ps : List Part), Claim.store s i = some o → Claim.regsFree s o.gs o.fs →
    Claim.bytesFree s o.va o.len → placeM .store (.plain o.fp) o.va o.len 0 s.resuming = .ok ps u → Claim.inTurn s ps →
    (∀ p ∈ ps, Claim.writable u o.side p) →
    ∃ ls, exec i s = .next (({ ps.foldl (Claim.putPart o.data o.side) u with
      st := { u.st with lines := ls } } : State).retire (Claim.next s))

/-- A scalar load, whatever comes of it, changes no register but its destination, no flag, and no byte of memory. -/
def Sys2Proof.Claim.LoadFrame : Prop :=
  ∀ (i : Instr) (s t : State) (o : Claim.Load), Claim.load s i = some o → exec i s = .next t →
    (∀ a, Memory.read t.mem a = Memory.read s.mem a) ∧ t.st.ctl = s.st.ctl ∧ Claim.sameV s t [] ∧ Claim.sameM s t [] ∧
    (o.fp = false → Claim.sameF s t [] ∧ ∀ d ∈ o.gs.take 1, Claim.sameG s t [d]) ∧
    (o.fp = true → Claim.sameG s t [] ∧ Claim.sameF s t o.fs)

/-- R88, R91, R106: what a scalar load writes, and what it leaves as it was. -/
def Obligations.ScalarLoads : Prop := Sys2Proof.Claim.LoadResults ∧ Sys2Proof.Claim.LoadFrame

/-- A scalar store, whatever comes of it, changes no register, no flag, and no byte of memory outside the bytes it stores to:
its data and, on a GT page, their sidecar. -/
def Sys2Proof.Claim.StoreFrame : Prop :=
  ∀ (i : Instr) (s t : State) (o : Claim.Store), Claim.store s i = some o → s.memWf = true → exec i s = .next t →
    Claim.sameG s t [] ∧ Claim.sameF s t [] ∧ Claim.sameV s t [] ∧ Claim.sameM s t [] ∧ t.st.ctl = s.st.ctl ∧
    ∀ a, (∀ r ∈ Claim.stored s o, a < r.1 ∨ r.1 + r.2 ≤ a) → Memory.read t.mem a = Memory.read s.mem a

/-- R89, R91, R106, R170: what a scalar store writes, and what it leaves as it was. -/
def Obligations.ScalarStores : Prop := Sys2Proof.Claim.StoreResults ∧ Sys2Proof.Claim.StoreFrame

/-- R98 with R97, R99 to R105: a scalar FP instruction that does not trap sets its flags in FFLAGS, writes its result and goes on
at PC + 4; FXR stays. -/
def Sys2Proof.Claim.FpResults : Prop :=
  ∀ (i : Instr) (s : State) (o : Claim.Fp), Claim.fp s i = some o → Claim.regsFree s o.gs o.fs → Claim.fpTrap s o = none →
    exec i s = .next ((o.put (Claim.raised s.resuming o.flags)).retire (Claim.next s))

/-- R98: a raised flag whose TE bit is set raises FPX with the flags in TVAL; otherwise a grade below min(TH, p) raises GRADE with
the grade in TVAL. FFLAGS is set, and no register is written. -/
def Sys2Proof.Claim.FpTraps : Prop :=
  ∀ (i : Instr) (s : State) (o : Claim.Fp) (c : Nat) (v : Word), Claim.fp s i = some o → Claim.regsFree s o.gs o.fs →
    Claim.settled s → Claim.fpTrap s o = some (c, v) →
    exec i s = .next ((Claim.raised s o.flags).takeTrap { code := c, val := v, elem := 0 } (.scalar s.st.pc none))

/-- R97 to R105: a scalar FP instruction that does not trap, and the traps it raises. -/
def Obligations.ScalarFp : Prop := Sys2Proof.Claim.FpResults ∧ Sys2Proof.Claim.FpTraps

/-- R146 in the directed and nearest modes: the rounded magnitude is a value of the format's quantum, on the side the mode names
of the exact one and less than a quantum from it; to nearest, within half a quantum, an even significand on a tie. Inexact
means that it differs. -/
def Obligations.RoundingNearest : Prop :=
  ∀ (f : Fmt) (mode : Rm) (neg : Bool) (m : Nat) (e : Int), (∀ r, mode ≠ .stoch r) →
    let r := roundTo f mode neg m e false
    let k := min e r.e
    let x : Int := (m * 2 ^ (e - k).toNat : Nat)
    let y : Int := (r.m * 2 ^ (r.e - k).toNat : Nat)
    let unit : Int := (2 ^ (r.e - k).toNat : Nat)
    (r.nx = true ↔ y ≠ x) ∧ r.m ≤ 2 ^ fmtP f ∧ (r.e = fmtEmin f - fmtT f ∨ 2 ^ fmtT f ≤ r.m) ∧
    (mode = .rne → 2 * (y - x).natAbs ≤ unit ∧ (2 * (y - x).natAbs = unit → r.m % 2 = 0)) ∧
    (mode = .rtz → y ≤ x ∧ x < y + unit) ∧
    (mode = .rdn → if neg then x ≤ y ∧ y < x + unit else y ≤ x ∧ x < y + unit) ∧
    (mode = .rup → if neg then y ≤ x ∧ x < y + unit else x ≤ y ∧ y < x + unit)

namespace Sys2Proof.Claim

/-! ### Traps (R417, R418, R421) -/

/-- A handler may be entered: TVEC.BASE ≠ 0 and TSTAT.IN = 0. -/
def catches (s : State) : Prop := s.st.trap.tvec ≠ 0 ∧ s.st.trap.inHandler = false

/-- The state after entry for a trap of the scalar stream with a cause, TVAL and TPC: TELEM 0, TQPOS.SCAL 1, PM the mode, IN 1,
mode S, PC at TVEC; the entries of the queue are pending; TRES stays. A collective or a join that an entry waits in, and the home's
refusal of it, are put off with it, and an instruction that did not retire makes a restart attempt after the return (R371). -/
def entered (s : State) (code : Nat) (val tpc : Word) : State :=
  { s with st := { s.st with
      trap := { s.st.trap with tcause := BitVec.ofNat 8 code, tval := val, telem := 0, tqpos := 32, tpc, pm := s.st.mode, inHandler := true }
      mode := .s, pc := s.st.trap.tvec, pend := s.st.pend ++ s.st.vq, vq := [], issue := none, scalarNext := false, restartPc := none,
      rearm := (if tpc = s.st.pc then some tpc else none) :: s.st.rearm, hold := [], resumePc := s.st.pc, tailRead := none
      collOff := s.st.collOff.orElse fun _ => s.st.coll, coll := none
      askedOff := s.st.askedOff.orElse fun _ => s.st.asked, asked := none
      refusedOff := if s.st.askedOff.isSome then s.st.refusedOff else s.st.joinRefused, joinRefused := false, entered := true
      wait := .none, qwait := .none, preemptNote := none, rpl := { s.st.rpl with going := false } } }

/-- A trap that the instruction raises whatever the state: cause, TVAL and TPC; a fetch raises XLATE, PERM, MEMERR or LINK. -/
def raises (s : State) : Instr → Option (Nat × Word × Word)
  | .sys => some (16, 0, next s)
  | .brk => some (15, 0, s.st.pc)
  | .illegalInstruction w => some (1, wrap w.toNat, s.st.pc)
  | .instructionFetchFault c va => if c ∈ [3, 4, 5, 14] then some (c, va, s.st.pc) else none
  | _ => none

/-- The strand's launch is on the package, and the strand is the one whose turn it is. -/
def bound (s : State) (l : Launch) (x : Inst) : Prop :=
  s.cur = some s.st.sn ∧ s.launch? s.st.sched.lid = some l ∧ l.insts[s.st.sched.inst]? = some x

/-- The fault record of a strand failure (R357, R358). -/
def failure (s : State) (x : Inst) (cause : Nat) (val : Word) : HouseFault :=
  { inst := x.parent.getD s.st.sched.inst, event := 1, child := some s.st.sched.inst, mid := s.mid s.st.sn, cause, val
    ranges := s.st.claims, gone := [] }
/-- A strand failure is in hand: its record waits for the binder in the strand's launch, or the package that launched it has been
told (R344, R357). -/
def told (s t : State) (l l' : Launch) (x : Inst) (cause : Nat) (val : Word) : Prop :=
  match l.origin with
  | none => l'.faults = l.faults ++ [failure s x cause val]
  | some home =>
    .failed home (s.st.sched.lid % 2 ^ 32) s.st.sched.inst (s.mid s.st.sn) cause val s.st.claims ∈ t.fabricOut
/-- An uncorrectable line that a trap names sets RRS.UE (Table 28-4). -/
def noted (s : State) (code : Nat) : State := if code = 5 then s.setRrs 4 else s
/-- No other strand carries the number of the strand whose turn it is. -/
def alone (s : State) : Prop := ∀ p ∈ s.others, p.2.sn ≠ s.st.sn

/-- The strand after `tret` (R421), before an entry that had started behind a dropped head takes up VEI and FXR (R369): the entry
that trapped, or the scalar instruction, makes a restart attempt (R371). -/
def returned (s : State) : State :=
  let r := s.st.trap
  let skip := r.skip = true ∧ s.st.pend ≠ []
  let scal := r.tqpos.getLsbD 5
  let pend := s.st.pend.map fun e => { e with pos := 0 }
  let pc := wrap (4 * ((if scal then r.tpc else r.tres).toNat / 4 : Nat))
  { s with st := { s.st with
      ctl := if skip then { s.st.ctl with vei := 0 } else s.st.ctl
      coll := if skip then none else s.st.collOff, collOff := none
      asked := if skip then none else s.st.askedOff, askedOff := none
      joinRefused := if skip then false else s.st.refusedOff, refusedOff := false, entered := false
      vq := if skip then pend.tail else match pend with
        | e :: l => (if scal then e else { e with restart := some r.telem.toNat }) :: l
        | [] => []
      pend := [], mode := r.pm, trap := { r with inHandler := false, skip := false }, pc
      restartPc := if scal = true ∧ s.st.rearm.head? = some (some pc) then some pc else none
      rearm := s.st.rearm.tail, hold := [], scalarNext := false, wait := .none } }

/-! ### Control, system and counter registers -/

/-- A control register as it reads (Tables 2-2 to 2-13). -/
def control (s : State) : CReg → Word
  | .vl => wrap s.st.ctl.vl
  | .vms => wrap s.st.ctl.vms.toNat
  | .vstr => s.st.ctl.vstr
  | .vei => wrap s.st.ctl.vei.toNat
  | .gth => wrap s.st.ctl.gth.toNat
  | .fcr => wrap s.st.ctl.fcr.toNat
  | .fflags => wrap s.st.ctl.fflags.toNat
  | .fxr => wrap s.st.ctl.fxr.toNat
  | .srs => wrap s.st.ctl.srs.toNat
  | .sid => wrap ((match s.st.mode with | .p => 0 | .s => 1) * 2 ^ 14 + s.st.core * 2 ^ 5 + s.myCore.div * 2 ^ 3 + s.st.slot : Nat)
  | .mxo => wrap (s.myCore.owner % 4 + (if s.myCore.granted then 4 else 0) : Nat)

/-- A control register written: reserved bits are dropped, SRS takes 1 for 0, SID ignores the write. -/
def putControl (s : State) (r : CReg) (x : Word) : State :=
  let set := fun f => { s with st := { s.st with ctl := f s.st.ctl } }
  match r with
  | .vl => set fun c => { c with vl := x.toNat }
  | .vms => set fun c => { c with vms := BitVec.ofNat 4 x.toNat }
  | .vstr => set fun c => { c with vstr := x }
  | .vei => set fun c => { c with vei := BitVec.ofNat 7 x.toNat }
  | .gth => set fun c => { c with gth := BitVec.ofNat 6 x.toNat }
  | .fcr => set fun c => { c with fcr := BitVec.ofNat 10 x.toNat }
  | .fflags => set fun c => { c with fflags := BitVec.ofNat 6 x.toNat }
  | .fxr => set fun c => { c with fxr := BitVec.ofNat 48 x.toNat }
  | .srs => set fun c => { c with srs := if x.toNat % 2 ^ 32 = 0 then 1 else BitVec.ofNat 32 x.toNat }
  | .sid => s
  | .mxo => { s with cores := SMap.put s.cores s.st.core { s.myCore with owner := x.toNat % 4 } }

/-- VEI, FFLAGS, FXR and SRS are the registers an access of which waits for the queue (R40, R109). -/
def queued (r : CReg) : Prop := r = .vei ∨ r = .fflags ∨ r = .fxr ∨ r = .srs
/-- Registers written in mode S only (Table 2-2). -/
def guarded (r : CReg) : Prop := r = .vei ∨ r = .mxo

/-- A system register as it reads (Tables 26-2 to 26-8, 1-6, 13-4, 25-8). -/
def system (s : State) : SReg → Word
  | .tvec => s.st.trap.tvec
  | .tpc => s.st.trap.tpc
  | .tcause => wrap s.st.trap.tcause.toNat
  | .tval => s.st.trap.tval
  | .telem => wrap s.st.trap.telem.toNat
  | .tqpos => wrap s.st.trap.tqpos.toNat
  | .tstat => wrap ((match s.st.trap.pm with | .p => 0 | .s => 1) + (if s.st.trap.inHandler then 2 else 0) +
      (if s.st.trap.pn then 4 else 0) + (if s.st.trap.skip then 8 else 0) + s.st.pend.length % 64 * 2 ^ 8 : Nat)
  | .tres => s.st.trap.tres
  | .tscr0 => s.st.trap.tscr0
  | .tscr1 => s.st.trap.tscr1
  | .diecfg d => s.diecfg[d]
  | .hbmsplit => wrap s.share.toNat
  | .duty => wrap (s.duty.toNat + s.act.toNat * 2 ^ 8 : Nat)

/-- The trap registers after a write of a system register. -/
def putSystem (t : TrapRegs) (r : SReg) (x : Word) : TrapRegs :=
  match r with
  | .tvec => { t with tvec := wrap (x.toNat / 4 % 2 ^ 53 * 4 : Nat) }
  | .tpc => { t with tpc := x }
  | .tcause => { t with tcause := BitVec.ofNat 8 (x.toNat % 64 + x.toNat / 128 % 2 * 128) }
  | .tval => { t with tval := x }
  | .telem => { t with telem := BitVec.ofNat 7 x.toNat }
  | .tqpos => { t with tqpos := BitVec.ofNat 6 x.toNat }
  | .tstat => { t with pm := if x.getLsbD 0 then .s else .p, inHandler := x.getLsbD 1, pn := x.getLsbD 2, skip := x.getLsbD 3 }
  | .tres => { t with tres := x }
  | .tscr0 => { t with tscr0 := x }
  | .tscr1 => { t with tscr1 := x }
  | .diecfg _ | .hbmsplit | .duty => t

/-- A counter of an instance (Table 13-6); one of a disabled die or section reads 0. -/
def counterValue (s : State) (c : Counter) (i : Nat) : Word :=
  let die := coreDie (i * 128)
  let sect := coreSect (i * 16)
  let dieOn := (s.diecfg[die]).getLsbD 54
  let home := coreDie (i * 16)
  let sectOn := (s.diecfg[home]).getLsbD 54 && fld s.diecfg[home] (5 * (i % 8) + 4) (5 * (i % 8)) != 0
  let on := fun (b : Bool) (x : Word) => if b then x else 0
  match c with
  | .cyc => on dieOn (s.dies[die]).cyc
  | .reql => on dieOn (s.dies[die]).reql
  | .reqr => on dieOn (s.dies[die]).reqr
  | .reqf => on dieOn (s.dies[die]).reqf
  | .reqe => on dieOn (s.dies[die]).reqe
  | .hopw => on dieOn (s.dies[die]).hopw
  | .bconf => on sectOn (s.sects[sect]).bconf
  | .bmiss => on sectOn (s.sects[sect]).bmiss
  | .hints => s.myCore.hints
  | .hintu => s.myCore.hintu
  | .pwrhold => s.myCore.pwrhold
  | .tlbm => s.myCore.tlbm
/-- A section is enabled (Table 1-6). -/
def sectionOn (s : State) (i : Nat) : Prop :=
  (s.diecfg[coreDie (i * 16)]).getLsbD 54 = true ∧ fld s.diecfg[coreDie (i * 16)] (5 * (i % 8) + 4) (5 * (i % 8)) ≠ 0
/-- Instances of a counter: 4 dies, 32 sections, or the strand's own core. -/
def instances : Counter → Nat
  | .cyc | .reql | .reqr | .reqf | .reqe | .hopw => 4
  | .bconf | .bmiss => 32
  | .hints | .hintu | .pwrhold | .tlbm => 1
/-- What mode P may name (R251): a die that holds a section of its partition, a section of it, its own core; a section that is
disabled is nobody's (Table 25-1). -/
def countable (s : State) (c : Counter) (i : Nat) : Prop :=
  match instances c with
  | 4 => ∃ k, k < 8 ∧ partSect (s.part s.st.partn) (8 * i + k) = true ∧ sectionOn s (8 * i + k)
  | 32 => partSect (s.part s.st.partn) i = true ∧ sectionOn s i
  | _ => True

/-- The debug record of an age, doubleword by doubleword (Table 26-9); zero where the ring has none. -/
def debugWord (t : Strand) (age dw : Nat) : Word :=
  match t.ring[age]? with
  | none => 0
  | some r => match dw with
    | 0 => wrap (r.pc.toNat % 2 ^ 55 : Nat)
    | 1 => wrap (r.seq * 2 ^ 32 + (if r.rpl then 2 ^ 21 else 0) + (if r.mem then 2 ^ 20 else 0) + r.width * 2 ^ 16 + r.pop * 2 ^ 8 + r.vl : Nat)
    | 2 => wrap r.first
    | _ => wrap r.last

/-- An instruction that needs mode S whatever its operands (R34, R420, R423). -/
def privileged : Instr → Bool
  | .srd .. | .swr .. | .trap _ | .tret | .svc _ | .logApp _ => true
  | .cwr _ .vei | .cwr _ .mxo => true
  | _ => false

/-- A record for the invalidation log breaks no field rule of Table 25-6: OP 1 to 4, some die named, COUNT only with OP 2. -/
def recordFields (r : Word × Word) : Prop :=
  let op := r.1.toNat % 16
  let count := r.1.toNat / 2 ^ 16 % 2 ^ 32
  1 ≤ op ∧ op ≤ 4 ∧ r.1.toNat / 16 % 16 ≠ 0 ∧ r.1.toNat / 2 ^ 48 = 0 ∧ r.2.toNat / 2 ^ 55 = 0 ∧ (op = 2 ↔ count ≠ 0) ∧
  (op ≤ 2 → r.2.toNat % 2 ^ 16 = 0) ∧ (2 < op → r.2.toNat = 0)
/-- A record appended to the log of every die it names. -/
def appended (s : State) (r : Word × Word) : State :=
  { s with dies := Vector.ofFn fun (d : Fin 4) =>
      if r.1.getLsbD (4 + d.val) then { s.dies[d] with log := (s.dies[d]).log ++ [r], tail := (s.dies[d]).tail + 1 } else s.dies[d] }

end Sys2Proof.Claim

/-- R417 with R52, R53, R96 and Table 26-1: `sys` raises SYSCALL with TPC at the next instruction, `brk` raises BRK, a word that
decodes to nothing raises ILL with the word in TVAL, a word that cannot be fetched raises its cause with the address in TVAL;
the handler is entered. -/
def Obligations.TrapEntry : Prop :=
  ∀ (i : Instr) (s : State) (c : Nat) (val tpc : Word), Claim.raises s i = some (c, val, tpc) → Claim.catches s → Claim.settled s →
    s.st.issue = none → s.st.rpl.going = false → (∀ w, i = .illegalInstruction w → s.st.vq = []) →
    exec i s = .next (Claim.entered (Claim.noted s c) c val tpc)

/-- R418, R357: a trap raised while TVEC.BASE = 0 or TSTAT.IN = 1 enters no handler: the strand ends with a strand failure that
carries cause and TVAL, raised at its level-1 house; its queue is gone, and so is its seat. -/
def Obligations.TrapWithoutHandler : Prop :=
  ∀ (i : Instr) (s : State) (c : Nat) (val tpc : Word) (l : Launch) (x : Inst), Claim.raises s i = some (c, val, tpc) →
    ¬ Claim.catches s → Claim.settled s → Claim.bound s l x → s.st.issue = none → (∀ w, i = .illegalInstruction w → s.st.vq = []) →
    ∃ t l', exec i s = .next t ∧ t.st.sched.status = .ended ∧ t.st.sched.place = none ∧ t.st.vq = [] ∧ t.st.pend = [] ∧
      t.st.claims = [] ∧ t.launch? s.st.sched.lid = some l' ∧
      l'.insts = listSet l.insts s.st.sched.inst { x with status := .ended } ∧ Claim.told s t l l' x c val

/-- R421: tret in mode S inside a handler waits for the handler's own queue; then the pending entries become the queue, without
their head under SKIP, the mode is TSTAT.PM, IN and SKIP are 0, and the PC is TRES or, with TQPOS.SCAL, TPC. -/
def Obligations.TrapReturn : Prop :=
  ∀ (s : State), s.st.mode = .s → s.st.trap.inHandler = true → Claim.settled s →
    (s.st.vq = [] → exec .tret s = .next
      (if s.st.trap.skip = true ∧ s.st.pend ≠ [] then (Claim.returned s).promote else Claim.returned s)) ∧ (s.st.vq ≠ [] → exec .tret s = .next (s.waiting .queue))

/-- R34, R420, R423: in mode P an instruction that needs mode S raises PRIV with the instruction word in TVAL, and nothing else
changes. -/
def Sys2Proof.Claim.PrivilegeChecked : Prop :=
  ∀ (i : Instr) (s : State), Claim.privileged i = true → s.st.mode = .p → Claim.catches s → Claim.settled s →
    exec i s = .next (Claim.entered s 2 (Claim.wrap s.ir.toNat) s.st.pc)

/-- R423: a strand reaches mode S only through trap entry, and returns to mode P only through a return: an instruction but tret that
changes the mode has entered the handler at TVEC in mode S. -/
def Obligations.ModeChangesByTrapOnly : Prop :=
  ∀ (i : Instr) (s t : State), i.isWord = true → i ≠ .tret → Claim.alone s → exec i s = .next t → t.st.sn = s.st.sn → t.st.mode ≠ s.st.mode →
    t.st.mode = .s ∧ t.st.trap.inHandler = true ∧ s.st.trap.inHandler = false ∧ t.st.pc = s.st.trap.tvec

/-- R35, R36, R40, R109, R420, R251: crd, srd and cnt.rd read the register or count they name; cwr and swr write it, where the mode
allows. VEI, FFLAGS, FXR and SRS are accessed when the queue is empty. -/
def Sys2Proof.Claim.RegisterReads : Prop :=
  ∀ (s : State) (a : GReg), Claim.regsFree s [a] [] →
    (∀ r, (Claim.queued r → s.st.vq = []) → exec (.crd a r) s = .next ((s.resuming.setG a (Claim.control s r)).retire (Claim.next s))) ∧
    (∀ r, (Claim.queued r → s.st.vq = []) → (Claim.guarded r → s.st.mode = .s) → (r = .vl → (s.g a).toNat ≤ 128) →
      exec (.cwr a r) s = .next ((Claim.putControl s.resuming r (s.g a)).retire (Claim.next s))) ∧
    (128 < (s.g a).toNat → Claim.catches s → Claim.settled s →
      exec (.cwr a .vl) s = .next (Claim.entered s 1 (s.g a) s.st.pc)) ∧
    (s.st.mode = .s → ∀ r, exec (.srd a r) s = .next ((s.resuming.setG a (Claim.system s r)).retire (Claim.next s))) ∧
    (s.st.mode = .s → ∀ r, exec (.swr a r) s =
      .next ((s.resuming.mapSt fun t => { t with trap := Claim.putSystem s.st.trap r (s.g a) }).retire (Claim.next s))) ∧
    (∀ c (i : BitVec 6), i.toNat < Claim.instances c → (s.st.mode = .p → Claim.countable s c i.toNat) →
      exec (.cntRd a c i) s = .next ((s.resuming.setG a (Claim.counterValue s c i.toNat)).retire (Claim.next s)))

/-- R429: drd reads a doubleword of the debug ring of the strand itself, or, with bit 63 in mode S, of a live strand of its
partition; reserved bits of ga raise ILL. -/
def Sys2Proof.Claim.DebugRing : Prop :=
  ∀ (s : State) (d a : GReg), Claim.regsFree s [d, a] [] →
    let x := (s.g a).toNat
    let done := fun y => exec (.drd d a) s = .next ((s.resuming.setG d y).retire (Claim.next s))
    (x / 2 ^ 8 = 0 → s.st.vq = [] → done (Claim.debugWord s.st (x % 64) (x / 64 % 4))) ∧
    (x / 2 ^ 58 = 32 → x / 2 ^ 8 % 2 ^ 24 = 0 → s.st.mode = .s → ∀ t, s.resuming.strandOfMid (x / 2 ^ 32 % 2 ^ 26) = some t → t.live = true →
      t.partn = s.st.partn → done (Claim.debugWord t (x % 64) (x / 64 % 4))) ∧
    (x / 2 ^ 8 % 2 ^ 24 ≠ 0 ∨ x / 2 ^ 58 % 32 ≠ 0 → (x / 2 ^ 63 = 1 → s.st.mode = .s) → Claim.catches s → Claim.settled s →
      exec (.drd d a) s = .next (Claim.entered s 1 (s.g a) s.st.pc))

/-- R35, R36, R40, R109, R251, R420, R429: reading and writing the registers an instruction names, and the debug ring. -/
def Obligations.RegisterAccess : Prop := Sys2Proof.Claim.RegisterReads ∧ Sys2Proof.Claim.DebugRing

/-- R425: trap in mode S, its earlier accesses performed, ends the strand with CAUSE u(ga)[5:0], or TCAUSE.CODE when that is 0, and VAL
TVAL. -/
def Sys2Proof.Claim.TrapInstruction : Prop :=
  ∀ (s : State) (a : GReg) (l : Launch) (x : Inst), s.st.mode = .s → s.st.vq = [] → Claim.settled s → Claim.bound s l x →
    ∃ t l', exec (.trap a) s = .next t ∧ t.st.sched.status = .ended ∧ t.launch? s.st.sched.lid = some l' ∧ Claim.told s t l l' x
      (if (s.g a).toNat % 64 = 0 then s.st.trap.tcause.toNat % 64 else (s.g a).toNat % 64) s.st.trap.tval

/-- R427: svc in mode S completes at issue: operation 1 asks for the pre-emption of a seated target; operation 2 ends the target
with CAUSE 0 and VAL 0, and a trap that its handler has not answered yet is recorded as superseded; a target that is no live strand of the partition is left unaffected. Another operation or a reserved
bit raises ILL with TVAL = ga. -/
def Sys2Proof.Claim.Service : Prop :=
  ∀ (s : State) (a : GReg), s.st.mode = .s → Claim.regsFree s [a] [] →
    let x := (s.g a).toNat
    let r := s.resuming
    let target := r.strandOfMid (x / 2 ^ 32 % 2 ^ 26)
    let ok := x / 2 ^ 4 % 2 ^ 28 = 0 ∧ x / 2 ^ 58 = 0 ∧ (x % 16 = 1 ∨ x % 16 = 2)
    let usable := fun (t : Strand) => t.live = true ∧ t.partn = s.st.partn
    (ok → (∀ t, target = some t → ¬ usable t) → exec (.svc a) s = .next (r.retire (Claim.next s))) ∧
    (ok → x % 16 = 1 → ∀ t, target = some t → usable t → exec (.svc a) s = .next ((if t.sched.status = .seated then
        (match r.strand? t.sn with
          | some u => r.setStrand { u with sched := { u.sched with preemptAsked := true } }
          | none => r) else r).retire (Claim.next s))) ∧
    (ok → x % 16 = 2 → ∀ t, target = some t → usable t →
      exec (.svc a) s = .next (((r.fail t 0 0).superTrap t).retire (Claim.next s))) ∧
    (¬ ok → Claim.catches s → Claim.settled s → exec (.svc a) s = .next (Claim.entered s 1 (s.g a) s.st.pc))

/-- R428, R405: log.app in mode S reads the record at ga, a multiple of 16, and appends it to the log of every die it names when
all of them have room; otherwise it waits and appends to none. It comes after the acquires of the queue (R270). -/
def Sys2Proof.Claim.LogAppend : Prop :=
  ∀ (s u : State) (a : GReg) (ps : List Part) (x : Nat), s.st.mode = .s → Claim.regsFree s [a] [] → Claim.bytesFree s (s.g a).toNat 16 →
    (∀ x ∈ queueTouch s.boundRegs s.st.vq, acquires x.1.word = false) → Claim.inTurn s ps →
    (s.g a).toNat % 16 = 0 → placeM .load (.plain false) (s.g a).toNat 16 0 s.resuming = .ok ps u → (∀ p ∈ ps, Claim.readable u false p) →
    (ps.map fun p => Claim.partBytes u p * 2 ^ (8 * p.at_)).sum = x →
    let r : Word × Word := (Claim.wrap (x % 2 ^ 64 : Nat), Claim.wrap (x / 2 ^ 64 : Nat))
    Claim.recordFields r → r.1.toNat % 16 ≠ 4 → partOwns (u.part u.st.partn) (r.1.toNat / 2 ^ 8 % 2 ^ 8) = true →
    ∃ ls bs, (∀ b ∈ bs, b.store = false ∧ b.owner = 0) ∧ ((∀ d : Fin 4, r.1.getLsbD (4 + d.val) = true → (u.dies[d]).log.length < 4096) →
        exec (.logApp a) s = .next (({ Claim.appended u r with st := { u.st with lines := ls } } : State).retire (Claim.next s))) ∧
      ((∃ d : Fin 4, r.1.getLsbD (4 + d.val) = true ∧ 4096 ≤ (u.dies[d]).log.length) →
        exec (.logApp a) s = .next (({ u with st := { u.st with lines := ls, begun := bs } } : State).waiting .logRoom))

/-- R405, R425, R427, R428: trap, svc and log.app in mode S. -/
def Obligations.SystemInstructions : Prop := Sys2Proof.Claim.TrapInstruction ∧ Sys2Proof.Claim.Service ∧ Sys2Proof.Claim.LogAppend

namespace Sys2Proof.Claim

/-! ### Vector instructions (R32, R37–R39, R70–R75, R429) -/

/-- The strand can commit and run a vector instruction in this step: no entry waits before it, no issue hold stands, the core's
division is not being changed, VMS names a mask, no capture or replay is open, nothing of an earlier access is outstanding, and the queue, of 32 entries with those
that a trap keeps, has room. -/
def vecReady (s : State) : Prop :=
  s.st.early = none ∧ s.commitOnly = false ∧ s.myCore.dividing = false ∧
  s.st.issue = none ∧ s.st.vq = [] ∧ (s.st.ctl.vms.toNat < 12 ∨ s.st.ctl.vms = 15) ∧ s.st.rpl.going = false ∧ s.st.rpl.left = 0 ∧
  s.st.lines = [] ∧ s.st.remote = [] ∧ s.st.begun = [] ∧ s.st.trains = [] ∧ s.st.pend.length < 32
/-- No stream slot is bound to one of these registers. -/
def notBound (s : State) (rs : List VReg) : Prop := ∀ r ∈ rs, ∀ (i : Fin 8) k, s.st.k[i] = some k → k.reg ≠ r

/-- active(e): below VL and, unless VMS is 15, its bit of the selected mask is 1 (R32). -/
def active (s : State) (e : Nat) : Bool :=
  decide (e < s.st.ctl.vl) && (s.st.ctl.vms == 15 || (if h : s.st.ctl.vms.toNat < 12 then s.mbit ⟨s.st.ctl.vms.toNat, h⟩ e else false))
/-- The active elements; those an EL instruction performs: the active ones from VEI upward. -/
def actives (s : State) : List Nat := (List.range s.st.ctl.vl).filter (active s)
def todo (s : State) : List Nat := (actives s).filter fun e => decide (s.st.ctl.vei.toNat ≤ e)

/-- The entry committed for an instruction with captured operands (R39). -/
def entryOf (s : State) (a : Word) (ag : Grade) (b : Word := 0) : VEntry :=
  { word := s.ir, pc := s.st.pc, opA := a, opAGrade := ag, opB := b, vl := s.st.ctl.vl, vms := s.st.ctl.vms.toNat, vstr := s.st.ctl.vstr,
    gth := s.st.ctl.gth.toNat, fcr := s.st.ctl.fcr, srs := none, rpl := false, again := false, sent := false, restart := none,
    lines := [], begun := false, start := 0, fxr := 0, pos := 0, trains := [], note := none }
/-- The strand has committed the entry and runs it. -/
def committed (s : State) (n : VEntry) : State :=
  { s with st := { s.st with pc := next s, issue := some n, restartPc := none, entered := false, counted := [] } }
/-- An EL instruction that starts at element 0 clears FXR (R37); so does every one with VL = 0, and every WH instruction. -/
def freshEl (s : State) (n : VEntry) : State :=
  if s.st.ctl.vei = 0 ∨ s.st.ctl.vl = 0 then (committed s n).mapCtl fun c => { c with fxr := 0 } else committed s n
def freshWh (s : State) (n : VEntry) : State := (committed s n).mapCtl fun c => { c with fxr := 0 }

/-- The debug record of an instruction, with the addresses of its lowest and highest active element where it has them (R429). -/
def ringRecord (s : State) (ends : Option Word × Option Word) : DebugRec :=
  { pc := s.st.pc, seq := (s.st.seqv + 1) % 2 ^ 32, rpl := false, mem := ends.1.isSome, width := wWidth s.ir,
    pop := (actives s).length, vl := s.st.ctl.vl, first := (ends.1.getD 0).toNat % 2 ^ 55, last := (ends.2.getD 0).toNat % 2 ^ 55 }

/-- A vector instruction has completed with the state u: PC + 4, VEI 0, its record in the ring of 64. -/
def completed (s u : State) (ends : Option Word × Option Word) : State :=
  { u with st := { u.st with
      pc := next s, ctl := { u.st.ctl with vei := 0 }, ring := (ringRecord s ends :: s.st.ring).take 64
      seqv := (s.st.seqv + 1) % 2 ^ 32, issue := none, qwait := .none, scalarNext := false, restartPc := none
      entered := false, counted := [] } }

/-- Flags of an element: set in FFLAGS and recorded in FXR, where a record already valid gives way only to a lower element
(R37, R153). -/
def withFlags (e : Nat) (fl : BitVec 6) (u : State) : State :=
  u.mapCtl fun c => { c with
    fflags := c.fflags ||| fl
    fxr := (List.range 6).foldl (fun x f =>
      let old := x.toNat / 2 ^ (8 * f) % 256
      if fl.getLsbD f ∧ ¬ (128 ≤ old ∧ old - 128 ≤ e) then BitVec.ofNat 48 (x.toNat + (128 + e) * 2 ^ (8 * f) - old * 2 ^ (8 * f)) else x) c.fxr }

/-- An element-wise instruction: the vector registers it names, the one it writes, its captured operands, and for element e the flags it raises,
the precision, grades and grade word a threshold is checked against, and what it writes; each from the state the lower elements
have left. -/
structure VecOp where
  regs : List VReg
  dst : Option VReg := none
  opA : Word := 0
  opAGrade : Grade := 0
  flags : Nat → State → BitVec 6 := fun _ _ => 0
  thresh : Nat → State → Option (Nat × List Nat × Grade) := fun _ _ => none
  write : Nat → State → State

/-- One that raises no flag and is checked against no threshold. -/
def plainOp (regs : List VReg) (write : Nat → State → State) (opA : Word := 0) (dst : Option VReg := none) : Option VecOp :=
  some { regs, write, opA, dst }

/-- The trap of an element: FPX with the flags, GRADE with the grade word (R154, R167). -/
def vecTrap (s : State) (o : VecOp) (u : State) (e : Nat) : Option (Nat × Word) :=
  if o.flags e u &&& s.st.ctl.fcr.extractLsb' 4 6 ≠ 0 then some (7, wrap (o.flags e u).toNat)
  else match o.thresh e u with
    | some (p, gs, w) => if s.st.ctl.gth ≠ 0 ∧ ∃ g ∈ gs, g < min s.st.ctl.gth.toNat p then some (6, wrap w.toNat) else none
    | none => none
/-- Its entry. -/
def VecOp.entry (s : State) (o : VecOp) : VEntry := entryOf s o.opA o.opAGrade
/-- What the elements below e have left. -/
def below (s : State) (o : VecOp) (e : Nat) : State :=
  ((todo s).filter fun j => decide (j < e)).foldl (fun u j => o.write j (withFlags j (o.flags j u) u)) (freshEl s (o.entry s))
def afterAll (s : State) (o : VecOp) : State :=
  (todo s).foldl (fun u j => o.write j (withFlags j (o.flags j u) u)) (freshEl s (o.entry s))

/-! ### Integer elements (R135, R172–R176, Table 9-1) -/

/-- The low n bits of an element, unsigned and signed. -/
def low (n : Nat) (x : Word) : Nat := x.toNat % 2 ^ n
def slow (n : Nat) (x : Word) : Int := if low n x < 2 ^ (n - 1) then low n x else (low n x : Int) - 2 ^ n
/-- An integer written back: wrapped to n bits, sign-extended, ungraded. -/
def intEl (n : Nat) (x : Int) : Elem := ⟨wrap (BitVec.ofInt n x).toInt, 0xFFFF⟩
def width : IntW → Nat | .b => 8 | .h => 16 | .w => 32 | .l => 64
def clamp (lo hi x : Int) : Int := max lo (min hi x)

/-- Field b of an integer operation: its registers, its captured value, element e of it. -/
def bRegs : VISrc → List VReg | .vec v => [v] | .sca _ => []
def bCap (s : State) : VISrc → Word | .vec _ => 0 | .sca g => s.g g
def bEl (s : State) (b : VISrc) (e : Nat) : Word := match b with | .vec v => (s.v v e).val | .sca g => s.g g

/-- A row of Table 9-1: the result before wrap from n, s(a), s(b), u(a), u(b). -/
def vi (s : State) (d a : VReg) (b : VISrc) (wd : IntW) (f : Nat → Int → Int → Nat → Nat → Int) : Option VecOp :=
  let n := width wd
  plainOp (d :: a :: bRegs b) (opA := bCap s b) (dst := some d) fun e u =>
    let x := (s.v a e).val
    let y := bEl s b e
    u.setV d e (intEl n (f n (slow n x) (slow n y) (low n x) (low n y)))
def viMask (s : State) (d : MReg) (a : VReg) (b : VISrc) (wd : IntW) (f : Int → Int → Nat → Nat → Bool) : Option VecOp :=
  let n := width wd
  plainOp (a :: bRegs b) (opA := bCap s b) fun e u =>
    let x := (s.v a e).val
    let y := bEl s b e
    u.setMbit d e (f (slow n x) (slow n y) (low n x) (low n y))
/-- Carry forms: the exact result and the carry or borrow out. -/
def carry (s : State) (d a b : VReg) (c : MReg) (wd : CarryW) (f : Nat → Int → Int → Int → Int × Bool) : Option VecOp :=
  let n := match wd with | .l => 64 | .w => 32
  plainOp [d, a, b] (dst := some d) fun e u =>
    let r := f n (low n (s.v a e).val) (low n (s.v b e).val) (if s.mbit c e then 1 else 0)
    (u.setV d e (intEl n r.1)).setMbit c e r.2

/-- What an integer vector instruction does. -/
def intVec (s : State) : Instr → Option VecOp
  | .vadd d a b wd => vi s d a b wd fun _ x y _ _ => x + y
  | .vsub d a b wd => vi s d a b wd fun _ x y _ _ => x - y
  | .vmul d a b wd => vi s d a b wd fun _ x y _ _ => x * y
  | .vmulh d a b wd => vi s d a b wd fun n x y _ _ => x * y / 2 ^ n
  | .vmulhu d a b wd => vi s d a b wd fun n _ _ x y => (x * y / 2 ^ n : Nat)
  | .vmin d a b wd => vi s d a b wd fun _ x y _ _ => min x y
  | .vmax d a b wd => vi s d a b wd fun _ x y _ _ => max x y
  | .vminu d a b wd => vi s d a b wd fun _ _ _ x y => (min x y : Nat)
  | .vmaxu d a b wd => vi s d a b wd fun _ _ _ x y => (max x y : Nat)
  | .vand d a b wd => vi s d a b wd fun _ _ _ x y => (x &&& y : Nat)
  | .vor d a b wd => vi s d a b wd fun _ _ _ x y => (x ||| y : Nat)
  | .vxor d a b wd => vi s d a b wd fun _ _ _ x y => (x ^^^ y : Nat)
  | .vsll d a b wd => vi s d a b wd fun n _ _ x y => (x * 2 ^ (y % n) : Nat)
  | .vsrl d a b wd => vi s d a b wd fun n _ _ x y => (x / 2 ^ (y % n) : Nat)
  | .vsra d a b wd => vi s d a b wd fun n x _ _ y => x / 2 ^ (y % n)
  | .vsadd d a b wd => vi s d a b wd fun n x y _ _ => clamp (-2 ^ (n - 1)) (2 ^ (n - 1) - 1) (x + y)
  | .vsaddu d a b wd => vi s d a b wd fun n _ _ x y => clamp 0 (2 ^ n - 1) (x + y)
  | .vssub d a b wd => vi s d a b wd fun n x y _ _ => clamp (-2 ^ (n - 1)) (2 ^ (n - 1) - 1) (x - y)
  | .vssubu d a b wd => vi s d a b wd fun n _ _ x y => clamp 0 (2 ^ n - 1) ((x : Int) - y)
  | .vmv d b wd => plainOp (d :: bRegs b) (opA := bCap s b) (dst := some d) fun e u => u.setV d e (intEl (width wd) (bEl s b e).toInt)
  | .vseq d a b wd => viMask s d a b wd fun _ _ x y => decide (x = y)
  | .vsne d a b wd => viMask s d a b wd fun _ _ x y => decide (x ≠ y)
  | .vslt d a b wd => viMask s d a b wd fun x y _ _ => decide (x < y)
  | .vsltu d a b wd => viMask s d a b wd fun _ _ x y => decide (x < y)
  | .vsle d a b wd => viMask s d a b wd fun x y _ _ => decide (x ≤ y)
  | .vsleu d a b wd => viMask s d a b wd fun _ _ x y => decide (x ≤ y)
  | .vadc d a b c wd => carry s d a b c wd fun n x y k => (x + y + k, decide (2 ^ n ≤ x + y + k))
  | .vsbc d a b c wd => carry s d a b c wd fun _ x y k => (x - y - k, decide (x - y < k))
  | _ => none

/-! ### FP elements (R134, R158, R159, R177–R186) -/

/-- Width of a value, values of an element, precision, width and significant part of a grade field (Tables 6-4, 8-1). -/
def vBits : FpF → Nat | .f64 => 64 | .f32 => 32 | .bf16 => 16 | .f16 => 16
def vCount : FpF → Nat | .f64 => 1 | .f32 => 2 | .bf16 => 4 | .f16 => 4
def vPrec : FpF → Nat | .f64 => 53 | .f32 => 24 | .bf16 => 8 | .f16 => 11
def gField : FpF → Nat | .f64 => 6 | .f32 => 8 | .bf16 => 4 | .f16 => 4
def gRange : FpF → Nat | .f64 => 64 | .f32 => 32 | .bf16 => 16 | .f16 => 16
/-- Value j of an element, its grade, and the element of values and grades. -/
def valueAt (f : FpF) (x : Elem) (j : Nat) : Nat := x.val.toNat / 2 ^ (vBits f * j) % 2 ^ vBits f
def gradeOfValue (f : FpF) (w : Grade) (j : Nat) : Nat :=
  if w = 0xFFFF then vPrec f else min (vPrec f) (w.toNat / 2 ^ (gField f * j) % gRange f)
def elemOf (f : FpF) (v g : Nat → Nat) : Elem :=
  ⟨BitVec.ofNat 64 ((List.range (vCount f)).map fun j => v j * 2 ^ (vBits f * j)).sum,
   BitVec.ofNat 16 ((List.range (vCount f)).map fun j => g j * 2 ^ (gField f * j)).sum⟩

/-- Field b of an FP operation; a scalar stands as every value (R178). -/
def fRegs : VFSrc → List VReg | .vec v => [v] | .sca _ => []
def fCap (s : State) : VFSrc → Word × Grade | .vec _ => (0, 0) | .sca r => ((s.f r).val, (s.f r).grade)
def fEl (s : State) (f : FpF) (b : VFSrc) (e : Nat) : Elem :=
  match b with
  | .vec v => s.v v e
  | .sca r => elemOf f (fun _ => valueAt f (s.f r) 0) (fun _ => gradeOfValue f (s.f r).grade 0)

/-- A value-by-value operation: result from the three values and their grades; c is value j of vd. -/
def vf (s : State) (d a : VReg) (b : VFSrc) (f : FpF) (g : (a b c ga gb gc : Nat) → FOut) : Option VecOp :=
  let out := fun e j =>
    let x := s.v a e
    let y := fEl s f b e
    let z := s.v d e
    g (valueAt f x j) (valueAt f y j) (valueAt f z j) (gradeOfValue f x.grade j) (gradeOfValue f y.grade j) (gradeOfValue f z.grade j)
  let el := fun e => elemOf f (fun j => (out e j).pat) (fun j => (out e j).grade)
  some {
    regs := d :: a :: fRegs b, dst := some d, opA := (fCap s b).1, opAGrade := (fCap s b).2
    flags := fun e _ => (List.range (vCount f)).foldl (fun fl j => fl ||| (out e j).flags) 0
    thresh := fun e _ => some (vPrec f, (List.range (vCount f)).map fun j => (out e j).grade, (el e).grade)
    write := fun e u => u.setV d e (el e) }
/-- Arithmetic under the captured FCR; FTZ applies to formats narrower than FP64 (R150). -/
def vfa (s : State) (d a : VReg) (b : VFSrc) (f : FpF) (op : FOp) : Option VecOp :=
  vf s d a b f (fpArith (fpOf f) (rmOfCode (s.st.ctl.fcr.toNat % 4)) (s.st.ctl.fcr.getLsbD 3 && f != .f64) op)
def vfm (s : State) (d a : VReg) (b : VFSrc) (f : FpF) (isMin : Bool) : Option VecOp :=
  vf s d a b f fun x y _ gx gy _ => fpMinMax (fpOf f) (s.st.ctl.fcr.getLsbD 3 && f != .f64) isMin x y gx gy
/-- A sign operation: only the sign bit changes; grade 0 for a NaN or an infinity (R182). -/
def vfs (s : State) (d a : VReg) (b : VFSrc) (f : FpF) (g : Bool → Bool → Bool) : Option VecOp :=
  vf s d a b f fun x y _ gx _ _ =>
    let half := 2 ^ (vBits f - 1)
    { pat := x % half + (if g (decide (half ≤ x)) (decide (half ≤ y)) then half else 0)
      grade := match unpack (fpOf f) x with | .fin .. => gx | _ => 0
      flags := 0 }
/-- An FP compare to a mask: the relation over the value pairs, and the pairs that are invalid (Table 9-4). -/
def vfc (s : State) (d : MReg) (a : VReg) (b : VFSrc) (f : FpF) (rel : List (Fv × Fv) → Bool) (nv : Fv → Bool) : Option VecOp :=
  let pairs := fun e => (List.range (vCount f)).map fun j =>
    (unpack (fpOf f) (valueAt f (s.v a e) j), unpack (fpOf f) (valueAt f (fEl s f b e) j))
  some {
    regs := a :: fRegs b, opA := (fCap s b).1, opAGrade := (fCap s b).2
    flags := fun e _ => if (pairs e).any fun x => nv x.1 || nv x.2 then 1 else 0
    write := fun e u => u.setMbit d e (rel (pairs e)) }
/-- The class bits of a value (Table 9-3). -/
def classBits (f : FpF) (x : Nat) : Nat :=
  let tiny := fun m e => gtDyadic 1 (fmtEmin (fpOf f)) m e
  match unpack (fpOf f) x with
  | .inf true => 1 | .inf false => 2 ^ 7
  | .fin true 0 _ => 2 ^ 3 | .fin false 0 _ => 2 ^ 4
  | .fin true m e => if tiny m e then 2 ^ 2 else 2
  | .fin false m e => if tiny m e then 2 ^ 5 else 2 ^ 6
  | .nan sg t => (if isSnan (fpOf f) (.nan sg t) then 2 ^ 8 else 2 ^ 9) + t / 2 ^ (fmtT (fpOf f) - 4) % 8 * 2 ^ 10

/-- What an FP or grade vector instruction of class EL does. -/
def fpVec (s : State) : Instr → Option VecOp
  | .vfadd d a b f => vfa s d a b f .add
  | .vfsub d a b f => vfa s d a b f .sub
  | .vfmul d a b f => vfa s d a b f .mul
  | .vfdiv d a b f => vfa s d a b f .div
  | .vfsqrt d a f => vfa s d a (.vec a) f .sqrt
  | .vfmadd d a b f => vfa s d a b f (.fma false false)
  | .vfmsub d a b f => vfa s d a b f (.fma false true)
  | .vfnmadd d a b f => vfa s d a b f (.fma true true)
  | .vfnmsub d a b f => vfa s d a b f (.fma true false)
  | .vfmin d a b f => vfm s d a b f true
  | .vfmax d a b f => vfm s d a b f false
  | .vfabs d a f => vfs s d a (.vec a) f fun _ _ => false
  | .vfneg d a f => vfs s d a (.vec a) f fun x _ => !x
  | .vfsgn d a b f => vfs s d a b f fun _ y => y
  | .vfsgnn d a b f => vfs s d a b f fun _ y => !y
  | .vfsgnx d a b f => vfs s d a b f fun x y => x != y
  | .vfeq d a b f => vfc s d a b f (fun l => l.all fun x => fvEq x.1 x.2) (isSnan (fpOf f))
  | .vfne d a b f => vfc s d a b f (fun l => l.any fun x => !fvEq x.1 x.2) (isSnan (fpOf f))
  | .vflt d a b f => vfc s d a b f (fun l => l.all fun x => fvLt x.1 x.2) isNan
  | .vfle d a b f => vfc s d a b f (fun l => l.all fun x => fvLt x.1 x.2 || fvEq x.1 x.2) isNan
  | .vfun d a b f => vfc s d a b f (fun l => l.any fun x => isNan x.1 || isNan x.2) (isSnan (fpOf f))
  | .vfclass d a f => plainOp [d, a] (dst := some d) fun e u =>
      u.setV d e ⟨(elemOf f (fun j => classBits f (valueAt f (s.v a e) j)) fun _ => 0).val, 0xFFFF⟩
  | .vgrd d a f => plainOp [d, a] (dst := some d) fun e u =>
      u.setV d e ⟨(elemOf f (fun j => gradeOfValue f (s.v a e).grade j) fun _ => 0).val, 0xFFFF⟩
  | .vgwr d a _ => plainOp [d, a] (dst := some d) fun e u => u.setV d e ⟨(s.v d e).val, BitVec.ofNat 16 (s.v a e).val.toNat⟩
  | .vgset d a f => plainOp [d] (fun e u =>
      u.setV d e ⟨(s.v d e).val, (elemOf f (fun _ => 0) fun _ => min (s.g a).toNat (vPrec f)).grade⟩) (opA := s.g a) (dst := some d)
  | .vgfull d f => plainOp [d] (dst := some d) fun e u =>
      u.setV d e ⟨(s.v d e).val, (elemOf f (fun _ => 0) fun _ => vPrec f).grade⟩
  | .vglt d a b f => plainOp [a] (fun e u =>
      u.setMbit d e ((List.range (vCount f)).any fun j => decide (gradeOfValue f (s.v a e).grade j < (s.g b).toNat))) (opA := s.g b)
  | _ => none

/-! ### Masks, selection, conversion (R191, R197, R203, R204) -/

def maskEl (s : State) (d a b : MReg) (f : Bool → Bool → Bool) : Option VecOp :=
  plainOp [] fun e u => u.setMbit d e (f (s.mbit a e) (s.mbit b e))

/-- What the other element-wise instructions do. -/
def moveVec (s : State) : Instr → Option VecOp
  | .mand d a b => maskEl s d a b fun x y => x && y
  | .mor d a b => maskEl s d a b fun x y => x || y
  | .mxor d a b => maskEl s d a b fun x y => x != y
  | .mandn d a b => maskEl s d a b fun x y => x && !y
  | .mnot d a => maskEl s d a a fun x _ => !x
  | .mset d => maskEl s d d d fun _ _ => true
  | .mclr d => maskEl s d d d fun _ _ => false
  | .mfrom d a => plainOp [a] fun e u => u.setMbit d e ((s.v a e).val != 0)
  | .vsel d a b t => plainOp [d, a, b] (dst := some d) fun e u =>
      let n := match t with | .int wd => width wd | .fp _ => 64
      if low n (s.v b e).val = 0 then u else u.setV d e (s.v a e)
  | _ => none

/-- A conversion (Tables 10-4 and 3-14): one value of an integer type, or the values of an FP format; under stochastic rounding
SRS steps once for each finite value. -/
def cvtVec (s : State) (d a : VReg) (st dt : CvTy) (r : Rnd) (sat : Bool) : VecOp :=
  let rm := rmOfCode (s.st.ctl.fcr.toNat % 4)
  match cvKind dt with
  | .int w sg =>
    let mode := match r with | .rtz => Rm.rtz | .rdn => .rdn | .rup => .rup | .dyn => rm | _ => .rne
    let out := fun e => cvToInt (cvKind st) w sg mode sat (s.v a e)
    { regs := [d, a], dst := some d, flags := fun e _ => (out e).2
      write := fun e u => u.setV d e
        ⟨if sg then wrap (BitVec.ofInt w (out e).1).toInt else wrap (BitVec.ofInt w (out e).1).toNat, 0xFFFF⟩ }
  | .fp f =>
    let out := fun e (u : State) => cvFpVals (cvKind st) f (cvMode r s.st.ctl.fcr (stochOk (.fp f))) (ftzFor f s.st.ctl.fcr) sat (s.v a e)
      u.st.ctl.srs
    let el := fun e u => packElem f ((out e u).1.map (·.pat)) ((out e u).1.map (·.grade))
    let word := fun e u => if fmtGraded f then (el e u).grade else 0xFFFF
    { regs := [d, a], dst := some d
      flags := fun e u => (out e u).1.foldl (fun fl r => fl ||| r.flags) 0
      thresh := fun e u => if fmtGraded f then some (fmtP f, (out e u).1.map (·.grade), word e u) else none
      write := fun e u => (u.setV d e ⟨(el e u).val, word e u⟩).mapCtl fun c => { c with srs := (out e u).2 } }

/-- Every element-wise instruction on registers alone. -/
def elementWise (s : State) (i : Instr) : Option VecOp :=
  match i with
  | .vcvt d a st dt r sat => some (cvtVec s d a st dt r sat)
  | _ => ((intVec s i).or (fpVec s i)).or (moveVec s i)

end Sys2Proof.Claim

/-- R173, R174, R175, R176 with R32, R37, R38 and R71: an integer vector instruction writes, for every active element from VEI
upward, the result of Table 9-1, the compare or the carry from the sources as they stood; every other element and mask bit, the
flags and memory keep what they held; PC + 4, VEI 0 and a debug record. -/
def Sys2Proof.Claim.IntegerElements : Prop :=
  ∀ (i : Instr) (s : State) (o : Claim.VecOp), Claim.intVec s i = some o → Claim.vecReady s → Claim.notBound s o.regs →
    exec i s = .next (Claim.completed s (Claim.afterAll s o) (none, none))

/-- R177 to R185 with R153: an FP or grade vector instruction none of whose elements traps performs every active element from VEI
upward, value by value, sets FFLAGS and records in FXR the lowest element of each flag. -/
def Obligations.FpVectors : Prop :=
  ∀ (i : Instr) (s : State) (o : Claim.VecOp), Claim.fpVec s i = some o → Claim.vecReady s → Claim.notBound s o.regs →
    (∀ e ∈ Claim.todo s, Claim.vecTrap s o (Claim.below s o e) e = none) →
    exec i s = .next (Claim.completed s (Claim.afterAll s o) (none, none))

/-- R191, R193, R197: the element-wise mask operations, mfrom and vsel. -/
def Sys2Proof.Claim.MaskVectors : Prop :=
  ∀ (i : Instr) (s : State) (o : Claim.VecOp), Claim.moveVec s i = some o → Claim.vecReady s → Claim.notBound s o.regs →
    exec i s = .next (Claim.completed s (Claim.afterAll s o) (none, none))

/-- R173 to R176, R191, R193, R197: the element-wise integer and mask instructions. -/
def Obligations.IntegerVectors : Prop := Sys2Proof.Claim.IntegerElements ∧ Sys2Proof.Claim.MaskVectors

/-- R203, R204, R147, R148: vcvt converts the values of every active element from VEI upward; under stochastic rounding SRS steps
once for each finite value, lowest element and value first; that a value that is not finite takes no step is the model's choice (assumption log 49). -/
def Obligations.ConversionVectors : Prop :=
  ∀ (s : State) (d a : VReg) (st dt : CvTy) (r : Rnd) (sat : Bool), Claim.vecReady s → Claim.notBound s [d, a] →
    (Instr.vcvt d a st dt r sat).wf = true →
    let o := Claim.cvtVec s d a st dt r sat
    (∀ e ∈ Claim.todo s, Claim.vecTrap s o (Claim.below s o e) e = none) →
    exec (.vcvt d a st dt r sat) s = .next (Claim.completed s (Claim.afterAll s o) (none, none))

/-- R38, R153, R154, R167, R173, R370: the first element of an element-wise instruction that raises FPX or GRADE stops it there: the
elements below are performed, the flags of that element are merged, none of its values are written, VEI names it, and the trap
is taken by its entry. -/
def Obligations.ElementTraps : Prop :=
  ∀ (i : Instr) (s : State) (o : Claim.VecOp) (e c : Nat) (v : Word), i.wf = true → Claim.elementWise s i = some o → Claim.vecReady s →
    Claim.notBound s o.regs → e ∈ Claim.todo s →
    (∀ j ∈ Claim.todo s, j < e → Claim.vecTrap s o (Claim.below s o j) j = none) →
    Claim.vecTrap s o (Claim.below s o e) e = some (c, v) →
    let u := Claim.withFlags e (o.flags e (Claim.below s o e)) (Claim.below s o e)
    exec i s = .next ((u.mapCtl fun q => { q with vei := BitVec.ofNat 7 e }).takeTrap { code := c, val := v, elem := e }
      (.entry { o.entry s with note := some { pop := (Claim.actives s).length, first := none, last := none } }))

namespace Sys2Proof.Claim

/-! ### Instructions that work on a whole vector (R107, R156, R157, R186, R190, R192–R202, R205, R206) -/

/-- A WH instruction: the vector registers it names, those that no stream may stand for (the destination, and the sources of R190),
whether it runs with VL = 0, the flags it raises with the element each is
recorded against, the grades checked against a precision, each with the grade word of a trap, and its result. -/
structure WhOp where
  regs : List VReg
  plain : List VReg := []
  opA : Word := 0
  opAGrade : Grade := 0
  opB : Word := 0
  atZero : Bool := false
  flags : List (Nat × BitVec 6) := []
  thresh : List (Nat × List Nat × Grade) := []
  result : State → State

/-- Values from places at once: what each place of a register takes. -/
def putEls (d : VReg) (l : List (Nat × Elem)) (u : State) : State := l.foldl (fun u x => u.setV d x.1 x.2) u
def wh (regs : List VReg) (result : State → State) (opA : Word := 0) (opB : Word := 0) (opAGrade : Grade := 0)
    (plain : List VReg := regs.take 1) : Option WhOp := some { regs, plain, result, opA, opB, opAGrade }
def whZ (regs : List VReg) (result : State → State) (opA : Word := 0) : Option WhOp := some { regs, atZero := true, result, opA }
/-- Its entry. -/
def WhOp.entry (s : State) (o : WhOp) : VEntry := entryOf s o.opA o.opAGrade o.opB

/-- Flags merged, lowest element first (R200). -/
def flagged (l : List (Nat × BitVec 6)) (u : State) : State :=
  (List.range 128).foldl (fun u e => withFlags e (l.foldl (fun a x => if x.1 = e then a ||| x.2 else a) 0) u) u
/-- No flag is enabled in FCR.TE, and no grade lies below min(TH, p). -/
def quiet (s : State) (o : WhOp) : Prop :=
  (∀ x ∈ o.flags, x.2 &&& s.st.ctl.fcr.extractLsb' 4 6 = 0) ∧
  ∀ x ∈ o.thresh, s.st.ctl.gth = 0 ∨ ∀ g ∈ x.2.1, min s.st.ctl.gth.toNat x.1 ≤ g

/-- A move names an active index. -/
def indexed (s : State) (b : GReg) : Bool := active s (s.g b).toNat
/-- The active elements with their places among them. -/
def placed (s : State) : List (Nat × Nat) := (actives s).zipIdx

/-- Low bits of the active elements of a register. -/
def lows (s : State) (a : VReg) (n : Nat) : List Nat := (actives s).map fun e => low n (s.v a e).val
def slows (s : State) (a : VReg) (n : Nat) : List Int := (actives s).map fun e => slow n (s.v a e).val
/-- An integer reduction. -/
def intRed (d : GReg) (a : VReg) (n : Nat) (x : Int) : Option WhOp :=
  whZ [a] fun u => u.setG d (intEl n x).val

/-- The node of a binary tree that covers positions i × 2^k to (i + 1) × 2^k - 1: both children combine under the name of the
lowest active element, a lone child passes through (R156, R200). -/
def treeAt (node : GVal → GVal → GVal × BitVec 6) (leaf : Nat → Option GVal) :
    Nat → Nat → Option (Nat × GVal) × List (Nat × BitVec 6)
  | 0, i => ((leaf i).map fun x => (i, x), [])
  | k + 1, i =>
    let l := treeAt node leaf k (2 * i)
    let r := treeAt node leaf k (2 * i + 1)
    match l.1, r.1 with
    | some (e, x), some (_, y) => (some (e, (node x y).1), l.2 ++ r.2 ++ [(e, (node x y).2)])
    | some x, none => (some x, l.2 ++ r.2)
    | none, y => (y, l.2 ++ r.2)

/-- A value with its grade. -/
def gvalAt (s : State) (f : FpF) (a : VReg) (e j : Nat) : GVal := (valueAt f (s.v a e) j, gradeOfValue f (s.v a e).grade j)
/-- The nodes of the FP reductions, which FTZ does not touch. -/
def sumNode (s : State) (f : FpF) (x y : GVal) : GVal × BitVec 6 :=
  let r := fpArith (fpOf f) (rmOfCode (s.st.ctl.fcr.toNat % 4)) false .add x.1 y.1 0 x.2 y.2 0
  ((r.pat, r.grade), r.flags)
def pickNode (f : FpF) (isMin : Bool) (x y : GVal) : GVal × BitVec 6 :=
  let r := fpMinMax (fpOf f) false isMin x.1 y.1 x.2 y.2
  ((r.pat, r.grade), r.flags)

/-- An FP reduction: the result, or the identity at full grade with no active element; flags; fd. -/
def fpRed (f : FpF) (d : FReg) (a : VReg) (ident : Nat) (r : Option GVal × List (Nat × BitVec 6)) : Option WhOp :=
  let x := r.1.getD (ident, vPrec f)
  some { regs := [a], atZero := true, flags := r.2, thresh := [(vPrec f, [x.2], BitVec.ofNat 16 x.2)]
         result := fun u => u.setF d ⟨BitVec.ofNat 64 x.1, BitVec.ofNat 16 x.2⟩ }
/-- A tree reduction: one tree of 128 leaves for each value of an element, their results combined pairwise. -/
def fpTreeRed (s : State) (f : FpF) (a : VReg) (node : GVal → GVal → GVal × BitVec 6) : Option GVal × List (Nat × BitVec 6) :=
  let tree := fun j => treeAt node (fun e => if active s e then some (gvalAt s f a e j) else none) 7 0
  let top := treeAt node (fun j => (tree j).1.map fun x => x.2) (Nat.log2 (vCount f)) 0
  let first := ((actives s).head?).getD 0
  (top.1.map fun x => x.2, ((List.range (vCount f)).map fun j => (tree j).2).flatten ++ top.2.map fun x => (first, x.2))
/-- The ordered sum: values in element and value order, each added to the sum so far (R201). -/
def fpSeqRed (s : State) (f : FpF) (a : VReg) : Option GVal × List (Nat × BitVec 6) :=
  (((actives s).map fun e => (List.range (vCount f)).map fun j => (e, gvalAt s f a e j)).flatten).foldl
    (fun acc x => match acc.1 with
      | none => (some x.2, acc.2)
      | some y => (some (sumNode s f y x.2).1, acc.2 ++ [(x.1, (sumNode s f y x.2).2)])) (none, [])

/-- A reduction with an integer and an FP form. -/
def red (s : State) (r : RedDst) (a : VReg) (x : Nat → Int) (node : FpF → GVal → GVal → GVal × BitVec 6) (ident : FpF → Nat) :
    Option WhOp :=
  match r with
  | .int wd d => intRed d a (width wd) (x (width wd))
  | .fp f d => fpRed f d a (ident f) (fpTreeRed s f a (node f))
/-- ±∞ of a format. -/
def infinity (f : FpF) (neg : Bool) : Nat := packInf (fpOf f) neg

/-- The steps of an FP scan over the active elements: element, new element, its flags and grades; the running value passes from
value to value and element to element (R202). -/
def scanFrom (s : State) (f : FpF) (step : GVal → Nat → Nat → FOut) : List Nat → GVal → List (Nat × Elem × BitVec 6 × List Nat)
  | [], _ => []
  | e :: es, run =>
    let outs := (List.range (vCount f)).foldl (fun (acc : GVal × List FOut) j =>
      let r := step acc.1 e j
      ((r.pat, r.grade), acc.2 ++ [r])) (run, [])
    let el := elemOf f (fun j => ((outs.2[j]?).map (·.pat)).getD 0) (fun j => ((outs.2[j]?).map (·.grade)).getD 0)
    (e, el, outs.2.foldl (fun fl r => fl ||| r.flags) 0, outs.2.map (·.grade)) :: scanFrom s f step es outs.1
def fpScanOp (s : State) (f : FpF) (regs : List VReg) (d : VReg) (step : GVal → Nat → Nat → FOut) : Option WhOp :=
  let l := scanFrom s f step (actives s) (gvalAt s f d 127 (vCount f - 1))
  some { regs, plain := [d], flags := l.map fun x => (x.1, x.2.2.1), thresh := l.map fun x => (vPrec f, x.2.2.2, x.2.1.grade)
         result := putEls d (l.map fun x => (x.1, x.2.1)) }
/-- Arithmetic under the captured FCR. -/
def arith (s : State) (f : FpF) (op : FOp) : (a b c ga gb gc : Nat) → FOut :=
  fpArith (fpOf f) (rmOfCode (s.st.ctl.fcr.toNat % 4)) (s.st.ctl.fcr.getLsbD 3 && f != .f64) op
/-- Sum of the carry-in and the active elements up to one. -/
def running (s : State) (d a : VReg) (n e : Nat) : Nat :=
  low n (s.v d 127).val + (((actives s).filter fun j => decide (j ≤ e)).map fun j => low n (s.v a j).val).sum

/-- The values that vquant packs: those of elements 0 to VL - 1, zeros for an inactive one (R205). -/
def quantSeq (s : State) (f : FpF) (a : VReg) : List SeqVal :=
  ((List.range s.st.ctl.vl).map fun e => (List.range (vCount f)).map fun j =>
    if active s e then (some e, unpack (fpOf f) (valueAt f (s.v a e) j)) else (none, unpack (fpOf f) 0)).flatten
/-- Its blocks of fourteen, each with its slot; SRS goes on from block to block. -/
def quantSlots (s : State) (f : FpF) (a : VReg) (r : Rnd) : List Nat × BitVec 32 × List (Nat × BitVec 6) :=
  (blocks14 40 (quantSeq s f a)).foldl (fun acc b =>
    let q := quantBlock (cvMode r s.st.ctl.fcr true) b acc.2.1
    (acc.1 ++ [q.1], q.2.1, acc.2.2 ++ q.2.2)) ([], s.st.ctl.srs, [])
/-- Element e that vdequant writes: value j is number J × e + j of the sequence of blocks (R206). -/
def dequantVal (s : State) (f : FpF) (a : VReg) (e j : Nat) : Nat :=
  sb4Elem (fpOf f) (s.v a ((vCount f * e + j) / 14)).val ((vCount f * e + j) % 14)
def dequantGrade (s : State) (f : FpF) (a : VReg) (e j : Nat) : Nat :=
  match unpack (fpOf f) (dequantVal s f a e j) with | .fin .. => vPrec f | _ => 0
def dequantEl (s : State) (f : FpF) (a : VReg) (e : Nat) : Elem := elemOf f (dequantVal s f a e) (dequantGrade s f a e)

/-- What a WH instruction does. -/
def whole (s : State) : Instr → Option WhOp
  | .vins d a b => wh [d] (opA := s.g a) (opB := s.g b) fun u => if indexed s b then u.setV d (s.g b).toNat ⟨s.g a, 0xFFFF⟩ else u
  | .vfins d a b => wh [d] (opA := (s.f a).val) (opAGrade := (s.f a).grade) (opB := s.g b) fun u => if indexed s b then u.setV d (s.g b).toNat (s.f a) else u
  | .vext d a b => whZ [a] (opA := s.g b) fun u => u.setG d (if indexed s b then (s.v a (s.g b).toNat).val else 0)
  | .vfext d a b => whZ [a] (opA := s.g b) fun u => u.setF d (if indexed s b then s.v a (s.g b).toNat else ⟨0, 0xFFFF⟩)
  | .vgmin d a f => whZ [a] fun u => u.setG d (wrap
      ((((actives s).map fun e => (List.range (vCount f)).map (gradeOfValue f (s.v a e).grade)).flatten).foldl min (vPrec f) : Nat))
  | .mshl d a b => wh [] (opA := s.g b) fun u => (actives s).foldl (fun u e => u.setMbit d e (decide ((s.g b).toNat ≤ e) && s.mbit a (e - (s.g b).toNat))) u
  | .mshr d a b => wh [] (opA := s.g b) fun u => (actives s).foldl (fun u e => u.setMbit d e
      (decide (e + (s.g b).toNat ≤ 127) && s.mbit a (e + (s.g b).toNat))) u
  | .mpop d a => whZ [] fun u => u.setG d (wrap (((actives s).filter fun e => s.mbit a e).length : Nat))
  | .mfirst d a => whZ [] fun u => u.setG d (match (actives s).filter fun e => s.mbit a e with | e :: _ => wrap (e : Nat) | [] => wrap (-1))
  | .vslup d a b _ => wh [d, a] (plain := [d, a]) (opA := s.g b) (putEls d (((actives s).filter fun e => decide ((s.g b).toNat ≤ e)).map fun e => (e, s.v a (e - (s.g b).toNat))))
  | .vsldn d a b _ => wh [d, a] (plain := [d, a]) (opA := s.g b) (putEls d (((actives s).filter fun e => decide (e + (s.g b).toNat ≤ 127)).map fun e =>
      (e, s.v a (e + (s.g b).toNat))))
  | .vpack d a _ => wh [d, a] (putEls d ((placed s).map fun x => (x.2, s.v a x.1)))
  | .vunpk d a _ => wh [d, a] (putEls d ((placed s).map fun x => (x.1, s.v a x.2)))
  | .vperm d a b t => wh [d, a, b] (plain := [d, a, b]) (putEls d ((actives s).map fun e =>
      let i := (s.v b e).val.toNat
      (e, if i ≤ 127 then s.v a i else ⟨0, match t with | .int _ => 0xFFFF | .fp f => (elemOf f (fun _ => 0) fun _ => vPrec f).grade⟩)))
  | .vconfl d a t => wh [d, a] (putEls d ((actives s).map fun e =>
      let same := (actives s).filter fun j => decide (j < e) && low (width t) (s.v a j).val == low (width t) (s.v a e).val
      (e, ⟨match same.getLast? with | some j => wrap (j : Nat) | none => wrap (-1), 0xFFFF⟩)))
  | .vrsum r a => red s r a (fun n => (lows s a n).sum) (sumNode s) fun _ => 0
  | .vrmin r a => red s r a (fun n => (slows s a n).foldl min (2 ^ (n - 1) - 1)) (fun f => pickNode f true) fun f => infinity f false
  | .vrmax r a => red s r a (fun n => (slows s a n).foldl max (-2 ^ (n - 1))) (fun f => pickNode f false) fun f => infinity f true
  | .vrand d a t => intRed d a (width t) ((lows s a (width t)).foldl (fun x y => x &&& y) (2 ^ width t - 1) : Nat)
  | .vrior d a t => intRed d a (width t) ((lows s a (width t)).foldl (fun x y => x ||| y) 0 : Nat)
  | .vrosat d a t => intRed d a (width t)
      ((slows s a (width t)).foldl (fun x y => clamp (-2 ^ (width t - 1)) (2 ^ (width t - 1) - 1) (x + y)) 0)
  | .vrosum d a f => fpRed f d a 0 (fpSeqRed s f a)
  | .vscan d a (.int wd) => wh [d, a] (putEls d ((actives s).map fun e => (e, intEl (width wd) (running s d a (width wd) e))))
  | .vscan d a (.fp f) => fpScanOp s f [d, a] d fun run e j =>
      arith s f .add run.1 (gvalAt s f a e j).1 0 run.2 (gvalAt s f a e j).2 0
  | .vlrec d a b f => fpScanOp s f [d, a, b] d fun run e j =>
      arith s f (.fma false false) (gvalAt s f a e j).1 run.1 (gvalAt s f b e j).1 (gvalAt s f a e j).2 run.2 (gvalAt s f b e j).2
  | .vquant d a f r => some {
      regs := [d, a], plain := [d], flags := (quantSlots s f a r).2.2
      result := fun u => (putEls d ((quantSlots s f a r).1.zipIdx.map fun x => (x.2, ⟨BitVec.ofNat 64 x.1, 0xFFFF⟩)) u).mapCtl
        fun c => { c with srs := (quantSlots s f a r).2.1 } }
  | .vdequant d a f _ _ => some {
      regs := [d, a], plain := [d, a]
      thresh := (actives s).map fun e =>
        (vPrec f, (List.range (vCount f)).map (dequantGrade s f a e), (dequantEl s f a e).grade)
      result := putEls d ((actives s).map fun e => (e, dequantEl s f a e)) }
  | _ => none

/-- The other vector instructions: true where VL = 0 voids them as it does the ones above (R72), false where it does not (the stream
instructions, assumption log 44; those that work on no element; the collectives, R72). -/
def farVector : Instr → Option Bool
  | .vld .. | .vst .. | .vlds .. | .vsts .. | .vldx .. | .vstx .. | .vstxa .. | .vldb .. | .vldLn .. | .vstLn .. | .vldG .. | .vstG .. | .vpre ..
  | .mxLdw .. | .mxLdwg .. | .mxSwap | .mxStep .. | .mxStepz .. | .mxSteps .. | .mxZero .. | .mxRd .. | .mxWr .. | .mxSt .. | .mxCfg ..
  | .mxSkip .. | .mxGrant .. | .mxRet
  | .vldAcqL .. | .vldAcqF64 .. | .vstRelL .. | .vstRelF64 .. | .vamoAddW .. | .vamoAddL .. | .vamoMinL .. | .vamoMaxL .. | .vamoMinuL ..
  | .vamoMaxuL .. | .vamoAndL .. | .vamoOrL .. | .vamoXorL .. | .vamoSwapW .. | .vamoSwapL .. | .vamoFaddF32 .. | .vamoFaddF64 .. => some true
  | .sbind .. | .sfree .. | .sskip .. | .sstat .. | .vsync | .colRed .. | .colAred .. | .colGat .. | .colAgat .. | .colSct .. | .colA2a ..
  | .grpJoin .. | .grpLeave .. | .grpInfo .. | .grpLoad .. => some false
  | _ => none

/-- The whole-vector instructions between registers, the moves of single elements among them. -/
def isMove : Instr → Bool
  | .vins .. | .vfins .. | .vext .. | .vfext .. | .mshl .. | .mshr .. | .mpop .. | .mfirst .. | .vslup .. | .vsldn .. | .vpack .. | .vunpk ..
  | .vperm .. | .vconfl .. => true
  | _ => false

end Sys2Proof.Claim

/-- R107, R190, R192, R194 to R198: the element moves, mask shifts and counts, slides, pack, unpack, permute and conflict detection
read every source before anything is written, write the places their rules name, and leave every other place as it was. -/
def Obligations.MoveVectors : Prop :=
  ∀ (i : Instr) (s : State) (o : Claim.WhOp), Claim.isMove i = true → Claim.whole s i = some o → Claim.vecReady s →
    Claim.notBound s o.regs → (s.st.ctl.vl ≠ 0 ∨ o.atZero = true) →
    exec i s = .next (Claim.completed s (o.result (Claim.freshWh s (o.entry s))) (none, none))

/-- R156, R157, R186, R199 to R202, R205, R206: reductions, scans, the recurrence, vgmin, vquant and vdequant: their result over the
active elements, by the tree or in order, with their flags; none of the traps of R154 and R167 is due. -/
def Obligations.ReductionVectors : Prop :=
  ∀ (i : Instr) (s : State) (o : Claim.WhOp), Claim.isMove i = false → Claim.whole s i = some o → Claim.vecReady s →
    Claim.notBound s o.regs → (s.st.ctl.vl ≠ 0 ∨ o.atZero = true) → Claim.quiet s o →
    exec i s = .next (Claim.completed s (o.result (Claim.flagged o.flags (Claim.freshWh s (o.entry s)))) (none, none))

/-- R72: with VL = 0 a vector instruction performs nothing: PC + 4, VEI 0, FXR clear, a debug record. It holds of the element-wise and
whole-vector instructions between registers but those that write a scalar register, of the loads and stores, of the matrix instructions,
of the vector atomics and of the ordered loads and stores. The stream instructions run, which is the model's choice (assumption log 44):
a bind that would raise a fault does nothing. -/
def Obligations.VoidAtZero : Prop :=
  ∀ (i : Instr) (s : State), s.st.ctl.vl = 0 → Claim.vecReady s →
    (((∃ o, Claim.elementWise s i = some o) ∨ (∃ o, Claim.whole s i = some o ∧ o.atZero = false) ∨ Claim.farVector i = some true) →
      exec i s = .next (Claim.completed s (s.mapCtl fun c => { c with fxr := 0 }) (none, none))) ∧
    (∀ d a b t, i = .sbind d a b t → (s.g a).toNat % 32 ≠ 0 →
      exec i s = .next (Claim.completed s (s.mapCtl fun c => { c with fxr := 0 }) (none, none)))

/-- R53, R75: VMS 12, 13 or 14 makes every vector instruction, those on memory, the array, streams and groups among them, raise ILL when it would commit, the queue before it empty: nothing is
written, and TPC names it. -/
def Sys2Proof.Claim.MaskSelectChecked : Prop :=
  ∀ (i : Instr) (s : State), ((Claim.elementWise s i).isSome ∨ (Claim.whole s i).isSome ∨ (Claim.farVector i).isSome) → s.st.issue = none → s.st.vq = [] →
    Claim.settled s → s.st.rpl.going = false → 12 ≤ s.st.ctl.vms.toNat → s.st.ctl.vms.toNat ≤ 14 → Claim.catches s →
    exec i s = .next (Claim.entered s 1 (Claim.wrap s.ir.toNat) s.st.pc)

namespace Sys2Proof.Claim

/-! ### Vector memory accesses (R114–R124, R169–R171) -/

/-- Bytes and FP type of a datum (Table 5-1). -/
def dataBytes : ElTy → Nat | .int wd => width wd / 8 | .fp _ => 8
def isFp : ElTy → Bool | .int _ => false | .fp _ => true
/-- Full grade in every field of a format: what a load from a page without grades leaves (Table 8-1). -/
def full (f : FpF) : Grade := (elemOf f (fun _ => 0) fun _ => vPrec f).grade
/-- The element a load of bytes leaves: an integer sign-extended and ungraded, an FP datum with the sidecar word of its page or
full grade. -/
def loaded (t : ElTy) (x : Nat) (g : Option Grade) : Elem :=
  match t with
  | .int wd => intEl (width wd) x
  | .fp f => ⟨BitVec.ofNat 64 x, g.getD (full f)⟩
/-- What a store of an element writes to the sidecar of a GT page: 0xFFFF in every touched unit for integer data, the grade word
for an FP datum. -/
def elSide (t : ElTy) (x : Elem) : Nat → Nat → Nat → Nat × Nat × Nat :=
  match t with
  | .int _ => intSide
  | .fp _ => fun _ _ k => (k, 2, x.grade.toNat)

/-- Elements performed one after the other, each from the state the one before it has left, VEI naming it; what an element kept for a
later try is forgotten when it is done. -/
def perform (f : Nat → State → Option State) : List Nat → State → Option State
  | [], u => some u
  | e :: es, u => (f e (u.mapCtl fun c => { c with vei := BitVec.ofNat 7 e })).bind fun x => perform f es (x.dropAnswers 1)

/-- What an access keeps for a later try of its instruction is its own. -/
def keeps (s : State) (bs : List Begun) : Prop := ∀ b ∈ bs, b.owner = s.accessOwner
/-- What a computation leaves when it completes. -/
def ran {α : Type} (m : M α) (u : State) : Option (α × State) := match m u with | .ok x t => some (x, t) | .error .. => none
/-- An element loaded from an address and put into a register. -/
def loadInto (d : VReg) (t : ElTy) (va e : Nat) (u : State) : Option State :=
  (ran (loadEl .plain t va e) u).map fun r => r.2.setV d e r.1
/-- An element stored to an address. -/
def storeFrom (t : ElTy) (x : Elem) (va e : Nat) (u : State) : Option State := (ran (storeEl .plain t va x e) u).map (·.2)

/-- Addresses of element e: unit stride, strided by VSTR, indexed by a register (Table 5-2). -/
def unitAt (s : State) (a : GReg) (n e : Nat) : Word := wrap ((s.g a).toNat + e * n)
def strideAt (s : State) (a : GReg) (e : Nat) : Word := wrap ((s.g a).toNat + e * s.st.ctl.vstr.toInt)
def indexAt (s : State) (a : GReg) (b : VReg) (e : Nat) : Word := wrap ((s.g a).toNat + (s.v b e).val.toInt)

/-- The lane a strand's element lies in, and the byte of its slice (R42, R122). -/
def lanes (s : State) : Nat := match s.myCore.div with | 0 => 64 | 1 => 32 | _ => 16
def laneByte (s : State) (e o : Nat) : Nat := s.st.core * 2 ^ 24 + (s.st.slot * lanes s + e % lanes s) * 4096 + o
/-- A lane access lies in the slice and is aligned. -/
def laneOk (n : Nat) (o : Word) : Bool := decide (o.toNat + n ≤ 4096) && decide (o.toNat % n = 0)

/-- Accesses checked and placed one after the other, nothing performed (R335 step 1). -/
def checkAll (f : Nat → M (List Part)) : List Nat → State → Option State
  | [], u => some u
  | e :: es, u => (ran (f e) u).bind fun x => checkAll f es x.2

/-- A memory instruction: registers, the one it writes, its captured operand, the address of an element for the ring, what performs an element;
what comes before the first, and whether it is a load or a store, which leaves FXR as it is (R115; assumption log 29). -/
structure MemOp where
  regs : List VReg
  dst : Option VReg := none
  opA : Word
  addr : Option (Nat → Word)
  perf : Nat → State → Option State
  prep : State → Option State := some
  keepFxr : Bool := true

/-- A load or a store that starts leaves FXR as it is; with VL = 0 it clears it (R72). -/
def freshMem (s : State) (n : VEntry) : State :=
  if s.st.ctl.vl = 0 then (committed s n).mapCtl fun c => { c with fxr := 0 } else committed s n

/-- A load or a store. -/
def mem (regs : List VReg) (opA : Word) (addr : Option (Nat → Word)) (perf : Nat → State → Option State) : Option MemOp :=
  some { regs, opA, addr, perf }
/-- The state in which it starts. -/
def MemOp.begin (s : State) (o : MemOp) : State :=
  if o.keepFxr then freshMem s (entryOf s o.opA 0) else freshEl s (entryOf s o.opA 0)
/-- A load into a register. -/
def into (d : VReg) (o : Option MemOp) : Option MemOp := o.map fun o => { o with dst := some d }
/-- What a vector load or store does, element by element. -/
def memVec (s : State) : Instr → Option MemOp
  | .vld d a t => into d <| mem [d] (s.g a) (some (unitAt s a (dataBytes t))) fun e => loadInto d t (unitAt s a (dataBytes t) e).toNat e
  | .vst r a t => mem [r] (s.g a) (some (unitAt s a (dataBytes t))) fun e => storeFrom t (s.v r e) (unitAt s a (dataBytes t) e).toNat e
  | .vlds d a t => into d <| mem [d] (s.g a) (some (strideAt s a)) fun e => loadInto d t (strideAt s a e).toNat e
  | .vsts r a t => mem [r] (s.g a) (some (strideAt s a)) fun e => storeFrom t (s.v r e) (strideAt s a e).toNat e
  | .vldx d a b t => into d <| mem [d, b] (s.g a) (some (indexAt s a b)) fun e => loadInto d t (indexAt s a b e).toNat e
  | .vstx r a b t => mem [r, b] (s.g a) (some (indexAt s a b)) fun e => storeFrom t (s.v r e) (indexAt s a b e).toNat e
  | .vldLn d b t => into d <| mem [d, b] 0 none fun e u =>
      let n := dataBytes t
      if laneOk n (s.v b e).val then
        some (u.setV d e (loaded t (Memory.readN s.onchip (laneByte s e (s.v b e).val.toNat) n) none)) else none
  | .vstLn r b t => mem [r, b] 0 none fun e u =>
      let n := dataBytes t
      if laneOk n (s.v b e).val then some { u with
        onchip := Memory.writeN u.onchip (laneByte s e (s.v b e).val.toNat) n (s.v r e).val.toNat
        st := { u.st with tags := { u.st.tags with
          laneDirty := insertAsc u.st.tags.laneDirty (e % lanes s), laneValid := insertAsc u.st.tags.laneValid (e % lanes s) } } }
      else none
  | .vldG d a _ => into d <| mem [d] (s.g a) (some (unitAt s a 8)) fun e u =>
      (ran (spillCheck .load (entryOf s (s.g a) 0) e) u).bind fun r1 =>
      (ran (loadM ((unitAt s a 8 e).toNat % 8 != 0) (.plain true) (unitAt s a 8 e).toNat 8 e) r1.2).bind fun r2 =>
      (ran (loadM false (.plain false) (wrap ((s.g a).toNat + 1024 + 2 * e)).toNat 2 e) r2.2).map fun r3 =>
        r3.2.setV d e ⟨BitVec.ofNat 64 r2.1.1, BitVec.ofNat 16 r3.1.1⟩
  | .vstG r a _ => mem [r] (s.g a) (some (unitAt s a 8)) fun e u =>
      (ran (spillCheck .store (entryOf s (s.g a) 0) e) u).bind fun r1 =>
      (ran (storeM true (.plain true) (.word (s.v r e).grade) (unitAt s a 8 e).toNat 8 (s.v r e).val.toNat e) r1.2).bind fun r2 =>
      (ran (performed true (unitAt s a 8 e).toNat 8) r2.2).bind fun r2 =>
      (ran (storeM true (.plain false) .int (wrap ((s.g a).toNat + 1024 + 2 * e)).toNat 2 (s.v r e).grade.toNat e) r2.2).map fun r3 => r3.2
  | .vstxa r a b t => some {
      regs := [r, b], opA := s.g a, addr := some (indexAt s a b), keepFxr := false
      prep := checkAll (fun e => placeM .rmw (.plain (isFp t)) (indexAt s a b e).toNat (dataBytes t) e) (todo s)
      perf := fun e u => (ran (scatterEl t (entryOf s (s.g a) 0) (indexAt s a b e).toNat e (s.v r e)) u).map (·.2) }
  | .vpre a => some {
      regs := [], opA := s.g a, addr := some (strideAt s a), keepFxr := false
      perf := fun e u => (ran (preTouch (strideAt s a e).toNat e) u).map (·.2) }
  | _ => none

/-- Addresses of the lowest and the highest active element. -/
def ends (s : State) (f : Option (Nat → Word)) : Option Word × Option Word :=
  match f with
  | none => (none, none)
  | some f => ((actives s).head?.map f, (actives s).getLast?.map f)

/-- The lines touched have been counted: in the counters of dies and sections, and in HINTU of the core. -/
def counted (u t : State) : Prop := ∃ d x n, t = { u with
  dies := d, sects := x, st := { u.st with lines := [] }
  cores := if n = 0 then u.cores else SMap.put u.cores u.st.core { u.myCore with hintu := u.myCore.hintu + n } }

/-! ### Stream slots (R125–R127) -/

/-- Field rules of Table 5-3 for the four doublewords of a descriptor. -/
def descRules (w0 w1 : Word) : Prop :=
  w0.toNat / 2 ^ 16 = 0 ∧ w0.toNat / 2 ^ 4 % 2 ^ 8 = 0 ∧ w0.toNat % 16 ≤ 3 ∧ (w0.toNat % 16 = 3 ∨ w0.toNat / 2 ^ 12 % 16 = 0) ∧
  w1.toNat / 2 ^ 40 = 0
/-- The rules of each kind of stream (R125, R128, R330), a neighbour query apart. -/
def kindRules (s : State) (t : ElTy) (w0 base : Word) : Prop :=
  (w0.toNat % 16 = 2 → t = .int .l ∨ isFp t = true) ∧
  (w0.toNat % 16 = 3 → w0.toNat / 2 ^ 12 % 16 < s.depth ∧ nth s.phys (w0.toNat / 2 ^ 12 % 16) 0 = 2 ∧
    0x7FFFFFF0000000 ≤ base.toNat ∧ base.toNat < 0x80000000000000)
/-- The slot a bind leaves. -/
def slotOf (d : VReg) (t : ElTy) (w0 w1 base stride : Word) (mesh : Option (Nat × Nat)) : Stream :=
  { reg := d, ty := t, kind := w0.toNat % 16, level := w0.toNat / 2 ^ 12 % 16, len := w1.toNat % 2 ^ 40, base, stride, pos := 0, mesh }

end Sys2Proof.Claim

/-- R114, R116, R169: the load of one element from pages that are here: its bytes, lowest address lowest, sign-extended or with their
grades; nothing changes but translations and request counts. -/
def Sys2Proof.Claim.ElementLoads : Prop :=
  ∀ (t : ElTy) (va e : Nat) (s u : State) (ps : List Part),
    placeM .load (.plain (Claim.isFp t)) va (Claim.dataBytes t) e s = .ok ps u → Claim.unbegun s ps →
    (∀ p ∈ ps, Claim.readable u (Claim.isFp t && ps.length == 1) p) →
    ∃ ls bs, Claim.keeps s bs ∧ loadEl .plain t va e s = .ok
      (Claim.loaded t (ps.map fun p => Claim.partBytes u p * 2 ^ (8 * p.at_)).sum (Claim.sidecar u (Claim.isFp t) ps))
      { u with st := { u.st with lines := ls, begun := bs } }

/-- R115, R116, R169, R170: the store of one element to pages that are here writes its bytes, lowest address lowest, and on a GT page
its sidecar; no other byte. -/
def Sys2Proof.Claim.ElementStores : Prop :=
  ∀ (t : ElTy) (va e : Nat) (x : Elem) (s u : State) (ps : List Part),
    placeM .store (.plain (Claim.isFp t)) va (Claim.dataBytes t) e s = .ok ps u → Claim.unbegun s ps →
    (∀ p ∈ ps, Claim.writable u (Claim.elSide t x) p) →
    ∃ ls bs, Claim.keeps s bs ∧ storeEl .plain t va x e s = .ok ()
      { ps.foldl (Claim.putPart (x.val.toNat % 2 ^ (8 * Claim.dataBytes t)) (Claim.elSide t x)) u with
        st := { u.st with lines := ls, begun := bs } }

/-- R114 to R116, R169, R170: the load and the store of one element. -/
def Obligations.ElementAccess : Prop := Sys2Proof.Claim.ElementLoads ∧ Sys2Proof.Claim.ElementStores

/-- R118 to R124 with R73, R335: a vector load or store performs its active elements from VEI upward, lowest first, each at its own
address: unit stride, strided by VSTR, indexed, or in lane SRAM; a scatter-add translates them all first; PC + 4, VEI 0, and a debug
record with the addresses of its ends. That a load or a store leaves FXR as it is follows R115 over R37: the model's choice
(assumption log 29). -/
def Sys2Proof.Claim.StridedVectors : Prop :=
  ∀ (i : Instr) (s u : State) (o : Claim.MemOp), Claim.memVec s i = some o → Claim.vecReady s → Claim.notBound s o.regs →
    (o.prep (o.begin s)).bind (Claim.perform o.perf (Claim.todo s)) = some u → u.st.trains = [] →
    ∃ t, Claim.counted u t ∧ exec i s = .next (Claim.completed s t (Claim.ends s o.addr))

/-- R119: vldb reads its datum once, for its lowest active element from VEI upward, and writes it to every one of them; with none
it reads nothing. -/
def Sys2Proof.Claim.BroadcastLoad : Prop :=
  ∀ (s : State) (d : VReg) (a : GReg) (t : ElTy), Claim.vecReady s → Claim.notBound s [d] →
    let start := Claim.freshMem s (Claim.entryOf s (s.g a) 0)
    (Claim.todo s = [] → exec (.vldb d a t) s = .next (Claim.completed s start (Claim.ends s (some fun _ => s.g a)))) ∧
    ∀ (u : State) (e : Nat) (es : List Nat) (x : Elem), Claim.todo s = e :: es →
    Claim.ran (loadEl .plain t (s.g a).toNat e) (start.mapCtl fun c => { c with vei := BitVec.ofNat 7 e }) = some (x, u) →
    ∃ v, Claim.counted (((e :: es).foldl (fun u j => u.setV d j x) u).dropAnswers 1) v ∧
      exec (.vldb d a t) s = .next (Claim.completed s v (Claim.ends s (some fun _ => s.g a)))

/-- R118 to R124: the vector loads and stores. -/
def Obligations.MemoryVectors : Prop := Sys2Proof.Claim.StridedVectors ∧ Sys2Proof.Claim.BroadcastLoad

/-- R125, R126, R127, R128, R301, R315: sbind binds a free register to slot b under the descriptor at ga, a multiple of 32, at position 0,
what the slot held given up first; sfree frees the slot; a mesh version or a broadcast buffer that no slot holds any more is given up; sskip moves its position on, at most to LEN;
sstat reads the slot. That VL = 0 does not void them, and that REMAIN is 0 past LEN, are the model's choices (assumption log 44, 26). -/
def Sys2Proof.Claim.StreamSlots : Prop :=
  ∀ (s : State) (b : Slot), Claim.vecReady s →
    (∀ (d : VReg) (a : GReg) (t : ElTy) (w0 w1 base stride : Word) (u : State), (s.g a).toNat % 32 = 0 →
      Claim.ran (readDesc (s.g a).toNat) (Claim.freshWh s (Claim.entryOf s (s.g a) 0)) = some ([w0, w1, base, stride], u) → Claim.descRules w0 w1 →
      Claim.kindRules s t w0 base → (∀ (i : Fin 8) k, s.st.k[i] = some k → k.reg = d → i = b) →
      let mesh := if w0.toNat % 16 = 1 then meshBind s t [w0, w1, base, stride] else none
      (w0.toNat % 16 = 1 → mesh.isSome) →
      let freed := State.pruneStreams { u with st := { u.st with k := u.st.k.set b none } }
      ∃ v, Claim.counted ((freed.mapSt fun q => { q with
          k := q.k.set b (some (Claim.slotOf d t w0 w1 base stride mesh)) }).dropAnswers 1) v ∧
        exec (.sbind d a b t) s = .next (Claim.completed s v (none, none))) ∧
    exec (.sfree b) s = .next (Claim.completed s
      ((Claim.freshWh s (Claim.entryOf s 0 0)).mapSt fun q => { q with k := q.k.set b none }).pruneStreams (none, none)) ∧
    (∀ (a : GReg), exec (.sskip a b) s = .next (Claim.completed s ((Claim.freshWh s (Claim.entryOf s (s.g a) 0)).mapSt fun q =>
      { q with k := q.k.set b (q.k[b].map fun k => { k with pos := min (k.pos + (s.g a).toNat) k.len }) }) (none, none))) ∧
    (∀ (d : GReg), exec (.sstat d b) s = .next (Claim.completed s ((Claim.freshWh s (Claim.entryOf s 0 0)).setG d (match s.st.k[b] with
      | none => 0
      | some k => Claim.wrap (2 ^ 63 + k.kind * 2 ^ 60 + k.reg.val * 2 ^ 54 + k.ty.code * 2 ^ 51 + (k.len - k.pos) % 2 ^ 40 : Nat))) (none, none)))

namespace Sys2Proof.Claim

/-! ### Operands that read from a stream (R127, R128, R190, R315, R330) -/

/-- Element n of a stream, for element e of the instruction: KIND 0 and 3 load from BASE + STRIDE × n, KIND 2 does so for the collective
engine, KIND 1 takes the entry of the mesh version at the first one of cell FIRST plus n. The lines that the request counters take are
those of `counted`. -/
def streamed (k : Stream) (n e : Nat) (u : State) : Option (Elem × State) :=
  if k.kind = 1 then
    let l := ((u.meshVersion u.st.partn (k.mesh.getD (0, 0)).1 (k.mesh.getD (0, 0)).2).map (·.entries)).getD []
    let first := (l.takeWhile fun w => decide (w.toNat / 2 ^ 40 < k.stride.toNat % 2 ^ 24)).length
    some (⟨l[first + n]?.getD 0, 0xFFFF⟩, u)
  else ran (loadEl .plain k.ty (k.base + k.stride * BitVec.ofNat 64 n).toNat e) u
/-- What the instruction is when element e of the register is x. -/
def fed (s : State) (i : Instr) (r : VReg) (e : Nat) (x : Elem) : VecOp := (elementWise (s.setV r e x) i).getD { regs := [], write := fun _ u => u }
/-- An element performed with its source from a stream, where it raises no trap of its own. -/
def fromStream (s : State) (i : Instr) (r : VReg) (k : Stream) (e : Nat) (u : State) : Option State :=
  (streamed k (k.pos + e) e u).bind fun x =>
    let o := fed s i r e x.1
    if vecTrap s o x.2 e = none then some (o.write e (withFlags e (o.flags e x.2) x.2)) else none

/-- Register r is bound to slot b alone, and no other register of a list is bound; the list names it once. -/
def onlyBound (s : State) (rs : List VReg) (r : VReg) (b : Fin 8) (k : Stream) : Prop :=
  s.st.k[b] = some k ∧ k.reg = r ∧ rs.count r = 1 ∧ ∀ (i : Fin 8) k', s.st.k[i] = some k' → k'.reg ∈ rs → i = b

/-- What the trap of a vector instruction keeps of it: its entry, with what the debug ring will say of it. -/
def trapped (s : State) (n : VEntry) (ends : Option Word × Option Word) : TrapSrc :=
  .entry { n with note := some { pop := (actives s).length, first := ends.1, last := ends.2 } }

end Sys2Proof.Claim

/-- R127, R128, R315, R330: an element-wise instruction that names a register bound to a slot, of whatever KIND, as one of its sources
reads element e of it from the stream at the position plus e; when it completes, the position moves on by VL. Past LEN it raises
STREAM with TVAL the slot. -/
def Sys2Proof.Claim.StreamSources : Prop :=
  ∀ (i : Instr) (s : State) (o : Claim.VecOp) (r : VReg) (b : Fin 8) (k : Stream), i.wf = true → Claim.elementWise s i = some o →
    Claim.vecReady s → s.st.ctl.vl ≤ 128 → Claim.onlyBound s o.regs r b k → o.dst ≠ some r →
    (∀ u, (∀ e ∈ Claim.todo s, k.pos + e < k.len) →
      Claim.perform (Claim.fromStream s i r k) (Claim.todo s) (Claim.freshEl s (o.entry s)) = some u →
      ∃ t, Claim.counted { u with st := { u.st with k := s.st.k.set b (some { k with pos := k.pos + s.st.ctl.vl }) } } t ∧
        exec i s = .next (Claim.completed s t (none, none))) ∧
    (∀ e es, Claim.todo s = e :: es → k.len ≤ k.pos + e → Claim.catches s →
      ∃ t, exec i s = .next t ∧ t.st.trap.tcause = 10 ∧ t.st.trap.tval = BitVec.ofNat 64 b.val ∧
        t.st.trap.telem = BitVec.ofNat 7 e ∧ t.st.pc = s.st.trap.tvec ∧ Claim.sameV s t [] ∧ t.st.k = s.st.k)

/-- R127, R190, R73, R74: an instruction whose destination is bound as a stream, or that names a bound register as a source that no stream
may feed, raises STREAM before anything else: an element-wise instruction or a load at VEI, a whole-vector one at element 0. That TVAL is
the number of that register is the model's choice (assumption log 33). -/
def Sys2Proof.Claim.StreamClashes : Prop :=
  ∀ (i : Instr) (s : State) (r : VReg), Claim.vecReady s → s.st.counted = [] → (∃ (b : Fin 8) (k : Stream), s.st.k[b] = some k ∧ k.reg = r) →
    (∀ o, Claim.elementWise s i = some o → o.dst = some r → s.st.ctl.vei.toNat < s.st.ctl.vl →
      exec i s = .next ((Claim.committed s (o.entry s)).takeTrap { code := 10, val := BitVec.ofNat 64 r.val, elem := s.st.ctl.vei.toNat }
        (Claim.trapped s (o.entry s) (none, none)))) ∧
    (∀ o, Claim.memVec s i = some o → o.dst = some r → s.st.ctl.vei.toNat < s.st.ctl.vl → (∀ r' ∈ o.regs.tail, ∀ (b : Fin 8) k,
        s.st.k[b] = some k → k.reg ≠ r') →
      exec i s = .next ((Claim.committed s (Claim.entryOf s o.opA 0)).takeTrap
        { code := 10, val := BitVec.ofNat 64 r.val, elem := s.st.ctl.vei.toNat } (Claim.trapped s (Claim.entryOf s o.opA 0) (Claim.ends s o.addr)))) ∧
    (∀ o, Claim.whole s i = some o → s.st.ctl.vl ≠ 0 → (∃ p q, o.plain = p ++ r :: q ∧ Claim.notBound s p) →
      exec i s = .next (((Claim.committed s (o.entry s)).mapCtl fun c => { c with vei := 0 }).takeTrap
        { code := 10, val := BitVec.ofNat 64 r.val, elem := 0 }
        (.entry { o.entry s with again := true, note := some { pop := (Claim.actives s).length, first := none, last := none } })))

/-- R125 to R128, R190: the stream slots, an operand that reads from one, and the registers that none may be bound to. -/
def Obligations.Streams : Prop := Sys2Proof.Claim.StreamSlots ∧ Sys2Proof.Claim.StreamSources ∧ Sys2Proof.Claim.StreamClashes

namespace Sys2Proof.Claim

/-! ### The matrix array (R43, R44, R208–R230) -/

/-- The strand's slot owns the array, and the tile when one is named (R210). -/
def ownsArray (s : State) (t : Option (Fin 4)) : Prop :=
  s.myCore.owner = s.st.slot ∧ ∀ x, t = some x → ownsTile s x
where ownsTile (s : State) (x : Fin 4) : Prop :=
  match s.myCore.div with
  | 0 => s.st.slot = 0
  | 1 => x.val % 2 = s.st.slot
  | _ => x.val = s.st.slot

/-- The state in which a matrix instruction works: an exchange that an earlier mx.swap asked for has taken effect (R217). -/
def mxBegin (s : State) (n : VEntry) : State := (freshWh s n).settleSwap s.st.core
/-- A tile with kind and no values: as after mx.zero (R224). -/
def zeroed (u : State) (x : Fin 4) (kind : Nat) : State :=
  let c := u.st.core
  let z : Tile := { kind, rho := 0, rowGrade := .replicate 64 (match kind with | 0 => 24 | 1 => 0xFF | _ => 53)
                    rmax := .replicate 64 0xFF800000, dirty := true }
  { u with
    onchip := Memory.wipe u.onchip (c * 2 ^ 24 + 2 ^ 22 + x.val * 16384) 12288
    cores := SMap.put u.cores c { u.coreOf c with tiles := (u.coreOf c).tiles.set x z } }
/-- Slots in use under the division of the core. -/
def slotCount (s : State) : Nat := match s.myCore.div with | 0 => 1 | 1 => 2 | _ => 4

/-- A matrix instruction that reaches no memory: registers, operands, the tile it names, when it executes, and its result. -/
structure MxOp where
  regs : List VReg := []
  opA : Word := 0
  opAGrade : Grade := 0
  tile : Option (Fin 4) := none
  ok : Prop := True
  result : State → State
def mxOp (result : State → State) (tile : Option (Fin 4) := none) (ok : Prop := True) (regs : List VReg := []) (opA : Word := 0)
    (opAGrade : Grade := 0) : Option MxOp := some { result, tile, ok, regs, opA, opAGrade }

/-- Kind that mx.cfg gives a tile. -/
def cfgKind (x : Word) (t : Fin 4) : Nat := x.toNat / 4 ^ t.val % 4
/-- The elements mx.wr writes: offset and element. -/
def wrList (s : State) (a : VReg) (b : GReg) : List (Nat × Elem) := (actives s).map fun e => ((s.g b).toNat + e, s.v a e)
/-- The least grade of the elements written to a row, with the row's own unless all of the row was written (R166). -/
def rowGradeOf (kind old : Nat) (l : List Elem) : Nat :=
  match kind with
  | 1 => old
  | 2 => (l.map fun x => gradeOfValue .f64 x.grade 0).foldl min (if l.length < 16 then old else 53)
  | _ => ((l.map fun x => [gradeOfValue .f32 x.grade 0, gradeOfValue .f32 x.grade 1]).flatten).foldl min (if l.length < 24 then old else 24)
/-- The row that a tile offset lies in, when a value stands there (R223). -/
def rowOf (kind o : Nat) : Option Nat := match tileAt kind o with | .vals r _ _ => some r | _ => none
/-- Values of a row of an FP32 tile; the skip test of R227 on a row: its maximum lies below RMAX less the margin. -/
def rowVals (u : State) (x : Fin 4) (i : Nat) : List Nat := (List.range 48).map fun col => u.acc u.st.core x i col
def rowPasses (u : State) (x : Fin 4) (margin : Fv) (i : Nat) : Bool :=
  match rowMax (rowVals u x i) with
  | none => false
  | some b => belowBy (unpack .f32 b) (unpack .f32 ((u.coreOf u.st.core).tiles[x].rmax[row64 i]).toNat) margin
def rowRmax (u : State) (x : Fin 4) (i : Nat) : BitVec 32 :=
  let old := (u.coreOf u.st.core).tiles[x].rmax[row64 i]
  match rowMax (rowVals u x i) with
  | none => old
  | some b => BitVec.ofNat 32 (fpSelect .f32 false old.toNat b 24 24).1

/-- What such an instruction does. -/
def mx (s : State) : Instr → Option MxOp
  | .mxSwap => mxOp (ok := s.myCore.reserved = none) fun u => u.mapCore s.st.core fun k => { k with swapDue := true }
  | .mxZero x => mxOp (tile := some x) fun u => zeroed u x (s.myCore.tiles[x]).kind
  | .mxRd d x b => mxOp (tile := some x) (regs := [d]) (opA := s.g b) fun u =>
      putEls d ((actives s).map fun e => (e, u.tileRead s.st.core x ((s.g b).toNat + e))) u
  | .mxWr x a b => mxOp (tile := some x) (regs := [a]) (opA := s.g b) fun u =>
      let l := wrList s a b
      let kind := (s.myCore.tiles[x]).kind
      let inRow := fun r => (l.filter fun y => rowOf kind y.1 == some r).map fun y => y.2
      (l.foldl (fun u y => u.tileWrite s.st.core x y.1 y.2) u).mapTile s.st.core x fun k => { k with
        dirty := true
        rowGrade := (List.range (if kind = 2 then 16 else 64)).foldl (fun g r =>
          if inRow r = [] then g else g.set (row64 r) (rowGradeOf kind g[row64 r] (inRow r))) k.rowGrade }
  | .mxCfg a => mxOp (opA := s.g a) (ok := ∀ x, ownsArray.ownsTile s x → cfgKind (s.g a) x ≠ 3) fun u =>
      ([0, 1, 2, 3] : List (Fin 4)).foldl (fun u x =>
        if tileOwned s.myCore.div s.st.slot x.val ∧ (s.myCore.tiles[x]).kind ≠ cfgKind (s.g a) x then zeroed u x (cfgKind (s.g a) x) else u) u
  | .mxSkip x a => mxOp (tile := some x) (ok := (s.myCore.tiles[x]).kind = 0) (opA := (s.f a).val) (opAGrade := (s.f a).grade) fun u =>
      let margin := unpack .f32 ((s.f a).val.toNat % 2 ^ 32)
      let finite := match margin with | .fin .. => true | _ => false
      let rmax := Vector.ofFn fun (i : Fin 64) => rowRmax u x i.val
      let pass := (List.range 64).all (rowPasses u x margin)
      (u.mapTile s.st.core x fun k => { k with rmax, dirty := true }).mapCore s.st.core fun k => { k with skf := finite && pass }
  | .mxGrant a => mxOp (opA := s.g a) (ok := (s.g a).toNat < slotCount s) fun u =>
      u.mapCore s.st.core fun k => { k with owner := (s.g a).toNat, granted := true }
  | .mxRet => mxOp fun u => u.mapCore s.st.core fun k => { k with owner := 0, granted := false }
  | _ => none

/-- Rows and columns of a step format (Table 11-1). -/
def stepRows : MxF → Nat | .fp64 => 16 | _ => 64
/-- Tile kind a format needs; a step format runs on a plane of its own format, an FP8 one on either FP8 format (R210). -/
def fits (s : State) (x : Fin 4) (f : MxF) : Prop :=
  s.myCore.active.valid = true ∧ (s.myCore.tiles[x]).kind = (match f with | .int8 => 1 | .fp64 => 2 | _ => 0) ∧
  (f = mxOfCode s.myCore.active.fmt ∨ (f = .e4m3 ∨ f = .e5m2) ∧ (mxOfCode s.myCore.active.fmt = .e4m3 ∨ mxOfCode s.myCore.active.fmt = .e5m2))
/-- The activation rows of a step: element q of row r is stream element position + 6 N r + q. -/
def fetchRows (b : Fin 8) (k : Stream) (rows width : Nat) : M (List (List Elem)) :=
  (List.range rows).mapM fun r => (List.range width).mapM fun q =>
    streamElem b { k with pos := k.pos + r * width } (k.pos + r * width + q) width 0
/-- A broadcast stream's group of each row has been asked for (R128). -/
def rowsAsked (u : State) (k : Stream) (rows width : Nat) : State :=
  (List.range rows).foldl (fun u r => u.bcastAsk { k with pos := k.pos + r * width } width) u
def moved (u : State) (b : Fin 8) (k : Stream) (n : Nat) : State :=
  { u with st := { u.st with k := u.st.k.set b (some { k with pos := k.pos + n }) } }

end Sys2Proof.Claim

/-- R217, R222 to R229 with R166: the matrix instructions that reach no memory, by the owner of the array and of the tile, complete with
the effect of their rule on planes, tiles, row grades, RMAX, SKF, ownership or vd. -/
def Obligations.MatrixTiles : Prop :=
  ∀ (i : Instr) (s : State) (o : Claim.MxOp), Claim.mx s i = some o → Claim.vecReady s → Claim.notBound s o.regs → s.st.ctl.vl ≠ 0 →
    Claim.ownsArray s o.tile → o.ok →
    exec i s = .next (Claim.completed s (o.result (Claim.mxBegin s (Claim.entryOf s o.opA o.opAGrade))) (none, none))

/-- R219, R220, R221, R228: a step by the owner on a fitting tile and a valid active plane takes 6 N elements for each row from the bound
activation stream, adds their products with the plane to the tile (mx.stepz to zero), and moves the stream on; mx.steps
with SKF 1 only moves the stream on. -/
def Sys2Proof.Claim.StepRuns : Prop :=
  ∀ (s u : State) (x : Fin 4) (a : VReg) (r : FReg) (f : MxF) (b : Fin 8) (k : Stream) (rows : List (List Elem)) (op : Nat) (i : Instr),
    (op = 3 ∧ i = .mxStep x a r f ∨ op = 4 ∧ i = .mxStepz x a r f ∨ op = 5 ∧ i = .mxSteps x a r f) →
    Claim.vecReady s → s.st.ctl.vl ≠ 0 → Claim.ownsArray s (some x) → Claim.fits (s.settleSwap s.st.core) x f →
    s.st.k[b] = some k → k.reg = a → (∀ (j : Fin 8) k', s.st.k[j] = some k' → k'.reg = a → j = b) → (k.ty = .int .l ∨ Claim.isFp k.ty = true) →
    let n := if f = .sb4 then Claim.entryOf s (s.f r).val (s.f r).grade else Claim.entryOf s 0 0
    let w := 6 * (s.settleSwap s.st.core).myCore.active.n
    let h := Claim.stepRows f
    (¬ (op = 5 ∧ s.myCore.skf = true) → Claim.ran (Claim.fetchRows b k h w) (Claim.mxBegin s n) = some (rows, u) →
      ∃ t, Claim.counted ((Claim.moved (Claim.rowsAsked (u.tileStep s.st.core x f (op == 4)
          (if f = .sb4 then unpack .bf16 ((s.f r).val.toNat % 2 ^ 16) else .fin false 1 0) rows) k h w) b k (h * w)).dropAnswers 1) t ∧
        exec i s = .next (Claim.completed s t (none, none))) ∧
    (op = 5 → s.myCore.skf = true → k.pos + h * w ≤ k.len →
      exec i s = .next (Claim.completed s (Claim.moved (Claim.mxBegin s n) b k (h * w)) (none, none)))

/-- R220 for INT8: a step makes each value of its rows the sum of the products of the signed bytes of the activation row and of its
column of the plane, added to the old value unless mx.stepz clears it, wrapped to 32 bits; the values of other tiles stay. -/
def Sys2Proof.Claim.Int8Step : Prop :=
  ∀ (s : State) (c : Nat) (x : Fin 4) (zero : Bool) (ba : Fv) (rows : List (List Elem)) (i col : Nat), s.onchip.wf = true →
    ((s.coreOf c).tiles[x]).kind = 1 → rows.length = 64 → i < 64 → col < 48 →
    let t := s.tileStep c x .int8 zero ba rows
    let byte := fun (w : Word) (j : Nat) => (BitVec.ofNat 8 (w.toNat / 2 ^ (8 * j))).toInt
    t.acc c x i col = (BitVec.ofInt 32 ((if zero then 0 else (s.acc c x i col : Int)) +
      (((rows[i]?).getD []).zipIdx.map fun y =>
        ((List.range 8).map fun j => byte y.1.val j * byte (s.weight c col y.2) j).sum).sum)).toNat ∧
    ∀ y, y ≠ x → t.acc c y i col = s.acc c y i col

namespace Sys2Proof.Claim

/-! ### The sums of a step on an FP tile (R165, R220) -/

/-- The exact product of two values, or the NaN or infinity it is. -/
def product (a w : Fv) : Term :=
  if isNan a || isNan w then .nan 3
  else match a, w with
    | .fin s m e, .fin s' m' e' => .fin (s != s') (m * m') (e + e')
    | _, _ => if isZero a || isZero w then .nan 2 else .inf (fvSign a != fvSign w)
/-- x_a · s_a · Ba · x_w · s_w · S_w of element i of two slots: zero where an element or a block scale is. -/
def sb4Product (xa xw : Word) (i : Nat) (ba sw : Fv) : Term :=
  let code := fun (w : Word) => w.toNat % 256
  let value := fun (w : Word) => unpack .e2m1 (w.toNat / 2 ^ (8 + 4 * i) % 16)
  if code xa = 255 ∨ code xw = 255 ∨ isNan ba = true ∨ isNan sw = true then .nan 4
  else match value xa, value xw, unpack .e3m5 (code xa), unpack .e3m5 (code xw) with
    | .fin s x e, .fin s' x' e', .fin _ a ea, .fin _ w ew =>
      if x * x' * a * w = 0 then .fin false 0 0
      else match product ba sw with
        | .fin t b eb => .fin ((s != s') != t) (x * x' * a * w * b) (e + e' + ea + ew + eb)
        | .inf t => .inf ((s != s') != t)
        | n => n
    | _, _, _, _ => .nan 4
/-- The terms of an accumulator element, each with the grade of its activation value: one for each value of each element of the
activation row, against the same place of the column of weights. -/
def stepTerms (s : State) (c : Nat) (f : MxF) (ba : Fv) (col : Nat) (row : List Elem) : List (Term × Nat) :=
  let p := if f = .fp64 then 53 else 24
  (row.zipIdx.map fun (x, q) =>
    let w := (s.weight c col q).toNat
    match mxFmt? f, mxFmt? (mxOfCode (s.coreOf c).active.fmt) with
    | some fa, some fw => (List.range (fmtVals fa)).map fun j =>
        (product (unpack fa (x.val.toNat / 2 ^ (fmtBits fa * j) % 2 ^ fmtBits fa)) (unpack fw (w / 2 ^ (fmtBits fw * j) % 2 ^ fmtBits fw)),
         match f with
         | .bf16 => if x.grade = 0xFFFF then p else min p (x.grade.toNat / 2 ^ (4 * j) % 16)
         | .fp32 => if x.grade = 0xFFFF then p else min p (x.grade.toNat / 2 ^ (8 * j) % 32)
         | .fp64 => if x.grade = 0xFFFF then p else min p (x.grade.toNat % 64)
         | _ => p)
    | _, _ => (List.range 14).map fun i =>
        (sb4Product x.val (BitVec.ofNat 64 w) i ba (unpack .bf16 ((s.coreOf c).active.sw[row64 (q / 6)]).toNat), p)).flatten
/-- Value and grade of an accumulator element after the step, from the old ones (none for mx.stepz) and the terms: special values in
their order; else the terms truncated to the window below the largest exponent, their exact sum rounded once. -/
def stepResult (fm : Fmt) (old : Option (Nat × Nat)) (ts : List (Term × Nat)) : Nat × Nat :=
  let o := (old.map fun x => unpack fm x.1).getD (.fin false 0 0)
  let nan := fun n => ts.any fun t => t.1 == .nan n
  let inf := fun sg => ts.any (fun t => t.1 == .inf sg) || o == .inf sg
  if isNan o then ((old.map (·.1)).getD 0, 0)
  else if nan 4 then (nanC fm false 4, 0)
  else if nan 3 then (nanC fm false 3, 0)
  else if nan 2 then (nanC fm false 2, 0)
  else if inf true && inf false then (nanC fm false 1, 0)
  else if inf true || inf false then (packInf fm (inf true), 0)
  else
    let fins : List (Bool × Nat × Int × Nat) := ts.map fun t => match t.1 with
      | .fin s m e => (s, m, e, t.2)
      | _ => (false, 0, 0, 0)
    let mine : Bool × Nat × Int × Nat := match o with
      | .fin s m e => (s, m, e, (old.map (·.2)).getD 0)
      | _ => (false, 0, 0, 0)
    let live : List (Bool × Nat × Int × Nat) := (fins ++ [mine]).filter fun t => t.2.1 != 0
    match live.map fun t => t.2.2.1 + (Nat.log2 t.2.1 : Int) with
    | [] => (match o with | .fin true .. => signBit fm true | _ => 0, fmtP fm)
    | e :: es =>
      let top := es.foldl max e
      let q := top - (if fm = .f64 then 112 else 40)
      let sum := (live.map fun t =>
        let x : Int := if t.1 then -(t.2.1 : Int) else t.2.1
        if q ≤ t.2.2.1 then x * 2 ^ (t.2.2.1 - q).toNat else x.tdiv (2 ^ (q - t.2.2.1).toNat)).sum
      let grade := (live.map fun t => t.2.2.2).foldl min (fmtP fm)
      let r := roundTo fm .rne (decide (sum < 0)) sum.natAbs q false
      if sum = 0 then (0, 0)
      else if r.ovf then (packInf fm r.s, 0)
      else (packFin fm r.s r.m r.e, if r.m = 0 then 0 else (max 0 (min (r.e + (Nat.log2 r.m : Int) - (top - grade)) (fmtP fm))).toNat)

end Sys2Proof.Claim

/-- R220, R165 in every FP format, SB4 among them: a step gives each element of its rows the value and grade of `stepResult` over its
terms, and each row the least grade of the elements written, with the old row grade where .fp32 leaves columns as they were; ρ moves on,
and no other tile changes. -/
def Sys2Proof.Claim.FpStep : Prop :=
  ∀ (s : State) (c : Nat) (x : Fin 4) (f : MxF) (zero : Bool) (ba : Fv) (rows : List (List Elem)) (i col : Nat), s.onchip.wf = true →
    f ≠ .int8 → ((s.coreOf c).tiles[x]).kind = (if f = .fp64 then 2 else 0) → mxPairs f (mxOfCode (s.coreOf c).active.fmt) = true →
    rows.length = Claim.stepRows f → i < Claim.stepRows f →
    let cols := match f with | .fp32 => 24 | .fp64 => 16 | _ => 48
    let fm : Fmt := if f = .fp64 then .f64 else .f32
    let t := s.tileStep c x f zero ba rows
    let old := ((s.coreOf c).tiles[x]).rowGrade[row64 i]
    let out := fun col => Claim.stepResult fm (if zero then none else some (s.acc c x i col, old))
      (Claim.stepTerms s c f ba col ((rows[i]?).getD []))
    (col < cols → t.acc c x i col = (out col).1 % 2 ^ fmtBits fm) ∧
    ((t.coreOf c).tiles[x]).rowGrade[row64 i] = ((List.range cols).map fun j => (out j).2).foldl min (if f = .fp32 then old else fmtP fm) ∧
    ((t.coreOf c).tiles[x]).rho = (((s.coreOf c).tiles[x]).rho + 1) % Claim.stepRows f ∧
    ∀ y, y ≠ x → (col < 48 → t.acc c y i col = s.acc c y i col) ∧ (t.coreOf c).tiles[y] = (s.coreOf c).tiles[y]

/-- R165, R219 to R221, R228: the steps of the matrix array, and what they compute in every format. -/
def Obligations.MatrixSteps : Prop := Sys2Proof.Claim.StepRuns ∧ Sys2Proof.Claim.Int8Step ∧ Sys2Proof.Claim.FpStep

/-- R215, R216: mx.ldw and mx.ldwg by the owner load the shadow plane, 48 bytes for each row of each column, and tag it valid with
format, N and weight scales. -/
def Obligations.MatrixLoads : Prop :=
  ∀ (s u : State) (a b : GReg) (v : VReg) (f : MxF) (xs : List Nat), Claim.vecReady s → s.st.ctl.vl ≠ 0 → s.myCore.reserved = none →
    Claim.ownsArray s none →
    let cols := match f with | .fp32 => 24 | .fp64 => 16 | _ => 48
    let put := fun (tag : PlaneTag) (zero : Nat → Bool) (u : State) =>
      u.putShadow s.st.core ((List.range (cols * 64)).map fun j => (j / 64 * 3072 + j % 64 * 48, if zero (j % 64) then 0 else (xs[j]?).getD 0)) tag
    (let step : Word := Claim.wrap (BitVec.ofNat 32 (s.g b).toNat).toInt;
      Claim.ran ((List.range (cols * 64)).mapM fun j =>
        loadChunk (Claim.wrap ((s.g a).toNat + (j / 64 : Nat) * step.toInt + (48 * (j % 64) : Nat)))) (Claim.mxBegin s (Claim.entryOf s (s.g a) 0 (s.g b))) = some (xs, u) →
      ∃ t, Claim.counted (put ⟨true, f.code, 64, .replicate 64 (if f = .sb4 then BitVec.ofNat 16 ((s.g b).toNat / 2 ^ 32) else 0x3F80)⟩ (fun _ => false) (u.dropAnswers 1)) t ∧
        exec (.mxLdw a b f) s = .next (Claim.completed s t (Claim.ends s (some fun e => Claim.wrap ((s.g a).toNat + 48 * e : Nat))))) ∧
    (let n := min s.st.ctl.vl 64
      let row := fun r => Claim.active s r && decide (r < n)
      let idx := fun r => (s.v v r).val.toNat;
      Claim.notBound s [v] →
      Claim.ran ((List.range (cols * 64)).mapM fun j =>
        if row (j % 64) then loadChunk (Claim.wrap ((s.g a).toNat + (j / 64 : Nat) * s.st.ctl.vstr.toInt + (48 * (idx (j % 64) % 2 ^ 32) : Nat)))
        else pure 0) (Claim.mxBegin s (Claim.entryOf s (s.g a) 0)) = some (xs, u) →
      ∃ t, Claim.counted (put ⟨true, f.code, n, Vector.ofFn fun (r : Fin 64) =>
          if row r.val && f == .sb4 then BitVec.ofNat 16 (idx r.val / 2 ^ 32) else 0x3F80⟩ (fun r => !row r) (u.dropAnswers 1)) t ∧
        exec (.mxLdwg a v f) s = .next (Claim.completed s t (Claim.ends s (some fun e =>
          Claim.wrap ((s.g a).toNat + 48 * (idx e % 2 ^ 32) : Nat)))))

/-- R226: mx.st by the owner checks every row it is to store, then stores the active rows of the tile at ga + i × gb, doubleword by
doubleword, with the row's grade in the sidecars. -/
def Obligations.MatrixStores : Prop :=
  ∀ (s u v : State) (x : Fin 4) (a b : GReg), Claim.vecReady s → s.st.ctl.vl ≠ 0 → Claim.ownsArray s (some x) →
    let k := s.myCore.tiles[x]
    let height := if k.kind = 2 then 16 else 64
    let units := match k.kind with | 2 => 16 | _ => 24
    let rows := (Claim.actives s).filter fun i => decide (i < height)
    let at_ := fun i => (Claim.wrap ((s.g a).toNat + i * (s.g b).toInt)).toNat
    let grade := fun i => k.rowGrade[row64 i]
    let side : Nat → Side := fun i => match k.kind with
      | 1 => .int
      | 2 => .word (BitVec.ofNat 16 (grade i))
      | _ => .word (BitVec.ofNat 16 (grade i % 256 + grade i % 256 * 256))
    let start := Claim.mxBegin s (Claim.entryOf s (s.g a) 0 (s.g b))
    (∀ i ∈ rows, at_ i % 8 = 0 ∧ ¬ (at_ i < 0x7FFFFFF0000000 ∧ 0x7FFFFFF0000000 < at_ i + 8 * units)) →
    Claim.ran (do for i in rows do for j in List.range units do
      let _ ← placeM .store (.plain false) (at_ i + 8 * j) 8 0) start = some ((), u) →
    Claim.ran (do for i in rows do for j in List.range units do
      storeM true (.plain false) (side i) (at_ i + 8 * j) 8 (start.tileRead s.st.core x (i * units + j)).val.toNat 0
      modify fun u => u.dropAnswers 1) u = some ((), v) →
    v.st.trains = [] →
    ∃ t, Claim.counted v t ∧ exec (.mxSt x a b) s = .next (Claim.completed s t
      ((rows.head?.map fun i => BitVec.ofNat 64 (at_ i)), (rows.getLast?.map fun i => BitVec.ofNat 64 (at_ i))))

namespace Sys2Proof.Claim

/-! ### Atomics, fences and ordered accesses (R259–R281) -/

/-- The level is below the depth of the roster (R272, R356). -/
def levelOk (s : State) (l : Level) : Prop := l.val < s.depth
/-- Every earlier access has been performed: no queue entry and no train is outstanding (R273). -/
def drainedAll (s : State) : Prop := s.st.vq = [] ∧ s.st.remote = []
/-- An acquire of package or domain scope takes every record appended to the die's log into view (R270); that it is every one, whatever
releases the acquire meets, is the model's choice (assumption log 16). -/
def acquired (s : State) (l : Level) : State :=
  if 4 ≤ nth s.phys l.val 0 then { s with st := { s.st with viewTail := (s.dies[s.myDie]).tail } } else s

/-- A scalar atomic: operation, size, destination, address, operand, level. -/
structure Amo where
  op : AmoOp
  n : Nat
  d : GReg
  a : GReg
  b : GReg
  l : Level
def amo : Instr → Option Amo
  | .amoAddW d a b l => some ⟨.add, 4, d, a, b, l⟩
  | .amoAddL d a b l => some ⟨.add, 8, d, a, b, l⟩
  | .amoMinL d a b l => some ⟨.min, 8, d, a, b, l⟩
  | .amoMaxL d a b l => some ⟨.max, 8, d, a, b, l⟩
  | .amoMinuL d a b l => some ⟨.minu, 8, d, a, b, l⟩
  | .amoMaxuL d a b l => some ⟨.maxu, 8, d, a, b, l⟩
  | .amoAndL d a b l => some ⟨.and, 8, d, a, b, l⟩
  | .amoOrL d a b l => some ⟨.or, 8, d, a, b, l⟩
  | .amoXorL d a b l => some ⟨.xor, 8, d, a, b, l⟩
  | .amoSwapW d a b l => some ⟨.swap, 4, d, a, b, l⟩
  | .amoSwapL d a b l => some ⟨.swap, 8, d, a, b, l⟩
  | .amoCasW d a b l => some ⟨.cas, 4, d, a, b, l⟩
  | .amoCasL d a b l => some ⟨.cas, 8, d, a, b, l⟩
  | .amoFaddF32 d a b l => some ⟨.fadd, 4, d, a, b, l⟩
  | .amoFaddF64 d a b l => some ⟨.fadd, 8, d, a, b, l⟩
  | _ => none

/-- The new value of an integer atomic of n bytes from old value, operand and compare value; none for a cas that fails
(Table 15-1). -/
def amoNew (op : AmoOp) (n old x cmp : Nat) : Option Nat :=
  let s := fun (y : Nat) => (BitVec.ofNat (8 * n) y).toInt
  match op with
  | .add => some ((old + x) % 2 ^ (8 * n))
  | .min => some (if s x < s old then x else old)
  | .max => some (if s old < s x then x else old)
  | .minu => some (min old x)
  | .maxu => some (max old x)
  | .and => some (old &&& x)
  | .or => some (old ||| x)
  | .xor => some (old ^^^ x)
  | .swap => some x
  | .cas => if old = cmp then some x else none
  | .fadd => none
/-- Integer data written to a place: bytes, and 0xFFFF in every touched unit of a GT page. -/
def putInt (key n : Nat) (sc : Option Nat) (x : Nat) (m : Memory) : Memory :=
  let m := Memory.writeN m key n x
  match sc with
  | some k => Memory.writeN m (intSide key n k).1 (intSide key n k).2.1 (intSide key n k).2.2
  | none => m
/-- The lines of a place, and of its sidecar, can be corrected. -/
def linesOk (u : State) (key n : Nat) (sc : Option Nat) : Prop :=
  u.lineOk key n = true ∧ ∀ k, sc = some k → u.lineOk k (intSide key n k).2.1 = true
/-- Format and grades of an FP atomic: the memory value's grade by its sidecar word (R278). -/
def amoF (n : Nat) : FpF := if n = 4 then .f32 else .f64
def amoOldGrade (u : State) (n va : Nat) (sc : Option Nat) : Nat :=
  match sc with
  | none => vPrec (amoF n)
  | some k => gradeOfValue (amoF n) (BitVec.ofNat 16 (Memory.readN u.mem k 2)) (if n = 4 then va / 4 % 2 else 0)

/-- A vector atomic: operation, size, registers, level. -/
structure Vamo where
  op : AmoOp
  n : Nat
  d : VReg
  a : GReg
  b : VReg
  l : Level
def vamo : Instr → Option Vamo
  | .vamoAddW d a b l => some ⟨.add, 4, d, a, b, l⟩
  | .vamoAddL d a b l => some ⟨.add, 8, d, a, b, l⟩
  | .vamoMinL d a b l => some ⟨.min, 8, d, a, b, l⟩
  | .vamoMaxL d a b l => some ⟨.max, 8, d, a, b, l⟩
  | .vamoMinuL d a b l => some ⟨.minu, 8, d, a, b, l⟩
  | .vamoMaxuL d a b l => some ⟨.maxu, 8, d, a, b, l⟩
  | .vamoAndL d a b l => some ⟨.and, 8, d, a, b, l⟩
  | .vamoOrL d a b l => some ⟨.or, 8, d, a, b, l⟩
  | .vamoXorL d a b l => some ⟨.xor, 8, d, a, b, l⟩
  | .vamoSwapW d a b l => some ⟨.swap, 4, d, a, b, l⟩
  | .vamoSwapL d a b l => some ⟨.swap, 8, d, a, b, l⟩
  | .vamoFaddF32 d a b l => some ⟨.fadd, 4, d, a, b, l⟩
  | .vamoFaddF64 d a b l => some ⟨.fadd, 8, d, a, b, l⟩
  | _ => none

/-- An element-wise memory instruction with a level: what performs an element, and whether it acquires; a load or a store leaves
FXR as it is, an atomic does not (assumption log 29). -/
structure OrdOp where
  regs : List VReg
  opA : Word
  l : Level
  acq : Bool
  addr : Nat → Word
  perf : Nat → State → Option State
  keepFxr : Bool := true
/-- The state in which it starts. -/
def OrdOp.begin (s : State) (o : OrdOp) : State :=
  if o.keepFxr then freshMem s (entryOf s o.opA 0) else freshEl s (entryOf s o.opA 0)

/-- One element of a vector atomic: the operand is element e of vd, which receives the old value, an FP one with its grade
(R278, R279). -/
def vamoEl (s : State) (k : Vamo) (e : Nat) (u : State) : Option State :=
  let x := s.v k.d e
  let n := entryOf s (s.g k.a) 0
  let f := amoF k.n
  (ran (atomicAt
    { op := k.op, n := k.n, x := x.val.toNat % 2 ^ (8 * k.n), gx := gradeOfValue f x.grade 0, cmp := 0
      ctl := amoCtl s.st.ctl.fcr s.st.ctl.gth.toNat false
      check := fun r => fpTraps n e r.flags (vPrec f) [r.grade] (BitVec.ofNat 16 r.grade) } (indexAt s k.a k.b e).toNat e) u).map fun r =>
    r.2.setV k.d e (match k.op with
      | .fadd => ⟨BitVec.ofNat 64 r.1.1, BitVec.ofNat 16 r.1.2⟩
      | _ => intEl (8 * k.n) r.1.1)

/-- What the ordered and atomic vector instructions do, element by element. -/
def ordVec (s : State) (i : Instr) : Option OrdOp :=
  match i with
  | .vldAcqL d a l => some { regs := [d], opA := s.g a, l, acq := true, addr := unitAt s a 8, perf := fun e u =>
      (ran (loadEl (fun _ => .natural false) (.int .l) (unitAt s a 8 e).toNat e) u).map fun r => r.2.setV d e r.1 }
  | .vldAcqF64 d a l => some { regs := [d], opA := s.g a, l, acq := true, addr := unitAt s a 8, perf := fun e u =>
      (ran (loadEl (fun _ => .natural false) (.fp .f64) (unitAt s a 8 e).toNat e) u).map fun r => r.2.setV d e r.1 }
  | .vstRelL r a l => some { regs := [r], opA := s.g a, l, acq := false, addr := unitAt s a 8, perf := fun e u =>
      (ran (storeEl (fun _ => .natural false) (.int .l) (unitAt s a 8 e).toNat (s.v r e) e) u).map fun x => x.2 }
  | .vstRelF64 r a l => some { regs := [r], opA := s.g a, l, acq := false, addr := unitAt s a 8, perf := fun e u =>
      (ran (storeEl (fun _ => .natural false) (.fp .f64) (unitAt s a 8 e).toNat (s.v r e) e) u).map fun x => x.2 }
  | _ => (vamo i).map fun k => { regs := [k.d, k.b], opA := s.g k.a, l := k.l, acq := true, addr := indexAt s k.a k.b
                                 perf := vamoEl s k, keepFxr := false }

end Sys2Proof.Claim

/-- R266, R272, R277, R278 with Table 15-1: a scalar atomic on local memory, its level in the roster and every earlier access performed,
reads its aligned location and writes the new value there in one access: gd gets the old value, a failed cas writes nothing, a GT
page's sidecar takes 0xFFFF, or the grade of an FP sum; an FP sum that traps stores nothing and is not this case; the acquire
of its level follows (what it takes into view: assumption log 16). -/
def Obligations.ScalarAtomics : Prop :=
  ∀ (i : Instr) (s u : State) (k : Claim.Amo) (key kind : Nat) (sc : Option Nat), Claim.amo i = some k →
    Claim.levelOk s k.l → Claim.drainedAll s → Claim.inTurn s [{ loc := .mem key kind sc, at_ := 0, len := k.n }] →
    placeM .rmw (.natural false) (s.g k.a).toNat k.n 0 s.resuming = .ok [{ loc := .mem key kind sc, at_ := 0, len := k.n }] u → Claim.linesOk u key k.n sc →
    let old := Memory.readN u.mem key k.n
    let x := (s.g k.b).toNat % 2 ^ (8 * k.n)
    (k.op ≠ .fadd →
      ∃ ls, exec i s = .next ((Claim.acquired (({ u with
          st := { u.st with lines := ls }
          mem := match Claim.amoNew k.op k.n old x ((s.g k.d).toNat % 2 ^ (8 * k.n)) with
            | some y => Claim.putInt key k.n sc y u.mem
            | none => u.mem } : State).setG k.d (Claim.wrap (BitVec.ofNat (8 * k.n) old).toInt)) k.l).retire (Claim.next s))) ∧
    (k.op = .fadd →
      let r := fpArith (fpOf (Claim.amoF k.n)) (rmOfCode (s.st.ctl.fcr.toNat % 4)) false .add old x 0
        (Claim.amoOldGrade u k.n (s.g k.a).toNat sc) (Claim.vPrec (Claim.amoF k.n)) 0
      Claim.fpTrap s ⟨[], [], r.flags, some (Claim.vPrec (Claim.amoF k.n), r.grade), id⟩ = none →
      ∃ ls, exec i s = .next ((Claim.acquired ((Claim.raised ({ u with
          st := { u.st with lines := ls }
          mem := match sc with
            | some q => if k.n = 4 then Memory.writeN (Memory.writeN u.mem key 4 r.pat) (q + key / 4 % 2) 1 r.grade
                else Memory.writeN (Memory.writeN u.mem key 8 r.pat) q 2 r.grade
            | none => Memory.writeN u.mem key k.n r.pat } : State) r.flags).setG k.d (BitVec.ofNat 64 old)) k.l).retire (Claim.next s)))

/-- R272, R276, R279 with R73: the vector acquire loads, release stores and atomics, their level in the roster, perform their active
elements from VEI upward, lowest first; a load or atomic then acquires at its level (what it takes into view: assumption log 16; FXR of
a load or a store: assumption log 29). -/
def Obligations.OrderedVectors : Prop :=
  ∀ (i : Instr) (s u : State) (o : Claim.OrdOp), Claim.ordVec s i = some o → Claim.vecReady s → Claim.notBound s o.regs →
    Claim.levelOk s o.l → s.st.ctl.vl ≠ 0 →
    Claim.perform o.perf (Claim.todo s) (o.begin s) = some u → u.st.trains = [] →
    ∃ t, Claim.counted (if o.acq then Claim.acquired u o.l else u) t ∧ exec i s = .next (Claim.completed s t (Claim.ends s (some o.addr)))

/-- R272 to R275, R280, R281: the fences and vsync complete when every earlier access has been performed, and write no register; what an acquire takes into view is the model's choice (assumption log 16); an
acquire load reads and a release store writes one aligned access with the effects of ld and st, in their order; tl.acq reads
its die's tail once, waits until every record below it has been applied, and then has those records in view. -/
def Obligations.Ordering : Prop :=
  ∀ (s : State) (l : Level),
    (Claim.levelOk s l → Claim.drainedAll s →
      exec (.fence l) s = .next ((Claim.acquired s.resuming l).retire (Claim.next s)) ∧
      exec (.fenceAcq l) s = .next ((Claim.acquired s.resuming l).retire (Claim.next s)) ∧
      exec (.fenceRel l) s = .next (s.resuming.retire (Claim.next s))) ∧
    (Claim.vecReady s → exec .vsync s = .next (Claim.completed s (Claim.freshWh s (Claim.entryOf s 0 0)) (none, none))) ∧
    (let log := (s.dies[s.myDie]).log
      let tail := s.st.tailRead.getD (s.dies[s.myDie]).tail
      let done := tail ≤ (s.dies[s.myDie]).tail - log.length
      (done → exec .tlAcq s = .next (({ s with st := { s.resuming.st with
        viewTail := max s.st.viewTail tail, tailRead := none } } : State).retire (Claim.next s))) ∧
      (¬ done → exec .tlAcq s = .next (({ s with st := { s.resuming.st with tailRead := some tail } } : State).waiting .tlAcq))) ∧
    (∀ (n : Nat) (i : Instr) (d a : GReg) (p : Part) (u : State), (n = 4 ∧ i = .ldAcqW d a l ∨ n = 8 ∧ i = .ldAcqL d a l) →
      Claim.levelOk s l → Claim.regsFree s [d, a] [] → (∀ e ∈ s.st.vq, ordersLevel e.word = false) → Claim.bytesFree s (s.g a).toNat n →
      s.st.remote = [] → Claim.inTurn s [p] → placeM .load (.natural true) (s.g a).toNat n 0 s.resuming = .ok [p] u → Claim.readable u false p →
      ∃ ls, exec i s = .next ((Claim.acquired (({ u with st := { u.st with lines := ls } } : State).setG d
        (Claim.wrap (BitVec.ofNat (8 * n) (Claim.partBytes u p)).toInt)) l).retire (Claim.next s))) ∧
    (∀ (n : Nat) (i : Instr) (r a : GReg) (ps : List Part) (u : State), (n = 4 ∧ i = .stRelW r a l ∨ n = 8 ∧ i = .stRelL r a l) →
      Claim.levelOk s l → Claim.drainedAll s →
      Claim.inTurn s ps → placeM .store (.natural true) (s.g a).toNat n 0 s.resuming = .ok ps u → (∀ p ∈ ps, Claim.writable u Claim.intSide p) →
      ∃ ls, exec i s = .next (({ ps.foldl (Claim.putPart ((s.g r).toNat % 2 ^ (8 * n)) Claim.intSide) u with
        st := { u.st with lines := ls } } : State).retire (Claim.next s)))

/-- R272, R356: a level at or above the depth of the roster raises LEVEL with the level in TVAL, and no access is made; an element-wise
form raises it at VEI, before any element. -/
def Sys2Proof.Claim.LevelChecked : Prop :=
  ∀ (i : Instr) (s : State) (l : Level), ¬ Claim.levelOk s l →
   (Claim.catches s → Claim.settled s → s.st.vq = [] →
    (i = .fence l ∨ i = .fenceAcq l ∨ i = .fenceRel l ∨ (∃ d a, i = .ldAcqW d a l ∨ i = .ldAcqL d a l) ∨
      (∃ r a, i = .stRelW r a l ∨ i = .stRelL r a l) ∨
      (∃ d, i = .bar d l) ∨ (∃ d a, i = .hq d a l) ∨ ∃ k, Claim.amo i = some k ∧ k.l = l) →
    exec i s = .next (Claim.entered s 8 (Claim.wrap l.val) s.st.pc)) ∧
   (∀ o, Claim.ordVec s i = some o → o.l = l → Claim.vecReady s → Claim.notBound s o.regs → s.st.ctl.vei.toNat < s.st.ctl.vl →
    exec i s = .next ((o.begin s).takeTrap { code := 8, val := Claim.wrap l.val, elem := s.st.ctl.vei.toNat }
      (Claim.trapped s (Claim.entryOf s o.opA 0) (Claim.ends s (some o.addr)))))

/-- R34, R53, R75, R272, R356, R420, R423: the mode, the mask select and the level are checked before an instruction has any effect. -/
def Obligations.ChecksBeforeEffect : Prop := Sys2Proof.Claim.PrivilegeChecked ∧ Sys2Proof.Claim.MaskSelectChecked ∧ Sys2Proof.Claim.LevelChecked

namespace Sys2Proof.Claim

/-! ### Barriers, claims, lanes, waking, houses, replay (R373–R386) -/

/-- The result word of Table 23-2. -/
def barWord (wd newWd : Bool) (arrived episode : Nat) : Word :=
  wrap ((if wd then 2 ^ 63 else 0) + (if newWd then 2 ^ 62 else 0) + arrived % 2 ^ 30 * 2 ^ 32 + episode % 2 ^ 32 : Nat)
/-- The launch with an instance changed. -/
def withInst (s : State) (l : Launch) (h : Nat) (x : Inst) : State := s.setLaunch { l with insts := listSet l.insts h x }

/-- Table 23-4. -/
def houseItem (s : State) (l : Launch) (level h : Nat) (x : Inst) (item : Nat) : Word :=
  match item with
  | 0 => wrap x.number
  | 1 => wrap (((l.houses[x.record]?).map (·.count)).getD 0 : Nat)
  | 2 => wrap (((l.leaves h).takeWhile fun y => y != s.st.sched.inst).length : Nat)
  | 3 => wrap (((l.leaves h).filter fun i => l.statusOf i == .live).length : Nat)
  | 4 => wrap (nth l.phys level 0 : Nat)
  | 5 => wrap (l.phys.length : Nat)
  | 6 => l.arg
  | 7 => wrap (s.handle.toNat * 2 ^ 16 + s.st.sn % 2 ^ 16 : Nat)
  | 8 => wrap x.episode
  | _ => wrap (-1)

/-- The package that launched it. -/
def home (s : State) (l : Launch) : Nat := l.origin.getD s.handle.toNat
/-- What is unfinished of a strand of another package's launch, that package is told (R375). -/
def claimsTold (s t : State) : State :=
  match s.launch? s.st.sched.lid with
  | some l => if l.origin.isSome ∧ s.farPkgs l ≠ [] then { t with
      fabricOut := t.fabricOut ++ [.inst (home s l) (l.lid % 2 ^ 32) s.st.sched.inst .live t.st.claims] } else t
  | none => t
/-- What `claim` grants (R374). -/
def grant (want base lim : Nat) : Nat := if lim ≤ base then 0 else min want (min (lim - base) 128)
/-- The claim table after it (R375): the counter's entry closes, one opens for a grant, and a ninth closes the oldest. -/
def claims (t : List Machine.Claim) (counter : Nat) (base : Word) (n : Nat) : List Machine.Claim :=
  let rest := t.filter fun c => c.counter != counter
  let all := if n = 0 then rest else rest ++ [{ counter, base, grant := n }]
  all.drop (if 8 < all.length then 1 else 0)

/-- The vector queue of every strand seated on the strand's core is empty. -/
def queuesEmpty (s : State) : Prop :=
  ∀ t ∈ s.strands, t.seated = true → (∃ n, t.sched.place = some (s.st.core, n)) → t.vq = []
/-- A strand is seated on the strand's core in slot n or above. -/
def seatedFrom (s : State) (n : Nat) (t : Strand) : Prop :=
  t ∈ s.strands ∧ t.seated = true ∧ ∃ k, t.sched.place = some (s.st.core, k) ∧ n ≤ k
/-- The core with another division. -/
def withCore (s : State) (f : Core → Core) : State := { s with cores := SMap.put s.cores s.st.core (f s.myCore) }

end Sys2Proof.Claim

/-- R377, R378, R262: bar 0 completes at once with the strand's own episode count; above level 0 a strand that has not arrived arrives
once, its earlier accesses performed and a house on other packages told, and waits; one that has arrived waits for its episode, and completes with the result word
and the order of an acquire (what it takes into view: assumption log 16). R383: hq gives the item of Table 23-4. -/
def Obligations.Houses : Prop :=
  ∀ (s : State) (d a : GReg) (l : Level) (la : Launch) (h : Nat) (x : Inst), Claim.levelOk s l → s.houseAt l.val = some (la, h, x) →
    (Claim.regsFree s [d] [] →
      (l = 0 → Claim.drainedAll s → exec (.bar d l) s = .next (((Claim.withInst s.resuming la h { x with episode := x.episode + 1 }).setG d
        (Claim.barWord false false 1 (x.episode + 1))).retire (Claim.next s))) ∧
      (l ≠ 0 → SMap.find s.st.arrivals l.val = none → Claim.drainedAll s →
        exec (.bar d l) s = .next (({ Claim.withInst s.resuming la h { x with arrived := x.arrived ++ [s.mid s.st.sn] } with
          fabricOut := if s.farPkgs la = [] then s.fabricOut
            else s.fabricOut ++ [.arrive (Claim.home s la) (la.lid % 2 ^ 32) h (x.episode + 1) (s.mid s.st.sn)]
          st := { s.resuming.st with arrivals := SMap.put s.st.arrivals l.val (x.episode + 1) } } : State).waiting .bar)) ∧
      (∀ n, l ≠ 0 → SMap.find s.st.arrivals l.val = some n → x.episode < n → exec (.bar d l) s = .next (s.resuming.waiting .bar)) ∧
      (∀ n, l ≠ 0 → SMap.find s.st.arrivals l.val = some n → n ≤ x.episode → exec (.bar d l) s = .next ((Claim.acquired
        (({ s with st := { s.resuming.st with arrivals := SMap.del s.st.arrivals l.val } } : State).setG d x.lastResult) l).retire (Claim.next s)))) ∧
    (Claim.regsFree s [d, a] [] →
      exec (.hq d a l) s = .next ((s.resuming.setG d (Claim.houseItem s la l.val h x (s.g a).toNat)).retire (Claim.next s)))

/-- R374, R375, R380: claim takes from a local counter in one access: gd gets the base, VL and the claim table the grant, and the
counter moves by it. That the package that launched the strand is told of the claim at once is the model's choice (assumption log 46,
80). -/
def Sys2Proof.Claim.ClaimGrants : Prop :=
  ∀ (s u : State) (d a b : GReg) (key kind : Nat) (sc : Option Nat), Claim.regsFree s [d, a, b] [] → Claim.bytesFree s (s.g a).toNat 16 →
    Claim.inTurn s [{ loc := .mem key kind sc, at_ := 0, len := 16 }] →
    placeM .rmw (.natural false) (s.g a).toNat 16 0 s.resuming = .ok [{ loc := .mem key kind sc, at_ := 0, len := 16 }] u →
    u.lineOk key 16 = true → Claim.linesOk u key 8 sc →
    let base := Memory.readN u.mem key 8
    let n := Claim.grant (s.g b).toNat base (Memory.readN u.mem (key + 8) 8)
    ∃ ls, exec (.claim d a b) s = .next (Claim.claimsTold s (({ u with
        mem := Claim.putInt key 8 sc (base + n) u.mem
        st := { u.st with
          lines := ls
          ctl := { u.st.ctl with vl := n }
          claims := Claim.claims u.st.claims (s.g a).toNat (Claim.wrap base) n } } : State).setG d (Claim.wrap base)) |>.retire (Claim.next s))

/-- R381: slot 0 divides the lanes and takes the division back when every queue of the core is empty, and waits until then; from then on
until the change no slot of the core commits a vector instruction; a vmerge that would end a slot in use asks its strands to leave, and
waits; any other slot raises ILL with the instruction word. -/
def Sys2Proof.Claim.LaneDivision : Prop :=
  ∀ (s : State) (n : SplitN),
    let ready := Claim.queuesEmpty s ∨ s.myCore.dividing = true
    (s.st.slot = 0 → ¬ ready → ∀ i, i = .vsplit n ∨ i = .vmerge → exec i s = .next (s.resuming.waiting .queue)) ∧
    (s.st.slot = 0 → ready →
      exec (.vsplit n) s = .next ((Claim.withCore s.resuming fun c => { c with
        div := match n with | .two => max c.div 1 | .four => 2, dividing := false }).retire (Claim.next s)) ∧
      (s.myCore.div = 0 → exec .vmerge s = .next ((Claim.withCore s.resuming fun c => { c with dividing := false }).retire (Claim.next s))) ∧
      (∀ k, (s.myCore.div = 1 ∧ k = 1 ∨ s.myCore.div = 2 ∧ k = 2) →
        ((∀ t, ¬ Claim.seatedFrom s k t) → exec .vmerge s = .next ((Claim.withCore s.resuming fun c => { c with
          div := c.div - 1, owner := if c.owner < k then c.owner else 0, granted := c.granted && decide (c.owner < k)
          dividing := false }).retire (Claim.next s))) ∧
        ((∃ t, Claim.seatedFrom s k t) → ∃ u : State, exec .vmerge s = .next (u.waiting .queue) ∧
          u.myCore = { s.myCore with dividing := true } ∧ (∀ c, c ≠ s.st.core → u.coreOf c = s.coreOf c) ∧
          ∀ t, Claim.seatedFrom s k t → s.strand? t.sn = some t →
            u.strand? t.sn = some { t with sched := { t.sched with preemptAsked := true } }))) ∧
    (s.st.slot ≠ 0 → Claim.catches s → Claim.settled s → ∀ i, i = .vsplit n ∨ i = .vmerge →
      exec i s = .next (Claim.entered s 1 (Claim.wrap s.ir.toNat) s.st.pc)) ∧
    (∀ (i : Instr) (o : Claim.VecOp), Claim.elementWise s i = some o → s.myCore.dividing = true → s.st.issue = none →
      (s.st.ctl.vms.toNat < 12 ∨ s.st.ctl.vms = 15) → exec i s = .next (s.waiting .queue))

/-- R374, R375, R380, R381: claim, vsplit and vmerge. -/
def Obligations.ClaimsAndLanes : Prop := Sys2Proof.Claim.ClaimGrants ∧ Sys2Proof.Claim.LaneDivision

/-- R382, R426: swake, its earlier accesses performed, sets the wake flag of the live strand of its launch that the MID names, sends a wake
to another package, and has no effect otherwise; swait completes with its flag set, its earlier accesses performed, clears it and
takes its die's log into view (all of it: assumption log 16); `wait` completes with the flag set and leaves it; without it each waits, swait as a peer wait. -/
def Obligations.WaitAndWake : Prop :=
  ∀ (s : State),
    (∀ a, Claim.regsFree s [a] [] → Claim.drainedAll s →
      let x := (s.g a).toNat
      let t := s.resuming.strand? (x % 2 ^ 16)
      (∀ u, x / 2 ^ 16 = s.handle.toNat → t = some u → u.live = true → u.sched.lid = s.st.sched.lid → u.sn = x % 2 ^ 16 →
        exec (.swake a) s = .next ((s.resuming.setStrand { u with
          wake := true, waitDone := u.waitDone || u.wait == .wakeOrResult }).retire (Claim.next s))) ∧
      (x / 2 ^ 16 = s.handle.toNat → (∀ u, t = some u → u.live = false ∨ u.sched.lid ≠ s.st.sched.lid) →
        exec (.swake a) s = .next (s.resuming.retire (Claim.next s))) ∧
      (2 ^ 26 ≤ x → exec (.swake a) s = .next (s.resuming.retire (Claim.next s))) ∧
      (∀ l, x < 2 ^ 26 → x / 2 ^ 16 ≠ s.handle.toNat → s.launch? s.st.sched.lid = some l → exec (.swake a) s =
        .next (({ s.resuming with fabricOut := s.fabricOut ++ [.wake x (Claim.home s l) (l.lid % 2 ^ 32)] } : State).retire (Claim.next s)))) ∧
    (s.st.wake = true → exec .wait s = .next (s.resuming.retire (Claim.next s)) ∧
      (Claim.drainedAll s → exec .swait s = .next (({ s with st := { s.resuming.st with
        wake := false, viewTail := (s.dies[s.myDie]).tail } } : State).retire (Claim.next s))) ∧
      (s.st.vq ≠ [] → exec .swait s = .next (s.resuming.waiting .queue))) ∧
    (s.st.wake = false → exec .swait s = .next (s.resuming.waiting .swait) ∧
      (s.st.wait ≠ .wakeOrResult → exec .wait s = .next (({ s with st := { s.resuming.st with waitDone := false } } : State).waiting .wakeOrResult)) ∧
      (s.st.wait = .wakeOrResult → exec .wait s = .next (if s.st.waitDone then s.resuming.retire (Claim.next s) else s.resuming.waiting .wakeOrResult)))

/-- R384: sdone, its earlier accesses performed, retires the strand: no seat, no slots, no results, no claims, and its instance
has retired; the last one of a launch ends it with cause 0x40; syield asks for the strand's own pre-emption exactly when a candidate of its priority or above waits for its core.
R385, R386: rpl.cap opens a capture of n; rpl.run with a body and room for it sets VL and begins to commit the body; it raises ILL
with no body. While it goes on, the body's instructions join the queue one by one, each with the operands of that moment and the address it
was captured at, and after the last one the scalar stream goes on. That `rpl.run` is two phases, which a trap or a full queue may divide,
is the model's choice (assumption log 47). -/
def Obligations.StrandControl : Prop :=
  ∀ (s : State),
    (∀ l x, Claim.bound s l x → Claim.drainedAll s →
      (l.live = true → l.origin = none → (l.retireLeaf s.st.sched.inst).statusOf 0 ≠ .retired) →
      ∃ t l', exec .sdone s = .next t ∧ t.st.sched.status = .retired ∧ t.st.sched.place = none ∧ t.st.claims = [] ∧
        t.st.wake = false ∧ (∀ j : Fin 8, t.st.k[j] = none ∧ (t.st.fifo[j]).results = [] ∧ (t.st.fifo[j]).cmds = (s.st.fifo[j]).cmds) ∧
        t.launch? s.st.sched.lid = some l' ∧ l'.insts[s.st.sched.inst]? = some { x with status := .retired } ∧ t.mem = s.mem) ∧
    (∀ l x t, Claim.bound s l x → s.st.sched.status = .seated → l.live = true → l.origin = none →
      (l.retireLeaf s.st.sched.inst).statusOf 0 = .retired → exec .sdone s = .next t → t.st.sched.status = .retired →
      ∃ l', t.launch? s.st.sched.lid = some l' ∧ l'.live = false ∧ l'.status = l.lid * 2 ^ 32 + 0x40) ∧
    (s.cur = some s.st.sn →
      ((∃ u ∈ s.strands, s.candidate u s.st.core = true ∧ s.st.sched.prio ≤ u.sched.prio) → exec .syield s =
        .next (({ s with st := { s.resuming.st with sched := { s.st.sched with preemptAsked := true } } } : State).retire (Claim.next s))) ∧
      ((∀ u ∈ s.strands, s.candidate u s.st.core = true → u.sched.prio < s.st.sched.prio) →
        exec .syield s = .next (s.resuming.retire (Claim.next s)))) ∧
    (∀ n : BitVec 6, exec (.rplCap n) s = .next (({ s with st := { s.resuming.st with
      rpl := { body := [], left := n.toNat, pos := 0, going := false, bases := [] } } } : State).retire (Claim.next s))) ∧
    (∀ a, Claim.regsFree s [a] [] →
      (s.st.rpl.body ≠ [] → s.st.rpl.left = 0 → s.st.vq.length + s.st.pend.length + (s.st.rpl.body.length - s.st.rpl.pos) ≤ 32 →
        exec (.rplRun a) s = .next { s with st := { s.st with
          ctl := { s.st.ctl with vl := if a = 0 then s.st.ctl.vl else min (s.g a).toNat 128 }
          rpl := { s.st.rpl with going := true }, wait := .none } }) ∧
      (s.st.rpl.body = [] ∨ s.st.rpl.left ≠ 0 → Claim.catches s → Claim.settled s →
        exec (.rplRun a) s = .next (Claim.entered s 1 (Claim.wrap s.ir.toNat) s.st.pc))) ∧
    (∀ (i : Instr) (a : Word) (ag : Grade),
      ((∃ o, Claim.elementWise s i = some o ∧ a = o.opA ∧ ag = o.opAGrade) ∨ ∃ o, Claim.memVec s i = some o ∧ a = o.opA ∧ ag = 0) →
      s.st.rpl.going = true → s.st.issue = none → (s.st.ctl.vms.toNat < 12 ∨ s.st.ctl.vms = 15) → s.myCore.dividing = false →
      (∀ e ∈ s.st.vq, scDest e.word = none) → s.st.vq.length + s.st.pend.length < 32 →
      let last := decide (s.st.rpl.body.length ≤ s.st.rpl.pos + 1)
      ∃ bases, exec i s = .next { s with st := { s.st with
        vq := s.st.vq ++ [{ Claim.entryOf s a ag with rpl := true, pc := ((s.st.rpl.body[s.st.rpl.pos]?).map (·.2)).getD 0 }]
        rpl := { s.st.rpl with pos := if last then 0 else s.st.rpl.pos + 1, going := !last, bases }
        pc := if last then Claim.next s else s.st.pc
        wait := .none, scalarNext := false, restartPc := none, entered := false } })

namespace Sys2Proof.Claim

/-! ### Engine FIFOs (R283–R289) -/

/-- The command and result FIFOs of a selector replaced. -/
def withFifo (s : State) (e : Fin 8) (f : Fifo) : State := { s with st := { s.st with fifo := s.st.fifo.set e f } }
/-- The selector may be used: its engine is enabled, and the save engine is reached in mode S. -/
def engineOpen (s : State) (e : Fin 8) : Prop := s.engineOn e = true ∧ (e = 7 → s.st.mode = .s)
/-- Commands outstanding (R283). -/
def outstanding (f : Fifo) : Nat := f.cmds.length + (if f.running.isSome then 1 else 0) + f.results.length
/-- STATUS of a result. -/
def statusCode (r : Result) : Nat := r.info.toNat / 2 ^ 40 % 2 ^ 8
/-- Cause raised at the pop (Tables 16-3, 17-4, 18-6); ILL for the codes of the save engine. -/
def popCause (e : Fin 8) (status : Nat) : Nat :=
  match status with
  | 0 => 0 | 1 => 1 | 2 => 3 | 3 => 4 | 4 => 5 | 5 => 13 | 6 => 9 | 7 => 10 | 8 => 14
  | 0x10 => if e = 6 then 12 else 1
  | 0x11 => if e = 4 then 13 else if e = 6 then 11 else 1
  | 0x13 => if e = 6 then 13 else 1
  | 0x14 => if e = 4 then 13 else 1
  | _ => 1

/-! ### Groups and collectives (R319–R329) -/

/-- Rank of a member: its place among the members. -/
def rankIn (g : Group) (mid : Nat) : Nat := (g.members.takeWhile fun m => m != mid).length
/-- The strand's MID. -/
def ownMid (s : State) : Nat := s.handle.toNat * 2 ^ 16 + s.st.sn % 2 ^ 16
/-- The info word (R329). -/
def infoWord (g : Group) (mid : Nat) : Word :=
  wrap ((if mid ∈ g.members then rankIn g mid else 0xFFFF) * 2 ^ 48 + g.members.length * 2 ^ 32 + g.gen : Nat)
/-- Item of grp.info (Table 18-4). -/
def groupItem (g : Group) (mid x : Nat) : Word :=
  match x with
  | 0 => infoWord g mid
  | 1 => wrap (min g.root (g.members.length - 1) + g.k * 2 ^ 16 : Nat)
  | x + 2 => match g.members[x]? with
    | some m => wrap m
    | none => wrap (-1)
/-- A handle bound to the current generation of a group. -/
def bind (u : State) (d : GReg) (q : Fin 8) (g : Group) : State :=
  ({ u with st := { u.st with
      q := u.st.q.set q (some { gid := g.gid, gen := g.gen }), asked := none, joinRefused := false } } : State).setG d
    (infoWord g (ownMid u))

/-- An entry that has started and waits; the trap of a whole-vector one. -/
def begun (s : State) (n : VEntry) : VEntry := { n with note := some { pop := (actives s).length, first := none, last := none } }
def stopped (s : State) (n : VEntry) : TrapSrc := .entry { begun s n with again := true }

/-- Kind, destination, source and handle of a collective. -/
def collective : Instr → Option (ColKind × VReg × VReg × Fin 8)
  | .colRed d a q r t k => some (⟨0, colOpr r, t, k⟩, d, a, q)
  | .colAred d a q r t k => some (⟨1, colOpr r, t, k⟩, d, a, q)
  | .colGat d a q t => some (⟨2, 0, t, false⟩, d, a, q)
  | .colAgat d a q t => some (⟨3, 0, t, false⟩, d, a, q)
  | .colSct d a q t => some (⟨4, 0, t, false⟩, d, a, q)
  | .colA2a d a q t => some (⟨5, 0, t, false⟩, d, a, q)
  | _ => none

/-- Header word A (R322). -/
def headA (k : ColKind) (gen : Nat) : Word :=
  wrap (gen * 2 ^ 32 + k.op * 2 ^ 29 + k.opr * 2 ^ 26 + k.ty.code * 2 ^ 23 + (if k.topk then 2 ^ 22 else 0) : Nat)
/-- Shape rule of Table 18-2. -/
def shape (k : ColKind) (g n : Nat) : Prop :=
  (k.op = 2 ∨ k.op = 3 ∨ k.op = 4 → g * n ≤ 128) ∧ (k.op = 5 → n % g = 0)

/-- Node i at level j of the rank tree: an absent child is passed over (R325). -/
def rankNode {α : Type} (node : α → α → α × BitVec 6) (leaf : Nat → Option α) : Nat → Nat → Option α × BitVec 6
  | 0, i => (leaf i, 0)
  | j + 1, i =>
    let l := rankNode node leaf j (2 * i)
    let r := rankNode node leaf j (2 * i + 1)
    match l.1, r.1 with
    | some a, some b => (some (node a b).1, l.2 ||| r.2 ||| (node a b).2)
    | some a, none => (some a, l.2 ||| r.2)
    | none, x => (x, l.2 ||| r.2)

/-- Element e that Table 18-2 writes at a rank, and the flags of its nodes, from the contributions in rank order, count n and
root rank. -/
def colValue (k : ColKind) (cs : List Contrib) (n rank root e : Nat) : Option (Elem × BitVec 6) :=
  let of := fun (q i : Nat) => (((cs[q]?).map (·.elems)).getD []).getD i Elem.init
  let b := n / cs.length
  match k.op with
  | 0 | 1 =>
    if e < n ∧ (k.op = 1 ∨ rank = root) then some (
      if k.topk then combine 0 k.ty (fun node l => match l with
          | [] => (none, 0)
          | x :: r => r.foldl (fun acc y => ((acc.1.map fun z => (node z y).1), acc.2 ||| ((acc.1.map fun z => (node z y).2).getD 0))) (some x, 0))
        (cs.filterMap fun c => ((c.idx.zip c.elems).find? fun x => x.1 == e).map (·.2))
      else combine k.opr k.ty (fun node l => rankNode node (fun i => l[i]?) 12 0) ((List.range cs.length).map fun q => of q e))
    else none
  | 2 => if e < cs.length * n ∧ rank = root then some (of (e / n) (e % n), 0) else none
  | 3 => if e < cs.length * n then some (of (e / n) (e % n), 0) else none
  | 4 => if e < n then some (of root (rank * n + e), 0) else none
  | _ => if e < n then some (of (e / b) (rank * b + e % b), 0) else none

/-- mask(e), for an entry. -/
def maskOf (s : State) (n : VEntry) (e : Nat) : Bool := n.vms == 15 || (if h : n.vms < 12 then s.mbit ⟨n.vms, h⟩ e else false)

/-- The collective completes at the member. -/
def collected (s : State) (k : ColKind) (d : VReg) (cs : List Contrib) (c : CollAt) (n : VEntry) : State :=
  let start : State := { s with st := { s.st with coll := none, trains := n.trains, ctl := { s.st.ctl with fxr := if n.again ∧ n.vl ≠ 0 then s.st.ctl.fxr else 0 } } }
  (List.range 128).foldl (fun u e =>
    if maskOf s n e then
      match colValue k cs n.vl c.rank c.root e with
      | some (x, fl) => withFlags e fl (u.setV d e x)
      | none => u
    else u) start
/-- What the debug ring says of an entry's elements: noted when it first started (R429). -/
def noteOf (s : State) (n : VEntry) : RingNote :=
  n.note.getD { pop := ((List.range n.vl).filter (maskOf s n)).length, first := none, last := none }
/-- An entry that ran from the queue has completed (R38, R371, R429); the next one takes up what it had started (R369). -/
def finished (s u : State) (n : VEntry) : State :=
  let r : DebugRec :=
    { pc := n.pc, seq := (s.st.seqv + 1) % 2 ^ 32, rpl := n.rpl, mem := (noteOf s n).first.isSome, width := wWidth n.word,
      pop := (noteOf s n).pop, vl := n.vl, first := ((noteOf s n).first.getD 0).toNat % 2 ^ 55, last := ((noteOf s n).last.getD 0).toNat % 2 ^ 55 }
  ({ u with st := { u.st with
      ctl := { u.st.ctl with vei := 0 }, ring := (r :: s.st.ring).take 64, seqv := (s.st.seqv + 1) % 2 ^ 32
      hold := if n.restart.isSome then [] else u.st.hold
      issue := none, qwait := .none, scalarNext := false, counted := [] } } : State).promote
/-- A WH entry that runs from the queue traps (R37). -/
def entryTrap (s : State) (n : VEntry) (code : Nat) (val : Word) : State :=
  ({ s with st := { s.st with
      coll := none, counted := [], trains := [], ctl := { s.st.ctl with vei := 0, fxr := if n.again ∧ n.vl ≠ 0 then s.st.ctl.fxr else 0 } } } : State).takeTrap
    { code, val, elem := 0 } (.entry { n with again := true, restart := none, lines := [], trains := [], note := some (noteOf s n) })

end Sys2Proof.Claim

/-- R283, R285, R286, R289 with Tables 16-1, 16-2: a push appends the record at ga, a multiple of 64, with the mode of the push, where
fewer than 16 commands are outstanding, and otherwise waits; that a push overtakes queued matrix entries that store nothing,
and a command with a follow-on those that store too, is the model's choice (assumption log 37); a pop gives NONE, or the oldest result, stored at ga when field a is not
zero, and takes a trap after it for a failure that is not QUIET; poll counts; drain waits until every command has posted its result; a
disabled engine raises ILL, selector 7 PRIV in mode P. -/
def Sys2Proof.Claim.FifoInstructions : Prop :=
  ∀ (s : State) (e : Fin 8) (a d : GReg),
    let f := s.st.fifo[e]
    (∀ i, i = .engPush a e ∨ i = .engPop d a e ∨ i = .engPoll d e ∨ i = .engDrain e → Claim.catches s → Claim.settled s →
      (e = 7 → s.st.mode = .p → exec i s = .next (Claim.entered s 2 (Claim.wrap s.ir.toNat) s.st.pc)) ∧
      ((e = 7 → s.st.mode = .s) → s.engineOn e = false → exec i s = .next (Claim.entered s 1 (Claim.wrap s.ir.toNat) s.st.pc))) ∧
    (Claim.engineOpen s e → Claim.regsFree s [d, a] [] →
      (∀ (p : Part) (u : State), Claim.outstanding f < 16 → s.st.remote = [] → Claim.inTurn s [p] → (∀ x ∈ s.st.vq, wMaj x.word = 0x2C ∧
          (wFn x.word / 16 = 9 → Claim.partBytes u p % 2 ^ 8 = 1 ∧ Claim.partBytes u p / 2 ^ 32 % 4 = 3)) →
        Claim.bytesFree s (s.g a).toNat 64 → (s.g a).toNat % 64 = 0 →
        placeM .load (.plain false) (s.g a).toNat 64 0 s.resuming = .ok [p] u → Claim.readable u false p →
        ∃ ls, exec (.engPush a e) s = .next ((Claim.withFifo { u with st := { u.st with lines := ls } } e { f with cmds := f.cmds ++ [{
          dw := (List.range 8).map fun i => Claim.wrap (Claim.partBytes u p / 2 ^ (64 * i) % 2 ^ 64 : Nat)
          mode := s.st.mode, addr := (s.g a).toNat, core := s.st.core, slot := s.st.slot }] }).retire (Claim.next s))) ∧
      (16 ≤ Claim.outstanding f → (s.g a).toNat % 64 = 0 → exec (.engPush a e) s = .next (s.resuming.waiting (.engPush e))) ∧
      (Claim.outstanding f = 0 → (a = 0 ∨ (s.g a).toNat % 16 = 0) →
        exec (.engPop d a e) s = .next ((s.resuming.setG d (Claim.wrap (0xFF * 2 ^ 40 : Nat))).retire (Claim.next s))) ∧
      (Claim.outstanding f ≠ 0 → f.results = [] → (a = 0 ∨ (s.g a).toNat % 16 = 0) → exec (.engPop d a e) s = .next (s.resuming.waiting (.engPop e))) ∧
      (∀ r l, f.results = r :: l →
        (Claim.statusCode r = 0 ∨ r.quiet = true → a = 0 →
          exec (.engPop d a e) s = .next ((Claim.withFifo (s.resuming.setG d r.info) e { f with results := l }).retire (Claim.next s))) ∧
        (Claim.statusCode r = 0 ∨ r.quiet = true → ∀ (ps : List Part) (u : State), a ≠ 0 → (s.g a).toNat % 16 = 0 →
          Claim.bytesFree s (s.g a).toNat 16 → Claim.inTurn s ps → placeM .store (.plain false) (s.g a).toNat 16 0 s.resuming = .ok ps u →
          (∀ p ∈ ps, Claim.writable u Claim.intSide p) →
          ∃ ls, exec (.engPop d a e) s = .next ((Claim.withFifo (({ ps.foldl (Claim.putPart (r.addr.toNat + r.info.toNat * 2 ^ 64) Claim.intSide) u with
            st := { u.st with lines := ls } } : State).setG d r.info) e { f with results := l }).retire (Claim.next s))) ∧
        (Claim.statusCode r ≠ 0 → r.quiet = false → a = 0 → Claim.catches s → Claim.settled s →
          let c := Claim.popCause e (Claim.statusCode r)
          exec (.engPop d a e) s = .next (Claim.entered (Claim.noted (Claim.withFifo (s.setG d r.info) e { f with results := l }) c)
            (c + 128) r.addr (Claim.next s)))) ∧
      exec (.engPoll d e) s = .next ((s.resuming.setG d (Claim.wrap (Claim.outstanding f + f.results.length * 2 ^ 8 +
        (if Claim.outstanding f = 0 then 2 ^ 16 else 0) : Nat))).retire (Claim.next s)) ∧
      (f.cmds = [] ∧ f.running = none → exec (.engDrain e) s = .next (s.resuming.retire (Claim.next s))) ∧
      (f.cmds ≠ [] ∨ f.running ≠ none → exec (.engDrain e) s = .next (s.resuming.waiting (.engDrain e))))

/-- R322, R323, R328 with Table 18-2: a collective on a handle of the current generation sends its header and elements under the member's
next sequence count, once, to every other package of the group under the remap generation of its handle (R331), and waits; R321: a null handle, or one of an older generation, raises GROUP and sends nothing. -/
def Sys2Proof.Claim.CollectiveStarts : Prop :=
  ∀ (i : Instr) (s : State) (k : ColKind) (d a : VReg) (q : Fin 8), Claim.collective i = some (k, d, a, q) → Claim.vecReady s →
    Claim.notBound s [d, a] → s.st.coll = none →
    let n := s.st.ctl.vl
    let mid := Claim.ownMid s
    (∀ h g, s.st.q[q] = some h → s.group? h.gid = some g → h.gen = g.gen → mid ∈ g.members → (k.topk = true → g.k ≠ 0) →
      let counts := SMap.getD g.counts mid (0, 0)
      let rank := Claim.rankIn g mid
      let root := min g.root (g.members.length - 1)
      let count := if shapeOk k g.members.length n then (if k.op = 4 ∧ rank = root then g.members.length * n else n) else 0
      let xs := (List.range count).map (s.v a)
      let idx := if k.topk then topSelect g.k (xs.map (magnitude k.ty)) else []
      let c : Contrib := { gid := g.gid, gen := g.gen, form := 0, seq := counts.1 + 1, rank, a := Claim.headA k g.gen, b := Claim.wrap n
                           elems := if k.topk then idx.map fun j => xs.getD j Elem.init else xs, idx }
      (¬ ∃ x ∈ s.contribs, x.gid = g.gid ∧ x.gen = g.gen ∧ x.form = 0 ∧ x.seq = c.seq ∧ x.rank = rank) →
      (g.gid, g.gen, 0, c.seq) ∉ s.committed → (∀ p e, SMap.find s.remap p = some e → e.pend = false) →
      ∃ (t : State) (g' : Group) (ps : List Nat), exec i s = .next t ∧ t.contribs = s.contribs ++ [c] ∧ t.st.vq = [Claim.begun s (Claim.entryOf s 0 0)] ∧ t.st.qwait = .coll ∧
        t.st.coll = some { gid := g.gid, gen := g.gen, seq := c.seq, rank, size := g.members.length, root, k := g.k, fate := .standing } ∧
        t.group? g.gid = some g' ∧ SMap.getD g'.counts mid (0, 0) = (counts.1 + 1, counts.2) ∧
        t.fabricOut = s.fabricOut ++ (ps.map fun p => .contribution p (((SMap.find s.remap p).map (·.rgen)).getD 0) c) ∧ ps.Nodup ∧
        (∀ p, p ∈ ps ↔ p ≠ s.handle.toNat ∧ ∃ m ∈ g.members, m / 2 ^ 16 % 2 ^ 10 = p) ∧
        t.st.regs = s.st.regs ∧ t.mem = s.mem) ∧
    (s.st.q[q] = none → exec i s = .next ((Claim.freshWh s (Claim.entryOf s 0 0)).mapCtl (fun c => { c with vei := 0 }) |>.takeTrap
      { code := 12, val := 0, elem := 0 } (Claim.stopped s (Claim.entryOf s 0 0)))) ∧
    (∀ h g, s.st.q[q] = some h → s.group? h.gid = some g → h.gen < g.gen →
      exec i s = .next ((Claim.freshWh s (Claim.entryOf s 0 0)).mapCtl (fun c => { c with vei := 0 }) |>.takeTrap
        { code := 12, val := Claim.wrap g.gen, elem := 0 } (Claim.stopped s (Claim.entryOf s 0 0))))

/-- R323, R325 to R328, R443: a waiting collective completes when the contribution of every rank is here and it has been committed,
also where its group has been destroyed since: each
unmasked element of Table 18-2 is written, a reduction by the rank tree, with the flags of its nodes; headers that differ raise COLLMIS,
and then a failed shape rule GROUP, at every member, with no destination changed. -/
def Sys2Proof.Claim.CollectiveEnds : Prop :=
  ∀ (i : Instr) (s : State) (k : ColKind) (d a : VReg) (q : Fin 8) (n : VEntry) (c : CollAt) (cs : List Contrib),
    Claim.collective i = some (k, d, a, q) → s.st.early = none → s.st.issue = some n → n.lines = [] → n.trains = [] → Claim.settled s →
    Claim.notBound s [d, a] → s.st.coll = some c → cs.length = c.size →
    (c.fate = .kept cs ∨ c.fate = .standing ∧ (c.gid, c.gen, 0, c.seq) ∈ s.committed ∧
      ∀ (r : Nat) (x : Contrib), cs[r]? = some x → s.contribs.find? (fun y =>
        y.gid == c.gid && y.gen == c.gen && y.form == 0 && y.seq == c.seq && y.rank == r) = some x) →
    let agree := ∀ x ∈ cs, x.a = Claim.headA k c.gen ∧ x.b = Claim.wrap n.vl
    (agree → Claim.shape k c.size n.vl → exec i s = .next (Claim.finished s (Claim.collected s k d cs c n) n)) ∧
    (¬ agree → exec i s = .next (Claim.entryTrap s n 11 (Claim.headA k c.gen))) ∧
    (agree → ¬ Claim.shape k c.size n.vl → exec i s = .next (Claim.entryTrap s n 12 (Claim.wrap c.size)))

/-- R321 to R328: a collective starts at a member, waits, and ends there. -/
def Obligations.Collectives : Prop := Sys2Proof.Claim.CollectiveStarts ∧ Sys2Proof.Claim.CollectiveEnds

/-- R329 with Table 18-4: grp.join of a member and grp.load bind the handle to the current generation and give the info word, a join once that generation is STABLE; a join of a
strand that is no member asks the group's home once, and waits; grp.leave asks to leave, nulls the handle at once and gives the
last generation in which the strand was a member; grp.info gives an item of the current generation; an unknown group raises GROUP with
ga at a load, and with VL = 0 leaves gd as it is (R72; assumption log 38). -/
def Obligations.GroupInstructions : Prop :=
  ∀ (s : State) (d a : GReg) (q : Fin 8), Claim.vecReady s →
    let x := (s.g a).toNat % 2 ^ 32
    let mid := Claim.ownMid s
    let started := Claim.freshWh s (Claim.entryOf s (s.g a) 0)
    let started0 := Claim.freshWh s (Claim.entryOf s 0 0)
    (∀ g, s.group? x = some g → mid ∈ g.members →
      (mid ∉ g.fresh → exec (.grpJoin d a q) s = .next (Claim.completed s (Claim.bind started d q g) (none, none))) ∧
      exec (.grpLoad d a q) s = .next (Claim.completed s (Claim.bind started d q g) (none, none))) ∧
    (∀ g, s.group? x = some g → mid ∉ g.members → s.st.joinRefused = false → s.st.asked = none →
      g.phase ≠ 3 → g.region = s.drid →
      ∃ t, exec (.grpJoin d a q) s = .next t ∧ t.st.asked = some x ∧ t.st.qwait = .grp ∧ t.st.vq = [Claim.begun s (Claim.entryOf s (s.g a) 0)] ∧
        (g.home = s.handle.toNat → g.settled = true → g.phase = 0 → ∃ g', t.group? x = some g' ∧ g'.phase = 1 ∧ g'.reqs = [(0, mid)]) ∧
        (g.home ≠ s.handle.toNat ∨ g.settled = false → s.cur = some s.st.sn → s.st.sn < 2 ^ 16 →
          t.fabricOut = s.fabricOut ++ [.member x 0 mid s.drid])) ∧
    (s.group? x = none → s.st.ctl.vl = 0 → exec (.grpLoad d a q) s = .next (Claim.completed s started (none, none))) ∧
    (s.group? x = none → s.st.ctl.vl ≠ 0 → exec (.grpLoad d a q) s = .next (started.mapCtl (fun c => { c with vei := 0 }) |>.takeTrap
      { code := 12, val := s.g a, elem := 0 } (Claim.stopped s (Claim.entryOf s (s.g a) 0)))) ∧
    (∀ h g, s.st.q[q] = some h → h.gen < 2 ^ 32 → s.group? h.gid = some g →
      exec (.grpInfo d a q) s = .next (Claim.completed s (started.setG d (Claim.groupItem g mid (s.g a).toNat)) (none, none)) ∧
      (mid ∈ g.members → exec (.grpLeave d q) s = .next (Claim.completed s ((({ started0 with st := { started0.st with
        q := started0.st.q.set q none } } : State).groupRequest h.gid 1 mid).setG d (Claim.wrap (SMap.getD s.st.memberOf h.gid h.gen : Nat))) (none, none))) ∧
      (mid ∉ g.members → exec (.grpLeave d q) s = .next (Claim.completed s (({ started0 with st := { started0.st with
        q := started0.st.q.set q none } } : State).setG d (Claim.wrap (SMap.getD s.st.memberOf h.gid h.gen : Nat))) (none, none))))

namespace Sys2Proof.Claim

/-! ### Translation (R398–R406) -/

/-- Entry of a translation table. -/
def tableEntry (s : State) (table i : Nat) : Word := BitVec.ofNat 64 (Memory.readN s.mem (table + 8 * i) 8)
/-- A table the walk may read: its frame in a range of the partition, its die reachable over the control die's link to it, the entry's
line good. -/
def tableOk (s : State) (partn table i : Nat) : Prop :=
  partHolds (s.part partn) table 65536 = true ∧ (s.dies[coreDie (homeDie (table + 8 * i) * 128)]).cut = false ∧
  s.linkDown 4 (homeDie (table + 8 * i)) = false ∧ s.lineOk (table + 8 * i) 8 = true
/-- A pointer to the next table (Table 25-3), and a leaf (Table 25-4), of a region. -/
def pointer (region : Nat) (w : Word) (table : Nat) : Prop :=
  w.toNat % 4 = 1 ∧ w.toNat / 2 ^ 2 % 2 ^ 14 = 0 ∧ w.toNat / 2 ^ 52 % 2 ^ 4 = 0 ∧ w.toNat / 2 ^ 56 = region ∧ table = w.toNat / 2 ^ 16 % 2 ^ 36 * 2 ^ 16
def leaf (region : Nat) (w : Word) : Prop := w.toNat % 4 = 3 ∧ w.toNat / 2 ^ 56 = region
/-- Root table of a region (Table 25-2). -/
def root (s : State) (region : Nat) : Nat := (nth (s.regionRec region) 0 0).toNat / 2 ^ 16 % 2 ^ 36 * 2 ^ 16
/-- Index at a level: VA[54-13×lvl : 42-13×lvl]. -/
def index (va lvl : Nat) : Nat := va / 2 ^ (42 - 13 * lvl) % 2 ^ 13

/-- A record of the invalidation log matches a translation (Table 25-6, R406). -/
def hits (r : Word × Word) (e : TlbEntry) : Bool :=
  let op := r.1.toNat % 16
  let first := r.2.toNat / 2 ^ 16 % 2 ^ 39
  let pages := if op = 2 then r.1.toNat / 2 ^ 16 % 2 ^ 32 else 1
  let lo := if e.large then e.vpn / 8192 * 8192 else e.vpn
  let hi := if e.large then lo + 8192 else lo + 1
  decide (op = 4 ∨ r.1.toNat / 2 ^ 8 % 2 ^ 8 = e.region ∧ (op = 3 ∨ first < hi ∧ lo < first + pages))
/-- The oldest record of a die's log is applied: every translation it matches is gone from the caches of the die, and a walk of the host
that it matches is to be made again, one whose leaf has not come where any page of its 512 MiB is matched (assumption log 41). -/
def applied (s : State) (d : Fin 4) (r : Word × Word) (rest : List (Word × Word)) : State :=
  let keep := fun (l : List TlbEntry) => l.filter fun e => !hits r e
  { s with
    dies := s.dies.set d { s.dies[d] with tlb := keep (s.dies[d]).tlb, log := rest, logPosted := (s.dies[d]).logPosted - 1 }
    sects := Vector.ofFn fun (x : Fin 32) => if x.val / 8 = d.val then { s.sects[x] with tlb := keep (s.sects[x]).tlb } else s.sects[x]
    cores := s.cores.map fun (n, c) => (n, if n / 128 = d.val then { c with tlb := keep c.tlb } else c)
    hostLeaves := s.hostLeaves.filter fun x => !hits r { region := x.2.1, vpn := x.2.2.1, large := x.2.2.2.2, leaf := x.2.2.2.1 }
    hostPosts := s.hostPosts.filter fun p => match p with
      | .walk _ region va _ => !hits r { region, vpn := va / 65536, large := true, leaf := 0 }
      | _ => true }
/-- A walk posted to the host for a page of a region. -/
def postedWalk (region page : Nat) (large : Bool) : HostPost → Bool
  | .walk _ r va _ => r == region && (if large then va / 2 ^ 29 == page / 2 ^ 13 else va / 2 ^ 16 == page)
  | _ => false
/-- A translation held by the caches of a core, its section and its die (R404). -/
def cachedAt (s : State) (core : Nat) (e : TlbEntry) : State :=
  let c := coreDie core
  let x := coreSect core
  { s with
    cores := SMap.put s.cores core { s.coreOf core with tlb := (e :: (s.coreOf core).tlb).take 128 }
    sects := s.sects.set x { s.sects[x] with tlb := (e :: (s.sects[x]).tlb).take 2048 }
    dies := s.dies.set c { s.dies[c] with tlb := (e :: (s.dies[c]).tlb).take 16384 } }

/-- Table 25-5. -/
def permits (w : Word) (m : Mode) (acc : Acc) : Prop :=
  (m = .p → w.getLsbD 5 = true) ∧
  match acc with
  | .load => w.getLsbD 2 = true
  | .store => w.getLsbD 3 = true
  | .rmw => w.getLsbD 2 = true ∧ w.getLsbD 3 = true
  | .fetch => w.getLsbD 2 = true ∧ w.getLsbD 4 = true

end Sys2Proof.Claim

/-- R398 to R401, R407: the walk reads the three tables at VA[54:42], VA[41:29] and VA[28:16]; a leaf at level 1 maps 512 MiB, one at level 2
64 KiB; an entry that is not valid, or of another region, raises XLATE. A leaf of an untranslated window of memory, its frame populated and in a
range of the partition, gives window base + FRAME × 64 KiB and the page offset, and on a GT page the place of the unit's sidecar
word, to an access its bits permit; another raises PERM. A leaf of a fabric window gives its handle and address in the other package where
the outbound table has an entry for the leaf's own window page that permits the access. -/
def Sys2Proof.Claim.PageTables : Prop :=
  ∀ (s : State) (who partn region va : Nat), s.act.getLsbD 0 = false →
    let t0 := Claim.root s region
    let e0 := Claim.tableEntry s t0 (Claim.index va 0)
    (∀ t1 t2, Claim.tableOk s partn t0 (Claim.index va 0) → Claim.pointer region e0 t1 → Claim.tableOk s partn t1 (Claim.index va 1) →
      let e1 := Claim.tableEntry s t1 (Claim.index va 1)
      let e2 := Claim.tableEntry s t2 (Claim.index va 2)
      (Claim.leaf region e1 → s.walk who partn region va = .ok (e1, true)) ∧
      (Claim.pointer region e1 t2 → Claim.tableOk s partn t2 (Claim.index va 2) → Claim.leaf region e2 →
        s.walk who partn region va = .ok (e2, false)) ∧
      (Claim.pointer region e1 t2 → Claim.tableOk s partn t2 (Claim.index va 2) → ¬ Claim.leaf region e2 →
        s.walk who partn region va = .error 3)) ∧
    (Claim.tableOk s partn t0 (Claim.index va 0) → e0.getLsbD 0 = false ∨ e0.toNat / 2 ^ 56 ≠ region → s.walk who partn region va = .error 3) ∧
    (∀ (w : Word) (m : Mode) (acc : Acc) (b : Nat), w.getLsbD 6 = false → w.toNat / 2 ^ 8 % 2 ^ 2 ≠ 3 →
      placeBase (w.toNat / 2 ^ 10 % 2 ^ 3) = some b →
      let frame := w.toNat / 2 ^ 31 % 2 ^ 25
      let scf := w.toNat / 2 ^ 13 % 2 ^ 18
      let gt := w.getLsbD 7
      let sc := (nth (s.regionRec region) 1 0).toNat / 2 ^ 27 % 2 ^ 25 * 2 ^ 27 + scf * 2 ^ 14
      frame * 65536 + 65536 ≤ s.populated (w.toNat / 2 ^ 10 % 2 ^ 3) → partHolds (s.part partn) (b + frame * 65536) 65536 = true →
      (gt = false → scf = 0) →
      (gt = true → partHolds (s.part partn) sc 16384 = true ∧ s.paPopulated sc 16384 = true) →
      (Claim.permits w m acc → s.leafLoc partn region m acc w false va = .ok (.mem (b + frame * 65536 + va % 65536) (w.toNat / 2 ^ 8 % 2 ^ 2)
        (if gt then some (sc + va % 65536 / 8 * 2) else none))) ∧
      (¬ Claim.permits w m acc → s.leafLoc partn region m acc w false va = .error 4)) ∧
    (∀ (w : Word) (m : Mode) (acc : Acc), w.getLsbD 6 = true → w.toNat / 2 ^ 10 % 2 ^ 3 = 0 → w.getLsbD 7 = false →
      let handle := w.toNat / 2 ^ 46 % 2 ^ 10
      let wpi := w.toNat / 2 ^ 13 % 2 ^ 33
      (∀ r wr a, s.outbound region handle wpi = some (r, wr, a) → Claim.permits w m acc →
        s.leafLoc partn region m acc w false va =
          if (match acc with | .load => r | .store => wr | .rmw => a | .fetch => false) = true
          then .ok (.remote handle (wpi * 65536 + va % 65536) (w.toNat / 2 ^ 8 % 2 ^ 2)) else .error 4) ∧
      (s.outbound region handle wpi = none ∨ ¬ Claim.permits w m acc → s.leafLoc partn region m acc w false va = .error 4))

/-- R403 to R406, R409, R410: a walk that finds a leaf without a fault fills the caches of the core, the section and the die; the oldest record of a die's log
removes every translation it matches from every cache of the die, or is posted to the host in DUTY's mode, whose confirmation then
applies it; a leaf the host returns goes to the oldest walk that asked for its page. -/
def Sys2Proof.Claim.TranslationEvents : Prop :=
  ∀ (s : State),
    (∀ (sn va : Nat) (t : Strand) (w : Word) (large : Bool), s.strand? sn = some t → t.seated = true → va < scratchBase →
      (s.switchTo sn).cached va = none → s.hostLeaves = [] → s.linkDown 4 (coreDie t.core) = false →
      s.walk t.sn t.partn t.region va = .ok (w, large) →
      ((∃ loc, s.leafLoc t.partn t.region t.mode .load w large va = .ok loc) →
        exec (.pageWalk sn va) s = .next (Claim.cachedAt s t.core { region := t.region, vpn := va / 2 ^ 16, large, leaf := w })) ∧
      (∀ c, s.leafLoc t.partn t.region t.mode .load w large va = .error c → exec (.pageWalk sn va) s = .next s)) ∧
    (∀ (d : Fin 4) (r : Word × Word) (rest : List (Word × Word)), (s.dies[d]).log = r :: rest →
      (s.act.getLsbD 4 = false → (s.dies[d]).logPosted = 0 → exec (.logApply d.val) s = .next (Claim.applied s d r rest)) ∧
      (s.act.getLsbD 4 = true → (s.dies[d]).logPosted = 0 → exec (.logApply d.val) s = .next { s with
        hostPosts := s.hostPosts ++ [.log d.val r], dies := s.dies.set d { s.dies[d] with logPosted := 1 } }) ∧
      ((s.dies[d]).logPosted ≠ 0 → exec (.hostLogConfirmation d.val) s =
        .next { Claim.applied s d r rest with hostPosts := (Claim.applied s d r rest).hostPosts.erase (.log d.val r) })) ∧
    (∀ (who region va acc page : Nat) (w : Word) (large : Bool),
      s.hostPosts.find? (Claim.postedWalk region page large) = some (.walk who region va acc) →
      exec (.hostWalkReply region page w large) s = .next { s with
        hostPosts := s.hostPosts.erase (.walk who region va acc), hostLeaves := s.hostLeaves ++ [(who, region, page, w, large)] })

/-- R398 to R406, R409, R410: page walks, the translation caches and the invalidation log. -/
def Obligations.Translation : Prop := Sys2Proof.Claim.PageTables ∧ Sys2Proof.Claim.TranslationEvents

namespace Sys2Proof.Claim

/-! ### The fabric (R269, R331, R407, R408) -/

/-- One element with its place in this package, for a package of the fabric. -/
def inboundAt (s : State) (src drid addr n : Nat) (g : Grant) (key kind : Nat) (sc : Option Nat) : Prop :=
  inboundPlace src drid addr n g s = .ok (.mem key kind sc) s
/-- The elements of a train performed in order, up to a sum that traps at its home (assumption log 31): what they leave, their count, the
places of those refused (an uncorrectable line sets RRS.UE), and the flags of each; nothing where one has to wait. -/
def arrived (src kind drid : Nat) : Nat → List TrainElem → State → TrainDone → Option (State × TrainDone)
  | _, [], u, d => some (u, d)
  | i, x :: xs, u, d =>
    match trainElem src kind drid x u with
    | .ok (fl, true) t => arrived src kind drid (i + 1) xs t { d with count := d.count + 1, flags := d.flags ++ [fl] }
    | .ok (fl, false) t => some (t, { d with flags := d.flags ++ [fl] })
    | .error (.trap q) _ => arrived src kind drid (i + 1) xs (if q.code = 5 then u.setRrs 4 else u)
        { d with refused := d.refused ++ [i], flags := d.flags ++ [0] }
    | .error (.wait _) _ => none
/-- What an arrived element leaves: bytes, and on a GT page its grade word, or 0xFFFF for a datum without one: of four bytes the byte of
one FP32 value, but the whole word where a copy engine sends that. -/
def putDatum (ty key n : Nat) (sc : Option Nat) (x : Nat) (g : Option Grade) (m : Memory) : Memory :=
  match g, sc with
  | none, _ => putInt key n sc x m
  | some _, none => Memory.writeN m key n x
  | some w, some k => if n = 4 ∧ ty ≠ 2 then Memory.writeN (Memory.writeN m key n x) (k + key / 4 % 2) 1 (w.toNat % 2 ^ 8)
      else Memory.writeN (Memory.writeN m key n x) k 2 w.toNat
/-- The state after what came from the fabric has been answered with a message. -/
def answered (s : State) (m : Memory) (msg : FabMsg) : State :=
  { s with
    mem := m, fabricOut := s.fabricOut ++ [msg]
    hostLeaves := s.hostLeaves.filter fun l => l.1 != 2 ^ 30
    hostPosts := s.hostPosts.filter fun p => match p with | .walk w .. => w != 2 ^ 30 | _ => true }
/-- The sidecar of a place can be reached from a die (4 is the control die). -/
def sideReached (s : State) (die : Nat) (sc : Option Nat) : Prop :=
  ∀ k, sc = some k → (s.dies[coreDie (homeDie k * 128)]).cut = false ∧ s.linkDown die (homeDie k) = false
/-- What an acknowledgement may say of a train: every element performed or refused, or those below a sum that could trap. -/
def ackOk (es : List TrainOut) (count : Nat) (refused : List Nat) : Prop :=
  (∀ i ∈ refused, i < es.length) ∧ (count + refused.length = es.length ∨
    refused = [] ∧ ∃ x, es[count]? = some x ∧ x.grade.isSome = true ∧ x.ctl / 16 ≠ 0)

end Sys2Proof.Claim

/-- R331, R407, R408, R446: an arriving store element, or integer scatter-add or atomic, that the inbound table admits is performed on its
place, a load is answered with its bytes and the unit's sidecar word, and each train and request is answered; an element no
entry admits is refused and nothing is written. A train performs its elements in order, each that it may, up to an FP sum that
traps under the controls it carries (assumption log 31), and answers with their count, the places of those refused and the flags. An answer reaches the request it names; a refused element ends its strand with PERM at the
element's source address, and a trap whose handler that strand ran in is recorded as superseded; an answer that fits no train that was
sent changes nothing. Trains of unlisted kinds are discarded and counted. -/
def Obligations.FabricEvents : Prop :=
  ∀ (s : State) (src tag drid rgen : Nat),
    (∀ kind elems, 4 ≤ kind → exec (.elementTrain src tag kind drid rgen elems) s = .next { s with linkErrors := s.linkErrors + 1 }) ∧
    (∀ kind elems t d, kind < 2 → s.genAccepted rgen = true →
      Claim.arrived src kind drid 0 elems s { count := 0, refused := [], flags := [] } = some (t, d) →
      exec (.elementTrain src tag kind drid rgen elems) s =
        .next (Claim.answered t t.mem (.ack tag src d.count d.refused d.flags))) ∧
    (∀ kind elems, kind < 2 → s.genAccepted rgen = false → exec (.elementTrain src tag kind drid rgen elems) s =
      .next (Claim.answered s s.mem (.ack tag src 0 (List.range elems.length) []))) ∧
    (s.genAccepted rgen = true → ∀ (x : TrainElem) (key kind : Nat) (sc : Option Nat), Claim.linesOk s key x.len sc → 0 < x.len →
      (Claim.inboundAt s src drid x.addr x.len .w key kind sc → (x.ty = 1 → sc = none) →
        (x.grade.isSome = true → sc.isSome = true → key % x.len = 0) →
        exec (.elementTrain src tag 0 drid rgen [x]) s =
          .next (Claim.answered s (Claim.putDatum x.ty key x.len sc x.val x.grade s.mem) (.ack tag src 1 [] [0]))) ∧
      (Claim.inboundAt s src drid x.addr x.len .a key kind sc → x.ty % 8 < 4 → x.len = 2 ^ (x.ty % 8) →
        exec (.elementTrain src tag 1 drid rgen [x]) s = .next (Claim.answered s
          (Claim.putInt key x.len sc ((Memory.readN s.mem key x.len + x.val) % 2 ^ (8 * x.len)) s.mem) (.ack tag src 1 [] [0])))) ∧
    (∀ x : TrainElem, s.genAccepted rgen = true → s.inbound src drid x.addr .w = none →
      exec (.elementTrain src tag 0 drid rgen [x]) s = .next (Claim.answered s s.mem (.ack tag src 0 [0] [0]))) ∧
    (s.genAccepted rgen = true → ∀ (addr n x y key kind : Nat) (sc : Option Nat), n ≠ 0 → Claim.linesOk s key n sc →
      (∀ k, sc = some k → s.lineOk k 2 = true) →
      (Claim.inboundAt s src drid addr n .r key kind sc → (x = 2 → sc = none) → Claim.sideReached s 4 sc → exec (.fabricRequest src tag drid rgen 0 addr n x y none) s =
        .next (Claim.answered s s.mem (.reply tag src (some (Memory.readN s.mem key n,
          if x = 0 then none else sc.map fun k => BitVec.ofNat 16 (Memory.readN s.mem k 2)))))) ∧
      (∀ op, Claim.inboundAt s src drid addr n .a key kind sc → op ≠ .fadd → key % n = 0 → n = amoSize (amoCode op n) →
        exec (.fabricRequest src tag drid rgen (1 + amoCode op n) addr n x y none) s = .next (Claim.answered s
          (match Claim.amoNew op n (Memory.readN s.mem key n) x y with
            | some z => Claim.putInt key n sc z s.mem
            | none => s.mem) (.reply tag src (some (Memory.readN s.mem key n, none)))))) ∧
    (let note := fun (x : Option (Nat × Option Grade)) (l : List Remote) =>
        l.map fun r => if r.tag = tag then { r with answer := some x } else r
     (∀ t answer, s.ownerOf tag = some t → s.strand? t.sn = some t →
       let told := fun (x : Option (Nat × Option Grade)) => { t with remote := note x t.remote }
       exec (.fabricReply tag answer) s = .next (s.setStrand (told answer)) ∧
       ∀ count, let t' := told (some (count, none))
         (Claim.ackOk (s.trainElems tag) count [] → exec (.trainAck tag count []) s = .next (s.setStrand t')) ∧
         ∀ i l x, Claim.ackOk (s.trainElems tag) count (i :: l) → (s.trainElems tag)[i]? = some x →
           exec (.trainAck tag count (i :: l)) s = .next (if t.live = true then
             ((s.setStrand t').fail t' 4 (BitVec.ofNat 64 x.va)).superTrap t' else s.setStrand t')) ∧
     (s.ownerOf tag = none → ∀ answer count refused,
       exec (.fabricReply tag answer) s = .next { s with binderRemote := note answer s.binderRemote } ∧
       (Claim.ackOk (s.trainElems tag) count refused →
         exec (.trainAck tag count refused) s = .next { s with binderRemote := note (some (count, none)) s.binderRemote })) ∧
     (∀ count refused, ¬ Claim.ackOk (s.trainElems tag) count refused → exec (.trainAck tag count refused) s = .next s))

/-- R217, R249, R250, R426: the exchange that mx.swap asked for gives each plane the bytes and the tag of the other; two equal deltas of a
replayed memory entry send hints for the distinct rows of the strip they predict, at most 32, which HINTS counts, and a hinted row closes
again; after 4,096 cycles a `wait` may complete. -/
def Obligations.CoreEvents : Prop :=
  ∀ (s : State),
    (∀ c, (s.coreOf c).swapDue = false → exec (.swapEffect c) s = .next s) ∧
    (∀ c, (s.coreOf c).swapDue = true → ∃ t, exec (.swapEffect c) s = .next t ∧
      (t.coreOf c).active = (s.coreOf c).shadow ∧ (t.coreOf c).shadow = (s.coreOf c).active ∧ (t.coreOf c).swapDue = false ∧
      (t.coreOf c).activeDirty = true ∧ (t.coreOf c).shadowDirty = true ∧ t.mem = s.mem ∧
      (s.onchip.wf = true → (∀ o, o < 147456 →
          Memory.read t.onchip (planeKey c 0 o) = Memory.read s.onchip (planeKey c 1 o) ∧
          Memory.read t.onchip (planeKey c 1 o) = Memory.read s.onchip (planeKey c 0 o)) ∧
        ∀ a, (∀ o, o < 147456 → a ≠ planeKey c 0 o ∧ a ≠ planeKey c 1 o) → Memory.read t.onchip a = Memory.read s.onchip a)) ∧
    (∀ (sn entry : Nat) (t : Strand) (w : InstrWord) (pc vl vstr b0 b1 b2 : Word) (acc : Acc) (addrs : Word → Word → Nat → List Nat),
      s.strand? sn = some t → t.seated = true → t.rpl.body[entry]? = some (w, pc) →
      SMap.getD t.rpl.bases entry [] = [vl, vstr, b0, b1, b2] → b0 - b1 = b1 - b2 → hintForm w = some (acc, addrs) →
      ∃ (u : State) (rows : List Nat), exec (.rowActivateHint sn entry) s = .next u ∧ rows.length ≤ 32 ∧ rows.Nodup ∧
        (∀ r ∈ rows, ∃ e a, e < vl.toNat ∧ a ∈ addrs (b0 + (b0 - b1)) vstr e ∧ (s.hintLine t acc a).map Config.dramRow = some r) ∧
        (∀ r e a, e < vl.toNat → a ∈ addrs (b0 + (b0 - b1)) vstr e → (s.hintLine t acc a).map Config.dramRow = some r →
          r ∈ rows ∨ rows.length = 32) ∧
        (u.coreOf t.core).hints = (s.coreOf t.core).hints + BitVec.ofNat 64 rows.length ∧ u.mem = s.mem) ∧
    (∀ c r, c < 512 → exec (.hintRowClose c r) s =
      .next (s.setCore c { s.coreOf c with hintRows := (s.coreOf c).hintRows.filter fun x => x ≠ r })) ∧
    (∀ sn t, s.strand? sn = some t → t.wait = .wakeOrResult → exec (.waitTimeout sn) s = .next (s.setStrand { t with waitDone := true }))

namespace Sys2Proof.Claim

/-! ### Engines at work (R284, R287, R288, R290–R317, R332, R440) -/

/-- Strands are kept in order of their numbers. -/
def inOrder (s : State) : Prop :=
  (s.others.map (·.1)).Pairwise (· < ·) ∧ (∀ p ∈ s.others, p.2.sn = p.1 ∧ (s.cur ≠ none → p.1 ≠ s.st.sn)) ∧
  (s.cur = none ∨ s.cur = some s.st.sn)
/-- A strand's FIFO holds a command for an engine, first of it c. -/
def offers (s : State) (u : EngineUnit) (t : Strand) (c : Command) : Prop :=
  t ∈ s.strands ∧ (t.fifo[u.sel]).running = none ∧ (t.fifo[u.sel]).cmds.head? = some c ∧ u.serves c = true
/-- The command at the head of a strand's FIFO has been begun and waits in its middle. -/
def isPaused (u : EngineUnit) (t : Strand) : Prop := (t.fifo[u.sel]).paused = true
/-- A command of an engine is running. -/
def busy (s : State) (u : EngineUnit) : Prop := ∃ t ∈ s.strands, ∃ c, (t.fifo[u.sel]).running = some c ∧ u.serves c = true

/-- The command comes next at an engine, its strand's turn being on, its die reachable and its header's bits [15:9] zero. -/
def atEngine (s : State) (u : EngineUnit) (c : Command) : Prop :=
  s.headOf u = some (s.st, c) ∧ s.cur = some s.st.sn ∧ s.st.live = true ∧ s.st.trains = [] ∧ s.st.remote = [] ∧ s.st.lines = [] ∧
  s.hostLeaves = [] ∧ (s.dies[u.die]).cut = false ∧ (c.w 0).toNat / 2 ^ 9 % 2 ^ 7 = 0
/-- The state in which a command's work begins: it has raised no flag. -/
def atWork (s : State) : State := { s with st := { s.st with engFlags := 0 } }
/-- The command's accesses have led from s to w and left nothing of the fabric to wait for. -/
def worked (s w : State) : Prop :=
  w.cur = s.cur ∧ w.st.sn = s.st.sn ∧ w.st.fifo = s.st.fifo ∧ w.st.sched = s.st.sched ∧ w.st.remote = [] ∧ w.st.trains = []
/-- Result element of a command (Table 16-1). -/
def result (c : Command) (status addr len fl : Nat) : Result :=
  { addr := wrap addr, info := wrap ((c.w 0).toNat / 2 ^ 16 % 2 ^ 16 * 2 ^ 48 + status * 2 ^ 40 + fl % 2 ^ 6 * 2 ^ 34 + len : Nat)
    quiet := (c.w 0).getLsbD 8 }
/-- The command has left the FIFO and its result stands in it; what its accesses did stays, and their lines have been counted, but those
that counted when it waited. -/
def postedFrom (w t : State) (u : EngineUnit) (r : Result) : Prop :=
  t.st.fifo = w.st.fifo.set u.sel { (w.st.fifo[u.sel]) with
    cmds := (w.st.fifo[u.sel]).cmds.tail, running := none, coll := none, results := (w.st.fifo[u.sel]).results ++ [r],
    paused := false, lines := [] } ∧
  t.mem = w.mem ∧ t.onchip = w.onchip ∧ t.meshes = w.meshes ∧ t.groups = w.groups ∧ t.contribs = w.contribs ∧ t.cores = w.cores ∧
  t.fabricOut = w.fabricOut ∧ t.st.regs = w.st.regs ∧ t.st.pc = w.st.pc ∧ t.st.ctl = w.st.ctl ∧
  (t.dies[u.die]).reqe = (w.dies[u.die]).reqe + BitVec.ofNat 64 (w.st.lines.filter fun k => ¬ k ∈ (w.st.fifo[u.sel]).lines).length

/-- What stays posted to the host when a command is over: its own walks do not. -/
def unasked (u : EngineUnit) (w : State) : List HostPost :=
  w.hostPosts.filter fun p => match p with
    | .walk who .. => who != (8 * (u.sel.val + 1) + 1) * 65536 + w.st.sn % 65536
    | _ => true
/-- The FIFOs once a command waits in its middle: its engine is kept to it, and the lines it has touched have counted. -/
def pausedAt (w : State) (f : Vector Fifo 8) (sel : Fin 8) : Vector Fifo 8 :=
  f.set sel { f[sel] with paused := true, lines := (f[sel]).lines ++ w.st.lines.filter fun k => !(f[sel]).lines.contains k }

/-- The strand whose turn it is has this command of the engine running, and nothing of it is outstanding; its die is reachable. -/
def commandRuns (s : State) (u : EngineUnit) (c : Command) : Prop :=
  (s.st.fifo[u.sel]).running = some c ∧ s.cur = some s.st.sn ∧ s.st.live = true ∧ s.st.trains = [] ∧ s.st.remote = [] ∧ s.st.lines = [] ∧
  s.hostLeaves = [] ∧ (s.dies[u.die]).cut = false ∧ (c.w 0).toNat / 2 ^ 9 % 2 ^ 7 = 0
/-- A command that was running has ended with a result. -/
def endedFrom (w t : State) (u : EngineUnit) (r : Result) : Prop :=
  t.st.fifo = w.st.fifo.set u.sel { (w.st.fifo[u.sel]) with
    running := none
    coll := none
    results := (w.st.fifo[u.sel]).results ++ [r]
    paused := false
    lines := [] } ∧
  t.mem = w.mem ∧ t.onchip = w.onchip ∧ t.meshes = w.meshes ∧ t.hostPosts = unasked u w ∧ t.st.regs = w.st.regs ∧ t.st.ctl = w.st.ctl

/-- An engine's event: the state in which it looks for its command, the engine, the commands that are its own, and what performing
one does. -/
structure EngineEvent where
  start : State
  unit : EngineUnit
  own : Strand → Command → Bool
  body : Strand → Command → Agent → M Progress
def copyEvent (s : State) (d e : Nat) (own : Command → Bool) (body : Strand → Command → Agent → M Progress) : Option EngineEvent :=
  some ⟨s, { sel := ⟨e % 4, by omega⟩, die := coreDie (d * 128), sect := none }, fun _ c => own c, body⟩
def topoEvent (s : State) (d n : Nat) (body : Strand → Command → Agent → M Progress) : Option EngineEvent :=
  some ⟨s.pruneMeshes, { sel := 4, die := coreDie (d * 128), sect := none }, fun t c => c.code == n && !s.pruneMeshes.meshBusy t c, body⟩
def unitEvent (s : State) (sel : Fin 8) (d : Nat) (own : Command → Bool) (body : Strand → Command → Agent → M Progress) : Option EngineEvent :=
  some ⟨s, { sel, die := coreDie (d * 128), sect := none }, fun _ c => own c, body⟩
def isPlane (c : Command) : Bool := c.code == 1 && (c.w 0).getLsbD 32
/-- The engine events; a code that names no command fails with the engine's first. -/
def engineEvent (s : State) : Instr → Option EngineEvent
  | .copy d e => copyEvent s d e (fun c => !isPlane c && (c.code == 1 || c.code == 0 || decide (5 < c.code))) copyBody
  | .planeLoad d e => copyEvent s d e isPlane planeBody
  | .convert d e => copyEvent s d e (fun c => c.code == 2) convertBody
  | .compact d e => copyEvent s d e (fun c => c.code == 3) compactBody
  | .remap d e => copyEvent s d e (fun c => c.code == 4) remapBody
  | .mxfp4 d e => copyEvent s d e (fun c => c.code == 5) mxfp4Body
  | .colour x => some ⟨s, { sel := 5, die := coreDie (x * 16), sect := some x }, fun _ _ => true, colourBody⟩
  | .topoCreate d => some ⟨s.pruneMeshes, { sel := 4, die := coreDie (d * 128), sect := none },
      fun _ c => c.code == 1 || c.code == 0 || decide (7 < c.code), createBody⟩
  | .adapt d => topoEvent s d 2 (if s.act.getLsbD 2 then fun _ c _ => topoPost d c else adaptBody)
  | .topoExport d => topoEvent s d 3 exportBody
  | .hold d => topoEvent s d 4 holdBody
  | .drop d => topoEvent s d 5 dropBody
  | .partition d => topoEvent s d 6 (if s.act.getLsbD 2 then fun _ c _ => topoPost d c else partitionBody)
  | .topoDestroy d => topoEvent s d 7 destroyBody
  | .collCreate d taken bad n => unitEvent s 6 d (fun c => c.code == 1 || c.code == 0 || decide (3 < c.code)) (collCreateBody taken bad n)
  | .collDestroy d => unitEvent s 6 d (fun c => c.code == 2) collDestroyBody
  | .memcoll d => unitEvent s 6 d (fun c => c.code == 3) memcollBody
  | .flush d => unitEvent s 7 d (fun c => c.code == 1) (flushBody (coreDie (d * 128)))
  | .query d => unitEvent s 7 d (fun c => c.code != 1) fun t c a => do
      cmdRule c (c.code == 2)
      queryBody t c a
  | _ => none

/-- No command that has waited for its peers can end: those of the collective engine do so before it takes another. -/
def noneOver (s : State) (u : EngineUnit) : Instr → Prop
  | .memcoll _ => ∀ x ∈ s.runningOf u, ∀ k, (x.1.fifo[u.sel]).coll = some k → s.collOver k = false
  | .collCreate .. => ∀ x ∈ s.runningOf u, s.created x.2 = false
  | _ => True

/-- An engine's place of a byte, in memory of this package; no train of its is gathered. -/
def agentAt (s : State) (a : Agent) (acc : Acc) (va key : Nat) (sc : Option Nat) : Prop :=
  s.st.trains = [] ∧ ∃ kind, agentLoc a acc va s = .ok (.mem key kind sc) s
/-- Full grade of one value of a conversion's source (Table 8-3). -/
def sourceGrade (k : CvKind) : Grade :=
  match k with
  | .fp f => if fmtGraded f then gradeWord f [fmtP f] else 0xFFFF
  | .int .. => 0xFFFF
/-- Grade of a value of a conversion's source: of its field of its unit's sidecar word, 0xFFFF being full grade of every format (R159). -/
def valueGrade (k : CvKind) (s : State) (va n : Nat) (ss : Option Nat) : Grade :=
  match k, ss with
  | .fp f, some key =>
    let g := BitVec.ofNat 16 (Memory.readN s.mem key 2)
    if fmtGraded f = false ∨ g = 0xFFFF then 0xFFFF else gradeWord f [gradeAt f g (va % 8 / n)]
  | k, _ => sourceGrade k

/-! The commands as sequences of accesses, in the order that the spec gives them. -/

/-- A byte offset from an address, modulo 2^64. -/
def shift (base : Nat) (off : Int) : Nat := (((base : Int) + off) % 2 ^ 64).toNat
/-- The rows of a command in ascending (z, y) order: their source and destination. -/
def rowPlaces (g : Geo) : List (Nat × Nat) :=
  (List.range g.z).flatMap fun z => (List.range g.y).map fun y => (shift g.src (z * g.szs + y * g.sys), shift g.dst (z * g.dzs + y * g.dys))
/-- n bytes in pieces that lie on one source page and in one destination unit, ascending: source, destination, bytes. -/
def pieces : Nat → Nat → Nat → Nat → List (Nat × Nat × Nat)
  | 0, _, _, _ => []
  | k + 1, src, dst, n =>
    if n = 0 then []
    else let c := min n (min (8 - dst % 8) (headLen src n)); (src, dst, c) :: pieces k (src + c) (dst + c) (n - c)
def movePieces (a : Agent) (f : Filled) (l : List (Nat × Nat × Nat)) : M Filled :=
  l.foldlM (fun f p => moveChunk a p.1 p.2.1 p.2.2 f) f
/-- The lowest destination byte written, and how far the highest lies from it, for rows of w bytes. -/
def written (g : Geo) (w : Nat) : Progress :=
  let y : Int := (g.y - 1) * g.dys
  let z : Int := (g.z - 1) * g.dzs
  .done { addr := shift g.dst (min 0 y + min 0 z), len := (max 0 y + max 0 z - (min 0 y + min 0 z) + w).toNat, flags := 0 }
/-- COPY (R290). -/
def copyWork (c : Command) (a : Agent) : M Progress := do
  let g := c.geo
  let _ ← movePieces a [] ((rowPlaces g).flatMap fun p => pieces g.x p.1 p.2 g.x)
  return written g g.x
/-- CONVERT (R293): its values in ascending order. -/
def convertWork (c : Command) (a : Agent) (st dt : CvTy) (r : Rnd) (sat : Bool) : M Progress := do
  let g := c.geo
  let values := (rowPlaces g).flatMap fun p => (List.range g.x).map fun x => (p.1 + x * cvBytes st, p.2 + x * cvBytes dt)
  let _ ← values.foldlM (fun acc p => convertValue a st dt r sat p.1 p.2 acc) []
  return written g (g.x * cvBytes dt)
/-- One segment of COMPACT (R294): its offset, then its elements; COUNTWIDTH at its count. -/
def segment (c : Command) (a : Agent) (w size start : Nat) (x : Nat × Filled) (i : Nat) : M (Nat × Filled) := do
  agentWrite a ((c.w 2).toNat + i * w) w x.1 .int
  let seg := shift (c.w 1).toNat (i * stride32 (c.w 4) 31 0)
  let n := (← agentRead a seg 8) % 2 ^ 32
  if (c.w 3).toNat % 2 ^ 32 < n ∨ 2 ^ (8 * w) ≤ x.1 + n then failWith 0x05 seg
  let f ← movePieces a x.2 (pieces (n * size) (seg + 8) (start + x.1 * size) (n * size))
  return (x.1 + n, f)
def compactWork (c : Command) (a : Agent) : M Progress := do
  let segs := (c.w 3).toNat / 2 ^ 32 % 2 ^ 16
  let size := 2 ^ ((c.w 0).toNat / 2 ^ 32 % 4)
  let w := if (c.w 0).getLsbD 34 then 4 else 2
  let head := ((segs + 1) * w + 7) / 8 * 8
  let x ← (List.range segs).foldlM (segment c a w size ((c.w 2).toNat + head)) (0, [])
  agentWrite a ((c.w 2).toNat + segs * w) w x.1 .int
  return .done { addr := (c.w 2).toNat, len := head + x.1 * size, flags := 0 }
/-- REMAP (R295, R311): the record, then the old indices in ascending order. -/
def remapWork (c : Command) (a : Agent) : M Progress := do
  let r ← agentWords a (c.w 1).toNat 4
  if !(addrOk (nth r 0 0) && addrOk (nth r 1 0)) then failWith 0x01 c.addr
  let size := 2 ^ ((c.w 0).toNat / 2 ^ 32 % 4)
  let new := (nth r 2 0).toNat / 2 ^ 32
  let _ ← (List.range ((nth r 2 0).toNat % 2 ^ 32)).foldlM (fun f i => do
    let m ← agentRead a ((nth r 1 0).toNat + 4 * i) 4
    if m = 2 ^ 32 - 1 then pure f
    else if new ≤ m then failWith 0x01 ((nth r 1 0).toNat + 4 * i)
    else movePieces a f (pieces size ((nth r 0 0).toNat + i * size) ((c.w 2).toNat + m * size) size)) []
  return .done { addr := (c.w 2).toNat, len := new * size, flags := 0 }
/-- One band of MXFP4 (R144, R145, R296): its rows are read, its slots written, then its band scale. -/
def bandWork (c : Command) (a : Agent) (n y b : Nat) : M Unit := do
  let rs := (List.range (min 64 (y - 64 * b))).map fun i => 64 * b + i
  let rows ← rs.mapM fun r => do return (r, ← readMxRow a c n r)
  let m := bandMax (rows.flatMap (·.2))
  for x in rows do writeMxRow a c m x.1 x.2
  agentWrite a ((c.w 2).toNat + y * (stride32 (c.w 4) 63 32).toNat + 2 * b) 2 (bandScale m) .int
def mxfp4Work (c : Command) (a : Agent) : M Progress := do
  let n := (c.w 3).toNat % 2 ^ 32
  let y := (c.w 3).toNat / 2 ^ 32 % 2 ^ 16
  let bands := (y + 63) / 64
  let _ ← (List.range bands).foldlM (fun _ b => bandWork c a n y b) ()
  return .done { addr := (c.w 2).toNat, len := y * (stride32 (c.w 4) 63 32).toNat + 2 * bands, flags := 0 }

/-! What the topology engine writes (R310 to R314, R317). -/

/-- The four arrays of EXPORT: bytes of an entry, and the entries. -/
def exportArrays (m : Mesh) (v : MVersion) : List (Nat × List Nat) :=
  let id := fun (c : MCell) i => nth c.verts i 0
  let hanging := hangingVerts m.dim (samePoint v.verts) v.cells
  [(8, v.cells.flatMap fun c => [id c 0 + id c 1 * 2 ^ 32, id c 2 + (if m.dim = 3 then id c 3 else 2 ^ 32 - 1) * 2 ^ 32,
      c.pred + c.level * 2 ^ 32 + c.child * 2 ^ 40, c.key]),
   (8, v.verts.zipIdx.flatMap fun (p, i) => p.map BitVec.toNat ++
      [(if v.cells.any fun c => c.verts.contains i then 0 else 1) + if hanging.contains (nth (samePoint v.verts) i 0) then 2 else 0]),
   (4, (List.range (v.cells.length + 1)).map fun c => (v.entries.filter fun w => decide (w.toNat / 2 ^ 40 < c)).length),
   (8, v.entries.map BitVec.toNat)]
/-- The weight of the cells before a cell in the order of key, level and id. -/
def weightBefore (cells : List MCell) (ws : List Nat) (i : Nat) : Nat :=
  let place := fun j => [(nth cells j noCell).key, (nth cells j noCell).level, j]
  (((List.range cells.length).filter fun j => lexLt (place j) (place i)).map fun j => nth ws j 0).foldl (· + ·) 0

/-- A result without a range. -/
def nothing : Progress := .done { addr := 0, len := 0, flags := 0 }

end Sys2Proof.Claim

/-- R284: an engine goes on with the command it has begun; else it takes next the command of the first FIFO, in ascending strand number, above the one it last served, wrapping to the
lowest; while it performs one it takes none, the collective engine apart (assumption log 19). -/
def Sys2Proof.Claim.EngineRotation : Prop :=
  ∀ (s : State) (u : EngineUnit), Claim.inOrder s →
    (∀ t c, s.headOf u = some (t, c) → Claim.offers s u t c ∧
      ((∃ t' c', Claim.offers s u t' c' ∧ Claim.isPaused u t') → Claim.isPaused u t) ∧
      ((∀ t' c', Claim.offers s u t' c' → ¬ Claim.isPaused u t') → ∀ t' c', Claim.offers s u t' c' →
        (s.lastOf u ≤ t'.sn → s.lastOf u ≤ t.sn ∧ t.sn ≤ t'.sn) ∧
        ((∀ t'' c'', Claim.offers s u t'' c'' → t''.sn < s.lastOf u) → t.sn ≤ t'.sn))) ∧
    (u.sel ≠ 6 → Claim.busy s u → s.headOf u = none) ∧
    (u.sel = 6 ∨ ¬ Claim.busy s u → (∃ t c, Claim.offers s u t c) → s.headOf u ≠ none)

/-- R283 to R286, R289: the engine FIFOs and the order in which an engine serves them. -/
def Obligations.EngineFifos : Prop := Sys2Proof.Claim.FifoInstructions ∧ Sys2Proof.Claim.EngineRotation

/-- R283, R284, R287, R288 with Tables 16-1, 16-3: an engine performs the command that comes next at it: when its accesses succeed, the result
carries OK, its named range and the flags it raised; when one fails, the status and the address of the failure, LEN 0 and the flags raised by
then; the result's TAG and QUIET are the command's. An ADAPT or PARTITION that the host performs, a plane load with a follow-on and a MEMCOLL
run on without a result. A CREATE waits until every member package
holds the record. A command that waits for another party leaves what it has written (assumption log 53, 95), stays at the head of its
FIFO, and keeps its engine. With no command of its own at
its head an engine does nothing. -/
def Obligations.EngineCommands : Prop :=
  ∀ (i : Instr) (s : State) (v : Claim.EngineEvent), Claim.engineEvent s i = some v →
    (v.start.headOf v.unit = none → Claim.noneOver v.start v.unit i → exec i s = .next v.start) ∧
    (∀ t c, v.start.headOf v.unit = some (t, c) → v.own t c = false → Claim.noneOver v.start v.unit i → exec i s = .next v.start) ∧
    (∀ c, Claim.atEngine v.start v.unit c → v.own v.start.st c = true →
      Claim.noneOver v.start v.unit i →
      let run := v.body v.start.st c (c.agent v.start.st v.unit.sel) (Claim.atWork v.start)
      (∀ d w, run = .ok (.done d) w → Claim.worked v.start w → d.len < 2 ^ 34 →
        ∃ t, exec i s = .next t ∧ Claim.postedFrom w t v.unit (Claim.result c 0 d.addr d.len w.st.engFlags.toNat)) ∧
      (∀ q w, run = .error (.trap q) w → Claim.worked v.start w → q.code ≠ 5 →
        ∃ t, exec i s = .next t ∧ Claim.postedFrom w t v.unit (Claim.result c (statusOf q.code) q.val.toNat 0 w.st.engFlags.toNat)) ∧
      (∀ r w, run = .error (.wait r) w → ∃ t, exec i s = .next t ∧ t.st.fifo = Claim.pausedAt w v.start.st.fifo v.unit.sel ∧ t.st.regs = v.start.st.regs ∧
        t.mem = w.mem ∧ t.onchip = w.onchip ∧ t.cores = w.cores ∧ t.fabricOut = w.fabricOut ∧ t.hostPosts = w.hostPosts ∧
        t.meshes = v.start.meshes ∧ t.groups = v.start.groups) ∧
      (∀ k w, run = .ok (.begun k) w → Claim.worked v.start w →
        ∃ t, exec i s = .next t ∧ (t.st.fifo[v.unit.sel]).running = some c ∧ (t.st.fifo[v.unit.sel]).coll = k ∧
          (t.st.fifo[v.unit.sel]).cmds = (w.st.fifo[v.unit.sel]).cmds.tail ∧ t.mem = w.mem ∧ t.onchip = w.onchip ∧
          (t.st.fifo[v.unit.sel]).paused = false ∧ t.contribs = w.contribs ∧ t.cores = w.cores ∧ t.groups = w.groups ∧
          t.fabricOut = w.fabricOut ∧ t.hostPosts = Claim.unasked v.unit w))

/-- R27, R292, R332, R409, R410, R455, R466: the array takes no follow-on while issue on its core is held or its die is at the thermal stop;
one that reaches its array ends its command with the result of what it did there, and the core is free of
it (assumption log 53); the host's result of a posted ADAPT or PARTITION lets the topology engine perform the command, with every check of its own, and takes the
post away; a MEMCOLL whose collective is over ends with its result, and so does a CREATE whose group every member package holds (assumption
log 19). -/
def Obligations.CommandsThatWaited : Prop :=
  ∀ (s : State) (n : Nat) (c : Command),
    (s.arrayHeld n = true → exec (.followOn n) s = .next s) ∧
    (s.arrayHeld n = ((s.dies[coreDie n]).hot || s.stackHold (coreDie n) || (s.coreOf n).holdMx || (s.coreOf n).holdVec)) ∧
    (∀ e : Nat, e < 4 → s.arrayHeld n = false →
      let u : EngineUnit := { sel := ⟨e % 4, by omega⟩, die := coreDie (n / 128 * 128), sect := none }
      (s.coreOf n).followOn = some (s.st.sn, e) → Claim.commandRuns s u c →
      let run := followBody c (c.agent s.st u.sel) (Claim.atWork s)
      (∀ d w, run = .ok (.done d) w → Claim.worked s w → d.len < 2 ^ 34 →
        ∃ t, exec (.followOn n) s = .next t ∧ Claim.endedFrom w t u (Claim.result c 0 d.addr d.len w.st.engFlags.toNat) ∧
          (t.coreOf n).followOn = none ∧ (t.coreOf n).reserved = none ∧ (t.coreOf n).tiles = (w.coreOf n).tiles) ∧
      (∀ q w, run = .error (.trap q) w → Claim.worked s w → q.code ≠ 5 →
        ∃ t, exec (.followOn n) s = .next t ∧
          Claim.endedFrom w t u (Claim.result c (statusOf q.code) q.val.toNat 0 w.st.engFlags.toNat) ∧
          (t.coreOf n).followOn = none ∧ (t.coreOf n).reserved = none ∧ (t.coreOf n).tiles = (w.coreOf n).tiles) ∧
      (∀ r w, run = .error (.wait r) w → ∃ t, exec (.followOn n) s = .next t ∧ t.st.fifo = Claim.pausedAt w s.st.fifo u.sel ∧ t.cores = s.cores ∧
        t.mem = s.mem ∧ t.onchip = s.onchip)) ∧
    (n < 4 →
      let u : EngineUnit := { sel := 4, die := coreDie (n * 128), sect := none }
      let z := s.pruneMeshes
      let s' := { z with hostPosts := z.hostPosts.filter fun p => match p with
        | .topo d _ => decide (d ≠ n)
        | _ => true }
      z.runningOf u = [(s'.st, c)] → Claim.commandRuns s' u c →
      let run := (if c.code = 2 then adaptBody else partitionBody) s'.st c (c.agent s'.st 4) (Claim.atWork s')
      (∀ d w, run = .ok (.done d) w → Claim.worked s' w → d.len < 2 ^ 34 →
        ∃ t, exec (.hostTopologyResult n) s = .next t ∧ Claim.endedFrom w t u (Claim.result c 0 d.addr d.len w.st.engFlags.toNat)) ∧
      (∀ q w, run = .error (.trap q) w → Claim.worked s' w → q.code ≠ 5 →
        ∃ t, exec (.hostTopologyResult n) s = .next t ∧
          Claim.endedFrom w t u (Claim.result c (statusOf q.code) q.val.toNat 0 w.st.engFlags.toNat))) ∧
    (n < 4 → ∀ k,
      let u : EngineUnit := { sel := 6, die := coreDie (n * 128), sect := none }
      s.runningOf u = [(s.st, c)] → (s.st.fifo[u.sel]).coll = some k → s.collOver k = true → Claim.commandRuns s u c →
      let run := memcollEnd k s.st c (c.agent s.st 6) (Claim.atWork s)
      (∀ d w, run = .ok (.done d) w → Claim.worked s w → d.len < 2 ^ 34 →
        ∃ t, exec (.memcoll n) s = .next t ∧ Claim.endedFrom w t u (Claim.result c 0 d.addr d.len w.st.engFlags.toNat)) ∧
      (∀ q w, run = .error (.trap q) w → Claim.worked s w → q.code ≠ 5 →
        ∃ t, exec (.memcoll n) s = .next t ∧
          Claim.endedFrom w t u (Claim.result c (statusOf q.code) q.val.toNat 0 w.st.engFlags.toNat))) ∧
    (n < 4 → ∀ taken bad elsewhere,
      let u : EngineUnit := { sel := 6, die := coreDie (n * 128), sect := none }
      s.runningOf u = [(s.st, c)] → c.code = 1 →
      (∀ g, s.group? ((c.w 2).toNat % 2 ^ 32) = some g → g.holders = []) → Claim.commandRuns s u c →
      ∃ t, exec (.collCreate n taken bad elsewhere) s = .next t ∧ Claim.endedFrom s t u (Claim.result c 0 0 0 0))

/-- R290 to R296, R298: what the copy engines and the colouring unit do for one command: COPY moves its bytes in the order of its rows,
each piece into one destination unit, a unit filled whole from a whole unit taking its sidecar word; X × Y × Z = 0 moves nothing; a plane load needs the core's array and waits while another command holds the
shadow plane; it reserves the plane, writes its columns and its tag, and frees it, or with FOLLOW keeps it and makes the follow-on due; CONVERT
converts its values in order, each with its grade, and CONVERT of X × Y × Z = 0 none; COMPACT writes each segment's offset, then its
elements, and fails where a count or an offset is too great; REMAP copies the element of each old index that the map names; MXFP4 writes
band after band, its slots before its scale;
colour(i) counts the earlier equal indices. -/
def Sys2Proof.Claim.CopyCommands : Prop :=
  ∀ (t : Strand) (c : Command) (a : Agent) (s : State),
    let g := c.geo
    (copyOk c = true → c.code = 1 → g.x * g.y * g.z = 0 → copyBody t c a s = .ok (.done { addr := g.dst, len := 0, flags := 0 }) s) ∧
    (∀ ks ss kd sd, copyOk c = true → c.code = 1 → g.y = 1 → g.z = 1 → 0 < g.x → g.dst % 8 + g.x ≤ 8 → headLen g.src g.x = g.x →
      Claim.agentAt s a .load g.src ks ss → Claim.agentAt s a .store g.dst kd sd →
      Claim.linesOk s ks g.x none → Claim.linesOk s kd g.x sd → (∀ k, ss = some k → s.lineOk k 2 = true) → Claim.sideReached s a.die ss →
      kd % 8 = g.dst % 8 →
      ∃ w, copyBody t c a s = .ok (.done { addr := g.dst, len := g.x, flags := 0 }) w ∧
        w.mem = Claim.putDatum 2 kd g.x sd (Memory.readN s.mem ks g.x)
          (if g.x = 8 ∧ g.src % 8 = 0 then ss.map fun k => BitVec.ofNat 16 (Memory.readN s.mem k 2) else none) s.mem) ∧
    (copyOk c = true → c.code = 1 → g.x * g.y * g.z ≠ 0 → copyBody t c a s = Claim.copyWork c a s) ∧
    (∀ src dst n f ks ss kd sd, 0 < n → dst % 8 + n ≤ 8 → headLen src n = n →
      Claim.agentAt s a .load src ks ss → Claim.agentAt s a .store dst kd sd →
      Claim.linesOk s ks n none → Claim.linesOk s kd n sd → (∀ k, ss = some k → s.lineOk k 2 = true) → Claim.sideReached s a.die ss →
      let old := match SMap.find f (dst / 8) with
        | some (u, k) => if u = src / 8 then k else 0
        | none => 0
      let mask := if src % 8 = dst % 8 then old ||| (2 ^ n - 1) * 2 ^ (dst % 8) else 0
      ∃ w, moveChunk a src dst n f s = .ok (SMap.put f (dst / 8) (src / 8, mask)) w ∧
        w.mem = Claim.putDatum 2 kd n sd (Memory.readN s.mem ks n)
          (if mask = 255 then ss.map fun k => BitVec.ofNat 16 (Memory.readN s.mem k 2) else none) s.mem) ∧
    (planeOk c = true → (s.coreOf c.core).reserved ≠ some (t.sn, a.op / 8 - 1) →
      ((s.coreOf c.core).owner ≠ c.slot →
        planeBody t c a s = .error (.trap { code := 256 + 6, val := BitVec.ofNat 64 c.addr, elem := 0 }) s) ∧
      ((s.coreOf c.core).owner = c.slot → (s.coreOf c.core).reserved ≠ none → planeBody t c a s = .error (.wait .plane) s)) ∧
    (∀ xs w, planeOk c = true → (s.coreOf c.core).owner = c.slot → (s.coreOf c.core).reserved = none → s.planeLoading c.core = false →
      readColumns a g ((s.settleSwap c.core).mapCore c.core fun k => { k with reserved := some (t.sn, a.op / 8 - 1) }) = .ok xs w →
      ∃ p u, planeBody t c a s = .ok p u ∧
        (u.coreOf c.core).shadow = { valid := true, fmt := c.pfmt, n := 64
                                     sw := .replicate 64 (if c.pfmt = 4 then BitVec.ofNat 16 ((c.w 0).toNat / 2 ^ 48) else 0x3F80) } ∧
        u.onchip = xs.foldl (fun m x => Memory.writeN m (planeKey c.core 1 x.1) 48 x.2) w.onchip ∧
        ((c.w 0).getLsbD 33 = false → p = Claim.nothing ∧ (u.coreOf c.core).reserved = none) ∧
        ((c.w 0).getLsbD 33 = true → p = .begun none ∧ (u.coreOf c.core).reserved = (w.coreOf c.core).reserved ∧
          (u.coreOf c.core).followOn = some (t.sn, a.op / 8 - 1))) ∧
    (∀ w q, planeOk c = true → (s.coreOf c.core).owner = c.slot → (s.coreOf c.core).reserved = none → s.planeLoading c.core = false →
      readColumns a g ((s.settleSwap c.core).mapCore c.core fun k => { k with reserved := some (t.sn, a.op / 8 - 1) }) =
        .error (.trap q) w →
      ∃ u, planeBody t c a s = .error (.trap q) u ∧ (u.coreOf c.core).shadow.valid = false ∧ (u.coreOf c.core).reserved = none) ∧
    (∀ st dt r sat ks kd, convertKind c = some (st, dt, r, sat) → g.x = 1 → g.y = 1 → g.z = 1 →
      headLen g.src (cvBytes st) = cvBytes st → headLen g.dst (cvBytes dt) = cvBytes dt → g.src % cvBytes st = 0 → g.dst % cvBytes dt = 0 →
      Claim.agentAt s a .load g.src ks none → Claim.agentAt s a .store g.dst kd none →
      Claim.linesOk s ks (cvBytes st) none → Claim.linesOk s kd (cvBytes dt) none →
      let o := convertOne (cvKind st) (cvKind dt) r sat
        { val := BitVec.ofNat 64 (Memory.readN s.mem ks (cvBytes st)), grade := Claim.sourceGrade (cvKind st) }
      ∃ w, convertBody t c a s = .ok (.done { addr := g.dst, len := cvBytes dt, flags := 0 }) w ∧
        w.mem = Memory.writeN s.mem kd (cvBytes dt) o.1 ∧ w.st.engFlags = s.st.engFlags ||| o.2.2) ∧
    (∀ st dt r sat, convertKind c = some (st, dt, r, sat) →
      (g.x * g.y * g.z = 0 → convertBody t c a s = .ok (.done { addr := g.dst, len := 0, flags := 0 }) s) ∧
      (g.x * g.y * g.z ≠ 0 → convertBody t c a s = Claim.convertWork c a st dt r sat s)) ∧
    (convertKind c = none → convertBody t c a s = .error (.trap { code := 256 + 1, val := BitVec.ofNat 64 c.addr, elem := 0 }) s) ∧
    (∀ st dt r sat va to_ acc ks ss kd sd, headLen va (cvBytes st) = cvBytes st → headLen to_ (cvBytes dt) = cvBytes dt →
      va % cvBytes st = 0 → to_ % cvBytes dt = 0 → Claim.agentAt s a .load va ks ss → Claim.agentAt s a .store to_ kd sd →
      Claim.linesOk s ks (cvBytes st) none → Claim.linesOk s kd (cvBytes dt) sd → (∀ k, ss = some k → s.lineOk k 2 = true) →
      Claim.sideReached s a.die ss →
      let o := convertOne (cvKind st) (cvKind dt) r sat
        { val := BitVec.ofNat 64 (Memory.readN s.mem ks (cvBytes st)), grade := Claim.valueGrade (cvKind st) s va (cvBytes st) ss }
      let graded := match cvKind dt with | .fp f => if fmtGraded f then some f else none | .int .. => none
      let grades := fun f => listSet ((SMap.find acc (to_ / 8)).getD (List.replicate (fmtVals f) (fmtP f))) (to_ % 8 / cvBytes dt) o.2.1
      ∃ w, convertValue a st dt r sat va to_ acc s = .ok (match graded with
          | some f => SMap.put acc (to_ / 8) (grades f)
          | none => acc) w ∧
        w.mem = Claim.putDatum 2 kd (cvBytes dt) sd o.1 (graded.map fun f => gradeWord f (grades f)) s.mem ∧
        w.st.engFlags = s.st.engFlags ||| o.2.2) ∧
    (compactOk c = true → compactBody t c a s = Claim.compactWork c a s) ∧
    (remapCmdOk c = true → remapBody t c a s = Claim.remapWork c a s) ∧
    ((c.w 0).toNat / 2 ^ 32 = 0 → addrOk (c.w 1) = true → addrOk (c.w 2) = true → addrOk (c.w 5) = true → c.w 6 = 0 → c.w 7 = 0 →
      (c.w 3).toNat / 2 ^ 48 = 0 → 1 ≤ (c.w 3).toNat % 2 ^ 32 → (c.w 3).toNat % 2 ^ 32 ≤ 65535 →
      (24 * ((c.w 3).toNat % 2 ^ 32 : Nat) : Int) ≤ stride32 (c.w 4) 63 32 → (c.w 3).toNat / 2 ^ 32 ≠ 0 →
      mxfp4Body t c a s = Claim.mxfp4Work c a s) ∧
    (∀ w, compactOk c = true → (c.w 3).toNat / 2 ^ 32 = 0 →
      agentWrite a g.dst (if (c.w 0).getLsbD 34 then 4 else 2) 0 .int s = .ok () w →
      compactBody t c a s = .ok (.done { addr := g.dst, len := 8, flags := 0 }) w) ∧
    (∀ r w, remapCmdOk c = true → agentWords a g.src 4 s = .ok r w → addrOk (nth r 0 0) = true → addrOk (nth r 1 0) = true → (nth r 2 0).toNat % 2 ^ 32 = 0 →
      remapBody t c a s = .ok (.done { addr := g.dst, len := (nth r 2 0).toNat / 2 ^ 32 * 2 ^ ((c.w 0).toNat / 2 ^ 32 % 4), flags := 0 }) w) ∧
    ((c.w 0).toNat / 2 ^ 32 = 0 → addrOk (c.w 1) = true → addrOk (c.w 2) = true → addrOk (c.w 5) = true → c.w 6 = 0 → c.w 7 = 0 →
      (c.w 3).toNat / 2 ^ 32 = 0 → 1 ≤ (c.w 3).toNat % 2 ^ 32 → (c.w 3).toNat % 2 ^ 32 ≤ 65535 →
      (24 * ((c.w 3).toNat % 2 ^ 32 : Nat) : Int) ≤ stride32 (c.w 4) 63 32 →
      mxfp4Body t c a s = .ok (.done { addr := g.dst, len := 0, flags := 0 }) s) ∧
    (∀ xs i x, xs[i]? = some x → (colours [] xs)[i]? = some ((xs.take i).filter fun y => y = x).length)

/-- R332, R440, R300 to R304, R307 to R317, R455: HOLD and DROP move the hold count of a retained version, DESTROY removes a mesh that no stream is bound to,
EXPORT writes the arrays that have an address, and none of no array; a CREATE of a mesh that passes its
checks makes version 1 under the lowest free handle; ADAPT makes the new version current, with every mark below MAXLVL refined and the
cells in their order, or fails and leaves the mesh; PARTITION writes the owners by weight, then the jobs; CREATE of a group of this package's strands makes its record, GEN 1; DESTROY removes it and makes its handles
stale; FLUSH completes when no image of the partition stands in the die's shadow store only; QUERY stores the state word of a strand of
the partition. -/
def Sys2Proof.Claim.TableCommands : Prop :=
  ∀ (t : Strand) (c : Command) (a : Agent) (s : State),
    (∀ m v, holdRule c = true → meshOf c a s = .ok m s → versionOf c m ((c.w 1).toNat % 2 ^ 32) s = .ok v s →
      let put := fun (n : Nat) => s.setMesh { m with versions := m.versions.map fun x => if x.num = v.num then { x with holds := n } else x }
      (v.holds < 65535 → holdBody t c a s = .ok Claim.nothing (put (v.holds + 1))) ∧
      (0 < v.holds → dropBody t c a s = .ok Claim.nothing (put (v.holds - 1)).pruneMeshes)) ∧
    (∀ m, (c.w 0).toNat / 2 ^ 48 = 0 → (∀ x ∈ c.dw.drop 1, x = 0) → meshOf c a s = .ok m s →
      (∀ v ∈ m.versions, s.boundTo m.partn m.handle v.num = false) →
      destroyBody t c a s = .ok Claim.nothing { s with meshes := s.meshes.filter fun x => ¬ (x.partn = m.partn ∧ x.handle = m.handle) }) ∧
    (∀ m v, (c.w 0).toNat / 2 ^ 48 = 0 → (c.w 1).toNat / 2 ^ 32 = 0 → c.dw = [c.w 0, c.w 1, 0, 0, 0, 0, 0, 0] → meshOf c a s = .ok m s →
      versionOf c m ((c.w 1).toNat % 2 ^ 32) s = .ok v s → exportBody t c a s = .ok Claim.nothing s) ∧
    (∀ m v, (c.w 0).toNat / 2 ^ 48 = 0 → (c.w 1).toNat / 2 ^ 32 = 0 → c.dw.length = 8 → c.w 6 = 0 → c.w 7 = 0 →
      (∀ x ∈ [c.w 2, c.w 3, c.w 4, c.w 5], addrOk x = true ∧ x.toNat % 8 = 0) → meshOf c a s = .ok m s → m.dim = 2 ∨ m.dim = 3 →
      versionOf c m ((c.w 1).toNat % 2 ^ 32) s = .ok v s →
      let todo := ([c.w 2, c.w 3, c.w 4, c.w 5].zip (Claim.exportArrays m v)).filter fun x => x.1 != 0
      ∀ w, todo.forM (fun x => writeList a x.2.1 x.1.toNat x.2.2) s = .ok () w →
        exportBody t c a s = .ok (areaRange (todo.map fun x => (x.1.toNat, x.2.1 * x.2.2.length))) w) ∧
    (∀ w u1 u2 u3 u4 u5 xyz ids h, c.code = 1 → (c.w 0).toNat / 2 ^ 32 = 0 → addrOk (c.w 1) = true → (c.w 1).toNat % 128 = 0 →
      (∀ x ∈ c.dw.drop 2, x = 0) → agentWords a (c.w 1).toNat 16 s = .ok w u1 →
      let d := fun i => nth w i 0
      let dim := (d 0).toNat % 16
      let nv := (d 1).toNat % 2 ^ 32
      let nc := (d 1).toNat / 2 ^ 32
      let bad := fun (n : Nat) (u : State) => createBody t c a s = .error (.trap { code := 256 + n, val := BitVec.ofNat 64 c.addr, elem := 0 }) u
      let taken := fun h => ∃ m ∈ u1.meshes, m.partn = a.partn ∧ m.handle = h
      (createFields w = false → bad 0x01 u1) ∧
      (createFields w = true → nv < 3 ∨ 2 ^ 24 ≤ nv ∨ nc < 1 ∨ 2 ^ 24 ≤ nc ∨ (∀ i, 1 ≤ i → i ≤ 64 → taken i) → bad 0x14 u1) ∧
      (createFields w = true → 3 ≤ nv → nv < 2 ^ 24 → 1 ≤ nc → nc < 2 ^ 24 → 1 ≤ h → h ≤ 64 → ¬ taken h → (∀ i, 1 ≤ i → i < h → taken i) →
        agentWords a (d 2).toNat (3 * nv) u1 = .ok xyz u2 → readList a 4 (d 3).toNat (4 * nc) u2 = .ok ids u3 →
        let verts := (List.range nv).map fun i => [nth xyz (3 * i) 0, nth xyz (3 * i + 1) 0, if dim = 3 then nth xyz (3 * i + 2) 0 else 0]
        let cells := (List.range nc).map fun i => (List.range 4).map fun k => nth ids (4 * i + k) 0
        let size := 4096 + 64 * nc + 32 * nv
        let geometry := geometryOk dim nv [d 8, d 9, d 10] [d 11, d 12, d 13] verts cells
        (geometry = false → bad 0x13 u3) ∧
        (geometry = true → (d 5).toNat < size → bad 0x11 u3) ∧
        (geometry = true → size ≤ (d 5).toNat → fillArena a (d 4).toNat (size / 8) u3 = .ok () u4 →
          agentWrite a ((c.w 1).toNat + 120) 8 h .int u4 = .ok () u5 →
          ∃ m v, createBody t c a s = .ok (.done { addr := (c.w 1).toNat + 120, len := 8, flags := 0 }) { u5 with meshes := u5.meshes ++ [m] } ∧
            m.handle = h ∧ m.partn = a.partn ∧ m.region = a.region ∧ m.dim = dim ∧ m.current = 1 ∧ m.versions = [v] ∧
            v.num = 1 ∧ v.holds = 0 ∧ v.verts = verts ∧ v.cells.length = nc ∧
            ∀ (i : Nat) x, v.cells[i]? = some x → x.verts = (nth cells i []).take (dim + 1) ∧ x.level = 0 ∧ x.pred = i ∧ x.child = 255))) ∧
    (∀ m b marks fields u1 u2, adaptRule c = true → meshOf c a s = .ok m s → versionOf c m ((c.w 1).toNat % 2 ^ 32) s = .ok b s →
      let bad := fun (n : Nat) (u : State) => adaptBody t c a s = .error (.trap { code := 256 + n, val := BitVec.ofNat 64 c.addr, elem := 0 }) u
      (b.num ≠ m.current → bad 0x10 s) ∧
      (b.num = m.current → readMarks a b.cells.length (c.w 2).toNat ((c.w 3).toNat % 2 ^ 32) s = .ok marks u1 →
        agentWords a (c.w 4).toNat ((c.w 3).toNat / 2 ^ 32 % 2 ^ 8) u1 = .ok fields u2 →
        (adaptMesh m b marks = none → bad 0x14 u2) ∧
        (∀ x, adaptMesh m b marks = some x →
          let kept := m.versions.filter (fun v => v.holds != 0 || u2.boundTo m.partn m.handle v.num) ++ [x.version]
          let used := (kept.map fun v => 4096 + 64 * v.cells.length + 32 * v.verts.length).foldl (· + ·) 0
          let jobs := fields.flatMap fun f => [f.toNat, (c.w 6).toNat, b.cells.length + x.version.cells.length * 2 ^ 32,
            x.version.num + m.handle * 2 ^ 32]
          (m.asize < used → bad 0x11 u2) ∧
          (∀ u3 u4 u5 u6, used ≤ m.asize → fillArena a m.arena (used / 8) u2 = .ok () u3 →
            writeList a 8 (c.w 5).toNat jobs u3 = .ok () u4 → writeList a 4 (c.w 6).toNat x.map u4 = .ok () u5 →
            writeList a 4 (c.w 7).toNat x.report u5 = .ok () u6 →
            ∃ p, adaptBody t c a s = .ok p (u6.setMesh { m with current := x.version.num, versions := kept }))))) ∧
    (∀ m b marks x, adaptMesh m b marks = some x → x.version.num = b.num + 1 ∧ x.map.length = b.cells.length ∧
      (∀ i, i < b.cells.length → (i, 1) ∈ marks → (nth b.cells i noCell).level < m.maxLvl → ∃ g ∈ x.refined, g.1 = i) ∧
      (x.version.cells.Pairwise fun p q =>
        lexLt [q.key, q.level, q.pred, if q.child = 255 then 0 else q.child] [p.key, p.level, p.pred, if p.child = 255 then 0 else p.child] = false)) ∧
    (∀ cells ws p i, ws.length = cells.length → i < cells.length →
      let total := ws.foldl (· + ·) 0
      (partOwners p cells ws)[i]? = some (if total = 0 then 0 else min (p - 1) (p * Claim.weightBefore cells ws i / total))) ∧
    (∀ m v ws old u1 u2, (c.w 0).toNat / 2 ^ 48 = 0 → (c.w 1).toNat / 2 ^ 48 = 0 → (∀ x ∈ [c.w 2, c.w 3, c.w 4, c.w 5], addrOk x = true) →
      (c.w 6).toNat / 2 ^ 32 = 0 → c.w 7 = 0 → meshOf c a s = .ok m s → versionOf c m ((c.w 1).toNat % 2 ^ 32) s = .ok v s →
      let p := (c.w 1).toNat / 2 ^ 32 % 2 ^ 16
      let n := v.cells.length
      let bad := fun (k : Nat) (u : State) => partitionBody t c a s = .error (.trap { code := 256 + k, val := BitVec.ofNat 64 c.addr, elem := 0 }) u
      1 ≤ p → p ≤ 4096 →
      (if c.w 2 = 0 then ws = List.replicate n 1 ∧ u1 = s else readList a 4 (c.w 2).toNat n s = .ok ws u1) →
      readList a 2 (c.w 3).toNat n u1 = .ok old u2 →
      ((∃ o ∈ old, p ≤ o) → bad 0x01 u2) ∧
      (∀ u3, (∀ o ∈ old, o < p) → writeList a 2 (c.w 4).toNat (partOwners p v.cells ws) u2 = .ok () u3 →
        let jobs := partJobs v.entries old (partOwners p v.cells ws)
        let size := 16 + 32 * jobs.length + (jobs.map fun j => (4 * j.2.2.2.length + 7) / 8 * 8).foldl (· + ·) 0
        ((c.w 6).toNat < size → bad 0x14 u3) ∧
        (∀ u4 u5, size ≤ (c.w 6).toNat →
          writeList a 8 (c.w 5).toNat ([jobs.length, 0] ++ jobRecords ((c.w 5).toNat + 16 + 32 * jobs.length) jobs) u3 = .ok () u4 →
          writeList a 4 ((c.w 5).toNat + 16 + 32 * jobs.length)
            (jobs.flatMap fun j => j.2.2.2 ++ List.replicate (j.2.2.2.length % 2) 0) u4 = .ok () u5 →
          partitionBody t c a s = .ok (areaRange [((c.w 4).toNat, 2 * n), ((c.w 5).toNat, size)]) u5))) ∧
    (∀ bad n mids w, c.code = 1 → (c.w 0).toNat / 2 ^ 32 = 0 → addrOk (c.w 1) = true →
      let gid := (c.w 2).toNat % 2 ^ 32
      let size := (c.w 2).toNat / 2 ^ 32
      (∀ x ∈ c.dw.drop 4, x = 0) → gid ≠ 0 → 1 ≤ size → size ≤ 4096 → (c.w 3).toNat % 2 ^ 16 < size → (c.w 3).toNat / 2 ^ 21 = 0 →
      (upTo size).mapM (fun i => agentRead a ((c.w 1).toNat + 4 * i) 4) s = .ok mids w → mids.length = size → mids.Nodup →
      (∀ m ∈ mids, m / 2 ^ 16 = w.handle.toNat ∧ ∃ u, w.strand? (m % 2 ^ 16) = some u ∧ u.live = true ∧
        regionDrid (w.regionRec u.region) = regionDrid (w.regionRec a.region)) →
      (∀ g ∈ w.groups, g.gid ≠ gid) → (w.groups.filter fun g => g.region == regionDrid (w.regionRec a.region) && g.phase != 3).length + n < 1024 →
      ∃ g v, collCreateBody false bad n t c a s = .ok Claim.nothing v ∧ v.groups = w.groups ++ [g] ∧
        { v with groups := w.groups, st := w.st, others := w.others, contribs := w.contribs } = w ∧
        v.contribs = w.contribs.filter (fun x => x.gid != gid) ∧ g.settled = true ∧ g.holders = [] ∧
        (∀ m ∈ mids, ∀ x, v.strand? (m % 2 ^ 16) = some x → SMap.find x.memberOf gid = some 1) ∧
        g.gid = gid ∧ g.region = regionDrid (w.regionRec a.region) ∧ g.gen = 1 ∧ g.root = (c.w 3).toNat % 2 ^ 16 ∧
        g.k = (c.w 3).toNat / 2 ^ 16 % 2 ^ 5 ∧ g.phase = 0 ∧ g.members.Pairwise (· < ·) ∧ ∀ m, m ∈ g.members ↔ m ∈ mids) ∧
    (∀ g, (c.w 0).toNat / 2 ^ 32 = 0 → (c.w 1).toNat = g.gid → g.gid < 2 ^ 32 → (∀ x ∈ c.dw.drop 2, x = 0) → s.group? g.gid = some g → g.phase ≠ 3 →
      g.region = regionDrid (s.regionRec a.region) → (∀ m ∈ g.members, m / 2 ^ 16 = s.handle.toNat) →
      ∃ w, collDestroyBody t c a s = .ok Claim.nothing w ∧ w.group? g.gid = none ∧ (∀ x, x ≠ g.gid → w.group? x = s.group? x) ∧
        (∀ (j : Fin 8) h, s.st.q[j] = some h → h.gid = g.gid → h.gen < 2 ^ 32 →
          w.st.q[j] = some { h with gen := (SMap.find s.st.memberOf g.gid).getD h.gen + 2 ^ 32 })) ∧
    (∀ die : DieNo, restZero c 1 = true →
      (∀ u ∈ s.strands, u.live = true → u.partn = t.partn → u.uncopied = true → coreDie u.sched.shadowAt.1 ≠ die) →
      flushBody die t c a s = .ok Claim.nothing s) ∧
    (∀ u w, restZero c 3 = true → (c.w 1).toNat < 2 ^ 16 → addrOk (c.w 2) = true → (c.w 2).toNat % 8 = 0 → s.strand? (c.w 1).toNat = some u →
      u.partn = t.partn →
      agentWrite a (c.w 2).toNat 8 ((match u.sched.status with | .ready => 0 | .seated => 1 | .parked => 2 | .retired => 3 | .ended => 4) +
        16 * (if u.sched.image = 1 ∨ u.sched.image = 3 then 1 else u.sched.image)) .int s = .ok () w →
      queryBody t c a s = .ok (.done { addr := (c.w 2).toNat, len := 8, flags := 0 }) w)

/-- R290 to R296, R298, R300, R301, R316, R332, R440: what an engine does for a command. -/
def Obligations.EngineWork : Prop := Sys2Proof.Claim.CopyCommands ∧ Sys2Proof.Claim.TableCommands

namespace Sys2Proof.Claim

/-! ### Membership of groups (R442–R444) -/

/-- The requests of a formation applied in order to an ascending member list: the members, and the joins that are refused; where there
would be more than 4,096 members, the last joins to arrive are refused too (assumption log 57). -/
def requested (may : Nat → Bool) (reqs : List (Nat × Nat)) (members : List Nat) : List Nat × List Nat :=
  let x : List Nat × List Nat × List Nat := reqs.foldl (fun x r =>
    if r.1 ≠ 0 then (x.1.filter fun m => m ≠ r.2, x.2.1.filter fun m => m ≠ r.2, x.2.2)
    else if r.2 ∈ x.1 then x
    else if may r.2 = true then ((x.1.filter fun m => m < r.2) ++ r.2 :: x.1.filter fun m => r.2 < m, x.2.1 ++ [r.2], x.2.2)
    else (x.1, x.2.1, x.2.2 ++ [r.2])) (members, [], [])
  let late := x.2.1.drop (x.2.1.length - (x.1.length - 4096))
  (x.1.filter fun m => m ∉ late, x.2.2 ++ late)
/-- The collectives of a group's generation that have committed: form and sequence count. -/
def committedIn (s : State) (gid gen : Nat) : List (Nat × Nat) :=
  (s.committed.filter fun c => c.1 = gid ∧ c.2.1 = gen).map fun c => (c.2.2.1, c.2.2.2)
/-- The formation has its member list: without a change it forms no generation; otherwise NEWGEN goes to every package of the old and
the new members, with the collectives that have committed. -/
def formed (s : State) (g : Group) (next refused : List Nat) : State :=
  let u := refused.foldl (fun u m => u.refuseJoin g.gid m) s
  let pkgs := packagesOf (g.members ++ next)
  if next = g.members then
    u.mapGroup g.gid fun x => { x with phase := if x.later = [] then 0 else 1, reqs := x.later, later := [] }
  else { u.mapGroup g.gid (fun x => { x with phase := 2, reqs := [], next, waiting := pkgs }) with
    fabricOut := u.fabricOut ++ (pkgs.filter fun p => p ≠ s.handle.toNat).map fun p => .newgen p g.gid (g.gen + 1) next (committedIn s g.gid g.gen) }
/-- Uncommitted contributions of generations of a group before one are gone. -/
def kept (s : State) (gid gen : Nat) (c : Contrib) : Prop :=
  c.gid ≠ gid ∨ gen ≤ c.gen ∨ (c.gid, c.gen, c.form, c.seq) ∈ s.committed
/-- The other packages of an old and a new generation are told that the new one is STABLE. -/
def toldStable (s : State) (g : Group) (next : List Nat) : List FabMsg :=
  ((packagesOf (g.members ++ next)).filter fun p => p ≠ s.handle.toNat).map fun p => .stable p g.gid (g.gen + 1)
/-- A generation has been formed at its home, which stays the home. -/
def renewed (s t : State) (g : Group) : Prop :=
  t.group? g.gid = some { g with
    gen := g.gen + 1, members := g.next, next := [], waiting := [], counts := [], reqs := g.later, later := []
    phase := if g.later = [] then 0 else 1, settled := true, fresh := [], gone := [] } ∧
  (∀ x, x ≠ g.gid → t.group? x = s.group? x) ∧ ∀ c, c ∈ t.contribs ↔ c ∈ s.contribs ∧ kept s g.gid (g.gen + 1) c
/-- This contribution. -/
def names (c : Contrib) (gid gen form seq rank : Nat) : Prop := c.gid = gid ∧ c.gen = gen ∧ c.form = form ∧ c.seq = seq ∧ c.rank = rank

end Sys2Proof.Claim

/-- R322, R331, R442 to R444, R455 with Table 28-1: a contribution that its remap generation admits is kept once unless its generation is
superseded and its collective had not committed, also one of a group that is not known here yet; a collective commits at the home when
every rank's contribution is there and NEWGEN has not been sent, of which the other packages are told (assumption log 108); a request opens a formation, or waits for the one after, and a join from another region is refused, as the strand that asked is told; NEWGEN carries the
members the requests give, or those of the host's list where it breaks no rule; elsewhere it replaces the record at once, the collectives that had committed stand, and it
is acknowledged; the last acknowledgement makes the new generation, of which all are told that it is STABLE; a package acknowledges the
record of a new group too; a package silent for 1 ms loses its members, with a management
event. -/
def Obligations.MembershipEvents : Prop :=
  ∀ (s : State) (gid : Nat) (g : Group), s.group? gid = some g → (∀ x ∈ s.groups, x.gid = gid → x = g) →
    (∀ id gen rgen form seq rank a b elems idx,
      let old := id = gid ∧ gen < g.gen ∧ (gid, gen, form, seq) ∉ s.committed
      let here := exec (.contribution id ⟨gen, rgen⟩ form seq rank a b elems idx) s
      (s.genAccepted rgen = false ∨ old ∨ (∃ c ∈ s.contribs, Claim.names c id gen form seq rank) → here = .next s) ∧
      (s.genAccepted rgen = true → id = gid ∨ s.group? id = none → ¬ old → (∀ c ∈ s.contribs, ¬ Claim.names c id gen form seq rank) →
        here = .next { s with contribs := s.contribs ++ [⟨id, gen, form, seq, rank, a, b, elems.map fun x => ⟨x.1, x.2⟩, idx⟩] })) ∧
    (∀ form seq, (gid, g.gen, form, seq) ∉ s.committed →
      let commits := s.committed ++ [(gid, g.gen, form, seq)]
      (s.isHome g = true → g.phase ≠ 2 → (∀ r, r < g.members.length → ∃ c ∈ s.contribs, Claim.names c gid g.gen form seq r) →
        exec (.collectiveComplete gid g.gen form seq) s = .next { s with
          committed := commits
          fabricOut := s.fabricOut ++ ((packagesOf g.members).filter fun p => p ≠ s.handle.toNat).map
            fun p => .committed p gid g.gen form seq }) ∧
      (s.isHome g = true → g.phase = 2 ∨ (∃ r, r < g.members.length ∧ ∀ c ∈ s.contribs, ¬ Claim.names c gid g.gen form seq r) →
        exec (.collectiveComplete gid g.gen form seq) s = .next s) ∧
      (s.isHome g = false → exec (.collectiveComplete gid g.gen form seq) s = .next { s with committed := commits })) ∧
    (∀ gen form seq, gen ≠ g.gen ∨ (gid, gen, form, seq) ∈ s.committed → exec (.collectiveComplete gid gen form seq) s = .next s) ∧
    (s.isHome g = true ↔ g.phase ≠ 3 ∧ g.settled = true ∧ g.home = s.handle.toNat) ∧
    (g.phase ≠ 3 → g.settled = false → g.home = s.handle.toNat → ∀ kind mid drid, mid < 2 ^ 26 → kind ≠ 3 → (kind = 0 → drid = g.region) →
      exec (.membershipRequest gid kind (mid + 2 ^ 26 * drid)) s = .next (s.mapGroup gid fun x => { x with later := x.later ++ [(kind, mid)] })) ∧
    (g.phase ≠ 3 → g.settled = true → g.home = s.handle.toNat →
      (∀ kind mid drid, mid < 2 ^ 26 → kind ≠ 3 → (kind = 0 → drid = g.region) →
        exec (.membershipRequest gid kind (mid + 2 ^ 26 * drid)) s = .next (s.mapGroup gid fun x =>
          if x.phase = 0 then { x with phase := 1, reqs := [(kind, mid)] } else { x with later := x.later ++ [(kind, mid)] })) ∧
      (∀ mid drid, mid < 2 ^ 26 → drid ≠ g.region → exec (.membershipRequest gid 0 (mid + 2 ^ 26 * drid)) s = .next (s.refuseJoin gid mid)) ∧
      (g.phase = 1 → ∀ region gen root k ms,
        (s.act.getLsbD 3 = false → g.members.Pairwise (· < ·) →
          let x := Claim.requested (s.joinable g) g.reqs g.members
          exec (.newgen gid region gen root k ms) s = .next (Claim.formed s g x.1 x.2)) ∧
        (s.act.getLsbD 3 = true → .members gid g.reqs ∉ s.hostPosts →
          exec (.newgen gid region gen root k ms) s = .next { s with hostPosts := s.hostPosts ++ [.members gid g.reqs] })) ∧
      (g.phase = 1 → .members gid g.reqs ∈ s.hostPosts → ∀ ms,
        let u := { s with hostPosts := s.hostPosts.filter fun p => p ≠ .members gid g.reqs }
        let good := ms.length ≤ 4096 ∧ ∀ m ∈ ms, (1, m) ∉ g.reqs ∧ (2, m) ∉ g.reqs ∧
          (m ∈ g.members ∨ (0, m) ∈ g.reqs ∧ s.joinable g m = true)
        (good → ms.Pairwise (· < ·) → exec (.hostMemberList gid ms) s =
          .next (Claim.formed u g ms ((g.reqs.filter fun r => r.1 = 0 ∧ r.2 ∉ ms).map (·.2)))) ∧
        (¬ good → g.members.Pairwise (· < ·) →
          let x := Claim.requested (s.joinable g) g.reqs g.members
          exec (.hostMemberList gid ms) s = .next ((Claim.formed u g x.1 x.2).manageWith none [])))) ∧
    (∀ mid drid t, mid < 2 ^ 26 → mid / 65536 = s.handle.toNat → s.strand? (mid % 65536) = some t →
      exec (.membershipRequest gid 3 (mid + 2 ^ 26 * drid)) s =
        .next (s.setStrand { t with
          joinRefused := t.joinRefused || t.asked == some gid, refusedOff := t.refusedOff || t.askedOff == some gid })) ∧
    (s.isHome g = false → ∀ region gen root k ms done, ∃ t, exec (.newgen gid region gen root k ⟨ms, done⟩) s = .next t ∧
      t.fabricOut = s.fabricOut ++ [.newgenAck s.handle.toNat gid gen] ∧
      (ms = [] → t.group? gid = none) ∧
      (ms ≠ [] →
        (∀ x, x ∈ t.committed ↔ x ∈ s.committed ∨ ∃ y ∈ done, x = (gid, gen - 1, y.1, y.2)) ∧
        (∀ c, c ∈ t.contribs ↔ c ∈ s.contribs ∧ (Claim.kept s gid gen c ∨ c.gen = gen - 1 ∧ (c.form, c.seq) ∈ done)) ∧
        ∃ g', t.group? gid = some g' ∧ g'.gid = gid ∧ g'.region = region ∧ g'.gen = gen ∧ g'.members = ms ∧ g'.root = root ∧ g'.k = k ∧
          g'.phase = (if ∃ m ∈ ms, m / 65536 = s.handle.toNat then 0 else 3) ∧ g'.reqs = [] ∧ g'.later = [] ∧ g'.next = [] ∧
          g'.waiting = [] ∧ g'.counts = [] ∧ g'.holders = [] ∧ (g'.settled = true ↔ gen = 1) ∧
          (gen ≠ 1 → gen ≠ g.gen → (∀ m, m ∈ g'.fresh ↔ m ∈ ms ∧ m ∉ g.members) ∧ ∀ m, m ∈ g'.gone ↔ m ∈ g.members ∧ m ∉ ms))) ∧
    (g.phase ≠ 2 → ∀ pkg ∈ g.holders, exec (.newgenAck gid 1 pkg) s =
      .next (s.mapGroup gid fun x => { x with holders := x.holders.filter fun p => p ≠ pkg })) ∧
    (g.phase = 2 → ∀ pkg, pkg ∈ g.waiting →
      let left := g.waiting.filter fun p => p ≠ pkg
      (left ≠ [] → exec (.newgenAck gid (g.gen + 1) pkg) s = .next (s.mapGroup gid fun _ => { g with waiting := left })) ∧
      (left = [] → g.next ≠ [] → ({ g with members := g.next } : Group).home = s.handle.toNat →
        ∃ t, exec (.newgenAck gid (g.gen + 1) pkg) s = .next t ∧ Claim.renewed s t g ∧
          t.fabricOut = s.fabricOut ++ Claim.toldStable s g g.next) ∧
      (left = [] → g.next = [] → ∃ t, exec (.newgenAck gid (g.gen + 1) pkg) s = .next t ∧ t.group? gid = none) ∧
      (pkg ≠ s.handle.toNat →
        let next := g.next.filter fun m => m / 65536 % 1024 ≠ pkg
        ∃ t, exec (.newgenTimeout gid pkg) s = .next t ∧ (t.fns[pf]).evtail = (s.fns[pf]).evtail + 1 ∧
          t.fabricOut = s.fabricOut ++ ((packagesOf (g.members ++ next)).filter fun p => p ≠ s.handle.toNat ∧ p ≠ pkg).map
            (fun p => .newgen p gid (g.gen + 1) next (Claim.committedIn s gid g.gen)) ++
            (if left = [] ∧ next ≠ [] then Claim.toldStable s g next else []) ++
            (if left = [] ∧ next ≠ [] ∧ ({ g with members := next } : Group).home ≠ s.handle.toNat then
              g.later.map fun r => .member gid r.1 r.2 g.region else []) ∧
          (left ≠ [] → t.group? gid = some { g with next, waiting := left }) ∧
          (left = [] → next ≠ [] → ({ g with members := next } : Group).home = s.handle.toNat →
            Claim.renewed s t { g with next })))

namespace Sys2Proof.Claim

/-! ### Launches and house faults (R344–R359) -/

/-- What the binder does with the record at a bus address of a function's region: the form and value checks, and then placement, reservation and
strands, for the host's units or its own. -/
def formed? (fn addr ridx : Nat) : M Launch := do
  let (l, d) ← takeLaunch fn addr ridx
  launchForms l d
def bound? (fn addr ridx : Nat) (host : Option (List Nat)) : M Launch := do bindLaunch (← formed? fn addr ridx) host
/-- STATUS of a launch that faulted (Table 21-5): the codes of the binder's own faults carry RECORD and LEVEL; an access that faulted is XLATE. -/
def faulted (q : Trap) : Nat := if 512 ≤ q.code then q.elem % 16 * 2 ^ 28 + q.elem / 16 % 4096 * 2 ^ 16 + (q.code - 512) else 7
/-- STATUS has been written, or its write dropped, leading to x; then the event of kind 1 and nothing else; the accesses of the control die leave
those of the strand whose turn it is alone. -/
def reported (s x t : State) (fn : Nat) : Prop :=
  t.mem = x.mem ∧ t.launches = x.launches ∧ t.others = x.others ∧ t.lids = x.lids ∧
  t.st = { x.st with lines := s.st.lines, remote := s.st.remote, trains := s.st.trains } ∧
  (t.fns[fnIx fn]).evtail = (x.fns[fnIx fn]).evtail + 1 ∧ (t.fns[fnIx fn]).launches = (x.fns[fnIx fn]).launches
/-- The strand of a level-0 instance as it is created (R30, R353, R416): its own number, READY at ENTRY in mode P with TVEC = HVEC. -/
def createdFor (s w : State) (l : Launch) (i : Nat) (x : Inst) (h : House) : Prop :=
  ∃ sn t, x.strand = some sn ∧ x.mid = some (s.handle.toNat * 2 ^ 16 + sn) ∧ sn < 65536 ∧ s.numberTaken sn = false ∧ w.strand? sn = some t ∧
    t.sn = sn ∧ t.partn = l.partn ∧ t.region = l.region ∧ t.pc = BitVec.ofNat 64 h.entry ∧ t.mode = .p ∧
    t.trap.tvec = BitVec.ofNat 64 ((regionHvec (s.regionRec l.region)).toNat % 2 ^ 55 / 4 * 4) ∧ t.vq = [] ∧
    t.sched.status = .ready ∧ t.sched.aged = 0 ∧ t.sched.prio = h.prio ∧ t.sched.lid = l.lid ∧ t.sched.inst = i ∧
    t.sched.frame < s.frames l.partn ∧ s.frameTaken l.partn t.sched.frame = false

/-- The control die's walks are not waited for any more. -/
def noWalks (l : List HostPost) : List HostPost := l.filter fun p => match p with | .walk w .. => w != 65536 | _ => true
/-- Every instance with a strand is placed on this package and names one of its strands. -/
def peopled (s : State) (l : Launch) : Prop :=
  ∀ x ∈ l.insts, ∀ sn, x.strand = some sn → s.isHere l x.pkg = true ∧ ∃ t, s.strand? sn = some t
/-- The strand runs on as it was. -/
def untouched (t u : Strand) : Prop :=
  u.pc = t.pc ∧ u.regs = t.regs ∧ u.ctl = t.ctl ∧ u.trap = t.trap ∧ u.mode = t.mode ∧ u.vq = t.vq ∧ u.sched = t.sched
/-- Instances of a subtree that have not retired, one level-0 strand of them, and all others. -/
def inTree (l : Launch) (h i : Nat) : Prop := i < l.insts.length ∧ l.under h i = true ∧ l.statusOf i ≠ .retired
/-- The house and everything below it that had not retired has a status, its strands are no longer live, and every other strand that is of
no such instance is untouched. -/
def treeEnded (s w : State) (l : Launch) (h : Nat) (st : InstStatus) : Prop :=
  (∃ l', w.launch? l.lid = some l' ∧ ∀ i, inTree l h i → l'.statusOf i = st) ∧
  (∀ i x sn, inTree l h i → l.levelOf i = 0 → l.insts[i]? = some x → x.strand = some sn → ∃ u, w.strand? sn = some u ∧ u.live = false) ∧
  (∀ sn t, s.strand? sn = some t → (∀ x ∈ l.insts, x.strand ≠ some sn) → ∃ u, w.strand? sn = some u ∧ untouched t u)
/-- The fault record has been written and its event sent: SEQ goes up, the ring index goes on, and the ranges are counted (R358). -/
def recorded (l l' : Launch) : Prop := l'.seq = l.seq + 1 ∧ l'.flogIdx = (l.flogIdx + 1) % l.flogn ∧ l.rangeNext ≤ l'.rangeNext

end Sys2Proof.Claim

/-- R348, R349, R353, R354, R410 with Table 21-5: the binder answers the oldest launch of a function: bound by hardware, or with DUTY.BIND in force
checked and posted to the host with its effective values, whose units are checked as its own would be; an accepted launch gets the next LID and a READY strand for
every level-0 instance here; a launch that faults leaves nothing but STATUS; each answer sends an event. -/
def Obligations.LaunchEvents : Prop :=
  ∀ (s : State) (fn addr ridx : Nat) (rest : List (Nat × Nat)), s.phase = .ready → fn < 16 → (s.fns[fnIx fn]).launches = (addr, ridx) :: rest →
    let region := (nth (s.part fn) 0 0).toNat / 2 ^ 40 % 2 ^ 8 + ridx
    (s.act.getLsbD 1 = false →
      (∀ l w x, Claim.bound? fn addr ridx none s.asControl = .ok l w → binderStore l (l.recordAddr + 56) 8 l.status (w.dropLaunch fn) = .ok () x →
        ∃ t, exec (.launch fn) s = .next t ∧ Claim.reported s x t l.fn) ∧
      (∀ q w x, Claim.bound? fn addr ridx none s.asControl = .error (.trap q) w →
        binderStore (launchOf fn fn region addr []) (addr + 56) 8 (Claim.faulted q) (s.asControl.dropLaunch fn) = .ok () x →
        ∃ t, exec (.launch fn) s = .next t ∧ Claim.reported s x t fn)) ∧
    (s.act.getLsbD 1 = true → s.posted fn addr = none →
      (∀ l w, Claim.formed? fn addr ridx s.asControl = .ok l w → exec (.launch fn) s =
        .next (s.fromControl { w with
          hostPosts := Claim.noWalks w.hostPosts ++ [.placement fn addr l], hostLeaves := w.hostLeaves.filter fun x => x.1 != 65536 } true)) ∧
      (∀ q w x, Claim.formed? fn addr ridx s.asControl = .error (.trap q) w →
        binderStore (launchOf fn fn region addr []) (addr + 56) 8 (Claim.faulted q) (s.asControl.dropLaunch fn) = .ok () x →
        ∃ t, exec (.launch fn) s = .next t ∧ Claim.reported s x t fn)) ∧
    (∀ r us, s.posted fn addr = some r →
      (∀ l w x, bindLaunch r (some us) s.asControl = .ok l w → binderStore l (l.recordAddr + 56) 8 l.status (w.dropLaunch fn) = .ok () x →
        ∃ t, exec (.hostPlacement fn us) s = .next t ∧ Claim.reported s x t l.fn ∧
          t.hostPosts = (Claim.noWalks x.hostPosts).erase (.placement fn addr r)) ∧
      (∀ q w x, bindLaunch r (some us) s.asControl = .error (.trap q) w →
        binderStore (launchOf fn fn region addr []) (addr + 56) 8 (Claim.faulted q) (s.asControl.dropLaunch fn) = .ok () x →
        ∃ t, exec (.hostPlacement fn us) s = .next t ∧ Claim.reported s x t fn ∧
          t.hostPosts = (Claim.noWalks x.hostPosts).erase (.placement fn addr r))) ∧
    (∀ l l' host w, Claim.inOrder s → (∀ x ∈ s.launches, x.lid ≤ s.lids) → bindLaunch l host s = .ok l' w →
      l'.lid = s.lids + 1 ∧ w.lids = s.lids + 1 ∧ l'.live = true ∧ l'.status = l'.lid * 2 ^ 32 ∧ w.launch? l'.lid = some l' ∧ w.mem = s.mem ∧
      (∀ x ∈ s.launches, x ∈ w.launches) ∧
      ∀ i x h, l'.insts[i]? = some x → l'.houses[x.record]? = some h → h.level = 0 → nth l'.pkgs x.pkg 0 = s.handle.toNat →
        Claim.createdFor s w l' i x h)

/-- R357 to R359, R349 with Table 21-7: the oldest fault of a launch is handled by the policy of its house: abort ends the subtree, and
raises a child abort above, which names the same failure, or ends the launch with 0x41; degrade withdraws the failing children, those of a
cut-off being the children whose strands it ended; retry ends them and counts one more, and
after three aborts with event 4; a fault that an earlier one has settled is only recorded. Strands of other houses run on. The package that launched handles the faults of its
launches. -/
def Obligations.HouseFaults : Prop :=
  ∀ (s w : State) (lid : Nat) (l : Launch) (f : HouseFault) (rest : List HouseFault), s.launch? lid = some l → l.faults = f :: rest → l.live = true →
    l.origin = none → Claim.inOrder s → Claim.peopled s l → l.insts ≠ [] → (∀ (i : Nat) (x : Inst) (p : Nat), l.insts[i]? = some x → x.parent = some p → p < i) →
    let u := s.mapLaunch lid fun l => { l with faults := rest }
    let l0 : Launch := { l with faults := rest }
    let policy := if l.levelOf f.inst = 0 then 0 else (((l.insts[f.inst]?).bind l.house).map (·.policy)).getD 0
    (l0.failing f = match f.event, f.child with
      | 2, _ => (l0.children f.inst).filter fun c => (l0.statusOf c == .live || l0.levelOf c == 0) &&
          (l0.leaves c).any fun i => f.gone.contains i && l0.statusOf i == .ended
      | _, some c => [c]
      | _, none => []) ∧
    (handleFault l0 f u.asControl = .ok () w →
    ∃ t, exec (.houseFault lid) s = .next t ∧ t.mem = w.mem ∧ t.launches = w.launches ∧ t.others = w.others ∧
      t.st = { w.st with lines := s.st.lines, remote := s.st.remote, trains := s.st.trains } ∧ (t.fns[fnIx l.fn]).evtail = (w.fns[fnIx l.fn]).evtail ∧
      (∃ l', w.launch? lid = some l' ∧ Claim.recorded l l' ∧
        (l0.superseded f = true → l'.insts = l.insts ∧ l'.live = true) ∧
        (l0.superseded f = false →
          (policy = 0 ∨ policy = 1 ∧ 3 ≤ ((l.insts[f.inst]?).map (·.retries)).getD 0 → Claim.treeEnded s w l f.inst .ended ∧
            ∀ x, l.insts[f.inst]? = some x →
              (x.parent = none → l'.live = false ∧ l'.status = lid * 2 ^ 32 + 0x41) ∧
              (∀ p, x.parent = some p → l'.live = true ∧ ∃ g ∈ l'.faults, g.inst = p ∧ g.event = 3 ∧ g.child = some f.inst ∧
                g.mid = f.mid ∧ g.cause = f.cause ∧ g.val = f.val)) ∧
          (policy = 2 → (∀ c ∈ l.failing f, c ∈ l.children f.inst) → ∀ c ∈ l.failing f, Claim.treeEnded s w l c .withdrawn) ∧
          (policy = 1 → ((l.insts[f.inst]?).map (·.retries)).getD 0 < 3 → f.inst < l.insts.length →
            ((l'.insts[f.inst]?).map (·.retries)).getD 0 = ((l.insts[f.inst]?).map (·.retries)).getD 0 + 1 ∧
            ∀ sn t, s.strand? sn = some t → (∀ x ∈ l.insts, x.strand ≠ some sn) → sn < 65536 → t.live = true →
              (∃ z, s.launch? t.sched.lid = some z ∧ z.live = true) → ∃ v, w.strand? sn = some v ∧ Claim.untouched t v))))

namespace Sys2Proof.Claim

/-! ### The timetable (R360–R366, R438) -/

/-- A credit of n rounds: each adds W × Q, to 2 × W × Q at most (R363). -/
def credit (wt n : Nat) (d : Int) : Int := if n = 0 then d else min (d + (n * wt * 4096 : Nat)) (2 * wt * 4096 : Nat)
/-- READY longer, or as long with the lower number. -/
def readyBefore (t u : Strand) : Prop := t.sched.readySince < u.sched.readySince ∨ t.sched.readySince = u.sched.readySince ∧ t.sn ≤ u.sn
/-- The entry that a decision at a priority chooses: after the fewest rounds that make some entry with a candidate positive, the first
such one in ring order from the pointer. -/
def ringChoice (s : State) (p : Fin 8) (cs : List Strand) (e : Nat × Nat) : Prop :=
  ∃ (n : Nat) (before after : List (Nat × Nat × Int)) (d : Int), (s.rings[p]).fromPtr = before ++ (e.1, e.2, d) :: after ∧
    0 < credit (s.weightOf e) n d ∧ (∃ t ∈ cs, s.entryOf t = e) ∧
    (∀ x ∈ before, (∃ t ∈ cs, s.entryOf t = (x.1, x.2.1)) → credit (s.weightOf (x.1, x.2.1)) n x.2.2 ≤ 0) ∧
    ∀ m, m < n → ∀ x ∈ (s.rings[p]).fromPtr, (∃ t ∈ cs, s.entryOf t = (x.1, x.2.1)) → credit (s.weightOf (x.1, x.2.1)) m x.2.2 ≤ 0
/-- The strand that a decision seats among the candidates: one whose entry is short of its reservation first (R365), else by priority and
ring. -/
def picked (s : State) (cs : List Strand) (t : Strand) : Prop :=
  t ∈ cs ∧
  ((∃ u ∈ cs, s.short u = true) → s.short t = true ∧ ∀ u ∈ cs, s.short u = true → readyBefore t u) ∧
  ((∀ u ∈ cs, s.short u = false) → (∀ u ∈ cs, u.sched.prio ≤ t.sched.prio) ∧
    let level := cs.filter fun u => u.sched.prio = t.sched.prio
    ringChoice s (prioIx t.sched.prio) level (s.entryOf t) ∧ ∀ u ∈ level, s.entryOf u = s.entryOf t → readyBefore t u)
/-- The keys by which a victim comes before another (R364). -/
def victimFirst (t u : Strand) : Prop :=
  t.sched.prio < u.sched.prio ∨ t.sched.prio = u.sched.prio ∧
    (u.sched.seatedFor < t.sched.seatedFor ∨ t.sched.seatedFor = u.sched.seatedFor ∧ (t.core < u.core ∨ t.core = u.core ∧ t.slot < u.slot))
/-- A strand with its scheduling replaced. -/
def withSched (s : State) (t : Strand) (f : Sched → Sched) : State := s.setStrand { t with sched := f t.sched }

/-! ### Pre-emption and the image (R430–R439) -/

/-- n bytes of an image at an offset, as a number. -/
def img (m : Memory) (base o n : Nat) : Nat := Memory.readN m (base + o) n
/-- Place of the strand record of a core's slot in the context area of its die (R17). -/
def contextOf (core slot : Nat) : Nat := (core * 4 + slot) * 2 ^ 11
/-- The strand has left its seat with its image in the shadow store of its core. -/
def imaged (s : State) (t u : Strand) : Prop :=
  u.pc = t.pc ∧ u.mode = t.mode ∧ u.regs = t.regs ∧ u.ctl = t.ctl ∧ u.trap = t.trap ∧ u.vq = t.vq ∧ u.pend = t.pend ∧
  u.sched.place = none ∧ u.sched.saved = some ((s.coreOf t.core).div, t.slot, (s.coreOf t.core).owner == t.slot) ∧
  u.sched.image = 1 ∧ u.sched.shadowAt = (t.core, t.slot) ∧ u.sched.imageLanes = t.tags.laneValid ∧
  u.sched.preemptAsked = false ∧ u.sched.preempting = false ∧ u.sched.quiesced = false
/-- The strand's PC, mode, registers and traps stand in an image at the places of Table 27-2. -/
def holdsStrand (m : Memory) (base : Nat) (t : Strand) : Prop :=
  img m base 0 8 = t.pc.toNat ∧ (img m base 8 8) % 2 = (if t.mode = .s then 1 else 0) ∧
  (∀ i : Fin 32, i ≠ 0 → img m base (8 + 8 * i.val) 8 = (t.regs.g[i]).toNat) ∧
  (∀ i : Fin 16, img m base (264 + 8 * i.val) 8 = (t.regs.f[i]).val.toNat ∧ img m base (392 + 2 * i.val) 2 = (t.regs.f[i]).grade.toNat) ∧
  (∀ i : Fin 12, img m base (512 + 16 * i.val) 16 = (t.regs.m[i]).toNat) ∧
  img m base 432 8 = t.ctl.vstr.toNat ∧ img m base 440 8 = t.ctl.fxr.toNat ∧ img m base 448 8 = t.ctl.srs.toNat ∧
  img m base 456 8 = t.trap.tvec.toNat ∧ img m base 464 8 = t.trap.tpc.toNat ∧ img m base 472 8 = t.trap.tval.toNat ∧
  img m base 480 8 = t.trap.tres.toNat ∧ img m base 488 8 = t.trap.tscr0.toNat ∧ img m base 496 8 = t.trap.tscr1.toNat ∧
  (img m base 504 8) % 2 ^ 15 = t.trap.tcause.toNat + t.trap.telem.toNat * 2 ^ 8
/-- A strand has these from an image, unwritable bits of TVEC and TCAUSE reading as zero. -/
def fromImage (rd : Nat → Nat → Nat) (u : Strand) : Prop :=
  u.pc = BitVec.ofNat 64 (rd 0 8) ∧ u.mode = (if (rd 8 8) % 2 = 1 then .s else .p) ∧
  (∀ i : Fin 32, u.regs.g[i] = if i = 0 then 0 else BitVec.ofNat 64 (rd (8 + 8 * i.val) 8)) ∧
  (∀ i : Fin 16, u.regs.f[i] = ⟨BitVec.ofNat 64 (rd (264 + 8 * i.val) 8), BitVec.ofNat 16 (rd (392 + 2 * i.val) 2)⟩) ∧
  (∀ i : Fin 12, u.regs.m[i] = BitVec.ofNat 128 (rd (512 + 16 * i.val) 16)) ∧
  (∀ (r : Fin 48) (e : Fin 128), (u.regs.v[r])[e] = if e.val < rd (704 + r.val) 1 then
      ⟨BitVec.ofNat 64 (rd (4096 + 1280 * r.val + 8 * e.val) 8), BitVec.ofNat 16 (rd (5120 + 1280 * r.val + 2 * e.val) 2)⟩
    else Elem.init) ∧
  u.ctl.vl = min (rd 424 8 % 2 ^ 8) 128 ∧ u.ctl.vstr = BitVec.ofNat 64 (rd 432 8) ∧
  u.ctl.fxr = BitVec.ofNat 48 (rd 440 8) ∧ u.ctl.srs = BitVec.ofNat 32 (rd 448 8) ∧
  u.trap.tcause = BitVec.ofNat 8 (rd 504 8) &&& 0xBF ∧
  u.trap.tvec = BitVec.ofNat 64 (rd 456 8) &&& 0x7FFFFFFFFFFFFC ∧ u.trap.tpc = BitVec.ofNat 64 (rd 464 8) ∧
  u.trap.tval = BitVec.ofNat 64 (rd 472 8) ∧ u.trap.tres = BitVec.ofNat 64 (rd 480 8) ∧
  u.trap.tscr0 = BitVec.ofNat 64 (rd 488 8) ∧ u.trap.tscr1 = BitVec.ofNat 64 (rd 496 8)

end Sys2Proof.Claim

/-- R361 to R366: a READY strand ages by one priority in 2^16 cycles, to 7; a decision seats the candidate that reservation, priority, ring and time of
waiting give, on the core it last ran on if that has a seat, setting the division of an empty core, one whose image owned the
matrix array becoming its owner with its seat; the victim of a waiting candidate is
asked to leave by the keys of R364; a parked strand becomes READY with A = 0 when its wait could complete; a `wait` whose time is over is done
(R426); a barrier episode completes when every live strand of its house has arrived and no withdrawal is on its way: its result stands for each
participant, the next episode begins, and the parked ones become READY; it waits while what another package reports of it has not come
here yet (R378, R444; assumption log 80). -/
def Obligations.SeatsAndVictims : Prop :=
  ∀ (s : State), Claim.inOrder s →
    (∀ sn t, s.strand? sn = some t → t.sched.status = .ready → t.sched.prio < min 7 (s.baseprio t + t.sched.aged / 2 ^ 16) →
      exec (.priorityAging sn) s = .next (Claim.withSched s t fun x => { x with prio := min 7 (s.baseprio t + t.sched.aged / 2 ^ 16) })) ∧
    (∀ core slot,
      let z := s.renewRings
      let cs := z.strands.filter fun t => z.seatable t core && (z.emptyCore core || (z.seatFor t core).any fun y => y.2 == slot)
      (cs = [] → exec (.seatDecision core slot) s = .next z) ∧
      (core < 512 → cs ≠ [] → (∀ t ∈ cs, t.sched.prio < 8) → ∃ (t : Strand) (c k : Nat) (d : Option Nat) (w : State),
        exec (.seatDecision core slot) s = .next w ∧ Claim.picked z cs t ∧ z.seatFor t c = some (d, k) ∧ z.seatable t c = true ∧
        (t.sched.lastCore = some c ∨ (∀ b, t.sched.lastCore = some b → z.seatable t b = false) ∧ ∀ b, b < c → z.seatable t b = false) ∧
        w.strand? t.sn = some { t with sched := { t.sched with
          status := .seated, place := some (c, k), aged := 0, seatedFor := 0, lastCore := some c, restoring := t.sched.saved.isSome } } ∧
        (w.coreOf c).div = (if z.emptyCore c then d.getD (min ((z.strands.filter fun u => z.candidate u c).length - 1) 2) else (z.coreOf c).div) ∧
        (∀ dv sl, t.sched.saved = some (dv, sl, true) → (w.coreOf c).owner = k) ∧
        (∀ n, n ≠ t.sn → w.strand? n = s.strand? n) ∧ w.mem = s.mem)) ∧
    (∀ sn t, s.strand? sn = some t →
      ((∃ u ∈ s.strands, u.sched.status = .ready ∧ s.served u = false ∧ s.qualifies u t = true ∧
          ∀ x ∈ s.strands, s.qualifies u x = true → ¬ Claim.victimFirst x t) →
        exec (.quantumExpiry sn) s = .next (Claim.withSched s t fun x => { x with preemptAsked := true })) ∧
      ((∀ u ∈ s.strands, u.sched.status = .ready → s.qualifies u t = false) → exec (.quantumExpiry sn) s = .next s) ∧
      (∀ u, s.short u = false → s.qualifies u t = true → t.seated = true ∧ s.wouldFit u t = true ∧
        (t.sched.prio < u.sched.prio ∨ 4096 ≤ t.sched.seatedFor ∧ t.sched.prio = u.sched.prio) ∧
        (s.reserved t = true → s.entryOf t = s.entryOf u ∧ t.sched.prio = u.sched.prio))) ∧
    (∀ sn t, s.strand? sn = some t → t.sched.status = .parked →
      (t.wait = .swait ∧ t.wake = true) ∨ (∃ e, t.wait = .engPop e ∧ (t.fifo[e]).results ≠ []) ∨
        (∃ e, t.wait = .engDrain e ∧ (t.fifo[e]).cmds = [] ∧ (t.fifo[e]).running = none) ∨
        (∃ e, t.wait = .engPush e ∧ Claim.outstanding t.fifo[e] < 16) ∨
        (t.wait = .tlAcq ∧ (let d := s.dies[coreDie (t.sched.lastCore.getD 0)]
          t.tailRead.getD d.tail ≤ d.tail - d.log.length)) ∨ (t.wait = .bar ∧ s.barOver t = true) ∨
        (t.qwait = .grp ∧ s.joinOver t = true) ∨ (t.qwait = .coll ∧ s.collDue t = true) →
      exec (.unpark sn) s = .next (Claim.withSched s t fun x =>
        { x with status := .ready, aged := 0, readySince := s.stepNo, prio := s.baseprio t })) ∧
    (∀ sn t, s.strand? sn = some t → (t.wait = .wakeOrResult → exec (.waitTimeout sn) s = .next (s.setStrand { t with waitDone := true })) ∧
      (t.wait ≠ .wakeOrResult → exec (.waitTimeout sn) s = .next s)) ∧
    (∀ (lid inst there missing : Nat) (wd nw : Bool) (l : Launch) (x : Inst), s.launch? lid = some l → l.insts[inst]? = some x → l.levelOf inst ≠ 0 →
      let came := fun (y : Inst) => ∃ m ∈ x.arrived, y.mid = some m
      let leaf := fun (y : Inst) => ∃ i ∈ l.leaves inst, l.insts[i]? = some y
      let far := fun y => leaf y ∧ s.isHere l y.pkg = false
      let agrees := (∀ y, ¬ far y) ∨ missing = 0 ∧ there = (x.arrived.filter fun m => m / 65536 ≠ s.handle.toNat).length ∧
        (wd = true ↔ ∃ y, far y ∧ y.status = .withdrawn ∧ ¬ came y) ∧ (nw = true → x.newWithdrawal = true)
      let gone := fun y => leaf y ∧ y.status = .withdrawn ∧ ¬ came y
      let full := agrees ∧ x.arrived ≠ [] ∧ (∀ i ∈ l.liveLeaves inst, ∀ y, l.insts[i]? = some y → came y) ∧
        ∀ y, gone y → ∀ m, y.mid = some m → ∀ g ∈ s.groups, m ∉ g.members ∧ m ∉ g.gone
      (¬ full → exec (.barrierComplete lid inst there missing wd nw) s = .next s) ∧
      (full → ∀ out : Bool, (out = true ↔ ∃ y, gone y) → ∃ w, exec (.barrierComplete lid inst there missing wd nw) s = .next w ∧
        w.launches = (Claim.withInst s l inst { x with
          episode := x.episode + 1, arrived := [], newWithdrawal := false
          lastResult := Claim.barWord out x.newWithdrawal x.arrived.length (x.episode + 1) }).launches ∧
        w.mem = s.mem ∧ ∀ sn t, s.strand? sn = some t → w.strand? sn = some (if sn < 65536 ∧ s.handle.toNat * 2 ^ 16 + sn ∈ x.arrived ∧
            t.sched.status = .parked ∧ t.wait = .bar then
          { t with sched := { t.sched with status := .ready, aged := 0, readySince := s.stepNo, prio := s.baseprio t } } else t)))

/-- R361, R417, R419, R430 to R439, R441, R453: a strand asked to leave stops, its head entry at a group boundary, waits for its accesses, is saved to the shadow store of its core and becomes
READY, with its notification due where TSTAT.PN is set; a strand that has waited for 256 cycles is saved and PARKED; the image is copied to its frame, to another free
one after a failure, which an uncorrectable line notes in RRS.UE, or the strand ends; a seated strand takes its registers from its image; the notification enters the handler with
PREEMPT and the SID. What an image's fields hold once loaded, masked to their widths, is the model's choice (assumption log 68). -/
def Obligations.SavedContext : Prop :=
  ∀ (s : State) (sn : Nat) (t : Strand), Claim.inOrder s → s.strand? sn = some t →
    (t.seated = true → t.sched.preemptAsked = true → t.sched.restoring = false →
      (∀ e l, t.vq = e :: l → elWord e.word = true → t.ctl.vei.toNat % laneCount (s.coreOf t.core).div = 0 ∧ e.trains = [] ∧ e.sent = false) →
      exec (.preemption sn) s = .next (Claim.withSched s t fun x => { x with preempting := true })) ∧
    (t.seated = true → t.sched.preempting = true → t.trains = [] → (∀ r ∈ t.remote, r.answer ≠ none ∨ 8 ≤ r.op) → s.planeBusy t = false →
      exec (.preemptQuiesce sn) s = .next (Claim.withSched s t fun x => { x with quiesced := true })) ∧
    (∀ e l, t.vq = e :: l → elWord e.word = true → t.ctl.vei.toNat % laneCount (s.coreOf t.core).div ≠ 0 ∨ e.trains ≠ [] ∨ e.sent = true →
      exec (.preemption sn) s = .next s) ∧
    (s.halting t.partn = true → exec (.save sn) s = .next s) ∧
    (t.seated = true → t.sched.quiesced = true → s.halting t.partn = false → (∀ u ∈ s.strands, u.sched.image = 1 ∨ u.sched.image = 3 → u.sched.shadowAt.1 ≠ t.core) →
      ∃ w u, exec (.save sn) s = .next w ∧ w.strand? sn = some u ∧ Claim.imaged s t u ∧ u.sched.status = .ready ∧ u.sched.aged = 0 ∧
        u.preemptNote = (if t.trap.pn then some (s.sidOf t) else none) ∧ w.mem = s.mem ∧
        (∀ n x, n ≠ sn → s.strand? n = some x → w.strand? n = some { x with sched := { x.sched with
          inShadow := if x.sched.shadowAt.1 = t.core then false else x.sched.inShadow } }) ∧
        ((s.coreOf t.core).owner = t.slot → (w.coreOf t.core).active.valid = false ∧ (w.coreOf t.core).shadow.valid = false) ∧
        (s.shadow.wf = true → Claim.holdsStrand w.shadow (Claim.contextOf t.core t.slot) t)) ∧
    (t.sched.waited < 256 → exec (.park sn) s = .next s) ∧
    (t.seated = true → t.sched.preemptAsked = false → t.sched.restoring = false → 256 ≤ t.sched.waited →
      (t.vq = [] ∨ t.qwait ∈ [.grp, .coll, .stream, .plane]) →
      (parks t.wait = true ∧ s.waitOver t t.wait = false ∨ t.vq ≠ [] ∧ parksEntry t.qwait = true ∧ s.waitOver t t.qwait = false) →
      t.trains = [] → (∀ r ∈ t.remote, r.answer ≠ none ∨ 8 ≤ r.op) → s.planeBusy t = false → s.shadowFree t.core = true →
      s.halting t.partn = false →
      ∃ w u, exec (.park sn) s = .next w ∧ w.strand? sn = some u ∧ Claim.imaged s t u ∧ u.sched.status = .parked ∧ u.wait = t.wait ∧ w.mem = s.mem) ∧
    (t.live = true → t.sched.image = 1 ∨ t.sched.image = 3 → (s.dies[coreDie t.sched.shadowAt.1]).cut = false →
      let at_ := shadowKey t.sched.shadowAt.1 t.sched.shadowAt.2 ((t.sched.saved.map (·.1)).getD 0)
      let pa := (nth (SMap.getD s.saveArea t.partn []) 0 0).toNat / 2 ^ 20 % 2 ^ 32 * 2 ^ 20 + t.sched.frame * 2 ^ 20
      let rs := imageRanges (fun o n => Memory.readN s.shadow (at_ o) n) t.sched.imageLanes
      let good := ∀ r ∈ rs, s.frameOk (pa + r.1) r.2 = true
      let reached := ∀ r ∈ rs, r.2 = 0 ∨ s.homesOn (pa + r.1) r.2 = true
      let told : Bool → State := fun line => (if line then s.setRrs 4 else s).manage (some t.partn) pa
      (good → ∃ w, exec (.imageCopy sn true) s = .next w ∧
        w.strand? sn = some { t with sched := { t.sched with image := 2 } } ∧
        (s.mem.wf = true → s.shadow.wf = true →
          (∀ r ∈ rs, ∀ j, j < r.2 → Memory.read w.mem (pa + r.1 + j) = Memory.read s.shadow (at_ r.1 + j)) ∧
          ∀ a, (∀ r ∈ rs, ¬ (pa + r.1 ≤ a ∧ a < pa + r.1 + r.2)) → Memory.read w.mem a = Memory.read s.mem a)) ∧
      (∀ b (line : Bool), b = false ∨ ¬ good → (line = true ↔ reached ∧ ¬ good) →
        (∀ n, t.sched.image = 1 → s.otherFrame t = some n → exec (.imageCopy sn b) s =
          .next (Claim.withSched (told line) t fun x => { x with image := 3, frame := n })) ∧
        (t.sched.image = 3 ∨ s.otherFrame t = none → exec (.imageCopy sn b) s = .next ((told line).fail t 5 (BitVec.ofNat 64 pa))))) ∧
    (t.seated = true → t.sched.restoring = true →
      (s.imageFault t = none → ∃ w u, exec (.restore sn) s = .next w ∧ w.strand? sn = some u ∧ u.sched.restoring = false ∧
        Claim.fromImage (readImg (s.imageSrc t)) u ∧ u.sched.place = t.sched.place ∧ u.tags.laneValid = t.sched.imageLanes ∧
        u.viewTail = (s.dies[coreDie t.core]).tail ∧ w.mem = s.mem) ∧
      (∀ c, s.imageFault t = some c → let pa := BitVec.ofNat 64 (s.framePa t.partn t.sched.frame)
        exec (.restore sn) s = .next (((if c = 5 then s.setRrs 4 else s).manage (some t.partn) (s.framePa t.partn t.sched.frame)).fail t c pa))) ∧
    (∀ sid, t.seated = true → t.sched.preempting = false → t.sched.restoring = false → t.sched.preemptAsked = false → t.rpl.going = false → t.vq = [] →
      (s.dies[(s.switchTo sn).myDie]).hot = false → t.preemptNote = some sid → Claim.settled (s.switchTo sn) →
      Claim.catches (s.switchTo sn) →
      let w := Claim.entered (s.switchTo sn) 17 sid t.pc
      exec (.trapEntry sn) s = .next { w with st := { w.st with rearm := none :: t.rearm } })

namespace Sys2Proof.Claim

/-! ### Power, heat, links, memory lines, base-die cores (R27, R447–R453, R466) -/

/-- A stack of a die. -/
def stackOf (s : State) (d : Fin 4) (k : Fin 3) : Stack := ((s.dies[d]).hbm)[k]
def withStack (s : State) (d : Fin 4) (k : Fin 3) (f : Stack → Stack) : State :=
  { s with dies := s.dies.set d { s.dies[d] with hbm := ((s.dies[d]).hbm).set k (f (stackOf s d k)) } }
/-- Place of a stack in the fields of RRS, one bit each. -/
def place (d : Fin 4) (k : Fin 3) : Nat := 3 * d.val + k.val
/-- The die that the failure of a link cuts off (R447). -/
def cutOff (link : Nat) : Nat := if 6 ≤ link then link - 6 else [1, 2, 3, 2, 3, 3].getD link 0
/-- Refresh rate and hold by temperature, once the control die drives a stack (Table 28-3). -/
def driven (x : Stack) : Stack :=
  { x with given := if x.temp < 85 then 1 else if x.temp < 95 then 2 else 4
           hold := if 95 ≤ x.temp then true else if x.temp < 92 then false else x.hold }
/-- A pass reports each uncorrectable line of a range that it serves, and leaves it. -/
def scrubbed (s : State) (first count : Nat) (serves : Nat → Bool) : State :=
  (s.badLines.filter fun l => first ≤ l ∧ l < first + count ∧ serves l = true).foldl (fun u l => (u.setRrs (2 ^ 2)).manage none (64 * l)) s
/-- A stack or a controller of a die serves a line (R247). -/
def servedBy (s : State) (d : Fin 4) (v : Server) (l : Nat) : Bool := coreDie (homeDie (l * 64) * 128) == d && s.server (l * 64) == some v

end Sys2Proof.Claim

/-- R27, R447, R448, R450 to R453, R466 with Tables 28-3, 28-4: issue holds by the samples of power, above 4.2 kW, with a mean above 3.6 kW, or in an
excursion that is not allowed (which cores are named is assumption log 40); a junction at 110 degrees stops a die, with one management event,
until it has cooled; a failed link sets its bit of RRS, and cuts off a die: DIEOK 0, its bit set, an event, its strands ended and the LINK house
fault of each of their launches raised, naming them, by the package that launched, with the trap that an ended strand had entered to be
recorded as superseded (assumption log 105); scrub reports uncorrectable lines; a base-die core's beats, its failure, the takeover and the rates of
refresh; a failed controller. A bit of RRS that becomes set sends an event of kind 4. -/
def Obligations.PowerAndWear : Prop :=
  ∀ (s : State),
    (∀ m, m < 2 ^ 42 → (s.setRrs m).rrs.toNat % 2 ^ 48 = s.rrs.toNat % 2 ^ 48 ||| m ∧
      (((s.setRrs m).fns[pf]).evtail = if s.rrs.toNat ||| m = s.rrs.toNat then (s.fns[pf]).evtail else (s.fns[pf]).evtail + 1)) ∧
    (∀ v, ((s.manage none v).fns[pf]).evtail = (s.fns[pf]).evtail + 1 ∧ (s.manage none v).rrs.toNat % 2 ^ 48 = s.rrs.toNat % 2 ^ 48) ∧
    (∀ watts mx vec,
      let p := s.power.sample watts
      let all := mx = [] ∧ vec = []
      p.samples = (watts :: s.power.samples).take 100000 ∧
      (4200 < watts ∨ 3600 * p.samples.length < p.samples.sum ∨ 3600 < watts ∧ (s.power.armed = false ∨ 10000 ≤ s.power.excursion) → p.over_ = true) ∧
      (watts ≤ 3600 → p.samples.sum ≤ 3600 * p.samples.length → p.over_ = false) ∧
      ∃ t, exec (.powerSample watts mx vec) s = .next t ∧ t.power = p ∧ t.mem = s.mem ∧ t.st = s.st ∧
        ∀ c, t.coreOf c = if c < 512 then { s.coreOf c with
          holdMx := decide (p.over_ = true ∧ (all ∨ c ∈ mx)), holdVec := decide (p.over_ = true ∧ (all ∨ c ∈ vec)) } else s.coreOf c) ∧
    (∀ d : Fin 4,
      ((s.dies[d]).hot = false → exec (.thermalStop d.val) s =
        .next (({ s with dies := s.dies.set d { s.dies[d] with hot := true } } : State).manage none d.val)) ∧
      ((s.dies[d]).hot = true → exec (.thermalStop d.val) s = .next s) ∧
      exec (.junctionCooled d.val) s = .next { s with dies := s.dies.set d { s.dies[d] with hot := false } }) ∧
    (∀ n, n < 10 → exec (.linkFailure n) s = .next (s.setRrs (2 ^ (32 + n)))) ∧
    (∀ (d : Fin 4) (n : Nat), Claim.inOrder s → (s.dies[d]).cut = false → n < 10 → s.rrs.getLsbD (32 + n) = true → Claim.cutOff n = d.val →
      ∃ w, exec (.dieCutoff d.val) s = .next w ∧ (w.dies[d]).cut = true ∧
        (∀ i : Fin 4, (w.diecfg[i]).toNat = if i = d then (s.diecfg[i]).toNat - (if (s.diecfg[i]).getLsbD 54 then 2 ^ 54 else 0) else (s.diecfg[i]).toNat) ∧
        w.rrs.getLsbD (28 + d.val) = true ∧ w.mem = s.mem ∧
        (∀ sn t, s.strand? sn = some t → t.onDie d = true → ∃ u, w.strand? sn = some u ∧ u.live = false) ∧
        (∀ sn t, s.strand? sn = some t → t.onDie d = false → w.strand? sn = some t) ∧
        (∀ l ∈ s.launches, l.live = true → l.origin = none → (∃ t ∈ s.strands, t.onDie d = true ∧ t.sched.lid = l.lid) →
          ∃ l' ∈ w.launches, l'.lid = l.lid ∧ ∃ (old new : List HouseFault), l'.faults = old ++ new ∧ old = l.faults ∧ (∃ f ∈ new, f.event = 2) ∧
            ∀ f ∈ new, f.event = 2 ∧ (l'.liveOff s.handle.toNat d f.inst = true ∨ f.inst = 0 ∨ (l'.insts[f.inst]?).bind (·.parent) = none) ∧
                f.gone ≠ [] ∧ (∀ i ∈ f.gone, ∃ t ∈ s.strands, t.onDie d = true ∧ t.sched.lid = l.lid ∧ t.sched.inst = i) ∨
              f.event = 1 ∧ ∃ t ∈ s.strands, t.onDie d = true ∧ t.sched.lid = l.lid ∧ t.entered = true ∧ f.child = some t.sched.inst) ∧
        (∀ l ∈ s.launches, l.live = true → ∀ home, l.origin = some home → (∃ t ∈ s.strands, t.onDie d = true ∧ t.sched.lid = l.lid) →
          ∃ gone, .cutOff home (l.lid % 2 ^ 32) gone ∈ w.fabricOut ∧
            ∀ t ∈ s.strands, t.onDie d = true → t.sched.lid = l.lid → (t.sched.inst, t.claims) ∈ gone) ∧
        (∀ l ∈ s.launches, (∀ t ∈ s.strands, t.onDie d = true → t.sched.lid ≠ l.lid) → l ∈ w.launches)) ∧
    (∀ (d : Fin 4) (k : Fin 3),
      let x := Claim.stackOf s d k
      (∀ first count worn, s.act.getLsbD 6 = false → x.failed = false → (s.dies[d]).cut = false →
        exec (.scrubPass d.val k.val first count worn) s = .next (let u := Claim.scrubbed s first count (Claim.servedBy s d (.stack k.val))
          if worn then u.setRrs (2 ^ (4 + Claim.place d k)) else u)) ∧
      (x.failed = false → exec (.heartbeat d.val k.val) s = .next (Claim.withStack s d k fun y => { y with beats := y.beats + 1 })) ∧
      (x.failed = false → exec (.baseDieCoreFailed d.val k.val) s =
        .next (((({ Claim.withStack s d k (fun y => { y with failed := true }) with duty := s.duty ||| 0x20 } : State).setRrs
          (2 ^ (16 + Claim.place d k)))).manage none (Claim.place d k))) ∧
      (x.failed = true → x.taken = false → exec (.refreshTakeover d.val k.val) s =
        .next { Claim.withStack s d k (fun y => Claim.driven { y with taken := true }) with act := s.act ||| 0x20 }) ∧
      (∀ temp, exec (.refreshDouble d.val k.val temp) s = .next (Claim.withStack s d k fun y =>
        let z := { y with temp, doubled := if 85 ≤ temp then true else if temp < 82 then false else y.doubled }
        if y.taken then Claim.driven z else z)) ∧
      (∀ rate, s.act.getLsbD 5 = true → x.taken = false → exec (.hostRefreshSetting d.val k.val rate) s =
        .next (Claim.withStack s d k fun y => { y with given := rate }))) ∧
    (∀ (d : Fin 4) c first count worn, s.act.getLsbD 6 = false → (s.dies[d]).cut = false →
      exec (.scrubPass d.val (3 + c) first count worn) s = .next (Claim.scrubbed s first count (Claim.servedBy s d (.controller c)))) ∧
    (∀ d c, d < 4 → c < 4 → exec (.capacityTierControllerFailed d c) s = .next ((s.setRrs (2 ^ 3)).manage none (4 * d + c)))

namespace Sys2Proof.Claim

/-! ### Tables the host writes (R396, R397, R407, R409, R410, R436, R461) -/

/-- An entry of n doublewords with one replaced. -/
def replaced (n : Nat) (old : List Word) (dw : Nat) (x : Word) : List Word := (List.range n).map fun i => if i = dw then x else old.getD i 0
/-- Zero fields of a partition entry, and RFIRST + RCOUNT at most 256 (Table 25-1). -/
def partFields (p : List Word) : Prop :=
  let d := (p.getD 0 0).toNat
  d / 2 ^ 36 % 2 ^ 4 = 0 ∧ d / 2 ^ 56 = 0 ∧ d / 2 ^ 40 % 2 ^ 8 + d / 2 ^ 48 % 2 ^ 8 ≤ 256 ∧ (p.getD 1 0).toNat / 2 ^ 16 = 0 ∧
  ∀ x ∈ p.drop 2, x.toNat / 2 ^ 46 = 0
/-- Zero fields of a region record (Table 25-2). -/
def regionFields (r : List Word) : Prop :=
  let a := (r.getD 0 0).toNat
  a / 2 % 8 = 0 ∧ a / 2 ^ 8 % 2 ^ 8 = 0 ∧ a / 2 ^ 52 = 0 ∧ (r.getD 1 0).toNat % 2 ^ 27 = 0 ∧ (r.getD 1 0).toNat / 2 ^ 52 = 0 ∧
  (r.getD 2 0).toNat / 2 ^ 16 = 0 ∧ (r.getD 3 0).toNat % 4 = 0 ∧ (r.getD 3 0).toNat / 2 ^ 55 = 0
/-- A valid record names a partition that owns it and holds its root table and its sidecar pool, and a DRID other than 0. -/
def regionPlaces (s : State) (n : Nat) (r : List Word) : Prop :=
  (r.getD 0 0).getLsbD 0 = true →
    let p := s.part ((r.getD 0 0).toNat / 2 ^ 4 % 2 ^ 4)
    let first := (nth p 0 0).toNat / 2 ^ 40 % 2 ^ 8
    (nth p 0 0).getLsbD 35 = true ∧ first ≤ n ∧ n < first + (nth p 0 0).toNat / 2 ^ 48 % 2 ^ 8 ∧
    partHolds p ((r.getD 0 0).toNat / 2 ^ 16 % 2 ^ 36 * 2 ^ 16) 65536 = true ∧
    partHolds p ((r.getD 1 0).toNat / 2 ^ 27 % 2 ^ 25 * 2 ^ 27) (2 ^ 32) = true ∧ (r.getD 2 0).toNat % 2 ^ 16 ≠ 0
/-- Zero fields of a save-area entry, and its areas inside the partition's ranges: its frames, and the scratch images. -/
def saveFields (s : State) (n : Nat) (x : List Word) : Prop :=
  let b := (x.getD 0 0).toNat
  let frames := (x.getD 1 0).toNat % 2 ^ 16
  let c := (x.getD 2 0).toNat
  b % 2 ^ 20 = 0 ∧ b / 2 ^ 52 = 0 ∧ c % 2 ^ 25 = 0 ∧ c / 2 ^ 52 = 0 ∧
  (frames ≠ 0 → partHolds (s.part n) b (frames * 2 ^ 20) = true) ∧ partHolds (s.part n) c (2 ^ 30) = true
/-- ERR of a function's page set. -/
def errored (s : State) (fn : Fin 17) : State := { s with fns := s.fns.set fn { s.fns[fn] with err := true } }
/-- A function answers the host (R461). -/
def answers (s : State) (fn : Nat) : Prop := fn = 16 ∧ s.phase ≠ .off ∨ fn < 16 ∧ s.phase = .ready
/-- A page of a function replaced. -/
def withPage (s : State) (fn : Fin 17) (f : FnPage → FnPage) : State := { s with fns := s.fns.set fn (f s.fns[fn]) }
/-- A doubleword of a window, as a read returns it. -/
def reads (s : State) (fn off : Nat) (x : Word) : Prop := s.barRead fn 0 off 8 = some x.toNat
/-- The registers of a function's page (Table 30-2). -/
def pageReads (s : State) (fn : Fin 17) : Prop :=
  let p := s.fns[fn]
  reads s fn.val 0 0 ∧ reads s fn.val 0x08 (wrap (p.launches.length % 256 + p.mpend % 256 * 2 ^ 8 + (if p.err then 2 ^ 16 else 0) : Nat)) ∧
  reads s fn.val 0x10 0 ∧ reads s fn.val 0x18 p.evring ∧ reads s fn.val 0x20 (wrap p.evtail.toNat) ∧
  reads s fn.val 0x30 (if fn = 16 then wrap s.fwst.toNat else 0)
/-- A function's page of BAR 0 is written a doubleword at an offset. -/
noncomputable def rings (s : State) (fn : Fin 17) (off : Nat) (x : Word) : Out := exec (.registerWrite fn.val 0 off 8 x.toNat) s

end Sys2Proof.Claim

/-- R396, R397, R409, R410, R436 with Tables 25-1, 25-2: a write of one doubleword of a partition entry, region record or save-area entry takes effect
when the entry it makes keeps its field rules, shares nothing and has no live launch, and sets ERR otherwise; V of a region going from 1 to 0
appends the record that invalidates it on every die, and is held, with the writes of that record that come after it, while a log is full; a save-area entry is checked with each doubleword as the
others stand (assumption log 109); DUTY takes the bits written, and ACT a changed bit once nothing of the old mode is under way. -/
def Obligations.HostTables : Prop :=
  ∀ (s : State) (x : Word),
    (∀ n dw, s.phase ≠ .off → n < 16 → dw < 8 →
      let p := Claim.replaced 8 (s.part n) dw x
      let good := (∀ l ∈ s.launches, l.live = true → l.partn ≠ n) ∧ Claim.partFields p ∧ s.partsMeet n p = false
      (good → exec (.partitionEntryWrite n dw x) s = .next { s with parts := SMap.put s.parts n p }) ∧
      (¬ good → exec (.partitionEntryWrite n dw x) s = .next (Claim.errored s 16))) ∧
    (∀ fn r dw, Claim.answers s fn → r < 256 → dw < 4 → (∃ v ∈ s.heldWrites, v.record = r) →
      exec (.regionRecordWrite fn r dw x) s = .next { s with heldWrites := s.heldWrites ++ [⟨fn, r, dw, 0, 8, x.toNat⟩] }) ∧
    (∀ fn r dw, s.heldWrites = [⟨fn, r, dw, 0, 8, x.toNat⟩] → dw < 4 →
      let rec_ : Word × Word := (Claim.wrap (0xF3 + 256 * r : Nat), 0)
      s.settleHeld = if ∀ d : Fin 4, (s.dies[d]).log.length < 4096 then { Claim.appended s rec_ with
          heldWrites := [], regions := SMap.put s.regions r (Claim.replaced 4 (s.regionRec r) dw x) } else s) ∧
    (∀ fn r dw, Claim.answers s fn → r < 256 → dw < 4 → (∀ v ∈ s.heldWrites, v.record ≠ r) →
      let old := s.regionRec r
      let new := Claim.replaced 4 old dw x
      let owner := (nth (s.part fn) 0 0).toNat
      let mine := fn = 16 ∨ owner / 2 ^ 35 % 2 = 1 ∧ owner / 2 ^ 40 % 2 ^ 8 ≤ r ∧ r < owner / 2 ^ 40 % 2 ^ 8 + owner / 2 ^ 48 % 2 ^ 8
      let good := mine ∧ (∀ l ∈ s.launches, l.live = true → l.region ≠ r) ∧ Claim.regionFields new ∧ Claim.regionPlaces s r new
      let gone := (nth old 0 0).getLsbD 0 = true ∧ (new.getD 0 0).getLsbD 0 = false
      let rec_ : Word × Word := (Claim.wrap (0xF3 + 256 * r : Nat), 0)
      (¬ good → exec (.regionRecordWrite fn r dw x) s = .next (Claim.errored s (fnIx fn))) ∧
      (good → ¬ gone → exec (.regionRecordWrite fn r dw x) s = .next { s with regions := SMap.put s.regions r new }) ∧
      (good → gone → (∀ d : Fin 4, (s.dies[d]).log.length < 4096) →
        exec (.regionRecordWrite fn r dw x) s = .next { Claim.appended s rec_ with regions := SMap.put s.regions r new }) ∧
      (good → gone → (∃ d : Fin 4, 4096 ≤ (s.dies[d]).log.length) →
        exec (.regionRecordWrite fn r dw x) s = .next { s with heldWrites := s.heldWrites ++ [⟨fn, r, dw, 0, 8, x.toNat⟩] })) ∧
    (∀ n dw, s.phase ≠ .off → n < 16 → dw < 3 →
      let e := Claim.replaced 4 (SMap.getD s.saveArea n []) dw x
      (Claim.saveFields s n e → exec (.saveAreaWrite n dw x) s = .next { s with saveArea := SMap.put s.saveArea n e }) ∧
      (¬ Claim.saveFields s n e → exec (.saveAreaWrite n dw x) s = .next (Claim.errored s 16))) ∧
    (s.phase ≠ .off → exec (.dutyWrite x) s = .next { s with duty := BitVec.ofNat 7 (x.toNat % 2 ^ 7) }) ∧
    (∀ b, b < 7 → s.duty.getLsbD b ≠ s.act.getLsbD b →
      (b = 0 → ∀ who r va acc, .walk who r va acc ∉ s.hostPosts) → (b = 1 → ∀ f a l, .placement f a l ∉ s.hostPosts) →
      (b = 2 → ∀ d w, .topo d w ∉ s.hostPosts) → (b = 3 → (∀ g r, .members g r ∉ s.hostPosts) ∧ ∀ g ∈ s.groups, s.isHome g = true → g.phase ≠ 1) →
      (b = 4 → ∀ d : Fin 4, (s.dies[d]).logPosted = 0) →
      (b = 5 → ∀ (d : Fin 4) (k : Fin 3), (Claim.stackOf s d k).failed = true → (Claim.stackOf s d k).taken = true) →
      exec (.dutyActUpdate b) s = .next { s with act := s.act ^^^ BitVec.ofNat 7 (2 ^ b) })

/-- R348, R407, R461, R463, R464, R469 with Tables 30-1, 30-2: a doubleword written to a window: LAUNCH takes a record address where its fields, region and room allow, MBOX
a request where there is room, and set ERR otherwise; ERR is cleared by 1 at bit 16; EVRING takes its page; FWGO, DUTY, the entries and records
are written as HostTables says; the fabric tables take the doubleword; BAR 2 stages firmware before READY. A virtual function reaches the
records its partition owns; what a function does not show ignores the write. A read returns the page's registers, the entries and records,
the remap table, DUTY and ACT, RRS, DIECFG, SHARE and the measurements, and zero where nothing is listed; none is answered by a function
that is disabled. -/
def Obligations.RegisterWindows : Prop :=
  ∀ (s : State) (x : Word),
    (∀ fn : Fin 17, Claim.answers s fn.val →
      let p := s.fns[fn]
      let ridx := x.toNat / 2 ^ 55 % 2 ^ 8
      let part := nth (s.part fn.val) 0 0
      let takes := fn ≠ 16 ∧ x.toNat % 64 = 0 ∧ x.getLsbD 63 = false ∧ part.getLsbD 35 = true ∧ ridx < part.toNat / 2 ^ 48 % 2 ^ 8 ∧
        (nth (s.regionRec (part.toNat / 2 ^ 40 % 2 ^ 8 + ridx)) 0 0).getLsbD 0 = true ∧ p.launches.length < 16 ∧ s.lids < 2 ^ 32 - 1
      (takes → Claim.rings s fn 0 x = .next (Claim.withPage s fn fun q => { q with launches := q.launches ++ [(x.toNat % 2 ^ 55, ridx)] })) ∧
      (¬ takes → Claim.rings s fn 0 x = .next (Claim.errored s fn)) ∧
      (Claim.rings s fn 8 x = .next (if x.getLsbD 16 then Claim.withPage s fn fun q => { q with err := false } else s)) ∧
      (x.toNat % 256 = 0 → p.mpend < 8 → Claim.rings s fn 0x10 x =
        .next (Claim.withPage s fn fun q => { q with mpend := q.mpend + 1, requests := q.requests ++ [x.toNat] })) ∧
      (x.toNat % 256 ≠ 0 ∨ 8 ≤ p.mpend → Claim.rings s fn 0x10 x = .next (Claim.errored s fn)) ∧
      (Claim.rings s fn 0x18 x = .next (Claim.withPage s fn fun q => { q with evring := Claim.wrap (x.toNat / 2 ^ 12 % 2 ^ 43 * 2 ^ 12 : Nat) })) ∧
      (Claim.rings s fn 0x20 x = .next s)) ∧
    (s.phase ≠ .off →
      (Claim.rings s 16 0x28 x = exec (.fwgo x) s) ∧ (Claim.rings s 16 0x1F0000 x = exec (.dutyWrite x) s) ∧
      (∀ n dw, n < 16 → dw < 8 → Claim.rings s 16 (0x100000 + 64 * n + 8 * dw) x = exec (.partitionEntryWrite n dw x) s) ∧
      (∀ r dw, r < 256 → dw < 4 → Claim.rings s 16 (0x110000 + 32 * r + 8 * dw) x = exec (.regionRecordWrite 16 r dw x) s) ∧
      (∀ n dw, n < 16 → dw < 3 → Claim.rings s 16 (0x180000 + 32 * n + 8 * dw) x = exec (.saveAreaWrite n dw x) s) ∧
      (∀ e dw, e < 256 → dw < 2 → Claim.rings s 16 (0x120000 + 16 * e + 8 * dw) x =
        .next { s with outTable := SMap.put s.outTable e (Claim.replaced 2 (SMap.getD s.outTable e []) dw x) }) ∧
      (∀ e dw, e < 256 → dw < 4 → Claim.rings s 16 (0x130000 + 32 * e + 8 * dw) x =
        .next { s with inTable := SMap.put s.inTable e (Claim.replaced 4 (SMap.getD s.inTable e []) dw x) }) ∧
      (∀ off len data, s.phase ≠ .ready → off + len ≤ 2 ^ 28 → exec (.registerWrite 16 2 off len data) s =
        .next { s with staging := Memory.writeN s.staging off len data })) ∧
    (s.phase = .ready → ∀ (fn : Fin 16) (i dw : Nat), dw < 4 → i < 256 →
      let part := (nth (s.part fn.val) 0 0).toNat
      exec (.registerWrite fn.val 0 (0x10000 + 32 * i + 8 * dw) 8 x.toNat) s =
        if i < part / 2 ^ 48 % 2 ^ 8 then exec (.regionRecordWrite fn.val (part / 2 ^ 40 % 2 ^ 8 + i) dw x) s else .next s) ∧
    (∀ fn : Fin 17, (¬ Claim.answers s fn.val → ∀ bar off len, s.barRead fn.val bar off len = none) ∧ (Claim.answers s fn.val → Claim.pageReads s fn)) ∧
    (∀ fn bar off len, s.hostRead fn bar off len = { s with hostAnswer := s.barRead fn bar off len }) ∧
    (s.phase ≠ .off → ∀ n e r dw,
      (n < 16 → dw < 8 → Claim.reads s 16 (0x100000 + 64 * n + 8 * dw) ((SMap.getD s.parts n []).getD dw 0)) ∧
      (r < 256 → dw < 4 → Claim.reads s 16 (0x110000 + 32 * r + 8 * dw) ((s.regionRec r).getD dw 0)) ∧
      (e < 256 → dw < 2 → Claim.reads s 16 (0x120000 + 16 * e + 8 * dw) ((SMap.getD s.outTable e []).getD dw 0)) ∧
      (e < 256 → dw < 4 → Claim.reads s 16 (0x130000 + 32 * e + 8 * dw) ((SMap.getD s.inTable e []).getD dw 0)) ∧
      (n < 16 → dw < 4 → Claim.reads s 16 (0x180000 + 32 * n + 8 * dw) ((SMap.getD s.saveArea n []).getD dw 0)) ∧
      (let x := s.remapOf e
       e < 1024 → x.pid < 2 ^ 16 → x.rgen < 2 ^ 32 → x.ports < 2 ^ 32 → x.opid < 2 ^ 16 → x.oports < 2 ^ 32 →
        Claim.reads s 16 (0x140000 + 32 * e) (Claim.wrap ((if x.v then 1 else 0) + (if x.pend then 2 else 0) + x.pid * 2 ^ 16 + x.rgen * 2 ^ 32 : Nat)) ∧
        Claim.reads s 16 (0x140008 + 32 * e) (Claim.wrap x.ports) ∧ Claim.reads s 16 (0x140010 + 32 * e) (Claim.wrap (x.opid * 2 ^ 16 : Nat)) ∧
        Claim.reads s 16 (0x140018 + 32 * e) (Claim.wrap x.oports)) ∧
      Claim.reads s 16 0x1F0000 (Claim.wrap (s.duty.toNat + 2 ^ 8 * s.act.toNat : Nat)) ∧ Claim.reads s 16 0x1F0008 s.rrsRead ∧
      (∀ d : Fin 4, Claim.reads s 16 (0x1F0010 + 8 * d.val) s.diecfg[d]) ∧ Claim.reads s 16 0x1F0030 (Claim.wrap s.share.toNat) ∧
      Claim.reads s 16 0x1F0038 0 ∧
      (∀ (i j : Fin 8), Claim.reads s 16 (0x1F0040 + 64 * i.val + 8 * j.val) (Claim.wrap ((s.meas[i]).toNat / 2 ^ (64 * j.val) : Nat))) ∧
      (∀ off, off % 8 = 0 → 0x1F0240 ≤ off → off < 0x200000 → Claim.reads s 16 off 0) ∧
      (∀ off len, off + len ≤ 2 ^ 28 → s.barRead 16 2 off len = some (Memory.readN s.staging off len))) ∧
    (s.phase = .ready → ∀ (fn : Fin 16) (i dw : Nat), dw < 4 → i < 256 →
      let part := (nth (s.part fn.val) 0 0).toNat
      Claim.reads s fn.val (0x10000 + 32 * i + 8 * dw)
        (if i < part / 2 ^ 48 % 2 ^ 8 then (s.regionRec (part / 2 ^ 40 % 2 ^ 8 + i)).getD dw 0 else 0))

namespace Sys2Proof.Claim

/-! ### The mailbox (R405, R413, R441, R446, R451, R463) -/

/-- The oldest request of a function stands at a bus address that can be read, and asks for an operation. -/
def asks (s : State) (fn : Fin 17) (a op : Nat) : Prop :=
  s.phase = .ready ∧ (s.fns[fn]).requests.head? = some a ∧ s.mailOpen fn a = true ∧ (s.mailDw fn a 0).toNat % 2 ^ 16 = op
/-- A field of n bytes at an offset of a number of bytes. -/
def byteField (b o n : Nat) : Nat := b / 2 ^ (8 * o) % 2 ^ (8 * n)
/-- The quote of a scope (Table 25-9). -/
def isQuote (s : State) (fn : Fin 17) (scope a b : Nat) : Prop :=
  b < 2 ^ (8 * 784) ∧ byteField b 0 8 = 1 ∧ byteField b 8 8 = scope ∧
  (∀ i, i < 8 → byteField b (16 + 8 * i) 8 = (s.mailDw fn a (3 + i)).toNat) ∧ byteField b 80 16 = Config.partSerial.toNat ∧
  (∀ i : Fin 8, byteField b (96 + 64 * i.val) 64 = (s.meas[i]).toNat) ∧ (∀ d : Fin 4, byteField b (608 + 8 * d.val) 8 = (s.diecfg[d]).toNat) ∧
  byteField b 640 8 = Config.fusedVersion.toNat ∧ byteField b 648 8 = s.duty.toNat + 2 ^ 8 * s.act.toNat ∧
  (∀ i, i < 8 → byteField b (656 + 8 * i) 8 = if scope = 16 then 0 else (nth (s.part scope) i 0).toNat) ∧
  byteField b 720 64 = (digest (Machine.wordBytes (s.scopeRegions scope)).1 (Machine.wordBytes (s.scopeRegions scope)).2).toNat
/-- An output area of n bytes takes a number, as far as DMA reaches it; and whether that is all of it. -/
def put (s : State) (a n x : Nat) : State := { s with hostMem := Memory.writeN s.hostMem a (s.hostPrefix a n) x }
def outStatus (s : State) (a n : Nat) : Nat := if s.hostPrefix a n = n then 0 else 4
/-- Phase 1 of a remap at a package (R446). -/
def prepared (s : State) (h gen pid ports : Nat) : State :=
  let e := s.remapOf h
  { s with remap := SMap.put s.remap h { e with v := true, pend := true, opid := e.pid, oports := e.ports, pid, ports, rgen := gen } }
/-- Bytes of n at one place of a memory are those at a place of another. -/
def sameBytes (m : Memory) (a : Nat) (m' : Memory) (b n : Nat) : Prop := ∀ o, o < n → Memory.read m (a + o) = Memory.read m' (b + o)
/-- SWAP of two partitions may go: b is staged, a has a save area and is not suspended, and both have the same sections. -/
def maySwap (s : State) (a b : Nat) : Prop :=
  a ≠ b ∧ b ∈ s.staged ∧ SMap.find s.saveArea a ≠ none ∧ s.sectionsOf a = s.sectionsOf b ∧ a ∉ s.suspended
/-- First byte of a partition's scratch images. -/
def scratchImages (s : State) (p : Nat) : Nat := (nth (SMap.getD s.saveArea p []) 2 0).toNat / 2 ^ 25 % 2 ^ 27 * 2 ^ 25

end Sys2Proof.Claim

/-- R463 with Table 30-3, R405, R413, R446, R451: the oldest request of a function is answered with a STATUS and an event of kind 3, and leaves the list;
one that cannot be read is dropped with ERR; an unlisted OP answers BADOP, an operation of the physical function PRIV elsewhere. QUOTE writes
the quote of its scope and its signature, CERT the certificate, SCRUB reports the lines of its range, LOGAPP appends once the logs have room; PREPARE and COMMIT answer
when every package has replied; a request that takes more than one event is read once. That SCRUB with ACT.SCRUB 0 answers
BADOP is the model's choice (assumption log 71). -/
def Obligations.MailboxOperations : Prop :=
  ∀ (s : State) (fn : Fin 17) (a : Nat),
    (∀ st, let t := s.reply fn a st
      (t.fns[fn]).requests = (s.fns[fn]).requests.tail ∧ (t.fns[fn]).mpend = (s.fns[fn]).mpend - 1 ∧ (t.fns[fn]).evtail = (s.fns[fn]).evtail + 1 ∧
      t.mem = s.mem ∧ (t.fns[fn]).taken = [] ∧ (s.hostWritable (a + 128) 128 = false → (t.fns[fn]).err = true) ∧
      (s.hostWritable (a + 128) 128 = true → (s.fns[fn]).evring.toNat / 2 ^ 12 % 2 ^ 43 = 0 → s.hostMem.wf = true → st < 2 ^ 64 →
        Memory.readN t.hostMem (a + 128) 8 = st)) ∧
    (s.phase = .ready → (s.fns[fn]).requests.head? = some a → s.mailOpen fn a = false → exec (.quote fn.val) s =
      .next (Claim.withPage s fn fun p => { p with requests := p.requests.tail, taken := [], mpend := p.mpend - 1, err := true })) ∧
    (∀ op, Claim.asks s fn a op → op = 0 ∨ 8 < op → exec (.quote fn.val) s = .next (s.reply fn a 1)) ∧
    (fn ≠ 16 →
      (Claim.asks s fn a 3 → exec (.stage fn.val) s = .next (s.reply fn a 2)) ∧ (Claim.asks s fn a 4 → exec (.swap fn.val) s = .next (s.reply fn a 2)) ∧
      (Claim.asks s fn a 5 → exec (.prepare fn.val none) s = .next (s.reply fn a 2)) ∧
      (Claim.asks s fn a 6 → exec (.commit fn.val none) s = .next (s.reply fn a 2)) ∧
      (Claim.asks s fn a 7 → exec (.scrub fn.val) s = .next (s.reply fn a 2)) ∧ (Claim.asks s fn a 8 → exec (.logapp fn.val) s = .next (s.reply fn a 2))) ∧
    (Claim.asks s fn a 1 →
      let scope := (s.mailDw fn a 1).toNat
      let dest := (s.mailDw fn a 2).toNat
      (16 < scope → exec (.quote fn.val) s = .next (s.reply fn a 1)) ∧
      (scope ≤ 16 → fn ≠ 16 → scope ≠ fn.val → exec (.quote fn.val) s = .next (s.reply fn a 2)) ∧
      (scope ≤ 16 → fn = 16 ∨ scope = fn.val → ∃ b, Claim.isQuote s fn scope a b ∧
        let u := { s with freeNo := s.freeNo + 1 }
        exec (.quote fn.val) s = .next ((Claim.put u dest 1296 (b + (identitySign 784 b s.freeNo).toNat * 2 ^ (8 * 784))).reply fn a
          (Claim.outStatus s dest 1296)))) ∧
    (Claim.asks s fn a 2 →
      let n := min Config.certLength (s.mailDw fn a 3).toNat
      let dest := (s.mailDw fn a 2).toNat
      (n = 0 → exec (.cert fn.val) s = .next (s.reply fn a 0)) ∧
      (0 < n → ∃ b, (∀ i, i < n → Claim.byteField b i 1 = (Config.certByte i).toNat) ∧
        exec (.cert fn.val) s = .next ((Claim.put s dest n b).reply fn a (Claim.outStatus s dest n)))) ∧
    (Claim.asks s 16 a 7 →
      (s.act.getLsbD 6 = true → exec (.scrub 16) s =
        .next ((Claim.scrubbed s ((s.mailDw 16 a 1).toNat / 64) (s.mailDw 16 a 2).toNat
          fun l => (s.server (l * 64)).isSome && !(s.dies[coreDie (homeDie (l * 64) * 128)]).cut).reply 16 a 0)) ∧
      (s.act.getLsbD 6 = false → exec (.scrub 16) s = .next (s.reply 16 a 1))) ∧
    (Claim.asks s 16 a 8 →
      let r := (s.mailDw 16 a 1, s.mailDw 16 a 2)
      (¬ Claim.recordFields r → exec (.logapp 16) s = .next (s.reply 16 a 1)) ∧
      (Claim.recordFields r → (∀ d : Fin 4, r.1.getLsbD (4 + d.val) = true → (s.dies[d]).log.length < 4096) →
        exec (.logapp 16) s = .next ((Claim.appended s r).reply 16 a 0)) ∧
      (Claim.recordFields r → (∃ d : Fin 4, r.1.getLsbD (4 + d.val) = true ∧ 4096 ≤ (s.dies[d]).log.length) →
        exec (.logapp 16) s = .next (s.takeMail 16 a))) ∧
    (let h := (s.mailDw 16 a 1).toNat % 2 ^ 10
     let e := s.remapOf h
     let gen := (e.rgen + 1) % 2 ^ 32
     let pid := (s.mailDw 16 a 1).toNat / 2 ^ 16 % 2 ^ 16
     let ports := (s.mailDw 16 a 2).toNat % 2 ^ 32
     let free := fun (p : Nat) => ∀ o ∈ s.remapOps, ¬ (o.handle = h ∧ o.phase = p)
     let done : State → State := fun u => { u with
       remap := SMap.put u.remap h { e with pend := false }, fabricOut := u.fabricOut ++ [FabMsg.remapReply h e.rgen 3] }
     (Claim.asks s 16 a 5 → free 1 →
      (e.pend = true → exec (.prepare 16 none) s = .next (s.reply 16 a 3)) ∧
      (e.pend = false → s.otherPackages = [] → exec (.prepare 16 none) s = .next ((Claim.prepared s h gen pid ports).reply 16 a 0)) ∧
      (e.pend = false → s.otherPackages ≠ [] → exec (.prepare 16 none) s = .next (State.takeMail { Claim.prepared s h gen pid ports with
        fabricOut := s.fabricOut ++ [.prepare h gen pid ports], remapOps := s.remapOps ++ [⟨16, a, h, 1, s.otherPackages⟩] } 16 a))) ∧
     (Claim.asks s 16 a 6 → free 1 → free 2 →
      (e.pend = false → exec (.commit 16 none) s = .next (s.reply 16 a 1)) ∧
      (e.pend = true → s.otherPackages = [] → s.oldGone h = true → exec (.commit 16 none) s = .next ((done s).reply 16 a 0)) ∧
      (e.pend = true → s.otherPackages ≠ [] ∨ s.oldGone h = false → exec (.commit 16 none) s = .next (State.takeMail { s with
        fabricOut := s.fabricOut ++ [.commit h e.rgen], remapOps := s.remapOps ++ [⟨16, a, h, 2, s.otherPackages⟩] } 16 a))) ∧
     (∀ o, o ∈ s.remapOps → o.handle = h → o.left = [] → (∀ x ∈ s.remapOps, x.handle = h ∧ x.phase = o.phase → x = o) →
      let u := { s with remapOps := s.remapOps.filter fun x => ¬ (x.handle = h ∧ x.phase = o.phase) }
      (o.phase = 1 → Claim.asks s 16 a 5 → exec (.prepare 16 none) s = .next (u.reply 16 a 0)) ∧
      (o.phase = 2 → s.oldGone h = true → Claim.asks s 16 a 6 → exec (.commit 16 none) s = .next ((done u).reply 16 a 0)))) ∧
    (∀ (p h gen pid ports : Nat), h < 2 ^ 10 → gen < 2 ^ 32 → pid < 2 ^ 16 → ports < 2 ^ 32 →
      ((s.remapOf h).pend = false → exec (.prepare 16 (some (p, h, gen, pid, ports))) s =
        .next { Claim.prepared s h gen pid ports with fabricOut := s.fabricOut ++ [.remapReply h gen 1] }) ∧
      ((s.remapOf h).pend = true → exec (.prepare 16 (some (p, h, gen, pid, ports))) s = .next s) ∧
      exec (.commit 16 (some (p, h, gen))) s =
        .next (if s.oldGone h then { s with fabricOut := s.fabricOut ++ [.remapReply h gen 2] } else s)) ∧
    (∀ p h ph, (ph ≠ 3 → exec (.remapCommitReply p h (s.remapOf h).rgen ph) s = .next { s with
        remapOps := s.remapOps.map fun o => if o.handle = h ∧ o.phase = ph then { o with left := o.left.filter fun q => q ≠ p } else o }) ∧
      ((s.remapOf h).pend = true → exec (.remapCommitReply p h (s.remapOf h).rgen 3) s =
        .next { s with remap := SMap.put s.remap h { s.remapOf h with pend := false } }))

/-- R441, R463: STAGE, once the regions it fills hold no image that has yet to be copied, loads b's scratch images into the shadow stores and marks
b staged in place of any partition that shares a section with it; SWAP asks a's seated strands to stop,
and when they have, saves them, exchanges the scratch of every section with what was staged, and gives b's strands the slots they held; a
SWAP that breaks a rule answers BADOP, which is the model's choice (assumption log 61, 73), as is that staged scratch of a strand that has never been
suspended reads 0 (assumption log 110). -/
def Obligations.PartitionSwap : Prop :=
  ∀ (s : State) (q : Nat), Claim.inOrder s →
    let a := (s.mailDw 16 q 1).toNat % 2 ^ 4
    let b := (s.mailDw 16 q 1).toNat / 2 ^ 4 % 2 ^ 4
    (Claim.asks s 16 q 3 →
      (b ∉ s.suspended → (∃ t ∈ s.strands, t.live = true ∧ t.partn = b) → exec (.stage 16) s = .next (s.reply 16 q 1)) ∧
      (b ∈ s.suspended → (∃ t ∈ s.strands, t.live = true ∧ t.partn = b ∧ ∃ p, t.sched.resume = some p ∧ s.shadowFree p.1 = false) →
        exec (.stage 16) s = .next (s.takeMail 16 q)) ∧
      (b ∈ s.suspended ∨ (∀ t ∈ s.strands, t.live = true → t.partn ≠ b) →
        (∀ t ∈ s.strands, t.live = true → t.partn = b → ∀ p, t.sched.resume = some p → s.shadowFree p.1 = true) → ∃ w : State, exec (.stage 16) s = .next (w.reply 16 q 0) ∧ b ∈ w.staged ∧
        (∀ p, p ≠ b → (p ∈ w.staged ↔ p ∈ s.staged ∧ ∀ i ∈ s.sectionsOf p, i ∉ s.sectionsOf b)) ∧ w.mem = s.mem ∧
        (b ∉ s.suspended → s.shadow.wf = true → ∀ i ∈ s.sectionsOf b, ∀ o, o < 2 ^ 25 → Memory.read w.shadow (stageScratch i + o) = 0) ∧
        (b ∈ s.suspended → s.mem.wf = true → s.shadow.wf = true → ∀ i ∈ s.sectionsOf b,
          Claim.sameBytes w.shadow (stageScratch i) s.mem (Claim.scratchImages s b + i * 2 ^ 25) (2 ^ 25)))) ∧
    (Claim.asks s 16 q 4 →
      (¬ Claim.maySwap s a b → exec (.swap 16) s = .next (s.reply 16 q 1)) ∧
      (Claim.maySwap s a b → (∃ t ∈ s.strands, t.seated = true ∧ t.partn = a ∧ t.sched.quiesced = false) →
        ∃ w : State, exec (.swap 16) s = .next w ∧ w.mem = s.mem ∧ ∀ n t, s.strand? n = some t →
          w.strand? n = some (if t.seated = true ∧ t.partn = a then { t with sched := { t.sched with preemptAsked := true } } else t)) ∧
      (Claim.maySwap s a b → (∀ t ∈ s.strands, t.seated = true → t.partn = a → t.sched.quiesced = true ∧ s.shadowFree t.core = true) →
        ∃ w : State, exec (.swap 16) s = .next (w.reply 16 q 0) ∧ a ∈ w.suspended ∧ b ∉ w.suspended ∧ b ∉ w.staged ∧
          (∀ n t, s.strand? n = some t → t.seated = true → t.partn = a → ∃ u, w.strand? n = some u ∧ Claim.imaged s t u ∧
            u.sched.status = .ready ∧ u.sched.resume = t.sched.place) ∧
          (∀ n t c k d z o, s.strand? n = some t → t.live = true → t.partn = b → t.seated = false → t.sched.resume = some (c, k) →
            t.sched.saved = some (d, z, o) → s.imageFault t = none → ∃ u, w.strand? n = some u ∧ u.sched.status = .seated ∧ u.sched.place = some (c, k) ∧ u.sched.resume = none) ∧
          (∀ n t, s.strand? n = some t → t.partn ≠ a → t.partn ≠ b →
            ∃ x, w.strand? n = some { t with sched := { t.sched with inShadow := x } }) ∧
          (s.mem.wf = true → s.shadow.wf = true → Claim.scratchImages s a + 2 ^ 30 ≤ 2 ^ 52 →
            (∀ t ∈ s.strands, t.seated = true → t.core < 512 ∧ t.slot < 4) → ∀ i ∈ s.sectionsOf a,
            Claim.sameBytes w.mem (secKey i) s.shadow (stageScratch i) (2 ^ 25) ∧
            Claim.sameBytes w.mem (Claim.scratchImages s a + i * 2 ^ 25) s.mem (secKey i) (2 ^ 25))))

namespace Sys2Proof.Claim

/-! ### Supply, boot and resets (R412, R464, R465) -/

/-- What the package is after power good and self-test, its host outside it as it was. -/
def fresh (s : State) (cfg : Vector Word 4) (rrs : Word) : State :=
  { State.reset with
    diecfg := cfg, rrs, hostMem := s.hostMem, hostBad := s.hostBad, hostRO := s.hostRO, hostAnswer := s.hostAnswer, turns := s.turns, stepNo := s.stepNo, freeNo := s.freeNo }
/-- What the ROM finds of the staged image (Table 30-4 step 5, Table 30-5): 0x81 a form, 0x82 the version, 0x83 the signature, 0x84 the body; 2 none. -/
def verdict (s : State) : Nat :=
  let at_ := fun (o n : Nat) => Memory.readN s.staging o n
  let body := at_ 0 4
  if at_ 8 56 ≠ 0 ∨ at_ 128 384 ≠ 0 ∨ at_ 1024 3072 ≠ 0 ∨ 2 ^ 28 - 4096 < body ∨ s.fwLen.toNat ≠ 4096 + body then 0x81
  else if at_ 4 4 < Config.fusedVersion.toNat then 0x82
  else if imageSigned (at_ 0 512) (BitVec.ofNat 4096 (at_ 512 512)) = false then 0x83
  else if (digest body (at_ 4096 body)).toNat ≠ at_ 64 64 then 0x84
  else 2

end Sys2Proof.Claim

/-- R412, R464, R465 with Tables 1-6, 30-4: power-up sets DIECFG by fuses and self-test, a failed die setting its bit of RRS.DIECUT; FWGO begins the ROM's
verdict, and fails with 0x81 during one; firmware extends MEAS3 to MEAS7, each with SHA-512 of what it held
and the digest; an image that passes leaves MEAS1 and MEAS2, SHARE where this is the first since power-up, FWST 2 and no partition entry; a link reset ends every
launch and returns to step 1, HBM4E, RRS and SHARE standing, and scratch as if it had never been written (assumption log 1); power-down leaves nothing; a function-level reset of VFn aborts the live launches of partition n and
discards its pending launches and requests; that it aborts only those this package made, and keeps EVRING, is the model's choice (assumption
log 75, 76). -/
def Obligations.BringUp : Prop :=
  ∀ (s : State),
    (∀ (fuse : Vector Word 4), s.phase = .off →
      (∀ d : Fin 4, fuse[d] &&& 0x007FF7FFFFFFFFFF = fuse[d] ∧ ∀ i, i < 8 → (fuse[d]).toNat / 2 ^ (5 * i) % 2 ^ 5 ≤ 16) →
      let rrs : Word := if ∃ d : Fin 4, fuse[d] ≠ diecfgFull then 2 else 0
      exec (.powerUp fuse.toList 0) s = .next (Claim.fresh s fuse rrs) ∧
      ∀ failed, failed < 16 → failed ≠ 0 → exec (.powerUp fuse.toList failed) s = .next ((Claim.fresh s (Vector.ofFn fun d =>
        if failed.testBit d.val then fuse[d] &&& ~~~ (BitVec.ofNat 64 (2 ^ 54)) else fuse[d]) rrs).setRrs (failed * 2 ^ 28))) ∧
    (exec .powerDown s = .next { Claim.fresh s (.replicate 4 diecfgFull) 0 with phase := .off, meas := .replicate 8 0 }) ∧
    (∀ x, (s.phase = .rom → exec (.fwgo x) s = .next { s with phase := .verifying, fwst := 1, fwLen := x }) ∧
      (s.phase = .verifying → exec (.fwgo x) s = .next { s with phase := .rom, fwst := 0x81 })) ∧
    (∀ (n : Fin 8) (d : BitVec 512), (3 ≤ n.val → s.phase = .ready →
        s.measure n.val d = { s with meas := s.meas.set n (digest 128 ((s.meas[n]).toNat + d.toNat * 2 ^ 512)) }) ∧
      (n.val < 3 ∨ s.phase ≠ .ready → s.measure n.val d = s)) ∧
    (∀ share base, s.phase = .verifying →
      (Claim.verdict s ≠ 2 → exec (.firmwareBoot share base) s = .next { s with phase := .rom, fwst := BitVec.ofNat 8 (Claim.verdict s) }) ∧
      (Claim.verdict s = 2 → ∃ t, exec (.firmwareBoot share base) s = .next t ∧ t.phase = .ready ∧ t.fwst = 2 ∧ t.parts = [] ∧
        t.share = (if s.shareSet then s.share else BitVec.ofNat 10 share) ∧ t.shareSet = true ∧ t.meas[1] = BitVec.ofNat 512 (Memory.readN s.staging 64 64) ∧ t.meas[2] = base ∧
        (∀ i : Fin 8, i ≠ 1 → i ≠ 2 → t.meas[i] = s.meas[i]) ∧ t.mem = s.mem ∧ t.diecfg = s.diecfg)) ∧
    (s.phase ≠ .off → ∃ t, exec .linkReset s = .next t ∧ t.phase = .rom ∧ t.fwst = 0 ∧ t.launches = [] ∧ t.cur = none ∧ t.others = [] ∧
      t.parts = [] ∧ t.regions = [] ∧ t.rrs = s.rrs ∧ t.diecfg = s.diecfg ∧ t.hostMem = s.hostMem ∧ t.lids = s.lids ∧ t.share = s.share ∧
      (s.mem.wf = true → ∀ a, Memory.read t.mem a = if a < 2 ^ 52 then Memory.read s.mem a else Memory.unlisted) ∧
      t.meas[0] = Config.romDigest ∧ (∀ i : Fin 8, i ≠ 0 → t.meas[i] = s.meas[i])) ∧
    (∀ n, n < 16 → s.phase = .ready → (∀ l ∈ s.launches, l.live = true → l.origin = none → l.partn ≠ n) → exec (.vfFlr n) s =
      .next { Claim.withPage s (fnIx n) (fun p => { p with launches := [], requests := [], taken := [], mpend := 0 }) with
        binderRemote := s.binderRemote.filter fun r => r.answer.isNone
        hostLeaves := s.hostLeaves.filter fun x => x.1 != 65536
        hostPosts := s.hostPosts.filter fun x => match x with
          | .placement f _ _ => decide (f ≠ n)
          | .walk w .. => w != 65536
          | _ => true }) ∧
    (∀ n w, n < 16 → s.phase = .ready → Claim.inOrder s → (s.launches.map (·.lid)).Nodup →
      (∀ l ∈ s.launches, l.live = true → l.origin = none → l.partn = n → l.insts ≠ [] ∧ Claim.peopled s l ∧ ∀ i x, l.insts[i]? = some x → l.under 0 i = true) →
      (do for l in s.launches.filter fun l => l.live && l.origin.isNone && l.partn == n do abortLaunch l : M Unit) s.asControl = .ok () w →
      ∃ t, exec (.vfFlr n) s = .next t ∧ t.mem = w.mem ∧ t.launches = w.launches ∧ (t.fns[fnIx n]).launches = [] ∧ (t.fns[fnIx n]).requests = [] ∧
        t.parts = s.parts ∧
        (∀ l ∈ s.launches, l.live = true → l.origin = none → l.partn = n → ∃ l', t.launch? l.lid = some l' ∧ l'.live = false ∧ l'.status = l.lid * 2 ^ 32 + 0x41 ∧
          (∀ (i : Nat) (x : Inst) (sn : Nat), l.insts[i]? = some x → l.levelOf i = 0 → x.status ≠ .retired → x.strand = some sn → ∃ u, t.strand? sn = some u ∧ u.live = false)) ∧
        (∀ l ∈ s.launches, l.live = false ∨ l.partn ≠ n ∨ l.origin ≠ none → l ∈ t.launches))

namespace Sys2Proof.Claim

/-! ### The machine as a whole -/

/-- What a step is, when the turn's doing is o: the same outcome, after which stores to uncorrectable lines end (R450), what has waited
for the logs takes effect and time passes. -/
def then_ (o : Out) : Out := match o with
  | .next t => .next t.dropBad.settleHeld.tick
  | .fault f => .fault f
  | .refused r => .refused r
/-- The strand whose turn it is issues the next word of its scalar stream: it is seated and not stopping, no replay is going, its
die is not stopped, and its queue is empty or has just been served. -/
def issues (s : State) : Prop :=
  s.st.seated = true ∧ s.st.sched.preempting = false ∧ s.st.sched.restoring = false ∧ s.st.sched.preemptAsked = false ∧ s.st.rpl.going = false ∧
  (s.dies[s.myDie]).hot = false ∧ s.st.preemptNote = none ∧ (s.st.vq = [] ∨ s.st.scalarNext = true)
/-- The PC names four bytes of this package that can be fetched: below the scratch window, translated to memory, the home die reached, its link
up and its line good; u is the state with the translation made. -/
def fetches (s u : State) (key : Nat) : Prop :=
  s.st.pc.toNat < 2 ^ 55 - 2 ^ 28 ∧ (∃ kind sc, leafM .fetch s.st.pc.toNat s = .ok (.ok (.mem key kind sc)) u) ∧
  (u.dies[coreDie (homeDie key * 128)]).cut = false ∧ u.linkDown u.myDie (homeDie key) = false ∧ u.lineOk key 4 = true
/-- The four bytes at a place of memory. -/
def bytesAt (s : State) (key : Nat) : List Byte := (List.range 4).map fun i => Memory.read s.mem (key + i)
/-- The turn is the strand's: it is queued first, or nothing is and the strand moved last and is seated. -/
def hasTurn (s z : State) : Prop :=
  z.cur = some z.st.sn ∧ ((∃ r, s.turns = .strand z.st.sn :: r ∧ z = { s with turns := r }) ∨ s.turns = [] ∧ z = s)

end Sys2Proof.Claim

/-- R47, R52, R96: a step of the strand whose turn it is, its PC naming bytes that can be fetched, runs the instruction that the four bytes decode to, and
ILL for bytes that decode to none; time then passes. A step whose turn is an event of the opcode table runs that. An entry at the head of the
queue that nothing holds runs as the instruction of its word. -/
def Obligations.StepRunsDecoded : Prop :=
  ∀ (s z : State), Claim.hasTurn s z →
    (∀ u key, Claim.issues z → Claim.fetches z u key →
      (∀ i, decodeBytes (Claim.bytesAt u key) = .ok i →
        step s = Claim.then_ (exec i { u with ir := BitVec.ofNat 32 (Memory.readN u.mem key 4) })) ∧
      (∀ e, decodeBytes (Claim.bytesAt u key) = .error e →
        let w : InstrWord := BitVec.ofNat 32 (Memory.readN u.mem key 4)
        step s = Claim.then_ (exec (.illegalInstruction w) { u with ir := w }))) ∧
    (∀ e rest i, z.nextOf = .entry e rest → decodeWord e.word.toNat = .ok i →
      step s = Claim.then_ (exec i { z with st := { z.st with vq := rest, issue := some e }, ir := e.word })) ∧
    (∀ i r, s.turns = .event i :: r → i.isWord = false → raisedByWord i = false → step s = Claim.then_ (exec i { s with turns := r }))

/-- The words of Example 3-1 and of Tables 3-5 to 3-19, one or more of each family, decode to the instructions they stand for: integer,
immediate, load and store, scalar floating point, branch, register move, vector integer, floating point and grade, vector memory and
stream, mask, permute and reduction, conversion, matrix, atomic, ordered, synchronization, engine, collective, system and register
words; the all-zero word and the all-ones word decode to none (R52). -/
def Obligations.DecodeWords : Prop :=
  (decodeWord 0x04518700 = .ok (.add 5 6 7) ∧ decodeWord 0x20448D16 = .ok (.lhi 4 0x48D16) ∧ decodeWord 0x08412ABC = .ok (.addi 4 4 0x2ABC) ∧
    decodeWord 0x08000000 = .ok (.addi 0 0 0) ∧ decodeWord 0x40519FFF = .ok (.ldL 5 6 0x1FFF) ∧ decodeWord 0x4C519FFF = .ok (.stW 5 6 0x1FFF) ∧
    decodeWord 0x56518008 = .ok (.fld .f32 5 6 8) ∧ decodeWord 0x60518720 = .ok (.fmadd 5 6 7 8 .f64) ∧
    decodeWord 0x64100010 = .ok (.beq 1 0 0x10) ∧ decodeWord 0x68203FFD = .ok (.bne 2 0 0x3FFD) ∧ decodeWord 0x8C518700 = .ok (.vins 5 6 7)) ∧
  (decodeWord 0x90304206 = .ok (.vadd 3 1 (.vec 2) .l) ∧ decodeWord 0x90304907 = .ok (.vadd 3 1 (.sca 9) .l) ∧
    decodeWord 0x968A6A2C = .ok (.vadc 40 41 42 11 .l) ∧ decodeWord 0x9A8A6A14 = .ok (.vfmul 40 41 (.vec 42) .bf16) ∧
    decodeWord 0x9E8A4006 = .ok (.vgrd 40 41 .f16) ∧ decodeWord 0xA2818000 = .ok (.vld 40 6 (.int .b)) ∧
    decodeWord 0xA281AA2D = .ok (.vstx 40 6 42 (.fp .f32)) ∧ decodeWord 0xA2818764 = .ok (.sbind 40 6 7 (.fp .f64)) ∧
    decodeWord 0xA4518700 = .ok (.mand 5 6 7) ∧ decodeWord 0xAA8A6A27 = .ok (.vperm 40 41 42 (.fp .f16)) ∧
    decodeWord 0xA8FA403D = .ok (.vrosum 15 41 .f32) ∧ decodeWord 0xAE8A49A9 = .ok (.vcvt 40 41 .f32 .bf16 .stoch true)) ∧
  (decodeWord 0xB001AA16 = .ok (.mxLdwg 6 42 .int8) ∧ decodeWord 0xB03A403C = .ok (.mxStep 3 41 0 .fp64) ∧
    decodeWord 0xB0318790 = .ok (.mxSt 3 6 7) ∧ decodeWord 0xB45187BF = .ok (.amoCasW 5 6 7 15) ∧
    decodeWord 0xBA81AAE1 = .ok (.vamoFaddF64 40 6 42 1) ∧ decodeWord 0xBC000103 = .ok (.fenceAcq 3) ∧
    decodeWord 0xBE818053 = .ok (.vldAcqL 40 6 3) ∧ decodeWord 0xC0500003 = .ok (.bar 5 3) ∧ decodeWord 0xC0000070 = .ok .sdone ∧
    decodeWord 0xC4519006 = .ok (.engPop 5 6 6) ∧ decodeWord 0xCA8A7812 = .ok (.colRed 40 41 7 .sum (.fp .f64) true) ∧
    decodeWord 0xC8518E00 = .ok (.grpJoin 5 6 1) ∧ decodeWord 0xE0000002 = .ok .tret ∧ decodeWord 0xE0018007 = .ok (.logApp 6) ∧
    decodeWord 0xCDF00008 = .ok (.crd 31 .srs) ∧ decodeWord 0xDC600082 = .ok (.cntRd 6 .reqr 2)) ∧
  (∃ e, decodeWord 0x06800000 = .error e) ∧ (∃ e, decodeWord 0 = .error e) ∧ ∃ e, decodeWord 0xFFFFFFFF = .error e

/-- R47 to R69: every instruction word of the encoding tables, with every operand at every value it admits, decodes to the instruction it was
made from, and is one 32-bit word. -/
def Obligations.DecodeEncode : Prop :=
  ∀ (i : Instr), i.wf = true → decodeWord (encode i) = .ok i ∧ encode i < 2 ^ 32

/-- R30, R36, R209, R253, R349, R412, R416, R453, R464 at power good: no strand, launch or valid partition; counters and RRS zero; plane tags invalid, tiles of
kind 0 with rotation 0, SKF 0, MXO.OWNER 0; FWST 0; MEAS0 the ROM's digest and the others zero. A strand is created with the creation and reset values
of Tables 2-1 to 2-11 and 26-3 to 26-7. That DIECFG names every unit, and that unwritten bytes read 0, is the model's choice (assumption log 3, 1). -/
def Obligations.ResetValues : Prop :=
  let r := State.reset
  (r.phase = .rom ∧ r.fwst = 0 ∧ r.cur = none ∧ r.others = [] ∧ r.launches = [] ∧ r.lids = 0 ∧ r.rrs = 0 ∧ r.duty = 0 ∧ r.act = 0 ∧
    r.meas[0] = Config.romDigest ∧ (∀ i : Fin 8, i ≠ 0 → r.meas[i] = 0) ∧ (∀ n, partValid (r.part n) = false) ∧
    (∀ n, regionValid (r.regionRec n) = false) ∧ r.memWf = true ∧ (∀ a, Memory.read r.mem a = 0)) ∧
  (∀ c, let k := r.coreOf c
    k.owner = 0 ∧ k.granted = false ∧ k.active.valid = false ∧ k.shadow.valid = false ∧ k.skf = false ∧ k.hints = 0 ∧ k.hintu = 0 ∧ k.pwrhold = 0 ∧
    k.tlbm = 0 ∧ ∀ t : Fin 4, (k.tiles[t]).kind = 0 ∧ (k.tiles[t]).rho = 0) ∧
  (∀ d : Fin 4, (r.dies[d]).cyc = 0 ∧ (r.dies[d]).reql = 0 ∧ (r.dies[d]).reqr = 0 ∧ (r.dies[d]).reqf = 0 ∧ (r.dies[d]).reqe = 0 ∧
    (r.dies[d]).hopw = 0 ∧ (r.dies[d]).log = [] ∧ (r.dies[d]).cut = false ∧ r.diecfg[d] = diecfgFull) ∧
  (∀ x : Fin 32, (r.sects[x]).bconf = 0 ∧ (r.sects[x]).bmiss = 0) ∧
  (∀ f : Fin 17, (r.fns[f]).err = false ∧ (r.fns[f]).evring = 0 ∧ (r.fns[f]).launches = [] ∧ (r.fns[f]).requests = []) ∧
  ∀ (sn partn region : Nat) (entry tvec : Word), let t := Strand.create sn partn region entry tvec
    t.pc = entry ∧ t.mode = .p ∧ (∀ i : Fin 32, t.regs.g[i] = 0) ∧ (∀ i : Fin 16, t.regs.f[i] = ⟨0, 0xFFFF⟩) ∧
    (∀ (i : Fin 48) (e : Fin 128), (t.regs.v[i])[e] = ⟨0, 0xFFFF⟩) ∧ (∀ i : Fin 12, t.regs.m[i] = 0) ∧
    t.ctl = ⟨128, 15, 0, 0, 0, 0, 0, 0, 1⟩ ∧ (∀ b : Fin 8, t.k[b] = none) ∧ (∀ q : Fin 8, t.q[q] = none) ∧
    t.trap.tvec = tvec ∧ t.trap.tpc = 0 ∧ t.trap.tval = 0 ∧ t.trap.tres = 0 ∧ t.trap.tscr0 = 0 ∧ t.trap.tscr1 = 0 ∧ t.trap.tcause = 0 ∧
    t.trap.telem = 0 ∧ t.trap.pm = .p ∧ t.trap.inHandler = false ∧ t.trap.pn = false ∧ t.trap.skip = false ∧ t.wake = false ∧ t.ring = []

/-- Every step keeps every memory of the package in its canonical form, from any state that has it: main memory, lane SRAM with planes and
tiles, the shadow stores, the host's memory and the firmware staging area. -/
def Obligations.StepKeepsMemory : Prop := ∀ (s t : State), s.memWf = true → step s = .next t → t.memWf = true
end

