-- ==== Sys2Proof/Laws/Memory.lean ====
section
/-!
SUPPORT. Memory and maps: read after write, what a write leaves alone, and the canonical form, which every memory operation
keeps.
-/

namespace Sys2Proof.Machine

theorem Memory.wfFrom_mono {m : Memory} : ∀ {lo lo' : Nat}, lo' ≤ lo → Memory.wfFrom lo m = true → Memory.wfFrom lo' m = true := by
  intro lo lo' h hw
  cases m with
  | nil => rfl
  | cons c r =>
    simp only [Memory.wfFrom, Bool.and_eq_true, decide_eq_true_eq] at hw ⊢
    exact ⟨⟨by omega, hw.1.2⟩, hw.2⟩

theorem Memory.wf_of_wfFrom {m : Memory} {lo : Nat} (h : Memory.wfFrom lo m = true) : m.wf = true :=
  Memory.wfFrom_mono (Nat.zero_le lo) h

theorem Memory.wf_nil : Memory.wf [] = true := rfl

/-- A byte below every listed address is not listed. -/
theorem Memory.read_low {m : Memory} {lo a : Nat} (h : Memory.wfFrom lo m = true) (ha : a < lo) : Memory.read m a = Memory.unlisted := by
  cases m with
  | nil => rfl
  | cons c r =>
    simp only [Memory.wfFrom, Bool.and_eq_true, decide_eq_true_eq] at h
    have h1 : a ≠ c.1 := by omega
    have h2 : a < c.1 := by omega
    simp [Memory.read, h1, h2]

theorem Memory.read_insert (m : Memory) (a : Nat) (b : Byte) (x : Nat) :
    Memory.read (Memory.insert m a b) x = if x = a then b else Memory.read m x := by
  induction m with
  | nil =>
    by_cases h : x = a
    · simp [Memory.insert, Memory.read, h]
    · by_cases h2 : x < a <;> simp [Memory.insert, Memory.read, h, h2]
  | cons c r ih =>
    obtain ⟨a', b'⟩ := c
    simp only [Memory.insert]
    split
    · next h => subst h; simp only [Memory.read]; split <;> simp_all
    · split
      · next h1 h2 =>
        simp only [Memory.read]
        by_cases hx : x = a
        · simp [hx]
        · by_cases hxa : x < a
          · have : x ≠ a' := by omega
            have : x < a' := by omega
            simp [*]
          · simp [hx, hxa]
      · next h1 h2 =>
        simp only [Memory.read, ih]
        by_cases hx : x = a
        · subst hx; simp [h1, h2]
        · simp [hx]

theorem Memory.wfFrom_insert {b : Byte} (hb : (b != 0) = true) {a : Nat} {m : Memory} : ∀ {lo : Nat}, lo ≤ a → Memory.wfFrom lo m = true →
    Memory.wfFrom lo (Memory.insert m a b) = true := by
  induction m with
  | nil => intro lo h _; simp only [Memory.insert, Memory.wfFrom, h, hb, decide_true, Bool.and_self]
  | cons c r ih =>
    obtain ⟨a', b'⟩ := c
    intro lo h hw
    simp only [Memory.wfFrom, Bool.and_eq_true, decide_eq_true_eq] at hw
    simp only [Memory.insert]
    split
    · next h1 => subst h1; simp only [Memory.wfFrom, h, hb, hw.2, decide_true, Bool.and_self]
    · split
      · next h1 h2 =>
        simp only [Memory.wfFrom, Bool.and_eq_true, decide_eq_true_eq]
        exact ⟨⟨h, hb⟩, ⟨by omega, hw.1.2⟩, hw.2⟩
      · next h1 h2 =>
        simp only [Memory.wfFrom, Bool.and_eq_true, decide_eq_true_eq]
        exact ⟨hw.1, ih (by omega) hw.2⟩

theorem Memory.read_erase {a : Nat} {m : Memory} : ∀ {lo : Nat}, Memory.wfFrom lo m = true → ∀ x,
    Memory.read (Memory.erase m a) x = if x = a then Memory.unlisted else Memory.read m x := by
  induction m with
  | nil => intro lo _ x; simp [Memory.erase, Memory.read]
  | cons c r ih =>
    obtain ⟨a', b'⟩ := c
    intro lo hw x
    simp only [Memory.wfFrom, Bool.and_eq_true, decide_eq_true_eq] at hw
    simp only [Memory.erase]
    split
    · next h =>
      subst h
      by_cases hx : x = a
      · subst hx; simp [Memory.read_low hw.2 (Nat.lt_succ_self x)]
      · by_cases hl : x < a
        · simp [Memory.read, hx, hl, Memory.read_low hw.2 (show x < a + 1 by omega)]
        · simp [Memory.read, hx, hl]
    · split
      · next h1 h2 =>
        by_cases hx : x = a
        · subst hx; simp [Memory.read, h1, h2]
        · simp [hx]
      · next h1 h2 =>
        simp only [Memory.read, ih hw.2]
        by_cases hx : x = a
        · subst hx; simp [h1, h2]
        · simp [hx]

theorem Memory.wfFrom_erase {a : Nat} {m : Memory} : ∀ {lo : Nat}, Memory.wfFrom lo m = true →
    Memory.wfFrom lo (Memory.erase m a) = true := by
  induction m with
  | nil => intro lo h; exact h
  | cons c r ih =>
    obtain ⟨a', b'⟩ := c
    intro lo hw
    have hw' := hw
    simp only [Memory.wfFrom, Bool.and_eq_true, decide_eq_true_eq] at hw
    simp only [Memory.erase]
    split
    · exact Memory.wfFrom_mono (by omega) hw.2
    · split
      · exact hw'
      · simp only [Memory.wfFrom, Bool.and_eq_true, decide_eq_true_eq]
        exact ⟨hw.1, ih hw.2⟩

/-- A byte write keeps the canonical form. -/
theorem Memory.wf_write {m : Memory} (h : m.wf = true) (a : Nat) (b : Byte) : (Memory.write m a b).wf = true := by
  unfold Memory.write
  split
  · exact Memory.wfFrom_erase h
  · next hb => exact Memory.wfFrom_insert (by simpa [Memory.unlisted] using hb) (Nat.zero_le a) h

/-- Read after write, of one byte. -/
theorem Memory.read_write {m : Memory} (h : m.wf = true) (a : Nat) (b : Byte) (x : Nat) :
    Memory.read (Memory.write m a b) x = if x = a then b else Memory.read m x := by
  unfold Memory.write
  split
  · next hb => rw [Memory.read_erase h, hb]
  · rw [Memory.read_insert]

/-- A write of several bytes keeps the canonical form. -/
theorem Memory.wf_writeN : ∀ {n : Nat} {m : Memory}, m.wf = true → ∀ (a x : Nat), (Memory.writeN m a n x).wf = true := by
  intro n
  induction n with
  | zero => intro m h a x; exact h
  | succ n ih => intro m h a x; exact ih (Memory.wf_write h a _) (a + 1) (x / 256)

/-- A write of several bytes leaves every other byte alone. -/
theorem Memory.read_writeN_other : ∀ {n : Nat} {m : Memory}, m.wf = true → ∀ (a x y : Nat), (y < a ∨ a + n ≤ y) →
    Memory.read (Memory.writeN m a n x) y = Memory.read m y := by
  intro n
  induction n with
  | zero => intro m _ a x y _; rfl
  | succ n ih =>
    intro m h a x y hy
    have h1 : y ≠ a := by omega
    simp only [Memory.writeN]
    rw [ih (Memory.wf_write h a _) (a + 1) (x / 256) y (by omega), Memory.read_write h, if_neg h1]

/-- Bytes read back from memory that agrees with another on them. -/
theorem Memory.readN_congr {m m' : Memory} : ∀ {n : Nat} (a : Nat), (∀ y, a ≤ y → y < a + n → Memory.read m y = Memory.read m' y) →
    Memory.readN m a n = Memory.readN m' a n := by
  intro n
  induction n with
  | zero => intro a _; rfl
  | succ n ih =>
    intro a h
    simp only [Memory.readN]
    rw [h a (by omega) (by omega), ih (a + 1) fun y h1 h2 => h y (by omega) (by omega)]

/-- Read after write, of several bytes. -/
theorem Memory.readN_writeN : ∀ {n : Nat} {m : Memory}, m.wf = true → ∀ (a x : Nat),
    Memory.readN (Memory.writeN m a n x) a n = x % 256 ^ n := by
  intro n
  induction n with
  | zero => intro m _ a x; simp [Memory.readN, Nat.mod_one]
  | succ n ih =>
    intro m h a x
    simp only [Memory.writeN, Memory.readN]
    have hw := Memory.wf_write h a (BitVec.ofNat 8 x)
    rw [ih hw, Memory.read_writeN_other hw (a + 1) (x / 256) a (by omega), Memory.read_write h, if_pos rfl]
    have e : 256 ^ (n + 1) = 256 * 256 ^ n := by rw [pow_succ]; ring
    rw [e, Nat.mod_mul]
    simp

theorem Memory.wfFrom_filter {p : Host.Cell → Bool} {m : Memory} : ∀ {lo : Nat}, Memory.wfFrom lo m = true →
    Memory.wfFrom lo (m.filter p) = true := by
  induction m with
  | nil => intro lo h; exact h
  | cons c r ih =>
    obtain ⟨a, b⟩ := c
    intro lo hw
    simp only [Memory.wfFrom, Bool.and_eq_true, decide_eq_true_eq] at hw
    by_cases hp : p (a, b) = true
    · simp only [List.filter_cons, hp, if_true, Memory.wfFrom, Bool.and_eq_true, decide_eq_true_eq]
      exact ⟨hw.1, ih hw.2⟩
    · simp only [List.filter_cons, hp]
      exact Memory.wfFrom_mono (by omega) (ih hw.2)

/-- Wiping keeps the canonical form. -/
theorem Memory.wf_wipe {m : Memory} (h : m.wf = true) (a n : Nat) : (Memory.wipe m a n).wf = true := Memory.wfFrom_filter h

/-- Pasting cells keeps the canonical form. -/
theorem Memory.wf_paste : ∀ {cells m : Memory}, m.wf = true → ∀ (a : Nat), (Memory.paste m a cells).wf = true := by
  intro cells
  induction cells with
  | nil => intro m h a; exact h
  | cons c r ih => intro m h a; exact ih (Memory.wf_write h _ _) a

/-- Moving bytes from another memory keeps the canonical form. -/
theorem Memory.wf_move {m : Memory} (h : m.wf = true) (a : Nat) (src : Memory) (b n : Nat) : (Memory.move m a src b n).wf = true :=
  Memory.wf_paste (Memory.wf_wipe h a n) a

/-- The bytes that were wiped read as unlisted, every other as before. -/
theorem Memory.read_wipe {m : Memory} : ∀ {lo : Nat}, Memory.wfFrom lo m = true → ∀ (a n y : Nat),
    Memory.read (Memory.wipe m a n) y = if a ≤ y ∧ y < a + n then Memory.unlisted else Memory.read m y := by
  induction m with
  | nil => intro lo _ a n y; simp [Memory.wipe, Memory.read]
  | cons c r ih =>
    obtain ⟨k, b⟩ := c
    intro lo hw a n y
    simp only [Memory.wfFrom, Bool.and_eq_true, decide_eq_true_eq] at hw
    have ih' := ih hw.2 a n y
    simp only [Memory.wipe] at ih' ⊢
    by_cases hk : a ≤ k ∧ k < a + n
    · simp only [List.filter_cons, hk.1, hk.2, decide_true, Bool.and_self, Bool.not_true, Bool.false_eq_true, if_false]
      rw [ih']
      by_cases hy : a ≤ y ∧ y < a + n
      · simp [hy]
      · have h1 : y ≠ k := by rintro rfl; exact hy hk
        simp only [if_neg hy, Memory.read, if_neg h1]
        by_cases h2 : y < k
        · simp [h2, Memory.read_low hw.2 (show y < k + 1 by omega)]
        · simp [h2]
    · have hf : (!(decide (a ≤ k) && decide (k < a + n))) = true := by simp; omega
      simp only [List.filter_cons, hf, if_true, Memory.read, ih']
      by_cases hy : y = k
      · subst hy; simp [hk]
      · by_cases h2 : y < k
        · simp [hy, h2]
        · simp [hy, h2]

/-! ### Maps -/

theorem SMap.find_put {α : Type} (m : SMap α) (k : Nat) (v : α) (x : Nat) :
    SMap.find (SMap.put m k v) x = if x = k then some v else SMap.find m x := by
  induction m with
  | nil =>
    by_cases h : x = k
    · simp [SMap.put, SMap.find, h]
    · by_cases h2 : x < k <;> simp [SMap.put, SMap.find, h, h2]
  | cons c r ih =>
    obtain ⟨k', v'⟩ := c
    simp only [SMap.put]
    split
    · next h => subst h; simp only [SMap.find]; split <;> simp_all
    · split
      · next h1 h2 =>
        simp only [SMap.find]
        by_cases hx : x = k
        · simp [hx]
        · by_cases hxa : x < k
          · have : x ≠ k' := by omega
            have : x < k' := by omega
            simp [*]
          · simp [hx, hxa]
      · next h1 h2 =>
        simp only [SMap.find, ih]
        by_cases hx : x = k
        · subst hx; simp [h1, h2]
        · simp [hx]

@[simp] theorem SMap.find_put_same {α : Type} (m : SMap α) (k : Nat) (v : α) : SMap.find (SMap.put m k v) k = some v := by
  simp [SMap.find_put]

@[simp] theorem SMap.getD_put_same {α : Type} (m : SMap α) (k : Nat) (v d : α) : SMap.getD (SMap.put m k v) k d = v := by
  simp [SMap.getD]

theorem SMap.getD_put {α : Type} (m : SMap α) (k : Nat) (v : α) (x : Nat) (d : α) :
    SMap.getD (SMap.put m k v) x d = if x = k then v else SMap.getD m x d := by
  unfold SMap.getD; rw [SMap.find_put]; split <;> rfl

end Sys2Proof.Machine
end

