-- ==== Sys2Proof/Laws/State.lean ====
section
/-!
SUPPORT. What each update of the state leaves alone and what it writes: one lemma for each field and update.
-/

namespace Sys2Proof.Machine

open Sys2Proof


/-! #### `mapSt` -/

@[simp] theorem State.mapSt_phase (s : State) (f : Strand → Strand) : (s.mapSt f).phase = s.phase := rfl
@[simp] theorem State.mapSt_fwst (s : State) (f : Strand → Strand) : (s.mapSt f).fwst = s.fwst := rfl
@[simp] theorem State.mapSt_cur (s : State) (f : Strand → Strand) : (s.mapSt f).cur = s.cur := rfl
@[simp] theorem State.mapSt_others (s : State) (f : Strand → Strand) : (s.mapSt f).others = s.others := rfl
@[simp] theorem State.mapSt_ir (s : State) (f : Strand → Strand) : (s.mapSt f).ir = s.ir := rfl
@[simp] theorem State.mapSt_turns (s : State) (f : Strand → Strand) : (s.mapSt f).turns = s.turns := rfl
@[simp] theorem State.mapSt_stepNo (s : State) (f : Strand → Strand) : (s.mapSt f).stepNo = s.stepNo := rfl
@[simp] theorem State.mapSt_freeNo (s : State) (f : Strand → Strand) : (s.mapSt f).freeNo = s.freeNo := rfl
@[simp] theorem State.mapSt_mem (s : State) (f : Strand → Strand) : (s.mapSt f).mem = s.mem := rfl
@[simp] theorem State.mapSt_badLines (s : State) (f : Strand → Strand) : (s.mapSt f).badLines = s.badLines := rfl
@[simp] theorem State.mapSt_badBytes (s : State) (f : Strand → Strand) : (s.mapSt f).badBytes = s.badBytes := rfl
@[simp] theorem State.mapSt_onchip (s : State) (f : Strand → Strand) : (s.mapSt f).onchip = s.onchip := rfl
@[simp] theorem State.mapSt_shadow (s : State) (f : Strand → Strand) : (s.mapSt f).shadow = s.shadow := rfl
@[simp] theorem State.mapSt_hostMem (s : State) (f : Strand → Strand) : (s.mapSt f).hostMem = s.hostMem := rfl
@[simp] theorem State.mapSt_hostBad (s : State) (f : Strand → Strand) : (s.mapSt f).hostBad = s.hostBad := rfl
@[simp] theorem State.mapSt_hostRO (s : State) (f : Strand → Strand) : (s.mapSt f).hostRO = s.hostRO := rfl
@[simp] theorem State.mapSt_hostAnswer (s : State) (f : Strand → Strand) : (s.mapSt f).hostAnswer = s.hostAnswer := rfl
@[simp] theorem State.mapSt_cores (s : State) (f : Strand → Strand) : (s.mapSt f).cores = s.cores := rfl
@[simp] theorem State.mapSt_sects (s : State) (f : Strand → Strand) : (s.mapSt f).sects = s.sects := rfl
@[simp] theorem State.mapSt_dies (s : State) (f : Strand → Strand) : (s.mapSt f).dies = s.dies := rfl
@[simp] theorem State.mapSt_power (s : State) (f : Strand → Strand) : (s.mapSt f).power = s.power := rfl
@[simp] theorem State.mapSt_linkErrors (s : State) (f : Strand → Strand) : (s.mapSt f).linkErrors = s.linkErrors := rfl
@[simp] theorem State.mapSt_heldWrites (s : State) (f : Strand → Strand) : (s.mapSt f).heldWrites = s.heldWrites := rfl
@[simp] theorem State.mapSt_diecfg (s : State) (f : Strand → Strand) : (s.mapSt f).diecfg = s.diecfg := rfl
@[simp] theorem State.mapSt_share (s : State) (f : Strand → Strand) : (s.mapSt f).share = s.share := rfl
@[simp] theorem State.mapSt_shareSet (s : State) (f : Strand → Strand) : (s.mapSt f).shareSet = s.shareSet := rfl
@[simp] theorem State.mapSt_handle (s : State) (f : Strand → Strand) : (s.mapSt f).handle = s.handle := rfl
@[simp] theorem State.mapSt_duty (s : State) (f : Strand → Strand) : (s.mapSt f).duty = s.duty := rfl
@[simp] theorem State.mapSt_act (s : State) (f : Strand → Strand) : (s.mapSt f).act = s.act := rfl
@[simp] theorem State.mapSt_parts (s : State) (f : Strand → Strand) : (s.mapSt f).parts = s.parts := rfl
@[simp] theorem State.mapSt_regions (s : State) (f : Strand → Strand) : (s.mapSt f).regions = s.regions := rfl
@[simp] theorem State.mapSt_outTable (s : State) (f : Strand → Strand) : (s.mapSt f).outTable = s.outTable := rfl
@[simp] theorem State.mapSt_inTable (s : State) (f : Strand → Strand) : (s.mapSt f).inTable = s.inTable := rfl
@[simp] theorem State.mapSt_saveArea (s : State) (f : Strand → Strand) : (s.mapSt f).saveArea = s.saveArea := rfl
@[simp] theorem State.mapSt_fns (s : State) (f : Strand → Strand) : (s.mapSt f).fns = s.fns := rfl
@[simp] theorem State.mapSt_lids (s : State) (f : Strand → Strand) : (s.mapSt f).lids = s.lids := rfl
@[simp] theorem State.mapSt_launches (s : State) (f : Strand → Strand) : (s.mapSt f).launches = s.launches := rfl
@[simp] theorem State.mapSt_rings (s : State) (f : Strand → Strand) : (s.mapSt f).rings = s.rings := rfl
@[simp] theorem State.mapSt_meshes (s : State) (f : Strand → Strand) : (s.mapSt f).meshes = s.meshes := rfl
@[simp] theorem State.mapSt_groups (s : State) (f : Strand → Strand) : (s.mapSt f).groups = s.groups := rfl
@[simp] theorem State.mapSt_contribs (s : State) (f : Strand → Strand) : (s.mapSt f).contribs = s.contribs := rfl
@[simp] theorem State.mapSt_committed (s : State) (f : Strand → Strand) : (s.mapSt f).committed = s.committed := rfl
@[simp] theorem State.mapSt_remap (s : State) (f : Strand → Strand) : (s.mapSt f).remap = s.remap := rfl
@[simp] theorem State.mapSt_remapOps (s : State) (f : Strand → Strand) : (s.mapSt f).remapOps = s.remapOps := rfl
@[simp] theorem State.mapSt_nextTag (s : State) (f : Strand → Strand) : (s.mapSt f).nextTag = s.nextTag := rfl
@[simp] theorem State.mapSt_fabricOut (s : State) (f : Strand → Strand) : (s.mapSt f).fabricOut = s.fabricOut := rfl
@[simp] theorem State.mapSt_binderRemote (s : State) (f : Strand → Strand) : (s.mapSt f).binderRemote = s.binderRemote := rfl
@[simp] theorem State.mapSt_hostPosts (s : State) (f : Strand → Strand) : (s.mapSt f).hostPosts = s.hostPosts := rfl
@[simp] theorem State.mapSt_hostLeaves (s : State) (f : Strand → Strand) : (s.mapSt f).hostLeaves = s.hostLeaves := rfl
@[simp] theorem State.mapSt_rrs (s : State) (f : Strand → Strand) : (s.mapSt f).rrs = s.rrs := rfl
@[simp] theorem State.mapSt_meas (s : State) (f : Strand → Strand) : (s.mapSt f).meas = s.meas := rfl
@[simp] theorem State.mapSt_staging (s : State) (f : Strand → Strand) : (s.mapSt f).staging = s.staging := rfl
@[simp] theorem State.mapSt_fwLen (s : State) (f : Strand → Strand) : (s.mapSt f).fwLen = s.fwLen := rfl
@[simp] theorem State.mapSt_suspended (s : State) (f : Strand → Strand) : (s.mapSt f).suspended = s.suspended := rfl
@[simp] theorem State.mapSt_staged (s : State) (f : Strand → Strand) : (s.mapSt f).staged = s.staged := rfl

/-! #### `mapRegs` -/

@[simp] theorem State.mapRegs_phase (s : State) (f : Regs → Regs) : (s.mapRegs f).phase = s.phase := rfl
@[simp] theorem State.mapRegs_fwst (s : State) (f : Regs → Regs) : (s.mapRegs f).fwst = s.fwst := rfl
@[simp] theorem State.mapRegs_cur (s : State) (f : Regs → Regs) : (s.mapRegs f).cur = s.cur := rfl
@[simp] theorem State.mapRegs_others (s : State) (f : Regs → Regs) : (s.mapRegs f).others = s.others := rfl
@[simp] theorem State.mapRegs_ir (s : State) (f : Regs → Regs) : (s.mapRegs f).ir = s.ir := rfl
@[simp] theorem State.mapRegs_turns (s : State) (f : Regs → Regs) : (s.mapRegs f).turns = s.turns := rfl
@[simp] theorem State.mapRegs_stepNo (s : State) (f : Regs → Regs) : (s.mapRegs f).stepNo = s.stepNo := rfl
@[simp] theorem State.mapRegs_freeNo (s : State) (f : Regs → Regs) : (s.mapRegs f).freeNo = s.freeNo := rfl
@[simp] theorem State.mapRegs_mem (s : State) (f : Regs → Regs) : (s.mapRegs f).mem = s.mem := rfl
@[simp] theorem State.mapRegs_badLines (s : State) (f : Regs → Regs) : (s.mapRegs f).badLines = s.badLines := rfl
@[simp] theorem State.mapRegs_badBytes (s : State) (f : Regs → Regs) : (s.mapRegs f).badBytes = s.badBytes := rfl
@[simp] theorem State.mapRegs_onchip (s : State) (f : Regs → Regs) : (s.mapRegs f).onchip = s.onchip := rfl
@[simp] theorem State.mapRegs_shadow (s : State) (f : Regs → Regs) : (s.mapRegs f).shadow = s.shadow := rfl
@[simp] theorem State.mapRegs_hostMem (s : State) (f : Regs → Regs) : (s.mapRegs f).hostMem = s.hostMem := rfl
@[simp] theorem State.mapRegs_hostBad (s : State) (f : Regs → Regs) : (s.mapRegs f).hostBad = s.hostBad := rfl
@[simp] theorem State.mapRegs_hostRO (s : State) (f : Regs → Regs) : (s.mapRegs f).hostRO = s.hostRO := rfl
@[simp] theorem State.mapRegs_hostAnswer (s : State) (f : Regs → Regs) : (s.mapRegs f).hostAnswer = s.hostAnswer := rfl
@[simp] theorem State.mapRegs_cores (s : State) (f : Regs → Regs) : (s.mapRegs f).cores = s.cores := rfl
@[simp] theorem State.mapRegs_sects (s : State) (f : Regs → Regs) : (s.mapRegs f).sects = s.sects := rfl
@[simp] theorem State.mapRegs_dies (s : State) (f : Regs → Regs) : (s.mapRegs f).dies = s.dies := rfl
@[simp] theorem State.mapRegs_power (s : State) (f : Regs → Regs) : (s.mapRegs f).power = s.power := rfl
@[simp] theorem State.mapRegs_linkErrors (s : State) (f : Regs → Regs) : (s.mapRegs f).linkErrors = s.linkErrors := rfl
@[simp] theorem State.mapRegs_heldWrites (s : State) (f : Regs → Regs) : (s.mapRegs f).heldWrites = s.heldWrites := rfl
@[simp] theorem State.mapRegs_diecfg (s : State) (f : Regs → Regs) : (s.mapRegs f).diecfg = s.diecfg := rfl
@[simp] theorem State.mapRegs_share (s : State) (f : Regs → Regs) : (s.mapRegs f).share = s.share := rfl
@[simp] theorem State.mapRegs_shareSet (s : State) (f : Regs → Regs) : (s.mapRegs f).shareSet = s.shareSet := rfl
@[simp] theorem State.mapRegs_handle (s : State) (f : Regs → Regs) : (s.mapRegs f).handle = s.handle := rfl
@[simp] theorem State.mapRegs_duty (s : State) (f : Regs → Regs) : (s.mapRegs f).duty = s.duty := rfl
@[simp] theorem State.mapRegs_act (s : State) (f : Regs → Regs) : (s.mapRegs f).act = s.act := rfl
@[simp] theorem State.mapRegs_parts (s : State) (f : Regs → Regs) : (s.mapRegs f).parts = s.parts := rfl
@[simp] theorem State.mapRegs_regions (s : State) (f : Regs → Regs) : (s.mapRegs f).regions = s.regions := rfl
@[simp] theorem State.mapRegs_outTable (s : State) (f : Regs → Regs) : (s.mapRegs f).outTable = s.outTable := rfl
@[simp] theorem State.mapRegs_inTable (s : State) (f : Regs → Regs) : (s.mapRegs f).inTable = s.inTable := rfl
@[simp] theorem State.mapRegs_saveArea (s : State) (f : Regs → Regs) : (s.mapRegs f).saveArea = s.saveArea := rfl
@[simp] theorem State.mapRegs_fns (s : State) (f : Regs → Regs) : (s.mapRegs f).fns = s.fns := rfl
@[simp] theorem State.mapRegs_lids (s : State) (f : Regs → Regs) : (s.mapRegs f).lids = s.lids := rfl
@[simp] theorem State.mapRegs_launches (s : State) (f : Regs → Regs) : (s.mapRegs f).launches = s.launches := rfl
@[simp] theorem State.mapRegs_rings (s : State) (f : Regs → Regs) : (s.mapRegs f).rings = s.rings := rfl
@[simp] theorem State.mapRegs_meshes (s : State) (f : Regs → Regs) : (s.mapRegs f).meshes = s.meshes := rfl
@[simp] theorem State.mapRegs_groups (s : State) (f : Regs → Regs) : (s.mapRegs f).groups = s.groups := rfl
@[simp] theorem State.mapRegs_contribs (s : State) (f : Regs → Regs) : (s.mapRegs f).contribs = s.contribs := rfl
@[simp] theorem State.mapRegs_committed (s : State) (f : Regs → Regs) : (s.mapRegs f).committed = s.committed := rfl
@[simp] theorem State.mapRegs_remap (s : State) (f : Regs → Regs) : (s.mapRegs f).remap = s.remap := rfl
@[simp] theorem State.mapRegs_remapOps (s : State) (f : Regs → Regs) : (s.mapRegs f).remapOps = s.remapOps := rfl
@[simp] theorem State.mapRegs_nextTag (s : State) (f : Regs → Regs) : (s.mapRegs f).nextTag = s.nextTag := rfl
@[simp] theorem State.mapRegs_fabricOut (s : State) (f : Regs → Regs) : (s.mapRegs f).fabricOut = s.fabricOut := rfl
@[simp] theorem State.mapRegs_binderRemote (s : State) (f : Regs → Regs) : (s.mapRegs f).binderRemote = s.binderRemote := rfl
@[simp] theorem State.mapRegs_hostPosts (s : State) (f : Regs → Regs) : (s.mapRegs f).hostPosts = s.hostPosts := rfl
@[simp] theorem State.mapRegs_hostLeaves (s : State) (f : Regs → Regs) : (s.mapRegs f).hostLeaves = s.hostLeaves := rfl
@[simp] theorem State.mapRegs_rrs (s : State) (f : Regs → Regs) : (s.mapRegs f).rrs = s.rrs := rfl
@[simp] theorem State.mapRegs_meas (s : State) (f : Regs → Regs) : (s.mapRegs f).meas = s.meas := rfl
@[simp] theorem State.mapRegs_staging (s : State) (f : Regs → Regs) : (s.mapRegs f).staging = s.staging := rfl
@[simp] theorem State.mapRegs_fwLen (s : State) (f : Regs → Regs) : (s.mapRegs f).fwLen = s.fwLen := rfl
@[simp] theorem State.mapRegs_suspended (s : State) (f : Regs → Regs) : (s.mapRegs f).suspended = s.suspended := rfl
@[simp] theorem State.mapRegs_staged (s : State) (f : Regs → Regs) : (s.mapRegs f).staged = s.staged := rfl
@[simp] theorem State.mapRegs_st_sn (s : State) (f : Regs → Regs) : (s.mapRegs f).st.sn = s.st.sn := rfl
@[simp] theorem State.mapRegs_st_partn (s : State) (f : Regs → Regs) : (s.mapRegs f).st.partn = s.st.partn := rfl
@[simp] theorem State.mapRegs_st_region (s : State) (f : Regs → Regs) : (s.mapRegs f).st.region = s.st.region := rfl
@[simp] theorem State.mapRegs_st_pc (s : State) (f : Regs → Regs) : (s.mapRegs f).st.pc = s.st.pc := rfl
@[simp] theorem State.mapRegs_st_ctl (s : State) (f : Regs → Regs) : (s.mapRegs f).st.ctl = s.st.ctl := rfl
@[simp] theorem State.mapRegs_st_mode (s : State) (f : Regs → Regs) : (s.mapRegs f).st.mode = s.st.mode := rfl
@[simp] theorem State.mapRegs_st_trap (s : State) (f : Regs → Regs) : (s.mapRegs f).st.trap = s.st.trap := rfl
@[simp] theorem State.mapRegs_st_k (s : State) (f : Regs → Regs) : (s.mapRegs f).st.k = s.st.k := rfl
@[simp] theorem State.mapRegs_st_q (s : State) (f : Regs → Regs) : (s.mapRegs f).st.q = s.st.q := rfl
@[simp] theorem State.mapRegs_st_vq (s : State) (f : Regs → Regs) : (s.mapRegs f).st.vq = s.st.vq := rfl
@[simp] theorem State.mapRegs_st_pend (s : State) (f : Regs → Regs) : (s.mapRegs f).st.pend = s.st.pend := rfl
@[simp] theorem State.mapRegs_st_issue (s : State) (f : Regs → Regs) : (s.mapRegs f).st.issue = s.st.issue := rfl
@[simp] theorem State.mapRegs_st_scalarNext (s : State) (f : Regs → Regs) : (s.mapRegs f).st.scalarNext = s.st.scalarNext := rfl
@[simp] theorem State.mapRegs_st_queueOnly (s : State) (f : Regs → Regs) : (s.mapRegs f).st.queueOnly = s.st.queueOnly := rfl
@[simp] theorem State.mapRegs_st_early (s : State) (f : Regs → Regs) : (s.mapRegs f).st.early = s.st.early := rfl
@[simp] theorem State.mapRegs_st_restartPc (s : State) (f : Regs → Regs) : (s.mapRegs f).st.restartPc = s.st.restartPc := rfl
@[simp] theorem State.mapRegs_st_rearm (s : State) (f : Regs → Regs) : (s.mapRegs f).st.rearm = s.st.rearm := rfl
@[simp] theorem State.mapRegs_st_resumePc (s : State) (f : Regs → Regs) : (s.mapRegs f).st.resumePc = s.st.resumePc := rfl
@[simp] theorem State.mapRegs_st_hold (s : State) (f : Regs → Regs) : (s.mapRegs f).st.hold = s.st.hold := rfl
@[simp] theorem State.mapRegs_st_preemptNote (s : State) (f : Regs → Regs) : (s.mapRegs f).st.preemptNote = s.st.preemptNote := rfl
@[simp] theorem State.mapRegs_st_wait (s : State) (f : Regs → Regs) : (s.mapRegs f).st.wait = s.st.wait := rfl
@[simp] theorem State.mapRegs_st_qwait (s : State) (f : Regs → Regs) : (s.mapRegs f).st.qwait = s.st.qwait := rfl
@[simp] theorem State.mapRegs_st_ring (s : State) (f : Regs → Regs) : (s.mapRegs f).st.ring = s.st.ring := rfl
@[simp] theorem State.mapRegs_st_seqv (s : State) (f : Regs → Regs) : (s.mapRegs f).st.seqv = s.st.seqv := rfl
@[simp] theorem State.mapRegs_st_rpl (s : State) (f : Regs → Regs) : (s.mapRegs f).st.rpl = s.st.rpl := rfl
@[simp] theorem State.mapRegs_st_claims (s : State) (f : Regs → Regs) : (s.mapRegs f).st.claims = s.st.claims := rfl
@[simp] theorem State.mapRegs_st_wake (s : State) (f : Regs → Regs) : (s.mapRegs f).st.wake = s.st.wake := rfl
@[simp] theorem State.mapRegs_st_fifo (s : State) (f : Regs → Regs) : (s.mapRegs f).st.fifo = s.st.fifo := rfl
@[simp] theorem State.mapRegs_st_remote (s : State) (f : Regs → Regs) : (s.mapRegs f).st.remote = s.st.remote := rfl
@[simp] theorem State.mapRegs_st_begun (s : State) (f : Regs → Regs) : (s.mapRegs f).st.begun = s.st.begun := rfl
@[simp] theorem State.mapRegs_st_trains (s : State) (f : Regs → Regs) : (s.mapRegs f).st.trains = s.st.trains := rfl
@[simp] theorem State.mapRegs_st_engFlags (s : State) (f : Regs → Regs) : (s.mapRegs f).st.engFlags = s.st.engFlags := rfl
@[simp] theorem State.mapRegs_st_lines (s : State) (f : Regs → Regs) : (s.mapRegs f).st.lines = s.st.lines := rfl
@[simp] theorem State.mapRegs_st_counted (s : State) (f : Regs → Regs) : (s.mapRegs f).st.counted = s.st.counted := rfl
@[simp] theorem State.mapRegs_st_scalarLines (s : State) (f : Regs → Regs) : (s.mapRegs f).st.scalarLines = s.st.scalarLines := rfl
@[simp] theorem State.mapRegs_st_viewTail (s : State) (f : Regs → Regs) : (s.mapRegs f).st.viewTail = s.st.viewTail := rfl
@[simp] theorem State.mapRegs_st_tailRead (s : State) (f : Regs → Regs) : (s.mapRegs f).st.tailRead = s.st.tailRead := rfl
@[simp] theorem State.mapRegs_st_arrivals (s : State) (f : Regs → Regs) : (s.mapRegs f).st.arrivals = s.st.arrivals := rfl
@[simp] theorem State.mapRegs_st_memberOf (s : State) (f : Regs → Regs) : (s.mapRegs f).st.memberOf = s.st.memberOf := rfl
@[simp] theorem State.mapRegs_st_waitDone (s : State) (f : Regs → Regs) : (s.mapRegs f).st.waitDone = s.st.waitDone := rfl
@[simp] theorem State.mapRegs_st_coll (s : State) (f : Regs → Regs) : (s.mapRegs f).st.coll = s.st.coll := rfl
@[simp] theorem State.mapRegs_st_asked (s : State) (f : Regs → Regs) : (s.mapRegs f).st.asked = s.st.asked := rfl
@[simp] theorem State.mapRegs_st_collOff (s : State) (f : Regs → Regs) : (s.mapRegs f).st.collOff = s.st.collOff := rfl
@[simp] theorem State.mapRegs_st_askedOff (s : State) (f : Regs → Regs) : (s.mapRegs f).st.askedOff = s.st.askedOff := rfl
@[simp] theorem State.mapRegs_st_joinRefused (s : State) (f : Regs → Regs) : (s.mapRegs f).st.joinRefused = s.st.joinRefused := rfl
@[simp] theorem State.mapRegs_st_refusedOff (s : State) (f : Regs → Regs) : (s.mapRegs f).st.refusedOff = s.st.refusedOff := rfl
@[simp] theorem State.mapRegs_st_entered (s : State) (f : Regs → Regs) : (s.mapRegs f).st.entered = s.st.entered := rfl
@[simp] theorem State.mapRegs_st_tags (s : State) (f : Regs → Regs) : (s.mapRegs f).st.tags = s.st.tags := rfl
@[simp] theorem State.mapRegs_st_sched (s : State) (f : Regs → Regs) : (s.mapRegs f).st.sched = s.st.sched := rfl

/-! #### `mapCtl` -/

@[simp] theorem State.mapCtl_phase (s : State) (f : Ctl → Ctl) : (s.mapCtl f).phase = s.phase := rfl
@[simp] theorem State.mapCtl_fwst (s : State) (f : Ctl → Ctl) : (s.mapCtl f).fwst = s.fwst := rfl
@[simp] theorem State.mapCtl_cur (s : State) (f : Ctl → Ctl) : (s.mapCtl f).cur = s.cur := rfl
@[simp] theorem State.mapCtl_others (s : State) (f : Ctl → Ctl) : (s.mapCtl f).others = s.others := rfl
@[simp] theorem State.mapCtl_ir (s : State) (f : Ctl → Ctl) : (s.mapCtl f).ir = s.ir := rfl
@[simp] theorem State.mapCtl_turns (s : State) (f : Ctl → Ctl) : (s.mapCtl f).turns = s.turns := rfl
@[simp] theorem State.mapCtl_stepNo (s : State) (f : Ctl → Ctl) : (s.mapCtl f).stepNo = s.stepNo := rfl
@[simp] theorem State.mapCtl_freeNo (s : State) (f : Ctl → Ctl) : (s.mapCtl f).freeNo = s.freeNo := rfl
@[simp] theorem State.mapCtl_mem (s : State) (f : Ctl → Ctl) : (s.mapCtl f).mem = s.mem := rfl
@[simp] theorem State.mapCtl_badLines (s : State) (f : Ctl → Ctl) : (s.mapCtl f).badLines = s.badLines := rfl
@[simp] theorem State.mapCtl_badBytes (s : State) (f : Ctl → Ctl) : (s.mapCtl f).badBytes = s.badBytes := rfl
@[simp] theorem State.mapCtl_onchip (s : State) (f : Ctl → Ctl) : (s.mapCtl f).onchip = s.onchip := rfl
@[simp] theorem State.mapCtl_shadow (s : State) (f : Ctl → Ctl) : (s.mapCtl f).shadow = s.shadow := rfl
@[simp] theorem State.mapCtl_hostMem (s : State) (f : Ctl → Ctl) : (s.mapCtl f).hostMem = s.hostMem := rfl
@[simp] theorem State.mapCtl_hostBad (s : State) (f : Ctl → Ctl) : (s.mapCtl f).hostBad = s.hostBad := rfl
@[simp] theorem State.mapCtl_hostRO (s : State) (f : Ctl → Ctl) : (s.mapCtl f).hostRO = s.hostRO := rfl
@[simp] theorem State.mapCtl_hostAnswer (s : State) (f : Ctl → Ctl) : (s.mapCtl f).hostAnswer = s.hostAnswer := rfl
@[simp] theorem State.mapCtl_cores (s : State) (f : Ctl → Ctl) : (s.mapCtl f).cores = s.cores := rfl
@[simp] theorem State.mapCtl_sects (s : State) (f : Ctl → Ctl) : (s.mapCtl f).sects = s.sects := rfl
@[simp] theorem State.mapCtl_dies (s : State) (f : Ctl → Ctl) : (s.mapCtl f).dies = s.dies := rfl
@[simp] theorem State.mapCtl_power (s : State) (f : Ctl → Ctl) : (s.mapCtl f).power = s.power := rfl
@[simp] theorem State.mapCtl_linkErrors (s : State) (f : Ctl → Ctl) : (s.mapCtl f).linkErrors = s.linkErrors := rfl
@[simp] theorem State.mapCtl_heldWrites (s : State) (f : Ctl → Ctl) : (s.mapCtl f).heldWrites = s.heldWrites := rfl
@[simp] theorem State.mapCtl_diecfg (s : State) (f : Ctl → Ctl) : (s.mapCtl f).diecfg = s.diecfg := rfl
@[simp] theorem State.mapCtl_share (s : State) (f : Ctl → Ctl) : (s.mapCtl f).share = s.share := rfl
@[simp] theorem State.mapCtl_shareSet (s : State) (f : Ctl → Ctl) : (s.mapCtl f).shareSet = s.shareSet := rfl
@[simp] theorem State.mapCtl_handle (s : State) (f : Ctl → Ctl) : (s.mapCtl f).handle = s.handle := rfl
@[simp] theorem State.mapCtl_duty (s : State) (f : Ctl → Ctl) : (s.mapCtl f).duty = s.duty := rfl
@[simp] theorem State.mapCtl_act (s : State) (f : Ctl → Ctl) : (s.mapCtl f).act = s.act := rfl
@[simp] theorem State.mapCtl_parts (s : State) (f : Ctl → Ctl) : (s.mapCtl f).parts = s.parts := rfl
@[simp] theorem State.mapCtl_regions (s : State) (f : Ctl → Ctl) : (s.mapCtl f).regions = s.regions := rfl
@[simp] theorem State.mapCtl_outTable (s : State) (f : Ctl → Ctl) : (s.mapCtl f).outTable = s.outTable := rfl
@[simp] theorem State.mapCtl_inTable (s : State) (f : Ctl → Ctl) : (s.mapCtl f).inTable = s.inTable := rfl
@[simp] theorem State.mapCtl_saveArea (s : State) (f : Ctl → Ctl) : (s.mapCtl f).saveArea = s.saveArea := rfl
@[simp] theorem State.mapCtl_fns (s : State) (f : Ctl → Ctl) : (s.mapCtl f).fns = s.fns := rfl
@[simp] theorem State.mapCtl_lids (s : State) (f : Ctl → Ctl) : (s.mapCtl f).lids = s.lids := rfl
@[simp] theorem State.mapCtl_launches (s : State) (f : Ctl → Ctl) : (s.mapCtl f).launches = s.launches := rfl
@[simp] theorem State.mapCtl_rings (s : State) (f : Ctl → Ctl) : (s.mapCtl f).rings = s.rings := rfl
@[simp] theorem State.mapCtl_meshes (s : State) (f : Ctl → Ctl) : (s.mapCtl f).meshes = s.meshes := rfl
@[simp] theorem State.mapCtl_groups (s : State) (f : Ctl → Ctl) : (s.mapCtl f).groups = s.groups := rfl
@[simp] theorem State.mapCtl_contribs (s : State) (f : Ctl → Ctl) : (s.mapCtl f).contribs = s.contribs := rfl
@[simp] theorem State.mapCtl_committed (s : State) (f : Ctl → Ctl) : (s.mapCtl f).committed = s.committed := rfl
@[simp] theorem State.mapCtl_remap (s : State) (f : Ctl → Ctl) : (s.mapCtl f).remap = s.remap := rfl
@[simp] theorem State.mapCtl_remapOps (s : State) (f : Ctl → Ctl) : (s.mapCtl f).remapOps = s.remapOps := rfl
@[simp] theorem State.mapCtl_nextTag (s : State) (f : Ctl → Ctl) : (s.mapCtl f).nextTag = s.nextTag := rfl
@[simp] theorem State.mapCtl_fabricOut (s : State) (f : Ctl → Ctl) : (s.mapCtl f).fabricOut = s.fabricOut := rfl
@[simp] theorem State.mapCtl_binderRemote (s : State) (f : Ctl → Ctl) : (s.mapCtl f).binderRemote = s.binderRemote := rfl
@[simp] theorem State.mapCtl_hostPosts (s : State) (f : Ctl → Ctl) : (s.mapCtl f).hostPosts = s.hostPosts := rfl
@[simp] theorem State.mapCtl_hostLeaves (s : State) (f : Ctl → Ctl) : (s.mapCtl f).hostLeaves = s.hostLeaves := rfl
@[simp] theorem State.mapCtl_rrs (s : State) (f : Ctl → Ctl) : (s.mapCtl f).rrs = s.rrs := rfl
@[simp] theorem State.mapCtl_meas (s : State) (f : Ctl → Ctl) : (s.mapCtl f).meas = s.meas := rfl
@[simp] theorem State.mapCtl_staging (s : State) (f : Ctl → Ctl) : (s.mapCtl f).staging = s.staging := rfl
@[simp] theorem State.mapCtl_fwLen (s : State) (f : Ctl → Ctl) : (s.mapCtl f).fwLen = s.fwLen := rfl
@[simp] theorem State.mapCtl_suspended (s : State) (f : Ctl → Ctl) : (s.mapCtl f).suspended = s.suspended := rfl
@[simp] theorem State.mapCtl_staged (s : State) (f : Ctl → Ctl) : (s.mapCtl f).staged = s.staged := rfl
@[simp] theorem State.mapCtl_st_sn (s : State) (f : Ctl → Ctl) : (s.mapCtl f).st.sn = s.st.sn := rfl
@[simp] theorem State.mapCtl_st_partn (s : State) (f : Ctl → Ctl) : (s.mapCtl f).st.partn = s.st.partn := rfl
@[simp] theorem State.mapCtl_st_region (s : State) (f : Ctl → Ctl) : (s.mapCtl f).st.region = s.st.region := rfl
@[simp] theorem State.mapCtl_st_pc (s : State) (f : Ctl → Ctl) : (s.mapCtl f).st.pc = s.st.pc := rfl
@[simp] theorem State.mapCtl_st_regs (s : State) (f : Ctl → Ctl) : (s.mapCtl f).st.regs = s.st.regs := rfl
@[simp] theorem State.mapCtl_st_mode (s : State) (f : Ctl → Ctl) : (s.mapCtl f).st.mode = s.st.mode := rfl
@[simp] theorem State.mapCtl_st_trap (s : State) (f : Ctl → Ctl) : (s.mapCtl f).st.trap = s.st.trap := rfl
@[simp] theorem State.mapCtl_st_k (s : State) (f : Ctl → Ctl) : (s.mapCtl f).st.k = s.st.k := rfl
@[simp] theorem State.mapCtl_st_q (s : State) (f : Ctl → Ctl) : (s.mapCtl f).st.q = s.st.q := rfl
@[simp] theorem State.mapCtl_st_vq (s : State) (f : Ctl → Ctl) : (s.mapCtl f).st.vq = s.st.vq := rfl
@[simp] theorem State.mapCtl_st_pend (s : State) (f : Ctl → Ctl) : (s.mapCtl f).st.pend = s.st.pend := rfl
@[simp] theorem State.mapCtl_st_issue (s : State) (f : Ctl → Ctl) : (s.mapCtl f).st.issue = s.st.issue := rfl
@[simp] theorem State.mapCtl_st_scalarNext (s : State) (f : Ctl → Ctl) : (s.mapCtl f).st.scalarNext = s.st.scalarNext := rfl
@[simp] theorem State.mapCtl_st_queueOnly (s : State) (f : Ctl → Ctl) : (s.mapCtl f).st.queueOnly = s.st.queueOnly := rfl
@[simp] theorem State.mapCtl_st_early (s : State) (f : Ctl → Ctl) : (s.mapCtl f).st.early = s.st.early := rfl
@[simp] theorem State.mapCtl_st_restartPc (s : State) (f : Ctl → Ctl) : (s.mapCtl f).st.restartPc = s.st.restartPc := rfl
@[simp] theorem State.mapCtl_st_rearm (s : State) (f : Ctl → Ctl) : (s.mapCtl f).st.rearm = s.st.rearm := rfl
@[simp] theorem State.mapCtl_st_resumePc (s : State) (f : Ctl → Ctl) : (s.mapCtl f).st.resumePc = s.st.resumePc := rfl
@[simp] theorem State.mapCtl_st_hold (s : State) (f : Ctl → Ctl) : (s.mapCtl f).st.hold = s.st.hold := rfl
@[simp] theorem State.mapCtl_st_preemptNote (s : State) (f : Ctl → Ctl) : (s.mapCtl f).st.preemptNote = s.st.preemptNote := rfl
@[simp] theorem State.mapCtl_st_wait (s : State) (f : Ctl → Ctl) : (s.mapCtl f).st.wait = s.st.wait := rfl
@[simp] theorem State.mapCtl_st_qwait (s : State) (f : Ctl → Ctl) : (s.mapCtl f).st.qwait = s.st.qwait := rfl
@[simp] theorem State.mapCtl_st_ring (s : State) (f : Ctl → Ctl) : (s.mapCtl f).st.ring = s.st.ring := rfl
@[simp] theorem State.mapCtl_st_seqv (s : State) (f : Ctl → Ctl) : (s.mapCtl f).st.seqv = s.st.seqv := rfl
@[simp] theorem State.mapCtl_st_rpl (s : State) (f : Ctl → Ctl) : (s.mapCtl f).st.rpl = s.st.rpl := rfl
@[simp] theorem State.mapCtl_st_claims (s : State) (f : Ctl → Ctl) : (s.mapCtl f).st.claims = s.st.claims := rfl
@[simp] theorem State.mapCtl_st_wake (s : State) (f : Ctl → Ctl) : (s.mapCtl f).st.wake = s.st.wake := rfl
@[simp] theorem State.mapCtl_st_fifo (s : State) (f : Ctl → Ctl) : (s.mapCtl f).st.fifo = s.st.fifo := rfl
@[simp] theorem State.mapCtl_st_remote (s : State) (f : Ctl → Ctl) : (s.mapCtl f).st.remote = s.st.remote := rfl
@[simp] theorem State.mapCtl_st_begun (s : State) (f : Ctl → Ctl) : (s.mapCtl f).st.begun = s.st.begun := rfl
@[simp] theorem State.mapCtl_st_trains (s : State) (f : Ctl → Ctl) : (s.mapCtl f).st.trains = s.st.trains := rfl
@[simp] theorem State.mapCtl_st_engFlags (s : State) (f : Ctl → Ctl) : (s.mapCtl f).st.engFlags = s.st.engFlags := rfl
@[simp] theorem State.mapCtl_st_lines (s : State) (f : Ctl → Ctl) : (s.mapCtl f).st.lines = s.st.lines := rfl
@[simp] theorem State.mapCtl_st_counted (s : State) (f : Ctl → Ctl) : (s.mapCtl f).st.counted = s.st.counted := rfl
@[simp] theorem State.mapCtl_st_scalarLines (s : State) (f : Ctl → Ctl) : (s.mapCtl f).st.scalarLines = s.st.scalarLines := rfl
@[simp] theorem State.mapCtl_st_viewTail (s : State) (f : Ctl → Ctl) : (s.mapCtl f).st.viewTail = s.st.viewTail := rfl
@[simp] theorem State.mapCtl_st_tailRead (s : State) (f : Ctl → Ctl) : (s.mapCtl f).st.tailRead = s.st.tailRead := rfl
@[simp] theorem State.mapCtl_st_arrivals (s : State) (f : Ctl → Ctl) : (s.mapCtl f).st.arrivals = s.st.arrivals := rfl
@[simp] theorem State.mapCtl_st_memberOf (s : State) (f : Ctl → Ctl) : (s.mapCtl f).st.memberOf = s.st.memberOf := rfl
@[simp] theorem State.mapCtl_st_waitDone (s : State) (f : Ctl → Ctl) : (s.mapCtl f).st.waitDone = s.st.waitDone := rfl
@[simp] theorem State.mapCtl_st_coll (s : State) (f : Ctl → Ctl) : (s.mapCtl f).st.coll = s.st.coll := rfl
@[simp] theorem State.mapCtl_st_asked (s : State) (f : Ctl → Ctl) : (s.mapCtl f).st.asked = s.st.asked := rfl
@[simp] theorem State.mapCtl_st_collOff (s : State) (f : Ctl → Ctl) : (s.mapCtl f).st.collOff = s.st.collOff := rfl
@[simp] theorem State.mapCtl_st_askedOff (s : State) (f : Ctl → Ctl) : (s.mapCtl f).st.askedOff = s.st.askedOff := rfl
@[simp] theorem State.mapCtl_st_joinRefused (s : State) (f : Ctl → Ctl) : (s.mapCtl f).st.joinRefused = s.st.joinRefused := rfl
@[simp] theorem State.mapCtl_st_refusedOff (s : State) (f : Ctl → Ctl) : (s.mapCtl f).st.refusedOff = s.st.refusedOff := rfl
@[simp] theorem State.mapCtl_st_entered (s : State) (f : Ctl → Ctl) : (s.mapCtl f).st.entered = s.st.entered := rfl
@[simp] theorem State.mapCtl_st_tags (s : State) (f : Ctl → Ctl) : (s.mapCtl f).st.tags = s.st.tags := rfl
@[simp] theorem State.mapCtl_st_sched (s : State) (f : Ctl → Ctl) : (s.mapCtl f).st.sched = s.st.sched := rfl

/-! #### `setPc` -/

@[simp] theorem State.setPc_phase (s : State) (x : Word) : (s.setPc x).phase = s.phase := rfl
@[simp] theorem State.setPc_fwst (s : State) (x : Word) : (s.setPc x).fwst = s.fwst := rfl
@[simp] theorem State.setPc_cur (s : State) (x : Word) : (s.setPc x).cur = s.cur := rfl
@[simp] theorem State.setPc_others (s : State) (x : Word) : (s.setPc x).others = s.others := rfl
@[simp] theorem State.setPc_ir (s : State) (x : Word) : (s.setPc x).ir = s.ir := rfl
@[simp] theorem State.setPc_turns (s : State) (x : Word) : (s.setPc x).turns = s.turns := rfl
@[simp] theorem State.setPc_stepNo (s : State) (x : Word) : (s.setPc x).stepNo = s.stepNo := rfl
@[simp] theorem State.setPc_freeNo (s : State) (x : Word) : (s.setPc x).freeNo = s.freeNo := rfl
@[simp] theorem State.setPc_mem (s : State) (x : Word) : (s.setPc x).mem = s.mem := rfl
@[simp] theorem State.setPc_badLines (s : State) (x : Word) : (s.setPc x).badLines = s.badLines := rfl
@[simp] theorem State.setPc_badBytes (s : State) (x : Word) : (s.setPc x).badBytes = s.badBytes := rfl
@[simp] theorem State.setPc_onchip (s : State) (x : Word) : (s.setPc x).onchip = s.onchip := rfl
@[simp] theorem State.setPc_shadow (s : State) (x : Word) : (s.setPc x).shadow = s.shadow := rfl
@[simp] theorem State.setPc_hostMem (s : State) (x : Word) : (s.setPc x).hostMem = s.hostMem := rfl
@[simp] theorem State.setPc_hostBad (s : State) (x : Word) : (s.setPc x).hostBad = s.hostBad := rfl
@[simp] theorem State.setPc_hostRO (s : State) (x : Word) : (s.setPc x).hostRO = s.hostRO := rfl
@[simp] theorem State.setPc_hostAnswer (s : State) (x : Word) : (s.setPc x).hostAnswer = s.hostAnswer := rfl
@[simp] theorem State.setPc_cores (s : State) (x : Word) : (s.setPc x).cores = s.cores := rfl
@[simp] theorem State.setPc_sects (s : State) (x : Word) : (s.setPc x).sects = s.sects := rfl
@[simp] theorem State.setPc_dies (s : State) (x : Word) : (s.setPc x).dies = s.dies := rfl
@[simp] theorem State.setPc_power (s : State) (x : Word) : (s.setPc x).power = s.power := rfl
@[simp] theorem State.setPc_linkErrors (s : State) (x : Word) : (s.setPc x).linkErrors = s.linkErrors := rfl
@[simp] theorem State.setPc_heldWrites (s : State) (x : Word) : (s.setPc x).heldWrites = s.heldWrites := rfl
@[simp] theorem State.setPc_diecfg (s : State) (x : Word) : (s.setPc x).diecfg = s.diecfg := rfl
@[simp] theorem State.setPc_share (s : State) (x : Word) : (s.setPc x).share = s.share := rfl
@[simp] theorem State.setPc_shareSet (s : State) (x : Word) : (s.setPc x).shareSet = s.shareSet := rfl
@[simp] theorem State.setPc_handle (s : State) (x : Word) : (s.setPc x).handle = s.handle := rfl
@[simp] theorem State.setPc_duty (s : State) (x : Word) : (s.setPc x).duty = s.duty := rfl
@[simp] theorem State.setPc_act (s : State) (x : Word) : (s.setPc x).act = s.act := rfl
@[simp] theorem State.setPc_parts (s : State) (x : Word) : (s.setPc x).parts = s.parts := rfl
@[simp] theorem State.setPc_regions (s : State) (x : Word) : (s.setPc x).regions = s.regions := rfl
@[simp] theorem State.setPc_outTable (s : State) (x : Word) : (s.setPc x).outTable = s.outTable := rfl
@[simp] theorem State.setPc_inTable (s : State) (x : Word) : (s.setPc x).inTable = s.inTable := rfl
@[simp] theorem State.setPc_saveArea (s : State) (x : Word) : (s.setPc x).saveArea = s.saveArea := rfl
@[simp] theorem State.setPc_fns (s : State) (x : Word) : (s.setPc x).fns = s.fns := rfl
@[simp] theorem State.setPc_lids (s : State) (x : Word) : (s.setPc x).lids = s.lids := rfl
@[simp] theorem State.setPc_launches (s : State) (x : Word) : (s.setPc x).launches = s.launches := rfl
@[simp] theorem State.setPc_rings (s : State) (x : Word) : (s.setPc x).rings = s.rings := rfl
@[simp] theorem State.setPc_meshes (s : State) (x : Word) : (s.setPc x).meshes = s.meshes := rfl
@[simp] theorem State.setPc_groups (s : State) (x : Word) : (s.setPc x).groups = s.groups := rfl
@[simp] theorem State.setPc_contribs (s : State) (x : Word) : (s.setPc x).contribs = s.contribs := rfl
@[simp] theorem State.setPc_committed (s : State) (x : Word) : (s.setPc x).committed = s.committed := rfl
@[simp] theorem State.setPc_remap (s : State) (x : Word) : (s.setPc x).remap = s.remap := rfl
@[simp] theorem State.setPc_remapOps (s : State) (x : Word) : (s.setPc x).remapOps = s.remapOps := rfl
@[simp] theorem State.setPc_nextTag (s : State) (x : Word) : (s.setPc x).nextTag = s.nextTag := rfl
@[simp] theorem State.setPc_fabricOut (s : State) (x : Word) : (s.setPc x).fabricOut = s.fabricOut := rfl
@[simp] theorem State.setPc_binderRemote (s : State) (x : Word) : (s.setPc x).binderRemote = s.binderRemote := rfl
@[simp] theorem State.setPc_hostPosts (s : State) (x : Word) : (s.setPc x).hostPosts = s.hostPosts := rfl
@[simp] theorem State.setPc_hostLeaves (s : State) (x : Word) : (s.setPc x).hostLeaves = s.hostLeaves := rfl
@[simp] theorem State.setPc_rrs (s : State) (x : Word) : (s.setPc x).rrs = s.rrs := rfl
@[simp] theorem State.setPc_meas (s : State) (x : Word) : (s.setPc x).meas = s.meas := rfl
@[simp] theorem State.setPc_staging (s : State) (x : Word) : (s.setPc x).staging = s.staging := rfl
@[simp] theorem State.setPc_fwLen (s : State) (x : Word) : (s.setPc x).fwLen = s.fwLen := rfl
@[simp] theorem State.setPc_suspended (s : State) (x : Word) : (s.setPc x).suspended = s.suspended := rfl
@[simp] theorem State.setPc_staged (s : State) (x : Word) : (s.setPc x).staged = s.staged := rfl
@[simp] theorem State.setPc_st_sn (s : State) (x : Word) : (s.setPc x).st.sn = s.st.sn := rfl
@[simp] theorem State.setPc_st_partn (s : State) (x : Word) : (s.setPc x).st.partn = s.st.partn := rfl
@[simp] theorem State.setPc_st_region (s : State) (x : Word) : (s.setPc x).st.region = s.st.region := rfl
@[simp] theorem State.setPc_st_regs (s : State) (x : Word) : (s.setPc x).st.regs = s.st.regs := rfl
@[simp] theorem State.setPc_st_ctl (s : State) (x : Word) : (s.setPc x).st.ctl = s.st.ctl := rfl
@[simp] theorem State.setPc_st_mode (s : State) (x : Word) : (s.setPc x).st.mode = s.st.mode := rfl
@[simp] theorem State.setPc_st_trap (s : State) (x : Word) : (s.setPc x).st.trap = s.st.trap := rfl
@[simp] theorem State.setPc_st_k (s : State) (x : Word) : (s.setPc x).st.k = s.st.k := rfl
@[simp] theorem State.setPc_st_q (s : State) (x : Word) : (s.setPc x).st.q = s.st.q := rfl
@[simp] theorem State.setPc_st_vq (s : State) (x : Word) : (s.setPc x).st.vq = s.st.vq := rfl
@[simp] theorem State.setPc_st_pend (s : State) (x : Word) : (s.setPc x).st.pend = s.st.pend := rfl
@[simp] theorem State.setPc_st_issue (s : State) (x : Word) : (s.setPc x).st.issue = s.st.issue := rfl
@[simp] theorem State.setPc_st_scalarNext (s : State) (x : Word) : (s.setPc x).st.scalarNext = s.st.scalarNext := rfl
@[simp] theorem State.setPc_st_queueOnly (s : State) (x : Word) : (s.setPc x).st.queueOnly = s.st.queueOnly := rfl
@[simp] theorem State.setPc_st_early (s : State) (x : Word) : (s.setPc x).st.early = s.st.early := rfl
@[simp] theorem State.setPc_st_restartPc (s : State) (x : Word) : (s.setPc x).st.restartPc = s.st.restartPc := rfl
@[simp] theorem State.setPc_st_rearm (s : State) (x : Word) : (s.setPc x).st.rearm = s.st.rearm := rfl
@[simp] theorem State.setPc_st_resumePc (s : State) (x : Word) : (s.setPc x).st.resumePc = s.st.resumePc := rfl
@[simp] theorem State.setPc_st_hold (s : State) (x : Word) : (s.setPc x).st.hold = s.st.hold := rfl
@[simp] theorem State.setPc_st_preemptNote (s : State) (x : Word) : (s.setPc x).st.preemptNote = s.st.preemptNote := rfl
@[simp] theorem State.setPc_st_wait (s : State) (x : Word) : (s.setPc x).st.wait = s.st.wait := rfl
@[simp] theorem State.setPc_st_qwait (s : State) (x : Word) : (s.setPc x).st.qwait = s.st.qwait := rfl
@[simp] theorem State.setPc_st_ring (s : State) (x : Word) : (s.setPc x).st.ring = s.st.ring := rfl
@[simp] theorem State.setPc_st_seqv (s : State) (x : Word) : (s.setPc x).st.seqv = s.st.seqv := rfl
@[simp] theorem State.setPc_st_rpl (s : State) (x : Word) : (s.setPc x).st.rpl = s.st.rpl := rfl
@[simp] theorem State.setPc_st_claims (s : State) (x : Word) : (s.setPc x).st.claims = s.st.claims := rfl
@[simp] theorem State.setPc_st_wake (s : State) (x : Word) : (s.setPc x).st.wake = s.st.wake := rfl
@[simp] theorem State.setPc_st_fifo (s : State) (x : Word) : (s.setPc x).st.fifo = s.st.fifo := rfl
@[simp] theorem State.setPc_st_remote (s : State) (x : Word) : (s.setPc x).st.remote = s.st.remote := rfl
@[simp] theorem State.setPc_st_begun (s : State) (x : Word) : (s.setPc x).st.begun = s.st.begun := rfl
@[simp] theorem State.setPc_st_trains (s : State) (x : Word) : (s.setPc x).st.trains = s.st.trains := rfl
@[simp] theorem State.setPc_st_engFlags (s : State) (x : Word) : (s.setPc x).st.engFlags = s.st.engFlags := rfl
@[simp] theorem State.setPc_st_lines (s : State) (x : Word) : (s.setPc x).st.lines = s.st.lines := rfl
@[simp] theorem State.setPc_st_counted (s : State) (x : Word) : (s.setPc x).st.counted = s.st.counted := rfl
@[simp] theorem State.setPc_st_scalarLines (s : State) (x : Word) : (s.setPc x).st.scalarLines = s.st.scalarLines := rfl
@[simp] theorem State.setPc_st_viewTail (s : State) (x : Word) : (s.setPc x).st.viewTail = s.st.viewTail := rfl
@[simp] theorem State.setPc_st_tailRead (s : State) (x : Word) : (s.setPc x).st.tailRead = s.st.tailRead := rfl
@[simp] theorem State.setPc_st_arrivals (s : State) (x : Word) : (s.setPc x).st.arrivals = s.st.arrivals := rfl
@[simp] theorem State.setPc_st_memberOf (s : State) (x : Word) : (s.setPc x).st.memberOf = s.st.memberOf := rfl
@[simp] theorem State.setPc_st_waitDone (s : State) (x : Word) : (s.setPc x).st.waitDone = s.st.waitDone := rfl
@[simp] theorem State.setPc_st_coll (s : State) (x : Word) : (s.setPc x).st.coll = s.st.coll := rfl
@[simp] theorem State.setPc_st_asked (s : State) (x : Word) : (s.setPc x).st.asked = s.st.asked := rfl
@[simp] theorem State.setPc_st_collOff (s : State) (x : Word) : (s.setPc x).st.collOff = s.st.collOff := rfl
@[simp] theorem State.setPc_st_askedOff (s : State) (x : Word) : (s.setPc x).st.askedOff = s.st.askedOff := rfl
@[simp] theorem State.setPc_st_joinRefused (s : State) (x : Word) : (s.setPc x).st.joinRefused = s.st.joinRefused := rfl
@[simp] theorem State.setPc_st_refusedOff (s : State) (x : Word) : (s.setPc x).st.refusedOff = s.st.refusedOff := rfl
@[simp] theorem State.setPc_st_entered (s : State) (x : Word) : (s.setPc x).st.entered = s.st.entered := rfl
@[simp] theorem State.setPc_st_tags (s : State) (x : Word) : (s.setPc x).st.tags = s.st.tags := rfl
@[simp] theorem State.setPc_st_sched (s : State) (x : Word) : (s.setPc x).st.sched = s.st.sched := rfl

/-! #### `setG` -/

@[simp] theorem State.setG_phase (s : State) (r : GReg) (x : Word) : (s.setG r x).phase = s.phase := by unfold State.setG; split <;> rfl
@[simp] theorem State.setG_fwst (s : State) (r : GReg) (x : Word) : (s.setG r x).fwst = s.fwst := by unfold State.setG; split <;> rfl
@[simp] theorem State.setG_cur (s : State) (r : GReg) (x : Word) : (s.setG r x).cur = s.cur := by unfold State.setG; split <;> rfl
@[simp] theorem State.setG_others (s : State) (r : GReg) (x : Word) : (s.setG r x).others = s.others := by unfold State.setG; split <;> rfl
@[simp] theorem State.setG_ir (s : State) (r : GReg) (x : Word) : (s.setG r x).ir = s.ir := by unfold State.setG; split <;> rfl
@[simp] theorem State.setG_turns (s : State) (r : GReg) (x : Word) : (s.setG r x).turns = s.turns := by unfold State.setG; split <;> rfl
@[simp] theorem State.setG_stepNo (s : State) (r : GReg) (x : Word) : (s.setG r x).stepNo = s.stepNo := by unfold State.setG; split <;> rfl
@[simp] theorem State.setG_freeNo (s : State) (r : GReg) (x : Word) : (s.setG r x).freeNo = s.freeNo := by unfold State.setG; split <;> rfl
@[simp] theorem State.setG_mem (s : State) (r : GReg) (x : Word) : (s.setG r x).mem = s.mem := by unfold State.setG; split <;> rfl
@[simp] theorem State.setG_badLines (s : State) (r : GReg) (x : Word) : (s.setG r x).badLines = s.badLines := by unfold State.setG; split <;> rfl
@[simp] theorem State.setG_badBytes (s : State) (r : GReg) (x : Word) : (s.setG r x).badBytes = s.badBytes := by unfold State.setG; split <;> rfl
@[simp] theorem State.setG_onchip (s : State) (r : GReg) (x : Word) : (s.setG r x).onchip = s.onchip := by unfold State.setG; split <;> rfl
@[simp] theorem State.setG_shadow (s : State) (r : GReg) (x : Word) : (s.setG r x).shadow = s.shadow := by unfold State.setG; split <;> rfl
@[simp] theorem State.setG_hostMem (s : State) (r : GReg) (x : Word) : (s.setG r x).hostMem = s.hostMem := by unfold State.setG; split <;> rfl
@[simp] theorem State.setG_hostBad (s : State) (r : GReg) (x : Word) : (s.setG r x).hostBad = s.hostBad := by unfold State.setG; split <;> rfl
@[simp] theorem State.setG_hostRO (s : State) (r : GReg) (x : Word) : (s.setG r x).hostRO = s.hostRO := by unfold State.setG; split <;> rfl
@[simp] theorem State.setG_hostAnswer (s : State) (r : GReg) (x : Word) : (s.setG r x).hostAnswer = s.hostAnswer := by unfold State.setG; split <;> rfl
@[simp] theorem State.setG_cores (s : State) (r : GReg) (x : Word) : (s.setG r x).cores = s.cores := by unfold State.setG; split <;> rfl
@[simp] theorem State.setG_sects (s : State) (r : GReg) (x : Word) : (s.setG r x).sects = s.sects := by unfold State.setG; split <;> rfl
@[simp] theorem State.setG_dies (s : State) (r : GReg) (x : Word) : (s.setG r x).dies = s.dies := by unfold State.setG; split <;> rfl
@[simp] theorem State.setG_power (s : State) (r : GReg) (x : Word) : (s.setG r x).power = s.power := by unfold State.setG; split <;> rfl
@[simp] theorem State.setG_linkErrors (s : State) (r : GReg) (x : Word) : (s.setG r x).linkErrors = s.linkErrors := by unfold State.setG; split <;> rfl
@[simp] theorem State.setG_heldWrites (s : State) (r : GReg) (x : Word) : (s.setG r x).heldWrites = s.heldWrites := by unfold State.setG; split <;> rfl
@[simp] theorem State.setG_diecfg (s : State) (r : GReg) (x : Word) : (s.setG r x).diecfg = s.diecfg := by unfold State.setG; split <;> rfl
@[simp] theorem State.setG_share (s : State) (r : GReg) (x : Word) : (s.setG r x).share = s.share := by unfold State.setG; split <;> rfl
@[simp] theorem State.setG_shareSet (s : State) (r : GReg) (x : Word) : (s.setG r x).shareSet = s.shareSet := by unfold State.setG; split <;> rfl
@[simp] theorem State.setG_handle (s : State) (r : GReg) (x : Word) : (s.setG r x).handle = s.handle := by unfold State.setG; split <;> rfl
@[simp] theorem State.setG_duty (s : State) (r : GReg) (x : Word) : (s.setG r x).duty = s.duty := by unfold State.setG; split <;> rfl
@[simp] theorem State.setG_act (s : State) (r : GReg) (x : Word) : (s.setG r x).act = s.act := by unfold State.setG; split <;> rfl
@[simp] theorem State.setG_parts (s : State) (r : GReg) (x : Word) : (s.setG r x).parts = s.parts := by unfold State.setG; split <;> rfl
@[simp] theorem State.setG_regions (s : State) (r : GReg) (x : Word) : (s.setG r x).regions = s.regions := by unfold State.setG; split <;> rfl
@[simp] theorem State.setG_outTable (s : State) (r : GReg) (x : Word) : (s.setG r x).outTable = s.outTable := by unfold State.setG; split <;> rfl
@[simp] theorem State.setG_inTable (s : State) (r : GReg) (x : Word) : (s.setG r x).inTable = s.inTable := by unfold State.setG; split <;> rfl
@[simp] theorem State.setG_saveArea (s : State) (r : GReg) (x : Word) : (s.setG r x).saveArea = s.saveArea := by unfold State.setG; split <;> rfl
@[simp] theorem State.setG_fns (s : State) (r : GReg) (x : Word) : (s.setG r x).fns = s.fns := by unfold State.setG; split <;> rfl
@[simp] theorem State.setG_lids (s : State) (r : GReg) (x : Word) : (s.setG r x).lids = s.lids := by unfold State.setG; split <;> rfl
@[simp] theorem State.setG_launches (s : State) (r : GReg) (x : Word) : (s.setG r x).launches = s.launches := by unfold State.setG; split <;> rfl
@[simp] theorem State.setG_rings (s : State) (r : GReg) (x : Word) : (s.setG r x).rings = s.rings := by unfold State.setG; split <;> rfl
@[simp] theorem State.setG_meshes (s : State) (r : GReg) (x : Word) : (s.setG r x).meshes = s.meshes := by unfold State.setG; split <;> rfl
@[simp] theorem State.setG_groups (s : State) (r : GReg) (x : Word) : (s.setG r x).groups = s.groups := by unfold State.setG; split <;> rfl
@[simp] theorem State.setG_contribs (s : State) (r : GReg) (x : Word) : (s.setG r x).contribs = s.contribs := by unfold State.setG; split <;> rfl
@[simp] theorem State.setG_committed (s : State) (r : GReg) (x : Word) : (s.setG r x).committed = s.committed := by unfold State.setG; split <;> rfl
@[simp] theorem State.setG_remap (s : State) (r : GReg) (x : Word) : (s.setG r x).remap = s.remap := by unfold State.setG; split <;> rfl
@[simp] theorem State.setG_remapOps (s : State) (r : GReg) (x : Word) : (s.setG r x).remapOps = s.remapOps := by unfold State.setG; split <;> rfl
@[simp] theorem State.setG_nextTag (s : State) (r : GReg) (x : Word) : (s.setG r x).nextTag = s.nextTag := by unfold State.setG; split <;> rfl
@[simp] theorem State.setG_fabricOut (s : State) (r : GReg) (x : Word) : (s.setG r x).fabricOut = s.fabricOut := by unfold State.setG; split <;> rfl
@[simp] theorem State.setG_binderRemote (s : State) (r : GReg) (x : Word) : (s.setG r x).binderRemote = s.binderRemote := by unfold State.setG; split <;> rfl
@[simp] theorem State.setG_hostPosts (s : State) (r : GReg) (x : Word) : (s.setG r x).hostPosts = s.hostPosts := by unfold State.setG; split <;> rfl
@[simp] theorem State.setG_hostLeaves (s : State) (r : GReg) (x : Word) : (s.setG r x).hostLeaves = s.hostLeaves := by unfold State.setG; split <;> rfl
@[simp] theorem State.setG_rrs (s : State) (r : GReg) (x : Word) : (s.setG r x).rrs = s.rrs := by unfold State.setG; split <;> rfl
@[simp] theorem State.setG_meas (s : State) (r : GReg) (x : Word) : (s.setG r x).meas = s.meas := by unfold State.setG; split <;> rfl
@[simp] theorem State.setG_staging (s : State) (r : GReg) (x : Word) : (s.setG r x).staging = s.staging := by unfold State.setG; split <;> rfl
@[simp] theorem State.setG_fwLen (s : State) (r : GReg) (x : Word) : (s.setG r x).fwLen = s.fwLen := by unfold State.setG; split <;> rfl
@[simp] theorem State.setG_suspended (s : State) (r : GReg) (x : Word) : (s.setG r x).suspended = s.suspended := by unfold State.setG; split <;> rfl
@[simp] theorem State.setG_staged (s : State) (r : GReg) (x : Word) : (s.setG r x).staged = s.staged := by unfold State.setG; split <;> rfl
@[simp] theorem State.setG_st_sn (s : State) (r : GReg) (x : Word) : (s.setG r x).st.sn = s.st.sn := by unfold State.setG; split <;> rfl
@[simp] theorem State.setG_st_partn (s : State) (r : GReg) (x : Word) : (s.setG r x).st.partn = s.st.partn := by unfold State.setG; split <;> rfl
@[simp] theorem State.setG_st_region (s : State) (r : GReg) (x : Word) : (s.setG r x).st.region = s.st.region := by unfold State.setG; split <;> rfl
@[simp] theorem State.setG_st_pc (s : State) (r : GReg) (x : Word) : (s.setG r x).st.pc = s.st.pc := by unfold State.setG; split <;> rfl
@[simp] theorem State.setG_st_ctl (s : State) (r : GReg) (x : Word) : (s.setG r x).st.ctl = s.st.ctl := by unfold State.setG; split <;> rfl
@[simp] theorem State.setG_st_mode (s : State) (r : GReg) (x : Word) : (s.setG r x).st.mode = s.st.mode := by unfold State.setG; split <;> rfl
@[simp] theorem State.setG_st_trap (s : State) (r : GReg) (x : Word) : (s.setG r x).st.trap = s.st.trap := by unfold State.setG; split <;> rfl
@[simp] theorem State.setG_st_k (s : State) (r : GReg) (x : Word) : (s.setG r x).st.k = s.st.k := by unfold State.setG; split <;> rfl
@[simp] theorem State.setG_st_q (s : State) (r : GReg) (x : Word) : (s.setG r x).st.q = s.st.q := by unfold State.setG; split <;> rfl
@[simp] theorem State.setG_st_vq (s : State) (r : GReg) (x : Word) : (s.setG r x).st.vq = s.st.vq := by unfold State.setG; split <;> rfl
@[simp] theorem State.setG_st_pend (s : State) (r : GReg) (x : Word) : (s.setG r x).st.pend = s.st.pend := by unfold State.setG; split <;> rfl
@[simp] theorem State.setG_st_issue (s : State) (r : GReg) (x : Word) : (s.setG r x).st.issue = s.st.issue := by unfold State.setG; split <;> rfl
@[simp] theorem State.setG_st_scalarNext (s : State) (r : GReg) (x : Word) : (s.setG r x).st.scalarNext = s.st.scalarNext := by unfold State.setG; split <;> rfl
@[simp] theorem State.setG_st_queueOnly (s : State) (r : GReg) (x : Word) : (s.setG r x).st.queueOnly = s.st.queueOnly := by unfold State.setG; split <;> rfl
@[simp] theorem State.setG_st_early (s : State) (r : GReg) (x : Word) : (s.setG r x).st.early = s.st.early := by unfold State.setG; split <;> rfl
@[simp] theorem State.setG_st_restartPc (s : State) (r : GReg) (x : Word) : (s.setG r x).st.restartPc = s.st.restartPc := by unfold State.setG; split <;> rfl
@[simp] theorem State.setG_st_rearm (s : State) (r : GReg) (x : Word) : (s.setG r x).st.rearm = s.st.rearm := by unfold State.setG; split <;> rfl
@[simp] theorem State.setG_st_resumePc (s : State) (r : GReg) (x : Word) : (s.setG r x).st.resumePc = s.st.resumePc := by unfold State.setG; split <;> rfl
@[simp] theorem State.setG_st_hold (s : State) (r : GReg) (x : Word) : (s.setG r x).st.hold = s.st.hold := by unfold State.setG; split <;> rfl
@[simp] theorem State.setG_st_preemptNote (s : State) (r : GReg) (x : Word) : (s.setG r x).st.preemptNote = s.st.preemptNote := by unfold State.setG; split <;> rfl
@[simp] theorem State.setG_st_wait (s : State) (r : GReg) (x : Word) : (s.setG r x).st.wait = s.st.wait := by unfold State.setG; split <;> rfl
@[simp] theorem State.setG_st_qwait (s : State) (r : GReg) (x : Word) : (s.setG r x).st.qwait = s.st.qwait := by unfold State.setG; split <;> rfl
@[simp] theorem State.setG_st_ring (s : State) (r : GReg) (x : Word) : (s.setG r x).st.ring = s.st.ring := by unfold State.setG; split <;> rfl
@[simp] theorem State.setG_st_seqv (s : State) (r : GReg) (x : Word) : (s.setG r x).st.seqv = s.st.seqv := by unfold State.setG; split <;> rfl
@[simp] theorem State.setG_st_rpl (s : State) (r : GReg) (x : Word) : (s.setG r x).st.rpl = s.st.rpl := by unfold State.setG; split <;> rfl
@[simp] theorem State.setG_st_claims (s : State) (r : GReg) (x : Word) : (s.setG r x).st.claims = s.st.claims := by unfold State.setG; split <;> rfl
@[simp] theorem State.setG_st_wake (s : State) (r : GReg) (x : Word) : (s.setG r x).st.wake = s.st.wake := by unfold State.setG; split <;> rfl
@[simp] theorem State.setG_st_fifo (s : State) (r : GReg) (x : Word) : (s.setG r x).st.fifo = s.st.fifo := by unfold State.setG; split <;> rfl
@[simp] theorem State.setG_st_remote (s : State) (r : GReg) (x : Word) : (s.setG r x).st.remote = s.st.remote := by unfold State.setG; split <;> rfl
@[simp] theorem State.setG_st_begun (s : State) (r : GReg) (x : Word) : (s.setG r x).st.begun = s.st.begun := by unfold State.setG; split <;> rfl
@[simp] theorem State.setG_st_trains (s : State) (r : GReg) (x : Word) : (s.setG r x).st.trains = s.st.trains := by unfold State.setG; split <;> rfl
@[simp] theorem State.setG_st_engFlags (s : State) (r : GReg) (x : Word) : (s.setG r x).st.engFlags = s.st.engFlags := by unfold State.setG; split <;> rfl
@[simp] theorem State.setG_st_lines (s : State) (r : GReg) (x : Word) : (s.setG r x).st.lines = s.st.lines := by unfold State.setG; split <;> rfl
@[simp] theorem State.setG_st_counted (s : State) (r : GReg) (x : Word) : (s.setG r x).st.counted = s.st.counted := by unfold State.setG; split <;> rfl
@[simp] theorem State.setG_st_scalarLines (s : State) (r : GReg) (x : Word) : (s.setG r x).st.scalarLines = s.st.scalarLines := by unfold State.setG; split <;> rfl
@[simp] theorem State.setG_st_viewTail (s : State) (r : GReg) (x : Word) : (s.setG r x).st.viewTail = s.st.viewTail := by unfold State.setG; split <;> rfl
@[simp] theorem State.setG_st_tailRead (s : State) (r : GReg) (x : Word) : (s.setG r x).st.tailRead = s.st.tailRead := by unfold State.setG; split <;> rfl
@[simp] theorem State.setG_st_arrivals (s : State) (r : GReg) (x : Word) : (s.setG r x).st.arrivals = s.st.arrivals := by unfold State.setG; split <;> rfl
@[simp] theorem State.setG_st_memberOf (s : State) (r : GReg) (x : Word) : (s.setG r x).st.memberOf = s.st.memberOf := by unfold State.setG; split <;> rfl
@[simp] theorem State.setG_st_waitDone (s : State) (r : GReg) (x : Word) : (s.setG r x).st.waitDone = s.st.waitDone := by unfold State.setG; split <;> rfl
@[simp] theorem State.setG_st_coll (s : State) (r : GReg) (x : Word) : (s.setG r x).st.coll = s.st.coll := by unfold State.setG; split <;> rfl
@[simp] theorem State.setG_st_asked (s : State) (r : GReg) (x : Word) : (s.setG r x).st.asked = s.st.asked := by unfold State.setG; split <;> rfl
@[simp] theorem State.setG_st_collOff (s : State) (r : GReg) (x : Word) : (s.setG r x).st.collOff = s.st.collOff := by unfold State.setG; split <;> rfl
@[simp] theorem State.setG_st_askedOff (s : State) (r : GReg) (x : Word) : (s.setG r x).st.askedOff = s.st.askedOff := by unfold State.setG; split <;> rfl
@[simp] theorem State.setG_st_joinRefused (s : State) (r : GReg) (x : Word) : (s.setG r x).st.joinRefused = s.st.joinRefused := by unfold State.setG; split <;> rfl
@[simp] theorem State.setG_st_refusedOff (s : State) (r : GReg) (x : Word) : (s.setG r x).st.refusedOff = s.st.refusedOff := by unfold State.setG; split <;> rfl
@[simp] theorem State.setG_st_entered (s : State) (r : GReg) (x : Word) : (s.setG r x).st.entered = s.st.entered := by unfold State.setG; split <;> rfl
@[simp] theorem State.setG_st_tags (s : State) (r : GReg) (x : Word) : (s.setG r x).st.tags = s.st.tags := by unfold State.setG; split <;> rfl
@[simp] theorem State.setG_st_sched (s : State) (r : GReg) (x : Word) : (s.setG r x).st.sched = s.st.sched := by unfold State.setG; split <;> rfl

/-! #### `setF` -/

@[simp] theorem State.setF_phase (s : State) (r : FReg) (x : Elem) : (s.setF r x).phase = s.phase := rfl
@[simp] theorem State.setF_fwst (s : State) (r : FReg) (x : Elem) : (s.setF r x).fwst = s.fwst := rfl
@[simp] theorem State.setF_cur (s : State) (r : FReg) (x : Elem) : (s.setF r x).cur = s.cur := rfl
@[simp] theorem State.setF_others (s : State) (r : FReg) (x : Elem) : (s.setF r x).others = s.others := rfl
@[simp] theorem State.setF_ir (s : State) (r : FReg) (x : Elem) : (s.setF r x).ir = s.ir := rfl
@[simp] theorem State.setF_turns (s : State) (r : FReg) (x : Elem) : (s.setF r x).turns = s.turns := rfl
@[simp] theorem State.setF_stepNo (s : State) (r : FReg) (x : Elem) : (s.setF r x).stepNo = s.stepNo := rfl
@[simp] theorem State.setF_freeNo (s : State) (r : FReg) (x : Elem) : (s.setF r x).freeNo = s.freeNo := rfl
@[simp] theorem State.setF_mem (s : State) (r : FReg) (x : Elem) : (s.setF r x).mem = s.mem := rfl
@[simp] theorem State.setF_badLines (s : State) (r : FReg) (x : Elem) : (s.setF r x).badLines = s.badLines := rfl
@[simp] theorem State.setF_badBytes (s : State) (r : FReg) (x : Elem) : (s.setF r x).badBytes = s.badBytes := rfl
@[simp] theorem State.setF_onchip (s : State) (r : FReg) (x : Elem) : (s.setF r x).onchip = s.onchip := rfl
@[simp] theorem State.setF_shadow (s : State) (r : FReg) (x : Elem) : (s.setF r x).shadow = s.shadow := rfl
@[simp] theorem State.setF_hostMem (s : State) (r : FReg) (x : Elem) : (s.setF r x).hostMem = s.hostMem := rfl
@[simp] theorem State.setF_hostBad (s : State) (r : FReg) (x : Elem) : (s.setF r x).hostBad = s.hostBad := rfl
@[simp] theorem State.setF_hostRO (s : State) (r : FReg) (x : Elem) : (s.setF r x).hostRO = s.hostRO := rfl
@[simp] theorem State.setF_hostAnswer (s : State) (r : FReg) (x : Elem) : (s.setF r x).hostAnswer = s.hostAnswer := rfl
@[simp] theorem State.setF_cores (s : State) (r : FReg) (x : Elem) : (s.setF r x).cores = s.cores := rfl
@[simp] theorem State.setF_sects (s : State) (r : FReg) (x : Elem) : (s.setF r x).sects = s.sects := rfl
@[simp] theorem State.setF_dies (s : State) (r : FReg) (x : Elem) : (s.setF r x).dies = s.dies := rfl
@[simp] theorem State.setF_power (s : State) (r : FReg) (x : Elem) : (s.setF r x).power = s.power := rfl
@[simp] theorem State.setF_linkErrors (s : State) (r : FReg) (x : Elem) : (s.setF r x).linkErrors = s.linkErrors := rfl
@[simp] theorem State.setF_heldWrites (s : State) (r : FReg) (x : Elem) : (s.setF r x).heldWrites = s.heldWrites := rfl
@[simp] theorem State.setF_diecfg (s : State) (r : FReg) (x : Elem) : (s.setF r x).diecfg = s.diecfg := rfl
@[simp] theorem State.setF_share (s : State) (r : FReg) (x : Elem) : (s.setF r x).share = s.share := rfl
@[simp] theorem State.setF_shareSet (s : State) (r : FReg) (x : Elem) : (s.setF r x).shareSet = s.shareSet := rfl
@[simp] theorem State.setF_handle (s : State) (r : FReg) (x : Elem) : (s.setF r x).handle = s.handle := rfl
@[simp] theorem State.setF_duty (s : State) (r : FReg) (x : Elem) : (s.setF r x).duty = s.duty := rfl
@[simp] theorem State.setF_act (s : State) (r : FReg) (x : Elem) : (s.setF r x).act = s.act := rfl
@[simp] theorem State.setF_parts (s : State) (r : FReg) (x : Elem) : (s.setF r x).parts = s.parts := rfl
@[simp] theorem State.setF_regions (s : State) (r : FReg) (x : Elem) : (s.setF r x).regions = s.regions := rfl
@[simp] theorem State.setF_outTable (s : State) (r : FReg) (x : Elem) : (s.setF r x).outTable = s.outTable := rfl
@[simp] theorem State.setF_inTable (s : State) (r : FReg) (x : Elem) : (s.setF r x).inTable = s.inTable := rfl
@[simp] theorem State.setF_saveArea (s : State) (r : FReg) (x : Elem) : (s.setF r x).saveArea = s.saveArea := rfl
@[simp] theorem State.setF_fns (s : State) (r : FReg) (x : Elem) : (s.setF r x).fns = s.fns := rfl
@[simp] theorem State.setF_lids (s : State) (r : FReg) (x : Elem) : (s.setF r x).lids = s.lids := rfl
@[simp] theorem State.setF_launches (s : State) (r : FReg) (x : Elem) : (s.setF r x).launches = s.launches := rfl
@[simp] theorem State.setF_rings (s : State) (r : FReg) (x : Elem) : (s.setF r x).rings = s.rings := rfl
@[simp] theorem State.setF_meshes (s : State) (r : FReg) (x : Elem) : (s.setF r x).meshes = s.meshes := rfl
@[simp] theorem State.setF_groups (s : State) (r : FReg) (x : Elem) : (s.setF r x).groups = s.groups := rfl
@[simp] theorem State.setF_contribs (s : State) (r : FReg) (x : Elem) : (s.setF r x).contribs = s.contribs := rfl
@[simp] theorem State.setF_committed (s : State) (r : FReg) (x : Elem) : (s.setF r x).committed = s.committed := rfl
@[simp] theorem State.setF_remap (s : State) (r : FReg) (x : Elem) : (s.setF r x).remap = s.remap := rfl
@[simp] theorem State.setF_remapOps (s : State) (r : FReg) (x : Elem) : (s.setF r x).remapOps = s.remapOps := rfl
@[simp] theorem State.setF_nextTag (s : State) (r : FReg) (x : Elem) : (s.setF r x).nextTag = s.nextTag := rfl
@[simp] theorem State.setF_fabricOut (s : State) (r : FReg) (x : Elem) : (s.setF r x).fabricOut = s.fabricOut := rfl
@[simp] theorem State.setF_binderRemote (s : State) (r : FReg) (x : Elem) : (s.setF r x).binderRemote = s.binderRemote := rfl
@[simp] theorem State.setF_hostPosts (s : State) (r : FReg) (x : Elem) : (s.setF r x).hostPosts = s.hostPosts := rfl
@[simp] theorem State.setF_hostLeaves (s : State) (r : FReg) (x : Elem) : (s.setF r x).hostLeaves = s.hostLeaves := rfl
@[simp] theorem State.setF_rrs (s : State) (r : FReg) (x : Elem) : (s.setF r x).rrs = s.rrs := rfl
@[simp] theorem State.setF_meas (s : State) (r : FReg) (x : Elem) : (s.setF r x).meas = s.meas := rfl
@[simp] theorem State.setF_staging (s : State) (r : FReg) (x : Elem) : (s.setF r x).staging = s.staging := rfl
@[simp] theorem State.setF_fwLen (s : State) (r : FReg) (x : Elem) : (s.setF r x).fwLen = s.fwLen := rfl
@[simp] theorem State.setF_suspended (s : State) (r : FReg) (x : Elem) : (s.setF r x).suspended = s.suspended := rfl
@[simp] theorem State.setF_staged (s : State) (r : FReg) (x : Elem) : (s.setF r x).staged = s.staged := rfl
@[simp] theorem State.setF_st_sn (s : State) (r : FReg) (x : Elem) : (s.setF r x).st.sn = s.st.sn := rfl
@[simp] theorem State.setF_st_partn (s : State) (r : FReg) (x : Elem) : (s.setF r x).st.partn = s.st.partn := rfl
@[simp] theorem State.setF_st_region (s : State) (r : FReg) (x : Elem) : (s.setF r x).st.region = s.st.region := rfl
@[simp] theorem State.setF_st_pc (s : State) (r : FReg) (x : Elem) : (s.setF r x).st.pc = s.st.pc := rfl
@[simp] theorem State.setF_st_ctl (s : State) (r : FReg) (x : Elem) : (s.setF r x).st.ctl = s.st.ctl := rfl
@[simp] theorem State.setF_st_mode (s : State) (r : FReg) (x : Elem) : (s.setF r x).st.mode = s.st.mode := rfl
@[simp] theorem State.setF_st_trap (s : State) (r : FReg) (x : Elem) : (s.setF r x).st.trap = s.st.trap := rfl
@[simp] theorem State.setF_st_k (s : State) (r : FReg) (x : Elem) : (s.setF r x).st.k = s.st.k := rfl
@[simp] theorem State.setF_st_q (s : State) (r : FReg) (x : Elem) : (s.setF r x).st.q = s.st.q := rfl
@[simp] theorem State.setF_st_vq (s : State) (r : FReg) (x : Elem) : (s.setF r x).st.vq = s.st.vq := rfl
@[simp] theorem State.setF_st_pend (s : State) (r : FReg) (x : Elem) : (s.setF r x).st.pend = s.st.pend := rfl
@[simp] theorem State.setF_st_issue (s : State) (r : FReg) (x : Elem) : (s.setF r x).st.issue = s.st.issue := rfl
@[simp] theorem State.setF_st_scalarNext (s : State) (r : FReg) (x : Elem) : (s.setF r x).st.scalarNext = s.st.scalarNext := rfl
@[simp] theorem State.setF_st_queueOnly (s : State) (r : FReg) (x : Elem) : (s.setF r x).st.queueOnly = s.st.queueOnly := rfl
@[simp] theorem State.setF_st_early (s : State) (r : FReg) (x : Elem) : (s.setF r x).st.early = s.st.early := rfl
@[simp] theorem State.setF_st_restartPc (s : State) (r : FReg) (x : Elem) : (s.setF r x).st.restartPc = s.st.restartPc := rfl
@[simp] theorem State.setF_st_rearm (s : State) (r : FReg) (x : Elem) : (s.setF r x).st.rearm = s.st.rearm := rfl
@[simp] theorem State.setF_st_resumePc (s : State) (r : FReg) (x : Elem) : (s.setF r x).st.resumePc = s.st.resumePc := rfl
@[simp] theorem State.setF_st_hold (s : State) (r : FReg) (x : Elem) : (s.setF r x).st.hold = s.st.hold := rfl
@[simp] theorem State.setF_st_preemptNote (s : State) (r : FReg) (x : Elem) : (s.setF r x).st.preemptNote = s.st.preemptNote := rfl
@[simp] theorem State.setF_st_wait (s : State) (r : FReg) (x : Elem) : (s.setF r x).st.wait = s.st.wait := rfl
@[simp] theorem State.setF_st_qwait (s : State) (r : FReg) (x : Elem) : (s.setF r x).st.qwait = s.st.qwait := rfl
@[simp] theorem State.setF_st_ring (s : State) (r : FReg) (x : Elem) : (s.setF r x).st.ring = s.st.ring := rfl
@[simp] theorem State.setF_st_seqv (s : State) (r : FReg) (x : Elem) : (s.setF r x).st.seqv = s.st.seqv := rfl
@[simp] theorem State.setF_st_rpl (s : State) (r : FReg) (x : Elem) : (s.setF r x).st.rpl = s.st.rpl := rfl
@[simp] theorem State.setF_st_claims (s : State) (r : FReg) (x : Elem) : (s.setF r x).st.claims = s.st.claims := rfl
@[simp] theorem State.setF_st_wake (s : State) (r : FReg) (x : Elem) : (s.setF r x).st.wake = s.st.wake := rfl
@[simp] theorem State.setF_st_fifo (s : State) (r : FReg) (x : Elem) : (s.setF r x).st.fifo = s.st.fifo := rfl
@[simp] theorem State.setF_st_remote (s : State) (r : FReg) (x : Elem) : (s.setF r x).st.remote = s.st.remote := rfl
@[simp] theorem State.setF_st_begun (s : State) (r : FReg) (x : Elem) : (s.setF r x).st.begun = s.st.begun := rfl
@[simp] theorem State.setF_st_trains (s : State) (r : FReg) (x : Elem) : (s.setF r x).st.trains = s.st.trains := rfl
@[simp] theorem State.setF_st_engFlags (s : State) (r : FReg) (x : Elem) : (s.setF r x).st.engFlags = s.st.engFlags := rfl
@[simp] theorem State.setF_st_lines (s : State) (r : FReg) (x : Elem) : (s.setF r x).st.lines = s.st.lines := rfl
@[simp] theorem State.setF_st_counted (s : State) (r : FReg) (x : Elem) : (s.setF r x).st.counted = s.st.counted := rfl
@[simp] theorem State.setF_st_scalarLines (s : State) (r : FReg) (x : Elem) : (s.setF r x).st.scalarLines = s.st.scalarLines := rfl
@[simp] theorem State.setF_st_viewTail (s : State) (r : FReg) (x : Elem) : (s.setF r x).st.viewTail = s.st.viewTail := rfl
@[simp] theorem State.setF_st_tailRead (s : State) (r : FReg) (x : Elem) : (s.setF r x).st.tailRead = s.st.tailRead := rfl
@[simp] theorem State.setF_st_arrivals (s : State) (r : FReg) (x : Elem) : (s.setF r x).st.arrivals = s.st.arrivals := rfl
@[simp] theorem State.setF_st_memberOf (s : State) (r : FReg) (x : Elem) : (s.setF r x).st.memberOf = s.st.memberOf := rfl
@[simp] theorem State.setF_st_waitDone (s : State) (r : FReg) (x : Elem) : (s.setF r x).st.waitDone = s.st.waitDone := rfl
@[simp] theorem State.setF_st_coll (s : State) (r : FReg) (x : Elem) : (s.setF r x).st.coll = s.st.coll := rfl
@[simp] theorem State.setF_st_asked (s : State) (r : FReg) (x : Elem) : (s.setF r x).st.asked = s.st.asked := rfl
@[simp] theorem State.setF_st_collOff (s : State) (r : FReg) (x : Elem) : (s.setF r x).st.collOff = s.st.collOff := rfl
@[simp] theorem State.setF_st_askedOff (s : State) (r : FReg) (x : Elem) : (s.setF r x).st.askedOff = s.st.askedOff := rfl
@[simp] theorem State.setF_st_joinRefused (s : State) (r : FReg) (x : Elem) : (s.setF r x).st.joinRefused = s.st.joinRefused := rfl
@[simp] theorem State.setF_st_refusedOff (s : State) (r : FReg) (x : Elem) : (s.setF r x).st.refusedOff = s.st.refusedOff := rfl
@[simp] theorem State.setF_st_entered (s : State) (r : FReg) (x : Elem) : (s.setF r x).st.entered = s.st.entered := rfl
@[simp] theorem State.setF_st_tags (s : State) (r : FReg) (x : Elem) : (s.setF r x).st.tags = s.st.tags := rfl
@[simp] theorem State.setF_st_sched (s : State) (r : FReg) (x : Elem) : (s.setF r x).st.sched = s.st.sched := rfl

/-! #### `setV` -/

@[simp] theorem State.setV_phase (s : State) (r : VReg) (e : Nat) (x : Elem) : (s.setV r e x).phase = s.phase := by unfold State.setV; split <;> rfl
@[simp] theorem State.setV_fwst (s : State) (r : VReg) (e : Nat) (x : Elem) : (s.setV r e x).fwst = s.fwst := by unfold State.setV; split <;> rfl
@[simp] theorem State.setV_cur (s : State) (r : VReg) (e : Nat) (x : Elem) : (s.setV r e x).cur = s.cur := by unfold State.setV; split <;> rfl
@[simp] theorem State.setV_others (s : State) (r : VReg) (e : Nat) (x : Elem) : (s.setV r e x).others = s.others := by unfold State.setV; split <;> rfl
@[simp] theorem State.setV_ir (s : State) (r : VReg) (e : Nat) (x : Elem) : (s.setV r e x).ir = s.ir := by unfold State.setV; split <;> rfl
@[simp] theorem State.setV_turns (s : State) (r : VReg) (e : Nat) (x : Elem) : (s.setV r e x).turns = s.turns := by unfold State.setV; split <;> rfl
@[simp] theorem State.setV_stepNo (s : State) (r : VReg) (e : Nat) (x : Elem) : (s.setV r e x).stepNo = s.stepNo := by unfold State.setV; split <;> rfl
@[simp] theorem State.setV_freeNo (s : State) (r : VReg) (e : Nat) (x : Elem) : (s.setV r e x).freeNo = s.freeNo := by unfold State.setV; split <;> rfl
@[simp] theorem State.setV_mem (s : State) (r : VReg) (e : Nat) (x : Elem) : (s.setV r e x).mem = s.mem := by unfold State.setV; split <;> rfl
@[simp] theorem State.setV_badLines (s : State) (r : VReg) (e : Nat) (x : Elem) : (s.setV r e x).badLines = s.badLines := by unfold State.setV; split <;> rfl
@[simp] theorem State.setV_badBytes (s : State) (r : VReg) (e : Nat) (x : Elem) : (s.setV r e x).badBytes = s.badBytes := by unfold State.setV; split <;> rfl
@[simp] theorem State.setV_onchip (s : State) (r : VReg) (e : Nat) (x : Elem) : (s.setV r e x).onchip = s.onchip := by unfold State.setV; split <;> rfl
@[simp] theorem State.setV_shadow (s : State) (r : VReg) (e : Nat) (x : Elem) : (s.setV r e x).shadow = s.shadow := by unfold State.setV; split <;> rfl
@[simp] theorem State.setV_hostMem (s : State) (r : VReg) (e : Nat) (x : Elem) : (s.setV r e x).hostMem = s.hostMem := by unfold State.setV; split <;> rfl
@[simp] theorem State.setV_hostBad (s : State) (r : VReg) (e : Nat) (x : Elem) : (s.setV r e x).hostBad = s.hostBad := by unfold State.setV; split <;> rfl
@[simp] theorem State.setV_hostRO (s : State) (r : VReg) (e : Nat) (x : Elem) : (s.setV r e x).hostRO = s.hostRO := by unfold State.setV; split <;> rfl
@[simp] theorem State.setV_hostAnswer (s : State) (r : VReg) (e : Nat) (x : Elem) : (s.setV r e x).hostAnswer = s.hostAnswer := by unfold State.setV; split <;> rfl
@[simp] theorem State.setV_cores (s : State) (r : VReg) (e : Nat) (x : Elem) : (s.setV r e x).cores = s.cores := by unfold State.setV; split <;> rfl
@[simp] theorem State.setV_sects (s : State) (r : VReg) (e : Nat) (x : Elem) : (s.setV r e x).sects = s.sects := by unfold State.setV; split <;> rfl
@[simp] theorem State.setV_dies (s : State) (r : VReg) (e : Nat) (x : Elem) : (s.setV r e x).dies = s.dies := by unfold State.setV; split <;> rfl
@[simp] theorem State.setV_power (s : State) (r : VReg) (e : Nat) (x : Elem) : (s.setV r e x).power = s.power := by unfold State.setV; split <;> rfl
@[simp] theorem State.setV_linkErrors (s : State) (r : VReg) (e : Nat) (x : Elem) : (s.setV r e x).linkErrors = s.linkErrors := by unfold State.setV; split <;> rfl
@[simp] theorem State.setV_heldWrites (s : State) (r : VReg) (e : Nat) (x : Elem) : (s.setV r e x).heldWrites = s.heldWrites := by unfold State.setV; split <;> rfl
@[simp] theorem State.setV_diecfg (s : State) (r : VReg) (e : Nat) (x : Elem) : (s.setV r e x).diecfg = s.diecfg := by unfold State.setV; split <;> rfl
@[simp] theorem State.setV_share (s : State) (r : VReg) (e : Nat) (x : Elem) : (s.setV r e x).share = s.share := by unfold State.setV; split <;> rfl
@[simp] theorem State.setV_shareSet (s : State) (r : VReg) (e : Nat) (x : Elem) : (s.setV r e x).shareSet = s.shareSet := by unfold State.setV; split <;> rfl
@[simp] theorem State.setV_handle (s : State) (r : VReg) (e : Nat) (x : Elem) : (s.setV r e x).handle = s.handle := by unfold State.setV; split <;> rfl
@[simp] theorem State.setV_duty (s : State) (r : VReg) (e : Nat) (x : Elem) : (s.setV r e x).duty = s.duty := by unfold State.setV; split <;> rfl
@[simp] theorem State.setV_act (s : State) (r : VReg) (e : Nat) (x : Elem) : (s.setV r e x).act = s.act := by unfold State.setV; split <;> rfl
@[simp] theorem State.setV_parts (s : State) (r : VReg) (e : Nat) (x : Elem) : (s.setV r e x).parts = s.parts := by unfold State.setV; split <;> rfl
@[simp] theorem State.setV_regions (s : State) (r : VReg) (e : Nat) (x : Elem) : (s.setV r e x).regions = s.regions := by unfold State.setV; split <;> rfl
@[simp] theorem State.setV_outTable (s : State) (r : VReg) (e : Nat) (x : Elem) : (s.setV r e x).outTable = s.outTable := by unfold State.setV; split <;> rfl
@[simp] theorem State.setV_inTable (s : State) (r : VReg) (e : Nat) (x : Elem) : (s.setV r e x).inTable = s.inTable := by unfold State.setV; split <;> rfl
@[simp] theorem State.setV_saveArea (s : State) (r : VReg) (e : Nat) (x : Elem) : (s.setV r e x).saveArea = s.saveArea := by unfold State.setV; split <;> rfl
@[simp] theorem State.setV_fns (s : State) (r : VReg) (e : Nat) (x : Elem) : (s.setV r e x).fns = s.fns := by unfold State.setV; split <;> rfl
@[simp] theorem State.setV_lids (s : State) (r : VReg) (e : Nat) (x : Elem) : (s.setV r e x).lids = s.lids := by unfold State.setV; split <;> rfl
@[simp] theorem State.setV_launches (s : State) (r : VReg) (e : Nat) (x : Elem) : (s.setV r e x).launches = s.launches := by unfold State.setV; split <;> rfl
@[simp] theorem State.setV_rings (s : State) (r : VReg) (e : Nat) (x : Elem) : (s.setV r e x).rings = s.rings := by unfold State.setV; split <;> rfl
@[simp] theorem State.setV_meshes (s : State) (r : VReg) (e : Nat) (x : Elem) : (s.setV r e x).meshes = s.meshes := by unfold State.setV; split <;> rfl
@[simp] theorem State.setV_groups (s : State) (r : VReg) (e : Nat) (x : Elem) : (s.setV r e x).groups = s.groups := by unfold State.setV; split <;> rfl
@[simp] theorem State.setV_contribs (s : State) (r : VReg) (e : Nat) (x : Elem) : (s.setV r e x).contribs = s.contribs := by unfold State.setV; split <;> rfl
@[simp] theorem State.setV_committed (s : State) (r : VReg) (e : Nat) (x : Elem) : (s.setV r e x).committed = s.committed := by unfold State.setV; split <;> rfl
@[simp] theorem State.setV_remap (s : State) (r : VReg) (e : Nat) (x : Elem) : (s.setV r e x).remap = s.remap := by unfold State.setV; split <;> rfl
@[simp] theorem State.setV_remapOps (s : State) (r : VReg) (e : Nat) (x : Elem) : (s.setV r e x).remapOps = s.remapOps := by unfold State.setV; split <;> rfl
@[simp] theorem State.setV_nextTag (s : State) (r : VReg) (e : Nat) (x : Elem) : (s.setV r e x).nextTag = s.nextTag := by unfold State.setV; split <;> rfl
@[simp] theorem State.setV_fabricOut (s : State) (r : VReg) (e : Nat) (x : Elem) : (s.setV r e x).fabricOut = s.fabricOut := by unfold State.setV; split <;> rfl
@[simp] theorem State.setV_binderRemote (s : State) (r : VReg) (e : Nat) (x : Elem) : (s.setV r e x).binderRemote = s.binderRemote := by unfold State.setV; split <;> rfl
@[simp] theorem State.setV_hostPosts (s : State) (r : VReg) (e : Nat) (x : Elem) : (s.setV r e x).hostPosts = s.hostPosts := by unfold State.setV; split <;> rfl
@[simp] theorem State.setV_hostLeaves (s : State) (r : VReg) (e : Nat) (x : Elem) : (s.setV r e x).hostLeaves = s.hostLeaves := by unfold State.setV; split <;> rfl
@[simp] theorem State.setV_rrs (s : State) (r : VReg) (e : Nat) (x : Elem) : (s.setV r e x).rrs = s.rrs := by unfold State.setV; split <;> rfl
@[simp] theorem State.setV_meas (s : State) (r : VReg) (e : Nat) (x : Elem) : (s.setV r e x).meas = s.meas := by unfold State.setV; split <;> rfl
@[simp] theorem State.setV_staging (s : State) (r : VReg) (e : Nat) (x : Elem) : (s.setV r e x).staging = s.staging := by unfold State.setV; split <;> rfl
@[simp] theorem State.setV_fwLen (s : State) (r : VReg) (e : Nat) (x : Elem) : (s.setV r e x).fwLen = s.fwLen := by unfold State.setV; split <;> rfl
@[simp] theorem State.setV_suspended (s : State) (r : VReg) (e : Nat) (x : Elem) : (s.setV r e x).suspended = s.suspended := by unfold State.setV; split <;> rfl
@[simp] theorem State.setV_staged (s : State) (r : VReg) (e : Nat) (x : Elem) : (s.setV r e x).staged = s.staged := by unfold State.setV; split <;> rfl
@[simp] theorem State.setV_st_sn (s : State) (r : VReg) (e : Nat) (x : Elem) : (s.setV r e x).st.sn = s.st.sn := by unfold State.setV; split <;> rfl
@[simp] theorem State.setV_st_partn (s : State) (r : VReg) (e : Nat) (x : Elem) : (s.setV r e x).st.partn = s.st.partn := by unfold State.setV; split <;> rfl
@[simp] theorem State.setV_st_region (s : State) (r : VReg) (e : Nat) (x : Elem) : (s.setV r e x).st.region = s.st.region := by unfold State.setV; split <;> rfl
@[simp] theorem State.setV_st_pc (s : State) (r : VReg) (e : Nat) (x : Elem) : (s.setV r e x).st.pc = s.st.pc := by unfold State.setV; split <;> rfl
@[simp] theorem State.setV_st_ctl (s : State) (r : VReg) (e : Nat) (x : Elem) : (s.setV r e x).st.ctl = s.st.ctl := by unfold State.setV; split <;> rfl
@[simp] theorem State.setV_st_mode (s : State) (r : VReg) (e : Nat) (x : Elem) : (s.setV r e x).st.mode = s.st.mode := by unfold State.setV; split <;> rfl
@[simp] theorem State.setV_st_trap (s : State) (r : VReg) (e : Nat) (x : Elem) : (s.setV r e x).st.trap = s.st.trap := by unfold State.setV; split <;> rfl
@[simp] theorem State.setV_st_k (s : State) (r : VReg) (e : Nat) (x : Elem) : (s.setV r e x).st.k = s.st.k := by unfold State.setV; split <;> rfl
@[simp] theorem State.setV_st_q (s : State) (r : VReg) (e : Nat) (x : Elem) : (s.setV r e x).st.q = s.st.q := by unfold State.setV; split <;> rfl
@[simp] theorem State.setV_st_vq (s : State) (r : VReg) (e : Nat) (x : Elem) : (s.setV r e x).st.vq = s.st.vq := by unfold State.setV; split <;> rfl
@[simp] theorem State.setV_st_pend (s : State) (r : VReg) (e : Nat) (x : Elem) : (s.setV r e x).st.pend = s.st.pend := by unfold State.setV; split <;> rfl
@[simp] theorem State.setV_st_issue (s : State) (r : VReg) (e : Nat) (x : Elem) : (s.setV r e x).st.issue = s.st.issue := by unfold State.setV; split <;> rfl
@[simp] theorem State.setV_st_scalarNext (s : State) (r : VReg) (e : Nat) (x : Elem) : (s.setV r e x).st.scalarNext = s.st.scalarNext := by unfold State.setV; split <;> rfl
@[simp] theorem State.setV_st_queueOnly (s : State) (r : VReg) (e : Nat) (x : Elem) : (s.setV r e x).st.queueOnly = s.st.queueOnly := by unfold State.setV; split <;> rfl
@[simp] theorem State.setV_st_early (s : State) (r : VReg) (e : Nat) (x : Elem) : (s.setV r e x).st.early = s.st.early := by unfold State.setV; split <;> rfl
@[simp] theorem State.setV_st_restartPc (s : State) (r : VReg) (e : Nat) (x : Elem) : (s.setV r e x).st.restartPc = s.st.restartPc := by unfold State.setV; split <;> rfl
@[simp] theorem State.setV_st_rearm (s : State) (r : VReg) (e : Nat) (x : Elem) : (s.setV r e x).st.rearm = s.st.rearm := by unfold State.setV; split <;> rfl
@[simp] theorem State.setV_st_resumePc (s : State) (r : VReg) (e : Nat) (x : Elem) : (s.setV r e x).st.resumePc = s.st.resumePc := by unfold State.setV; split <;> rfl
@[simp] theorem State.setV_st_hold (s : State) (r : VReg) (e : Nat) (x : Elem) : (s.setV r e x).st.hold = s.st.hold := by unfold State.setV; split <;> rfl
@[simp] theorem State.setV_st_preemptNote (s : State) (r : VReg) (e : Nat) (x : Elem) : (s.setV r e x).st.preemptNote = s.st.preemptNote := by unfold State.setV; split <;> rfl
@[simp] theorem State.setV_st_wait (s : State) (r : VReg) (e : Nat) (x : Elem) : (s.setV r e x).st.wait = s.st.wait := by unfold State.setV; split <;> rfl
@[simp] theorem State.setV_st_qwait (s : State) (r : VReg) (e : Nat) (x : Elem) : (s.setV r e x).st.qwait = s.st.qwait := by unfold State.setV; split <;> rfl
@[simp] theorem State.setV_st_ring (s : State) (r : VReg) (e : Nat) (x : Elem) : (s.setV r e x).st.ring = s.st.ring := by unfold State.setV; split <;> rfl
@[simp] theorem State.setV_st_seqv (s : State) (r : VReg) (e : Nat) (x : Elem) : (s.setV r e x).st.seqv = s.st.seqv := by unfold State.setV; split <;> rfl
@[simp] theorem State.setV_st_rpl (s : State) (r : VReg) (e : Nat) (x : Elem) : (s.setV r e x).st.rpl = s.st.rpl := by unfold State.setV; split <;> rfl
@[simp] theorem State.setV_st_claims (s : State) (r : VReg) (e : Nat) (x : Elem) : (s.setV r e x).st.claims = s.st.claims := by unfold State.setV; split <;> rfl
@[simp] theorem State.setV_st_wake (s : State) (r : VReg) (e : Nat) (x : Elem) : (s.setV r e x).st.wake = s.st.wake := by unfold State.setV; split <;> rfl
@[simp] theorem State.setV_st_fifo (s : State) (r : VReg) (e : Nat) (x : Elem) : (s.setV r e x).st.fifo = s.st.fifo := by unfold State.setV; split <;> rfl
@[simp] theorem State.setV_st_remote (s : State) (r : VReg) (e : Nat) (x : Elem) : (s.setV r e x).st.remote = s.st.remote := by unfold State.setV; split <;> rfl
@[simp] theorem State.setV_st_begun (s : State) (r : VReg) (e : Nat) (x : Elem) : (s.setV r e x).st.begun = s.st.begun := by unfold State.setV; split <;> rfl
@[simp] theorem State.setV_st_trains (s : State) (r : VReg) (e : Nat) (x : Elem) : (s.setV r e x).st.trains = s.st.trains := by unfold State.setV; split <;> rfl
@[simp] theorem State.setV_st_engFlags (s : State) (r : VReg) (e : Nat) (x : Elem) : (s.setV r e x).st.engFlags = s.st.engFlags := by unfold State.setV; split <;> rfl
@[simp] theorem State.setV_st_lines (s : State) (r : VReg) (e : Nat) (x : Elem) : (s.setV r e x).st.lines = s.st.lines := by unfold State.setV; split <;> rfl
@[simp] theorem State.setV_st_counted (s : State) (r : VReg) (e : Nat) (x : Elem) : (s.setV r e x).st.counted = s.st.counted := by unfold State.setV; split <;> rfl
@[simp] theorem State.setV_st_scalarLines (s : State) (r : VReg) (e : Nat) (x : Elem) : (s.setV r e x).st.scalarLines = s.st.scalarLines := by unfold State.setV; split <;> rfl
@[simp] theorem State.setV_st_viewTail (s : State) (r : VReg) (e : Nat) (x : Elem) : (s.setV r e x).st.viewTail = s.st.viewTail := by unfold State.setV; split <;> rfl
@[simp] theorem State.setV_st_tailRead (s : State) (r : VReg) (e : Nat) (x : Elem) : (s.setV r e x).st.tailRead = s.st.tailRead := by unfold State.setV; split <;> rfl
@[simp] theorem State.setV_st_arrivals (s : State) (r : VReg) (e : Nat) (x : Elem) : (s.setV r e x).st.arrivals = s.st.arrivals := by unfold State.setV; split <;> rfl
@[simp] theorem State.setV_st_memberOf (s : State) (r : VReg) (e : Nat) (x : Elem) : (s.setV r e x).st.memberOf = s.st.memberOf := by unfold State.setV; split <;> rfl
@[simp] theorem State.setV_st_waitDone (s : State) (r : VReg) (e : Nat) (x : Elem) : (s.setV r e x).st.waitDone = s.st.waitDone := by unfold State.setV; split <;> rfl
@[simp] theorem State.setV_st_coll (s : State) (r : VReg) (e : Nat) (x : Elem) : (s.setV r e x).st.coll = s.st.coll := by unfold State.setV; split <;> rfl
@[simp] theorem State.setV_st_asked (s : State) (r : VReg) (e : Nat) (x : Elem) : (s.setV r e x).st.asked = s.st.asked := by unfold State.setV; split <;> rfl
@[simp] theorem State.setV_st_collOff (s : State) (r : VReg) (e : Nat) (x : Elem) : (s.setV r e x).st.collOff = s.st.collOff := by unfold State.setV; split <;> rfl
@[simp] theorem State.setV_st_askedOff (s : State) (r : VReg) (e : Nat) (x : Elem) : (s.setV r e x).st.askedOff = s.st.askedOff := by unfold State.setV; split <;> rfl
@[simp] theorem State.setV_st_joinRefused (s : State) (r : VReg) (e : Nat) (x : Elem) : (s.setV r e x).st.joinRefused = s.st.joinRefused := by unfold State.setV; split <;> rfl
@[simp] theorem State.setV_st_refusedOff (s : State) (r : VReg) (e : Nat) (x : Elem) : (s.setV r e x).st.refusedOff = s.st.refusedOff := by unfold State.setV; split <;> rfl
@[simp] theorem State.setV_st_entered (s : State) (r : VReg) (e : Nat) (x : Elem) : (s.setV r e x).st.entered = s.st.entered := by unfold State.setV; split <;> rfl
@[simp] theorem State.setV_st_sched (s : State) (r : VReg) (e : Nat) (x : Elem) : (s.setV r e x).st.sched = s.st.sched := by unfold State.setV; split <;> rfl

/-! #### `setMbit` -/

@[simp] theorem State.setMbit_phase (s : State) (r : MReg) (e : Nat) (b : Bool) : (s.setMbit r e b).phase = s.phase := rfl
@[simp] theorem State.setMbit_fwst (s : State) (r : MReg) (e : Nat) (b : Bool) : (s.setMbit r e b).fwst = s.fwst := rfl
@[simp] theorem State.setMbit_cur (s : State) (r : MReg) (e : Nat) (b : Bool) : (s.setMbit r e b).cur = s.cur := rfl
@[simp] theorem State.setMbit_others (s : State) (r : MReg) (e : Nat) (b : Bool) : (s.setMbit r e b).others = s.others := rfl
@[simp] theorem State.setMbit_ir (s : State) (r : MReg) (e : Nat) (b : Bool) : (s.setMbit r e b).ir = s.ir := rfl
@[simp] theorem State.setMbit_turns (s : State) (r : MReg) (e : Nat) (b : Bool) : (s.setMbit r e b).turns = s.turns := rfl
@[simp] theorem State.setMbit_stepNo (s : State) (r : MReg) (e : Nat) (b : Bool) : (s.setMbit r e b).stepNo = s.stepNo := rfl
@[simp] theorem State.setMbit_freeNo (s : State) (r : MReg) (e : Nat) (b : Bool) : (s.setMbit r e b).freeNo = s.freeNo := rfl
@[simp] theorem State.setMbit_mem (s : State) (r : MReg) (e : Nat) (b : Bool) : (s.setMbit r e b).mem = s.mem := rfl
@[simp] theorem State.setMbit_badLines (s : State) (r : MReg) (e : Nat) (b : Bool) : (s.setMbit r e b).badLines = s.badLines := rfl
@[simp] theorem State.setMbit_badBytes (s : State) (r : MReg) (e : Nat) (b : Bool) : (s.setMbit r e b).badBytes = s.badBytes := rfl
@[simp] theorem State.setMbit_onchip (s : State) (r : MReg) (e : Nat) (b : Bool) : (s.setMbit r e b).onchip = s.onchip := rfl
@[simp] theorem State.setMbit_shadow (s : State) (r : MReg) (e : Nat) (b : Bool) : (s.setMbit r e b).shadow = s.shadow := rfl
@[simp] theorem State.setMbit_hostMem (s : State) (r : MReg) (e : Nat) (b : Bool) : (s.setMbit r e b).hostMem = s.hostMem := rfl
@[simp] theorem State.setMbit_hostBad (s : State) (r : MReg) (e : Nat) (b : Bool) : (s.setMbit r e b).hostBad = s.hostBad := rfl
@[simp] theorem State.setMbit_hostRO (s : State) (r : MReg) (e : Nat) (b : Bool) : (s.setMbit r e b).hostRO = s.hostRO := rfl
@[simp] theorem State.setMbit_hostAnswer (s : State) (r : MReg) (e : Nat) (b : Bool) : (s.setMbit r e b).hostAnswer = s.hostAnswer := rfl
@[simp] theorem State.setMbit_cores (s : State) (r : MReg) (e : Nat) (b : Bool) : (s.setMbit r e b).cores = s.cores := rfl
@[simp] theorem State.setMbit_sects (s : State) (r : MReg) (e : Nat) (b : Bool) : (s.setMbit r e b).sects = s.sects := rfl
@[simp] theorem State.setMbit_dies (s : State) (r : MReg) (e : Nat) (b : Bool) : (s.setMbit r e b).dies = s.dies := rfl
@[simp] theorem State.setMbit_power (s : State) (r : MReg) (e : Nat) (b : Bool) : (s.setMbit r e b).power = s.power := rfl
@[simp] theorem State.setMbit_linkErrors (s : State) (r : MReg) (e : Nat) (b : Bool) : (s.setMbit r e b).linkErrors = s.linkErrors := rfl
@[simp] theorem State.setMbit_heldWrites (s : State) (r : MReg) (e : Nat) (b : Bool) : (s.setMbit r e b).heldWrites = s.heldWrites := rfl
@[simp] theorem State.setMbit_diecfg (s : State) (r : MReg) (e : Nat) (b : Bool) : (s.setMbit r e b).diecfg = s.diecfg := rfl
@[simp] theorem State.setMbit_share (s : State) (r : MReg) (e : Nat) (b : Bool) : (s.setMbit r e b).share = s.share := rfl
@[simp] theorem State.setMbit_shareSet (s : State) (r : MReg) (e : Nat) (b : Bool) : (s.setMbit r e b).shareSet = s.shareSet := rfl
@[simp] theorem State.setMbit_handle (s : State) (r : MReg) (e : Nat) (b : Bool) : (s.setMbit r e b).handle = s.handle := rfl
@[simp] theorem State.setMbit_duty (s : State) (r : MReg) (e : Nat) (b : Bool) : (s.setMbit r e b).duty = s.duty := rfl
@[simp] theorem State.setMbit_act (s : State) (r : MReg) (e : Nat) (b : Bool) : (s.setMbit r e b).act = s.act := rfl
@[simp] theorem State.setMbit_parts (s : State) (r : MReg) (e : Nat) (b : Bool) : (s.setMbit r e b).parts = s.parts := rfl
@[simp] theorem State.setMbit_regions (s : State) (r : MReg) (e : Nat) (b : Bool) : (s.setMbit r e b).regions = s.regions := rfl
@[simp] theorem State.setMbit_outTable (s : State) (r : MReg) (e : Nat) (b : Bool) : (s.setMbit r e b).outTable = s.outTable := rfl
@[simp] theorem State.setMbit_inTable (s : State) (r : MReg) (e : Nat) (b : Bool) : (s.setMbit r e b).inTable = s.inTable := rfl
@[simp] theorem State.setMbit_saveArea (s : State) (r : MReg) (e : Nat) (b : Bool) : (s.setMbit r e b).saveArea = s.saveArea := rfl
@[simp] theorem State.setMbit_fns (s : State) (r : MReg) (e : Nat) (b : Bool) : (s.setMbit r e b).fns = s.fns := rfl
@[simp] theorem State.setMbit_lids (s : State) (r : MReg) (e : Nat) (b : Bool) : (s.setMbit r e b).lids = s.lids := rfl
@[simp] theorem State.setMbit_launches (s : State) (r : MReg) (e : Nat) (b : Bool) : (s.setMbit r e b).launches = s.launches := rfl
@[simp] theorem State.setMbit_rings (s : State) (r : MReg) (e : Nat) (b : Bool) : (s.setMbit r e b).rings = s.rings := rfl
@[simp] theorem State.setMbit_meshes (s : State) (r : MReg) (e : Nat) (b : Bool) : (s.setMbit r e b).meshes = s.meshes := rfl
@[simp] theorem State.setMbit_groups (s : State) (r : MReg) (e : Nat) (b : Bool) : (s.setMbit r e b).groups = s.groups := rfl
@[simp] theorem State.setMbit_contribs (s : State) (r : MReg) (e : Nat) (b : Bool) : (s.setMbit r e b).contribs = s.contribs := rfl
@[simp] theorem State.setMbit_committed (s : State) (r : MReg) (e : Nat) (b : Bool) : (s.setMbit r e b).committed = s.committed := rfl
@[simp] theorem State.setMbit_remap (s : State) (r : MReg) (e : Nat) (b : Bool) : (s.setMbit r e b).remap = s.remap := rfl
@[simp] theorem State.setMbit_remapOps (s : State) (r : MReg) (e : Nat) (b : Bool) : (s.setMbit r e b).remapOps = s.remapOps := rfl
@[simp] theorem State.setMbit_nextTag (s : State) (r : MReg) (e : Nat) (b : Bool) : (s.setMbit r e b).nextTag = s.nextTag := rfl
@[simp] theorem State.setMbit_fabricOut (s : State) (r : MReg) (e : Nat) (b : Bool) : (s.setMbit r e b).fabricOut = s.fabricOut := rfl
@[simp] theorem State.setMbit_binderRemote (s : State) (r : MReg) (e : Nat) (b : Bool) : (s.setMbit r e b).binderRemote = s.binderRemote := rfl
@[simp] theorem State.setMbit_hostPosts (s : State) (r : MReg) (e : Nat) (b : Bool) : (s.setMbit r e b).hostPosts = s.hostPosts := rfl
@[simp] theorem State.setMbit_hostLeaves (s : State) (r : MReg) (e : Nat) (b : Bool) : (s.setMbit r e b).hostLeaves = s.hostLeaves := rfl
@[simp] theorem State.setMbit_rrs (s : State) (r : MReg) (e : Nat) (b : Bool) : (s.setMbit r e b).rrs = s.rrs := rfl
@[simp] theorem State.setMbit_meas (s : State) (r : MReg) (e : Nat) (b : Bool) : (s.setMbit r e b).meas = s.meas := rfl
@[simp] theorem State.setMbit_staging (s : State) (r : MReg) (e : Nat) (b : Bool) : (s.setMbit r e b).staging = s.staging := rfl
@[simp] theorem State.setMbit_fwLen (s : State) (r : MReg) (e : Nat) (b : Bool) : (s.setMbit r e b).fwLen = s.fwLen := rfl
@[simp] theorem State.setMbit_suspended (s : State) (r : MReg) (e : Nat) (b : Bool) : (s.setMbit r e b).suspended = s.suspended := rfl
@[simp] theorem State.setMbit_staged (s : State) (r : MReg) (e : Nat) (b : Bool) : (s.setMbit r e b).staged = s.staged := rfl
@[simp] theorem State.setMbit_st_sn (s : State) (r : MReg) (e : Nat) (b : Bool) : (s.setMbit r e b).st.sn = s.st.sn := rfl
@[simp] theorem State.setMbit_st_partn (s : State) (r : MReg) (e : Nat) (b : Bool) : (s.setMbit r e b).st.partn = s.st.partn := rfl
@[simp] theorem State.setMbit_st_region (s : State) (r : MReg) (e : Nat) (b : Bool) : (s.setMbit r e b).st.region = s.st.region := rfl
@[simp] theorem State.setMbit_st_pc (s : State) (r : MReg) (e : Nat) (b : Bool) : (s.setMbit r e b).st.pc = s.st.pc := rfl
@[simp] theorem State.setMbit_st_ctl (s : State) (r : MReg) (e : Nat) (b : Bool) : (s.setMbit r e b).st.ctl = s.st.ctl := rfl
@[simp] theorem State.setMbit_st_mode (s : State) (r : MReg) (e : Nat) (b : Bool) : (s.setMbit r e b).st.mode = s.st.mode := rfl
@[simp] theorem State.setMbit_st_trap (s : State) (r : MReg) (e : Nat) (b : Bool) : (s.setMbit r e b).st.trap = s.st.trap := rfl
@[simp] theorem State.setMbit_st_k (s : State) (r : MReg) (e : Nat) (b : Bool) : (s.setMbit r e b).st.k = s.st.k := rfl
@[simp] theorem State.setMbit_st_q (s : State) (r : MReg) (e : Nat) (b : Bool) : (s.setMbit r e b).st.q = s.st.q := rfl
@[simp] theorem State.setMbit_st_vq (s : State) (r : MReg) (e : Nat) (b : Bool) : (s.setMbit r e b).st.vq = s.st.vq := rfl
@[simp] theorem State.setMbit_st_pend (s : State) (r : MReg) (e : Nat) (b : Bool) : (s.setMbit r e b).st.pend = s.st.pend := rfl
@[simp] theorem State.setMbit_st_issue (s : State) (r : MReg) (e : Nat) (b : Bool) : (s.setMbit r e b).st.issue = s.st.issue := rfl
@[simp] theorem State.setMbit_st_scalarNext (s : State) (r : MReg) (e : Nat) (b : Bool) : (s.setMbit r e b).st.scalarNext = s.st.scalarNext := rfl
@[simp] theorem State.setMbit_st_queueOnly (s : State) (r : MReg) (e : Nat) (b : Bool) : (s.setMbit r e b).st.queueOnly = s.st.queueOnly := rfl
@[simp] theorem State.setMbit_st_early (s : State) (r : MReg) (e : Nat) (b : Bool) : (s.setMbit r e b).st.early = s.st.early := rfl
@[simp] theorem State.setMbit_st_restartPc (s : State) (r : MReg) (e : Nat) (b : Bool) : (s.setMbit r e b).st.restartPc = s.st.restartPc := rfl
@[simp] theorem State.setMbit_st_rearm (s : State) (r : MReg) (e : Nat) (b : Bool) : (s.setMbit r e b).st.rearm = s.st.rearm := rfl
@[simp] theorem State.setMbit_st_resumePc (s : State) (r : MReg) (e : Nat) (b : Bool) : (s.setMbit r e b).st.resumePc = s.st.resumePc := rfl
@[simp] theorem State.setMbit_st_hold (s : State) (r : MReg) (e : Nat) (b : Bool) : (s.setMbit r e b).st.hold = s.st.hold := rfl
@[simp] theorem State.setMbit_st_preemptNote (s : State) (r : MReg) (e : Nat) (b : Bool) : (s.setMbit r e b).st.preemptNote = s.st.preemptNote := rfl
@[simp] theorem State.setMbit_st_wait (s : State) (r : MReg) (e : Nat) (b : Bool) : (s.setMbit r e b).st.wait = s.st.wait := rfl
@[simp] theorem State.setMbit_st_qwait (s : State) (r : MReg) (e : Nat) (b : Bool) : (s.setMbit r e b).st.qwait = s.st.qwait := rfl
@[simp] theorem State.setMbit_st_ring (s : State) (r : MReg) (e : Nat) (b : Bool) : (s.setMbit r e b).st.ring = s.st.ring := rfl
@[simp] theorem State.setMbit_st_seqv (s : State) (r : MReg) (e : Nat) (b : Bool) : (s.setMbit r e b).st.seqv = s.st.seqv := rfl
@[simp] theorem State.setMbit_st_rpl (s : State) (r : MReg) (e : Nat) (b : Bool) : (s.setMbit r e b).st.rpl = s.st.rpl := rfl
@[simp] theorem State.setMbit_st_claims (s : State) (r : MReg) (e : Nat) (b : Bool) : (s.setMbit r e b).st.claims = s.st.claims := rfl
@[simp] theorem State.setMbit_st_wake (s : State) (r : MReg) (e : Nat) (b : Bool) : (s.setMbit r e b).st.wake = s.st.wake := rfl
@[simp] theorem State.setMbit_st_fifo (s : State) (r : MReg) (e : Nat) (b : Bool) : (s.setMbit r e b).st.fifo = s.st.fifo := rfl
@[simp] theorem State.setMbit_st_remote (s : State) (r : MReg) (e : Nat) (b : Bool) : (s.setMbit r e b).st.remote = s.st.remote := rfl
@[simp] theorem State.setMbit_st_begun (s : State) (r : MReg) (e : Nat) (b : Bool) : (s.setMbit r e b).st.begun = s.st.begun := rfl
@[simp] theorem State.setMbit_st_trains (s : State) (r : MReg) (e : Nat) (b : Bool) : (s.setMbit r e b).st.trains = s.st.trains := rfl
@[simp] theorem State.setMbit_st_engFlags (s : State) (r : MReg) (e : Nat) (b : Bool) : (s.setMbit r e b).st.engFlags = s.st.engFlags := rfl
@[simp] theorem State.setMbit_st_lines (s : State) (r : MReg) (e : Nat) (b : Bool) : (s.setMbit r e b).st.lines = s.st.lines := rfl
@[simp] theorem State.setMbit_st_counted (s : State) (r : MReg) (e : Nat) (b : Bool) : (s.setMbit r e b).st.counted = s.st.counted := rfl
@[simp] theorem State.setMbit_st_scalarLines (s : State) (r : MReg) (e : Nat) (b : Bool) : (s.setMbit r e b).st.scalarLines = s.st.scalarLines := rfl
@[simp] theorem State.setMbit_st_viewTail (s : State) (r : MReg) (e : Nat) (b : Bool) : (s.setMbit r e b).st.viewTail = s.st.viewTail := rfl
@[simp] theorem State.setMbit_st_tailRead (s : State) (r : MReg) (e : Nat) (b : Bool) : (s.setMbit r e b).st.tailRead = s.st.tailRead := rfl
@[simp] theorem State.setMbit_st_arrivals (s : State) (r : MReg) (e : Nat) (b : Bool) : (s.setMbit r e b).st.arrivals = s.st.arrivals := rfl
@[simp] theorem State.setMbit_st_memberOf (s : State) (r : MReg) (e : Nat) (b : Bool) : (s.setMbit r e b).st.memberOf = s.st.memberOf := rfl
@[simp] theorem State.setMbit_st_waitDone (s : State) (r : MReg) (e : Nat) (b : Bool) : (s.setMbit r e b).st.waitDone = s.st.waitDone := rfl
@[simp] theorem State.setMbit_st_coll (s : State) (r : MReg) (e : Nat) (b : Bool) : (s.setMbit r e b).st.coll = s.st.coll := rfl
@[simp] theorem State.setMbit_st_asked (s : State) (r : MReg) (e : Nat) (b : Bool) : (s.setMbit r e b).st.asked = s.st.asked := rfl
@[simp] theorem State.setMbit_st_collOff (s : State) (r : MReg) (e : Nat) (b : Bool) : (s.setMbit r e b).st.collOff = s.st.collOff := rfl
@[simp] theorem State.setMbit_st_askedOff (s : State) (r : MReg) (e : Nat) (b : Bool) : (s.setMbit r e b).st.askedOff = s.st.askedOff := rfl
@[simp] theorem State.setMbit_st_joinRefused (s : State) (r : MReg) (e : Nat) (b : Bool) : (s.setMbit r e b).st.joinRefused = s.st.joinRefused := rfl
@[simp] theorem State.setMbit_st_refusedOff (s : State) (r : MReg) (e : Nat) (b : Bool) : (s.setMbit r e b).st.refusedOff = s.st.refusedOff := rfl
@[simp] theorem State.setMbit_st_entered (s : State) (r : MReg) (e : Nat) (b : Bool) : (s.setMbit r e b).st.entered = s.st.entered := rfl
@[simp] theorem State.setMbit_st_tags (s : State) (r : MReg) (e : Nat) (b : Bool) : (s.setMbit r e b).st.tags = s.st.tags := rfl
@[simp] theorem State.setMbit_st_sched (s : State) (r : MReg) (e : Nat) (b : Bool) : (s.setMbit r e b).st.sched = s.st.sched := rfl

/-! #### `setM` -/

@[simp] theorem State.setM_phase (s : State) (r : MReg) (x : BitVec 128) : (s.setM r x).phase = s.phase := rfl
@[simp] theorem State.setM_fwst (s : State) (r : MReg) (x : BitVec 128) : (s.setM r x).fwst = s.fwst := rfl
@[simp] theorem State.setM_cur (s : State) (r : MReg) (x : BitVec 128) : (s.setM r x).cur = s.cur := rfl
@[simp] theorem State.setM_others (s : State) (r : MReg) (x : BitVec 128) : (s.setM r x).others = s.others := rfl
@[simp] theorem State.setM_ir (s : State) (r : MReg) (x : BitVec 128) : (s.setM r x).ir = s.ir := rfl
@[simp] theorem State.setM_turns (s : State) (r : MReg) (x : BitVec 128) : (s.setM r x).turns = s.turns := rfl
@[simp] theorem State.setM_stepNo (s : State) (r : MReg) (x : BitVec 128) : (s.setM r x).stepNo = s.stepNo := rfl
@[simp] theorem State.setM_freeNo (s : State) (r : MReg) (x : BitVec 128) : (s.setM r x).freeNo = s.freeNo := rfl
@[simp] theorem State.setM_mem (s : State) (r : MReg) (x : BitVec 128) : (s.setM r x).mem = s.mem := rfl
@[simp] theorem State.setM_badLines (s : State) (r : MReg) (x : BitVec 128) : (s.setM r x).badLines = s.badLines := rfl
@[simp] theorem State.setM_badBytes (s : State) (r : MReg) (x : BitVec 128) : (s.setM r x).badBytes = s.badBytes := rfl
@[simp] theorem State.setM_onchip (s : State) (r : MReg) (x : BitVec 128) : (s.setM r x).onchip = s.onchip := rfl
@[simp] theorem State.setM_shadow (s : State) (r : MReg) (x : BitVec 128) : (s.setM r x).shadow = s.shadow := rfl
@[simp] theorem State.setM_hostMem (s : State) (r : MReg) (x : BitVec 128) : (s.setM r x).hostMem = s.hostMem := rfl
@[simp] theorem State.setM_hostBad (s : State) (r : MReg) (x : BitVec 128) : (s.setM r x).hostBad = s.hostBad := rfl
@[simp] theorem State.setM_hostRO (s : State) (r : MReg) (x : BitVec 128) : (s.setM r x).hostRO = s.hostRO := rfl
@[simp] theorem State.setM_hostAnswer (s : State) (r : MReg) (x : BitVec 128) : (s.setM r x).hostAnswer = s.hostAnswer := rfl
@[simp] theorem State.setM_cores (s : State) (r : MReg) (x : BitVec 128) : (s.setM r x).cores = s.cores := rfl
@[simp] theorem State.setM_sects (s : State) (r : MReg) (x : BitVec 128) : (s.setM r x).sects = s.sects := rfl
@[simp] theorem State.setM_dies (s : State) (r : MReg) (x : BitVec 128) : (s.setM r x).dies = s.dies := rfl
@[simp] theorem State.setM_power (s : State) (r : MReg) (x : BitVec 128) : (s.setM r x).power = s.power := rfl
@[simp] theorem State.setM_linkErrors (s : State) (r : MReg) (x : BitVec 128) : (s.setM r x).linkErrors = s.linkErrors := rfl
@[simp] theorem State.setM_heldWrites (s : State) (r : MReg) (x : BitVec 128) : (s.setM r x).heldWrites = s.heldWrites := rfl
@[simp] theorem State.setM_diecfg (s : State) (r : MReg) (x : BitVec 128) : (s.setM r x).diecfg = s.diecfg := rfl
@[simp] theorem State.setM_share (s : State) (r : MReg) (x : BitVec 128) : (s.setM r x).share = s.share := rfl
@[simp] theorem State.setM_shareSet (s : State) (r : MReg) (x : BitVec 128) : (s.setM r x).shareSet = s.shareSet := rfl
@[simp] theorem State.setM_handle (s : State) (r : MReg) (x : BitVec 128) : (s.setM r x).handle = s.handle := rfl
@[simp] theorem State.setM_duty (s : State) (r : MReg) (x : BitVec 128) : (s.setM r x).duty = s.duty := rfl
@[simp] theorem State.setM_act (s : State) (r : MReg) (x : BitVec 128) : (s.setM r x).act = s.act := rfl
@[simp] theorem State.setM_parts (s : State) (r : MReg) (x : BitVec 128) : (s.setM r x).parts = s.parts := rfl
@[simp] theorem State.setM_regions (s : State) (r : MReg) (x : BitVec 128) : (s.setM r x).regions = s.regions := rfl
@[simp] theorem State.setM_outTable (s : State) (r : MReg) (x : BitVec 128) : (s.setM r x).outTable = s.outTable := rfl
@[simp] theorem State.setM_inTable (s : State) (r : MReg) (x : BitVec 128) : (s.setM r x).inTable = s.inTable := rfl
@[simp] theorem State.setM_saveArea (s : State) (r : MReg) (x : BitVec 128) : (s.setM r x).saveArea = s.saveArea := rfl
@[simp] theorem State.setM_fns (s : State) (r : MReg) (x : BitVec 128) : (s.setM r x).fns = s.fns := rfl
@[simp] theorem State.setM_lids (s : State) (r : MReg) (x : BitVec 128) : (s.setM r x).lids = s.lids := rfl
@[simp] theorem State.setM_launches (s : State) (r : MReg) (x : BitVec 128) : (s.setM r x).launches = s.launches := rfl
@[simp] theorem State.setM_rings (s : State) (r : MReg) (x : BitVec 128) : (s.setM r x).rings = s.rings := rfl
@[simp] theorem State.setM_meshes (s : State) (r : MReg) (x : BitVec 128) : (s.setM r x).meshes = s.meshes := rfl
@[simp] theorem State.setM_groups (s : State) (r : MReg) (x : BitVec 128) : (s.setM r x).groups = s.groups := rfl
@[simp] theorem State.setM_contribs (s : State) (r : MReg) (x : BitVec 128) : (s.setM r x).contribs = s.contribs := rfl
@[simp] theorem State.setM_committed (s : State) (r : MReg) (x : BitVec 128) : (s.setM r x).committed = s.committed := rfl
@[simp] theorem State.setM_remap (s : State) (r : MReg) (x : BitVec 128) : (s.setM r x).remap = s.remap := rfl
@[simp] theorem State.setM_remapOps (s : State) (r : MReg) (x : BitVec 128) : (s.setM r x).remapOps = s.remapOps := rfl
@[simp] theorem State.setM_nextTag (s : State) (r : MReg) (x : BitVec 128) : (s.setM r x).nextTag = s.nextTag := rfl
@[simp] theorem State.setM_fabricOut (s : State) (r : MReg) (x : BitVec 128) : (s.setM r x).fabricOut = s.fabricOut := rfl
@[simp] theorem State.setM_binderRemote (s : State) (r : MReg) (x : BitVec 128) : (s.setM r x).binderRemote = s.binderRemote := rfl
@[simp] theorem State.setM_hostPosts (s : State) (r : MReg) (x : BitVec 128) : (s.setM r x).hostPosts = s.hostPosts := rfl
@[simp] theorem State.setM_hostLeaves (s : State) (r : MReg) (x : BitVec 128) : (s.setM r x).hostLeaves = s.hostLeaves := rfl
@[simp] theorem State.setM_rrs (s : State) (r : MReg) (x : BitVec 128) : (s.setM r x).rrs = s.rrs := rfl
@[simp] theorem State.setM_meas (s : State) (r : MReg) (x : BitVec 128) : (s.setM r x).meas = s.meas := rfl
@[simp] theorem State.setM_staging (s : State) (r : MReg) (x : BitVec 128) : (s.setM r x).staging = s.staging := rfl
@[simp] theorem State.setM_fwLen (s : State) (r : MReg) (x : BitVec 128) : (s.setM r x).fwLen = s.fwLen := rfl
@[simp] theorem State.setM_suspended (s : State) (r : MReg) (x : BitVec 128) : (s.setM r x).suspended = s.suspended := rfl
@[simp] theorem State.setM_staged (s : State) (r : MReg) (x : BitVec 128) : (s.setM r x).staged = s.staged := rfl
@[simp] theorem State.setM_st_sn (s : State) (r : MReg) (x : BitVec 128) : (s.setM r x).st.sn = s.st.sn := rfl
@[simp] theorem State.setM_st_partn (s : State) (r : MReg) (x : BitVec 128) : (s.setM r x).st.partn = s.st.partn := rfl
@[simp] theorem State.setM_st_region (s : State) (r : MReg) (x : BitVec 128) : (s.setM r x).st.region = s.st.region := rfl
@[simp] theorem State.setM_st_pc (s : State) (r : MReg) (x : BitVec 128) : (s.setM r x).st.pc = s.st.pc := rfl
@[simp] theorem State.setM_st_ctl (s : State) (r : MReg) (x : BitVec 128) : (s.setM r x).st.ctl = s.st.ctl := rfl
@[simp] theorem State.setM_st_mode (s : State) (r : MReg) (x : BitVec 128) : (s.setM r x).st.mode = s.st.mode := rfl
@[simp] theorem State.setM_st_trap (s : State) (r : MReg) (x : BitVec 128) : (s.setM r x).st.trap = s.st.trap := rfl
@[simp] theorem State.setM_st_k (s : State) (r : MReg) (x : BitVec 128) : (s.setM r x).st.k = s.st.k := rfl
@[simp] theorem State.setM_st_q (s : State) (r : MReg) (x : BitVec 128) : (s.setM r x).st.q = s.st.q := rfl
@[simp] theorem State.setM_st_vq (s : State) (r : MReg) (x : BitVec 128) : (s.setM r x).st.vq = s.st.vq := rfl
@[simp] theorem State.setM_st_pend (s : State) (r : MReg) (x : BitVec 128) : (s.setM r x).st.pend = s.st.pend := rfl
@[simp] theorem State.setM_st_issue (s : State) (r : MReg) (x : BitVec 128) : (s.setM r x).st.issue = s.st.issue := rfl
@[simp] theorem State.setM_st_scalarNext (s : State) (r : MReg) (x : BitVec 128) : (s.setM r x).st.scalarNext = s.st.scalarNext := rfl
@[simp] theorem State.setM_st_queueOnly (s : State) (r : MReg) (x : BitVec 128) : (s.setM r x).st.queueOnly = s.st.queueOnly := rfl
@[simp] theorem State.setM_st_early (s : State) (r : MReg) (x : BitVec 128) : (s.setM r x).st.early = s.st.early := rfl
@[simp] theorem State.setM_st_restartPc (s : State) (r : MReg) (x : BitVec 128) : (s.setM r x).st.restartPc = s.st.restartPc := rfl
@[simp] theorem State.setM_st_rearm (s : State) (r : MReg) (x : BitVec 128) : (s.setM r x).st.rearm = s.st.rearm := rfl
@[simp] theorem State.setM_st_resumePc (s : State) (r : MReg) (x : BitVec 128) : (s.setM r x).st.resumePc = s.st.resumePc := rfl
@[simp] theorem State.setM_st_hold (s : State) (r : MReg) (x : BitVec 128) : (s.setM r x).st.hold = s.st.hold := rfl
@[simp] theorem State.setM_st_preemptNote (s : State) (r : MReg) (x : BitVec 128) : (s.setM r x).st.preemptNote = s.st.preemptNote := rfl
@[simp] theorem State.setM_st_wait (s : State) (r : MReg) (x : BitVec 128) : (s.setM r x).st.wait = s.st.wait := rfl
@[simp] theorem State.setM_st_qwait (s : State) (r : MReg) (x : BitVec 128) : (s.setM r x).st.qwait = s.st.qwait := rfl
@[simp] theorem State.setM_st_ring (s : State) (r : MReg) (x : BitVec 128) : (s.setM r x).st.ring = s.st.ring := rfl
@[simp] theorem State.setM_st_seqv (s : State) (r : MReg) (x : BitVec 128) : (s.setM r x).st.seqv = s.st.seqv := rfl
@[simp] theorem State.setM_st_rpl (s : State) (r : MReg) (x : BitVec 128) : (s.setM r x).st.rpl = s.st.rpl := rfl
@[simp] theorem State.setM_st_claims (s : State) (r : MReg) (x : BitVec 128) : (s.setM r x).st.claims = s.st.claims := rfl
@[simp] theorem State.setM_st_wake (s : State) (r : MReg) (x : BitVec 128) : (s.setM r x).st.wake = s.st.wake := rfl
@[simp] theorem State.setM_st_fifo (s : State) (r : MReg) (x : BitVec 128) : (s.setM r x).st.fifo = s.st.fifo := rfl
@[simp] theorem State.setM_st_remote (s : State) (r : MReg) (x : BitVec 128) : (s.setM r x).st.remote = s.st.remote := rfl
@[simp] theorem State.setM_st_begun (s : State) (r : MReg) (x : BitVec 128) : (s.setM r x).st.begun = s.st.begun := rfl
@[simp] theorem State.setM_st_trains (s : State) (r : MReg) (x : BitVec 128) : (s.setM r x).st.trains = s.st.trains := rfl
@[simp] theorem State.setM_st_engFlags (s : State) (r : MReg) (x : BitVec 128) : (s.setM r x).st.engFlags = s.st.engFlags := rfl
@[simp] theorem State.setM_st_lines (s : State) (r : MReg) (x : BitVec 128) : (s.setM r x).st.lines = s.st.lines := rfl
@[simp] theorem State.setM_st_counted (s : State) (r : MReg) (x : BitVec 128) : (s.setM r x).st.counted = s.st.counted := rfl
@[simp] theorem State.setM_st_scalarLines (s : State) (r : MReg) (x : BitVec 128) : (s.setM r x).st.scalarLines = s.st.scalarLines := rfl
@[simp] theorem State.setM_st_viewTail (s : State) (r : MReg) (x : BitVec 128) : (s.setM r x).st.viewTail = s.st.viewTail := rfl
@[simp] theorem State.setM_st_tailRead (s : State) (r : MReg) (x : BitVec 128) : (s.setM r x).st.tailRead = s.st.tailRead := rfl
@[simp] theorem State.setM_st_arrivals (s : State) (r : MReg) (x : BitVec 128) : (s.setM r x).st.arrivals = s.st.arrivals := rfl
@[simp] theorem State.setM_st_memberOf (s : State) (r : MReg) (x : BitVec 128) : (s.setM r x).st.memberOf = s.st.memberOf := rfl
@[simp] theorem State.setM_st_waitDone (s : State) (r : MReg) (x : BitVec 128) : (s.setM r x).st.waitDone = s.st.waitDone := rfl
@[simp] theorem State.setM_st_coll (s : State) (r : MReg) (x : BitVec 128) : (s.setM r x).st.coll = s.st.coll := rfl
@[simp] theorem State.setM_st_asked (s : State) (r : MReg) (x : BitVec 128) : (s.setM r x).st.asked = s.st.asked := rfl
@[simp] theorem State.setM_st_collOff (s : State) (r : MReg) (x : BitVec 128) : (s.setM r x).st.collOff = s.st.collOff := rfl
@[simp] theorem State.setM_st_askedOff (s : State) (r : MReg) (x : BitVec 128) : (s.setM r x).st.askedOff = s.st.askedOff := rfl
@[simp] theorem State.setM_st_joinRefused (s : State) (r : MReg) (x : BitVec 128) : (s.setM r x).st.joinRefused = s.st.joinRefused := rfl
@[simp] theorem State.setM_st_refusedOff (s : State) (r : MReg) (x : BitVec 128) : (s.setM r x).st.refusedOff = s.st.refusedOff := rfl
@[simp] theorem State.setM_st_entered (s : State) (r : MReg) (x : BitVec 128) : (s.setM r x).st.entered = s.st.entered := rfl
@[simp] theorem State.setM_st_tags (s : State) (r : MReg) (x : BitVec 128) : (s.setM r x).st.tags = s.st.tags := rfl
@[simp] theorem State.setM_st_sched (s : State) (r : MReg) (x : BitVec 128) : (s.setM r x).st.sched = s.st.sched := rfl

/-! #### `setCore` -/

@[simp] theorem State.setCore_phase (s : State) (c : Nat) (x : Core) : (s.setCore c x).phase = s.phase := rfl
@[simp] theorem State.setCore_fwst (s : State) (c : Nat) (x : Core) : (s.setCore c x).fwst = s.fwst := rfl
@[simp] theorem State.setCore_st (s : State) (c : Nat) (x : Core) : (s.setCore c x).st = s.st := rfl
@[simp] theorem State.setCore_cur (s : State) (c : Nat) (x : Core) : (s.setCore c x).cur = s.cur := rfl
@[simp] theorem State.setCore_others (s : State) (c : Nat) (x : Core) : (s.setCore c x).others = s.others := rfl
@[simp] theorem State.setCore_ir (s : State) (c : Nat) (x : Core) : (s.setCore c x).ir = s.ir := rfl
@[simp] theorem State.setCore_turns (s : State) (c : Nat) (x : Core) : (s.setCore c x).turns = s.turns := rfl
@[simp] theorem State.setCore_stepNo (s : State) (c : Nat) (x : Core) : (s.setCore c x).stepNo = s.stepNo := rfl
@[simp] theorem State.setCore_freeNo (s : State) (c : Nat) (x : Core) : (s.setCore c x).freeNo = s.freeNo := rfl
@[simp] theorem State.setCore_mem (s : State) (c : Nat) (x : Core) : (s.setCore c x).mem = s.mem := rfl
@[simp] theorem State.setCore_badLines (s : State) (c : Nat) (x : Core) : (s.setCore c x).badLines = s.badLines := rfl
@[simp] theorem State.setCore_badBytes (s : State) (c : Nat) (x : Core) : (s.setCore c x).badBytes = s.badBytes := rfl
@[simp] theorem State.setCore_onchip (s : State) (c : Nat) (x : Core) : (s.setCore c x).onchip = s.onchip := rfl
@[simp] theorem State.setCore_shadow (s : State) (c : Nat) (x : Core) : (s.setCore c x).shadow = s.shadow := rfl
@[simp] theorem State.setCore_hostMem (s : State) (c : Nat) (x : Core) : (s.setCore c x).hostMem = s.hostMem := rfl
@[simp] theorem State.setCore_hostBad (s : State) (c : Nat) (x : Core) : (s.setCore c x).hostBad = s.hostBad := rfl
@[simp] theorem State.setCore_hostRO (s : State) (c : Nat) (x : Core) : (s.setCore c x).hostRO = s.hostRO := rfl
@[simp] theorem State.setCore_hostAnswer (s : State) (c : Nat) (x : Core) : (s.setCore c x).hostAnswer = s.hostAnswer := rfl
@[simp] theorem State.setCore_sects (s : State) (c : Nat) (x : Core) : (s.setCore c x).sects = s.sects := rfl
@[simp] theorem State.setCore_dies (s : State) (c : Nat) (x : Core) : (s.setCore c x).dies = s.dies := rfl
@[simp] theorem State.setCore_power (s : State) (c : Nat) (x : Core) : (s.setCore c x).power = s.power := rfl
@[simp] theorem State.setCore_linkErrors (s : State) (c : Nat) (x : Core) : (s.setCore c x).linkErrors = s.linkErrors := rfl
@[simp] theorem State.setCore_heldWrites (s : State) (c : Nat) (x : Core) : (s.setCore c x).heldWrites = s.heldWrites := rfl
@[simp] theorem State.setCore_diecfg (s : State) (c : Nat) (x : Core) : (s.setCore c x).diecfg = s.diecfg := rfl
@[simp] theorem State.setCore_share (s : State) (c : Nat) (x : Core) : (s.setCore c x).share = s.share := rfl
@[simp] theorem State.setCore_shareSet (s : State) (c : Nat) (x : Core) : (s.setCore c x).shareSet = s.shareSet := rfl
@[simp] theorem State.setCore_handle (s : State) (c : Nat) (x : Core) : (s.setCore c x).handle = s.handle := rfl
@[simp] theorem State.setCore_duty (s : State) (c : Nat) (x : Core) : (s.setCore c x).duty = s.duty := rfl
@[simp] theorem State.setCore_act (s : State) (c : Nat) (x : Core) : (s.setCore c x).act = s.act := rfl
@[simp] theorem State.setCore_parts (s : State) (c : Nat) (x : Core) : (s.setCore c x).parts = s.parts := rfl
@[simp] theorem State.setCore_regions (s : State) (c : Nat) (x : Core) : (s.setCore c x).regions = s.regions := rfl
@[simp] theorem State.setCore_outTable (s : State) (c : Nat) (x : Core) : (s.setCore c x).outTable = s.outTable := rfl
@[simp] theorem State.setCore_inTable (s : State) (c : Nat) (x : Core) : (s.setCore c x).inTable = s.inTable := rfl
@[simp] theorem State.setCore_saveArea (s : State) (c : Nat) (x : Core) : (s.setCore c x).saveArea = s.saveArea := rfl
@[simp] theorem State.setCore_fns (s : State) (c : Nat) (x : Core) : (s.setCore c x).fns = s.fns := rfl
@[simp] theorem State.setCore_lids (s : State) (c : Nat) (x : Core) : (s.setCore c x).lids = s.lids := rfl
@[simp] theorem State.setCore_launches (s : State) (c : Nat) (x : Core) : (s.setCore c x).launches = s.launches := rfl
@[simp] theorem State.setCore_rings (s : State) (c : Nat) (x : Core) : (s.setCore c x).rings = s.rings := rfl
@[simp] theorem State.setCore_meshes (s : State) (c : Nat) (x : Core) : (s.setCore c x).meshes = s.meshes := rfl
@[simp] theorem State.setCore_groups (s : State) (c : Nat) (x : Core) : (s.setCore c x).groups = s.groups := rfl
@[simp] theorem State.setCore_contribs (s : State) (c : Nat) (x : Core) : (s.setCore c x).contribs = s.contribs := rfl
@[simp] theorem State.setCore_committed (s : State) (c : Nat) (x : Core) : (s.setCore c x).committed = s.committed := rfl
@[simp] theorem State.setCore_remap (s : State) (c : Nat) (x : Core) : (s.setCore c x).remap = s.remap := rfl
@[simp] theorem State.setCore_remapOps (s : State) (c : Nat) (x : Core) : (s.setCore c x).remapOps = s.remapOps := rfl
@[simp] theorem State.setCore_nextTag (s : State) (c : Nat) (x : Core) : (s.setCore c x).nextTag = s.nextTag := rfl
@[simp] theorem State.setCore_fabricOut (s : State) (c : Nat) (x : Core) : (s.setCore c x).fabricOut = s.fabricOut := rfl
@[simp] theorem State.setCore_binderRemote (s : State) (c : Nat) (x : Core) : (s.setCore c x).binderRemote = s.binderRemote := rfl
@[simp] theorem State.setCore_hostPosts (s : State) (c : Nat) (x : Core) : (s.setCore c x).hostPosts = s.hostPosts := rfl
@[simp] theorem State.setCore_hostLeaves (s : State) (c : Nat) (x : Core) : (s.setCore c x).hostLeaves = s.hostLeaves := rfl
@[simp] theorem State.setCore_rrs (s : State) (c : Nat) (x : Core) : (s.setCore c x).rrs = s.rrs := rfl
@[simp] theorem State.setCore_meas (s : State) (c : Nat) (x : Core) : (s.setCore c x).meas = s.meas := rfl
@[simp] theorem State.setCore_staging (s : State) (c : Nat) (x : Core) : (s.setCore c x).staging = s.staging := rfl
@[simp] theorem State.setCore_fwLen (s : State) (c : Nat) (x : Core) : (s.setCore c x).fwLen = s.fwLen := rfl
@[simp] theorem State.setCore_suspended (s : State) (c : Nat) (x : Core) : (s.setCore c x).suspended = s.suspended := rfl
@[simp] theorem State.setCore_staged (s : State) (c : Nat) (x : Core) : (s.setCore c x).staged = s.staged := rfl

/-! #### `mapDie` -/

@[simp] theorem State.mapDie_phase (s : State) (d : DieNo) (f : Die → Die) : (s.mapDie d f).phase = s.phase := rfl
@[simp] theorem State.mapDie_fwst (s : State) (d : DieNo) (f : Die → Die) : (s.mapDie d f).fwst = s.fwst := rfl
@[simp] theorem State.mapDie_st (s : State) (d : DieNo) (f : Die → Die) : (s.mapDie d f).st = s.st := rfl
@[simp] theorem State.mapDie_cur (s : State) (d : DieNo) (f : Die → Die) : (s.mapDie d f).cur = s.cur := rfl
@[simp] theorem State.mapDie_others (s : State) (d : DieNo) (f : Die → Die) : (s.mapDie d f).others = s.others := rfl
@[simp] theorem State.mapDie_ir (s : State) (d : DieNo) (f : Die → Die) : (s.mapDie d f).ir = s.ir := rfl
@[simp] theorem State.mapDie_turns (s : State) (d : DieNo) (f : Die → Die) : (s.mapDie d f).turns = s.turns := rfl
@[simp] theorem State.mapDie_stepNo (s : State) (d : DieNo) (f : Die → Die) : (s.mapDie d f).stepNo = s.stepNo := rfl
@[simp] theorem State.mapDie_freeNo (s : State) (d : DieNo) (f : Die → Die) : (s.mapDie d f).freeNo = s.freeNo := rfl
@[simp] theorem State.mapDie_mem (s : State) (d : DieNo) (f : Die → Die) : (s.mapDie d f).mem = s.mem := rfl
@[simp] theorem State.mapDie_badLines (s : State) (d : DieNo) (f : Die → Die) : (s.mapDie d f).badLines = s.badLines := rfl
@[simp] theorem State.mapDie_badBytes (s : State) (d : DieNo) (f : Die → Die) : (s.mapDie d f).badBytes = s.badBytes := rfl
@[simp] theorem State.mapDie_onchip (s : State) (d : DieNo) (f : Die → Die) : (s.mapDie d f).onchip = s.onchip := rfl
@[simp] theorem State.mapDie_shadow (s : State) (d : DieNo) (f : Die → Die) : (s.mapDie d f).shadow = s.shadow := rfl
@[simp] theorem State.mapDie_hostMem (s : State) (d : DieNo) (f : Die → Die) : (s.mapDie d f).hostMem = s.hostMem := rfl
@[simp] theorem State.mapDie_hostBad (s : State) (d : DieNo) (f : Die → Die) : (s.mapDie d f).hostBad = s.hostBad := rfl
@[simp] theorem State.mapDie_hostRO (s : State) (d : DieNo) (f : Die → Die) : (s.mapDie d f).hostRO = s.hostRO := rfl
@[simp] theorem State.mapDie_hostAnswer (s : State) (d : DieNo) (f : Die → Die) : (s.mapDie d f).hostAnswer = s.hostAnswer := rfl
@[simp] theorem State.mapDie_cores (s : State) (d : DieNo) (f : Die → Die) : (s.mapDie d f).cores = s.cores := rfl
@[simp] theorem State.mapDie_sects (s : State) (d : DieNo) (f : Die → Die) : (s.mapDie d f).sects = s.sects := rfl
@[simp] theorem State.mapDie_power (s : State) (d : DieNo) (f : Die → Die) : (s.mapDie d f).power = s.power := rfl
@[simp] theorem State.mapDie_linkErrors (s : State) (d : DieNo) (f : Die → Die) : (s.mapDie d f).linkErrors = s.linkErrors := rfl
@[simp] theorem State.mapDie_heldWrites (s : State) (d : DieNo) (f : Die → Die) : (s.mapDie d f).heldWrites = s.heldWrites := rfl
@[simp] theorem State.mapDie_diecfg (s : State) (d : DieNo) (f : Die → Die) : (s.mapDie d f).diecfg = s.diecfg := rfl
@[simp] theorem State.mapDie_share (s : State) (d : DieNo) (f : Die → Die) : (s.mapDie d f).share = s.share := rfl
@[simp] theorem State.mapDie_shareSet (s : State) (d : DieNo) (f : Die → Die) : (s.mapDie d f).shareSet = s.shareSet := rfl
@[simp] theorem State.mapDie_handle (s : State) (d : DieNo) (f : Die → Die) : (s.mapDie d f).handle = s.handle := rfl
@[simp] theorem State.mapDie_duty (s : State) (d : DieNo) (f : Die → Die) : (s.mapDie d f).duty = s.duty := rfl
@[simp] theorem State.mapDie_act (s : State) (d : DieNo) (f : Die → Die) : (s.mapDie d f).act = s.act := rfl
@[simp] theorem State.mapDie_parts (s : State) (d : DieNo) (f : Die → Die) : (s.mapDie d f).parts = s.parts := rfl
@[simp] theorem State.mapDie_regions (s : State) (d : DieNo) (f : Die → Die) : (s.mapDie d f).regions = s.regions := rfl
@[simp] theorem State.mapDie_outTable (s : State) (d : DieNo) (f : Die → Die) : (s.mapDie d f).outTable = s.outTable := rfl
@[simp] theorem State.mapDie_inTable (s : State) (d : DieNo) (f : Die → Die) : (s.mapDie d f).inTable = s.inTable := rfl
@[simp] theorem State.mapDie_saveArea (s : State) (d : DieNo) (f : Die → Die) : (s.mapDie d f).saveArea = s.saveArea := rfl
@[simp] theorem State.mapDie_fns (s : State) (d : DieNo) (f : Die → Die) : (s.mapDie d f).fns = s.fns := rfl
@[simp] theorem State.mapDie_lids (s : State) (d : DieNo) (f : Die → Die) : (s.mapDie d f).lids = s.lids := rfl
@[simp] theorem State.mapDie_launches (s : State) (d : DieNo) (f : Die → Die) : (s.mapDie d f).launches = s.launches := rfl
@[simp] theorem State.mapDie_rings (s : State) (d : DieNo) (f : Die → Die) : (s.mapDie d f).rings = s.rings := rfl
@[simp] theorem State.mapDie_meshes (s : State) (d : DieNo) (f : Die → Die) : (s.mapDie d f).meshes = s.meshes := rfl
@[simp] theorem State.mapDie_groups (s : State) (d : DieNo) (f : Die → Die) : (s.mapDie d f).groups = s.groups := rfl
@[simp] theorem State.mapDie_contribs (s : State) (d : DieNo) (f : Die → Die) : (s.mapDie d f).contribs = s.contribs := rfl
@[simp] theorem State.mapDie_committed (s : State) (d : DieNo) (f : Die → Die) : (s.mapDie d f).committed = s.committed := rfl
@[simp] theorem State.mapDie_remap (s : State) (d : DieNo) (f : Die → Die) : (s.mapDie d f).remap = s.remap := rfl
@[simp] theorem State.mapDie_remapOps (s : State) (d : DieNo) (f : Die → Die) : (s.mapDie d f).remapOps = s.remapOps := rfl
@[simp] theorem State.mapDie_nextTag (s : State) (d : DieNo) (f : Die → Die) : (s.mapDie d f).nextTag = s.nextTag := rfl
@[simp] theorem State.mapDie_fabricOut (s : State) (d : DieNo) (f : Die → Die) : (s.mapDie d f).fabricOut = s.fabricOut := rfl
@[simp] theorem State.mapDie_binderRemote (s : State) (d : DieNo) (f : Die → Die) : (s.mapDie d f).binderRemote = s.binderRemote := rfl
@[simp] theorem State.mapDie_hostPosts (s : State) (d : DieNo) (f : Die → Die) : (s.mapDie d f).hostPosts = s.hostPosts := rfl
@[simp] theorem State.mapDie_hostLeaves (s : State) (d : DieNo) (f : Die → Die) : (s.mapDie d f).hostLeaves = s.hostLeaves := rfl
@[simp] theorem State.mapDie_rrs (s : State) (d : DieNo) (f : Die → Die) : (s.mapDie d f).rrs = s.rrs := rfl
@[simp] theorem State.mapDie_meas (s : State) (d : DieNo) (f : Die → Die) : (s.mapDie d f).meas = s.meas := rfl
@[simp] theorem State.mapDie_staging (s : State) (d : DieNo) (f : Die → Die) : (s.mapDie d f).staging = s.staging := rfl
@[simp] theorem State.mapDie_fwLen (s : State) (d : DieNo) (f : Die → Die) : (s.mapDie d f).fwLen = s.fwLen := rfl
@[simp] theorem State.mapDie_suspended (s : State) (d : DieNo) (f : Die → Die) : (s.mapDie d f).suspended = s.suspended := rfl
@[simp] theorem State.mapDie_staged (s : State) (d : DieNo) (f : Die → Die) : (s.mapDie d f).staged = s.staged := rfl

/-! #### `mapSect` -/

@[simp] theorem State.mapSect_phase (s : State) (d : Fin 32) (f : Sect → Sect) : (s.mapSect d f).phase = s.phase := rfl
@[simp] theorem State.mapSect_fwst (s : State) (d : Fin 32) (f : Sect → Sect) : (s.mapSect d f).fwst = s.fwst := rfl
@[simp] theorem State.mapSect_st (s : State) (d : Fin 32) (f : Sect → Sect) : (s.mapSect d f).st = s.st := rfl
@[simp] theorem State.mapSect_cur (s : State) (d : Fin 32) (f : Sect → Sect) : (s.mapSect d f).cur = s.cur := rfl
@[simp] theorem State.mapSect_others (s : State) (d : Fin 32) (f : Sect → Sect) : (s.mapSect d f).others = s.others := rfl
@[simp] theorem State.mapSect_ir (s : State) (d : Fin 32) (f : Sect → Sect) : (s.mapSect d f).ir = s.ir := rfl
@[simp] theorem State.mapSect_turns (s : State) (d : Fin 32) (f : Sect → Sect) : (s.mapSect d f).turns = s.turns := rfl
@[simp] theorem State.mapSect_stepNo (s : State) (d : Fin 32) (f : Sect → Sect) : (s.mapSect d f).stepNo = s.stepNo := rfl
@[simp] theorem State.mapSect_freeNo (s : State) (d : Fin 32) (f : Sect → Sect) : (s.mapSect d f).freeNo = s.freeNo := rfl
@[simp] theorem State.mapSect_mem (s : State) (d : Fin 32) (f : Sect → Sect) : (s.mapSect d f).mem = s.mem := rfl
@[simp] theorem State.mapSect_badLines (s : State) (d : Fin 32) (f : Sect → Sect) : (s.mapSect d f).badLines = s.badLines := rfl
@[simp] theorem State.mapSect_badBytes (s : State) (d : Fin 32) (f : Sect → Sect) : (s.mapSect d f).badBytes = s.badBytes := rfl
@[simp] theorem State.mapSect_onchip (s : State) (d : Fin 32) (f : Sect → Sect) : (s.mapSect d f).onchip = s.onchip := rfl
@[simp] theorem State.mapSect_shadow (s : State) (d : Fin 32) (f : Sect → Sect) : (s.mapSect d f).shadow = s.shadow := rfl
@[simp] theorem State.mapSect_hostMem (s : State) (d : Fin 32) (f : Sect → Sect) : (s.mapSect d f).hostMem = s.hostMem := rfl
@[simp] theorem State.mapSect_hostBad (s : State) (d : Fin 32) (f : Sect → Sect) : (s.mapSect d f).hostBad = s.hostBad := rfl
@[simp] theorem State.mapSect_hostRO (s : State) (d : Fin 32) (f : Sect → Sect) : (s.mapSect d f).hostRO = s.hostRO := rfl
@[simp] theorem State.mapSect_hostAnswer (s : State) (d : Fin 32) (f : Sect → Sect) : (s.mapSect d f).hostAnswer = s.hostAnswer := rfl
@[simp] theorem State.mapSect_cores (s : State) (d : Fin 32) (f : Sect → Sect) : (s.mapSect d f).cores = s.cores := rfl
@[simp] theorem State.mapSect_dies (s : State) (d : Fin 32) (f : Sect → Sect) : (s.mapSect d f).dies = s.dies := rfl
@[simp] theorem State.mapSect_power (s : State) (d : Fin 32) (f : Sect → Sect) : (s.mapSect d f).power = s.power := rfl
@[simp] theorem State.mapSect_linkErrors (s : State) (d : Fin 32) (f : Sect → Sect) : (s.mapSect d f).linkErrors = s.linkErrors := rfl
@[simp] theorem State.mapSect_heldWrites (s : State) (d : Fin 32) (f : Sect → Sect) : (s.mapSect d f).heldWrites = s.heldWrites := rfl
@[simp] theorem State.mapSect_diecfg (s : State) (d : Fin 32) (f : Sect → Sect) : (s.mapSect d f).diecfg = s.diecfg := rfl
@[simp] theorem State.mapSect_share (s : State) (d : Fin 32) (f : Sect → Sect) : (s.mapSect d f).share = s.share := rfl
@[simp] theorem State.mapSect_shareSet (s : State) (d : Fin 32) (f : Sect → Sect) : (s.mapSect d f).shareSet = s.shareSet := rfl
@[simp] theorem State.mapSect_handle (s : State) (d : Fin 32) (f : Sect → Sect) : (s.mapSect d f).handle = s.handle := rfl
@[simp] theorem State.mapSect_duty (s : State) (d : Fin 32) (f : Sect → Sect) : (s.mapSect d f).duty = s.duty := rfl
@[simp] theorem State.mapSect_act (s : State) (d : Fin 32) (f : Sect → Sect) : (s.mapSect d f).act = s.act := rfl
@[simp] theorem State.mapSect_parts (s : State) (d : Fin 32) (f : Sect → Sect) : (s.mapSect d f).parts = s.parts := rfl
@[simp] theorem State.mapSect_regions (s : State) (d : Fin 32) (f : Sect → Sect) : (s.mapSect d f).regions = s.regions := rfl
@[simp] theorem State.mapSect_outTable (s : State) (d : Fin 32) (f : Sect → Sect) : (s.mapSect d f).outTable = s.outTable := rfl
@[simp] theorem State.mapSect_inTable (s : State) (d : Fin 32) (f : Sect → Sect) : (s.mapSect d f).inTable = s.inTable := rfl
@[simp] theorem State.mapSect_saveArea (s : State) (d : Fin 32) (f : Sect → Sect) : (s.mapSect d f).saveArea = s.saveArea := rfl
@[simp] theorem State.mapSect_fns (s : State) (d : Fin 32) (f : Sect → Sect) : (s.mapSect d f).fns = s.fns := rfl
@[simp] theorem State.mapSect_lids (s : State) (d : Fin 32) (f : Sect → Sect) : (s.mapSect d f).lids = s.lids := rfl
@[simp] theorem State.mapSect_launches (s : State) (d : Fin 32) (f : Sect → Sect) : (s.mapSect d f).launches = s.launches := rfl
@[simp] theorem State.mapSect_rings (s : State) (d : Fin 32) (f : Sect → Sect) : (s.mapSect d f).rings = s.rings := rfl
@[simp] theorem State.mapSect_meshes (s : State) (d : Fin 32) (f : Sect → Sect) : (s.mapSect d f).meshes = s.meshes := rfl
@[simp] theorem State.mapSect_groups (s : State) (d : Fin 32) (f : Sect → Sect) : (s.mapSect d f).groups = s.groups := rfl
@[simp] theorem State.mapSect_contribs (s : State) (d : Fin 32) (f : Sect → Sect) : (s.mapSect d f).contribs = s.contribs := rfl
@[simp] theorem State.mapSect_committed (s : State) (d : Fin 32) (f : Sect → Sect) : (s.mapSect d f).committed = s.committed := rfl
@[simp] theorem State.mapSect_remap (s : State) (d : Fin 32) (f : Sect → Sect) : (s.mapSect d f).remap = s.remap := rfl
@[simp] theorem State.mapSect_remapOps (s : State) (d : Fin 32) (f : Sect → Sect) : (s.mapSect d f).remapOps = s.remapOps := rfl
@[simp] theorem State.mapSect_nextTag (s : State) (d : Fin 32) (f : Sect → Sect) : (s.mapSect d f).nextTag = s.nextTag := rfl
@[simp] theorem State.mapSect_fabricOut (s : State) (d : Fin 32) (f : Sect → Sect) : (s.mapSect d f).fabricOut = s.fabricOut := rfl
@[simp] theorem State.mapSect_binderRemote (s : State) (d : Fin 32) (f : Sect → Sect) : (s.mapSect d f).binderRemote = s.binderRemote := rfl
@[simp] theorem State.mapSect_hostPosts (s : State) (d : Fin 32) (f : Sect → Sect) : (s.mapSect d f).hostPosts = s.hostPosts := rfl
@[simp] theorem State.mapSect_hostLeaves (s : State) (d : Fin 32) (f : Sect → Sect) : (s.mapSect d f).hostLeaves = s.hostLeaves := rfl
@[simp] theorem State.mapSect_rrs (s : State) (d : Fin 32) (f : Sect → Sect) : (s.mapSect d f).rrs = s.rrs := rfl
@[simp] theorem State.mapSect_meas (s : State) (d : Fin 32) (f : Sect → Sect) : (s.mapSect d f).meas = s.meas := rfl
@[simp] theorem State.mapSect_staging (s : State) (d : Fin 32) (f : Sect → Sect) : (s.mapSect d f).staging = s.staging := rfl
@[simp] theorem State.mapSect_fwLen (s : State) (d : Fin 32) (f : Sect → Sect) : (s.mapSect d f).fwLen = s.fwLen := rfl
@[simp] theorem State.mapSect_suspended (s : State) (d : Fin 32) (f : Sect → Sect) : (s.mapSect d f).suspended = s.suspended := rfl
@[simp] theorem State.mapSect_staged (s : State) (d : Fin 32) (f : Sect → Sect) : (s.mapSect d f).staged = s.staged := rfl

/-! #### `mapFn` -/

@[simp] theorem State.mapFn_phase (s : State) (n : Fin 17) (f : FnPage → FnPage) : (s.mapFn n f).phase = s.phase := rfl
@[simp] theorem State.mapFn_fwst (s : State) (n : Fin 17) (f : FnPage → FnPage) : (s.mapFn n f).fwst = s.fwst := rfl
@[simp] theorem State.mapFn_st (s : State) (n : Fin 17) (f : FnPage → FnPage) : (s.mapFn n f).st = s.st := rfl
@[simp] theorem State.mapFn_cur (s : State) (n : Fin 17) (f : FnPage → FnPage) : (s.mapFn n f).cur = s.cur := rfl
@[simp] theorem State.mapFn_others (s : State) (n : Fin 17) (f : FnPage → FnPage) : (s.mapFn n f).others = s.others := rfl
@[simp] theorem State.mapFn_ir (s : State) (n : Fin 17) (f : FnPage → FnPage) : (s.mapFn n f).ir = s.ir := rfl
@[simp] theorem State.mapFn_turns (s : State) (n : Fin 17) (f : FnPage → FnPage) : (s.mapFn n f).turns = s.turns := rfl
@[simp] theorem State.mapFn_stepNo (s : State) (n : Fin 17) (f : FnPage → FnPage) : (s.mapFn n f).stepNo = s.stepNo := rfl
@[simp] theorem State.mapFn_freeNo (s : State) (n : Fin 17) (f : FnPage → FnPage) : (s.mapFn n f).freeNo = s.freeNo := rfl
@[simp] theorem State.mapFn_mem (s : State) (n : Fin 17) (f : FnPage → FnPage) : (s.mapFn n f).mem = s.mem := rfl
@[simp] theorem State.mapFn_badLines (s : State) (n : Fin 17) (f : FnPage → FnPage) : (s.mapFn n f).badLines = s.badLines := rfl
@[simp] theorem State.mapFn_badBytes (s : State) (n : Fin 17) (f : FnPage → FnPage) : (s.mapFn n f).badBytes = s.badBytes := rfl
@[simp] theorem State.mapFn_onchip (s : State) (n : Fin 17) (f : FnPage → FnPage) : (s.mapFn n f).onchip = s.onchip := rfl
@[simp] theorem State.mapFn_shadow (s : State) (n : Fin 17) (f : FnPage → FnPage) : (s.mapFn n f).shadow = s.shadow := rfl
@[simp] theorem State.mapFn_hostMem (s : State) (n : Fin 17) (f : FnPage → FnPage) : (s.mapFn n f).hostMem = s.hostMem := rfl
@[simp] theorem State.mapFn_hostBad (s : State) (n : Fin 17) (f : FnPage → FnPage) : (s.mapFn n f).hostBad = s.hostBad := rfl
@[simp] theorem State.mapFn_hostRO (s : State) (n : Fin 17) (f : FnPage → FnPage) : (s.mapFn n f).hostRO = s.hostRO := rfl
@[simp] theorem State.mapFn_hostAnswer (s : State) (n : Fin 17) (f : FnPage → FnPage) : (s.mapFn n f).hostAnswer = s.hostAnswer := rfl
@[simp] theorem State.mapFn_cores (s : State) (n : Fin 17) (f : FnPage → FnPage) : (s.mapFn n f).cores = s.cores := rfl
@[simp] theorem State.mapFn_sects (s : State) (n : Fin 17) (f : FnPage → FnPage) : (s.mapFn n f).sects = s.sects := rfl
@[simp] theorem State.mapFn_dies (s : State) (n : Fin 17) (f : FnPage → FnPage) : (s.mapFn n f).dies = s.dies := rfl
@[simp] theorem State.mapFn_power (s : State) (n : Fin 17) (f : FnPage → FnPage) : (s.mapFn n f).power = s.power := rfl
@[simp] theorem State.mapFn_linkErrors (s : State) (n : Fin 17) (f : FnPage → FnPage) : (s.mapFn n f).linkErrors = s.linkErrors := rfl
@[simp] theorem State.mapFn_heldWrites (s : State) (n : Fin 17) (f : FnPage → FnPage) : (s.mapFn n f).heldWrites = s.heldWrites := rfl
@[simp] theorem State.mapFn_diecfg (s : State) (n : Fin 17) (f : FnPage → FnPage) : (s.mapFn n f).diecfg = s.diecfg := rfl
@[simp] theorem State.mapFn_share (s : State) (n : Fin 17) (f : FnPage → FnPage) : (s.mapFn n f).share = s.share := rfl
@[simp] theorem State.mapFn_shareSet (s : State) (n : Fin 17) (f : FnPage → FnPage) : (s.mapFn n f).shareSet = s.shareSet := rfl
@[simp] theorem State.mapFn_handle (s : State) (n : Fin 17) (f : FnPage → FnPage) : (s.mapFn n f).handle = s.handle := rfl
@[simp] theorem State.mapFn_duty (s : State) (n : Fin 17) (f : FnPage → FnPage) : (s.mapFn n f).duty = s.duty := rfl
@[simp] theorem State.mapFn_act (s : State) (n : Fin 17) (f : FnPage → FnPage) : (s.mapFn n f).act = s.act := rfl
@[simp] theorem State.mapFn_parts (s : State) (n : Fin 17) (f : FnPage → FnPage) : (s.mapFn n f).parts = s.parts := rfl
@[simp] theorem State.mapFn_regions (s : State) (n : Fin 17) (f : FnPage → FnPage) : (s.mapFn n f).regions = s.regions := rfl
@[simp] theorem State.mapFn_outTable (s : State) (n : Fin 17) (f : FnPage → FnPage) : (s.mapFn n f).outTable = s.outTable := rfl
@[simp] theorem State.mapFn_inTable (s : State) (n : Fin 17) (f : FnPage → FnPage) : (s.mapFn n f).inTable = s.inTable := rfl
@[simp] theorem State.mapFn_saveArea (s : State) (n : Fin 17) (f : FnPage → FnPage) : (s.mapFn n f).saveArea = s.saveArea := rfl
@[simp] theorem State.mapFn_lids (s : State) (n : Fin 17) (f : FnPage → FnPage) : (s.mapFn n f).lids = s.lids := rfl
@[simp] theorem State.mapFn_launches (s : State) (n : Fin 17) (f : FnPage → FnPage) : (s.mapFn n f).launches = s.launches := rfl
@[simp] theorem State.mapFn_rings (s : State) (n : Fin 17) (f : FnPage → FnPage) : (s.mapFn n f).rings = s.rings := rfl
@[simp] theorem State.mapFn_meshes (s : State) (n : Fin 17) (f : FnPage → FnPage) : (s.mapFn n f).meshes = s.meshes := rfl
@[simp] theorem State.mapFn_groups (s : State) (n : Fin 17) (f : FnPage → FnPage) : (s.mapFn n f).groups = s.groups := rfl
@[simp] theorem State.mapFn_contribs (s : State) (n : Fin 17) (f : FnPage → FnPage) : (s.mapFn n f).contribs = s.contribs := rfl
@[simp] theorem State.mapFn_committed (s : State) (n : Fin 17) (f : FnPage → FnPage) : (s.mapFn n f).committed = s.committed := rfl
@[simp] theorem State.mapFn_remap (s : State) (n : Fin 17) (f : FnPage → FnPage) : (s.mapFn n f).remap = s.remap := rfl
@[simp] theorem State.mapFn_remapOps (s : State) (n : Fin 17) (f : FnPage → FnPage) : (s.mapFn n f).remapOps = s.remapOps := rfl
@[simp] theorem State.mapFn_nextTag (s : State) (n : Fin 17) (f : FnPage → FnPage) : (s.mapFn n f).nextTag = s.nextTag := rfl
@[simp] theorem State.mapFn_fabricOut (s : State) (n : Fin 17) (f : FnPage → FnPage) : (s.mapFn n f).fabricOut = s.fabricOut := rfl
@[simp] theorem State.mapFn_binderRemote (s : State) (n : Fin 17) (f : FnPage → FnPage) : (s.mapFn n f).binderRemote = s.binderRemote := rfl
@[simp] theorem State.mapFn_hostPosts (s : State) (n : Fin 17) (f : FnPage → FnPage) : (s.mapFn n f).hostPosts = s.hostPosts := rfl
@[simp] theorem State.mapFn_hostLeaves (s : State) (n : Fin 17) (f : FnPage → FnPage) : (s.mapFn n f).hostLeaves = s.hostLeaves := rfl
@[simp] theorem State.mapFn_rrs (s : State) (n : Fin 17) (f : FnPage → FnPage) : (s.mapFn n f).rrs = s.rrs := rfl
@[simp] theorem State.mapFn_meas (s : State) (n : Fin 17) (f : FnPage → FnPage) : (s.mapFn n f).meas = s.meas := rfl
@[simp] theorem State.mapFn_staging (s : State) (n : Fin 17) (f : FnPage → FnPage) : (s.mapFn n f).staging = s.staging := rfl
@[simp] theorem State.mapFn_fwLen (s : State) (n : Fin 17) (f : FnPage → FnPage) : (s.mapFn n f).fwLen = s.fwLen := rfl
@[simp] theorem State.mapFn_suspended (s : State) (n : Fin 17) (f : FnPage → FnPage) : (s.mapFn n f).suspended = s.suspended := rfl
@[simp] theorem State.mapFn_staged (s : State) (n : Fin 17) (f : FnPage → FnPage) : (s.mapFn n f).staged = s.staged := rfl

/-! #### What is written -/

@[simp] theorem State.mapSt_st (s : State) (f : Strand → Strand) : (s.mapSt f).st = f s.st := rfl
@[simp] theorem State.mapRegs_st_regs (s : State) (f : Regs → Regs) : (s.mapRegs f).st.regs = f s.st.regs := rfl
@[simp] theorem State.mapCtl_st_ctl (s : State) (f : Ctl → Ctl) : (s.mapCtl f).st.ctl = f s.st.ctl := rfl
@[simp] theorem State.setPc_st_pc (s : State) (x : Word) : (s.setPc x).st.pc = x := rfl
@[simp] theorem State.setCore_same (s : State) (c : Nat) (x : Core) : (s.setCore c x).coreOf c = x := by
  simp [State.coreOf, State.setCore, SMap.getD_put_same]
theorem State.setCore_coreOf (s : State) (c : Nat) (x : Core) (c' : Nat) :
    (s.setCore c x).coreOf c' = if c' = c then x else s.coreOf c' := by
  simp [State.coreOf, State.setCore, SMap.getD_put]

/-! #### Registers: read after write -/

/-- g0 reads zero (Table 2-1). -/
@[simp] theorem State.g_zero (s : State) : s.g 0 = 0 := rfl
/-- g0 ignores writes. -/
@[simp] theorem State.setG_zero (s : State) (x : Word) : s.setG 0 x = s := rfl
theorem State.g_setG (s : State) (r r' : GReg) (x : Word) : (s.setG r x).g r' = if r' = r then (if r = 0 then 0 else x) else s.g r' := by
  unfold State.setG State.g
  by_cases h : r = 0
  · subst h; by_cases h' : r' = 0 <;> simp [h']
  · by_cases h' : r' = r
    · subst h'; simp [h, State.mapRegs]
    · have : r.val ≠ r'.val := fun e => h' (Fin.ext e.symm)
      simp [h, h', State.mapRegs, this]
@[simp] theorem State.g_setG_same (s : State) (r : GReg) (x : Word) (h : r ≠ 0) : (s.setG r x).g r = x := by simp [State.g_setG, h]
theorem State.g_setG_other (s : State) (r r' : GReg) (x : Word) (h : r' ≠ r) : (s.setG r x).g r' = s.g r' := by simp [State.g_setG, h]

theorem State.f_setF (s : State) (r r' : FReg) (x : Elem) : (s.setF r x).f r' = if r' = r then x else s.f r' := by
  unfold State.setF State.f
  by_cases h' : r' = r
  · subst h'; simp [State.mapRegs]
  · have : r.val ≠ r'.val := fun e => h' (Fin.ext e.symm)
    simp [h', State.mapRegs, this]
@[simp] theorem State.f_setF_same (s : State) (r : FReg) (x : Elem) : (s.setF r x).f r = x := by simp [State.f_setF]

theorem State.v_setV (s : State) (r r' : VReg) (e e' : Nat) (x : Elem) (h : e < 128) :
    (s.setV r e x).v r' e' = if r' = r ∧ e' = e then x else s.v r' e' := by
  unfold State.setV State.v
  by_cases h1 : r' = r
  · subst h1
    by_cases h2 : e' = e
    · subst h2; simp [h]
    · have : e ≠ e' := fun q => h2 q.symm
      by_cases h3 : e' < 128 <;> simp [h, h2, h3, this]
  · have : r.val ≠ r'.val := fun q => h1 (Fin.ext q.symm)
    by_cases h3 : e' < 128 <;> simp [h, h1, h3, this]

theorem setBit_getLsbD (x : BitVec 128) (e e' : Nat) (b : Bool) (h : e < 128) :
    (setBit x e b).getLsbD e' = if e' = e then b else x.getLsbD e' := by
  have hb : ∀ i : Nat, (BitVec.ofNat 128 (2 ^ e)).getLsbD i = decide (i = e) := by
    intro i
    rw [BitVec.getLsbD_ofNat, Nat.testBit_two_pow]
    by_cases h1 : e = i
    · subst h1; simp [h]
    · have : ¬ i = e := fun q => h1 q.symm
      simp [h1, this]
  unfold setBit
  generalize BitVec.ofNat 128 (2 ^ e) = p at hb ⊢
  cases b
  · by_cases h1 : e' = e
    · subst h1; simp [BitVec.getLsbD_and, BitVec.getLsbD_not, hb]
    · by_cases h2 : e' < 128
      · have hp := hb e'
        rw [if_neg h1, if_neg Bool.false_ne_true, BitVec.getLsbD_and, BitVec.getLsbD_not, hp]
        simp [h1, h2]
      · simp [BitVec.getLsbD_and, BitVec.getLsbD_not, h1, h2, BitVec.getLsbD_of_ge x e' (by omega)]
  · by_cases h1 : e' = e
    · subst h1; simp [BitVec.getLsbD_or, hb]
    · simp [BitVec.getLsbD_or, hb, h1]

theorem State.mbit_setMbit (s : State) (r r' : MReg) (e e' : Nat) (b : Bool) (h : e < 128) :
    (s.setMbit r e b).mbit r' e' = if r' = r ∧ e' = e then b else s.mbit r' e' := by
  unfold State.setMbit State.mbit
  by_cases h1 : r' = r
  · subst h1
    simp [State.mapRegs, setBit_getLsbD _ _ _ _ h]
  · have : r.val ≠ r'.val := fun q => h1 (Fin.ext q.symm)
    simp [State.mapRegs, h1, this]

/-! #### A register file is not touched by a write to another -/

@[simp] theorem State.setF_g (s : State) (r : FReg) (x : Elem) (r' : GReg) : (s.setF r x).g r' = s.g r' := rfl
@[simp] theorem State.setM_g (s : State) (r : MReg) (x : BitVec 128) (r' : GReg) : (s.setM r x).g r' = s.g r' := rfl
@[simp] theorem State.setMbit_g (s : State) (r : MReg) (e : Nat) (b : Bool) (r' : GReg) : (s.setMbit r e b).g r' = s.g r' := rfl
@[simp] theorem State.setV_g (s : State) (r : VReg) (e : Nat) (x : Elem) (r' : GReg) : (s.setV r e x).g r' = s.g r' := by
  unfold State.setV; split <;> rfl
@[simp] theorem State.setPc_g (s : State) (x : Word) (r' : GReg) : (s.setPc x).g r' = s.g r' := rfl
@[simp] theorem State.mapCtl_g (s : State) (f : Ctl → Ctl) (r' : GReg) : (s.mapCtl f).g r' = s.g r' := rfl
@[simp] theorem State.setG_f (s : State) (r : GReg) (x : Word) (r' : FReg) : (s.setG r x).f r' = s.f r' := by
  unfold State.setG; split <;> rfl
@[simp] theorem State.setV_f (s : State) (r : VReg) (e : Nat) (x : Elem) (r' : FReg) : (s.setV r e x).f r' = s.f r' := by
  unfold State.setV; split <;> rfl
@[simp] theorem State.setPc_f (s : State) (x : Word) (r' : FReg) : (s.setPc x).f r' = s.f r' := rfl
@[simp] theorem State.mapCtl_f (s : State) (f : Ctl → Ctl) (r' : FReg) : (s.mapCtl f).f r' = s.f r' := rfl
@[simp] theorem State.setG_v (s : State) (r : GReg) (x : Word) (r' : VReg) (e : Nat) : (s.setG r x).v r' e = s.v r' e := by
  unfold State.setG; split <;> rfl
@[simp] theorem State.setF_v (s : State) (r : FReg) (x : Elem) (r' : VReg) (e : Nat) : (s.setF r x).v r' e = s.v r' e := rfl
@[simp] theorem State.setMbit_v (s : State) (r : MReg) (n : Nat) (b : Bool) (r' : VReg) (e : Nat) :
    (s.setMbit r n b).v r' e = s.v r' e := rfl
@[simp] theorem State.mapCtl_v (s : State) (f : Ctl → Ctl) (r' : VReg) (e : Nat) : (s.mapCtl f).v r' e = s.v r' e := rfl
@[simp] theorem State.setG_mbit (s : State) (r : GReg) (x : Word) (r' : MReg) (e : Nat) : (s.setG r x).mbit r' e = s.mbit r' e := by
  unfold State.setG; split <;> rfl
@[simp] theorem State.setV_mbit (s : State) (r : VReg) (n : Nat) (x : Elem) (r' : MReg) (e : Nat) :
    (s.setV r n x).mbit r' e = s.mbit r' e := by unfold State.setV; split <;> rfl
@[simp] theorem State.mapCtl_mbit (s : State) (f : Ctl → Ctl) (r' : MReg) (e : Nat) : (s.mapCtl f).mbit r' e = s.mbit r' e := rfl

end Sys2Proof.Machine
end

