-- ==== Sys2Proof/Laws/Ops.lean ====
section
/-!
SUPPORT. What the shared operations do: waiting, retiring and trapping of a scalar instruction, trap entry and return, and
the run of a vector instruction from commit to completion.
-/

namespace Sys2Proof.Machine

open Sys2Proof

/-! ### Computations -/

theorem M.bind_ok {α β : Type} {m : M α} {f : α → M β} {s t : State} {a : α} (h : m s = .ok a t) : (m >>= f) s = f a t := by
  show EStateM.bind m f s = _
  simp [EStateM.bind, h]
theorem M.bind_error {α β : Type} {m : M α} {f : α → M β} {s t : State} {e : Stop} (h : m s = .error e t) :
    (m >>= f) s = .error e t := by
  show EStateM.bind m f s = _
  simp [EStateM.bind, h]
@[simp] theorem M.get_bind {β : Type} (f : State → M β) (s : State) : ((get : M State) >>= f) s = f s s := rfl
@[simp] theorem M.modify_bind {β : Type} (g : State → State) (f : PUnit → M β) (s : State) :
    ((modify g : M PUnit) >>= f) s = f ⟨⟩ (g s) := rfl
@[simp] theorem M.set_bind {β : Type} (t : State) (f : PUnit → M β) (s : State) : ((set t : M PUnit) >>= f) s = f ⟨⟩ t := rfl
@[simp] theorem M.pure_bind {α β : Type} (a : α) (f : α → M β) (s : State) : ((pure a : M α) >>= f) s = f a s := rfl
@[simp] theorem M.pure_run {α : Type} (a : α) (s : State) : (pure a : M α) s = .ok a s := rfl
@[simp] theorem M.modify_run (g : State → State) (s : State) : (modify g : M PUnit) s = .ok ⟨⟩ (g s) := rfl
@[simp] theorem M.set_run (t s : State) : (set t : M PUnit) s = .ok ⟨⟩ t := rfl
@[simp] theorem M.raise_run {α : Type} (c : Nat) (v : Word) (e : Nat) (s : State) :
    (raise c v e : M α) s = .error (.trap { code := c, val := v, elem := e }) s := rfl
@[simp] theorem M.wait_run {α : Type} (w : Wait) (s : State) : (waitFor w : M α) s = .error (.wait w) s := rfl

/-! ### Waiting for the queue (R40, R83) -/

/-- A scalar instruction whose registers no queue entry writes does not wait. -/
theorem hazard_ok {gs : List GReg} {fs : List FReg} {s : State}
    (h : ∀ e ∈ s.st.vq, ∀ x, scDest e.word = some x → (x.1 = false → ∀ r ∈ gs, r.val ≠ x.2) ∧ (x.1 = true → ∀ r ∈ fs, r.val ≠ x.2)) :
    hazard gs fs s = .ok () s := by
  unfold hazard
  simp only [M.get_bind]
  split
  · rfl
  · rw [if_neg]
    · rfl
    · rw [Bool.not_eq_true, List.any_eq_false]
      intro e he
      have h' := h e he
      split
      · next n hd =>
        have := (h' _ hd).1 rfl
        simpa using this
      · next n hd =>
        have := (h' _ hd).2 rfl
        simpa using this
      · simp

theorem hazard_nil {gs : List GReg} {fs : List FReg} {s : State} (h : s.st.vq = []) : hazard gs fs s = .ok () s :=
  hazard_ok (by simp [h])
theorem drained_nil {s : State} (h : s.st.vq = []) : drained s = .ok () s := by
  unfold drained; simp [h]
theorem memHazard_nil {va n : Nat} {s : State} (h : s.st.vq = []) : memHazard va n s = .ok () s := by
  unfold memHazard memHazardOf; simp [h]
theorem maskHazard_nil {m : MReg} {s : State} (h : s.st.vq = []) : maskHazard m s = .ok () s := by
  unfold maskHazard; simp [h]

/-! ### Completion of a scalar instruction -/

theorem State.resuming_none {s : State} (h : s.st.scalarLines = []) : s.resuming = s := by unfold State.resuming; simp [h]
theorem runJump_ok {s t : State} {m : M Word} {pc : Word} (h : m s.resuming = .ok pc t) : runJump s m = .next (t.retire pc) := by
  unfold runJump; rw [h]
theorem runScalar_ok {s t : State} {m : M Unit} (h : m s.resuming = .ok () t) : runScalar s m = .next (t.retire s.nextPc) := by
  unfold runScalar
  refine runJump_ok ?_
  rw [M.bind_ok h]; rfl
theorem runScalar_trap {s t : State} {m : M Unit} {x : Trap} (h : m s.resuming = .error (.trap x) t) :
    runScalar s m = .next ((t.flushLines.dropAnswers 0).takeTrap x
      (.scalar (if x.nextPc then t.st.pc + 4 else t.st.pc) none)) := by
  unfold runScalar runJump
  rw [M.bind_error h]
theorem runScalar_wait {s t : State} {m : M Unit} {w : Wait} (h : m s.resuming = .error (.wait w) t) : runScalar s m = .next (t.waiting w) := by
  unfold runScalar runJump
  rw [M.bind_error h]

/-- What a strand holds for a restart attempt is let go as the attempt ends (R371). -/
def State.holdLeft (s : State) : List TlbEntry := if s.st.restartPc.isSome then [] else s.st.hold

/-- Retiring with no request to count and no answer to forget. -/
theorem State.retire_quiet {s : State} (hl : s.st.lines = []) (hr : s.st.remote = []) (hb : s.st.begun = []) (pc : Word) :
    s.retire pc = { s with st := { s.st with
      pc, wait := .none, restartPc := none, hold := s.holdLeft, scalarNext := false, counted := [], scalarLines := [], entered := false } } := by
  unfold State.retire State.holdLeft State.dropAnswers
  simp only [hl, hr, hb, and_self, if_true]

/-- A fold keeps what each of its steps keeps. -/
theorem foldl_keeps {α β : Type} (P : β → Prop) (f : β → α → β) (l : List α) (b : β) (h0 : P b) (h : ∀ b a, P b → P (f b a)) :
    P (l.foldl f b) := by
  induction l generalizing b with
  | nil => exact h0
  | cons a r ih => exact ih (f b a) (h b a h0)

/-- Two states that differ in counters and translation caches at most. -/
def State.SameButUnits (s t : State) : Prop :=
  ∃ (d : Vector Die 4) (c : SMap Core) (x : Vector Sect 32), t = { s with dies := d, cores := c, sects := x }

theorem State.SameButUnits.refl (s : State) : s.SameButUnits s := ⟨_, _, _, rfl⟩
theorem State.SameButUnits.trans {s t u : State} (h : s.SameButUnits t) (k : t.SameButUnits u) : s.SameButUnits u := by
  obtain ⟨d, c, x, rfl⟩ := h; obtain ⟨d', c', x', rfl⟩ := k; exact ⟨d', c', x', rfl⟩
theorem State.SameButUnits.mapDie (s : State) (d : DieNo) (f : Die → Die) : s.SameButUnits (s.mapDie d f) := ⟨_, _, _, rfl⟩
theorem State.SameButUnits.mapCore (s : State) (c : Nat) (f : Core → Core) : s.SameButUnits (s.mapCore c f) := ⟨_, _, _, rfl⟩
theorem State.SameButUnits.mapSect (s : State) (d : Fin 32) (f : Sect → Sect) : s.SameButUnits (s.mapSect d f) := ⟨_, _, _, rfl⟩

/-- Counting lines changes counters, and takes the lines as counted. -/
theorem State.countLines_counts (s : State) : ∃ (d : Vector Die 4) (c : SMap Core) (x : Vector Sect 32) (q : List Nat),
    s.countLines = { s with dies := d, cores := c, sects := x, st := { s.st with lines := [], counted := q } } := by
  suffices h : ∃ t q, s.SameButUnits t ∧ s.countLines = { t with st := { t.st with lines := [], counted := q } } by
    obtain ⟨t, q, ⟨d, c, x, rfl⟩, h⟩ := h
    exact ⟨d, c, x, q, h⟩
  unfold State.countLines
  refine ⟨_, _, ?_, rfl⟩
  refine foldl_keeps (fun t => s.SameButUnits t) _ _ _ ?_ ?_
  · dsimp only
    split
    · exact .mapDie ..
    · exact .trans (.mapDie ..) (.mapCore ..)
  · intro t sec ht
    dsimp only
    split
    · exact ht
    · exact ht.trans (.mapSect ..)

/-- Counting the requests of an instruction changes counters only. -/
theorem State.flushLines_counts (s : State) : ∃ (d : Vector Die 4) (c : SMap Core) (x : Vector Sect 32),
    s.flushLines = { s with dies := d, cores := c, sects := x, st := { s.st with lines := [], counted := [] } } := by
  unfold State.flushLines
  dsimp only
  split
  · next hl => exact ⟨_, _, _, by rw [← hl]⟩
  · obtain ⟨d, c, x, q, h⟩ := s.countLines_counts
    exact ⟨d, c, x, by rw [h]⟩

/-- Forgetting what an instruction has used changes what the strand holds of its accesses. -/
theorem State.dropAnswers_frame (s : State) (owner : Nat) : ∃ (b : List Begun) (r : List Remote),
    s.dropAnswers owner = { s with st := { s.st with begun := b, remote := r } } := by
  unfold State.dropAnswers
  split
  · exact ⟨_, _, rfl⟩
  · exact ⟨_, _, rfl⟩

/-- Retiring moves the PC, ends waits, counts requests and forgets used answers: nothing else changes. -/
theorem State.retire_frame (s : State) (pc : Word) : ∃ (d : Vector Die 4) (c : SMap Core) (x : Vector Sect 32) (b : List Begun)
    (r : List Remote), s.retire pc = { s with dies := d, cores := c, sects := x, st := { s.st with
      lines := [], counted := [], scalarLines := [], begun := b, remote := r, pc, wait := .none, restartPc := none,
      hold := s.holdLeft, scalarNext := false, entered := false } } := by
  have h1 : ∃ t q, s.SameButUnits t ∧ (if s.st.lines = [] then s else s.countLines) =
      { t with st := { t.st with lines := [], counted := q } } := by
    split
    · next hl => exact ⟨s, s.st.counted, .refl s, by rw [← hl]⟩
    · obtain ⟨d, c, x, q, h⟩ := s.countLines_counts
      exact ⟨_, q, ⟨d, c, x, rfl⟩, h⟩
  obtain ⟨t, q, ⟨d, c, x, rfl⟩, h⟩ := h1
  obtain ⟨b, r, hd⟩ := State.dropAnswers_frame
    ({ s with dies := d, cores := c, sects := x, st := { s.st with lines := [], counted := q } } : State) 0
  unfold State.retire
  rw [h, hd]
  exact ⟨d, c, x, b, r, rfl⟩

/-! ### Vector instructions (R37–R40, R72, R73) -/

/-- The elements of an EL instruction, by an invariant: P j holds when the elements below j have been dealt with. -/
theorem elRun_ok (n : VEntry) (body : Nat → M Unit) (P : Nat → State → Prop) :
    ∀ (k e : Nat) (s : State), P e s →
      (∀ j u, e ≤ j → j < e + k → P j u → (u.mapCtl fun c => { c with vei := BitVec.ofNat 7 j }).isActive n j = false →
        P (j + 1) (u.mapCtl fun c => { c with vei := BitVec.ofNat 7 j })) →
      (∀ j u, e ≤ j → j < e + k → P j u → (u.mapCtl fun c => { c with vei := BitVec.ofNat 7 j }).isActive n j = true →
        ∃ w, body j (u.mapCtl fun c => { c with vei := BitVec.ofNat 7 j }) = .ok () w ∧
          P (j + 1) (w.dropAnswers 1)) →
      ∃ t, elRun n body k e s = .ok () t ∧ P (e + k) t := by
  intro k
  induction k with
  | zero => intro e s h _ _; exact ⟨s, rfl, h⟩
  | succ k ih =>
    intro e s h hno hyes
    have hno' := fun j u (h1 : e + 1 ≤ j) (h2 : j < e + 1 + k) => hno j u (by omega) (by omega)
    have hyes' := fun j u (h1 : e + 1 ≤ j) (h2 : j < e + 1 + k) => hyes j u (by omega) (by omega)
    have ee : e + (k + 1) = e + 1 + k := by omega
    rw [ee]
    unfold elRun
    simp only [M.modify_bind, M.get_bind]
    cases ha : (s.mapCtl fun c => { c with vei := BitVec.ofNat 7 e }).isActive n e with
    | false =>
      rw [if_neg Bool.false_ne_true]
      exact ih (e + 1) _ (hno e s (le_refl e) (by omega) h ha) hno' hyes'
    | true =>
      obtain ⟨w, hb, hp⟩ := hyes e s (le_refl e) (by omega) h ha
      rw [if_pos rfl, M.bind_ok hb]
      exact ih (e + 1) _ hp hno' hyes'

/-- The entry a vector instruction commits when it runs at once. -/
def State.entryNow (s : State) (k : VInfo) : VEntry := s.capture k false s.ir s.st.pc

/-- The state in which it runs: the PC has moved on, and an open capture has recorded it. -/
def State.committing (s : State) (k : VInfo) : State :=
  { s.record k with st := { (s.record k).st with pc := (s.record k).st.pc + 4, issue := some (s.entryNow k), restartPc := none, entered := false } }

/-- With an empty queue a vector instruction commits and runs in one step. -/
theorem runVec_now {s : State} {k : VInfo} {body : VEntry → M Unit} (hi : s.st.issue = none)
    (hm : ¬ (12 ≤ s.st.ctl.vms.toNat ∧ s.st.ctl.vms.toNat ≤ 14)) (hq : s.st.vq = []) (hg : s.st.rpl.going = false)
    (hd : s.myCore.dividing = false) (hc : s.commitOnly = false) (hp : s.st.pend.length < 32) :
    runVec s k body = runEntry (s.committing k) k body (s.entryNow k) := by
  unfold runVec
  rw [hi]
  simp only [hm, if_false, hazard_nil hq, hg, hq, hd, hc, hp, List.length_nil, Nat.zero_add, decide_true, Bool.false_eq_true, and_self, if_true]
  rfl

theorem State.record_closed {s : State} (k : VInfo) (h : s.st.rpl.left = 0) : s.record k = s := by
  unfold State.record; simp [h]

/-- No register that a stream may not stand for is bound. -/
theorem State.streamClash_none {s : State} {k : VInfo} {n : VEntry} (hd : ∀ r ∈ k.dst ++ k.plainSrc, s.boundSlot r = none) :
    s.streamClash k n = none := by
  unfold State.streamClash
  split
  · rfl
  · rw [List.find?_eq_none]
    intro r hr
    simp [hd r hr]

/-- An entry whose body completes has completed. -/
theorem runEntry_ok {s t : State} {k : VInfo} {body : VEntry → M Unit} {n : VEntry} (he : s.st.early = none)
    (hvl : ¬ (n.vl = 0 ∧ k.zeroVl = false)) (hd : ∀ r ∈ k.dst ++ k.plainSrc, s.boundSlot r = none)
    (h : body { n with note := some (n.note.getD (s.ringNote k n)) }
      (s.started k { n with note := some (n.note.getD (s.ringNote k n)) }) = .ok () t) :
    runEntry s k body n =
      .next (t.complete k { n with note := some (n.note.getD (s.ringNote k n)) } (n.note.getD (s.ringNote k n))) := by
  unfold runEntry
  rw [he]
  dsimp only
  unfold runHead
  dsimp only
  rw [if_neg hvl, State.streamClash_none hd]
  dsimp only
  rw [h]

/-- An instruction that VL = 0 makes void (R72) completes with nothing performed. -/
theorem runEntry_void {s : State} {k : VInfo} {body : VEntry → M Unit} {n : VEntry} (he : s.st.early = none) (hvl : n.vl = 0)
    (hz : k.zeroVl = false) :
    runEntry s k body n = .next ((s.started k { n with note := some (n.note.getD (s.ringNote k n)) }).complete k
      { n with note := some (n.note.getD (s.ringNote k n)) } { pop := 0, first := none, last := none }) := by
  unfold runEntry
  rw [he]
  dsimp only
  unfold runHead
  dsimp only
  rw [if_pos ⟨hvl, hz⟩]

theorem State.promote_nil {s : State} (h : s.st.vq = []) : s.promote = s := by unfold State.promote; simp [h]

/-- What a participant's request for a broadcast group changes: counters and the section's buffer. -/
theorem State.bcastAsk_units (s : State) (k : Stream) (n : Nat) : s.SameButUnits (s.bcastAsk k n) := by
  unfold State.bcastAsk
  split
  · exact .refl s
  · dsimp only
    split
    · exact .trans (.mapSect ..) (.mapDie ..)
    · split
      · exact .mapSect ..
      · exact .trans (.mapSect ..) (.mapDie ..)

/-- What the advance of the consumed slots changes: their positions, counters and section buffers. -/
theorem State.advance_frame (s : State) (rs : List VReg) (n : Nat) :
    ∃ (d : Vector Die 4) (c : SMap Core) (x : Vector Sect 32) (ks : Vector (Option Stream) 8),
      s.advance rs n = { s with dies := d, cores := c, sects := x, st := { s.st with k := ks } } := by
  unfold State.advance
  refine foldl_keeps (fun u : State => ∃ d c x ks, u = { s with dies := d, cores := c, sects := x, st := { s.st with k := ks } }) _ _ _
    ⟨s.dies, s.cores, s.sects, s.st.k, rfl⟩ ?_
  rintro u i ⟨d, c, x, ks, rfl⟩
  dsimp only
  split
  · next k' _ =>
    obtain ⟨d', c', x', h⟩ := State.bcastAsk_units
      ({ s with dies := d, cores := c, sects := x, st := { s.st with k := ks } } : State) k' n
    exact ⟨d', c', x', _, by rw [h]⟩
  · exact ⟨_, _, _, _, rfl⟩

/-- What counting the lines of an entry and forgetting its answers changes. -/
theorem State.settle_frame (s : State) : ∃ (d : Vector Die 4) (c : SMap Core) (x : Vector Sect 32) (b : List Begun) (r : List Remote),
    s.flushLines.dropAnswers 1 =
      { s with dies := d, cores := c, sects := x, st := { s.st with lines := [], counted := [], begun := b, remote := r } } := by
  obtain ⟨d, c, x, hf⟩ := s.flushLines_counts
  obtain ⟨b, r, hb⟩ := s.flushLines.dropAnswers_frame 1
  exact ⟨d, c, x, b, r, by rw [hb, hf]⟩

/-- What completion changes with nothing queued behind: VEI, the ring, stream positions, request counters, answers used, and the
translations a restart attempt held. -/
theorem State.complete_frame (s : State) (k : VInfo) (n : VEntry) (y : RingNote) (hq : s.st.vq = []) :
    ∃ (d : Vector Die 4) (c : SMap Core) (x : Vector Sect 32) (ks : Vector (Option Stream) 8) (ring : List DebugRec) (q : Nat)
      (b : List Begun) (r : List Remote) (hold : List TlbEntry), s.complete k n y = { s with dies := d, cores := c, sects := x, st := { s.st with
        ctl := { s.st.ctl with vei := 0 }, k := ks, ring := ring, seqv := q, begun := b, remote := r, hold := hold, lines := [], counted := [],
        issue := none, qwait := .none, scalarNext := false } } := by
  obtain ⟨d, c, x, ks, h⟩ : ∃ d c x ks, (if k.advance && n.vl != 0 then s.advance k.src n.vl else s) =
      { s with dies := d, cores := c, sects := x, st := { s.st with k := ks } } := by
    split
    · exact s.advance_frame ..
    · exact ⟨s.dies, s.cores, s.sects, s.st.k, rfl⟩
  unfold State.complete
  generalize (if k.advance && n.vl != 0 then s.advance k.src n.vl else s) = u at h
  obtain ⟨d', c', x', b, r, hs⟩ := (u.ringPut n y).settle_frame
  dsimp only
  rw [hs]
  subst h
  dsimp only
  split
  all_goals
    rw [State.promote_nil (by exact hq)]
    exact ⟨d', c', x', ks, _, _, b, r, _, rfl⟩

end Sys2Proof.Machine
end

