-- ==== Sys2Proof/Laws/Moves.lean ====
section
/-!
SUPPORT. How a computation can move the state, whether it completes, traps or waits: a relation between the state before and
the state after, composed along the computation. With it, what translating and placing an access changes.
-/

namespace Sys2Proof.Machine

open Sys2Proof

/-- Run from s, the computation ends in a state that P relates to s. -/
def MovesAt (P : State → State → Prop) {α : Type} (m : M α) (s : State) : Prop :=
  (∀ a t, m s = .ok a t → P s t) ∧ ∀ e t, m s = .error e t → P s t

/-- A relation that holds of a state and itself and that composes. -/
structure Preo (P : State → State → Prop) : Prop where
  refl : ∀ s, P s s
  trans : ∀ s t u, P s t → P t u → P s u

variable {P : State → State → Prop} {α β : Type}

theorem MovesAt.pure (h : Preo P) (a : α) (s : State) : MovesAt P (Pure.pure a : M α) s :=
  ⟨fun _ _ e => by injection e with _ e; exact e ▸ h.refl s, fun _ _ e => by cases e⟩
theorem MovesAt.raise (h : Preo P) (c : Nat) (v : Word) (e : Nat) (s : State) : MovesAt P (Machine.raise c v e : M α) s :=
  ⟨fun _ _ q => (by cases q), fun _ _ q => by injection q with _ q; exact q ▸ h.refl s⟩
theorem MovesAt.throw (h : Preo P) (x : Stop) (s : State) : MovesAt P (throw x : M α) s :=
  ⟨fun _ _ q => (by cases q), fun _ _ q => by injection q with _ q; exact q ▸ h.refl s⟩
theorem MovesAt.wait (h : Preo P) (w : Wait) (s : State) : MovesAt P (waitFor w : M α) s :=
  ⟨fun _ _ q => (by cases q), fun _ _ q => by injection q with _ q; exact q ▸ h.refl s⟩
theorem MovesAt.require (h : Preo P) (b : Bool) (c : Nat) (v : Word) (e : Nat) (s : State) :
    MovesAt P (Machine.require b c v e) s := by
  unfold Machine.require
  split
  · exact .pure h ..
  · exact .raise h ..
theorem MovesAt.set {s t : State} (h : P s t) : MovesAt P (MonadStateOf.set t : M PUnit) s :=
  ⟨fun _ _ e => by injection e with _ e; exact e ▸ h, fun _ _ e => by cases e⟩
theorem MovesAt.modify {s : State} {f : State → State} (h : P s (f s)) : MovesAt P (modify f : M PUnit) s :=
  ⟨fun _ _ e => by injection e with _ e; exact e ▸ h, fun _ _ e => by cases e⟩
theorem MovesAt.get (h : Preo P) (s : State) : MovesAt P (MonadState.get : M State) s :=
  ⟨fun _ _ e => by injection e with _ e; exact e ▸ h.refl s, fun _ _ e => by cases e⟩
theorem MovesAt.bind (h : Preo P) {m : M α} {f : α → M β} {s : State} (hm : MovesAt P m s)
    (hf : ∀ a t, m s = .ok a t → MovesAt P (f a) t) : MovesAt P (m >>= f) s := by
  cases hr : m s with
  | ok a t =>
    have ht := hm.1 a t hr
    have hx := hf a t hr
    refine ⟨fun b u e => ?_, fun b u e => ?_⟩
    · rw [M.bind_ok hr] at e; exact h.trans _ _ _ ht (hx.1 b u e)
    · rw [M.bind_ok hr] at e; exact h.trans _ _ _ ht (hx.2 b u e)
  | error x t =>
    have ht := hm.2 x t hr
    refine ⟨fun b u e => ?_, fun b u e => ?_⟩
    · rw [M.bind_error hr] at e; cases e
    · rw [M.bind_error hr] at e; injection e with _ e; exact e ▸ ht
/-- The state read is the state the rest runs from. -/
theorem MovesAt.get_bind {f : State → M β} {s : State} (hf : MovesAt P (f s) s) : MovesAt P ((MonadState.get : M State) >>= f) s := hf
theorem MovesAt.ite {c : Prop} [Decidable c] {m n : M α} {s : State} (h1 : c → MovesAt P m s) (h2 : ¬ c → MovesAt P n s) :
    MovesAt P (if c then m else n) s := by
  split
  · exact h1 ‹_›
  · exact h2 ‹_›

/-- A loop over a list moves the state as its body does. -/
theorem MovesAt.forIn (h : Preo P) {γ : Type} (l : List γ) (f : γ → β → M (ForInStep β)) :
    ∀ (b : β) (s : State), (∀ x b t, MovesAt P (f x b) t) → MovesAt P (ForIn.forIn l b f : M β) s := by
  induction l with
  | nil => intro b s _; exact .pure h b s
  | cons x r ih =>
    intro b s hf
    rw [List.forIn_cons]
    refine .bind h (hf x b s) fun a t _ => ?_
    cases a with
    | done b => exact .pure h b t
    | yield b => exact ih b t hf
theorem MovesAt.foldlM (h : Preo P) {γ : Type} (l : List γ) (f : β → γ → M β) :
    ∀ (b : β) (s : State), (∀ b x t, MovesAt P (f b x) t) → MovesAt P (l.foldlM f b) s := by
  induction l with
  | nil => intro b s _; exact .pure h b s
  | cons x r ih =>
    intro b s hf
    rw [List.foldlM_cons]
    exact .bind h (hf b x s) fun a t _ => ih a t hf

/-! ### Translating and placing (R398, R404, R90) -/

/-- What translation changes: translation caches with their miss counters, the walks posted to the host, the leaves it returned,
and the translations that a restart attempt holds. -/
def State.XlOnly (s t : State) : Prop :=
  ∃ (d : Vector Die 4) (c : SMap Core) (x : Vector Sect 32) (hp : List HostPost) (hl : List (Nat × Nat × Nat × Word × Bool))
    (hd : List TlbEntry),
    t = { s with dies := d, cores := c, sects := x, hostPosts := hp, hostLeaves := hl, st := { s.st with hold := hd } }

theorem State.XlOnly.preo : Preo State.XlOnly where
  refl s := ⟨_, _, _, _, _, _, rfl⟩
  trans := by
    rintro s t u ⟨d, c, x, hp, hl, hd, rfl⟩ ⟨d', c', x', hp', hl', hd', rfl⟩
    exact ⟨d', c', x', hp', hl', hd', rfl⟩

theorem State.XlOnly.ofUnits {s t : State} (h : s.SameButUnits t) : s.XlOnly t := by
  obtain ⟨d, c, x, rfl⟩ := h; exact ⟨d, c, x, _, _, s.st.hold, rfl⟩
theorem State.XlOnly.tlbFill (s : State) (core : Nat) (e : TlbEntry) : s.XlOnly (s.tlbFill core e) :=
  .ofUnits ⟨_, _, _, rfl⟩
theorem State.XlOnly.dropLeaf (s : State) (w r va : Nat) : s.XlOnly (s.dropLeaf w r va) := by
  unfold State.dropLeaf
  split
  · exact State.XlOnly.preo.refl s
  · exact ⟨_, _, _, _, _, s.st.hold, rfl⟩
theorem State.XlOnly.postWalk (s : State) (w r va a : Nat) : s.XlOnly (s.postWalk w r va a) := by
  unfold State.postWalk
  split
  · exact State.XlOnly.preo.refl s
  · exact ⟨_, _, _, _, _, s.st.hold, rfl⟩

theorem State.XlOnly.holdXl (s : State) (e : TlbEntry) : s.XlOnly (s.holdXl e) := by
  unfold State.holdXl
  split
  · exact State.XlOnly.preo.refl s
  · exact ⟨_, _, _, _, _, _, rfl⟩

theorem walkM_moves (who partn region : Nat) (acc : Acc) (va : Nat) (s : State) :
    MovesAt State.XlOnly (walkM who partn region acc va) s := by
  have h := State.XlOnly.preo
  unfold walkM
  refine .get_bind ?_
  split
  · split
    · exact .bind h (.set (.postWalk ..)) fun _ _ _ => .wait h ..
    · split
      · exact .wait h ..
      · exact .pure h ..
  · exact .pure h ..

theorem walkPlace_moves (who partn region core view : Nat) (mode : Mode) (acc : Acc) (va : Nat) (s : State) :
    MovesAt State.XlOnly (walkPlace who partn region core view mode acc va) s := by
  have h := State.XlOnly.preo
  unfold walkPlace
  refine .bind h (.modify ?_) fun _ t _ => ?_
  · split
    · exact .dropLeaf ..
    · exact h.refl s
  refine .get_bind ?_
  dsimp only
  split
  · exact .bind h (.wait h ..) fun _ _ q => (by cases q)
  refine .bind h (walkM_moves ..) fun r v _ => ?_
  split
  · exact .bind h (.modify (.dropLeaf ..)) fun _ _ _ => .pure h ..
  · refine .get_bind ?_
    split
    · exact .bind h (.set (h.trans _ _ _ (.dropLeaf ..) (.tlbFill ..))) fun _ _ _ => .pure h ..
    · exact .bind h (.set (.dropLeaf ..)) fun _ _ _ => .pure h ..

theorem leafM_moves (acc : Acc) (va : Nat) (s : State) : MovesAt State.XlOnly (leafM acc va) s := by
  have h := State.XlOnly.preo
  unfold leafM
  refine .get_bind ?_
  split
  · exact .pure h ..
  · split
    · exact .bind h (.set (.holdXl ..)) fun _ _ _ => .pure h ..
    · exact .bind h (.set (h.trans _ _ _ (.ofUnits (.mapCore ..)) (.holdXl ..))) fun _ _ _ => .pure h ..
    · dsimp only
      refine .bind h (.set ?_) fun _ _ _ => ?_
      · split
        · exact h.refl s
        · exact .ofUnits (.mapCore ..)
      · refine .bind h (walkPlace_moves ..) fun r t _ => ?_
        refine .get_bind ?_
        split
        · exact .bind h (.set (.holdXl ..)) fun _ _ _ => .pure h ..
        · exact .bind h (.pure h ..) fun _ _ _ => .pure h ..

theorem remapOk_moves (hd va e : Nat) (s : State) : MovesAt State.XlOnly (remapOk hd va e) s := by
  have h := State.XlOnly.preo
  unfold remapOk
  refine .get_bind ?_
  split
  · exact .raise h ..
  · exact .require h ..

theorem reach_moves (die : Nat) (homes : List Nat) (tv : Word) (e : Nat) (s : State) :
    MovesAt State.XlOnly (reach die homes tv e) s := by
  have h := State.XlOnly.preo
  unfold reach
  refine .get_bind ?_
  split
  · exact .raise h ..
  · split
    · exact .wait h ..
    · exact .pure h ..

theorem placePart_moves (acc : Acc) (rule : AlignRule) (al : Bool) (va0 va off n e : Nat) (s : State) :
    MovesAt State.XlOnly (placePart acc rule al va0 va off n e) s := by
  have h := State.XlOnly.preo
  unfold placePart
  refine .get_bind ?_
  dsimp only
  split
  · split
    · exact .raise h ..
    · split
      · exact .raise h ..
      · exact .pure h ..
  · refine .bind h (leafM_moves ..) fun a t _ => ?_
    split
    · exact .raise h ..
    · refine .get_bind ?_
      refine .ite (fun _ => .raise h ..) fun _ => ?_
      · split
        · exact .pure h ..
        · exact .bind h (reach_moves ..) fun _ _ _ => .pure h ..
        · refine .bind h (remapOk_moves ..) fun _ _ _ => .ite (fun _ => ?_) fun _ => ?_
          · exact .bind h (.wait h ..) fun _ _ q => (by cases q)
          · exact .pure h ..

theorem outOfRange_moves (acc : Acc) (va : Nat) (s : State) : MovesAt State.XlOnly (outOfRange acc va) s := by
  have h := State.XlOnly.preo
  unfold outOfRange
  refine .get_bind ?_
  split
  · exact .pure h ..
  · split
    · exact .pure h ..
    · refine .bind h (walkM_moves ..) fun r t _ => ?_
      split <;> exact .pure h ..

/-- Checking and placing an access changes what translation changes. -/
theorem placeM_moves (acc : Acc) (rule : AlignRule) (va n e : Nat) (s : State) : MovesAt State.XlOnly (placeM acc rule va n e) s := by
  have h := State.XlOnly.preo
  unfold placeM
  dsimp only
  split
  · exact .raise h ..
  · split
    · exact .bind h (outOfRange_moves ..) fun _ _ _ => .bind h (outOfRange_moves ..) fun _ _ _ => .raise h ..
    · refine .bind h (placePart_moves ..) fun a t _ => ?_
      split
      · exact .pure h ..
      · exact .bind h (placePart_moves ..) fun _ _ _ => .pure h ..

/-- Beginning an access, or going on with one begun, changes what translation changes. -/
theorem beginM_moves (acc : Acc) (rule : AlignRule) (va n e : Nat) (s : State) : MovesAt State.XlOnly (beginM acc rule va n e) s := by
  have h := State.XlOnly.preo
  unfold beginM
  refine .get_bind ?_
  dsimp only
  split
  · exact .pure h ..
  · exact .bind h (placeM_moves ..) fun _ _ _ => .pure h ..

end Sys2Proof.Machine
end

