-- ==== Sys2Proof/Laws/PerInstr.lean ====
section
/-!
SUPPORT. Decoding the word of a well-formed instruction gives the instruction back: one lemma for each constructor.
-/

namespace Sys2Proof.Laws

open Sys2Proof

/-! ### Operand fields -/

theorem gReg_val (d : GReg) : gReg d.val = .ok d := by simp [gReg]
theorem fReg_val (d : FReg) : fReg d.val = .ok d := by simp [fReg]
theorem vReg_val (d : VReg) : vReg d.val = .ok d := by simp [vReg]
theorem mReg_val (d : MReg) : mReg d.val = .ok d := by simp [mReg]
theorem slot_val (d : Slot) : slot d.val = .ok d := by simp [slot]
theorem tile_val (d : Fin 4) : tile d.val = .ok d := by simp [tile]
theorem lvl_val (d : Level) : lvl d.val = d := by ext; exact Nat.mod_eq_of_lt d.isLt
theorem fin8_val (d : Fin 8) : fin8 d.val = d := by ext; exact Nat.mod_eq_of_lt d.isLt
theorem ofNat_toNat6 (n : BitVec 6) : BitVec.ofNat 6 n.toNat = n := by simp
theorem ofNat_toNat14 (n : BitVec 14) : BitVec.ofNat 14 n.toNat = n := by simp
theorem ofNat_toNat20 (n : BitVec 20) : BitVec.ofNat 20 n.toNat = n := by simp
theorem ofNat_toNat26 (n : BitVec 26) : BitVec.ofNat 26 n.toNat = n := by simp
theorem code_lt_IntW (x : IntW) : x.code < 4 := by cases x <;> decide
theorem code_lt_ScF (x : ScF) : x.code < 2 := by cases x <;> decide
theorem code_lt_FpF (x : FpF) : x.code < 4 := by cases x <;> decide
theorem code_lt_CarryW (x : CarryW) : x.code < 2 := by cases x <;> decide
theorem code_lt_ElTy (x : ElTy) : x.code < 8 := by cases x with | int w => cases w <;> decide | fp f => cases f <;> decide
theorem code_lt_MxF (x : MxF) : x.code < 7 := by cases x <;> decide
theorem code_lt_ColOp (x : ColOp) : x.code < 6 := by cases x <;> decide
theorem code_lt_CvTy (x : CvTy) : x.code < 14 := by cases x <;> decide
theorem code_lt_Rnd (x : Rnd) : x.code < 6 := by cases x <;> decide
theorem code_lt_SplitN (x : SplitN) : x.code < 4 := by cases x <;> decide
theorem code_lt_CReg (x : CReg) : x.code < 11 := by cases x <;> decide
theorem code_lt_SReg (x : SReg) : x.code < 22 := by
  cases x with
  | diecfg d => show 16 + d.val < 22; omega
  | _ => decide
theorem code_lt_Counter (x : Counter) : x.code < 12 := by cases x <;> decide
theorem bit_lt_VISrc (x : VISrc) : x.bit < 2 := by cases x <;> first | exact Nat.zero_lt_two | exact Nat.one_lt_two
theorem bit_lt_VFSrc (x : VFSrc) : x.bit < 2 := by cases x <;> first | exact Nat.zero_lt_two | exact Nat.one_lt_two
theorem reg_lt_VISrc (x : VISrc) : x.reg < 64 := by cases x with | vec v => show v.val < 64; omega | sca g => show g.val < 64; omega
theorem reg_lt_VFSrc (x : VFSrc) : x.reg < 64 := by cases x with | vec v => show v.val < 64; omega | sca g => show g.val < 64; omega
theorem code_lt_RedDst (x : RedDst) : x.code < 8 := by
  cases x with
  | int w _ => have := code_lt_IntW w; show w.code < 8; omega
  | fp f _ => have := code_lt_FpF f; show 4 + f.code < 8; omega
theorem dst_lt_RedDst (x : RedDst) : x.dst < 64 := by cases x with | int _ v => show v.val < 64; omega | fp _ g => show g.val < 64; omega
theorem toNat_lt_Bool (b : Bool) : b.toNat < 2 := by cases b <;> decide

theorem IntW.ofCode_code (x : IntW) : IntW.ofCode x.code = x := by cases x <;> rfl
theorem ScF.ofCode_code (x : ScF) : ScF.ofCode x.code = x := by cases x <;> rfl
theorem FpF.ofCode_code (x : FpF) : FpF.ofCode x.code = x := by cases x <;> rfl
theorem CarryW.ofCode_code (x : CarryW) : CarryW.ofCode x.code = x := by cases x <;> rfl
theorem ElTy.ofCode_code (x : ElTy) : ElTy.ofCode x.code = x := by cases x with | int w => cases w <;> rfl | fp f => cases f <;> rfl
theorem intTy_code (x : IntW) : intTy x.code = .ok x := by cases x <;> rfl
theorem fpTy_code (x : FpF) : fpTy (4 + x.code) = .ok x := by cases x <;> rfl
theorem fpCode_code (x : FpF) : fpCode (4 + x.code) = .ok () := by cases x <;> rfl
theorem mxFmt_code (x : MxF) : mxFmt x.code = .ok x := by cases x <;> rfl
theorem colOp_code (x : ColOp) : colOp x.code = .ok x := by cases x <;> rfl
theorem cvTy_code (x : CvTy) : cvTy x.code = .ok x := by cases x <;> rfl
theorem cvFp_code (x : FpF) : cvFp (8 + x.code) = .ok x := by cases x <;> rfl
theorem rnd_code (x : Rnd) : rnd x.code = .ok x := by cases x <;> rfl
theorem splitN_code (x : SplitN) : splitN x.code = .ok x := by cases x <;> rfl
theorem cReg_code (x : CReg) : cReg x.code = .ok x := by cases x <;> rfl
theorem sReg_code (x : SReg) : sReg x.code = .ok x := by
  cases x with
  | diecfg d => match d with
    | 0 => rfl
    | 1 => rfl
    | 2 => rfl
    | 3 => rfl
  | _ => rfl
theorem counter_code (x : Counter) : counter x.code = .ok x := by cases x <;> rfl
theorem viSrc_reg (b : VISrc) : viSrc b.bit b.reg = .ok b := by
  cases b with
  | vec v => show VISrc.vec <$> vReg v.val = _; rw [vReg_val]; rfl
  | sca g => show VISrc.sca <$> gReg g.val = _; rw [gReg_val]; rfl
theorem vfSrc_reg (b : VFSrc) : vfSrc b.bit b.reg = .ok b := by
  cases b with
  | vec v => show VFSrc.vec <$> vReg v.val = _; rw [vReg_val]; rfl
  | sca g => show VFSrc.sca <$> fReg g.val = _; rw [fReg_val]; rfl
theorem redDst_code (r : RedDst) : redDst r.code r.dst = .ok r := by
  cases r with
  | int w d => cases w <;> (show RedDst.int _ <$> gReg d.val = _; rw [gReg_val]; rfl)
  | fp f d => cases f <;> (show RedDst.fp _ <$> fReg d.val = _; rw [fReg_val]; rfl)

/-! ### The family -/

/-- Decoding the word of a well-formed instruction gives it back, and the word has 32 bits. -/
def RoundTrip.Statement (i : Instr) : Prop := i.wf = true → decodeWord (encode i) = .ok i ∧ encode i < 2 ^ 32

/-- From the fields of a word to the word. -/
theorem rt {op p1 p2 x : Nat} {i : Instr} (h0 : op < 64) (h1 : p1 < 64) (h2 : p2 < 64) (hx : x < 16384)
    (h : decodeFields op p1 p2 x = .ok i) : decodeWord (pack op p1 p2 x) = .ok i ∧ pack op p1 p2 x < 2 ^ 32 := by
  refine ⟨?_, by unfold pack; omega⟩
  rw [← h]
  unfold decodeWord pack
  congr 1 <;> omega

theorem decodeFields_eng (p1 p2 x : Nat) : decodeFields 49 p1 p2 x = decEng p1 p2 x := rfl

theorem RoundTrip.add (d : GReg) (a : GReg) (b : GReg) : RoundTrip.Statement (.add d a b) := by
  intro _
  refine rt (op := 1) (p1 := d.val) (p2 := a.val) (x := b.val * 256) (by omega) (by omega) (by omega) (by omega) ?_
  show decInt (d.val) (a.val) ((b.val * 256) / 256) ((b.val * 256) % 256) = _
  rw [show (b.val * 256) / 256 = b.val by omega, show (b.val * 256) % 256 = 0 by omega]
  unfold decInt
  rw [gReg_val d, gReg_val a, gReg_val b]
  rfl

theorem RoundTrip.sub (d : GReg) (a : GReg) (b : GReg) : RoundTrip.Statement (.sub d a b) := by
  intro _
  refine rt (op := 1) (p1 := d.val) (p2 := a.val) (x := b.val * 256 + 1) (by omega) (by omega) (by omega) (by omega) ?_
  show decInt (d.val) (a.val) ((b.val * 256 + 1) / 256) ((b.val * 256 + 1) % 256) = _
  rw [show (b.val * 256 + 1) / 256 = b.val by omega, show (b.val * 256 + 1) % 256 = 1 by omega]
  unfold decInt
  rw [gReg_val d, gReg_val a, gReg_val b]
  rfl

theorem RoundTrip.and (d : GReg) (a : GReg) (b : GReg) : RoundTrip.Statement (.and d a b) := by
  intro _
  refine rt (op := 1) (p1 := d.val) (p2 := a.val) (x := b.val * 256 + 2) (by omega) (by omega) (by omega) (by omega) ?_
  show decInt (d.val) (a.val) ((b.val * 256 + 2) / 256) ((b.val * 256 + 2) % 256) = _
  rw [show (b.val * 256 + 2) / 256 = b.val by omega, show (b.val * 256 + 2) % 256 = 2 by omega]
  unfold decInt
  rw [gReg_val d, gReg_val a, gReg_val b]
  rfl

theorem RoundTrip.or (d : GReg) (a : GReg) (b : GReg) : RoundTrip.Statement (.or d a b) := by
  intro _
  refine rt (op := 1) (p1 := d.val) (p2 := a.val) (x := b.val * 256 + 3) (by omega) (by omega) (by omega) (by omega) ?_
  show decInt (d.val) (a.val) ((b.val * 256 + 3) / 256) ((b.val * 256 + 3) % 256) = _
  rw [show (b.val * 256 + 3) / 256 = b.val by omega, show (b.val * 256 + 3) % 256 = 3 by omega]
  unfold decInt
  rw [gReg_val d, gReg_val a, gReg_val b]
  rfl

theorem RoundTrip.xor (d : GReg) (a : GReg) (b : GReg) : RoundTrip.Statement (.xor d a b) := by
  intro _
  refine rt (op := 1) (p1 := d.val) (p2 := a.val) (x := b.val * 256 + 4) (by omega) (by omega) (by omega) (by omega) ?_
  show decInt (d.val) (a.val) ((b.val * 256 + 4) / 256) ((b.val * 256 + 4) % 256) = _
  rw [show (b.val * 256 + 4) / 256 = b.val by omega, show (b.val * 256 + 4) % 256 = 4 by omega]
  unfold decInt
  rw [gReg_val d, gReg_val a, gReg_val b]
  rfl

theorem RoundTrip.sll (d : GReg) (a : GReg) (b : GReg) : RoundTrip.Statement (.sll d a b) := by
  intro _
  refine rt (op := 1) (p1 := d.val) (p2 := a.val) (x := b.val * 256 + 5) (by omega) (by omega) (by omega) (by omega) ?_
  show decInt (d.val) (a.val) ((b.val * 256 + 5) / 256) ((b.val * 256 + 5) % 256) = _
  rw [show (b.val * 256 + 5) / 256 = b.val by omega, show (b.val * 256 + 5) % 256 = 5 by omega]
  unfold decInt
  rw [gReg_val d, gReg_val a, gReg_val b]
  rfl

theorem RoundTrip.srl (d : GReg) (a : GReg) (b : GReg) : RoundTrip.Statement (.srl d a b) := by
  intro _
  refine rt (op := 1) (p1 := d.val) (p2 := a.val) (x := b.val * 256 + 6) (by omega) (by omega) (by omega) (by omega) ?_
  show decInt (d.val) (a.val) ((b.val * 256 + 6) / 256) ((b.val * 256 + 6) % 256) = _
  rw [show (b.val * 256 + 6) / 256 = b.val by omega, show (b.val * 256 + 6) % 256 = 6 by omega]
  unfold decInt
  rw [gReg_val d, gReg_val a, gReg_val b]
  rfl

theorem RoundTrip.sra (d : GReg) (a : GReg) (b : GReg) : RoundTrip.Statement (.sra d a b) := by
  intro _
  refine rt (op := 1) (p1 := d.val) (p2 := a.val) (x := b.val * 256 + 7) (by omega) (by omega) (by omega) (by omega) ?_
  show decInt (d.val) (a.val) ((b.val * 256 + 7) / 256) ((b.val * 256 + 7) % 256) = _
  rw [show (b.val * 256 + 7) / 256 = b.val by omega, show (b.val * 256 + 7) % 256 = 7 by omega]
  unfold decInt
  rw [gReg_val d, gReg_val a, gReg_val b]
  rfl

theorem RoundTrip.slt (d : GReg) (a : GReg) (b : GReg) : RoundTrip.Statement (.slt d a b) := by
  intro _
  refine rt (op := 1) (p1 := d.val) (p2 := a.val) (x := b.val * 256 + 8) (by omega) (by omega) (by omega) (by omega) ?_
  show decInt (d.val) (a.val) ((b.val * 256 + 8) / 256) ((b.val * 256 + 8) % 256) = _
  rw [show (b.val * 256 + 8) / 256 = b.val by omega, show (b.val * 256 + 8) % 256 = 8 by omega]
  unfold decInt
  rw [gReg_val d, gReg_val a, gReg_val b]
  rfl

theorem RoundTrip.sltu (d : GReg) (a : GReg) (b : GReg) : RoundTrip.Statement (.sltu d a b) := by
  intro _
  refine rt (op := 1) (p1 := d.val) (p2 := a.val) (x := b.val * 256 + 9) (by omega) (by omega) (by omega) (by omega) ?_
  show decInt (d.val) (a.val) ((b.val * 256 + 9) / 256) ((b.val * 256 + 9) % 256) = _
  rw [show (b.val * 256 + 9) / 256 = b.val by omega, show (b.val * 256 + 9) % 256 = 9 by omega]
  unfold decInt
  rw [gReg_val d, gReg_val a, gReg_val b]
  rfl

theorem RoundTrip.min (d : GReg) (a : GReg) (b : GReg) : RoundTrip.Statement (.min d a b) := by
  intro _
  refine rt (op := 1) (p1 := d.val) (p2 := a.val) (x := b.val * 256 + 10) (by omega) (by omega) (by omega) (by omega) ?_
  show decInt (d.val) (a.val) ((b.val * 256 + 10) / 256) ((b.val * 256 + 10) % 256) = _
  rw [show (b.val * 256 + 10) / 256 = b.val by omega, show (b.val * 256 + 10) % 256 = 10 by omega]
  unfold decInt
  rw [gReg_val d, gReg_val a, gReg_val b]
  rfl

theorem RoundTrip.max (d : GReg) (a : GReg) (b : GReg) : RoundTrip.Statement (.max d a b) := by
  intro _
  refine rt (op := 1) (p1 := d.val) (p2 := a.val) (x := b.val * 256 + 11) (by omega) (by omega) (by omega) (by omega) ?_
  show decInt (d.val) (a.val) ((b.val * 256 + 11) / 256) ((b.val * 256 + 11) % 256) = _
  rw [show (b.val * 256 + 11) / 256 = b.val by omega, show (b.val * 256 + 11) % 256 = 11 by omega]
  unfold decInt
  rw [gReg_val d, gReg_val a, gReg_val b]
  rfl

theorem RoundTrip.minu (d : GReg) (a : GReg) (b : GReg) : RoundTrip.Statement (.minu d a b) := by
  intro _
  refine rt (op := 1) (p1 := d.val) (p2 := a.val) (x := b.val * 256 + 12) (by omega) (by omega) (by omega) (by omega) ?_
  show decInt (d.val) (a.val) ((b.val * 256 + 12) / 256) ((b.val * 256 + 12) % 256) = _
  rw [show (b.val * 256 + 12) / 256 = b.val by omega, show (b.val * 256 + 12) % 256 = 12 by omega]
  unfold decInt
  rw [gReg_val d, gReg_val a, gReg_val b]
  rfl

theorem RoundTrip.maxu (d : GReg) (a : GReg) (b : GReg) : RoundTrip.Statement (.maxu d a b) := by
  intro _
  refine rt (op := 1) (p1 := d.val) (p2 := a.val) (x := b.val * 256 + 13) (by omega) (by omega) (by omega) (by omega) ?_
  show decInt (d.val) (a.val) ((b.val * 256 + 13) / 256) ((b.val * 256 + 13) % 256) = _
  rw [show (b.val * 256 + 13) / 256 = b.val by omega, show (b.val * 256 + 13) % 256 = 13 by omega]
  unfold decInt
  rw [gReg_val d, gReg_val a, gReg_val b]
  rfl

theorem RoundTrip.mul (d : GReg) (a : GReg) (b : GReg) : RoundTrip.Statement (.mul d a b) := by
  intro _
  refine rt (op := 1) (p1 := d.val) (p2 := a.val) (x := b.val * 256 + 14) (by omega) (by omega) (by omega) (by omega) ?_
  show decInt (d.val) (a.val) ((b.val * 256 + 14) / 256) ((b.val * 256 + 14) % 256) = _
  rw [show (b.val * 256 + 14) / 256 = b.val by omega, show (b.val * 256 + 14) % 256 = 14 by omega]
  unfold decInt
  rw [gReg_val d, gReg_val a, gReg_val b]
  rfl

theorem RoundTrip.mulh (d : GReg) (a : GReg) (b : GReg) : RoundTrip.Statement (.mulh d a b) := by
  intro _
  refine rt (op := 1) (p1 := d.val) (p2 := a.val) (x := b.val * 256 + 15) (by omega) (by omega) (by omega) (by omega) ?_
  show decInt (d.val) (a.val) ((b.val * 256 + 15) / 256) ((b.val * 256 + 15) % 256) = _
  rw [show (b.val * 256 + 15) / 256 = b.val by omega, show (b.val * 256 + 15) % 256 = 15 by omega]
  unfold decInt
  rw [gReg_val d, gReg_val a, gReg_val b]
  rfl

theorem RoundTrip.mulhu (d : GReg) (a : GReg) (b : GReg) : RoundTrip.Statement (.mulhu d a b) := by
  intro _
  refine rt (op := 1) (p1 := d.val) (p2 := a.val) (x := b.val * 256 + 16) (by omega) (by omega) (by omega) (by omega) ?_
  show decInt (d.val) (a.val) ((b.val * 256 + 16) / 256) ((b.val * 256 + 16) % 256) = _
  rw [show (b.val * 256 + 16) / 256 = b.val by omega, show (b.val * 256 + 16) % 256 = 16 by omega]
  unfold decInt
  rw [gReg_val d, gReg_val a, gReg_val b]
  rfl

theorem RoundTrip.div (d : GReg) (a : GReg) (b : GReg) : RoundTrip.Statement (.div d a b) := by
  intro _
  refine rt (op := 1) (p1 := d.val) (p2 := a.val) (x := b.val * 256 + 17) (by omega) (by omega) (by omega) (by omega) ?_
  show decInt (d.val) (a.val) ((b.val * 256 + 17) / 256) ((b.val * 256 + 17) % 256) = _
  rw [show (b.val * 256 + 17) / 256 = b.val by omega, show (b.val * 256 + 17) % 256 = 17 by omega]
  unfold decInt
  rw [gReg_val d, gReg_val a, gReg_val b]
  rfl

theorem RoundTrip.divu (d : GReg) (a : GReg) (b : GReg) : RoundTrip.Statement (.divu d a b) := by
  intro _
  refine rt (op := 1) (p1 := d.val) (p2 := a.val) (x := b.val * 256 + 18) (by omega) (by omega) (by omega) (by omega) ?_
  show decInt (d.val) (a.val) ((b.val * 256 + 18) / 256) ((b.val * 256 + 18) % 256) = _
  rw [show (b.val * 256 + 18) / 256 = b.val by omega, show (b.val * 256 + 18) % 256 = 18 by omega]
  unfold decInt
  rw [gReg_val d, gReg_val a, gReg_val b]
  rfl

theorem RoundTrip.rem (d : GReg) (a : GReg) (b : GReg) : RoundTrip.Statement (.rem d a b) := by
  intro _
  refine rt (op := 1) (p1 := d.val) (p2 := a.val) (x := b.val * 256 + 19) (by omega) (by omega) (by omega) (by omega) ?_
  show decInt (d.val) (a.val) ((b.val * 256 + 19) / 256) ((b.val * 256 + 19) % 256) = _
  rw [show (b.val * 256 + 19) / 256 = b.val by omega, show (b.val * 256 + 19) % 256 = 19 by omega]
  unfold decInt
  rw [gReg_val d, gReg_val a, gReg_val b]
  rfl

theorem RoundTrip.remu (d : GReg) (a : GReg) (b : GReg) : RoundTrip.Statement (.remu d a b) := by
  intro _
  refine rt (op := 1) (p1 := d.val) (p2 := a.val) (x := b.val * 256 + 20) (by omega) (by omega) (by omega) (by omega) ?_
  show decInt (d.val) (a.val) ((b.val * 256 + 20) / 256) ((b.val * 256 + 20) % 256) = _
  rw [show (b.val * 256 + 20) / 256 = b.val by omega, show (b.val * 256 + 20) % 256 = 20 by omega]
  unfold decInt
  rw [gReg_val d, gReg_val a, gReg_val b]
  rfl

theorem RoundTrip.clz (d : GReg) (a : GReg) : RoundTrip.Statement (.clz d a) := by
  intro _
  refine rt (op := 1) (p1 := d.val) (p2 := a.val) (x := 21) (by omega) (by omega) (by omega) (by omega) ?_
  show decInt (d.val) (a.val) ((21) / 256) ((21) % 256) = _
  unfold decInt
  rw [gReg_val d, gReg_val a]
  rfl

theorem RoundTrip.popc (d : GReg) (a : GReg) : RoundTrip.Statement (.popc d a) := by
  intro _
  refine rt (op := 1) (p1 := d.val) (p2 := a.val) (x := 22) (by omega) (by omega) (by omega) (by omega) ?_
  show decInt (d.val) (a.val) ((22) / 256) ((22) % 256) = _
  unfold decInt
  rw [gReg_val d, gReg_val a]
  rfl

theorem RoundTrip.slli (d : GReg) (a : GReg) (n : BitVec 6) : RoundTrip.Statement (.slli d a n) := by
  intro _
  refine rt (op := 1) (p1 := d.val) (p2 := a.val) (x := n.toNat * 256 + 24) (by omega) (by omega) (by omega) (by omega) ?_
  show decInt (d.val) (a.val) ((n.toNat * 256 + 24) / 256) ((n.toNat * 256 + 24) % 256) = _
  rw [show (n.toNat * 256 + 24) / 256 = n.toNat by omega, show (n.toNat * 256 + 24) % 256 = 24 by omega]
  unfold decInt
  rw [gReg_val d, gReg_val a, ofNat_toNat6]
  rfl

theorem RoundTrip.srli (d : GReg) (a : GReg) (n : BitVec 6) : RoundTrip.Statement (.srli d a n) := by
  intro _
  refine rt (op := 1) (p1 := d.val) (p2 := a.val) (x := n.toNat * 256 + 25) (by omega) (by omega) (by omega) (by omega) ?_
  show decInt (d.val) (a.val) ((n.toNat * 256 + 25) / 256) ((n.toNat * 256 + 25) % 256) = _
  rw [show (n.toNat * 256 + 25) / 256 = n.toNat by omega, show (n.toNat * 256 + 25) % 256 = 25 by omega]
  unfold decInt
  rw [gReg_val d, gReg_val a, ofNat_toNat6]
  rfl

theorem RoundTrip.srai (d : GReg) (a : GReg) (n : BitVec 6) : RoundTrip.Statement (.srai d a n) := by
  intro _
  refine rt (op := 1) (p1 := d.val) (p2 := a.val) (x := n.toNat * 256 + 26) (by omega) (by omega) (by omega) (by omega) ?_
  show decInt (d.val) (a.val) ((n.toNat * 256 + 26) / 256) ((n.toNat * 256 + 26) % 256) = _
  rw [show (n.toNat * 256 + 26) / 256 = n.toNat by omega, show (n.toNat * 256 + 26) % 256 = 26 by omega]
  unfold decInt
  rw [gReg_val d, gReg_val a, ofNat_toNat6]
  rfl

theorem RoundTrip.addi (d : GReg) (a : GReg) (i : BitVec 14) : RoundTrip.Statement (.addi d a i) := by
  intro _
  refine rt (op := 2) (p1 := d.val) (p2 := a.val) (x := i.toNat) (by omega) (by omega) (by omega) (by omega) ?_
  show (decodeFields 2 (d.val) (a.val) (i.toNat)) = _
  unfold decodeFields
  rw [gReg_val d, gReg_val a, ofNat_toNat14]
  rfl

theorem RoundTrip.andi (d : GReg) (a : GReg) (i : BitVec 14) : RoundTrip.Statement (.andi d a i) := by
  intro _
  refine rt (op := 3) (p1 := d.val) (p2 := a.val) (x := i.toNat) (by omega) (by omega) (by omega) (by omega) ?_
  show (decodeFields 3 (d.val) (a.val) (i.toNat)) = _
  unfold decodeFields
  rw [gReg_val d, gReg_val a, ofNat_toNat14]
  rfl

theorem RoundTrip.ori (d : GReg) (a : GReg) (i : BitVec 14) : RoundTrip.Statement (.ori d a i) := by
  intro _
  refine rt (op := 4) (p1 := d.val) (p2 := a.val) (x := i.toNat) (by omega) (by omega) (by omega) (by omega) ?_
  show (decodeFields 4 (d.val) (a.val) (i.toNat)) = _
  unfold decodeFields
  rw [gReg_val d, gReg_val a, ofNat_toNat14]
  rfl

theorem RoundTrip.xori (d : GReg) (a : GReg) (i : BitVec 14) : RoundTrip.Statement (.xori d a i) := by
  intro _
  refine rt (op := 5) (p1 := d.val) (p2 := a.val) (x := i.toNat) (by omega) (by omega) (by omega) (by omega) ?_
  show (decodeFields 5 (d.val) (a.val) (i.toNat)) = _
  unfold decodeFields
  rw [gReg_val d, gReg_val a, ofNat_toNat14]
  rfl

theorem RoundTrip.slti (d : GReg) (a : GReg) (i : BitVec 14) : RoundTrip.Statement (.slti d a i) := by
  intro _
  refine rt (op := 6) (p1 := d.val) (p2 := a.val) (x := i.toNat) (by omega) (by omega) (by omega) (by omega) ?_
  show (decodeFields 6 (d.val) (a.val) (i.toNat)) = _
  unfold decodeFields
  rw [gReg_val d, gReg_val a, ofNat_toNat14]
  rfl

theorem RoundTrip.sltiu (d : GReg) (a : GReg) (i : BitVec 14) : RoundTrip.Statement (.sltiu d a i) := by
  intro _
  refine rt (op := 7) (p1 := d.val) (p2 := a.val) (x := i.toNat) (by omega) (by omega) (by omega) (by omega) ?_
  show (decodeFields 7 (d.val) (a.val) (i.toNat)) = _
  unfold decodeFields
  rw [gReg_val d, gReg_val a, ofNat_toNat14]
  rfl

theorem RoundTrip.lhi (d : GReg) (i : BitVec 20) : RoundTrip.Statement (.lhi d i) := by
  intro h
  refine rt (op := 8) (p1 := d.val) (p2 := (i.toNat) / 16384) (x := (i.toNat) % 16384) (by omega) (by omega) (by omega) (by omega) ?_
  show decodeFields 8 _ _ _ = _
  unfold decodeFields
  rw [gReg_val, show i.toNat / 16384 * 16384 + i.toNat % 16384 = i.toNat by omega, ofNat_toNat20]
  rfl

theorem RoundTrip.adpc (d : GReg) (i : BitVec 20) : RoundTrip.Statement (.adpc d i) := by
  intro h
  refine rt (op := 9) (p1 := d.val) (p2 := (i.toNat) / 16384) (x := (i.toNat) % 16384) (by omega) (by omega) (by omega) (by omega) ?_
  show decodeFields 9 _ _ _ = _
  unfold decodeFields
  rw [gReg_val, show i.toNat / 16384 * 16384 + i.toNat % 16384 = i.toNat by omega, ofNat_toNat20]
  rfl

theorem RoundTrip.ldB (d : GReg) (a : GReg) (i : BitVec 14) : RoundTrip.Statement (.ldB d a i) := by
  intro _
  refine rt (op := 10) (p1 := d.val) (p2 := a.val) (x := i.toNat) (by omega) (by omega) (by omega) (by omega) ?_
  show (decodeFields 10 (d.val) (a.val) (i.toNat)) = _
  unfold decodeFields
  rw [gReg_val d, gReg_val a, ofNat_toNat14]
  rfl

theorem RoundTrip.ldBu (d : GReg) (a : GReg) (i : BitVec 14) : RoundTrip.Statement (.ldBu d a i) := by
  intro _
  refine rt (op := 11) (p1 := d.val) (p2 := a.val) (x := i.toNat) (by omega) (by omega) (by omega) (by omega) ?_
  show (decodeFields 11 (d.val) (a.val) (i.toNat)) = _
  unfold decodeFields
  rw [gReg_val d, gReg_val a, ofNat_toNat14]
  rfl

theorem RoundTrip.ldH (d : GReg) (a : GReg) (i : BitVec 14) : RoundTrip.Statement (.ldH d a i) := by
  intro _
  refine rt (op := 12) (p1 := d.val) (p2 := a.val) (x := i.toNat) (by omega) (by omega) (by omega) (by omega) ?_
  show (decodeFields 12 (d.val) (a.val) (i.toNat)) = _
  unfold decodeFields
  rw [gReg_val d, gReg_val a, ofNat_toNat14]
  rfl

theorem RoundTrip.ldHu (d : GReg) (a : GReg) (i : BitVec 14) : RoundTrip.Statement (.ldHu d a i) := by
  intro _
  refine rt (op := 13) (p1 := d.val) (p2 := a.val) (x := i.toNat) (by omega) (by omega) (by omega) (by omega) ?_
  show (decodeFields 13 (d.val) (a.val) (i.toNat)) = _
  unfold decodeFields
  rw [gReg_val d, gReg_val a, ofNat_toNat14]
  rfl

theorem RoundTrip.ldW (d : GReg) (a : GReg) (i : BitVec 14) : RoundTrip.Statement (.ldW d a i) := by
  intro _
  refine rt (op := 14) (p1 := d.val) (p2 := a.val) (x := i.toNat) (by omega) (by omega) (by omega) (by omega) ?_
  show (decodeFields 14 (d.val) (a.val) (i.toNat)) = _
  unfold decodeFields
  rw [gReg_val d, gReg_val a, ofNat_toNat14]
  rfl

theorem RoundTrip.ldWu (d : GReg) (a : GReg) (i : BitVec 14) : RoundTrip.Statement (.ldWu d a i) := by
  intro _
  refine rt (op := 15) (p1 := d.val) (p2 := a.val) (x := i.toNat) (by omega) (by omega) (by omega) (by omega) ?_
  show (decodeFields 15 (d.val) (a.val) (i.toNat)) = _
  unfold decodeFields
  rw [gReg_val d, gReg_val a, ofNat_toNat14]
  rfl

theorem RoundTrip.ldL (d : GReg) (a : GReg) (i : BitVec 14) : RoundTrip.Statement (.ldL d a i) := by
  intro _
  refine rt (op := 16) (p1 := d.val) (p2 := a.val) (x := i.toNat) (by omega) (by omega) (by omega) (by omega) ?_
  show (decodeFields 16 (d.val) (a.val) (i.toNat)) = _
  unfold decodeFields
  rw [gReg_val d, gReg_val a, ofNat_toNat14]
  rfl

theorem RoundTrip.stB (s : GReg) (a : GReg) (i : BitVec 14) : RoundTrip.Statement (.stB s a i) := by
  intro _
  refine rt (op := 17) (p1 := s.val) (p2 := a.val) (x := i.toNat) (by omega) (by omega) (by omega) (by omega) ?_
  show (decodeFields 17 (s.val) (a.val) (i.toNat)) = _
  unfold decodeFields
  rw [gReg_val s, gReg_val a, ofNat_toNat14]
  rfl

theorem RoundTrip.stH (s : GReg) (a : GReg) (i : BitVec 14) : RoundTrip.Statement (.stH s a i) := by
  intro _
  refine rt (op := 18) (p1 := s.val) (p2 := a.val) (x := i.toNat) (by omega) (by omega) (by omega) (by omega) ?_
  show (decodeFields 18 (s.val) (a.val) (i.toNat)) = _
  unfold decodeFields
  rw [gReg_val s, gReg_val a, ofNat_toNat14]
  rfl

theorem RoundTrip.stW (s : GReg) (a : GReg) (i : BitVec 14) : RoundTrip.Statement (.stW s a i) := by
  intro _
  refine rt (op := 19) (p1 := s.val) (p2 := a.val) (x := i.toNat) (by omega) (by omega) (by omega) (by omega) ?_
  show (decodeFields 19 (s.val) (a.val) (i.toNat)) = _
  unfold decodeFields
  rw [gReg_val s, gReg_val a, ofNat_toNat14]
  rfl

theorem RoundTrip.stL (s : GReg) (a : GReg) (i : BitVec 14) : RoundTrip.Statement (.stL s a i) := by
  intro _
  refine rt (op := 20) (p1 := s.val) (p2 := a.val) (x := i.toNat) (by omega) (by omega) (by omega) (by omega) ?_
  show (decodeFields 20 (s.val) (a.val) (i.toNat)) = _
  unfold decodeFields
  rw [gReg_val s, gReg_val a, ofNat_toNat14]
  rfl

theorem RoundTrip.fld (wd : ScF) (f : FReg) (a : GReg) (i : BitVec 14) : RoundTrip.Statement (.fld wd f a i) := by
  intro h
  have := code_lt_ScF wd
  refine rt (op := 21) (p1 := wd.code * 32 + f.val) (p2 := a.val) (x := i.toNat) (by omega) (by omega) (by omega) (by omega) ?_
  show decodeFields 21 _ _ _ = _
  unfold decodeFields
  rw [show (wd.code * 32 + f.val) / 16 % 2 = 0 by omega, show (wd.code * 32 + f.val) / 32 = wd.code by omega, show (wd.code * 32 + f.val) % 16 = f.val by omega, ScF.ofCode_code, fReg_val f, gReg_val a, ofNat_toNat14]
  rfl

theorem RoundTrip.fst (wd : ScF) (f : FReg) (a : GReg) (i : BitVec 14) : RoundTrip.Statement (.fst wd f a i) := by
  intro h
  have := code_lt_ScF wd
  refine rt (op := 22) (p1 := wd.code * 32 + f.val) (p2 := a.val) (x := i.toNat) (by omega) (by omega) (by omega) (by omega) ?_
  show decodeFields 22 _ _ _ = _
  unfold decodeFields
  rw [show (wd.code * 32 + f.val) / 16 % 2 = 0 by omega, show (wd.code * 32 + f.val) / 32 = wd.code by omega, show (wd.code * 32 + f.val) % 16 = f.val by omega, ScF.ofCode_code, fReg_val f, gReg_val a, ofNat_toNat14]
  rfl

theorem RoundTrip.fadd (d : FReg) (a : FReg) (b : FReg) (wd : ScF) : RoundTrip.Statement (.fadd d a b wd) := by
  intro _
  have := code_lt_ScF wd
  refine rt (op := 23) (p1 := d.val) (p2 := a.val) (x := b.val * 256 + wd.code) (by omega) (by omega) (by omega) (by omega) ?_
  show decFpr (d.val) (a.val) ((b.val * 256 + wd.code) / 256) ((b.val * 256 + wd.code) % 256) = _
  rw [show (b.val * 256 + wd.code) / 256 = b.val by omega, show (b.val * 256 + wd.code) % 256 = wd.code by omega]
  unfold decFpr
  rw [show (wd.code) / 2 = 0 by omega, show (wd.code) % 2 = wd.code by omega, fReg_val d, fReg_val a, fReg_val b, ScF.ofCode_code]
  rfl

theorem RoundTrip.fsub (d : FReg) (a : FReg) (b : FReg) (wd : ScF) : RoundTrip.Statement (.fsub d a b wd) := by
  intro _
  have := code_lt_ScF wd
  refine rt (op := 23) (p1 := d.val) (p2 := a.val) (x := b.val * 256 + wd.code + 2) (by omega) (by omega) (by omega) (by omega) ?_
  show decFpr (d.val) (a.val) ((b.val * 256 + wd.code + 2) / 256) ((b.val * 256 + wd.code + 2) % 256) = _
  rw [show (b.val * 256 + wd.code + 2) / 256 = b.val by omega, show (b.val * 256 + wd.code + 2) % 256 = wd.code + 2 by omega]
  unfold decFpr
  rw [show (wd.code + 2) / 2 = 1 by omega, show (wd.code + 2) % 2 = wd.code by omega, fReg_val d, fReg_val a, fReg_val b, ScF.ofCode_code]
  rfl

theorem RoundTrip.fmul (d : FReg) (a : FReg) (b : FReg) (wd : ScF) : RoundTrip.Statement (.fmul d a b wd) := by
  intro _
  have := code_lt_ScF wd
  refine rt (op := 23) (p1 := d.val) (p2 := a.val) (x := b.val * 256 + wd.code + 4) (by omega) (by omega) (by omega) (by omega) ?_
  show decFpr (d.val) (a.val) ((b.val * 256 + wd.code + 4) / 256) ((b.val * 256 + wd.code + 4) % 256) = _
  rw [show (b.val * 256 + wd.code + 4) / 256 = b.val by omega, show (b.val * 256 + wd.code + 4) % 256 = wd.code + 4 by omega]
  unfold decFpr
  rw [show (wd.code + 4) / 2 = 2 by omega, show (wd.code + 4) % 2 = wd.code by omega, fReg_val d, fReg_val a, fReg_val b, ScF.ofCode_code]
  rfl

theorem RoundTrip.fdiv (d : FReg) (a : FReg) (b : FReg) (wd : ScF) : RoundTrip.Statement (.fdiv d a b wd) := by
  intro _
  have := code_lt_ScF wd
  refine rt (op := 23) (p1 := d.val) (p2 := a.val) (x := b.val * 256 + wd.code + 6) (by omega) (by omega) (by omega) (by omega) ?_
  show decFpr (d.val) (a.val) ((b.val * 256 + wd.code + 6) / 256) ((b.val * 256 + wd.code + 6) % 256) = _
  rw [show (b.val * 256 + wd.code + 6) / 256 = b.val by omega, show (b.val * 256 + wd.code + 6) % 256 = wd.code + 6 by omega]
  unfold decFpr
  rw [show (wd.code + 6) / 2 = 3 by omega, show (wd.code + 6) % 2 = wd.code by omega, fReg_val d, fReg_val a, fReg_val b, ScF.ofCode_code]
  rfl

theorem RoundTrip.fsqrt (d : FReg) (a : FReg) (wd : ScF) : RoundTrip.Statement (.fsqrt d a wd) := by
  intro _
  have := code_lt_ScF wd
  refine rt (op := 23) (p1 := d.val) (p2 := a.val) (x := wd.code + 8) (by omega) (by omega) (by omega) (by omega) ?_
  show decFpr (d.val) (a.val) ((wd.code + 8) / 256) ((wd.code + 8) % 256) = _
  rw [show (wd.code + 8) / 256 = 0 by omega, show (wd.code + 8) % 256 = wd.code + 8 by omega]
  unfold decFpr
  rw [show (wd.code + 8) / 2 = 4 by omega, show (wd.code + 8) % 2 = wd.code by omega, fReg_val d, fReg_val a, ScF.ofCode_code]
  rfl

theorem RoundTrip.fmin (d : FReg) (a : FReg) (b : FReg) (wd : ScF) : RoundTrip.Statement (.fmin d a b wd) := by
  intro _
  have := code_lt_ScF wd
  refine rt (op := 23) (p1 := d.val) (p2 := a.val) (x := b.val * 256 + wd.code + 10) (by omega) (by omega) (by omega) (by omega) ?_
  show decFpr (d.val) (a.val) ((b.val * 256 + wd.code + 10) / 256) ((b.val * 256 + wd.code + 10) % 256) = _
  rw [show (b.val * 256 + wd.code + 10) / 256 = b.val by omega, show (b.val * 256 + wd.code + 10) % 256 = wd.code + 10 by omega]
  unfold decFpr
  rw [show (wd.code + 10) / 2 = 5 by omega, show (wd.code + 10) % 2 = wd.code by omega, fReg_val d, fReg_val a, fReg_val b, ScF.ofCode_code]
  rfl

theorem RoundTrip.fmax (d : FReg) (a : FReg) (b : FReg) (wd : ScF) : RoundTrip.Statement (.fmax d a b wd) := by
  intro _
  have := code_lt_ScF wd
  refine rt (op := 23) (p1 := d.val) (p2 := a.val) (x := b.val * 256 + wd.code + 12) (by omega) (by omega) (by omega) (by omega) ?_
  show decFpr (d.val) (a.val) ((b.val * 256 + wd.code + 12) / 256) ((b.val * 256 + wd.code + 12) % 256) = _
  rw [show (b.val * 256 + wd.code + 12) / 256 = b.val by omega, show (b.val * 256 + wd.code + 12) % 256 = wd.code + 12 by omega]
  unfold decFpr
  rw [show (wd.code + 12) / 2 = 6 by omega, show (wd.code + 12) % 2 = wd.code by omega, fReg_val d, fReg_val a, fReg_val b, ScF.ofCode_code]
  rfl

theorem RoundTrip.feq (d : GReg) (a : FReg) (b : FReg) (wd : ScF) : RoundTrip.Statement (.feq d a b wd) := by
  intro _
  have := code_lt_ScF wd
  refine rt (op := 23) (p1 := d.val) (p2 := a.val) (x := b.val * 256 + wd.code + 16) (by omega) (by omega) (by omega) (by omega) ?_
  show decFpr (d.val) (a.val) ((b.val * 256 + wd.code + 16) / 256) ((b.val * 256 + wd.code + 16) % 256) = _
  rw [show (b.val * 256 + wd.code + 16) / 256 = b.val by omega, show (b.val * 256 + wd.code + 16) % 256 = wd.code + 16 by omega]
  unfold decFpr
  rw [show (wd.code + 16) / 2 = 8 by omega, show (wd.code + 16) % 2 = wd.code by omega, gReg_val d, fReg_val a, fReg_val b, ScF.ofCode_code]
  rfl

theorem RoundTrip.flt (d : GReg) (a : FReg) (b : FReg) (wd : ScF) : RoundTrip.Statement (.flt d a b wd) := by
  intro _
  have := code_lt_ScF wd
  refine rt (op := 23) (p1 := d.val) (p2 := a.val) (x := b.val * 256 + wd.code + 18) (by omega) (by omega) (by omega) (by omega) ?_
  show decFpr (d.val) (a.val) ((b.val * 256 + wd.code + 18) / 256) ((b.val * 256 + wd.code + 18) % 256) = _
  rw [show (b.val * 256 + wd.code + 18) / 256 = b.val by omega, show (b.val * 256 + wd.code + 18) % 256 = wd.code + 18 by omega]
  unfold decFpr
  rw [show (wd.code + 18) / 2 = 9 by omega, show (wd.code + 18) % 2 = wd.code by omega, gReg_val d, fReg_val a, fReg_val b, ScF.ofCode_code]
  rfl

theorem RoundTrip.fle (d : GReg) (a : FReg) (b : FReg) (wd : ScF) : RoundTrip.Statement (.fle d a b wd) := by
  intro _
  have := code_lt_ScF wd
  refine rt (op := 23) (p1 := d.val) (p2 := a.val) (x := b.val * 256 + wd.code + 20) (by omega) (by omega) (by omega) (by omega) ?_
  show decFpr (d.val) (a.val) ((b.val * 256 + wd.code + 20) / 256) ((b.val * 256 + wd.code + 20) % 256) = _
  rw [show (b.val * 256 + wd.code + 20) / 256 = b.val by omega, show (b.val * 256 + wd.code + 20) % 256 = wd.code + 20 by omega]
  unfold decFpr
  rw [show (wd.code + 20) / 2 = 10 by omega, show (wd.code + 20) % 2 = wd.code by omega, gReg_val d, fReg_val a, fReg_val b, ScF.ofCode_code]
  rfl

theorem RoundTrip.fcvtFmtWidth (d : FReg) (a : FReg) (wd : ScF) : RoundTrip.Statement (.fcvtFmtWidth d a wd) := by
  intro _
  have := code_lt_ScF wd
  refine rt (op := 23) (p1 := d.val) (p2 := a.val) (x := wd.code + 24) (by omega) (by omega) (by omega) (by omega) ?_
  show decFpr (d.val) (a.val) ((wd.code + 24) / 256) ((wd.code + 24) % 256) = _
  rw [show (wd.code + 24) / 256 = 0 by omega, show (wd.code + 24) % 256 = wd.code + 24 by omega]
  unfold decFpr
  rw [show (wd.code + 24) / 2 = 12 by omega, show (wd.code + 24) % 2 = wd.code by omega, fReg_val d, fReg_val a, ScF.ofCode_code]
  rfl

theorem RoundTrip.fcvtFmtL (d : FReg) (a : GReg) (wd : ScF) : RoundTrip.Statement (.fcvtFmtL d a wd) := by
  intro _
  have := code_lt_ScF wd
  refine rt (op := 23) (p1 := d.val) (p2 := a.val) (x := wd.code + 26) (by omega) (by omega) (by omega) (by omega) ?_
  show decFpr (d.val) (a.val) ((wd.code + 26) / 256) ((wd.code + 26) % 256) = _
  rw [show (wd.code + 26) / 256 = 0 by omega, show (wd.code + 26) % 256 = wd.code + 26 by omega]
  unfold decFpr
  rw [show (wd.code + 26) / 2 = 13 by omega, show (wd.code + 26) % 2 = wd.code by omega, fReg_val d, gReg_val a, ScF.ofCode_code]
  rfl

theorem RoundTrip.fcvtLFmt (d : GReg) (a : FReg) (wd : ScF) : RoundTrip.Statement (.fcvtLFmt d a wd) := by
  intro _
  have := code_lt_ScF wd
  refine rt (op := 23) (p1 := d.val) (p2 := a.val) (x := wd.code + 28) (by omega) (by omega) (by omega) (by omega) ?_
  show decFpr (d.val) (a.val) ((wd.code + 28) / 256) ((wd.code + 28) % 256) = _
  rw [show (wd.code + 28) / 256 = 0 by omega, show (wd.code + 28) % 256 = wd.code + 28 by omega]
  unfold decFpr
  rw [show (wd.code + 28) / 2 = 14 by omega, show (wd.code + 28) % 2 = wd.code by omega, gReg_val d, fReg_val a, ScF.ofCode_code]
  rfl

theorem RoundTrip.fgrd (d : GReg) (a : FReg) (wd : ScF) : RoundTrip.Statement (.fgrd d a wd) := by
  intro _
  have := code_lt_ScF wd
  refine rt (op := 23) (p1 := d.val) (p2 := a.val) (x := wd.code + 32) (by omega) (by omega) (by omega) (by omega) ?_
  show decFpr (d.val) (a.val) ((wd.code + 32) / 256) ((wd.code + 32) % 256) = _
  rw [show (wd.code + 32) / 256 = 0 by omega, show (wd.code + 32) % 256 = wd.code + 32 by omega]
  unfold decFpr
  rw [show (wd.code + 32) / 2 = 16 by omega, show (wd.code + 32) % 2 = wd.code by omega, gReg_val d, fReg_val a, ScF.ofCode_code]
  rfl

theorem RoundTrip.fgset (d : FReg) (a : GReg) (wd : ScF) : RoundTrip.Statement (.fgset d a wd) := by
  intro _
  have := code_lt_ScF wd
  refine rt (op := 23) (p1 := d.val) (p2 := a.val) (x := wd.code + 34) (by omega) (by omega) (by omega) (by omega) ?_
  show decFpr (d.val) (a.val) ((wd.code + 34) / 256) ((wd.code + 34) % 256) = _
  rw [show (wd.code + 34) / 256 = 0 by omega, show (wd.code + 34) % 256 = wd.code + 34 by omega]
  unfold decFpr
  rw [show (wd.code + 34) / 2 = 17 by omega, show (wd.code + 34) % 2 = wd.code by omega, fReg_val d, gReg_val a, ScF.ofCode_code]
  rfl

theorem RoundTrip.fmvFmtG (d : FReg) (a : GReg) (wd : ScF) : RoundTrip.Statement (.fmvFmtG d a wd) := by
  intro _
  have := code_lt_ScF wd
  refine rt (op := 23) (p1 := d.val) (p2 := a.val) (x := wd.code + 36) (by omega) (by omega) (by omega) (by omega) ?_
  show decFpr (d.val) (a.val) ((wd.code + 36) / 256) ((wd.code + 36) % 256) = _
  rw [show (wd.code + 36) / 256 = 0 by omega, show (wd.code + 36) % 256 = wd.code + 36 by omega]
  unfold decFpr
  rw [show (wd.code + 36) / 2 = 18 by omega, show (wd.code + 36) % 2 = wd.code by omega, fReg_val d, gReg_val a, ScF.ofCode_code]
  rfl

theorem RoundTrip.fmvGFmt (d : GReg) (a : FReg) (wd : ScF) : RoundTrip.Statement (.fmvGFmt d a wd) := by
  intro _
  have := code_lt_ScF wd
  refine rt (op := 23) (p1 := d.val) (p2 := a.val) (x := wd.code + 38) (by omega) (by omega) (by omega) (by omega) ?_
  show decFpr (d.val) (a.val) ((wd.code + 38) / 256) ((wd.code + 38) % 256) = _
  rw [show (wd.code + 38) / 256 = 0 by omega, show (wd.code + 38) % 256 = wd.code + 38 by omega]
  unfold decFpr
  rw [show (wd.code + 38) / 2 = 19 by omega, show (wd.code + 38) % 2 = wd.code by omega, gReg_val d, fReg_val a, ScF.ofCode_code]
  rfl

theorem RoundTrip.fmadd (d : FReg) (a : FReg) (b : FReg) (c : FReg) (wd : ScF) : RoundTrip.Statement (.fmadd d a b c wd) := by
  intro _
  have := code_lt_ScF wd
  refine rt (op := 24) (p1 := d.val) (p2 := a.val) (x := b.val * 256 + c.val * 4 + wd.code) (by omega) (by omega) (by omega) (by omega) ?_
  show decFma (d.val) (a.val) ((b.val * 256 + c.val * 4 + wd.code) / 256) ((b.val * 256 + c.val * 4 + wd.code) % 256) = _
  rw [show (b.val * 256 + c.val * 4 + wd.code) / 256 = b.val by omega, show (b.val * 256 + c.val * 4 + wd.code) % 256 = c.val * 4 + wd.code by omega]
  unfold decFma
  rw [show (c.val * 4 + wd.code) / 2 % 2 = 0 by omega, show (c.val * 4 + wd.code) / 4 = c.val by omega, show (c.val * 4 + wd.code) % 2 = wd.code by omega, fReg_val d, fReg_val a, fReg_val b, fReg_val c, ScF.ofCode_code]
  rfl

theorem RoundTrip.fmsub (d : FReg) (a : FReg) (b : FReg) (c : FReg) (wd : ScF) : RoundTrip.Statement (.fmsub d a b c wd) := by
  intro _
  have := code_lt_ScF wd
  refine rt (op := 24) (p1 := d.val) (p2 := a.val) (x := b.val * 256 + c.val * 4 + wd.code + 2) (by omega) (by omega) (by omega) (by omega) ?_
  show decFma (d.val) (a.val) ((b.val * 256 + c.val * 4 + wd.code + 2) / 256) ((b.val * 256 + c.val * 4 + wd.code + 2) % 256) = _
  rw [show (b.val * 256 + c.val * 4 + wd.code + 2) / 256 = b.val by omega, show (b.val * 256 + c.val * 4 + wd.code + 2) % 256 = c.val * 4 + wd.code + 2 by omega]
  unfold decFma
  rw [show (c.val * 4 + wd.code + 2) / 2 % 2 = 1 by omega, show (c.val * 4 + wd.code + 2) / 4 = c.val by omega, show (c.val * 4 + wd.code + 2) % 2 = wd.code by omega, fReg_val d, fReg_val a, fReg_val b, fReg_val c, ScF.ofCode_code]
  rfl

theorem RoundTrip.beq (a : GReg) (b : GReg) (o : BitVec 14) : RoundTrip.Statement (.beq a b o) := by
  intro _
  refine rt (op := 25) (p1 := a.val) (p2 := b.val) (x := o.toNat) (by omega) (by omega) (by omega) (by omega) ?_
  show (decodeFields 25 (a.val) (b.val) (o.toNat)) = _
  unfold decodeFields
  rw [gReg_val a, gReg_val b, ofNat_toNat14]
  rfl

theorem RoundTrip.bne (a : GReg) (b : GReg) (o : BitVec 14) : RoundTrip.Statement (.bne a b o) := by
  intro _
  refine rt (op := 26) (p1 := a.val) (p2 := b.val) (x := o.toNat) (by omega) (by omega) (by omega) (by omega) ?_
  show (decodeFields 26 (a.val) (b.val) (o.toNat)) = _
  unfold decodeFields
  rw [gReg_val a, gReg_val b, ofNat_toNat14]
  rfl

theorem RoundTrip.blt (a : GReg) (b : GReg) (o : BitVec 14) : RoundTrip.Statement (.blt a b o) := by
  intro _
  refine rt (op := 27) (p1 := a.val) (p2 := b.val) (x := o.toNat) (by omega) (by omega) (by omega) (by omega) ?_
  show (decodeFields 27 (a.val) (b.val) (o.toNat)) = _
  unfold decodeFields
  rw [gReg_val a, gReg_val b, ofNat_toNat14]
  rfl

theorem RoundTrip.bge (a : GReg) (b : GReg) (o : BitVec 14) : RoundTrip.Statement (.bge a b o) := by
  intro _
  refine rt (op := 28) (p1 := a.val) (p2 := b.val) (x := o.toNat) (by omega) (by omega) (by omega) (by omega) ?_
  show (decodeFields 28 (a.val) (b.val) (o.toNat)) = _
  unfold decodeFields
  rw [gReg_val a, gReg_val b, ofNat_toNat14]
  rfl

theorem RoundTrip.bltu (a : GReg) (b : GReg) (o : BitVec 14) : RoundTrip.Statement (.bltu a b o) := by
  intro _
  refine rt (op := 29) (p1 := a.val) (p2 := b.val) (x := o.toNat) (by omega) (by omega) (by omega) (by omega) ?_
  show (decodeFields 29 (a.val) (b.val) (o.toNat)) = _
  unfold decodeFields
  rw [gReg_val a, gReg_val b, ofNat_toNat14]
  rfl

theorem RoundTrip.bgeu (a : GReg) (b : GReg) (o : BitVec 14) : RoundTrip.Statement (.bgeu a b o) := by
  intro _
  refine rt (op := 30) (p1 := a.val) (p2 := b.val) (x := o.toNat) (by omega) (by omega) (by omega) (by omega) ?_
  show (decodeFields 30 (a.val) (b.val) (o.toNat)) = _
  unfold decodeFields
  rw [gReg_val a, gReg_val b, ofNat_toNat14]
  rfl

theorem RoundTrip.bmz (a : MReg) (o : BitVec 14) : RoundTrip.Statement (.bmz a o) := by
  intro h
  refine rt (op := 31) (p1 := a.val) (p2 := 0) (x := o.toNat) (by omega) (by omega) (by omega) (by omega) ?_
  show decodeFields 31 _ _ _ = _
  unfold decodeFields
  rw [mReg_val, ofNat_toNat14]
  rfl

theorem RoundTrip.bmnz (a : MReg) (o : BitVec 14) : RoundTrip.Statement (.bmnz a o) := by
  intro h
  refine rt (op := 31) (p1 := a.val) (p2 := 1) (x := o.toNat) (by omega) (by omega) (by omega) (by omega) ?_
  show decodeFields 31 _ _ _ = _
  unfold decodeFields
  rw [mReg_val, ofNat_toNat14]
  rfl

theorem RoundTrip.bmall (a : MReg) (o : BitVec 14) : RoundTrip.Statement (.bmall a o) := by
  intro h
  refine rt (op := 31) (p1 := a.val) (p2 := 2) (x := o.toNat) (by omega) (by omega) (by omega) (by omega) ?_
  show decodeFields 31 _ _ _ = _
  unfold decodeFields
  rw [mReg_val, ofNat_toNat14]
  rfl

theorem RoundTrip.jmp (o : BitVec 26) : RoundTrip.Statement (.jmp o) := by
  intro h
  refine rt (op := 32) (p1 := (o.toNat) / 1048576) (p2 := (o.toNat) / 16384 % 64) (x := (o.toNat) % 16384) (by omega) (by omega) (by omega) (by omega) ?_
  show decodeFields 32 _ _ _ = _
  unfold decodeFields
  rw [show o.toNat / 1048576 * 1048576 + o.toNat / 16384 % 64 * 16384 + o.toNat % 16384 = o.toNat by omega, ofNat_toNat26]
  rfl

theorem RoundTrip.jal (o : BitVec 26) : RoundTrip.Statement (.jal o) := by
  intro h
  refine rt (op := 33) (p1 := (o.toNat) / 1048576) (p2 := (o.toNat) / 16384 % 64) (x := (o.toNat) % 16384) (by omega) (by omega) (by omega) (by omega) ?_
  show decodeFields 33 _ _ _ = _
  unfold decodeFields
  rw [show o.toNat / 1048576 * 1048576 + o.toNat / 16384 % 64 * 16384 + o.toNat % 16384 = o.toNat by omega, ofNat_toNat26]
  rfl

theorem RoundTrip.jr (d : GReg) (a : GReg) (i : BitVec 14) : RoundTrip.Statement (.jr d a i) := by
  intro _
  refine rt (op := 34) (p1 := d.val) (p2 := a.val) (x := i.toNat) (by omega) (by omega) (by omega) (by omega) ?_
  show (decodeFields 34 (d.val) (a.val) (i.toNat)) = _
  unfold decodeFields
  rw [gReg_val d, gReg_val a, ofNat_toNat14]
  rfl

theorem RoundTrip.vins (d : VReg) (a : GReg) (b : GReg) : RoundTrip.Statement (.vins d a b) := by
  intro _
  refine rt (op := 35) (p1 := d.val) (p2 := a.val) (x := b.val * 256) (by omega) (by omega) (by omega) (by omega) ?_
  show decVmove (d.val) (a.val) ((b.val * 256) / 256) ((b.val * 256) % 256) = _
  rw [show (b.val * 256) / 256 = b.val by omega, show (b.val * 256) % 256 = 0 by omega]
  unfold decVmove
  rw [vReg_val d, gReg_val a, gReg_val b]
  rfl

theorem RoundTrip.vext (d : GReg) (a : VReg) (b : GReg) : RoundTrip.Statement (.vext d a b) := by
  intro _
  refine rt (op := 35) (p1 := d.val) (p2 := a.val) (x := b.val * 256 + 1) (by omega) (by omega) (by omega) (by omega) ?_
  show decVmove (d.val) (a.val) ((b.val * 256 + 1) / 256) ((b.val * 256 + 1) % 256) = _
  rw [show (b.val * 256 + 1) / 256 = b.val by omega, show (b.val * 256 + 1) % 256 = 1 by omega]
  unfold decVmove
  rw [gReg_val d, vReg_val a, gReg_val b]
  rfl

theorem RoundTrip.vfins (d : VReg) (a : FReg) (b : GReg) : RoundTrip.Statement (.vfins d a b) := by
  intro _
  refine rt (op := 35) (p1 := d.val) (p2 := a.val) (x := b.val * 256 + 2) (by omega) (by omega) (by omega) (by omega) ?_
  show decVmove (d.val) (a.val) ((b.val * 256 + 2) / 256) ((b.val * 256 + 2) % 256) = _
  rw [show (b.val * 256 + 2) / 256 = b.val by omega, show (b.val * 256 + 2) % 256 = 2 by omega]
  unfold decVmove
  rw [vReg_val d, fReg_val a, gReg_val b]
  rfl

theorem RoundTrip.vfext (d : FReg) (a : VReg) (b : GReg) : RoundTrip.Statement (.vfext d a b) := by
  intro _
  refine rt (op := 35) (p1 := d.val) (p2 := a.val) (x := b.val * 256 + 3) (by omega) (by omega) (by omega) (by omega) ?_
  show decVmove (d.val) (a.val) ((b.val * 256 + 3) / 256) ((b.val * 256 + 3) % 256) = _
  rw [show (b.val * 256 + 3) / 256 = b.val by omega, show (b.val * 256 + 3) % 256 = 3 by omega]
  unfold decVmove
  rw [fReg_val d, vReg_val a, gReg_val b]
  rfl

theorem RoundTrip.vadd (d : VReg) (a : VReg) (b : VISrc) (wd : IntW) : RoundTrip.Statement (.vadd d a b wd) := by
  intro _
  have := bit_lt_VISrc b
  have := reg_lt_VISrc b
  have := code_lt_IntW wd
  refine rt (op := 36) (p1 := d.val) (p2 := a.val) (x := b.reg * 256 + wd.code * 2 + b.bit) (by omega) (by omega) (by omega) (by omega) ?_
  show decVi (d.val) (a.val) ((b.reg * 256 + wd.code * 2 + b.bit) / 256) ((b.reg * 256 + wd.code * 2 + b.bit) % 256) = _
  rw [show (b.reg * 256 + wd.code * 2 + b.bit) / 256 = b.reg by omega, show (b.reg * 256 + wd.code * 2 + b.bit) % 256 = wd.code * 2 + b.bit by omega]
  unfold decVi
  rw [show (wd.code * 2 + b.bit) / 8 = 0 by omega, show (wd.code * 2 + b.bit) % 2 = b.bit by omega, show (wd.code * 2 + b.bit) / 2 % 4 = wd.code by omega, vReg_val d, vReg_val a, viSrc_reg b, IntW.ofCode_code]
  rfl

theorem RoundTrip.vsub (d : VReg) (a : VReg) (b : VISrc) (wd : IntW) : RoundTrip.Statement (.vsub d a b wd) := by
  intro _
  have := bit_lt_VISrc b
  have := reg_lt_VISrc b
  have := code_lt_IntW wd
  refine rt (op := 36) (p1 := d.val) (p2 := a.val) (x := b.reg * 256 + wd.code * 2 + b.bit + 8) (by omega) (by omega) (by omega) (by omega) ?_
  show decVi (d.val) (a.val) ((b.reg * 256 + wd.code * 2 + b.bit + 8) / 256) ((b.reg * 256 + wd.code * 2 + b.bit + 8) % 256) = _
  rw [show (b.reg * 256 + wd.code * 2 + b.bit + 8) / 256 = b.reg by omega, show (b.reg * 256 + wd.code * 2 + b.bit + 8) % 256 = wd.code * 2 + b.bit + 8 by omega]
  unfold decVi
  rw [show (wd.code * 2 + b.bit + 8) / 8 = 1 by omega, show (wd.code * 2 + b.bit + 8) % 2 = b.bit by omega, show (wd.code * 2 + b.bit + 8) / 2 % 4 = wd.code by omega, vReg_val d, vReg_val a, viSrc_reg b, IntW.ofCode_code]
  rfl

theorem RoundTrip.vmul (d : VReg) (a : VReg) (b : VISrc) (wd : IntW) : RoundTrip.Statement (.vmul d a b wd) := by
  intro _
  have := bit_lt_VISrc b
  have := reg_lt_VISrc b
  have := code_lt_IntW wd
  refine rt (op := 36) (p1 := d.val) (p2 := a.val) (x := b.reg * 256 + wd.code * 2 + b.bit + 16) (by omega) (by omega) (by omega) (by omega) ?_
  show decVi (d.val) (a.val) ((b.reg * 256 + wd.code * 2 + b.bit + 16) / 256) ((b.reg * 256 + wd.code * 2 + b.bit + 16) % 256) = _
  rw [show (b.reg * 256 + wd.code * 2 + b.bit + 16) / 256 = b.reg by omega, show (b.reg * 256 + wd.code * 2 + b.bit + 16) % 256 = wd.code * 2 + b.bit + 16 by omega]
  unfold decVi
  rw [show (wd.code * 2 + b.bit + 16) / 8 = 2 by omega, show (wd.code * 2 + b.bit + 16) % 2 = b.bit by omega, show (wd.code * 2 + b.bit + 16) / 2 % 4 = wd.code by omega, vReg_val d, vReg_val a, viSrc_reg b, IntW.ofCode_code]
  rfl

theorem RoundTrip.vmulh (d : VReg) (a : VReg) (b : VISrc) (wd : IntW) : RoundTrip.Statement (.vmulh d a b wd) := by
  intro _
  have := bit_lt_VISrc b
  have := reg_lt_VISrc b
  have := code_lt_IntW wd
  refine rt (op := 36) (p1 := d.val) (p2 := a.val) (x := b.reg * 256 + wd.code * 2 + b.bit + 24) (by omega) (by omega) (by omega) (by omega) ?_
  show decVi (d.val) (a.val) ((b.reg * 256 + wd.code * 2 + b.bit + 24) / 256) ((b.reg * 256 + wd.code * 2 + b.bit + 24) % 256) = _
  rw [show (b.reg * 256 + wd.code * 2 + b.bit + 24) / 256 = b.reg by omega, show (b.reg * 256 + wd.code * 2 + b.bit + 24) % 256 = wd.code * 2 + b.bit + 24 by omega]
  unfold decVi
  rw [show (wd.code * 2 + b.bit + 24) / 8 = 3 by omega, show (wd.code * 2 + b.bit + 24) % 2 = b.bit by omega, show (wd.code * 2 + b.bit + 24) / 2 % 4 = wd.code by omega, vReg_val d, vReg_val a, viSrc_reg b, IntW.ofCode_code]
  rfl

theorem RoundTrip.vmulhu (d : VReg) (a : VReg) (b : VISrc) (wd : IntW) : RoundTrip.Statement (.vmulhu d a b wd) := by
  intro _
  have := bit_lt_VISrc b
  have := reg_lt_VISrc b
  have := code_lt_IntW wd
  refine rt (op := 36) (p1 := d.val) (p2 := a.val) (x := b.reg * 256 + wd.code * 2 + b.bit + 32) (by omega) (by omega) (by omega) (by omega) ?_
  show decVi (d.val) (a.val) ((b.reg * 256 + wd.code * 2 + b.bit + 32) / 256) ((b.reg * 256 + wd.code * 2 + b.bit + 32) % 256) = _
  rw [show (b.reg * 256 + wd.code * 2 + b.bit + 32) / 256 = b.reg by omega, show (b.reg * 256 + wd.code * 2 + b.bit + 32) % 256 = wd.code * 2 + b.bit + 32 by omega]
  unfold decVi
  rw [show (wd.code * 2 + b.bit + 32) / 8 = 4 by omega, show (wd.code * 2 + b.bit + 32) % 2 = b.bit by omega, show (wd.code * 2 + b.bit + 32) / 2 % 4 = wd.code by omega, vReg_val d, vReg_val a, viSrc_reg b, IntW.ofCode_code]
  rfl

theorem RoundTrip.vmin (d : VReg) (a : VReg) (b : VISrc) (wd : IntW) : RoundTrip.Statement (.vmin d a b wd) := by
  intro _
  have := bit_lt_VISrc b
  have := reg_lt_VISrc b
  have := code_lt_IntW wd
  refine rt (op := 36) (p1 := d.val) (p2 := a.val) (x := b.reg * 256 + wd.code * 2 + b.bit + 40) (by omega) (by omega) (by omega) (by omega) ?_
  show decVi (d.val) (a.val) ((b.reg * 256 + wd.code * 2 + b.bit + 40) / 256) ((b.reg * 256 + wd.code * 2 + b.bit + 40) % 256) = _
  rw [show (b.reg * 256 + wd.code * 2 + b.bit + 40) / 256 = b.reg by omega, show (b.reg * 256 + wd.code * 2 + b.bit + 40) % 256 = wd.code * 2 + b.bit + 40 by omega]
  unfold decVi
  rw [show (wd.code * 2 + b.bit + 40) / 8 = 5 by omega, show (wd.code * 2 + b.bit + 40) % 2 = b.bit by omega, show (wd.code * 2 + b.bit + 40) / 2 % 4 = wd.code by omega, vReg_val d, vReg_val a, viSrc_reg b, IntW.ofCode_code]
  rfl

theorem RoundTrip.vmax (d : VReg) (a : VReg) (b : VISrc) (wd : IntW) : RoundTrip.Statement (.vmax d a b wd) := by
  intro _
  have := bit_lt_VISrc b
  have := reg_lt_VISrc b
  have := code_lt_IntW wd
  refine rt (op := 36) (p1 := d.val) (p2 := a.val) (x := b.reg * 256 + wd.code * 2 + b.bit + 48) (by omega) (by omega) (by omega) (by omega) ?_
  show decVi (d.val) (a.val) ((b.reg * 256 + wd.code * 2 + b.bit + 48) / 256) ((b.reg * 256 + wd.code * 2 + b.bit + 48) % 256) = _
  rw [show (b.reg * 256 + wd.code * 2 + b.bit + 48) / 256 = b.reg by omega, show (b.reg * 256 + wd.code * 2 + b.bit + 48) % 256 = wd.code * 2 + b.bit + 48 by omega]
  unfold decVi
  rw [show (wd.code * 2 + b.bit + 48) / 8 = 6 by omega, show (wd.code * 2 + b.bit + 48) % 2 = b.bit by omega, show (wd.code * 2 + b.bit + 48) / 2 % 4 = wd.code by omega, vReg_val d, vReg_val a, viSrc_reg b, IntW.ofCode_code]
  rfl

theorem RoundTrip.vminu (d : VReg) (a : VReg) (b : VISrc) (wd : IntW) : RoundTrip.Statement (.vminu d a b wd) := by
  intro _
  have := bit_lt_VISrc b
  have := reg_lt_VISrc b
  have := code_lt_IntW wd
  refine rt (op := 36) (p1 := d.val) (p2 := a.val) (x := b.reg * 256 + wd.code * 2 + b.bit + 56) (by omega) (by omega) (by omega) (by omega) ?_
  show decVi (d.val) (a.val) ((b.reg * 256 + wd.code * 2 + b.bit + 56) / 256) ((b.reg * 256 + wd.code * 2 + b.bit + 56) % 256) = _
  rw [show (b.reg * 256 + wd.code * 2 + b.bit + 56) / 256 = b.reg by omega, show (b.reg * 256 + wd.code * 2 + b.bit + 56) % 256 = wd.code * 2 + b.bit + 56 by omega]
  unfold decVi
  rw [show (wd.code * 2 + b.bit + 56) / 8 = 7 by omega, show (wd.code * 2 + b.bit + 56) % 2 = b.bit by omega, show (wd.code * 2 + b.bit + 56) / 2 % 4 = wd.code by omega, vReg_val d, vReg_val a, viSrc_reg b, IntW.ofCode_code]
  rfl

theorem RoundTrip.vmaxu (d : VReg) (a : VReg) (b : VISrc) (wd : IntW) : RoundTrip.Statement (.vmaxu d a b wd) := by
  intro _
  have := bit_lt_VISrc b
  have := reg_lt_VISrc b
  have := code_lt_IntW wd
  refine rt (op := 36) (p1 := d.val) (p2 := a.val) (x := b.reg * 256 + wd.code * 2 + b.bit + 64) (by omega) (by omega) (by omega) (by omega) ?_
  show decVi (d.val) (a.val) ((b.reg * 256 + wd.code * 2 + b.bit + 64) / 256) ((b.reg * 256 + wd.code * 2 + b.bit + 64) % 256) = _
  rw [show (b.reg * 256 + wd.code * 2 + b.bit + 64) / 256 = b.reg by omega, show (b.reg * 256 + wd.code * 2 + b.bit + 64) % 256 = wd.code * 2 + b.bit + 64 by omega]
  unfold decVi
  rw [show (wd.code * 2 + b.bit + 64) / 8 = 8 by omega, show (wd.code * 2 + b.bit + 64) % 2 = b.bit by omega, show (wd.code * 2 + b.bit + 64) / 2 % 4 = wd.code by omega, vReg_val d, vReg_val a, viSrc_reg b, IntW.ofCode_code]
  rfl

theorem RoundTrip.vand (d : VReg) (a : VReg) (b : VISrc) (wd : IntW) : RoundTrip.Statement (.vand d a b wd) := by
  intro _
  have := bit_lt_VISrc b
  have := reg_lt_VISrc b
  have := code_lt_IntW wd
  refine rt (op := 36) (p1 := d.val) (p2 := a.val) (x := b.reg * 256 + wd.code * 2 + b.bit + 72) (by omega) (by omega) (by omega) (by omega) ?_
  show decVi (d.val) (a.val) ((b.reg * 256 + wd.code * 2 + b.bit + 72) / 256) ((b.reg * 256 + wd.code * 2 + b.bit + 72) % 256) = _
  rw [show (b.reg * 256 + wd.code * 2 + b.bit + 72) / 256 = b.reg by omega, show (b.reg * 256 + wd.code * 2 + b.bit + 72) % 256 = wd.code * 2 + b.bit + 72 by omega]
  unfold decVi
  rw [show (wd.code * 2 + b.bit + 72) / 8 = 9 by omega, show (wd.code * 2 + b.bit + 72) % 2 = b.bit by omega, show (wd.code * 2 + b.bit + 72) / 2 % 4 = wd.code by omega, vReg_val d, vReg_val a, viSrc_reg b, IntW.ofCode_code]
  rfl

theorem RoundTrip.vor (d : VReg) (a : VReg) (b : VISrc) (wd : IntW) : RoundTrip.Statement (.vor d a b wd) := by
  intro _
  have := bit_lt_VISrc b
  have := reg_lt_VISrc b
  have := code_lt_IntW wd
  refine rt (op := 36) (p1 := d.val) (p2 := a.val) (x := b.reg * 256 + wd.code * 2 + b.bit + 80) (by omega) (by omega) (by omega) (by omega) ?_
  show decVi (d.val) (a.val) ((b.reg * 256 + wd.code * 2 + b.bit + 80) / 256) ((b.reg * 256 + wd.code * 2 + b.bit + 80) % 256) = _
  rw [show (b.reg * 256 + wd.code * 2 + b.bit + 80) / 256 = b.reg by omega, show (b.reg * 256 + wd.code * 2 + b.bit + 80) % 256 = wd.code * 2 + b.bit + 80 by omega]
  unfold decVi
  rw [show (wd.code * 2 + b.bit + 80) / 8 = 10 by omega, show (wd.code * 2 + b.bit + 80) % 2 = b.bit by omega, show (wd.code * 2 + b.bit + 80) / 2 % 4 = wd.code by omega, vReg_val d, vReg_val a, viSrc_reg b, IntW.ofCode_code]
  rfl

theorem RoundTrip.vxor (d : VReg) (a : VReg) (b : VISrc) (wd : IntW) : RoundTrip.Statement (.vxor d a b wd) := by
  intro _
  have := bit_lt_VISrc b
  have := reg_lt_VISrc b
  have := code_lt_IntW wd
  refine rt (op := 36) (p1 := d.val) (p2 := a.val) (x := b.reg * 256 + wd.code * 2 + b.bit + 88) (by omega) (by omega) (by omega) (by omega) ?_
  show decVi (d.val) (a.val) ((b.reg * 256 + wd.code * 2 + b.bit + 88) / 256) ((b.reg * 256 + wd.code * 2 + b.bit + 88) % 256) = _
  rw [show (b.reg * 256 + wd.code * 2 + b.bit + 88) / 256 = b.reg by omega, show (b.reg * 256 + wd.code * 2 + b.bit + 88) % 256 = wd.code * 2 + b.bit + 88 by omega]
  unfold decVi
  rw [show (wd.code * 2 + b.bit + 88) / 8 = 11 by omega, show (wd.code * 2 + b.bit + 88) % 2 = b.bit by omega, show (wd.code * 2 + b.bit + 88) / 2 % 4 = wd.code by omega, vReg_val d, vReg_val a, viSrc_reg b, IntW.ofCode_code]
  rfl

theorem RoundTrip.vsll (d : VReg) (a : VReg) (b : VISrc) (wd : IntW) : RoundTrip.Statement (.vsll d a b wd) := by
  intro _
  have := bit_lt_VISrc b
  have := reg_lt_VISrc b
  have := code_lt_IntW wd
  refine rt (op := 36) (p1 := d.val) (p2 := a.val) (x := b.reg * 256 + wd.code * 2 + b.bit + 96) (by omega) (by omega) (by omega) (by omega) ?_
  show decVi (d.val) (a.val) ((b.reg * 256 + wd.code * 2 + b.bit + 96) / 256) ((b.reg * 256 + wd.code * 2 + b.bit + 96) % 256) = _
  rw [show (b.reg * 256 + wd.code * 2 + b.bit + 96) / 256 = b.reg by omega, show (b.reg * 256 + wd.code * 2 + b.bit + 96) % 256 = wd.code * 2 + b.bit + 96 by omega]
  unfold decVi
  rw [show (wd.code * 2 + b.bit + 96) / 8 = 12 by omega, show (wd.code * 2 + b.bit + 96) % 2 = b.bit by omega, show (wd.code * 2 + b.bit + 96) / 2 % 4 = wd.code by omega, vReg_val d, vReg_val a, viSrc_reg b, IntW.ofCode_code]
  rfl

theorem RoundTrip.vsrl (d : VReg) (a : VReg) (b : VISrc) (wd : IntW) : RoundTrip.Statement (.vsrl d a b wd) := by
  intro _
  have := bit_lt_VISrc b
  have := reg_lt_VISrc b
  have := code_lt_IntW wd
  refine rt (op := 36) (p1 := d.val) (p2 := a.val) (x := b.reg * 256 + wd.code * 2 + b.bit + 104) (by omega) (by omega) (by omega) (by omega) ?_
  show decVi (d.val) (a.val) ((b.reg * 256 + wd.code * 2 + b.bit + 104) / 256) ((b.reg * 256 + wd.code * 2 + b.bit + 104) % 256) = _
  rw [show (b.reg * 256 + wd.code * 2 + b.bit + 104) / 256 = b.reg by omega, show (b.reg * 256 + wd.code * 2 + b.bit + 104) % 256 = wd.code * 2 + b.bit + 104 by omega]
  unfold decVi
  rw [show (wd.code * 2 + b.bit + 104) / 8 = 13 by omega, show (wd.code * 2 + b.bit + 104) % 2 = b.bit by omega, show (wd.code * 2 + b.bit + 104) / 2 % 4 = wd.code by omega, vReg_val d, vReg_val a, viSrc_reg b, IntW.ofCode_code]
  rfl

theorem RoundTrip.vsra (d : VReg) (a : VReg) (b : VISrc) (wd : IntW) : RoundTrip.Statement (.vsra d a b wd) := by
  intro _
  have := bit_lt_VISrc b
  have := reg_lt_VISrc b
  have := code_lt_IntW wd
  refine rt (op := 36) (p1 := d.val) (p2 := a.val) (x := b.reg * 256 + wd.code * 2 + b.bit + 112) (by omega) (by omega) (by omega) (by omega) ?_
  show decVi (d.val) (a.val) ((b.reg * 256 + wd.code * 2 + b.bit + 112) / 256) ((b.reg * 256 + wd.code * 2 + b.bit + 112) % 256) = _
  rw [show (b.reg * 256 + wd.code * 2 + b.bit + 112) / 256 = b.reg by omega, show (b.reg * 256 + wd.code * 2 + b.bit + 112) % 256 = wd.code * 2 + b.bit + 112 by omega]
  unfold decVi
  rw [show (wd.code * 2 + b.bit + 112) / 8 = 14 by omega, show (wd.code * 2 + b.bit + 112) % 2 = b.bit by omega, show (wd.code * 2 + b.bit + 112) / 2 % 4 = wd.code by omega, vReg_val d, vReg_val a, viSrc_reg b, IntW.ofCode_code]
  rfl

theorem RoundTrip.vsadd (d : VReg) (a : VReg) (b : VISrc) (wd : IntW) : RoundTrip.Statement (.vsadd d a b wd) := by
  intro _
  have := bit_lt_VISrc b
  have := reg_lt_VISrc b
  have := code_lt_IntW wd
  refine rt (op := 36) (p1 := d.val) (p2 := a.val) (x := b.reg * 256 + wd.code * 2 + b.bit + 120) (by omega) (by omega) (by omega) (by omega) ?_
  show decVi (d.val) (a.val) ((b.reg * 256 + wd.code * 2 + b.bit + 120) / 256) ((b.reg * 256 + wd.code * 2 + b.bit + 120) % 256) = _
  rw [show (b.reg * 256 + wd.code * 2 + b.bit + 120) / 256 = b.reg by omega, show (b.reg * 256 + wd.code * 2 + b.bit + 120) % 256 = wd.code * 2 + b.bit + 120 by omega]
  unfold decVi
  rw [show (wd.code * 2 + b.bit + 120) / 8 = 15 by omega, show (wd.code * 2 + b.bit + 120) % 2 = b.bit by omega, show (wd.code * 2 + b.bit + 120) / 2 % 4 = wd.code by omega, vReg_val d, vReg_val a, viSrc_reg b, IntW.ofCode_code]
  rfl

theorem RoundTrip.vsaddu (d : VReg) (a : VReg) (b : VISrc) (wd : IntW) : RoundTrip.Statement (.vsaddu d a b wd) := by
  intro _
  have := bit_lt_VISrc b
  have := reg_lt_VISrc b
  have := code_lt_IntW wd
  refine rt (op := 36) (p1 := d.val) (p2 := a.val) (x := b.reg * 256 + wd.code * 2 + b.bit + 128) (by omega) (by omega) (by omega) (by omega) ?_
  show decVi (d.val) (a.val) ((b.reg * 256 + wd.code * 2 + b.bit + 128) / 256) ((b.reg * 256 + wd.code * 2 + b.bit + 128) % 256) = _
  rw [show (b.reg * 256 + wd.code * 2 + b.bit + 128) / 256 = b.reg by omega, show (b.reg * 256 + wd.code * 2 + b.bit + 128) % 256 = wd.code * 2 + b.bit + 128 by omega]
  unfold decVi
  rw [show (wd.code * 2 + b.bit + 128) / 8 = 16 by omega, show (wd.code * 2 + b.bit + 128) % 2 = b.bit by omega, show (wd.code * 2 + b.bit + 128) / 2 % 4 = wd.code by omega, vReg_val d, vReg_val a, viSrc_reg b, IntW.ofCode_code]
  rfl

theorem RoundTrip.vssub (d : VReg) (a : VReg) (b : VISrc) (wd : IntW) : RoundTrip.Statement (.vssub d a b wd) := by
  intro _
  have := bit_lt_VISrc b
  have := reg_lt_VISrc b
  have := code_lt_IntW wd
  refine rt (op := 36) (p1 := d.val) (p2 := a.val) (x := b.reg * 256 + wd.code * 2 + b.bit + 136) (by omega) (by omega) (by omega) (by omega) ?_
  show decVi (d.val) (a.val) ((b.reg * 256 + wd.code * 2 + b.bit + 136) / 256) ((b.reg * 256 + wd.code * 2 + b.bit + 136) % 256) = _
  rw [show (b.reg * 256 + wd.code * 2 + b.bit + 136) / 256 = b.reg by omega, show (b.reg * 256 + wd.code * 2 + b.bit + 136) % 256 = wd.code * 2 + b.bit + 136 by omega]
  unfold decVi
  rw [show (wd.code * 2 + b.bit + 136) / 8 = 17 by omega, show (wd.code * 2 + b.bit + 136) % 2 = b.bit by omega, show (wd.code * 2 + b.bit + 136) / 2 % 4 = wd.code by omega, vReg_val d, vReg_val a, viSrc_reg b, IntW.ofCode_code]
  rfl

theorem RoundTrip.vssubu (d : VReg) (a : VReg) (b : VISrc) (wd : IntW) : RoundTrip.Statement (.vssubu d a b wd) := by
  intro _
  have := bit_lt_VISrc b
  have := reg_lt_VISrc b
  have := code_lt_IntW wd
  refine rt (op := 36) (p1 := d.val) (p2 := a.val) (x := b.reg * 256 + wd.code * 2 + b.bit + 144) (by omega) (by omega) (by omega) (by omega) ?_
  show decVi (d.val) (a.val) ((b.reg * 256 + wd.code * 2 + b.bit + 144) / 256) ((b.reg * 256 + wd.code * 2 + b.bit + 144) % 256) = _
  rw [show (b.reg * 256 + wd.code * 2 + b.bit + 144) / 256 = b.reg by omega, show (b.reg * 256 + wd.code * 2 + b.bit + 144) % 256 = wd.code * 2 + b.bit + 144 by omega]
  unfold decVi
  rw [show (wd.code * 2 + b.bit + 144) / 8 = 18 by omega, show (wd.code * 2 + b.bit + 144) % 2 = b.bit by omega, show (wd.code * 2 + b.bit + 144) / 2 % 4 = wd.code by omega, vReg_val d, vReg_val a, viSrc_reg b, IntW.ofCode_code]
  rfl

theorem RoundTrip.vmv (d : VReg) (b : VISrc) (wd : IntW) : RoundTrip.Statement (.vmv d b wd) := by
  intro _
  have := bit_lt_VISrc b
  have := reg_lt_VISrc b
  have := code_lt_IntW wd
  refine rt (op := 36) (p1 := d.val) (p2 := 0) (x := b.reg * 256 + wd.code * 2 + b.bit + 152) (by omega) (by omega) (by omega) (by omega) ?_
  show decVi (d.val) (0) ((b.reg * 256 + wd.code * 2 + b.bit + 152) / 256) ((b.reg * 256 + wd.code * 2 + b.bit + 152) % 256) = _
  rw [show (b.reg * 256 + wd.code * 2 + b.bit + 152) / 256 = b.reg by omega, show (b.reg * 256 + wd.code * 2 + b.bit + 152) % 256 = wd.code * 2 + b.bit + 152 by omega]
  unfold decVi
  rw [show (wd.code * 2 + b.bit + 152) / 8 = 19 by omega, show (wd.code * 2 + b.bit + 152) % 2 = b.bit by omega, show (wd.code * 2 + b.bit + 152) / 2 % 4 = wd.code by omega, vReg_val d, viSrc_reg b, IntW.ofCode_code]
  rfl

theorem RoundTrip.vseq (d : MReg) (a : VReg) (b : VISrc) (wd : IntW) : RoundTrip.Statement (.vseq d a b wd) := by
  intro _
  have := bit_lt_VISrc b
  have := reg_lt_VISrc b
  have := code_lt_IntW wd
  refine rt (op := 36) (p1 := d.val) (p2 := a.val) (x := b.reg * 256 + wd.code * 2 + b.bit + 160) (by omega) (by omega) (by omega) (by omega) ?_
  show decVi (d.val) (a.val) ((b.reg * 256 + wd.code * 2 + b.bit + 160) / 256) ((b.reg * 256 + wd.code * 2 + b.bit + 160) % 256) = _
  rw [show (b.reg * 256 + wd.code * 2 + b.bit + 160) / 256 = b.reg by omega, show (b.reg * 256 + wd.code * 2 + b.bit + 160) % 256 = wd.code * 2 + b.bit + 160 by omega]
  unfold decVi
  rw [show (wd.code * 2 + b.bit + 160) / 8 = 20 by omega, show (wd.code * 2 + b.bit + 160) % 2 = b.bit by omega, show (wd.code * 2 + b.bit + 160) / 2 % 4 = wd.code by omega, mReg_val d, vReg_val a, viSrc_reg b, IntW.ofCode_code]
  rfl

theorem RoundTrip.vsne (d : MReg) (a : VReg) (b : VISrc) (wd : IntW) : RoundTrip.Statement (.vsne d a b wd) := by
  intro _
  have := bit_lt_VISrc b
  have := reg_lt_VISrc b
  have := code_lt_IntW wd
  refine rt (op := 36) (p1 := d.val) (p2 := a.val) (x := b.reg * 256 + wd.code * 2 + b.bit + 168) (by omega) (by omega) (by omega) (by omega) ?_
  show decVi (d.val) (a.val) ((b.reg * 256 + wd.code * 2 + b.bit + 168) / 256) ((b.reg * 256 + wd.code * 2 + b.bit + 168) % 256) = _
  rw [show (b.reg * 256 + wd.code * 2 + b.bit + 168) / 256 = b.reg by omega, show (b.reg * 256 + wd.code * 2 + b.bit + 168) % 256 = wd.code * 2 + b.bit + 168 by omega]
  unfold decVi
  rw [show (wd.code * 2 + b.bit + 168) / 8 = 21 by omega, show (wd.code * 2 + b.bit + 168) % 2 = b.bit by omega, show (wd.code * 2 + b.bit + 168) / 2 % 4 = wd.code by omega, mReg_val d, vReg_val a, viSrc_reg b, IntW.ofCode_code]
  rfl

theorem RoundTrip.vslt (d : MReg) (a : VReg) (b : VISrc) (wd : IntW) : RoundTrip.Statement (.vslt d a b wd) := by
  intro _
  have := bit_lt_VISrc b
  have := reg_lt_VISrc b
  have := code_lt_IntW wd
  refine rt (op := 36) (p1 := d.val) (p2 := a.val) (x := b.reg * 256 + wd.code * 2 + b.bit + 176) (by omega) (by omega) (by omega) (by omega) ?_
  show decVi (d.val) (a.val) ((b.reg * 256 + wd.code * 2 + b.bit + 176) / 256) ((b.reg * 256 + wd.code * 2 + b.bit + 176) % 256) = _
  rw [show (b.reg * 256 + wd.code * 2 + b.bit + 176) / 256 = b.reg by omega, show (b.reg * 256 + wd.code * 2 + b.bit + 176) % 256 = wd.code * 2 + b.bit + 176 by omega]
  unfold decVi
  rw [show (wd.code * 2 + b.bit + 176) / 8 = 22 by omega, show (wd.code * 2 + b.bit + 176) % 2 = b.bit by omega, show (wd.code * 2 + b.bit + 176) / 2 % 4 = wd.code by omega, mReg_val d, vReg_val a, viSrc_reg b, IntW.ofCode_code]
  rfl

theorem RoundTrip.vsltu (d : MReg) (a : VReg) (b : VISrc) (wd : IntW) : RoundTrip.Statement (.vsltu d a b wd) := by
  intro _
  have := bit_lt_VISrc b
  have := reg_lt_VISrc b
  have := code_lt_IntW wd
  refine rt (op := 36) (p1 := d.val) (p2 := a.val) (x := b.reg * 256 + wd.code * 2 + b.bit + 184) (by omega) (by omega) (by omega) (by omega) ?_
  show decVi (d.val) (a.val) ((b.reg * 256 + wd.code * 2 + b.bit + 184) / 256) ((b.reg * 256 + wd.code * 2 + b.bit + 184) % 256) = _
  rw [show (b.reg * 256 + wd.code * 2 + b.bit + 184) / 256 = b.reg by omega, show (b.reg * 256 + wd.code * 2 + b.bit + 184) % 256 = wd.code * 2 + b.bit + 184 by omega]
  unfold decVi
  rw [show (wd.code * 2 + b.bit + 184) / 8 = 23 by omega, show (wd.code * 2 + b.bit + 184) % 2 = b.bit by omega, show (wd.code * 2 + b.bit + 184) / 2 % 4 = wd.code by omega, mReg_val d, vReg_val a, viSrc_reg b, IntW.ofCode_code]
  rfl

theorem RoundTrip.vsle (d : MReg) (a : VReg) (b : VISrc) (wd : IntW) : RoundTrip.Statement (.vsle d a b wd) := by
  intro _
  have := bit_lt_VISrc b
  have := reg_lt_VISrc b
  have := code_lt_IntW wd
  refine rt (op := 36) (p1 := d.val) (p2 := a.val) (x := b.reg * 256 + wd.code * 2 + b.bit + 192) (by omega) (by omega) (by omega) (by omega) ?_
  show decVi (d.val) (a.val) ((b.reg * 256 + wd.code * 2 + b.bit + 192) / 256) ((b.reg * 256 + wd.code * 2 + b.bit + 192) % 256) = _
  rw [show (b.reg * 256 + wd.code * 2 + b.bit + 192) / 256 = b.reg by omega, show (b.reg * 256 + wd.code * 2 + b.bit + 192) % 256 = wd.code * 2 + b.bit + 192 by omega]
  unfold decVi
  rw [show (wd.code * 2 + b.bit + 192) / 8 = 24 by omega, show (wd.code * 2 + b.bit + 192) % 2 = b.bit by omega, show (wd.code * 2 + b.bit + 192) / 2 % 4 = wd.code by omega, mReg_val d, vReg_val a, viSrc_reg b, IntW.ofCode_code]
  rfl

theorem RoundTrip.vsleu (d : MReg) (a : VReg) (b : VISrc) (wd : IntW) : RoundTrip.Statement (.vsleu d a b wd) := by
  intro _
  have := bit_lt_VISrc b
  have := reg_lt_VISrc b
  have := code_lt_IntW wd
  refine rt (op := 36) (p1 := d.val) (p2 := a.val) (x := b.reg * 256 + wd.code * 2 + b.bit + 200) (by omega) (by omega) (by omega) (by omega) ?_
  show decVi (d.val) (a.val) ((b.reg * 256 + wd.code * 2 + b.bit + 200) / 256) ((b.reg * 256 + wd.code * 2 + b.bit + 200) % 256) = _
  rw [show (b.reg * 256 + wd.code * 2 + b.bit + 200) / 256 = b.reg by omega, show (b.reg * 256 + wd.code * 2 + b.bit + 200) % 256 = wd.code * 2 + b.bit + 200 by omega]
  unfold decVi
  rw [show (wd.code * 2 + b.bit + 200) / 8 = 25 by omega, show (wd.code * 2 + b.bit + 200) % 2 = b.bit by omega, show (wd.code * 2 + b.bit + 200) / 2 % 4 = wd.code by omega, mReg_val d, vReg_val a, viSrc_reg b, IntW.ofCode_code]
  rfl

theorem RoundTrip.vadc (d : VReg) (a : VReg) (b : VReg) (c : MReg) (wd : CarryW) : RoundTrip.Statement (.vadc d a b c wd) := by
  intro _
  have := code_lt_CarryW wd
  refine rt (op := 37) (p1 := d.val) (p2 := a.val) (x := b.val * 256 + c.val * 4 + wd.code * 2) (by omega) (by omega) (by omega) (by omega) ?_
  show decVcarry (d.val) (a.val) ((b.val * 256 + c.val * 4 + wd.code * 2) / 256) ((b.val * 256 + c.val * 4 + wd.code * 2) % 256) = _
  rw [show (b.val * 256 + c.val * 4 + wd.code * 2) / 256 = b.val by omega, show (b.val * 256 + c.val * 4 + wd.code * 2) % 256 = c.val * 4 + wd.code * 2 by omega]
  unfold decVcarry
  rw [show (c.val * 4 + wd.code * 2) % 2 = 0 by omega, show (c.val * 4 + wd.code * 2) / 4 = c.val by omega, show (c.val * 4 + wd.code * 2) / 2 % 2 = wd.code by omega, vReg_val d, vReg_val a, vReg_val b, mReg_val c, CarryW.ofCode_code]
  rfl

theorem RoundTrip.vsbc (d : VReg) (a : VReg) (b : VReg) (c : MReg) (wd : CarryW) : RoundTrip.Statement (.vsbc d a b c wd) := by
  intro _
  have := code_lt_CarryW wd
  refine rt (op := 37) (p1 := d.val) (p2 := a.val) (x := b.val * 256 + c.val * 4 + wd.code * 2 + 1) (by omega) (by omega) (by omega) (by omega) ?_
  show decVcarry (d.val) (a.val) ((b.val * 256 + c.val * 4 + wd.code * 2 + 1) / 256) ((b.val * 256 + c.val * 4 + wd.code * 2 + 1) % 256) = _
  rw [show (b.val * 256 + c.val * 4 + wd.code * 2 + 1) / 256 = b.val by omega, show (b.val * 256 + c.val * 4 + wd.code * 2 + 1) % 256 = c.val * 4 + wd.code * 2 + 1 by omega]
  unfold decVcarry
  rw [show (c.val * 4 + wd.code * 2 + 1) % 2 = 1 by omega, show (c.val * 4 + wd.code * 2 + 1) / 4 = c.val by omega, show (c.val * 4 + wd.code * 2 + 1) / 2 % 2 = wd.code by omega, vReg_val d, vReg_val a, vReg_val b, mReg_val c, CarryW.ofCode_code]
  rfl

theorem RoundTrip.vfadd (d : VReg) (a : VReg) (b : VFSrc) (f : FpF) : RoundTrip.Statement (.vfadd d a b f) := by
  intro _
  have := bit_lt_VFSrc b
  have := reg_lt_VFSrc b
  have := code_lt_FpF f
  refine rt (op := 38) (p1 := d.val) (p2 := a.val) (x := b.reg * 256 + f.code * 2 + b.bit) (by omega) (by omega) (by omega) (by omega) ?_
  show decVf (d.val) (a.val) ((b.reg * 256 + f.code * 2 + b.bit) / 256) ((b.reg * 256 + f.code * 2 + b.bit) % 256) = _
  rw [show (b.reg * 256 + f.code * 2 + b.bit) / 256 = b.reg by omega, show (b.reg * 256 + f.code * 2 + b.bit) % 256 = f.code * 2 + b.bit by omega]
  unfold decVf
  rw [show (f.code * 2 + b.bit) / 8 = 0 by omega, show (f.code * 2 + b.bit) % 2 = b.bit by omega, show (f.code * 2 + b.bit) / 2 % 4 = f.code by omega, vReg_val d, vReg_val a, vfSrc_reg b, FpF.ofCode_code]
  rfl

theorem RoundTrip.vfsub (d : VReg) (a : VReg) (b : VFSrc) (f : FpF) : RoundTrip.Statement (.vfsub d a b f) := by
  intro _
  have := bit_lt_VFSrc b
  have := reg_lt_VFSrc b
  have := code_lt_FpF f
  refine rt (op := 38) (p1 := d.val) (p2 := a.val) (x := b.reg * 256 + f.code * 2 + b.bit + 8) (by omega) (by omega) (by omega) (by omega) ?_
  show decVf (d.val) (a.val) ((b.reg * 256 + f.code * 2 + b.bit + 8) / 256) ((b.reg * 256 + f.code * 2 + b.bit + 8) % 256) = _
  rw [show (b.reg * 256 + f.code * 2 + b.bit + 8) / 256 = b.reg by omega, show (b.reg * 256 + f.code * 2 + b.bit + 8) % 256 = f.code * 2 + b.bit + 8 by omega]
  unfold decVf
  rw [show (f.code * 2 + b.bit + 8) / 8 = 1 by omega, show (f.code * 2 + b.bit + 8) % 2 = b.bit by omega, show (f.code * 2 + b.bit + 8) / 2 % 4 = f.code by omega, vReg_val d, vReg_val a, vfSrc_reg b, FpF.ofCode_code]
  rfl

theorem RoundTrip.vfmul (d : VReg) (a : VReg) (b : VFSrc) (f : FpF) : RoundTrip.Statement (.vfmul d a b f) := by
  intro _
  have := bit_lt_VFSrc b
  have := reg_lt_VFSrc b
  have := code_lt_FpF f
  refine rt (op := 38) (p1 := d.val) (p2 := a.val) (x := b.reg * 256 + f.code * 2 + b.bit + 16) (by omega) (by omega) (by omega) (by omega) ?_
  show decVf (d.val) (a.val) ((b.reg * 256 + f.code * 2 + b.bit + 16) / 256) ((b.reg * 256 + f.code * 2 + b.bit + 16) % 256) = _
  rw [show (b.reg * 256 + f.code * 2 + b.bit + 16) / 256 = b.reg by omega, show (b.reg * 256 + f.code * 2 + b.bit + 16) % 256 = f.code * 2 + b.bit + 16 by omega]
  unfold decVf
  rw [show (f.code * 2 + b.bit + 16) / 8 = 2 by omega, show (f.code * 2 + b.bit + 16) % 2 = b.bit by omega, show (f.code * 2 + b.bit + 16) / 2 % 4 = f.code by omega, vReg_val d, vReg_val a, vfSrc_reg b, FpF.ofCode_code]
  rfl

theorem RoundTrip.vfdiv (d : VReg) (a : VReg) (b : VFSrc) (f : FpF) : RoundTrip.Statement (.vfdiv d a b f) := by
  intro _
  have := bit_lt_VFSrc b
  have := reg_lt_VFSrc b
  have := code_lt_FpF f
  refine rt (op := 38) (p1 := d.val) (p2 := a.val) (x := b.reg * 256 + f.code * 2 + b.bit + 24) (by omega) (by omega) (by omega) (by omega) ?_
  show decVf (d.val) (a.val) ((b.reg * 256 + f.code * 2 + b.bit + 24) / 256) ((b.reg * 256 + f.code * 2 + b.bit + 24) % 256) = _
  rw [show (b.reg * 256 + f.code * 2 + b.bit + 24) / 256 = b.reg by omega, show (b.reg * 256 + f.code * 2 + b.bit + 24) % 256 = f.code * 2 + b.bit + 24 by omega]
  unfold decVf
  rw [show (f.code * 2 + b.bit + 24) / 8 = 3 by omega, show (f.code * 2 + b.bit + 24) % 2 = b.bit by omega, show (f.code * 2 + b.bit + 24) / 2 % 4 = f.code by omega, vReg_val d, vReg_val a, vfSrc_reg b, FpF.ofCode_code]
  rfl

theorem RoundTrip.vfsqrt (d : VReg) (a : VReg) (f : FpF) : RoundTrip.Statement (.vfsqrt d a f) := by
  intro _
  have := code_lt_FpF f
  refine rt (op := 38) (p1 := d.val) (p2 := a.val) (x := f.code * 2 + 32) (by omega) (by omega) (by omega) (by omega) ?_
  show decVf (d.val) (a.val) ((f.code * 2 + 32) / 256) ((f.code * 2 + 32) % 256) = _
  rw [show (f.code * 2 + 32) / 256 = 0 by omega, show (f.code * 2 + 32) % 256 = f.code * 2 + 32 by omega]
  unfold decVf
  rw [show (f.code * 2 + 32) / 8 = 4 by omega, show (f.code * 2 + 32) % 2 = 0 by omega, show (f.code * 2 + 32) / 2 % 4 = f.code by omega, vReg_val d, vReg_val a, FpF.ofCode_code]
  rfl

theorem RoundTrip.vfmin (d : VReg) (a : VReg) (b : VFSrc) (f : FpF) : RoundTrip.Statement (.vfmin d a b f) := by
  intro _
  have := bit_lt_VFSrc b
  have := reg_lt_VFSrc b
  have := code_lt_FpF f
  refine rt (op := 38) (p1 := d.val) (p2 := a.val) (x := b.reg * 256 + f.code * 2 + b.bit + 40) (by omega) (by omega) (by omega) (by omega) ?_
  show decVf (d.val) (a.val) ((b.reg * 256 + f.code * 2 + b.bit + 40) / 256) ((b.reg * 256 + f.code * 2 + b.bit + 40) % 256) = _
  rw [show (b.reg * 256 + f.code * 2 + b.bit + 40) / 256 = b.reg by omega, show (b.reg * 256 + f.code * 2 + b.bit + 40) % 256 = f.code * 2 + b.bit + 40 by omega]
  unfold decVf
  rw [show (f.code * 2 + b.bit + 40) / 8 = 5 by omega, show (f.code * 2 + b.bit + 40) % 2 = b.bit by omega, show (f.code * 2 + b.bit + 40) / 2 % 4 = f.code by omega, vReg_val d, vReg_val a, vfSrc_reg b, FpF.ofCode_code]
  rfl

theorem RoundTrip.vfmax (d : VReg) (a : VReg) (b : VFSrc) (f : FpF) : RoundTrip.Statement (.vfmax d a b f) := by
  intro _
  have := bit_lt_VFSrc b
  have := reg_lt_VFSrc b
  have := code_lt_FpF f
  refine rt (op := 38) (p1 := d.val) (p2 := a.val) (x := b.reg * 256 + f.code * 2 + b.bit + 48) (by omega) (by omega) (by omega) (by omega) ?_
  show decVf (d.val) (a.val) ((b.reg * 256 + f.code * 2 + b.bit + 48) / 256) ((b.reg * 256 + f.code * 2 + b.bit + 48) % 256) = _
  rw [show (b.reg * 256 + f.code * 2 + b.bit + 48) / 256 = b.reg by omega, show (b.reg * 256 + f.code * 2 + b.bit + 48) % 256 = f.code * 2 + b.bit + 48 by omega]
  unfold decVf
  rw [show (f.code * 2 + b.bit + 48) / 8 = 6 by omega, show (f.code * 2 + b.bit + 48) % 2 = b.bit by omega, show (f.code * 2 + b.bit + 48) / 2 % 4 = f.code by omega, vReg_val d, vReg_val a, vfSrc_reg b, FpF.ofCode_code]
  rfl

theorem RoundTrip.vfmadd (d : VReg) (a : VReg) (b : VFSrc) (f : FpF) : RoundTrip.Statement (.vfmadd d a b f) := by
  intro _
  have := bit_lt_VFSrc b
  have := reg_lt_VFSrc b
  have := code_lt_FpF f
  refine rt (op := 38) (p1 := d.val) (p2 := a.val) (x := b.reg * 256 + f.code * 2 + b.bit + 56) (by omega) (by omega) (by omega) (by omega) ?_
  show decVf (d.val) (a.val) ((b.reg * 256 + f.code * 2 + b.bit + 56) / 256) ((b.reg * 256 + f.code * 2 + b.bit + 56) % 256) = _
  rw [show (b.reg * 256 + f.code * 2 + b.bit + 56) / 256 = b.reg by omega, show (b.reg * 256 + f.code * 2 + b.bit + 56) % 256 = f.code * 2 + b.bit + 56 by omega]
  unfold decVf
  rw [show (f.code * 2 + b.bit + 56) / 8 = 7 by omega, show (f.code * 2 + b.bit + 56) % 2 = b.bit by omega, show (f.code * 2 + b.bit + 56) / 2 % 4 = f.code by omega, vReg_val d, vReg_val a, vfSrc_reg b, FpF.ofCode_code]
  rfl

theorem RoundTrip.vfmsub (d : VReg) (a : VReg) (b : VFSrc) (f : FpF) : RoundTrip.Statement (.vfmsub d a b f) := by
  intro _
  have := bit_lt_VFSrc b
  have := reg_lt_VFSrc b
  have := code_lt_FpF f
  refine rt (op := 38) (p1 := d.val) (p2 := a.val) (x := b.reg * 256 + f.code * 2 + b.bit + 64) (by omega) (by omega) (by omega) (by omega) ?_
  show decVf (d.val) (a.val) ((b.reg * 256 + f.code * 2 + b.bit + 64) / 256) ((b.reg * 256 + f.code * 2 + b.bit + 64) % 256) = _
  rw [show (b.reg * 256 + f.code * 2 + b.bit + 64) / 256 = b.reg by omega, show (b.reg * 256 + f.code * 2 + b.bit + 64) % 256 = f.code * 2 + b.bit + 64 by omega]
  unfold decVf
  rw [show (f.code * 2 + b.bit + 64) / 8 = 8 by omega, show (f.code * 2 + b.bit + 64) % 2 = b.bit by omega, show (f.code * 2 + b.bit + 64) / 2 % 4 = f.code by omega, vReg_val d, vReg_val a, vfSrc_reg b, FpF.ofCode_code]
  rfl

theorem RoundTrip.vfnmadd (d : VReg) (a : VReg) (b : VFSrc) (f : FpF) : RoundTrip.Statement (.vfnmadd d a b f) := by
  intro _
  have := bit_lt_VFSrc b
  have := reg_lt_VFSrc b
  have := code_lt_FpF f
  refine rt (op := 38) (p1 := d.val) (p2 := a.val) (x := b.reg * 256 + f.code * 2 + b.bit + 72) (by omega) (by omega) (by omega) (by omega) ?_
  show decVf (d.val) (a.val) ((b.reg * 256 + f.code * 2 + b.bit + 72) / 256) ((b.reg * 256 + f.code * 2 + b.bit + 72) % 256) = _
  rw [show (b.reg * 256 + f.code * 2 + b.bit + 72) / 256 = b.reg by omega, show (b.reg * 256 + f.code * 2 + b.bit + 72) % 256 = f.code * 2 + b.bit + 72 by omega]
  unfold decVf
  rw [show (f.code * 2 + b.bit + 72) / 8 = 9 by omega, show (f.code * 2 + b.bit + 72) % 2 = b.bit by omega, show (f.code * 2 + b.bit + 72) / 2 % 4 = f.code by omega, vReg_val d, vReg_val a, vfSrc_reg b, FpF.ofCode_code]
  rfl

theorem RoundTrip.vfnmsub (d : VReg) (a : VReg) (b : VFSrc) (f : FpF) : RoundTrip.Statement (.vfnmsub d a b f) := by
  intro _
  have := bit_lt_VFSrc b
  have := reg_lt_VFSrc b
  have := code_lt_FpF f
  refine rt (op := 38) (p1 := d.val) (p2 := a.val) (x := b.reg * 256 + f.code * 2 + b.bit + 80) (by omega) (by omega) (by omega) (by omega) ?_
  show decVf (d.val) (a.val) ((b.reg * 256 + f.code * 2 + b.bit + 80) / 256) ((b.reg * 256 + f.code * 2 + b.bit + 80) % 256) = _
  rw [show (b.reg * 256 + f.code * 2 + b.bit + 80) / 256 = b.reg by omega, show (b.reg * 256 + f.code * 2 + b.bit + 80) % 256 = f.code * 2 + b.bit + 80 by omega]
  unfold decVf
  rw [show (f.code * 2 + b.bit + 80) / 8 = 10 by omega, show (f.code * 2 + b.bit + 80) % 2 = b.bit by omega, show (f.code * 2 + b.bit + 80) / 2 % 4 = f.code by omega, vReg_val d, vReg_val a, vfSrc_reg b, FpF.ofCode_code]
  rfl

theorem RoundTrip.vfabs (d : VReg) (a : VReg) (f : FpF) : RoundTrip.Statement (.vfabs d a f) := by
  intro _
  have := code_lt_FpF f
  refine rt (op := 38) (p1 := d.val) (p2 := a.val) (x := f.code * 2 + 88) (by omega) (by omega) (by omega) (by omega) ?_
  show decVf (d.val) (a.val) ((f.code * 2 + 88) / 256) ((f.code * 2 + 88) % 256) = _
  rw [show (f.code * 2 + 88) / 256 = 0 by omega, show (f.code * 2 + 88) % 256 = f.code * 2 + 88 by omega]
  unfold decVf
  rw [show (f.code * 2 + 88) / 8 = 11 by omega, show (f.code * 2 + 88) % 2 = 0 by omega, show (f.code * 2 + 88) / 2 % 4 = f.code by omega, vReg_val d, vReg_val a, FpF.ofCode_code]
  rfl

theorem RoundTrip.vfneg (d : VReg) (a : VReg) (f : FpF) : RoundTrip.Statement (.vfneg d a f) := by
  intro _
  have := code_lt_FpF f
  refine rt (op := 38) (p1 := d.val) (p2 := a.val) (x := f.code * 2 + 96) (by omega) (by omega) (by omega) (by omega) ?_
  show decVf (d.val) (a.val) ((f.code * 2 + 96) / 256) ((f.code * 2 + 96) % 256) = _
  rw [show (f.code * 2 + 96) / 256 = 0 by omega, show (f.code * 2 + 96) % 256 = f.code * 2 + 96 by omega]
  unfold decVf
  rw [show (f.code * 2 + 96) / 8 = 12 by omega, show (f.code * 2 + 96) % 2 = 0 by omega, show (f.code * 2 + 96) / 2 % 4 = f.code by omega, vReg_val d, vReg_val a, FpF.ofCode_code]
  rfl

theorem RoundTrip.vfsgn (d : VReg) (a : VReg) (b : VFSrc) (f : FpF) : RoundTrip.Statement (.vfsgn d a b f) := by
  intro _
  have := bit_lt_VFSrc b
  have := reg_lt_VFSrc b
  have := code_lt_FpF f
  refine rt (op := 38) (p1 := d.val) (p2 := a.val) (x := b.reg * 256 + f.code * 2 + b.bit + 104) (by omega) (by omega) (by omega) (by omega) ?_
  show decVf (d.val) (a.val) ((b.reg * 256 + f.code * 2 + b.bit + 104) / 256) ((b.reg * 256 + f.code * 2 + b.bit + 104) % 256) = _
  rw [show (b.reg * 256 + f.code * 2 + b.bit + 104) / 256 = b.reg by omega, show (b.reg * 256 + f.code * 2 + b.bit + 104) % 256 = f.code * 2 + b.bit + 104 by omega]
  unfold decVf
  rw [show (f.code * 2 + b.bit + 104) / 8 = 13 by omega, show (f.code * 2 + b.bit + 104) % 2 = b.bit by omega, show (f.code * 2 + b.bit + 104) / 2 % 4 = f.code by omega, vReg_val d, vReg_val a, vfSrc_reg b, FpF.ofCode_code]
  rfl

theorem RoundTrip.vfsgnn (d : VReg) (a : VReg) (b : VFSrc) (f : FpF) : RoundTrip.Statement (.vfsgnn d a b f) := by
  intro _
  have := bit_lt_VFSrc b
  have := reg_lt_VFSrc b
  have := code_lt_FpF f
  refine rt (op := 38) (p1 := d.val) (p2 := a.val) (x := b.reg * 256 + f.code * 2 + b.bit + 112) (by omega) (by omega) (by omega) (by omega) ?_
  show decVf (d.val) (a.val) ((b.reg * 256 + f.code * 2 + b.bit + 112) / 256) ((b.reg * 256 + f.code * 2 + b.bit + 112) % 256) = _
  rw [show (b.reg * 256 + f.code * 2 + b.bit + 112) / 256 = b.reg by omega, show (b.reg * 256 + f.code * 2 + b.bit + 112) % 256 = f.code * 2 + b.bit + 112 by omega]
  unfold decVf
  rw [show (f.code * 2 + b.bit + 112) / 8 = 14 by omega, show (f.code * 2 + b.bit + 112) % 2 = b.bit by omega, show (f.code * 2 + b.bit + 112) / 2 % 4 = f.code by omega, vReg_val d, vReg_val a, vfSrc_reg b, FpF.ofCode_code]
  rfl

theorem RoundTrip.vfsgnx (d : VReg) (a : VReg) (b : VFSrc) (f : FpF) : RoundTrip.Statement (.vfsgnx d a b f) := by
  intro _
  have := bit_lt_VFSrc b
  have := reg_lt_VFSrc b
  have := code_lt_FpF f
  refine rt (op := 38) (p1 := d.val) (p2 := a.val) (x := b.reg * 256 + f.code * 2 + b.bit + 120) (by omega) (by omega) (by omega) (by omega) ?_
  show decVf (d.val) (a.val) ((b.reg * 256 + f.code * 2 + b.bit + 120) / 256) ((b.reg * 256 + f.code * 2 + b.bit + 120) % 256) = _
  rw [show (b.reg * 256 + f.code * 2 + b.bit + 120) / 256 = b.reg by omega, show (b.reg * 256 + f.code * 2 + b.bit + 120) % 256 = f.code * 2 + b.bit + 120 by omega]
  unfold decVf
  rw [show (f.code * 2 + b.bit + 120) / 8 = 15 by omega, show (f.code * 2 + b.bit + 120) % 2 = b.bit by omega, show (f.code * 2 + b.bit + 120) / 2 % 4 = f.code by omega, vReg_val d, vReg_val a, vfSrc_reg b, FpF.ofCode_code]
  rfl

theorem RoundTrip.vfclass (d : VReg) (a : VReg) (f : FpF) : RoundTrip.Statement (.vfclass d a f) := by
  intro _
  have := code_lt_FpF f
  refine rt (op := 38) (p1 := d.val) (p2 := a.val) (x := f.code * 2 + 128) (by omega) (by omega) (by omega) (by omega) ?_
  show decVf (d.val) (a.val) ((f.code * 2 + 128) / 256) ((f.code * 2 + 128) % 256) = _
  rw [show (f.code * 2 + 128) / 256 = 0 by omega, show (f.code * 2 + 128) % 256 = f.code * 2 + 128 by omega]
  unfold decVf
  rw [show (f.code * 2 + 128) / 8 = 16 by omega, show (f.code * 2 + 128) % 2 = 0 by omega, show (f.code * 2 + 128) / 2 % 4 = f.code by omega, vReg_val d, vReg_val a, FpF.ofCode_code]
  rfl

theorem RoundTrip.vfeq (d : MReg) (a : VReg) (b : VFSrc) (f : FpF) : RoundTrip.Statement (.vfeq d a b f) := by
  intro _
  have := bit_lt_VFSrc b
  have := reg_lt_VFSrc b
  have := code_lt_FpF f
  refine rt (op := 38) (p1 := d.val) (p2 := a.val) (x := b.reg * 256 + f.code * 2 + b.bit + 136) (by omega) (by omega) (by omega) (by omega) ?_
  show decVf (d.val) (a.val) ((b.reg * 256 + f.code * 2 + b.bit + 136) / 256) ((b.reg * 256 + f.code * 2 + b.bit + 136) % 256) = _
  rw [show (b.reg * 256 + f.code * 2 + b.bit + 136) / 256 = b.reg by omega, show (b.reg * 256 + f.code * 2 + b.bit + 136) % 256 = f.code * 2 + b.bit + 136 by omega]
  unfold decVf
  rw [show (f.code * 2 + b.bit + 136) / 8 = 17 by omega, show (f.code * 2 + b.bit + 136) % 2 = b.bit by omega, show (f.code * 2 + b.bit + 136) / 2 % 4 = f.code by omega, mReg_val d, vReg_val a, vfSrc_reg b, FpF.ofCode_code]
  rfl

theorem RoundTrip.vfne (d : MReg) (a : VReg) (b : VFSrc) (f : FpF) : RoundTrip.Statement (.vfne d a b f) := by
  intro _
  have := bit_lt_VFSrc b
  have := reg_lt_VFSrc b
  have := code_lt_FpF f
  refine rt (op := 38) (p1 := d.val) (p2 := a.val) (x := b.reg * 256 + f.code * 2 + b.bit + 144) (by omega) (by omega) (by omega) (by omega) ?_
  show decVf (d.val) (a.val) ((b.reg * 256 + f.code * 2 + b.bit + 144) / 256) ((b.reg * 256 + f.code * 2 + b.bit + 144) % 256) = _
  rw [show (b.reg * 256 + f.code * 2 + b.bit + 144) / 256 = b.reg by omega, show (b.reg * 256 + f.code * 2 + b.bit + 144) % 256 = f.code * 2 + b.bit + 144 by omega]
  unfold decVf
  rw [show (f.code * 2 + b.bit + 144) / 8 = 18 by omega, show (f.code * 2 + b.bit + 144) % 2 = b.bit by omega, show (f.code * 2 + b.bit + 144) / 2 % 4 = f.code by omega, mReg_val d, vReg_val a, vfSrc_reg b, FpF.ofCode_code]
  rfl

theorem RoundTrip.vflt (d : MReg) (a : VReg) (b : VFSrc) (f : FpF) : RoundTrip.Statement (.vflt d a b f) := by
  intro _
  have := bit_lt_VFSrc b
  have := reg_lt_VFSrc b
  have := code_lt_FpF f
  refine rt (op := 38) (p1 := d.val) (p2 := a.val) (x := b.reg * 256 + f.code * 2 + b.bit + 152) (by omega) (by omega) (by omega) (by omega) ?_
  show decVf (d.val) (a.val) ((b.reg * 256 + f.code * 2 + b.bit + 152) / 256) ((b.reg * 256 + f.code * 2 + b.bit + 152) % 256) = _
  rw [show (b.reg * 256 + f.code * 2 + b.bit + 152) / 256 = b.reg by omega, show (b.reg * 256 + f.code * 2 + b.bit + 152) % 256 = f.code * 2 + b.bit + 152 by omega]
  unfold decVf
  rw [show (f.code * 2 + b.bit + 152) / 8 = 19 by omega, show (f.code * 2 + b.bit + 152) % 2 = b.bit by omega, show (f.code * 2 + b.bit + 152) / 2 % 4 = f.code by omega, mReg_val d, vReg_val a, vfSrc_reg b, FpF.ofCode_code]
  rfl

theorem RoundTrip.vfle (d : MReg) (a : VReg) (b : VFSrc) (f : FpF) : RoundTrip.Statement (.vfle d a b f) := by
  intro _
  have := bit_lt_VFSrc b
  have := reg_lt_VFSrc b
  have := code_lt_FpF f
  refine rt (op := 38) (p1 := d.val) (p2 := a.val) (x := b.reg * 256 + f.code * 2 + b.bit + 160) (by omega) (by omega) (by omega) (by omega) ?_
  show decVf (d.val) (a.val) ((b.reg * 256 + f.code * 2 + b.bit + 160) / 256) ((b.reg * 256 + f.code * 2 + b.bit + 160) % 256) = _
  rw [show (b.reg * 256 + f.code * 2 + b.bit + 160) / 256 = b.reg by omega, show (b.reg * 256 + f.code * 2 + b.bit + 160) % 256 = f.code * 2 + b.bit + 160 by omega]
  unfold decVf
  rw [show (f.code * 2 + b.bit + 160) / 8 = 20 by omega, show (f.code * 2 + b.bit + 160) % 2 = b.bit by omega, show (f.code * 2 + b.bit + 160) / 2 % 4 = f.code by omega, mReg_val d, vReg_val a, vfSrc_reg b, FpF.ofCode_code]
  rfl

theorem RoundTrip.vfun (d : MReg) (a : VReg) (b : VFSrc) (f : FpF) : RoundTrip.Statement (.vfun d a b f) := by
  intro _
  have := bit_lt_VFSrc b
  have := reg_lt_VFSrc b
  have := code_lt_FpF f
  refine rt (op := 38) (p1 := d.val) (p2 := a.val) (x := b.reg * 256 + f.code * 2 + b.bit + 168) (by omega) (by omega) (by omega) (by omega) ?_
  show decVf (d.val) (a.val) ((b.reg * 256 + f.code * 2 + b.bit + 168) / 256) ((b.reg * 256 + f.code * 2 + b.bit + 168) % 256) = _
  rw [show (b.reg * 256 + f.code * 2 + b.bit + 168) / 256 = b.reg by omega, show (b.reg * 256 + f.code * 2 + b.bit + 168) % 256 = f.code * 2 + b.bit + 168 by omega]
  unfold decVf
  rw [show (f.code * 2 + b.bit + 168) / 8 = 21 by omega, show (f.code * 2 + b.bit + 168) % 2 = b.bit by omega, show (f.code * 2 + b.bit + 168) / 2 % 4 = f.code by omega, mReg_val d, vReg_val a, vfSrc_reg b, FpF.ofCode_code]
  rfl

theorem RoundTrip.vgrd (d : VReg) (a : VReg) (f : FpF) : RoundTrip.Statement (.vgrd d a f) := by
  intro _
  have := code_lt_FpF f
  refine rt (op := 39) (p1 := d.val) (p2 := a.val) (x := f.code * 2) (by omega) (by omega) (by omega) (by omega) ?_
  show decVg (d.val) (a.val) ((f.code * 2) / 256) ((f.code * 2) % 256) = _
  rw [show (f.code * 2) / 256 = 0 by omega, show (f.code * 2) % 256 = f.code * 2 by omega]
  unfold decVg
  rw [show (f.code * 2) / 8 = 0 by omega, show (f.code * 2) % 2 = 0 by omega, show (f.code * 2) / 2 % 4 = f.code by omega, vReg_val d, vReg_val a, FpF.ofCode_code]
  rfl

theorem RoundTrip.vgwr (d : VReg) (a : VReg) (f : FpF) : RoundTrip.Statement (.vgwr d a f) := by
  intro _
  have := code_lt_FpF f
  refine rt (op := 39) (p1 := d.val) (p2 := a.val) (x := f.code * 2 + 8) (by omega) (by omega) (by omega) (by omega) ?_
  show decVg (d.val) (a.val) ((f.code * 2 + 8) / 256) ((f.code * 2 + 8) % 256) = _
  rw [show (f.code * 2 + 8) / 256 = 0 by omega, show (f.code * 2 + 8) % 256 = f.code * 2 + 8 by omega]
  unfold decVg
  rw [show (f.code * 2 + 8) / 8 = 1 by omega, show (f.code * 2 + 8) % 2 = 0 by omega, show (f.code * 2 + 8) / 2 % 4 = f.code by omega, vReg_val d, vReg_val a, FpF.ofCode_code]
  rfl

theorem RoundTrip.vgset (d : VReg) (a : GReg) (f : FpF) : RoundTrip.Statement (.vgset d a f) := by
  intro _
  have := code_lt_FpF f
  refine rt (op := 39) (p1 := d.val) (p2 := a.val) (x := f.code * 2 + 16) (by omega) (by omega) (by omega) (by omega) ?_
  show decVg (d.val) (a.val) ((f.code * 2 + 16) / 256) ((f.code * 2 + 16) % 256) = _
  rw [show (f.code * 2 + 16) / 256 = 0 by omega, show (f.code * 2 + 16) % 256 = f.code * 2 + 16 by omega]
  unfold decVg
  rw [show (f.code * 2 + 16) / 8 = 2 by omega, show (f.code * 2 + 16) % 2 = 0 by omega, show (f.code * 2 + 16) / 2 % 4 = f.code by omega, vReg_val d, gReg_val a, FpF.ofCode_code]
  rfl

theorem RoundTrip.vglt (d : MReg) (a : VReg) (b : GReg) (f : FpF) : RoundTrip.Statement (.vglt d a b f) := by
  intro _
  have := code_lt_FpF f
  refine rt (op := 39) (p1 := d.val) (p2 := a.val) (x := b.val * 256 + f.code * 2 + 24) (by omega) (by omega) (by omega) (by omega) ?_
  show decVg (d.val) (a.val) ((b.val * 256 + f.code * 2 + 24) / 256) ((b.val * 256 + f.code * 2 + 24) % 256) = _
  rw [show (b.val * 256 + f.code * 2 + 24) / 256 = b.val by omega, show (b.val * 256 + f.code * 2 + 24) % 256 = f.code * 2 + 24 by omega]
  unfold decVg
  rw [show (f.code * 2 + 24) / 8 = 3 by omega, show (f.code * 2 + 24) % 2 = 0 by omega, show (f.code * 2 + 24) / 2 % 4 = f.code by omega, mReg_val d, vReg_val a, gReg_val b, FpF.ofCode_code]
  rfl

theorem RoundTrip.vgmin (d : GReg) (a : VReg) (f : FpF) : RoundTrip.Statement (.vgmin d a f) := by
  intro _
  have := code_lt_FpF f
  refine rt (op := 39) (p1 := d.val) (p2 := a.val) (x := f.code * 2 + 32) (by omega) (by omega) (by omega) (by omega) ?_
  show decVg (d.val) (a.val) ((f.code * 2 + 32) / 256) ((f.code * 2 + 32) % 256) = _
  rw [show (f.code * 2 + 32) / 256 = 0 by omega, show (f.code * 2 + 32) % 256 = f.code * 2 + 32 by omega]
  unfold decVg
  rw [show (f.code * 2 + 32) / 8 = 4 by omega, show (f.code * 2 + 32) % 2 = 0 by omega, show (f.code * 2 + 32) / 2 % 4 = f.code by omega, gReg_val d, vReg_val a, FpF.ofCode_code]
  rfl

theorem RoundTrip.vgfull (d : VReg) (f : FpF) : RoundTrip.Statement (.vgfull d f) := by
  intro _
  have := code_lt_FpF f
  refine rt (op := 39) (p1 := d.val) (p2 := 0) (x := f.code * 2 + 40) (by omega) (by omega) (by omega) (by omega) ?_
  show decVg (d.val) (0) ((f.code * 2 + 40) / 256) ((f.code * 2 + 40) % 256) = _
  rw [show (f.code * 2 + 40) / 256 = 0 by omega, show (f.code * 2 + 40) % 256 = f.code * 2 + 40 by omega]
  unfold decVg
  rw [show (f.code * 2 + 40) / 8 = 5 by omega, show (f.code * 2 + 40) % 2 = 0 by omega, show (f.code * 2 + 40) / 2 % 4 = f.code by omega, vReg_val d, FpF.ofCode_code]
  rfl

theorem RoundTrip.vld (d : VReg) (a : GReg) (t : ElTy) : RoundTrip.Statement (.vld d a t) := by
  intro _
  have := code_lt_ElTy t
  refine rt (op := 40) (p1 := d.val) (p2 := a.val) (x := t.code) (by omega) (by omega) (by omega) (by omega) ?_
  show decVmem (d.val) (a.val) ((t.code) / 256) ((t.code) % 256) = _
  rw [show (t.code) / 256 = 0 by omega, show (t.code) % 256 = t.code by omega]
  unfold decVmem
  rw [show (t.code) / 8 = 0 by omega, show (t.code) % 8 = t.code by omega, vReg_val d, gReg_val a, ElTy.ofCode_code]
  rfl

theorem RoundTrip.vst (s : VReg) (a : GReg) (t : ElTy) : RoundTrip.Statement (.vst s a t) := by
  intro _
  have := code_lt_ElTy t
  refine rt (op := 40) (p1 := s.val) (p2 := a.val) (x := t.code + 8) (by omega) (by omega) (by omega) (by omega) ?_
  show decVmem (s.val) (a.val) ((t.code + 8) / 256) ((t.code + 8) % 256) = _
  rw [show (t.code + 8) / 256 = 0 by omega, show (t.code + 8) % 256 = t.code + 8 by omega]
  unfold decVmem
  rw [show (t.code + 8) / 8 = 1 by omega, show (t.code + 8) % 8 = t.code by omega, vReg_val s, gReg_val a, ElTy.ofCode_code]
  rfl

theorem RoundTrip.vlds (d : VReg) (a : GReg) (t : ElTy) : RoundTrip.Statement (.vlds d a t) := by
  intro _
  have := code_lt_ElTy t
  refine rt (op := 40) (p1 := d.val) (p2 := a.val) (x := t.code + 16) (by omega) (by omega) (by omega) (by omega) ?_
  show decVmem (d.val) (a.val) ((t.code + 16) / 256) ((t.code + 16) % 256) = _
  rw [show (t.code + 16) / 256 = 0 by omega, show (t.code + 16) % 256 = t.code + 16 by omega]
  unfold decVmem
  rw [show (t.code + 16) / 8 = 2 by omega, show (t.code + 16) % 8 = t.code by omega, vReg_val d, gReg_val a, ElTy.ofCode_code]
  rfl

theorem RoundTrip.vsts (s : VReg) (a : GReg) (t : ElTy) : RoundTrip.Statement (.vsts s a t) := by
  intro _
  have := code_lt_ElTy t
  refine rt (op := 40) (p1 := s.val) (p2 := a.val) (x := t.code + 24) (by omega) (by omega) (by omega) (by omega) ?_
  show decVmem (s.val) (a.val) ((t.code + 24) / 256) ((t.code + 24) % 256) = _
  rw [show (t.code + 24) / 256 = 0 by omega, show (t.code + 24) % 256 = t.code + 24 by omega]
  unfold decVmem
  rw [show (t.code + 24) / 8 = 3 by omega, show (t.code + 24) % 8 = t.code by omega, vReg_val s, gReg_val a, ElTy.ofCode_code]
  rfl

theorem RoundTrip.vldx (d : VReg) (a : GReg) (b : VReg) (t : ElTy) : RoundTrip.Statement (.vldx d a b t) := by
  intro _
  have := code_lt_ElTy t
  refine rt (op := 40) (p1 := d.val) (p2 := a.val) (x := b.val * 256 + t.code + 32) (by omega) (by omega) (by omega) (by omega) ?_
  show decVmem (d.val) (a.val) ((b.val * 256 + t.code + 32) / 256) ((b.val * 256 + t.code + 32) % 256) = _
  rw [show (b.val * 256 + t.code + 32) / 256 = b.val by omega, show (b.val * 256 + t.code + 32) % 256 = t.code + 32 by omega]
  unfold decVmem
  rw [show (t.code + 32) / 8 = 4 by omega, show (t.code + 32) % 8 = t.code by omega, vReg_val d, gReg_val a, vReg_val b, ElTy.ofCode_code]
  rfl

theorem RoundTrip.vstx (s : VReg) (a : GReg) (b : VReg) (t : ElTy) : RoundTrip.Statement (.vstx s a b t) := by
  intro _
  have := code_lt_ElTy t
  refine rt (op := 40) (p1 := s.val) (p2 := a.val) (x := b.val * 256 + t.code + 40) (by omega) (by omega) (by omega) (by omega) ?_
  show decVmem (s.val) (a.val) ((b.val * 256 + t.code + 40) / 256) ((b.val * 256 + t.code + 40) % 256) = _
  rw [show (b.val * 256 + t.code + 40) / 256 = b.val by omega, show (b.val * 256 + t.code + 40) % 256 = t.code + 40 by omega]
  unfold decVmem
  rw [show (t.code + 40) / 8 = 5 by omega, show (t.code + 40) % 8 = t.code by omega, vReg_val s, gReg_val a, vReg_val b, ElTy.ofCode_code]
  rfl

theorem RoundTrip.vstxa (s : VReg) (a : GReg) (b : VReg) (t : ElTy) : RoundTrip.Statement (.vstxa s a b t) := by
  intro h
  have hs : t.adds = true := h
  have := code_lt_ElTy t
  refine rt (op := 40) (p1 := s.val) (p2 := a.val) (x := b.val * 256 + t.code + 48) (by omega) (by omega) (by omega) (by omega) ?_
  show decVmem (s.val) (a.val) ((b.val * 256 + t.code + 48) / 256) ((b.val * 256 + t.code + 48) % 256) = _
  rw [show (b.val * 256 + t.code + 48) / 256 = b.val by omega, show (b.val * 256 + t.code + 48) % 256 = t.code + 48 by omega]
  unfold decVmem
  rw [show (t.code + 48) / 8 = 6 by omega, show (t.code + 48) % 8 = t.code by omega, vReg_val s, gReg_val a, vReg_val b,
    show sumTy t.code = .ok t by unfold sumTy; rw [ElTy.ofCode_code]; exact if_pos hs]
  rfl

theorem RoundTrip.vldLn (d : VReg) (b : VReg) (t : ElTy) : RoundTrip.Statement (.vldLn d b t) := by
  intro _
  have := code_lt_ElTy t
  refine rt (op := 40) (p1 := d.val) (p2 := 0) (x := b.val * 256 + t.code + 56) (by omega) (by omega) (by omega) (by omega) ?_
  show decVmem (d.val) (0) ((b.val * 256 + t.code + 56) / 256) ((b.val * 256 + t.code + 56) % 256) = _
  rw [show (b.val * 256 + t.code + 56) / 256 = b.val by omega, show (b.val * 256 + t.code + 56) % 256 = t.code + 56 by omega]
  unfold decVmem
  rw [show (t.code + 56) / 8 = 7 by omega, show (t.code + 56) % 8 = t.code by omega, vReg_val d, vReg_val b, ElTy.ofCode_code]
  rfl

theorem RoundTrip.vstLn (s : VReg) (b : VReg) (t : ElTy) : RoundTrip.Statement (.vstLn s b t) := by
  intro _
  have := code_lt_ElTy t
  refine rt (op := 40) (p1 := s.val) (p2 := 0) (x := b.val * 256 + t.code + 64) (by omega) (by omega) (by omega) (by omega) ?_
  show decVmem (s.val) (0) ((b.val * 256 + t.code + 64) / 256) ((b.val * 256 + t.code + 64) % 256) = _
  rw [show (b.val * 256 + t.code + 64) / 256 = b.val by omega, show (b.val * 256 + t.code + 64) % 256 = t.code + 64 by omega]
  unfold decVmem
  rw [show (t.code + 64) / 8 = 8 by omega, show (t.code + 64) % 8 = t.code by omega, vReg_val s, vReg_val b, ElTy.ofCode_code]
  rfl

theorem RoundTrip.vldb (d : VReg) (a : GReg) (t : ElTy) : RoundTrip.Statement (.vldb d a t) := by
  intro _
  have := code_lt_ElTy t
  refine rt (op := 40) (p1 := d.val) (p2 := a.val) (x := t.code + 72) (by omega) (by omega) (by omega) (by omega) ?_
  show decVmem (d.val) (a.val) ((t.code + 72) / 256) ((t.code + 72) % 256) = _
  rw [show (t.code + 72) / 256 = 0 by omega, show (t.code + 72) % 256 = t.code + 72 by omega]
  unfold decVmem
  rw [show (t.code + 72) / 8 = 9 by omega, show (t.code + 72) % 8 = t.code by omega, vReg_val d, gReg_val a, ElTy.ofCode_code]
  rfl

theorem RoundTrip.vldG (d : VReg) (a : GReg) (t : FpF) : RoundTrip.Statement (.vldG d a t) := by
  intro h
  have := code_lt_FpF t
  refine rt (op := 40) (p1 := d.val) (p2 := a.val) (x := t.code + 84) (by omega) (by omega) (by omega) (by omega) ?_
  show decVmem (d.val) (a.val) ((t.code + 84) / 256) ((t.code + 84) % 256) = _
  rw [show (t.code + 84) / 256 = 0 by omega, show (t.code + 84) % 256 = t.code + 84 by omega]
  unfold decVmem
  rw [show (t.code + 84) / 8 = 10 by omega, show (t.code + 84) % 8 = 4 + t.code by omega, show (t.code + 84) % 4 = t.code by omega, fpCode_code, FpF.ofCode_code, vReg_val d, gReg_val a]
  rfl

theorem RoundTrip.vstG (s : VReg) (a : GReg) (t : FpF) : RoundTrip.Statement (.vstG s a t) := by
  intro h
  have := code_lt_FpF t
  refine rt (op := 40) (p1 := s.val) (p2 := a.val) (x := t.code + 92) (by omega) (by omega) (by omega) (by omega) ?_
  show decVmem (s.val) (a.val) ((t.code + 92) / 256) ((t.code + 92) % 256) = _
  rw [show (t.code + 92) / 256 = 0 by omega, show (t.code + 92) % 256 = t.code + 92 by omega]
  unfold decVmem
  rw [show (t.code + 92) / 8 = 11 by omega, show (t.code + 92) % 8 = 4 + t.code by omega, show (t.code + 92) % 4 = t.code by omega, fpCode_code, FpF.ofCode_code, vReg_val s, gReg_val a]
  rfl

theorem RoundTrip.sbind (d : VReg) (a : GReg) (b : Slot) (t : ElTy) : RoundTrip.Statement (.sbind d a b t) := by
  intro _
  have := code_lt_ElTy t
  refine rt (op := 40) (p1 := d.val) (p2 := a.val) (x := b.val * 256 + t.code + 96) (by omega) (by omega) (by omega) (by omega) ?_
  show decVmem (d.val) (a.val) ((b.val * 256 + t.code + 96) / 256) ((b.val * 256 + t.code + 96) % 256) = _
  rw [show (b.val * 256 + t.code + 96) / 256 = b.val by omega, show (b.val * 256 + t.code + 96) % 256 = t.code + 96 by omega]
  unfold decVmem
  rw [show (t.code + 96) / 8 = 12 by omega, show (t.code + 96) % 8 = t.code by omega, vReg_val d, gReg_val a, slot_val b, ElTy.ofCode_code]
  rfl

theorem RoundTrip.sfree (b : Slot) : RoundTrip.Statement (.sfree b) := by
  intro _
  refine rt (op := 40) (p1 := 0) (p2 := 0) (x := b.val * 256 + 104) (by omega) (by omega) (by omega) (by omega) ?_
  show decVmem (0) (0) ((b.val * 256 + 104) / 256) ((b.val * 256 + 104) % 256) = _
  rw [show (b.val * 256 + 104) / 256 = b.val by omega, show (b.val * 256 + 104) % 256 = 104 by omega]
  unfold decVmem
  rw [slot_val b]
  rfl

theorem RoundTrip.sskip (a : GReg) (b : Slot) : RoundTrip.Statement (.sskip a b) := by
  intro _
  refine rt (op := 40) (p1 := 0) (p2 := a.val) (x := b.val * 256 + 112) (by omega) (by omega) (by omega) (by omega) ?_
  show decVmem (0) (a.val) ((b.val * 256 + 112) / 256) ((b.val * 256 + 112) % 256) = _
  rw [show (b.val * 256 + 112) / 256 = b.val by omega, show (b.val * 256 + 112) % 256 = 112 by omega]
  unfold decVmem
  rw [gReg_val a, slot_val b]
  rfl

theorem RoundTrip.sstat (d : GReg) (b : Slot) : RoundTrip.Statement (.sstat d b) := by
  intro _
  refine rt (op := 40) (p1 := d.val) (p2 := 0) (x := b.val * 256 + 120) (by omega) (by omega) (by omega) (by omega) ?_
  show decVmem (d.val) (0) ((b.val * 256 + 120) / 256) ((b.val * 256 + 120) % 256) = _
  rw [show (b.val * 256 + 120) / 256 = b.val by omega, show (b.val * 256 + 120) % 256 = 120 by omega]
  unfold decVmem
  rw [gReg_val d, slot_val b]
  rfl

theorem RoundTrip.vpre (a : GReg) : RoundTrip.Statement (.vpre a) := by
  intro _
  refine rt (op := 40) (p1 := 0) (p2 := a.val) (x := 128) (by omega) (by omega) (by omega) (by omega) ?_
  show decVmem (0) (a.val) ((128) / 256) ((128) % 256) = _
  unfold decVmem
  rw [gReg_val a]
  rfl

theorem RoundTrip.mand (d : MReg) (a : MReg) (b : MReg) : RoundTrip.Statement (.mand d a b) := by
  intro _
  refine rt (op := 41) (p1 := d.val) (p2 := a.val) (x := b.val * 256) (by omega) (by omega) (by omega) (by omega) ?_
  show decMask (d.val) (a.val) ((b.val * 256) / 256) ((b.val * 256) % 256) = _
  rw [show (b.val * 256) / 256 = b.val by omega, show (b.val * 256) % 256 = 0 by omega]
  unfold decMask
  rw [mReg_val d, mReg_val a, mReg_val b]
  rfl

theorem RoundTrip.mor (d : MReg) (a : MReg) (b : MReg) : RoundTrip.Statement (.mor d a b) := by
  intro _
  refine rt (op := 41) (p1 := d.val) (p2 := a.val) (x := b.val * 256 + 1) (by omega) (by omega) (by omega) (by omega) ?_
  show decMask (d.val) (a.val) ((b.val * 256 + 1) / 256) ((b.val * 256 + 1) % 256) = _
  rw [show (b.val * 256 + 1) / 256 = b.val by omega, show (b.val * 256 + 1) % 256 = 1 by omega]
  unfold decMask
  rw [mReg_val d, mReg_val a, mReg_val b]
  rfl

theorem RoundTrip.mxor (d : MReg) (a : MReg) (b : MReg) : RoundTrip.Statement (.mxor d a b) := by
  intro _
  refine rt (op := 41) (p1 := d.val) (p2 := a.val) (x := b.val * 256 + 2) (by omega) (by omega) (by omega) (by omega) ?_
  show decMask (d.val) (a.val) ((b.val * 256 + 2) / 256) ((b.val * 256 + 2) % 256) = _
  rw [show (b.val * 256 + 2) / 256 = b.val by omega, show (b.val * 256 + 2) % 256 = 2 by omega]
  unfold decMask
  rw [mReg_val d, mReg_val a, mReg_val b]
  rfl

theorem RoundTrip.mandn (d : MReg) (a : MReg) (b : MReg) : RoundTrip.Statement (.mandn d a b) := by
  intro _
  refine rt (op := 41) (p1 := d.val) (p2 := a.val) (x := b.val * 256 + 3) (by omega) (by omega) (by omega) (by omega) ?_
  show decMask (d.val) (a.val) ((b.val * 256 + 3) / 256) ((b.val * 256 + 3) % 256) = _
  rw [show (b.val * 256 + 3) / 256 = b.val by omega, show (b.val * 256 + 3) % 256 = 3 by omega]
  unfold decMask
  rw [mReg_val d, mReg_val a, mReg_val b]
  rfl

theorem RoundTrip.mnot (d : MReg) (a : MReg) : RoundTrip.Statement (.mnot d a) := by
  intro _
  refine rt (op := 41) (p1 := d.val) (p2 := a.val) (x := 4) (by omega) (by omega) (by omega) (by omega) ?_
  show decMask (d.val) (a.val) ((4) / 256) ((4) % 256) = _
  unfold decMask
  rw [mReg_val d, mReg_val a]
  rfl

theorem RoundTrip.mshl (d : MReg) (a : MReg) (b : GReg) : RoundTrip.Statement (.mshl d a b) := by
  intro _
  refine rt (op := 41) (p1 := d.val) (p2 := a.val) (x := b.val * 256 + 5) (by omega) (by omega) (by omega) (by omega) ?_
  show decMask (d.val) (a.val) ((b.val * 256 + 5) / 256) ((b.val * 256 + 5) % 256) = _
  rw [show (b.val * 256 + 5) / 256 = b.val by omega, show (b.val * 256 + 5) % 256 = 5 by omega]
  unfold decMask
  rw [mReg_val d, mReg_val a, gReg_val b]
  rfl

theorem RoundTrip.mshr (d : MReg) (a : MReg) (b : GReg) : RoundTrip.Statement (.mshr d a b) := by
  intro _
  refine rt (op := 41) (p1 := d.val) (p2 := a.val) (x := b.val * 256 + 6) (by omega) (by omega) (by omega) (by omega) ?_
  show decMask (d.val) (a.val) ((b.val * 256 + 6) / 256) ((b.val * 256 + 6) % 256) = _
  rw [show (b.val * 256 + 6) / 256 = b.val by omega, show (b.val * 256 + 6) % 256 = 6 by omega]
  unfold decMask
  rw [mReg_val d, mReg_val a, gReg_val b]
  rfl

theorem RoundTrip.mpop (d : GReg) (a : MReg) : RoundTrip.Statement (.mpop d a) := by
  intro _
  refine rt (op := 41) (p1 := d.val) (p2 := a.val) (x := 7) (by omega) (by omega) (by omega) (by omega) ?_
  show decMask (d.val) (a.val) ((7) / 256) ((7) % 256) = _
  unfold decMask
  rw [gReg_val d, mReg_val a]
  rfl

theorem RoundTrip.mfirst (d : GReg) (a : MReg) : RoundTrip.Statement (.mfirst d a) := by
  intro _
  refine rt (op := 41) (p1 := d.val) (p2 := a.val) (x := 8) (by omega) (by omega) (by omega) (by omega) ?_
  show decMask (d.val) (a.val) ((8) / 256) ((8) % 256) = _
  unfold decMask
  rw [gReg_val d, mReg_val a]
  rfl

theorem RoundTrip.mset (d : MReg) : RoundTrip.Statement (.mset d) := by
  intro _
  refine rt (op := 41) (p1 := d.val) (p2 := 0) (x := 9) (by omega) (by omega) (by omega) (by omega) ?_
  show decMask (d.val) (0) ((9) / 256) ((9) % 256) = _
  unfold decMask
  rw [mReg_val d]
  rfl

theorem RoundTrip.mclr (d : MReg) : RoundTrip.Statement (.mclr d) := by
  intro _
  refine rt (op := 41) (p1 := d.val) (p2 := 0) (x := 10) (by omega) (by omega) (by omega) (by omega) ?_
  show decMask (d.val) (0) ((10) / 256) ((10) % 256) = _
  unfold decMask
  rw [mReg_val d]
  rfl

theorem RoundTrip.mfrom (d : MReg) (a : VReg) : RoundTrip.Statement (.mfrom d a) := by
  intro _
  refine rt (op := 41) (p1 := d.val) (p2 := a.val) (x := 11) (by omega) (by omega) (by omega) (by omega) ?_
  show decMask (d.val) (a.val) ((11) / 256) ((11) % 256) = _
  unfold decMask
  rw [mReg_val d, vReg_val a]
  rfl

theorem RoundTrip.vslup (d : VReg) (a : VReg) (b : GReg) (t : ElTy) : RoundTrip.Statement (.vslup d a b t) := by
  intro _
  have := code_lt_ElTy t
  refine rt (op := 42) (p1 := d.val) (p2 := a.val) (x := b.val * 256 + t.code) (by omega) (by omega) (by omega) (by omega) ?_
  show decPerm (d.val) (a.val) ((b.val * 256 + t.code) / 256) ((b.val * 256 + t.code) % 256) = _
  rw [show (b.val * 256 + t.code) / 256 = b.val by omega, show (b.val * 256 + t.code) % 256 = t.code by omega]
  unfold decPerm
  rw [show (t.code) / 8 = 0 by omega, show (t.code) % 8 = t.code by omega, vReg_val d, vReg_val a, gReg_val b, ElTy.ofCode_code]
  rfl

theorem RoundTrip.vsldn (d : VReg) (a : VReg) (b : GReg) (t : ElTy) : RoundTrip.Statement (.vsldn d a b t) := by
  intro _
  have := code_lt_ElTy t
  refine rt (op := 42) (p1 := d.val) (p2 := a.val) (x := b.val * 256 + t.code + 8) (by omega) (by omega) (by omega) (by omega) ?_
  show decPerm (d.val) (a.val) ((b.val * 256 + t.code + 8) / 256) ((b.val * 256 + t.code + 8) % 256) = _
  rw [show (b.val * 256 + t.code + 8) / 256 = b.val by omega, show (b.val * 256 + t.code + 8) % 256 = t.code + 8 by omega]
  unfold decPerm
  rw [show (t.code + 8) / 8 = 1 by omega, show (t.code + 8) % 8 = t.code by omega, vReg_val d, vReg_val a, gReg_val b, ElTy.ofCode_code]
  rfl

theorem RoundTrip.vpack (d : VReg) (a : VReg) (t : ElTy) : RoundTrip.Statement (.vpack d a t) := by
  intro _
  have := code_lt_ElTy t
  refine rt (op := 42) (p1 := d.val) (p2 := a.val) (x := t.code + 16) (by omega) (by omega) (by omega) (by omega) ?_
  show decPerm (d.val) (a.val) ((t.code + 16) / 256) ((t.code + 16) % 256) = _
  rw [show (t.code + 16) / 256 = 0 by omega, show (t.code + 16) % 256 = t.code + 16 by omega]
  unfold decPerm
  rw [show (t.code + 16) / 8 = 2 by omega, show (t.code + 16) % 8 = t.code by omega, vReg_val d, vReg_val a, ElTy.ofCode_code]
  rfl

theorem RoundTrip.vunpk (d : VReg) (a : VReg) (t : ElTy) : RoundTrip.Statement (.vunpk d a t) := by
  intro _
  have := code_lt_ElTy t
  refine rt (op := 42) (p1 := d.val) (p2 := a.val) (x := t.code + 24) (by omega) (by omega) (by omega) (by omega) ?_
  show decPerm (d.val) (a.val) ((t.code + 24) / 256) ((t.code + 24) % 256) = _
  rw [show (t.code + 24) / 256 = 0 by omega, show (t.code + 24) % 256 = t.code + 24 by omega]
  unfold decPerm
  rw [show (t.code + 24) / 8 = 3 by omega, show (t.code + 24) % 8 = t.code by omega, vReg_val d, vReg_val a, ElTy.ofCode_code]
  rfl

theorem RoundTrip.vperm (d : VReg) (a : VReg) (b : VReg) (t : ElTy) : RoundTrip.Statement (.vperm d a b t) := by
  intro _
  have := code_lt_ElTy t
  refine rt (op := 42) (p1 := d.val) (p2 := a.val) (x := b.val * 256 + t.code + 32) (by omega) (by omega) (by omega) (by omega) ?_
  show decPerm (d.val) (a.val) ((b.val * 256 + t.code + 32) / 256) ((b.val * 256 + t.code + 32) % 256) = _
  rw [show (b.val * 256 + t.code + 32) / 256 = b.val by omega, show (b.val * 256 + t.code + 32) % 256 = t.code + 32 by omega]
  unfold decPerm
  rw [show (t.code + 32) / 8 = 4 by omega, show (t.code + 32) % 8 = t.code by omega, vReg_val d, vReg_val a, vReg_val b, ElTy.ofCode_code]
  rfl

theorem RoundTrip.vconfl (d : VReg) (a : VReg) (t : IntW) : RoundTrip.Statement (.vconfl d a t) := by
  intro _
  have := code_lt_IntW t
  refine rt (op := 42) (p1 := d.val) (p2 := a.val) (x := t.code + 40) (by omega) (by omega) (by omega) (by omega) ?_
  show decPerm (d.val) (a.val) ((t.code + 40) / 256) ((t.code + 40) % 256) = _
  rw [show (t.code + 40) / 256 = 0 by omega, show (t.code + 40) % 256 = t.code + 40 by omega]
  unfold decPerm
  rw [show (t.code + 40) / 8 = 5 by omega, show (t.code + 40) % 8 = t.code by omega, vReg_val d, vReg_val a, intTy_code]
  rfl

theorem RoundTrip.vrsum (r : RedDst) (a : VReg) : RoundTrip.Statement (.vrsum r a) := by
  intro _
  have := code_lt_RedDst r
  have := dst_lt_RedDst r
  refine rt (op := 42) (p1 := r.dst) (p2 := a.val) (x := r.code + 48) (by omega) (by omega) (by omega) (by omega) ?_
  show decPerm (r.dst) (a.val) ((r.code + 48) / 256) ((r.code + 48) % 256) = _
  rw [show (r.code + 48) / 256 = 0 by omega, show (r.code + 48) % 256 = r.code + 48 by omega]
  unfold decPerm
  rw [show (r.code + 48) / 8 = 6 by omega, show (r.code + 48) % 8 = r.code by omega, redDst_code, vReg_val a]
  rfl

theorem RoundTrip.vrosum (d : FReg) (a : VReg) (t : FpF) : RoundTrip.Statement (.vrosum d a t) := by
  intro _
  have := code_lt_FpF t
  refine rt (op := 42) (p1 := d.val) (p2 := a.val) (x := (4 + t.code) + 56) (by omega) (by omega) (by omega) (by omega) ?_
  show decPerm (d.val) (a.val) (((4 + t.code) + 56) / 256) (((4 + t.code) + 56) % 256) = _
  rw [show ((4 + t.code) + 56) / 256 = 0 by omega, show ((4 + t.code) + 56) % 256 = (4 + t.code) + 56 by omega]
  unfold decPerm
  rw [show ((4 + t.code) + 56) / 8 = 7 by omega, show ((4 + t.code) + 56) % 8 = 4 + t.code by omega, fReg_val d, vReg_val a, fpTy_code]
  rfl

theorem RoundTrip.vrmin (r : RedDst) (a : VReg) : RoundTrip.Statement (.vrmin r a) := by
  intro _
  have := code_lt_RedDst r
  have := dst_lt_RedDst r
  refine rt (op := 42) (p1 := r.dst) (p2 := a.val) (x := r.code + 64) (by omega) (by omega) (by omega) (by omega) ?_
  show decPerm (r.dst) (a.val) ((r.code + 64) / 256) ((r.code + 64) % 256) = _
  rw [show (r.code + 64) / 256 = 0 by omega, show (r.code + 64) % 256 = r.code + 64 by omega]
  unfold decPerm
  rw [show (r.code + 64) / 8 = 8 by omega, show (r.code + 64) % 8 = r.code by omega, redDst_code, vReg_val a]
  rfl

theorem RoundTrip.vrmax (r : RedDst) (a : VReg) : RoundTrip.Statement (.vrmax r a) := by
  intro _
  have := code_lt_RedDst r
  have := dst_lt_RedDst r
  refine rt (op := 42) (p1 := r.dst) (p2 := a.val) (x := r.code + 72) (by omega) (by omega) (by omega) (by omega) ?_
  show decPerm (r.dst) (a.val) ((r.code + 72) / 256) ((r.code + 72) % 256) = _
  rw [show (r.code + 72) / 256 = 0 by omega, show (r.code + 72) % 256 = r.code + 72 by omega]
  unfold decPerm
  rw [show (r.code + 72) / 8 = 9 by omega, show (r.code + 72) % 8 = r.code by omega, redDst_code, vReg_val a]
  rfl

theorem RoundTrip.vrand (d : GReg) (a : VReg) (t : IntW) : RoundTrip.Statement (.vrand d a t) := by
  intro _
  have := code_lt_IntW t
  refine rt (op := 42) (p1 := d.val) (p2 := a.val) (x := t.code + 80) (by omega) (by omega) (by omega) (by omega) ?_
  show decPerm (d.val) (a.val) ((t.code + 80) / 256) ((t.code + 80) % 256) = _
  rw [show (t.code + 80) / 256 = 0 by omega, show (t.code + 80) % 256 = t.code + 80 by omega]
  unfold decPerm
  rw [show (t.code + 80) / 8 = 10 by omega, show (t.code + 80) % 8 = t.code by omega, gReg_val d, vReg_val a, intTy_code]
  rfl

theorem RoundTrip.vrior (d : GReg) (a : VReg) (t : IntW) : RoundTrip.Statement (.vrior d a t) := by
  intro _
  have := code_lt_IntW t
  refine rt (op := 42) (p1 := d.val) (p2 := a.val) (x := t.code + 88) (by omega) (by omega) (by omega) (by omega) ?_
  show decPerm (d.val) (a.val) ((t.code + 88) / 256) ((t.code + 88) % 256) = _
  rw [show (t.code + 88) / 256 = 0 by omega, show (t.code + 88) % 256 = t.code + 88 by omega]
  unfold decPerm
  rw [show (t.code + 88) / 8 = 11 by omega, show (t.code + 88) % 8 = t.code by omega, gReg_val d, vReg_val a, intTy_code]
  rfl

theorem RoundTrip.vrosat (d : GReg) (a : VReg) (t : IntW) : RoundTrip.Statement (.vrosat d a t) := by
  intro _
  have := code_lt_IntW t
  refine rt (op := 42) (p1 := d.val) (p2 := a.val) (x := t.code + 96) (by omega) (by omega) (by omega) (by omega) ?_
  show decPerm (d.val) (a.val) ((t.code + 96) / 256) ((t.code + 96) % 256) = _
  rw [show (t.code + 96) / 256 = 0 by omega, show (t.code + 96) % 256 = t.code + 96 by omega]
  unfold decPerm
  rw [show (t.code + 96) / 8 = 12 by omega, show (t.code + 96) % 8 = t.code by omega, gReg_val d, vReg_val a, intTy_code]
  rfl

theorem RoundTrip.vscan (d : VReg) (a : VReg) (t : ElTy) : RoundTrip.Statement (.vscan d a t) := by
  intro _
  have := code_lt_ElTy t
  refine rt (op := 42) (p1 := d.val) (p2 := a.val) (x := t.code + 104) (by omega) (by omega) (by omega) (by omega) ?_
  show decPerm (d.val) (a.val) ((t.code + 104) / 256) ((t.code + 104) % 256) = _
  rw [show (t.code + 104) / 256 = 0 by omega, show (t.code + 104) % 256 = t.code + 104 by omega]
  unfold decPerm
  rw [show (t.code + 104) / 8 = 13 by omega, show (t.code + 104) % 8 = t.code by omega, vReg_val d, vReg_val a, ElTy.ofCode_code]
  rfl

theorem RoundTrip.vlrec (d : VReg) (a : VReg) (b : VReg) (t : FpF) : RoundTrip.Statement (.vlrec d a b t) := by
  intro _
  have := code_lt_FpF t
  refine rt (op := 42) (p1 := d.val) (p2 := a.val) (x := b.val * 256 + (4 + t.code) + 112) (by omega) (by omega) (by omega) (by omega) ?_
  show decPerm (d.val) (a.val) ((b.val * 256 + (4 + t.code) + 112) / 256) ((b.val * 256 + (4 + t.code) + 112) % 256) = _
  rw [show (b.val * 256 + (4 + t.code) + 112) / 256 = b.val by omega, show (b.val * 256 + (4 + t.code) + 112) % 256 = (4 + t.code) + 112 by omega]
  unfold decPerm
  rw [show ((4 + t.code) + 112) / 8 = 14 by omega, show ((4 + t.code) + 112) % 8 = 4 + t.code by omega, vReg_val d, vReg_val a, vReg_val b, fpTy_code]
  rfl

theorem RoundTrip.vsel (d : VReg) (a : VReg) (b : VReg) (t : ElTy) : RoundTrip.Statement (.vsel d a b t) := by
  intro _
  have := code_lt_ElTy t
  refine rt (op := 42) (p1 := d.val) (p2 := a.val) (x := b.val * 256 + t.code + 120) (by omega) (by omega) (by omega) (by omega) ?_
  show decPerm (d.val) (a.val) ((b.val * 256 + t.code + 120) / 256) ((b.val * 256 + t.code + 120) % 256) = _
  rw [show (b.val * 256 + t.code + 120) / 256 = b.val by omega, show (b.val * 256 + t.code + 120) % 256 = t.code + 120 by omega]
  unfold decPerm
  rw [show (t.code + 120) / 8 = 15 by omega, show (t.code + 120) % 8 = t.code by omega, vReg_val d, vReg_val a, vReg_val b, ElTy.ofCode_code]
  rfl

theorem RoundTrip.vcvt (d : VReg) (a : VReg) (s : CvTy) (t : CvTy) (r : Rnd) (x : Bool) : RoundTrip.Statement (.vcvt d a s t r x) := by
  intro h
  have := code_lt_CvTy s
  have := code_lt_CvTy t
  have := code_lt_Rnd r
  have := toNat_lt_Bool x
  refine rt (op := 43) (p1 := d.val) (p2 := a.val) (x := s.code * 256 + t.code * 16 + r.code * 2 + x.toNat) (by omega) (by omega) (by omega) (by omega) ?_
  have hc : cvtOk s t r x = true := h
  show decCvt (d.val) (a.val) (s.code * 256 + t.code * 16 + r.code * 2 + x.toNat) = _
  unfold decCvt
  dsimp only
  rw [show (s.code * 256 + t.code * 16 + r.code * 2 + x.toNat) / 4096 = 0 by omega, show (s.code * 256 + t.code * 16 + r.code * 2 + x.toNat) / 256 % 16 = s.code by omega, show (s.code * 256 + t.code * 16 + r.code * 2 + x.toNat) / 16 % 16 = t.code by omega, show (s.code * 256 + t.code * 16 + r.code * 2 + x.toNat) / 2 % 8 = r.code by omega, show (s.code * 256 + t.code * 16 + r.code * 2 + x.toNat) % 2 = x.toNat by omega, rnd_code, cvTy_code, cvTy_code, vReg_val d, vReg_val a]
  have hx : (x.toNat == 1) = x := by cases x <;> rfl
  have h1 : ¬ t.code = 14 := by omega
  have h2 : ¬ s.code = 14 := by omega
  show (if t.code = 14 then _ else if s.code = 14 then _ else _) = _
  rw [if_neg h1, if_neg h2]
  show (if cvtOk s t r (x.toNat == 1) = true then _ else _) = _
  rw [hx, if_pos hc]
  rfl

theorem RoundTrip.vquant (d : VReg) (a : VReg) (s : FpF) (r : Rnd) : RoundTrip.Statement (.vquant d a s r) := by
  intro h
  have := code_lt_FpF s
  have := code_lt_Rnd r
  refine rt (op := 43) (p1 := d.val) (p2 := a.val) (x := (8 + s.code) * 256 + r.code * 2 + 224) (by omega) (by omega) (by omega) (by omega) ?_
  show decCvt (d.val) (a.val) ((8 + s.code) * 256 + r.code * 2 + 224) = _
  unfold decCvt
  dsimp only
  rw [show ((8 + s.code) * 256 + r.code * 2 + 224) / 4096 = 0 by omega, show ((8 + s.code) * 256 + r.code * 2 + 224) / 256 % 16 = 8 + s.code by omega, show ((8 + s.code) * 256 + r.code * 2 + 224) / 16 % 16 = 14 by omega, show ((8 + s.code) * 256 + r.code * 2 + 224) / 2 % 8 = r.code by omega, show ((8 + s.code) * 256 + r.code * 2 + 224) % 2 = 0 by omega, rnd_code, cvFp_code, vReg_val d, vReg_val a]
  rfl

theorem RoundTrip.vdequant (d : VReg) (a : VReg) (t : FpF) (r : Rnd) (x : Bool) : RoundTrip.Statement (.vdequant d a t r x) := by
  intro h
  have := code_lt_FpF t
  have := code_lt_Rnd r
  have := toNat_lt_Bool x
  refine rt (op := 43) (p1 := d.val) (p2 := a.val) (x := (8 + t.code) * 16 + r.code * 2 + x.toNat + 3584) (by omega) (by omega) (by omega) (by omega) ?_
  have hc : dequantOk t r x = true := h
  show decCvt (d.val) (a.val) ((8 + t.code) * 16 + r.code * 2 + x.toNat + 3584) = _
  unfold decCvt
  dsimp only
  rw [show ((8 + t.code) * 16 + r.code * 2 + x.toNat + 3584) / 4096 = 0 by omega, show ((8 + t.code) * 16 + r.code * 2 + x.toNat + 3584) / 256 % 16 = 14 by omega, show ((8 + t.code) * 16 + r.code * 2 + x.toNat + 3584) / 16 % 16 = 8 + t.code by omega, show ((8 + t.code) * 16 + r.code * 2 + x.toNat + 3584) / 2 % 8 = r.code by omega, show ((8 + t.code) * 16 + r.code * 2 + x.toNat + 3584) % 2 = x.toNat by omega, rnd_code, cvFp_code, vReg_val d, vReg_val a]
  have hx : (x.toNat == 1) = x := by cases x <;> rfl
  have h1 : ¬ 8 + t.code = 14 := by omega
  show (if 8 + t.code = 14 then _ else if 14 = 14 then _ else _) = _
  rw [if_neg h1, if_pos rfl]
  show (if dequantOk t r (x.toNat == 1) = true then _ else _) = _
  rw [hx, if_pos hc]
  rfl

theorem RoundTrip.mxLdw (a : GReg) (b : GReg) (f : MxF) : RoundTrip.Statement (.mxLdw a b f) := by
  intro _
  have := code_lt_MxF f
  refine rt (op := 44) (p1 := 0) (p2 := a.val) (x := b.val * 256 + f.code * 2) (by omega) (by omega) (by omega) (by omega) ?_
  show decMx (0) (a.val) ((b.val * 256 + f.code * 2) / 256) ((b.val * 256 + f.code * 2) % 256) = _
  rw [show (b.val * 256 + f.code * 2) / 256 = b.val by omega, show (b.val * 256 + f.code * 2) % 256 = f.code * 2 by omega]
  unfold decMx
  rw [show (f.code * 2) / 16 = 0 by omega, show (f.code * 2) % 2 = 0 by omega, show (f.code * 2) / 2 % 8 = f.code by omega, gReg_val a, gReg_val b, mxFmt_code]
  rfl

theorem RoundTrip.mxLdwg (a : GReg) (b : VReg) (f : MxF) : RoundTrip.Statement (.mxLdwg a b f) := by
  intro _
  have := code_lt_MxF f
  refine rt (op := 44) (p1 := 0) (p2 := a.val) (x := b.val * 256 + f.code * 2 + 16) (by omega) (by omega) (by omega) (by omega) ?_
  show decMx (0) (a.val) ((b.val * 256 + f.code * 2 + 16) / 256) ((b.val * 256 + f.code * 2 + 16) % 256) = _
  rw [show (b.val * 256 + f.code * 2 + 16) / 256 = b.val by omega, show (b.val * 256 + f.code * 2 + 16) % 256 = f.code * 2 + 16 by omega]
  unfold decMx
  rw [show (f.code * 2 + 16) / 16 = 1 by omega, show (f.code * 2 + 16) % 2 = 0 by omega, show (f.code * 2 + 16) / 2 % 8 = f.code by omega, gReg_val a, vReg_val b, mxFmt_code]
  rfl

theorem RoundTrip.mxSwap : RoundTrip.Statement (.mxSwap) := by
  intro _
  refine rt (op := 44) (p1 := 0) (p2 := 0) (x := 32) (by omega) (by omega) (by omega) (by omega) ?_
  show decMx (0) (0) ((32) / 256) ((32) % 256) = _
  rfl

theorem RoundTrip.mxStep (t : Fin 4) (a : VReg) (b : FReg) (f : MxF) : RoundTrip.Statement (.mxStep t a b f) := by
  intro h
  have := code_lt_MxF f
  refine rt (op := 44) (p1 := t.val) (p2 := a.val) (x := b.val * 256 + f.code * 2 + 48) (by omega) (by omega) (by omega) (by omega) ?_
  have hb : mxBand f.code b.val = .ok () := by
    cases f <;> first | rfl | (have hb : (false || b == 0) = true := h; have h0 : b = 0 := (by simpa using hb); rw [h0]; rfl)
  show decMx (t.val) (a.val) ((b.val * 256 + f.code * 2 + 48) / 256) ((b.val * 256 + f.code * 2 + 48) % 256) = _
  rw [show (b.val * 256 + f.code * 2 + 48) / 256 = b.val by omega, show (b.val * 256 + f.code * 2 + 48) % 256 = f.code * 2 + 48 by omega]
  unfold decMx
  rw [show (f.code * 2 + 48) / 16 = 3 by omega, show (f.code * 2 + 48) % 2 = 0 by omega, show (f.code * 2 + 48) / 2 % 8 = f.code by omega, hb, tile_val t, vReg_val a, fReg_val b, mxFmt_code]
  rfl

theorem RoundTrip.mxStepz (t : Fin 4) (a : VReg) (b : FReg) (f : MxF) : RoundTrip.Statement (.mxStepz t a b f) := by
  intro h
  have := code_lt_MxF f
  refine rt (op := 44) (p1 := t.val) (p2 := a.val) (x := b.val * 256 + f.code * 2 + 64) (by omega) (by omega) (by omega) (by omega) ?_
  have hb : mxBand f.code b.val = .ok () := by
    cases f <;> first | rfl | (have hb : (false || b == 0) = true := h; have h0 : b = 0 := (by simpa using hb); rw [h0]; rfl)
  show decMx (t.val) (a.val) ((b.val * 256 + f.code * 2 + 64) / 256) ((b.val * 256 + f.code * 2 + 64) % 256) = _
  rw [show (b.val * 256 + f.code * 2 + 64) / 256 = b.val by omega, show (b.val * 256 + f.code * 2 + 64) % 256 = f.code * 2 + 64 by omega]
  unfold decMx
  rw [show (f.code * 2 + 64) / 16 = 4 by omega, show (f.code * 2 + 64) % 2 = 0 by omega, show (f.code * 2 + 64) / 2 % 8 = f.code by omega, hb, tile_val t, vReg_val a, fReg_val b, mxFmt_code]
  rfl

theorem RoundTrip.mxSteps (t : Fin 4) (a : VReg) (b : FReg) (f : MxF) : RoundTrip.Statement (.mxSteps t a b f) := by
  intro h
  have := code_lt_MxF f
  refine rt (op := 44) (p1 := t.val) (p2 := a.val) (x := b.val * 256 + f.code * 2 + 80) (by omega) (by omega) (by omega) (by omega) ?_
  have hb : mxBand f.code b.val = .ok () := by
    cases f <;> first | rfl | (have hb : (false || b == 0) = true := h; have h0 : b = 0 := (by simpa using hb); rw [h0]; rfl)
  show decMx (t.val) (a.val) ((b.val * 256 + f.code * 2 + 80) / 256) ((b.val * 256 + f.code * 2 + 80) % 256) = _
  rw [show (b.val * 256 + f.code * 2 + 80) / 256 = b.val by omega, show (b.val * 256 + f.code * 2 + 80) % 256 = f.code * 2 + 80 by omega]
  unfold decMx
  rw [show (f.code * 2 + 80) / 16 = 5 by omega, show (f.code * 2 + 80) % 2 = 0 by omega, show (f.code * 2 + 80) / 2 % 8 = f.code by omega, hb, tile_val t, vReg_val a, fReg_val b, mxFmt_code]
  rfl

theorem RoundTrip.mxZero (t : Fin 4) : RoundTrip.Statement (.mxZero t) := by
  intro _
  refine rt (op := 44) (p1 := t.val) (p2 := 0) (x := 96) (by omega) (by omega) (by omega) (by omega) ?_
  show decMx (t.val) (0) ((96) / 256) ((96) % 256) = _
  unfold decMx
  rw [tile_val t]
  rfl

theorem RoundTrip.mxRd (d : VReg) (t : Fin 4) (b : GReg) : RoundTrip.Statement (.mxRd d t b) := by
  intro _
  refine rt (op := 44) (p1 := d.val) (p2 := t.val) (x := b.val * 256 + 112) (by omega) (by omega) (by omega) (by omega) ?_
  show decMx (d.val) (t.val) ((b.val * 256 + 112) / 256) ((b.val * 256 + 112) % 256) = _
  rw [show (b.val * 256 + 112) / 256 = b.val by omega, show (b.val * 256 + 112) % 256 = 112 by omega]
  unfold decMx
  rw [vReg_val d, tile_val t, gReg_val b]
  rfl

theorem RoundTrip.mxWr (t : Fin 4) (a : VReg) (b : GReg) : RoundTrip.Statement (.mxWr t a b) := by
  intro _
  refine rt (op := 44) (p1 := t.val) (p2 := a.val) (x := b.val * 256 + 128) (by omega) (by omega) (by omega) (by omega) ?_
  show decMx (t.val) (a.val) ((b.val * 256 + 128) / 256) ((b.val * 256 + 128) % 256) = _
  rw [show (b.val * 256 + 128) / 256 = b.val by omega, show (b.val * 256 + 128) % 256 = 128 by omega]
  unfold decMx
  rw [tile_val t, vReg_val a, gReg_val b]
  rfl

theorem RoundTrip.mxSt (t : Fin 4) (a : GReg) (b : GReg) : RoundTrip.Statement (.mxSt t a b) := by
  intro _
  refine rt (op := 44) (p1 := t.val) (p2 := a.val) (x := b.val * 256 + 144) (by omega) (by omega) (by omega) (by omega) ?_
  show decMx (t.val) (a.val) ((b.val * 256 + 144) / 256) ((b.val * 256 + 144) % 256) = _
  rw [show (b.val * 256 + 144) / 256 = b.val by omega, show (b.val * 256 + 144) % 256 = 144 by omega]
  unfold decMx
  rw [tile_val t, gReg_val a, gReg_val b]
  rfl

theorem RoundTrip.mxCfg (a : GReg) : RoundTrip.Statement (.mxCfg a) := by
  intro _
  refine rt (op := 44) (p1 := 0) (p2 := a.val) (x := 160) (by omega) (by omega) (by omega) (by omega) ?_
  show decMx (0) (a.val) ((160) / 256) ((160) % 256) = _
  unfold decMx
  rw [gReg_val a]
  rfl

theorem RoundTrip.mxSkip (t : Fin 4) (a : FReg) : RoundTrip.Statement (.mxSkip t a) := by
  intro _
  refine rt (op := 44) (p1 := t.val) (p2 := a.val) (x := 176) (by omega) (by omega) (by omega) (by omega) ?_
  show decMx (t.val) (a.val) ((176) / 256) ((176) % 256) = _
  unfold decMx
  rw [tile_val t, fReg_val a]
  rfl

theorem RoundTrip.mxGrant (a : GReg) : RoundTrip.Statement (.mxGrant a) := by
  intro _
  refine rt (op := 44) (p1 := 0) (p2 := a.val) (x := 192) (by omega) (by omega) (by omega) (by omega) ?_
  show decMx (0) (a.val) ((192) / 256) ((192) % 256) = _
  unfold decMx
  rw [gReg_val a]
  rfl

theorem RoundTrip.mxRet : RoundTrip.Statement (.mxRet) := by
  intro _
  refine rt (op := 44) (p1 := 0) (p2 := 0) (x := 208) (by omega) (by omega) (by omega) (by omega) ?_
  show decMx (0) (0) ((208) / 256) ((208) % 256) = _
  rfl

theorem RoundTrip.amoAddW (d : GReg) (a : GReg) (b : GReg) (l : Level) : RoundTrip.Statement (.amoAddW d a b l) := by
  intro _
  refine rt (op := 45) (p1 := d.val) (p2 := a.val) (x := b.val * 256 + l.val) (by omega) (by omega) (by omega) (by omega) ?_
  show decAmo (d.val) (a.val) ((b.val * 256 + l.val) / 256) ((b.val * 256 + l.val) % 256) = _
  rw [show (b.val * 256 + l.val) / 256 = b.val by omega, show (b.val * 256 + l.val) % 256 = l.val by omega]
  unfold decAmo
  rw [show (l.val) / 16 = 0 by omega, show (l.val) % 16 = l.val by omega, gReg_val d, gReg_val a, gReg_val b, lvl_val]
  rfl

theorem RoundTrip.amoAddL (d : GReg) (a : GReg) (b : GReg) (l : Level) : RoundTrip.Statement (.amoAddL d a b l) := by
  intro _
  refine rt (op := 45) (p1 := d.val) (p2 := a.val) (x := b.val * 256 + l.val + 16) (by omega) (by omega) (by omega) (by omega) ?_
  show decAmo (d.val) (a.val) ((b.val * 256 + l.val + 16) / 256) ((b.val * 256 + l.val + 16) % 256) = _
  rw [show (b.val * 256 + l.val + 16) / 256 = b.val by omega, show (b.val * 256 + l.val + 16) % 256 = l.val + 16 by omega]
  unfold decAmo
  rw [show (l.val + 16) / 16 = 1 by omega, show (l.val + 16) % 16 = l.val by omega, gReg_val d, gReg_val a, gReg_val b, lvl_val]
  rfl

theorem RoundTrip.amoMinL (d : GReg) (a : GReg) (b : GReg) (l : Level) : RoundTrip.Statement (.amoMinL d a b l) := by
  intro _
  refine rt (op := 45) (p1 := d.val) (p2 := a.val) (x := b.val * 256 + l.val + 32) (by omega) (by omega) (by omega) (by omega) ?_
  show decAmo (d.val) (a.val) ((b.val * 256 + l.val + 32) / 256) ((b.val * 256 + l.val + 32) % 256) = _
  rw [show (b.val * 256 + l.val + 32) / 256 = b.val by omega, show (b.val * 256 + l.val + 32) % 256 = l.val + 32 by omega]
  unfold decAmo
  rw [show (l.val + 32) / 16 = 2 by omega, show (l.val + 32) % 16 = l.val by omega, gReg_val d, gReg_val a, gReg_val b, lvl_val]
  rfl

theorem RoundTrip.amoMaxL (d : GReg) (a : GReg) (b : GReg) (l : Level) : RoundTrip.Statement (.amoMaxL d a b l) := by
  intro _
  refine rt (op := 45) (p1 := d.val) (p2 := a.val) (x := b.val * 256 + l.val + 48) (by omega) (by omega) (by omega) (by omega) ?_
  show decAmo (d.val) (a.val) ((b.val * 256 + l.val + 48) / 256) ((b.val * 256 + l.val + 48) % 256) = _
  rw [show (b.val * 256 + l.val + 48) / 256 = b.val by omega, show (b.val * 256 + l.val + 48) % 256 = l.val + 48 by omega]
  unfold decAmo
  rw [show (l.val + 48) / 16 = 3 by omega, show (l.val + 48) % 16 = l.val by omega, gReg_val d, gReg_val a, gReg_val b, lvl_val]
  rfl

theorem RoundTrip.amoMinuL (d : GReg) (a : GReg) (b : GReg) (l : Level) : RoundTrip.Statement (.amoMinuL d a b l) := by
  intro _
  refine rt (op := 45) (p1 := d.val) (p2 := a.val) (x := b.val * 256 + l.val + 64) (by omega) (by omega) (by omega) (by omega) ?_
  show decAmo (d.val) (a.val) ((b.val * 256 + l.val + 64) / 256) ((b.val * 256 + l.val + 64) % 256) = _
  rw [show (b.val * 256 + l.val + 64) / 256 = b.val by omega, show (b.val * 256 + l.val + 64) % 256 = l.val + 64 by omega]
  unfold decAmo
  rw [show (l.val + 64) / 16 = 4 by omega, show (l.val + 64) % 16 = l.val by omega, gReg_val d, gReg_val a, gReg_val b, lvl_val]
  rfl

theorem RoundTrip.amoMaxuL (d : GReg) (a : GReg) (b : GReg) (l : Level) : RoundTrip.Statement (.amoMaxuL d a b l) := by
  intro _
  refine rt (op := 45) (p1 := d.val) (p2 := a.val) (x := b.val * 256 + l.val + 80) (by omega) (by omega) (by omega) (by omega) ?_
  show decAmo (d.val) (a.val) ((b.val * 256 + l.val + 80) / 256) ((b.val * 256 + l.val + 80) % 256) = _
  rw [show (b.val * 256 + l.val + 80) / 256 = b.val by omega, show (b.val * 256 + l.val + 80) % 256 = l.val + 80 by omega]
  unfold decAmo
  rw [show (l.val + 80) / 16 = 5 by omega, show (l.val + 80) % 16 = l.val by omega, gReg_val d, gReg_val a, gReg_val b, lvl_val]
  rfl

theorem RoundTrip.amoAndL (d : GReg) (a : GReg) (b : GReg) (l : Level) : RoundTrip.Statement (.amoAndL d a b l) := by
  intro _
  refine rt (op := 45) (p1 := d.val) (p2 := a.val) (x := b.val * 256 + l.val + 96) (by omega) (by omega) (by omega) (by omega) ?_
  show decAmo (d.val) (a.val) ((b.val * 256 + l.val + 96) / 256) ((b.val * 256 + l.val + 96) % 256) = _
  rw [show (b.val * 256 + l.val + 96) / 256 = b.val by omega, show (b.val * 256 + l.val + 96) % 256 = l.val + 96 by omega]
  unfold decAmo
  rw [show (l.val + 96) / 16 = 6 by omega, show (l.val + 96) % 16 = l.val by omega, gReg_val d, gReg_val a, gReg_val b, lvl_val]
  rfl

theorem RoundTrip.amoOrL (d : GReg) (a : GReg) (b : GReg) (l : Level) : RoundTrip.Statement (.amoOrL d a b l) := by
  intro _
  refine rt (op := 45) (p1 := d.val) (p2 := a.val) (x := b.val * 256 + l.val + 112) (by omega) (by omega) (by omega) (by omega) ?_
  show decAmo (d.val) (a.val) ((b.val * 256 + l.val + 112) / 256) ((b.val * 256 + l.val + 112) % 256) = _
  rw [show (b.val * 256 + l.val + 112) / 256 = b.val by omega, show (b.val * 256 + l.val + 112) % 256 = l.val + 112 by omega]
  unfold decAmo
  rw [show (l.val + 112) / 16 = 7 by omega, show (l.val + 112) % 16 = l.val by omega, gReg_val d, gReg_val a, gReg_val b, lvl_val]
  rfl

theorem RoundTrip.amoXorL (d : GReg) (a : GReg) (b : GReg) (l : Level) : RoundTrip.Statement (.amoXorL d a b l) := by
  intro _
  refine rt (op := 45) (p1 := d.val) (p2 := a.val) (x := b.val * 256 + l.val + 128) (by omega) (by omega) (by omega) (by omega) ?_
  show decAmo (d.val) (a.val) ((b.val * 256 + l.val + 128) / 256) ((b.val * 256 + l.val + 128) % 256) = _
  rw [show (b.val * 256 + l.val + 128) / 256 = b.val by omega, show (b.val * 256 + l.val + 128) % 256 = l.val + 128 by omega]
  unfold decAmo
  rw [show (l.val + 128) / 16 = 8 by omega, show (l.val + 128) % 16 = l.val by omega, gReg_val d, gReg_val a, gReg_val b, lvl_val]
  rfl

theorem RoundTrip.amoSwapW (d : GReg) (a : GReg) (b : GReg) (l : Level) : RoundTrip.Statement (.amoSwapW d a b l) := by
  intro _
  refine rt (op := 45) (p1 := d.val) (p2 := a.val) (x := b.val * 256 + l.val + 144) (by omega) (by omega) (by omega) (by omega) ?_
  show decAmo (d.val) (a.val) ((b.val * 256 + l.val + 144) / 256) ((b.val * 256 + l.val + 144) % 256) = _
  rw [show (b.val * 256 + l.val + 144) / 256 = b.val by omega, show (b.val * 256 + l.val + 144) % 256 = l.val + 144 by omega]
  unfold decAmo
  rw [show (l.val + 144) / 16 = 9 by omega, show (l.val + 144) % 16 = l.val by omega, gReg_val d, gReg_val a, gReg_val b, lvl_val]
  rfl

theorem RoundTrip.amoSwapL (d : GReg) (a : GReg) (b : GReg) (l : Level) : RoundTrip.Statement (.amoSwapL d a b l) := by
  intro _
  refine rt (op := 45) (p1 := d.val) (p2 := a.val) (x := b.val * 256 + l.val + 160) (by omega) (by omega) (by omega) (by omega) ?_
  show decAmo (d.val) (a.val) ((b.val * 256 + l.val + 160) / 256) ((b.val * 256 + l.val + 160) % 256) = _
  rw [show (b.val * 256 + l.val + 160) / 256 = b.val by omega, show (b.val * 256 + l.val + 160) % 256 = l.val + 160 by omega]
  unfold decAmo
  rw [show (l.val + 160) / 16 = 10 by omega, show (l.val + 160) % 16 = l.val by omega, gReg_val d, gReg_val a, gReg_val b, lvl_val]
  rfl

theorem RoundTrip.amoCasW (d : GReg) (a : GReg) (b : GReg) (l : Level) : RoundTrip.Statement (.amoCasW d a b l) := by
  intro _
  refine rt (op := 45) (p1 := d.val) (p2 := a.val) (x := b.val * 256 + l.val + 176) (by omega) (by omega) (by omega) (by omega) ?_
  show decAmo (d.val) (a.val) ((b.val * 256 + l.val + 176) / 256) ((b.val * 256 + l.val + 176) % 256) = _
  rw [show (b.val * 256 + l.val + 176) / 256 = b.val by omega, show (b.val * 256 + l.val + 176) % 256 = l.val + 176 by omega]
  unfold decAmo
  rw [show (l.val + 176) / 16 = 11 by omega, show (l.val + 176) % 16 = l.val by omega, gReg_val d, gReg_val a, gReg_val b, lvl_val]
  rfl

theorem RoundTrip.amoCasL (d : GReg) (a : GReg) (b : GReg) (l : Level) : RoundTrip.Statement (.amoCasL d a b l) := by
  intro _
  refine rt (op := 45) (p1 := d.val) (p2 := a.val) (x := b.val * 256 + l.val + 192) (by omega) (by omega) (by omega) (by omega) ?_
  show decAmo (d.val) (a.val) ((b.val * 256 + l.val + 192) / 256) ((b.val * 256 + l.val + 192) % 256) = _
  rw [show (b.val * 256 + l.val + 192) / 256 = b.val by omega, show (b.val * 256 + l.val + 192) % 256 = l.val + 192 by omega]
  unfold decAmo
  rw [show (l.val + 192) / 16 = 12 by omega, show (l.val + 192) % 16 = l.val by omega, gReg_val d, gReg_val a, gReg_val b, lvl_val]
  rfl

theorem RoundTrip.amoFaddF32 (d : GReg) (a : GReg) (b : GReg) (l : Level) : RoundTrip.Statement (.amoFaddF32 d a b l) := by
  intro _
  refine rt (op := 45) (p1 := d.val) (p2 := a.val) (x := b.val * 256 + l.val + 208) (by omega) (by omega) (by omega) (by omega) ?_
  show decAmo (d.val) (a.val) ((b.val * 256 + l.val + 208) / 256) ((b.val * 256 + l.val + 208) % 256) = _
  rw [show (b.val * 256 + l.val + 208) / 256 = b.val by omega, show (b.val * 256 + l.val + 208) % 256 = l.val + 208 by omega]
  unfold decAmo
  rw [show (l.val + 208) / 16 = 13 by omega, show (l.val + 208) % 16 = l.val by omega, gReg_val d, gReg_val a, gReg_val b, lvl_val]
  rfl

theorem RoundTrip.amoFaddF64 (d : GReg) (a : GReg) (b : GReg) (l : Level) : RoundTrip.Statement (.amoFaddF64 d a b l) := by
  intro _
  refine rt (op := 45) (p1 := d.val) (p2 := a.val) (x := b.val * 256 + l.val + 224) (by omega) (by omega) (by omega) (by omega) ?_
  show decAmo (d.val) (a.val) ((b.val * 256 + l.val + 224) / 256) ((b.val * 256 + l.val + 224) % 256) = _
  rw [show (b.val * 256 + l.val + 224) / 256 = b.val by omega, show (b.val * 256 + l.val + 224) % 256 = l.val + 224 by omega]
  unfold decAmo
  rw [show (l.val + 224) / 16 = 14 by omega, show (l.val + 224) % 16 = l.val by omega, gReg_val d, gReg_val a, gReg_val b, lvl_val]
  rfl

theorem RoundTrip.vamoAddW (d : VReg) (a : GReg) (b : VReg) (l : Level) : RoundTrip.Statement (.vamoAddW d a b l) := by
  intro _
  refine rt (op := 46) (p1 := d.val) (p2 := a.val) (x := b.val * 256 + l.val) (by omega) (by omega) (by omega) (by omega) ?_
  show decVamo (d.val) (a.val) ((b.val * 256 + l.val) / 256) ((b.val * 256 + l.val) % 256) = _
  rw [show (b.val * 256 + l.val) / 256 = b.val by omega, show (b.val * 256 + l.val) % 256 = l.val by omega]
  unfold decVamo
  rw [show (l.val) / 16 = 0 by omega, show (l.val) % 16 = l.val by omega, vReg_val d, gReg_val a, vReg_val b, lvl_val]
  rfl

theorem RoundTrip.vamoAddL (d : VReg) (a : GReg) (b : VReg) (l : Level) : RoundTrip.Statement (.vamoAddL d a b l) := by
  intro _
  refine rt (op := 46) (p1 := d.val) (p2 := a.val) (x := b.val * 256 + l.val + 16) (by omega) (by omega) (by omega) (by omega) ?_
  show decVamo (d.val) (a.val) ((b.val * 256 + l.val + 16) / 256) ((b.val * 256 + l.val + 16) % 256) = _
  rw [show (b.val * 256 + l.val + 16) / 256 = b.val by omega, show (b.val * 256 + l.val + 16) % 256 = l.val + 16 by omega]
  unfold decVamo
  rw [show (l.val + 16) / 16 = 1 by omega, show (l.val + 16) % 16 = l.val by omega, vReg_val d, gReg_val a, vReg_val b, lvl_val]
  rfl

theorem RoundTrip.vamoMinL (d : VReg) (a : GReg) (b : VReg) (l : Level) : RoundTrip.Statement (.vamoMinL d a b l) := by
  intro _
  refine rt (op := 46) (p1 := d.val) (p2 := a.val) (x := b.val * 256 + l.val + 32) (by omega) (by omega) (by omega) (by omega) ?_
  show decVamo (d.val) (a.val) ((b.val * 256 + l.val + 32) / 256) ((b.val * 256 + l.val + 32) % 256) = _
  rw [show (b.val * 256 + l.val + 32) / 256 = b.val by omega, show (b.val * 256 + l.val + 32) % 256 = l.val + 32 by omega]
  unfold decVamo
  rw [show (l.val + 32) / 16 = 2 by omega, show (l.val + 32) % 16 = l.val by omega, vReg_val d, gReg_val a, vReg_val b, lvl_val]
  rfl

theorem RoundTrip.vamoMaxL (d : VReg) (a : GReg) (b : VReg) (l : Level) : RoundTrip.Statement (.vamoMaxL d a b l) := by
  intro _
  refine rt (op := 46) (p1 := d.val) (p2 := a.val) (x := b.val * 256 + l.val + 48) (by omega) (by omega) (by omega) (by omega) ?_
  show decVamo (d.val) (a.val) ((b.val * 256 + l.val + 48) / 256) ((b.val * 256 + l.val + 48) % 256) = _
  rw [show (b.val * 256 + l.val + 48) / 256 = b.val by omega, show (b.val * 256 + l.val + 48) % 256 = l.val + 48 by omega]
  unfold decVamo
  rw [show (l.val + 48) / 16 = 3 by omega, show (l.val + 48) % 16 = l.val by omega, vReg_val d, gReg_val a, vReg_val b, lvl_val]
  rfl

theorem RoundTrip.vamoMinuL (d : VReg) (a : GReg) (b : VReg) (l : Level) : RoundTrip.Statement (.vamoMinuL d a b l) := by
  intro _
  refine rt (op := 46) (p1 := d.val) (p2 := a.val) (x := b.val * 256 + l.val + 64) (by omega) (by omega) (by omega) (by omega) ?_
  show decVamo (d.val) (a.val) ((b.val * 256 + l.val + 64) / 256) ((b.val * 256 + l.val + 64) % 256) = _
  rw [show (b.val * 256 + l.val + 64) / 256 = b.val by omega, show (b.val * 256 + l.val + 64) % 256 = l.val + 64 by omega]
  unfold decVamo
  rw [show (l.val + 64) / 16 = 4 by omega, show (l.val + 64) % 16 = l.val by omega, vReg_val d, gReg_val a, vReg_val b, lvl_val]
  rfl

theorem RoundTrip.vamoMaxuL (d : VReg) (a : GReg) (b : VReg) (l : Level) : RoundTrip.Statement (.vamoMaxuL d a b l) := by
  intro _
  refine rt (op := 46) (p1 := d.val) (p2 := a.val) (x := b.val * 256 + l.val + 80) (by omega) (by omega) (by omega) (by omega) ?_
  show decVamo (d.val) (a.val) ((b.val * 256 + l.val + 80) / 256) ((b.val * 256 + l.val + 80) % 256) = _
  rw [show (b.val * 256 + l.val + 80) / 256 = b.val by omega, show (b.val * 256 + l.val + 80) % 256 = l.val + 80 by omega]
  unfold decVamo
  rw [show (l.val + 80) / 16 = 5 by omega, show (l.val + 80) % 16 = l.val by omega, vReg_val d, gReg_val a, vReg_val b, lvl_val]
  rfl

theorem RoundTrip.vamoAndL (d : VReg) (a : GReg) (b : VReg) (l : Level) : RoundTrip.Statement (.vamoAndL d a b l) := by
  intro _
  refine rt (op := 46) (p1 := d.val) (p2 := a.val) (x := b.val * 256 + l.val + 96) (by omega) (by omega) (by omega) (by omega) ?_
  show decVamo (d.val) (a.val) ((b.val * 256 + l.val + 96) / 256) ((b.val * 256 + l.val + 96) % 256) = _
  rw [show (b.val * 256 + l.val + 96) / 256 = b.val by omega, show (b.val * 256 + l.val + 96) % 256 = l.val + 96 by omega]
  unfold decVamo
  rw [show (l.val + 96) / 16 = 6 by omega, show (l.val + 96) % 16 = l.val by omega, vReg_val d, gReg_val a, vReg_val b, lvl_val]
  rfl

theorem RoundTrip.vamoOrL (d : VReg) (a : GReg) (b : VReg) (l : Level) : RoundTrip.Statement (.vamoOrL d a b l) := by
  intro _
  refine rt (op := 46) (p1 := d.val) (p2 := a.val) (x := b.val * 256 + l.val + 112) (by omega) (by omega) (by omega) (by omega) ?_
  show decVamo (d.val) (a.val) ((b.val * 256 + l.val + 112) / 256) ((b.val * 256 + l.val + 112) % 256) = _
  rw [show (b.val * 256 + l.val + 112) / 256 = b.val by omega, show (b.val * 256 + l.val + 112) % 256 = l.val + 112 by omega]
  unfold decVamo
  rw [show (l.val + 112) / 16 = 7 by omega, show (l.val + 112) % 16 = l.val by omega, vReg_val d, gReg_val a, vReg_val b, lvl_val]
  rfl

theorem RoundTrip.vamoXorL (d : VReg) (a : GReg) (b : VReg) (l : Level) : RoundTrip.Statement (.vamoXorL d a b l) := by
  intro _
  refine rt (op := 46) (p1 := d.val) (p2 := a.val) (x := b.val * 256 + l.val + 128) (by omega) (by omega) (by omega) (by omega) ?_
  show decVamo (d.val) (a.val) ((b.val * 256 + l.val + 128) / 256) ((b.val * 256 + l.val + 128) % 256) = _
  rw [show (b.val * 256 + l.val + 128) / 256 = b.val by omega, show (b.val * 256 + l.val + 128) % 256 = l.val + 128 by omega]
  unfold decVamo
  rw [show (l.val + 128) / 16 = 8 by omega, show (l.val + 128) % 16 = l.val by omega, vReg_val d, gReg_val a, vReg_val b, lvl_val]
  rfl

theorem RoundTrip.vamoSwapW (d : VReg) (a : GReg) (b : VReg) (l : Level) : RoundTrip.Statement (.vamoSwapW d a b l) := by
  intro _
  refine rt (op := 46) (p1 := d.val) (p2 := a.val) (x := b.val * 256 + l.val + 144) (by omega) (by omega) (by omega) (by omega) ?_
  show decVamo (d.val) (a.val) ((b.val * 256 + l.val + 144) / 256) ((b.val * 256 + l.val + 144) % 256) = _
  rw [show (b.val * 256 + l.val + 144) / 256 = b.val by omega, show (b.val * 256 + l.val + 144) % 256 = l.val + 144 by omega]
  unfold decVamo
  rw [show (l.val + 144) / 16 = 9 by omega, show (l.val + 144) % 16 = l.val by omega, vReg_val d, gReg_val a, vReg_val b, lvl_val]
  rfl

theorem RoundTrip.vamoSwapL (d : VReg) (a : GReg) (b : VReg) (l : Level) : RoundTrip.Statement (.vamoSwapL d a b l) := by
  intro _
  refine rt (op := 46) (p1 := d.val) (p2 := a.val) (x := b.val * 256 + l.val + 160) (by omega) (by omega) (by omega) (by omega) ?_
  show decVamo (d.val) (a.val) ((b.val * 256 + l.val + 160) / 256) ((b.val * 256 + l.val + 160) % 256) = _
  rw [show (b.val * 256 + l.val + 160) / 256 = b.val by omega, show (b.val * 256 + l.val + 160) % 256 = l.val + 160 by omega]
  unfold decVamo
  rw [show (l.val + 160) / 16 = 10 by omega, show (l.val + 160) % 16 = l.val by omega, vReg_val d, gReg_val a, vReg_val b, lvl_val]
  rfl

theorem RoundTrip.vamoFaddF32 (d : VReg) (a : GReg) (b : VReg) (l : Level) : RoundTrip.Statement (.vamoFaddF32 d a b l) := by
  intro _
  refine rt (op := 46) (p1 := d.val) (p2 := a.val) (x := b.val * 256 + l.val + 208) (by omega) (by omega) (by omega) (by omega) ?_
  show decVamo (d.val) (a.val) ((b.val * 256 + l.val + 208) / 256) ((b.val * 256 + l.val + 208) % 256) = _
  rw [show (b.val * 256 + l.val + 208) / 256 = b.val by omega, show (b.val * 256 + l.val + 208) % 256 = l.val + 208 by omega]
  unfold decVamo
  rw [show (l.val + 208) / 16 = 13 by omega, show (l.val + 208) % 16 = l.val by omega, vReg_val d, gReg_val a, vReg_val b, lvl_val]
  rfl

theorem RoundTrip.vamoFaddF64 (d : VReg) (a : GReg) (b : VReg) (l : Level) : RoundTrip.Statement (.vamoFaddF64 d a b l) := by
  intro _
  refine rt (op := 46) (p1 := d.val) (p2 := a.val) (x := b.val * 256 + l.val + 224) (by omega) (by omega) (by omega) (by omega) ?_
  show decVamo (d.val) (a.val) ((b.val * 256 + l.val + 224) / 256) ((b.val * 256 + l.val + 224) % 256) = _
  rw [show (b.val * 256 + l.val + 224) / 256 = b.val by omega, show (b.val * 256 + l.val + 224) % 256 = l.val + 224 by omega]
  unfold decVamo
  rw [show (l.val + 224) / 16 = 14 by omega, show (l.val + 224) % 16 = l.val by omega, vReg_val d, gReg_val a, vReg_val b, lvl_val]
  rfl

theorem RoundTrip.fence (l : Level) : RoundTrip.Statement (.fence l) := by
  intro _
  refine rt (op := 47) (p1 := 0) (p2 := 0) (x := l.val) (by omega) (by omega) (by omega) (by omega) ?_
  show decOrd (0) (0) ((l.val) / 256) ((l.val) % 256) = _
  rw [show (l.val) / 256 = 0 by omega, show (l.val) % 256 = l.val by omega]
  unfold decOrd
  rw [show (l.val) / 16 = 0 by omega, show (l.val) % 16 = l.val by omega, lvl_val]
  rfl

theorem RoundTrip.fenceAcq (l : Level) : RoundTrip.Statement (.fenceAcq l) := by
  intro _
  refine rt (op := 47) (p1 := 0) (p2 := 0) (x := l.val + 256) (by omega) (by omega) (by omega) (by omega) ?_
  show decOrd (0) (0) ((l.val + 256) / 256) ((l.val + 256) % 256) = _
  rw [show (l.val + 256) / 256 = 1 by omega, show (l.val + 256) % 256 = l.val by omega]
  unfold decOrd
  rw [show (l.val) / 16 = 0 by omega, show (l.val) % 16 = l.val by omega, lvl_val]
  rfl

theorem RoundTrip.fenceRel (l : Level) : RoundTrip.Statement (.fenceRel l) := by
  intro _
  refine rt (op := 47) (p1 := 0) (p2 := 0) (x := l.val + 512) (by omega) (by omega) (by omega) (by omega) ?_
  show decOrd (0) (0) ((l.val + 512) / 256) ((l.val + 512) % 256) = _
  rw [show (l.val + 512) / 256 = 2 by omega, show (l.val + 512) % 256 = l.val by omega]
  unfold decOrd
  rw [show (l.val) / 16 = 0 by omega, show (l.val) % 16 = l.val by omega, lvl_val]
  rfl

theorem RoundTrip.ldAcqW (d : GReg) (a : GReg) (l : Level) : RoundTrip.Statement (.ldAcqW d a l) := by
  intro _
  refine rt (op := 47) (p1 := d.val) (p2 := a.val) (x := l.val + 16) (by omega) (by omega) (by omega) (by omega) ?_
  show decOrd (d.val) (a.val) ((l.val + 16) / 256) ((l.val + 16) % 256) = _
  rw [show (l.val + 16) / 256 = 0 by omega, show (l.val + 16) % 256 = l.val + 16 by omega]
  unfold decOrd
  rw [show (l.val + 16) / 16 = 1 by omega, show (l.val + 16) % 16 = l.val by omega, gReg_val d, gReg_val a, lvl_val]
  rfl

theorem RoundTrip.ldAcqL (d : GReg) (a : GReg) (l : Level) : RoundTrip.Statement (.ldAcqL d a l) := by
  intro _
  refine rt (op := 47) (p1 := d.val) (p2 := a.val) (x := l.val + 32) (by omega) (by omega) (by omega) (by omega) ?_
  show decOrd (d.val) (a.val) ((l.val + 32) / 256) ((l.val + 32) % 256) = _
  rw [show (l.val + 32) / 256 = 0 by omega, show (l.val + 32) % 256 = l.val + 32 by omega]
  unfold decOrd
  rw [show (l.val + 32) / 16 = 2 by omega, show (l.val + 32) % 16 = l.val by omega, gReg_val d, gReg_val a, lvl_val]
  rfl

theorem RoundTrip.stRelW (s : GReg) (a : GReg) (l : Level) : RoundTrip.Statement (.stRelW s a l) := by
  intro _
  refine rt (op := 47) (p1 := s.val) (p2 := a.val) (x := l.val + 48) (by omega) (by omega) (by omega) (by omega) ?_
  show decOrd (s.val) (a.val) ((l.val + 48) / 256) ((l.val + 48) % 256) = _
  rw [show (l.val + 48) / 256 = 0 by omega, show (l.val + 48) % 256 = l.val + 48 by omega]
  unfold decOrd
  rw [show (l.val + 48) / 16 = 3 by omega, show (l.val + 48) % 16 = l.val by omega, gReg_val s, gReg_val a, lvl_val]
  rfl

theorem RoundTrip.stRelL (s : GReg) (a : GReg) (l : Level) : RoundTrip.Statement (.stRelL s a l) := by
  intro _
  refine rt (op := 47) (p1 := s.val) (p2 := a.val) (x := l.val + 64) (by omega) (by omega) (by omega) (by omega) ?_
  show decOrd (s.val) (a.val) ((l.val + 64) / 256) ((l.val + 64) % 256) = _
  rw [show (l.val + 64) / 256 = 0 by omega, show (l.val + 64) % 256 = l.val + 64 by omega]
  unfold decOrd
  rw [show (l.val + 64) / 16 = 4 by omega, show (l.val + 64) % 16 = l.val by omega, gReg_val s, gReg_val a, lvl_val]
  rfl

theorem RoundTrip.vldAcqL (d : VReg) (a : GReg) (l : Level) : RoundTrip.Statement (.vldAcqL d a l) := by
  intro _
  refine rt (op := 47) (p1 := d.val) (p2 := a.val) (x := l.val + 80) (by omega) (by omega) (by omega) (by omega) ?_
  show decOrd (d.val) (a.val) ((l.val + 80) / 256) ((l.val + 80) % 256) = _
  rw [show (l.val + 80) / 256 = 0 by omega, show (l.val + 80) % 256 = l.val + 80 by omega]
  unfold decOrd
  rw [show (l.val + 80) / 16 = 5 by omega, show (l.val + 80) % 16 = l.val by omega, vReg_val d, gReg_val a, lvl_val]
  rfl

theorem RoundTrip.vldAcqF64 (d : VReg) (a : GReg) (l : Level) : RoundTrip.Statement (.vldAcqF64 d a l) := by
  intro _
  refine rt (op := 47) (p1 := d.val) (p2 := a.val) (x := l.val + 96) (by omega) (by omega) (by omega) (by omega) ?_
  show decOrd (d.val) (a.val) ((l.val + 96) / 256) ((l.val + 96) % 256) = _
  rw [show (l.val + 96) / 256 = 0 by omega, show (l.val + 96) % 256 = l.val + 96 by omega]
  unfold decOrd
  rw [show (l.val + 96) / 16 = 6 by omega, show (l.val + 96) % 16 = l.val by omega, vReg_val d, gReg_val a, lvl_val]
  rfl

theorem RoundTrip.vstRelL (s : VReg) (a : GReg) (l : Level) : RoundTrip.Statement (.vstRelL s a l) := by
  intro _
  refine rt (op := 47) (p1 := s.val) (p2 := a.val) (x := l.val + 112) (by omega) (by omega) (by omega) (by omega) ?_
  show decOrd (s.val) (a.val) ((l.val + 112) / 256) ((l.val + 112) % 256) = _
  rw [show (l.val + 112) / 256 = 0 by omega, show (l.val + 112) % 256 = l.val + 112 by omega]
  unfold decOrd
  rw [show (l.val + 112) / 16 = 7 by omega, show (l.val + 112) % 16 = l.val by omega, vReg_val s, gReg_val a, lvl_val]
  rfl

theorem RoundTrip.vstRelF64 (s : VReg) (a : GReg) (l : Level) : RoundTrip.Statement (.vstRelF64 s a l) := by
  intro _
  refine rt (op := 47) (p1 := s.val) (p2 := a.val) (x := l.val + 128) (by omega) (by omega) (by omega) (by omega) ?_
  show decOrd (s.val) (a.val) ((l.val + 128) / 256) ((l.val + 128) % 256) = _
  rw [show (l.val + 128) / 256 = 0 by omega, show (l.val + 128) % 256 = l.val + 128 by omega]
  unfold decOrd
  rw [show (l.val + 128) / 16 = 8 by omega, show (l.val + 128) % 16 = l.val by omega, vReg_val s, gReg_val a, lvl_val]
  rfl

theorem RoundTrip.tlAcq : RoundTrip.Statement (.tlAcq) := by
  intro _
  refine rt (op := 47) (p1 := 0) (p2 := 0) (x := 144) (by omega) (by omega) (by omega) (by omega) ?_
  show decOrd (0) (0) ((144) / 256) ((144) % 256) = _
  rfl

theorem RoundTrip.vsync : RoundTrip.Statement (.vsync) := by
  intro _
  refine rt (op := 47) (p1 := 0) (p2 := 0) (x := 160) (by omega) (by omega) (by omega) (by omega) ?_
  show decOrd (0) (0) ((160) / 256) ((160) % 256) = _
  rfl

theorem RoundTrip.bar (d : GReg) (l : Level) : RoundTrip.Statement (.bar d l) := by
  intro _
  refine rt (op := 48) (p1 := d.val) (p2 := 0) (x := l.val) (by omega) (by omega) (by omega) (by omega) ?_
  show decSync (d.val) (0) ((l.val) / 256) ((l.val) % 256) = _
  rw [show (l.val) / 256 = 0 by omega, show (l.val) % 256 = l.val by omega]
  unfold decSync
  rw [show (l.val) / 16 = 0 by omega, show (l.val) % 16 = l.val by omega, gReg_val d, lvl_val]
  rfl

theorem RoundTrip.claim (d : GReg) (a : GReg) (b : GReg) : RoundTrip.Statement (.claim d a b) := by
  intro _
  refine rt (op := 48) (p1 := d.val) (p2 := a.val) (x := b.val * 256 + 16) (by omega) (by omega) (by omega) (by omega) ?_
  show decSync (d.val) (a.val) ((b.val * 256 + 16) / 256) ((b.val * 256 + 16) % 256) = _
  rw [show (b.val * 256 + 16) / 256 = b.val by omega, show (b.val * 256 + 16) % 256 = 16 by omega]
  unfold decSync
  rw [gReg_val d, gReg_val a, gReg_val b]
  rfl

theorem RoundTrip.vsplit (n : SplitN) : RoundTrip.Statement (.vsplit n) := by
  intro _
  have := code_lt_SplitN n
  refine rt (op := 48) (p1 := 0) (p2 := 0) (x := n.code * 256 + 32) (by omega) (by omega) (by omega) (by omega) ?_
  show decSync (0) (0) ((n.code * 256 + 32) / 256) ((n.code * 256 + 32) % 256) = _
  rw [show (n.code * 256 + 32) / 256 = n.code by omega, show (n.code * 256 + 32) % 256 = 32 by omega]
  unfold decSync
  rw [splitN_code]
  rfl

theorem RoundTrip.vmerge : RoundTrip.Statement (.vmerge) := by
  intro _
  refine rt (op := 48) (p1 := 0) (p2 := 0) (x := 48) (by omega) (by omega) (by omega) (by omega) ?_
  show decSync (0) (0) ((48) / 256) ((48) % 256) = _
  rfl

theorem RoundTrip.swait : RoundTrip.Statement (.swait) := by
  intro _
  refine rt (op := 48) (p1 := 0) (p2 := 0) (x := 64) (by omega) (by omega) (by omega) (by omega) ?_
  show decSync (0) (0) ((64) / 256) ((64) % 256) = _
  rfl

theorem RoundTrip.swake (a : GReg) : RoundTrip.Statement (.swake a) := by
  intro _
  refine rt (op := 48) (p1 := 0) (p2 := a.val) (x := 80) (by omega) (by omega) (by omega) (by omega) ?_
  show decSync (0) (a.val) ((80) / 256) ((80) % 256) = _
  unfold decSync
  rw [gReg_val a]
  rfl

theorem RoundTrip.hq (d : GReg) (a : GReg) (l : Level) : RoundTrip.Statement (.hq d a l) := by
  intro _
  refine rt (op := 48) (p1 := d.val) (p2 := a.val) (x := l.val + 96) (by omega) (by omega) (by omega) (by omega) ?_
  show decSync (d.val) (a.val) ((l.val + 96) / 256) ((l.val + 96) % 256) = _
  rw [show (l.val + 96) / 256 = 0 by omega, show (l.val + 96) % 256 = l.val + 96 by omega]
  unfold decSync
  rw [show (l.val + 96) / 16 = 6 by omega, show (l.val + 96) % 16 = l.val by omega, gReg_val d, gReg_val a, lvl_val]
  rfl

theorem RoundTrip.sdone : RoundTrip.Statement (.sdone) := by
  intro _
  refine rt (op := 48) (p1 := 0) (p2 := 0) (x := 112) (by omega) (by omega) (by omega) (by omega) ?_
  show decSync (0) (0) ((112) / 256) ((112) % 256) = _
  rfl

theorem RoundTrip.syield : RoundTrip.Statement (.syield) := by
  intro _
  refine rt (op := 48) (p1 := 0) (p2 := 0) (x := 128) (by omega) (by omega) (by omega) (by omega) ?_
  show decSync (0) (0) ((128) / 256) ((128) % 256) = _
  rfl

theorem RoundTrip.rplCap (n : BitVec 6) : RoundTrip.Statement (.rplCap n) := by
  intro h
  refine rt (op := 48) (p1 := 0) (p2 := 0) (x := n.toNat * 256 + 144) (by omega) (by omega) (by omega) (by omega) ?_
  have hn : capN n.toNat = .ok n := by
    have h1 : (decide (1 ≤ n.toNat) && decide (n.toNat ≤ 32)) = true := h
    have : 1 ≤ n.toNat ∧ n.toNat ≤ 32 := by simpa using h1
    simp [capN, this]
  show decSync 0 0 ((n.toNat * 256 + 144) / 256) ((n.toNat * 256 + 144) % 256) = _
  rw [show (n.toNat * 256 + 144) / 256 = n.toNat by omega, show (n.toNat * 256 + 144) % 256 = 144 by omega]
  unfold decSync
  rw [hn]
  rfl

theorem RoundTrip.rplRun (a : GReg) : RoundTrip.Statement (.rplRun a) := by
  intro _
  refine rt (op := 48) (p1 := 0) (p2 := a.val) (x := 160) (by omega) (by omega) (by omega) (by omega) ?_
  show decSync (0) (a.val) ((160) / 256) ((160) % 256) = _
  unfold decSync
  rw [gReg_val a]
  rfl

theorem RoundTrip.engPush (a : GReg) (e : Fin 8) : RoundTrip.Statement (.engPush a e) := by
  intro h
  refine rt (op := 49) (p1 := 0) (p2 := a.val) (x := e.val) (by omega) (by omega) (by omega) (by omega) ?_
  rw [decodeFields_eng]
  unfold decEng
  rw [show (e.val) / 4096 = 0 by omega, show (e.val) / 8 % 512 = 0 by omega, show (e.val) % 8 = e.val by omega, gReg_val a, fin8_val]
  rfl

theorem RoundTrip.engPop (d : GReg) (a : GReg) (e : Fin 8) : RoundTrip.Statement (.engPop d a e) := by
  intro h
  refine rt (op := 49) (p1 := d.val) (p2 := a.val) (x := e.val + 4096) (by omega) (by omega) (by omega) (by omega) ?_
  rw [decodeFields_eng]
  unfold decEng
  rw [show (e.val + 4096) / 4096 = 1 by omega, show (e.val + 4096) / 8 % 512 = 0 by omega, show (e.val + 4096) % 8 = e.val by omega, gReg_val d, gReg_val a, fin8_val]
  rfl

theorem RoundTrip.engPoll (d : GReg) (e : Fin 8) : RoundTrip.Statement (.engPoll d e) := by
  intro h
  refine rt (op := 49) (p1 := d.val) (p2 := 0) (x := e.val + 8192) (by omega) (by omega) (by omega) (by omega) ?_
  rw [decodeFields_eng]
  unfold decEng
  rw [show (e.val + 8192) / 4096 = 2 by omega, show (e.val + 8192) / 8 % 512 = 0 by omega, show (e.val + 8192) % 8 = e.val by omega, gReg_val d, fin8_val]
  rfl

theorem RoundTrip.engDrain (e : Fin 8) : RoundTrip.Statement (.engDrain e) := by
  intro h
  refine rt (op := 49) (p1 := 0) (p2 := 0) (x := e.val + 12288) (by omega) (by omega) (by omega) (by omega) ?_
  rw [decodeFields_eng]
  unfold decEng
  rw [show (e.val + 12288) / 4096 = 3 by omega, show (e.val + 12288) / 8 % 512 = 0 by omega, show (e.val + 12288) % 8 = e.val by omega, fin8_val]
  rfl

theorem RoundTrip.colRed (d : VReg) (a : VReg) (q : Fin 8) (r : ColOp) (t : ElTy) (k : Bool) : RoundTrip.Statement (.colRed d a q r t k) := by
  intro h
  have := code_lt_ColOp r
  have := code_lt_ElTy t
  have := toNat_lt_Bool k
  refine rt (op := 50) (p1 := d.val) (p2 := a.val) (x := q.val * 2048 + r.code * 32 + t.code * 4 + k.toNat * 2) (by omega) (by omega) (by omega) (by omega) ?_
  have hr : colReduce r.code t.code k.toNat = .ok () := by
    have h0 : r.ok t k = true := h
    have h1 : (r.code < 3 ∨ t.code < 4) ∧ (k.toNat = 0 ∨ r.code = 0) := by
      cases r <;> cases k <;> simp_all [ColOp.ok, ColOp.code]
    exact if_pos h1
  show decColl (d.val) (a.val) (q.val * 2048 + r.code * 32 + t.code * 4 + k.toNat * 2) = _
  unfold decColl
  rw [show (q.val * 2048 + r.code * 32 + t.code * 4 + k.toNat * 2) / 256 % 8 = 0 by omega, show (q.val * 2048 + r.code * 32 + t.code * 4 + k.toNat * 2) % 2 = 0 by omega, show (q.val * 2048 + r.code * 32 + t.code * 4 + k.toNat * 2) / 32 % 8 = r.code by omega, show (q.val * 2048 + r.code * 32 + t.code * 4 + k.toNat * 2) / 4 % 8 = t.code by omega, show (q.val * 2048 + r.code * 32 + t.code * 4 + k.toNat * 2) / 2 % 2 = k.toNat by omega, show (q.val * 2048 + r.code * 32 + t.code * 4 + k.toNat * 2) / 2048 = q.val by omega, hr, colOp_code, ElTy.ofCode_code, vReg_val d, vReg_val a, fin8_val]
  cases k <;> rfl

theorem RoundTrip.colAred (d : VReg) (a : VReg) (q : Fin 8) (r : ColOp) (t : ElTy) (k : Bool) : RoundTrip.Statement (.colAred d a q r t k) := by
  intro h
  have := code_lt_ColOp r
  have := code_lt_ElTy t
  have := toNat_lt_Bool k
  refine rt (op := 50) (p1 := d.val) (p2 := a.val) (x := q.val * 2048 + r.code * 32 + t.code * 4 + k.toNat * 2 + 256) (by omega) (by omega) (by omega) (by omega) ?_
  have hr : colReduce r.code t.code k.toNat = .ok () := by
    have h0 : r.ok t k = true := h
    have h1 : (r.code < 3 ∨ t.code < 4) ∧ (k.toNat = 0 ∨ r.code = 0) := by
      cases r <;> cases k <;> simp_all [ColOp.ok, ColOp.code]
    exact if_pos h1
  show decColl (d.val) (a.val) (q.val * 2048 + r.code * 32 + t.code * 4 + k.toNat * 2 + 256) = _
  unfold decColl
  rw [show (q.val * 2048 + r.code * 32 + t.code * 4 + k.toNat * 2 + 256) / 256 % 8 = 1 by omega, show (q.val * 2048 + r.code * 32 + t.code * 4 + k.toNat * 2 + 256) % 2 = 0 by omega, show (q.val * 2048 + r.code * 32 + t.code * 4 + k.toNat * 2 + 256) / 32 % 8 = r.code by omega, show (q.val * 2048 + r.code * 32 + t.code * 4 + k.toNat * 2 + 256) / 4 % 8 = t.code by omega, show (q.val * 2048 + r.code * 32 + t.code * 4 + k.toNat * 2 + 256) / 2 % 2 = k.toNat by omega, show (q.val * 2048 + r.code * 32 + t.code * 4 + k.toNat * 2 + 256) / 2048 = q.val by omega, hr, colOp_code, ElTy.ofCode_code, vReg_val d, vReg_val a, fin8_val]
  cases k <;> rfl

theorem RoundTrip.colGat (d : VReg) (a : VReg) (q : Fin 8) (t : ElTy) : RoundTrip.Statement (.colGat d a q t) := by
  intro h
  have := code_lt_ElTy t
  refine rt (op := 50) (p1 := d.val) (p2 := a.val) (x := q.val * 2048 + t.code * 4 + 512) (by omega) (by omega) (by omega) (by omega) ?_
  show decColl (d.val) (a.val) (q.val * 2048 + t.code * 4 + 512) = _
  unfold decColl
  rw [show (q.val * 2048 + t.code * 4 + 512) / 256 % 8 = 2 by omega, show (q.val * 2048 + t.code * 4 + 512) % 4 = 0 by omega, show (q.val * 2048 + t.code * 4 + 512) / 32 % 8 = 0 by omega, show (q.val * 2048 + t.code * 4 + 512) / 4 % 8 = t.code by omega, show (q.val * 2048 + t.code * 4 + 512) / 2048 = q.val by omega, ElTy.ofCode_code, vReg_val d, vReg_val a, fin8_val]
  rfl

theorem RoundTrip.colAgat (d : VReg) (a : VReg) (q : Fin 8) (t : ElTy) : RoundTrip.Statement (.colAgat d a q t) := by
  intro h
  have := code_lt_ElTy t
  refine rt (op := 50) (p1 := d.val) (p2 := a.val) (x := q.val * 2048 + t.code * 4 + 768) (by omega) (by omega) (by omega) (by omega) ?_
  show decColl (d.val) (a.val) (q.val * 2048 + t.code * 4 + 768) = _
  unfold decColl
  rw [show (q.val * 2048 + t.code * 4 + 768) / 256 % 8 = 3 by omega, show (q.val * 2048 + t.code * 4 + 768) % 4 = 0 by omega, show (q.val * 2048 + t.code * 4 + 768) / 32 % 8 = 0 by omega, show (q.val * 2048 + t.code * 4 + 768) / 4 % 8 = t.code by omega, show (q.val * 2048 + t.code * 4 + 768) / 2048 = q.val by omega, ElTy.ofCode_code, vReg_val d, vReg_val a, fin8_val]
  rfl

theorem RoundTrip.colSct (d : VReg) (a : VReg) (q : Fin 8) (t : ElTy) : RoundTrip.Statement (.colSct d a q t) := by
  intro h
  have := code_lt_ElTy t
  refine rt (op := 50) (p1 := d.val) (p2 := a.val) (x := q.val * 2048 + t.code * 4 + 1024) (by omega) (by omega) (by omega) (by omega) ?_
  show decColl (d.val) (a.val) (q.val * 2048 + t.code * 4 + 1024) = _
  unfold decColl
  rw [show (q.val * 2048 + t.code * 4 + 1024) / 256 % 8 = 4 by omega, show (q.val * 2048 + t.code * 4 + 1024) % 4 = 0 by omega, show (q.val * 2048 + t.code * 4 + 1024) / 32 % 8 = 0 by omega, show (q.val * 2048 + t.code * 4 + 1024) / 4 % 8 = t.code by omega, show (q.val * 2048 + t.code * 4 + 1024) / 2048 = q.val by omega, ElTy.ofCode_code, vReg_val d, vReg_val a, fin8_val]
  rfl

theorem RoundTrip.colA2a (d : VReg) (a : VReg) (q : Fin 8) (t : ElTy) : RoundTrip.Statement (.colA2a d a q t) := by
  intro h
  have := code_lt_ElTy t
  refine rt (op := 50) (p1 := d.val) (p2 := a.val) (x := q.val * 2048 + t.code * 4 + 1280) (by omega) (by omega) (by omega) (by omega) ?_
  show decColl (d.val) (a.val) (q.val * 2048 + t.code * 4 + 1280) = _
  unfold decColl
  rw [show (q.val * 2048 + t.code * 4 + 1280) / 256 % 8 = 5 by omega, show (q.val * 2048 + t.code * 4 + 1280) % 4 = 0 by omega, show (q.val * 2048 + t.code * 4 + 1280) / 32 % 8 = 0 by omega, show (q.val * 2048 + t.code * 4 + 1280) / 4 % 8 = t.code by omega, show (q.val * 2048 + t.code * 4 + 1280) / 2048 = q.val by omega, ElTy.ofCode_code, vReg_val d, vReg_val a, fin8_val]
  rfl

theorem RoundTrip.grpJoin (d : GReg) (a : GReg) (q : Fin 8) : RoundTrip.Statement (.grpJoin d a q) := by
  intro h
  refine rt (op := 50) (p1 := d.val) (p2 := a.val) (x := q.val * 2048 + 1536) (by omega) (by omega) (by omega) (by omega) ?_
  show decColl (d.val) (a.val) (q.val * 2048 + 1536) = _
  unfold decColl
  rw [show (q.val * 2048 + 1536) / 256 % 8 = 6 by omega, show (q.val * 2048 + 1536) % 32 = 0 by omega, show (q.val * 2048 + 1536) / 32 % 8 = 0 by omega, show (q.val * 2048 + 1536) / 2048 = q.val by omega, gReg_val d, gReg_val a, fin8_val]
  rfl

theorem RoundTrip.grpLeave (d : GReg) (q : Fin 8) : RoundTrip.Statement (.grpLeave d q) := by
  intro h
  refine rt (op := 50) (p1 := d.val) (p2 := 0) (x := q.val * 2048 + 1568) (by omega) (by omega) (by omega) (by omega) ?_
  show decColl (d.val) (0) (q.val * 2048 + 1568) = _
  unfold decColl
  rw [show (q.val * 2048 + 1568) / 256 % 8 = 6 by omega, show (q.val * 2048 + 1568) % 32 = 0 by omega, show (q.val * 2048 + 1568) / 32 % 8 = 1 by omega, show (q.val * 2048 + 1568) / 2048 = q.val by omega, gReg_val d, fin8_val]
  rfl

theorem RoundTrip.grpInfo (d : GReg) (a : GReg) (q : Fin 8) : RoundTrip.Statement (.grpInfo d a q) := by
  intro h
  refine rt (op := 50) (p1 := d.val) (p2 := a.val) (x := q.val * 2048 + 1600) (by omega) (by omega) (by omega) (by omega) ?_
  show decColl (d.val) (a.val) (q.val * 2048 + 1600) = _
  unfold decColl
  rw [show (q.val * 2048 + 1600) / 256 % 8 = 6 by omega, show (q.val * 2048 + 1600) % 32 = 0 by omega, show (q.val * 2048 + 1600) / 32 % 8 = 2 by omega, show (q.val * 2048 + 1600) / 2048 = q.val by omega, gReg_val d, gReg_val a, fin8_val]
  rfl

theorem RoundTrip.grpLoad (d : GReg) (a : GReg) (q : Fin 8) : RoundTrip.Statement (.grpLoad d a q) := by
  intro h
  refine rt (op := 50) (p1 := d.val) (p2 := a.val) (x := q.val * 2048 + 1632) (by omega) (by omega) (by omega) (by omega) ?_
  show decColl (d.val) (a.val) (q.val * 2048 + 1632) = _
  unfold decColl
  rw [show (q.val * 2048 + 1632) / 256 % 8 = 6 by omega, show (q.val * 2048 + 1632) % 32 = 0 by omega, show (q.val * 2048 + 1632) / 32 % 8 = 3 by omega, show (q.val * 2048 + 1632) / 2048 = q.val by omega, gReg_val d, gReg_val a, fin8_val]
  rfl

theorem RoundTrip.crd (d : GReg) (s : CReg) : RoundTrip.Statement (.crd d s) := by
  intro _
  have := code_lt_CReg s
  refine rt (op := 51) (p1 := d.val) (p2 := 0) (x := s.code) (by omega) (by omega) (by omega) (by omega) ?_
  show (decodeFields 51 (d.val) (0) (s.code)) = _
  unfold decodeFields
  rw [gReg_val d, cReg_code s]
  rfl

theorem RoundTrip.cwr (a : GReg) (s : CReg) : RoundTrip.Statement (.cwr a s) := by
  intro _
  have := code_lt_CReg s
  refine rt (op := 52) (p1 := 0) (p2 := a.val) (x := s.code) (by omega) (by omega) (by omega) (by omega) ?_
  show (decodeFields 52 (0) (a.val) (s.code)) = _
  unfold decodeFields
  rw [gReg_val a, cReg_code s]
  rfl

theorem RoundTrip.srd (d : GReg) (s : SReg) : RoundTrip.Statement (.srd d s) := by
  intro _
  have := code_lt_SReg s
  refine rt (op := 53) (p1 := d.val) (p2 := 0) (x := s.code) (by omega) (by omega) (by omega) (by omega) ?_
  show (decodeFields 53 (d.val) (0) (s.code)) = _
  unfold decodeFields
  rw [gReg_val d, sReg_code s]
  rfl

theorem RoundTrip.swr (a : GReg) (s : SReg) : RoundTrip.Statement (.swr a s) := by
  intro _
  have := code_lt_SReg s
  refine rt (op := 54) (p1 := 0) (p2 := a.val) (x := s.code) (by omega) (by omega) (by omega) (by omega) ?_
  show (decodeFields 54 (0) (a.val) (s.code)) = _
  unfold decodeFields
  rw [gReg_val a, sReg_code s]
  rfl

theorem RoundTrip.cntRd (d : GReg) (c : Counter) (i : BitVec 6) : RoundTrip.Statement (.cntRd d c i) := by
  intro h
  have := code_lt_Counter c
  refine rt (op := 55) (p1 := d.val) (p2 := 0) (x := c.code * 64 + i.toNat) (by omega) (by omega) (by omega) (by omega) ?_
  have hc : i.toNat < c.instances := of_decide_eq_true h
  have hi : counterOk c.code i.toNat = .ok () := by
    have : i.toNat < (if c.code < 6 then 4 else if c.code < 8 then 32 else 1) := hc
    simp [counterOk, this]
  show decodeFields 55 _ _ _ = _
  unfold decodeFields
  rw [show (c.code * 64 + i.toNat) / 64 = c.code by omega, show (c.code * 64 + i.toNat) % 64 = i.toNat by omega, hi, gReg_val, counter_code, ofNat_toNat6]
  rfl

theorem RoundTrip.sys : RoundTrip.Statement (.sys) := by
  intro _
  refine rt (op := 56) (p1 := 0) (p2 := 0) (x := 0) (by omega) (by omega) (by omega) (by omega) ?_
  show decSys (0) (0) ((0) / 256) ((0) % 256) = _
  rfl

theorem RoundTrip.trap (a : GReg) : RoundTrip.Statement (.trap a) := by
  intro _
  refine rt (op := 56) (p1 := 0) (p2 := a.val) (x := 1) (by omega) (by omega) (by omega) (by omega) ?_
  show decSys (0) (a.val) ((1) / 256) ((1) % 256) = _
  unfold decSys
  rw [gReg_val a]
  rfl

theorem RoundTrip.tret : RoundTrip.Statement (.tret) := by
  intro _
  refine rt (op := 56) (p1 := 0) (p2 := 0) (x := 2) (by omega) (by omega) (by omega) (by omega) ?_
  show decSys (0) (0) ((2) / 256) ((2) % 256) = _
  rfl

theorem RoundTrip.brk : RoundTrip.Statement (.brk) := by
  intro _
  refine rt (op := 56) (p1 := 0) (p2 := 0) (x := 3) (by omega) (by omega) (by omega) (by omega) ?_
  show decSys (0) (0) ((3) / 256) ((3) % 256) = _
  rfl

theorem RoundTrip.wait : RoundTrip.Statement (.wait) := by
  intro _
  refine rt (op := 56) (p1 := 0) (p2 := 0) (x := 4) (by omega) (by omega) (by omega) (by omega) ?_
  show decSys (0) (0) ((4) / 256) ((4) % 256) = _
  rfl

theorem RoundTrip.drd (d : GReg) (a : GReg) : RoundTrip.Statement (.drd d a) := by
  intro _
  refine rt (op := 56) (p1 := d.val) (p2 := a.val) (x := 5) (by omega) (by omega) (by omega) (by omega) ?_
  show decSys (d.val) (a.val) ((5) / 256) ((5) % 256) = _
  unfold decSys
  rw [gReg_val d, gReg_val a]
  rfl

theorem RoundTrip.svc (a : GReg) : RoundTrip.Statement (.svc a) := by
  intro _
  refine rt (op := 56) (p1 := 0) (p2 := a.val) (x := 6) (by omega) (by omega) (by omega) (by omega) ?_
  show decSys (0) (a.val) ((6) / 256) ((6) % 256) = _
  unfold decSys
  rw [gReg_val a]
  rfl

theorem RoundTrip.logApp (a : GReg) : RoundTrip.Statement (.logApp a) := by
  intro _
  refine rt (op := 56) (p1 := 0) (p2 := a.val) (x := 7) (by omega) (by omega) (by omega) (by omega) ?_
  show decSys (0) (a.val) ((7) / 256) ((7) % 256) = _
  unfold decSys
  rw [gReg_val a]
  rfl

theorem RoundTrip.waitTimeout (sn : Nat) : RoundTrip.Statement (.waitTimeout sn) :=
  fun h => absurd h Bool.false_ne_true

theorem RoundTrip.swapEffect (core : Nat) : RoundTrip.Statement (.swapEffect core) :=
  fun h => absurd h Bool.false_ne_true

theorem RoundTrip.copy (die : Nat) (eng : Nat) : RoundTrip.Statement (.copy die eng) :=
  fun h => absurd h Bool.false_ne_true

theorem RoundTrip.planeLoad (die : Nat) (eng : Nat) : RoundTrip.Statement (.planeLoad die eng) :=
  fun h => absurd h Bool.false_ne_true

theorem RoundTrip.followOn (core : Nat) : RoundTrip.Statement (.followOn core) :=
  fun h => absurd h Bool.false_ne_true

theorem RoundTrip.convert (die : Nat) (eng : Nat) : RoundTrip.Statement (.convert die eng) :=
  fun h => absurd h Bool.false_ne_true

theorem RoundTrip.compact (die : Nat) (eng : Nat) : RoundTrip.Statement (.compact die eng) :=
  fun h => absurd h Bool.false_ne_true

theorem RoundTrip.remap (die : Nat) (eng : Nat) : RoundTrip.Statement (.remap die eng) :=
  fun h => absurd h Bool.false_ne_true

theorem RoundTrip.mxfp4 (die : Nat) (eng : Nat) : RoundTrip.Statement (.mxfp4 die eng) :=
  fun h => absurd h Bool.false_ne_true

theorem RoundTrip.colour (sect : Nat) : RoundTrip.Statement (.colour sect) :=
  fun h => absurd h Bool.false_ne_true

theorem RoundTrip.topoCreate (die : Nat) : RoundTrip.Statement (.topoCreate die) :=
  fun h => absurd h Bool.false_ne_true

theorem RoundTrip.adapt (die : Nat) : RoundTrip.Statement (.adapt die) :=
  fun h => absurd h Bool.false_ne_true

theorem RoundTrip.topoExport (die : Nat) : RoundTrip.Statement (.topoExport die) :=
  fun h => absurd h Bool.false_ne_true

theorem RoundTrip.hold (die : Nat) : RoundTrip.Statement (.hold die) :=
  fun h => absurd h Bool.false_ne_true

theorem RoundTrip.drop (die : Nat) : RoundTrip.Statement (.drop die) :=
  fun h => absurd h Bool.false_ne_true

theorem RoundTrip.partition (die : Nat) : RoundTrip.Statement (.partition die) :=
  fun h => absurd h Bool.false_ne_true

theorem RoundTrip.topoDestroy (die : Nat) : RoundTrip.Statement (.topoDestroy die) :=
  fun h => absurd h Bool.false_ne_true

theorem RoundTrip.collCreate (die : Nat) (taken : Bool) (bad : List Nat) (elsewhere : Nat) : RoundTrip.Statement (.collCreate die taken bad elsewhere) :=
  fun h => absurd h Bool.false_ne_true

theorem RoundTrip.collDestroy (die : Nat) : RoundTrip.Statement (.collDestroy die) :=
  fun h => absurd h Bool.false_ne_true

theorem RoundTrip.memcoll (die : Nat) : RoundTrip.Statement (.memcoll die) :=
  fun h => absurd h Bool.false_ne_true

theorem RoundTrip.flush (die : Nat) : RoundTrip.Statement (.flush die) :=
  fun h => absurd h Bool.false_ne_true

theorem RoundTrip.query (die : Nat) : RoundTrip.Statement (.query die) :=
  fun h => absurd h Bool.false_ne_true

theorem RoundTrip.pageWalk (sn : Nat) (va : Nat) : RoundTrip.Statement (.pageWalk sn va) :=
  fun h => absurd h Bool.false_ne_true

theorem RoundTrip.hostWalkReply (region : Nat) (page : Nat) (leaf : Word) (large : Bool) : RoundTrip.Statement (.hostWalkReply region page leaf large) :=
  fun h => absurd h Bool.false_ne_true

theorem RoundTrip.logApply (die : Nat) : RoundTrip.Statement (.logApply die) :=
  fun h => absurd h Bool.false_ne_true

theorem RoundTrip.rowActivateHint (sn : Nat) (entry : Nat) : RoundTrip.Statement (.rowActivateHint sn entry) :=
  fun h => absurd h Bool.false_ne_true

theorem RoundTrip.hintRowClose (core : Nat) (row : Nat) : RoundTrip.Statement (.hintRowClose core row) :=
  fun h => absurd h Bool.false_ne_true

theorem RoundTrip.elementTrain (src : Nat) (tag : Nat) (kind : Nat) (drid : Nat) (rgen : Nat) (elems : List TrainElem) : RoundTrip.Statement (.elementTrain src tag kind drid rgen elems) :=
  fun h => absurd h Bool.false_ne_true

theorem RoundTrip.trainAck (tag : Nat) (count : Nat) (refused : List Nat) : RoundTrip.Statement (.trainAck tag count refused) :=
  fun h => absurd h Bool.false_ne_true

theorem RoundTrip.contribution (gid : Nat) (gen : ColGen) (form : Nat) (seq : Nat) (rank : Nat) (a : Word) (b : Word) (elems : List (Word × Grade)) (idx : List Nat) : RoundTrip.Statement (.contribution gid gen form seq rank a b elems idx) :=
  fun h => absurd h Bool.false_ne_true

theorem RoundTrip.collectiveComplete (gid : Nat) (gen : Nat) (form : Nat) (seq : Nat) : RoundTrip.Statement (.collectiveComplete gid gen form seq) :=
  fun h => absurd h Bool.false_ne_true

theorem RoundTrip.barrierComplete (lid : Nat) (inst : Nat) (arrived : Nat) (missing : Nat) (wd : Bool) (newwd : Bool) : RoundTrip.Statement (.barrierComplete lid inst arrived missing wd newwd) :=
  fun h => absurd h Bool.false_ne_true

theorem RoundTrip.membershipRequest (gid : Nat) (kind : Nat) (who : Nat) : RoundTrip.Statement (.membershipRequest gid kind who) :=
  fun h => absurd h Bool.false_ne_true

theorem RoundTrip.newgen (gid : Nat) (region : Nat) (gen : Nat) (root : Nat) (k : Nat) (members : NewMembers) : RoundTrip.Statement (.newgen gid region gen root k members) :=
  fun h => absurd h Bool.false_ne_true

theorem RoundTrip.newgenAck (gid : Nat) (gen : Nat) (pkg : Nat) : RoundTrip.Statement (.newgenAck gid gen pkg) :=
  fun h => absurd h Bool.false_ne_true

theorem RoundTrip.newgenTimeout (gid : Nat) (pkg : Nat) : RoundTrip.Statement (.newgenTimeout gid pkg) :=
  fun h => absurd h Bool.false_ne_true

theorem RoundTrip.hostMemberList (gid : Nat) (members : List Nat) : RoundTrip.Statement (.hostMemberList gid members) :=
  fun h => absurd h Bool.false_ne_true

theorem RoundTrip.launch (fn : Nat) : RoundTrip.Statement (.launch fn) :=
  fun h => absurd h Bool.false_ne_true

theorem RoundTrip.hostPlacement (fn : Nat) (units : List Nat) : RoundTrip.Statement (.hostPlacement fn units) :=
  fun h => absurd h Bool.false_ne_true

theorem RoundTrip.houseFault (lid : Nat) : RoundTrip.Statement (.houseFault lid) :=
  fun h => absurd h Bool.false_ne_true

theorem RoundTrip.seatDecision (core : Nat) (slot : Nat) : RoundTrip.Statement (.seatDecision core slot) :=
  fun h => absurd h Bool.false_ne_true

theorem RoundTrip.quantumExpiry (sn : Nat) : RoundTrip.Statement (.quantumExpiry sn) :=
  fun h => absurd h Bool.false_ne_true

theorem RoundTrip.priorityAging (sn : Nat) : RoundTrip.Statement (.priorityAging sn) :=
  fun h => absurd h Bool.false_ne_true

theorem RoundTrip.park (sn : Nat) : RoundTrip.Statement (.park sn) :=
  fun h => absurd h Bool.false_ne_true

theorem RoundTrip.unpark (sn : Nat) : RoundTrip.Statement (.unpark sn) :=
  fun h => absurd h Bool.false_ne_true

theorem RoundTrip.preemption (sn : Nat) : RoundTrip.Statement (.preemption sn) :=
  fun h => absurd h Bool.false_ne_true

theorem RoundTrip.preemptQuiesce (sn : Nat) : RoundTrip.Statement (.preemptQuiesce sn) :=
  fun h => absurd h Bool.false_ne_true

theorem RoundTrip.save (sn : Nat) : RoundTrip.Statement (.save sn) :=
  fun h => absurd h Bool.false_ne_true

theorem RoundTrip.imageCopy (sn : Nat) (ok : Bool) : RoundTrip.Statement (.imageCopy sn ok) :=
  fun h => absurd h Bool.false_ne_true

theorem RoundTrip.restore (sn : Nat) : RoundTrip.Statement (.restore sn) :=
  fun h => absurd h Bool.false_ne_true

theorem RoundTrip.trapEntry (sn : Nat) : RoundTrip.Statement (.trapEntry sn) :=
  fun h => absurd h Bool.false_ne_true

theorem RoundTrip.powerSample (watts : Nat) (mx : List Nat) (vec : List Nat) : RoundTrip.Statement (.powerSample watts mx vec) :=
  fun h => absurd h Bool.false_ne_true

theorem RoundTrip.thermalStop (die : Nat) : RoundTrip.Statement (.thermalStop die) :=
  fun h => absurd h Bool.false_ne_true

theorem RoundTrip.linkFailure (link : Nat) : RoundTrip.Statement (.linkFailure link) :=
  fun h => absurd h Bool.false_ne_true

theorem RoundTrip.dieCutoff (die : Nat) : RoundTrip.Statement (.dieCutoff die) :=
  fun h => absurd h Bool.false_ne_true

theorem RoundTrip.scrubPass (die : Nat) (stk : Nat) (first : Nat) (count : Nat) (worn : Bool) : RoundTrip.Statement (.scrubPass die stk first count worn) :=
  fun h => absurd h Bool.false_ne_true

theorem RoundTrip.heartbeat (die : Nat) (stk : Nat) : RoundTrip.Statement (.heartbeat die stk) :=
  fun h => absurd h Bool.false_ne_true

theorem RoundTrip.baseDieCoreFailed (die : Nat) (stk : Nat) : RoundTrip.Statement (.baseDieCoreFailed die stk) :=
  fun h => absurd h Bool.false_ne_true

theorem RoundTrip.refreshTakeover (die : Nat) (stk : Nat) : RoundTrip.Statement (.refreshTakeover die stk) :=
  fun h => absurd h Bool.false_ne_true

theorem RoundTrip.refreshDouble (die : Nat) (stk : Nat) (temp : Nat) : RoundTrip.Statement (.refreshDouble die stk temp) :=
  fun h => absurd h Bool.false_ne_true

theorem RoundTrip.remapCommitReply (pkg : Nat) (handle : Nat) (gen : Nat) (ph : Nat) : RoundTrip.Statement (.remapCommitReply pkg handle gen ph) :=
  fun h => absurd h Bool.false_ne_true

theorem RoundTrip.partitionEntryWrite (n : Nat) (dw : Nat) (data : Word) : RoundTrip.Statement (.partitionEntryWrite n dw data) :=
  fun h => absurd h Bool.false_ne_true

theorem RoundTrip.regionRecordWrite (fn : Nat) (r : Nat) (dw : Nat) (data : Word) : RoundTrip.Statement (.regionRecordWrite fn r dw data) :=
  fun h => absurd h Bool.false_ne_true

theorem RoundTrip.saveAreaWrite (n : Nat) (dw : Nat) (data : Word) : RoundTrip.Statement (.saveAreaWrite n dw data) :=
  fun h => absurd h Bool.false_ne_true

theorem RoundTrip.dutyWrite (data : Word) : RoundTrip.Statement (.dutyWrite data) :=
  fun h => absurd h Bool.false_ne_true

theorem RoundTrip.dutyActUpdate (fnbit : Nat) : RoundTrip.Statement (.dutyActUpdate fnbit) :=
  fun h => absurd h Bool.false_ne_true

theorem RoundTrip.registerWrite (fn : Nat) (bar : Nat) (off : Nat) (len : Nat) (data : Nat) : RoundTrip.Statement (.registerWrite fn bar off len data) :=
  fun h => absurd h Bool.false_ne_true

theorem RoundTrip.quote (fn : Nat) : RoundTrip.Statement (.quote fn) :=
  fun h => absurd h Bool.false_ne_true

theorem RoundTrip.cert (fn : Nat) : RoundTrip.Statement (.cert fn) :=
  fun h => absurd h Bool.false_ne_true

theorem RoundTrip.stage (fn : Nat) : RoundTrip.Statement (.stage fn) :=
  fun h => absurd h Bool.false_ne_true

theorem RoundTrip.swap (fn : Nat) : RoundTrip.Statement (.swap fn) :=
  fun h => absurd h Bool.false_ne_true

theorem RoundTrip.prepare (fn : Nat) (fabric : Option (Nat × Nat × Nat × Nat × Nat)) : RoundTrip.Statement (.prepare fn fabric) :=
  fun h => absurd h Bool.false_ne_true

theorem RoundTrip.commit (fn : Nat) (fabric : Option (Nat × Nat × Nat)) : RoundTrip.Statement (.commit fn fabric) :=
  fun h => absurd h Bool.false_ne_true

theorem RoundTrip.scrub (fn : Nat) : RoundTrip.Statement (.scrub fn) :=
  fun h => absurd h Bool.false_ne_true

theorem RoundTrip.logapp (fn : Nat) : RoundTrip.Statement (.logapp fn) :=
  fun h => absurd h Bool.false_ne_true

theorem RoundTrip.powerUp (cfg : List Word) (failed : Nat) : RoundTrip.Statement (.powerUp cfg failed) :=
  fun h => absurd h Bool.false_ne_true

theorem RoundTrip.fwgo (len : Word) : RoundTrip.Statement (.fwgo len) :=
  fun h => absurd h Bool.false_ne_true

theorem RoundTrip.firmwareBoot (share : Nat) (base : BitVec 512) : RoundTrip.Statement (.firmwareBoot share base) :=
  fun h => absurd h Bool.false_ne_true

theorem RoundTrip.linkReset : RoundTrip.Statement (.linkReset) :=
  fun h => absurd h Bool.false_ne_true

theorem RoundTrip.vfFlr (n : Nat) : RoundTrip.Statement (.vfFlr n) :=
  fun h => absurd h Bool.false_ne_true

theorem RoundTrip.illegalInstruction (w : InstrWord) : RoundTrip.Statement (.illegalInstruction w) :=
  fun h => absurd h Bool.false_ne_true

theorem RoundTrip.instructionFetchFault (code : Nat) (va : Word) : RoundTrip.Statement (.instructionFetchFault code va) :=
  fun h => absurd h Bool.false_ne_true

theorem RoundTrip.fabricRequest (src : Nat) (tag : Nat) (drid : Nat) (rgen : Nat) (op : Nat) (addr : Nat) (len : Nat) (x : Nat) (y : Nat) (grade : Option Grade) : RoundTrip.Statement (.fabricRequest src tag drid rgen op addr len x y grade) :=
  fun h => absurd h Bool.false_ne_true

theorem RoundTrip.fabricReply (tag : Nat) (answer : Option (Nat × Option Grade)) : RoundTrip.Statement (.fabricReply tag answer) :=
  fun h => absurd h Bool.false_ne_true

theorem RoundTrip.junctionCooled (die : Nat) : RoundTrip.Statement (.junctionCooled die) :=
  fun h => absurd h Bool.false_ne_true

theorem RoundTrip.powerDown : RoundTrip.Statement (.powerDown) :=
  fun h => absurd h Bool.false_ne_true

theorem RoundTrip.capacityTierControllerFailed (die : Nat) (ctl : Nat) : RoundTrip.Statement (.capacityTierControllerFailed die ctl) :=
  fun h => absurd h Bool.false_ne_true

theorem RoundTrip.hostLogConfirmation (die : Nat) : RoundTrip.Statement (.hostLogConfirmation die) :=
  fun h => absurd h Bool.false_ne_true

theorem RoundTrip.hostTopologyResult (die : Nat) : RoundTrip.Statement (.hostTopologyResult die) :=
  fun h => absurd h Bool.false_ne_true

theorem RoundTrip.hostRefreshSetting (die : Nat) (stk : Nat) (rate : Nat) : RoundTrip.Statement (.hostRefreshSetting die stk rate) :=
  fun h => absurd h Bool.false_ne_true

end Sys2Proof.Laws
end

