-- ==== Sys2Proof/Laws/Windows.lean ====
section
/-!
SUPPORT. The host's register windows: what one write of a doubleword, or of less, does to an entry or record (R396, R397, R436).
-/

namespace Sys2Proof.Machine

/-- A write inside one block is one piece. -/
theorem blockPieces_one {size b lo n x : Nat} (hn : 0 < n) (h : lo + n ≤ size) :
    blockPieces size (b * size + lo) n x = [(b * size, lo, n, x % 2 ^ (8 * n))] := by
  have hs : 0 < size := by omega
  have h1 : (b * size + lo) / size = b := by
    rw [Nat.mul_comm, Nat.mul_add_div hs, Nat.div_eq_of_lt (by omega), Nat.add_zero]
  have h2 : (b * size + lo + n - 1) / size = b := by
    rw [show b * size + lo + n - 1 = size * b + (lo + n - 1) by rw [Nat.mul_comm]; omega, Nat.mul_add_div hs,
      Nat.div_eq_of_lt (by omega), Nat.add_zero]
  have h3 : max (b * size + lo) (b * size) = b * size + lo := by omega
  have h4 : min (b * size + lo + n) (b * size + size) = b * size + lo + n := by omega
  simp only [blockPieces, h1, h2, Nat.pos_iff_ne_zero.mp hn, if_false, Nat.sub_self, Nat.zero_add, upTo, List.range_one, List.map_cons,
    List.map_nil, Nat.add_zero, h3, h4]
  simp

theorem mergeBytes_mod (old : Word) (lo n x : Nat) : mergeBytes old lo n (x % 2 ^ (8 * n)) = mergeBytes old lo n x := by
  simp [mergeBytes]

/-- Bytes of one doubleword of an entry: that doubleword takes them. -/
theorem withBytes_dw {k dw lo n : Nat} {l : List Word} {x : Nat} (hn : 0 < n) (h : lo + n ≤ 8) :
    withBytes k l (8 * dw + lo) n x = withDw k l dw (mergeBytes (nth (padTo k l) dw 0) lo n x) := by
  rw [withBytes, dwPieces, Nat.mul_comm, blockPieces_one hn h]
  simp [mergeBytes_mod, withDw]

theorem mergeBytes_whole (old x : Word) : mergeBytes old 0 8 x.toNat = x := by
  apply BitVec.eq_of_toNat_eq
  have h1 := x.isLt
  have h2 := old.isLt
  simp [mergeBytes, Nat.mod_one, Nat.div_eq_of_lt h2, Nat.mod_eq_of_lt h1]

/-- A whole doubleword of an entry is replaced. -/
theorem withBytes_whole {k dw : Nat} {l : List Word} {x : Word} : withBytes k l (8 * dw) 8 x.toNat = withDw k l dw x := by
  rw [show 8 * dw = 8 * dw + 0 from rfl, withBytes_dw (by decide) (by decide), mergeBytes_whole]

theorem regionWith_whole (s : State) (r dw : Nat) (x : Word) : s.regionWith r dw 0 8 x.toNat = withDw 4 (s.regionRec r) dw x :=
  withBytes_whole

end Sys2Proof.Machine
end

