-- ==== Sys2Proof/Tests/Slice0.lean ====
section
/-!
SUPPORT. The model's own tests. Every expected word is written out from the encoding tables of 03_encoding (Tables 3-1 to 3-19); every
expected value from the rule that the test names.
-/

namespace Sys2Proof.Tests

open Sys2Proof Sys2Proof.Machine

set_option Elab.async false

/-! ### Decoding: words written out field by field from Tables 3-1 to 3-19 -/

/-- The family int of Tables 3-3 to 3-19. -/
theorem test_decode_int_1 :
    decodeWord 0x04518700 = .ok (.add 5 6 7) ∧
    decodeWord 0x04518701 = .ok (.sub 5 6 7) ∧
    decodeWord 0x04518702 = .ok (.and 5 6 7) ∧
    decodeWord 0x04518703 = .ok (.or 5 6 7) ∧
    decodeWord 0x04518704 = .ok (.xor 5 6 7) ∧
    decodeWord 0x04518705 = .ok (.sll 5 6 7) ∧
    decodeWord 0x04518706 = .ok (.srl 5 6 7) ∧
    decodeWord 0x04518707 = .ok (.sra 5 6 7) ∧
    decodeWord 0x04518708 = .ok (.slt 5 6 7) ∧
    decodeWord 0x04518709 = .ok (.sltu 5 6 7) ∧
    decodeWord 0x0451870A = .ok (.min 5 6 7) ∧
    decodeWord 0x0451870B = .ok (.max 5 6 7) ∧
    decodeWord 0x0451870C = .ok (.minu 5 6 7) ∧
    decodeWord 0x0451870D = .ok (.maxu 5 6 7) ∧
    decodeWord 0x0451870E = .ok (.mul 5 6 7) ∧
    decodeWord 0x0451870F = .ok (.mulh 5 6 7) := by
  refine ⟨rfl, rfl, rfl, rfl, rfl, rfl, rfl, rfl, rfl, rfl, rfl, rfl, rfl, rfl, rfl, rfl⟩

/-- The family int of Tables 3-3 to 3-19. -/
theorem test_decode_int_2 :
    decodeWord 0x04518710 = .ok (.mulhu 5 6 7) ∧
    decodeWord 0x04518711 = .ok (.div 5 6 7) ∧
    decodeWord 0x04518712 = .ok (.divu 5 6 7) ∧
    decodeWord 0x04518713 = .ok (.rem 5 6 7) ∧
    decodeWord 0x04518714 = .ok (.remu 5 6 7) ∧
    decodeWord 0x04518015 = .ok (.clz 5 6) ∧
    decodeWord 0x04518016 = .ok (.popc 5 6) ∧
    decodeWord 0x0451BF18 = .ok (.slli 5 6 63) ∧
    decodeWord 0x0451BF19 = .ok (.srli 5 6 63) ∧
    decodeWord 0x0451BF1A = .ok (.srai 5 6 63) := by
  refine ⟨rfl, rfl, rfl, rfl, rfl, rfl, rfl, rfl, rfl, rfl⟩

/-- The family imm of Tables 3-3 to 3-19. -/
theorem test_decode_imm :
    decodeWord 0x0851AABC = .ok (.addi 5 6 0x2ABC) ∧
    decodeWord 0x0C51AABC = .ok (.andi 5 6 0x2ABC) ∧
    decodeWord 0x1051AABC = .ok (.ori 5 6 0x2ABC) ∧
    decodeWord 0x1451AABC = .ok (.xori 5 6 0x2ABC) ∧
    decodeWord 0x1851AABC = .ok (.slti 5 6 0x2ABC) ∧
    decodeWord 0x1C51AABC = .ok (.sltiu 5 6 0x2ABC) ∧
    decodeWord 0x20548D16 = .ok (.lhi 5 0x48D16) ∧
    decodeWord 0x245FFFFF = .ok (.adpc 5 0xFFFFF) := by
  refine ⟨rfl, rfl, rfl, rfl, rfl, rfl, rfl, rfl⟩

/-- The family load_store of Tables 3-3 to 3-19. -/
theorem test_decode_load_store :
    decodeWord 0x28519FFF = .ok (.ldB 5 6 0x1FFF) ∧
    decodeWord 0x2C519FFF = .ok (.ldBu 5 6 0x1FFF) ∧
    decodeWord 0x30519FFF = .ok (.ldH 5 6 0x1FFF) ∧
    decodeWord 0x34519FFF = .ok (.ldHu 5 6 0x1FFF) ∧
    decodeWord 0x38519FFF = .ok (.ldW 5 6 0x1FFF) ∧
    decodeWord 0x3C519FFF = .ok (.ldWu 5 6 0x1FFF) ∧
    decodeWord 0x40519FFF = .ok (.ldL 5 6 0x1FFF) ∧
    decodeWord 0x44519FFF = .ok (.stB 5 6 0x1FFF) ∧
    decodeWord 0x48519FFF = .ok (.stH 5 6 0x1FFF) ∧
    decodeWord 0x4C519FFF = .ok (.stW 5 6 0x1FFF) ∧
    decodeWord 0x50519FFF = .ok (.stL 5 6 0x1FFF) ∧
    decodeWord 0x54518008 = .ok (.fld .f64 5 6 8) ∧
    decodeWord 0x56518008 = .ok (.fld .f32 5 6 8) ∧
    decodeWord 0x58518008 = .ok (.fst .f64 5 6 8) ∧
    decodeWord 0x5A518008 = .ok (.fst .f32 5 6 8) := by
  refine ⟨rfl, rfl, rfl, rfl, rfl, rfl, rfl, rfl, rfl, rfl, rfl, rfl, rfl, rfl, rfl⟩

/-- The family fpr of Tables 3-3 to 3-19. -/
theorem test_decode_fpr_1 :
    decodeWord 0x5C518701 = .ok (.fadd 5 6 7 .f32) ∧
    decodeWord 0x5C518703 = .ok (.fsub 5 6 7 .f32) ∧
    decodeWord 0x5C518705 = .ok (.fmul 5 6 7 .f32) ∧
    decodeWord 0x5C518707 = .ok (.fdiv 5 6 7 .f32) ∧
    decodeWord 0x5C51870B = .ok (.fmin 5 6 7 .f32) ∧
    decodeWord 0x5C51870D = .ok (.fmax 5 6 7 .f32) ∧
    decodeWord 0x5C518711 = .ok (.feq 5 6 7 .f32) ∧
    decodeWord 0x5C518713 = .ok (.flt 5 6 7 .f32) ∧
    decodeWord 0x5C518715 = .ok (.fle 5 6 7 .f32) ∧
    decodeWord 0x5C518008 = .ok (.fsqrt 5 6 .f64) ∧
    decodeWord 0x5C518018 = .ok (.fcvtFmtWidth 5 6 .f64) ∧
    decodeWord 0x5C51801A = .ok (.fcvtFmtL 5 6 .f64) ∧
    decodeWord 0x5C51801C = .ok (.fcvtLFmt 5 6 .f64) ∧
    decodeWord 0x5C518020 = .ok (.fgrd 5 6 .f64) ∧
    decodeWord 0x5C518022 = .ok (.fgset 5 6 .f64) ∧
    decodeWord 0x5C518024 = .ok (.fmvFmtG 5 6 .f64) := by
  refine ⟨rfl, rfl, rfl, rfl, rfl, rfl, rfl, rfl, rfl, rfl, rfl, rfl, rfl, rfl, rfl, rfl⟩

/-- The family fpr of Tables 3-3 to 3-19. -/
theorem test_decode_fpr_2 :
    decodeWord 0x5C518026 = .ok (.fmvGFmt 5 6 .f64) ∧
    decodeWord 0x60518720 = .ok (.fmadd 5 6 7 8 .f64) ∧
    decodeWord 0x60518721 = .ok (.fmadd 5 6 7 8 .f32) ∧
    decodeWord 0x60518722 = .ok (.fmsub 5 6 7 8 .f64) ∧
    decodeWord 0x60518723 = .ok (.fmsub 5 6 7 8 .f32) := by
  refine ⟨rfl, rfl, rfl, rfl, rfl⟩

/-- The family branch of Tables 3-3 to 3-19. -/
theorem test_decode_branch :
    decodeWord 0x6451BFFD = .ok (.beq 5 6 0x3FFD) ∧
    decodeWord 0x6851BFFD = .ok (.bne 5 6 0x3FFD) ∧
    decodeWord 0x6C51BFFD = .ok (.blt 5 6 0x3FFD) ∧
    decodeWord 0x7051BFFD = .ok (.bge 5 6 0x3FFD) ∧
    decodeWord 0x7451BFFD = .ok (.bltu 5 6 0x3FFD) ∧
    decodeWord 0x7851BFFD = .ok (.bgeu 5 6 0x3FFD) ∧
    decodeWord 0x7C500010 = .ok (.bmz 5 0x10) ∧
    decodeWord 0x7C504010 = .ok (.bmnz 5 0x10) ∧
    decodeWord 0x7C508010 = .ok (.bmall 5 0x10) ∧
    decodeWord 0x83FFFFFF = .ok (.jmp 0x3FFFFFF) ∧
    decodeWord 0x84000010 = .ok (.jal 0x10) ∧
    decodeWord 0x88518004 = .ok (.jr 5 6 4) := by
  refine ⟨rfl, rfl, rfl, rfl, rfl, rfl, rfl, rfl, rfl, rfl, rfl, rfl⟩

/-- The family vmove of Tables 3-3 to 3-19. -/
theorem test_decode_vmove :
    decodeWord 0x8C518700 = .ok (.vins 5 6 7) ∧
    decodeWord 0x8C518701 = .ok (.vext 5 6 7) ∧
    decodeWord 0x8C518702 = .ok (.vfins 5 6 7) ∧
    decodeWord 0x8C518703 = .ok (.vfext 5 6 7) := by
  refine ⟨rfl, rfl, rfl, rfl⟩

/-- The family vi of Tables 3-3 to 3-19. -/
theorem test_decode_vi_1 :
    decodeWord 0x928A6A00 = .ok (.vadd 40 41 (.vec 42) .b) ∧
    decodeWord 0x928A6A0A = .ok (.vsub 40 41 (.vec 42) .h) ∧
    decodeWord 0x928A6A14 = .ok (.vmul 40 41 (.vec 42) .w) ∧
    decodeWord 0x928A6A1E = .ok (.vmulh 40 41 (.vec 42) .l) ∧
    decodeWord 0x928A6A20 = .ok (.vmulhu 40 41 (.vec 42) .b) ∧
    decodeWord 0x928A6A2A = .ok (.vmin 40 41 (.vec 42) .h) ∧
    decodeWord 0x928A6A34 = .ok (.vmax 40 41 (.vec 42) .w) ∧
    decodeWord 0x928A6A3E = .ok (.vminu 40 41 (.vec 42) .l) ∧
    decodeWord 0x928A6A40 = .ok (.vmaxu 40 41 (.vec 42) .b) ∧
    decodeWord 0x928A6A4A = .ok (.vand 40 41 (.vec 42) .h) ∧
    decodeWord 0x928A6A54 = .ok (.vor 40 41 (.vec 42) .w) ∧
    decodeWord 0x928A6A5E = .ok (.vxor 40 41 (.vec 42) .l) ∧
    decodeWord 0x928A6A60 = .ok (.vsll 40 41 (.vec 42) .b) ∧
    decodeWord 0x928A6A6A = .ok (.vsrl 40 41 (.vec 42) .h) ∧
    decodeWord 0x928A6A74 = .ok (.vsra 40 41 (.vec 42) .w) ∧
    decodeWord 0x928A6A7E = .ok (.vsadd 40 41 (.vec 42) .l) := by
  refine ⟨rfl, rfl, rfl, rfl, rfl, rfl, rfl, rfl, rfl, rfl, rfl, rfl, rfl, rfl, rfl, rfl⟩

/-- The family vi of Tables 3-3 to 3-19. -/
theorem test_decode_vi_2 :
    decodeWord 0x928A6A80 = .ok (.vsaddu 40 41 (.vec 42) .b) ∧
    decodeWord 0x928A6A8A = .ok (.vssub 40 41 (.vec 42) .h) ∧
    decodeWord 0x928A6A94 = .ok (.vssubu 40 41 (.vec 42) .w) ∧
    decodeWord 0x9280079F = .ok (.vmv 40 (.sca 7) .l) ∧
    decodeWord 0x905A47A5 = .ok (.vseq 5 41 (.sca 7) .w) ∧
    decodeWord 0x905A47AD = .ok (.vsne 5 41 (.sca 7) .w) ∧
    decodeWord 0x905A47B5 = .ok (.vslt 5 41 (.sca 7) .w) ∧
    decodeWord 0x905A47BD = .ok (.vsltu 5 41 (.sca 7) .w) ∧
    decodeWord 0x905A47C5 = .ok (.vsle 5 41 (.sca 7) .w) ∧
    decodeWord 0x905A47CD = .ok (.vsleu 5 41 (.sca 7) .w) ∧
    decodeWord 0x968A6A2C = .ok (.vadc 40 41 42 11 .l) ∧
    decodeWord 0x968A6A2D = .ok (.vsbc 40 41 42 11 .l) ∧
    decodeWord 0x968A6A2E = .ok (.vadc 40 41 42 11 .w) ∧
    decodeWord 0x968A6A2F = .ok (.vsbc 40 41 42 11 .w) := by
  refine ⟨rfl, rfl, rfl, rfl, rfl, rfl, rfl, rfl, rfl, rfl, rfl, rfl, rfl, rfl⟩

/-- The family vf of Tables 3-3 to 3-19. -/
theorem test_decode_vf_1 :
    decodeWord 0x9A8A6A00 = .ok (.vfadd 40 41 (.vec 42) .f64) ∧
    decodeWord 0x9A8A6A0A = .ok (.vfsub 40 41 (.vec 42) .f32) ∧
    decodeWord 0x9A8A6A14 = .ok (.vfmul 40 41 (.vec 42) .bf16) ∧
    decodeWord 0x9A8A6A1E = .ok (.vfdiv 40 41 (.vec 42) .f16) ∧
    decodeWord 0x9A8A6A2A = .ok (.vfmin 40 41 (.vec 42) .f32) ∧
    decodeWord 0x9A8A6A34 = .ok (.vfmax 40 41 (.vec 42) .bf16) ∧
    decodeWord 0x9A8A6A3E = .ok (.vfmadd 40 41 (.vec 42) .f16) ∧
    decodeWord 0x9A8A6A40 = .ok (.vfmsub 40 41 (.vec 42) .f64) ∧
    decodeWord 0x9A8A6A4A = .ok (.vfnmadd 40 41 (.vec 42) .f32) ∧
    decodeWord 0x9A8A6A54 = .ok (.vfnmsub 40 41 (.vec 42) .bf16) ∧
    decodeWord 0x9A8A6A6A = .ok (.vfsgn 40 41 (.vec 42) .f32) ∧
    decodeWord 0x9A8A6A74 = .ok (.vfsgnn 40 41 (.vec 42) .bf16) ∧
    decodeWord 0x9A8A6A7E = .ok (.vfsgnx 40 41 (.vec 42) .f16) ∧
    decodeWord 0x9A8A4024 = .ok (.vfsqrt 40 41 .bf16) ∧
    decodeWord 0x9A8A405C = .ok (.vfabs 40 41 .bf16) ∧
    decodeWord 0x9A8A4064 = .ok (.vfneg 40 41 .bf16) := by
  refine ⟨rfl, rfl, rfl, rfl, rfl, rfl, rfl, rfl, rfl, rfl, rfl, rfl, rfl, rfl, rfl, rfl⟩

/-- The family vf of Tables 3-3 to 3-19. -/
theorem test_decode_vf_2 :
    decodeWord 0x9A8A4084 = .ok (.vfclass 40 41 .bf16) ∧
    decodeWord 0x985A4F8B = .ok (.vfeq 5 41 (.sca 15) .f32) ∧
    decodeWord 0x985A4F93 = .ok (.vfne 5 41 (.sca 15) .f32) ∧
    decodeWord 0x985A4F9B = .ok (.vflt 5 41 (.sca 15) .f32) ∧
    decodeWord 0x985A4FA3 = .ok (.vfle 5 41 (.sca 15) .f32) ∧
    decodeWord 0x985A4FAB = .ok (.vfun 5 41 (.sca 15) .f32) := by
  refine ⟨rfl, rfl, rfl, rfl, rfl, rfl⟩

/-- The family vg of Tables 3-3 to 3-19. -/
theorem test_decode_vg :
    decodeWord 0x9E8A4006 = .ok (.vgrd 40 41 .f16) ∧
    decodeWord 0x9E8A4008 = .ok (.vgwr 40 41 .f64) ∧
    decodeWord 0x9E818012 = .ok (.vgset 40 6 .f32) ∧
    decodeWord 0x9C5A471C = .ok (.vglt 5 41 7 .bf16) ∧
    decodeWord 0x9C5A4020 = .ok (.vgmin 5 41 .f64) ∧
    decodeWord 0x9E80002A = .ok (.vgfull 40 .f32) := by
  refine ⟨rfl, rfl, rfl, rfl, rfl, rfl⟩

/-- The family vmem of Tables 3-3 to 3-19. -/
theorem test_decode_vmem_1 :
    decodeWord 0xA2818000 = .ok (.vld 40 6 (.int .b)) ∧
    decodeWord 0xA2818009 = .ok (.vst 40 6 (.int .h)) ∧
    decodeWord 0xA2818012 = .ok (.vlds 40 6 (.int .w)) ∧
    decodeWord 0xA281801B = .ok (.vsts 40 6 (.int .l)) ∧
    decodeWord 0xA2818049 = .ok (.vldb 40 6 (.int .h)) ∧
    decodeWord 0xA281AA24 = .ok (.vldx 40 6 42 (.fp .f64)) ∧
    decodeWord 0xA281AA2D = .ok (.vstx 40 6 42 (.fp .f32)) ∧
    decodeWord 0xA281AA33 = .ok (.vstxa 40 6 42 (.int .l)) ∧
    decodeWord 0xA2802A3F = .ok (.vldLn 40 42 (.fp .f16)) ∧
    decodeWord 0xA2802A40 = .ok (.vstLn 40 42 (.int .b)) ∧
    decodeWord 0xA2818054 = .ok (.vldG 40 6 .f64) ∧
    decodeWord 0xA281805F = .ok (.vstG 40 6 .f16) ∧
    decodeWord 0xA2818764 = .ok (.sbind 40 6 7 (.fp .f64)) ∧
    decodeWord 0xA0000768 = .ok (.sfree 7) ∧
    decodeWord 0xA0018770 = .ok (.sskip 6 7) ∧
    decodeWord 0xA0500778 = .ok (.sstat 5 7) := by
  refine ⟨rfl, rfl, rfl, rfl, rfl, rfl, rfl, rfl, rfl, rfl, rfl, rfl, rfl, rfl, rfl, rfl⟩

/-- The family vmem of Tables 3-3 to 3-19. -/
theorem test_decode_vmem_2 :
    decodeWord 0xA0018080 = .ok (.vpre 6) := by
  rfl

/-- The family mask of Tables 3-3 to 3-19. -/
theorem test_decode_mask :
    decodeWord 0xA4518700 = .ok (.mand 5 6 7) ∧
    decodeWord 0xA4518701 = .ok (.mor 5 6 7) ∧
    decodeWord 0xA4518702 = .ok (.mxor 5 6 7) ∧
    decodeWord 0xA4518703 = .ok (.mandn 5 6 7) ∧
    decodeWord 0xA4518004 = .ok (.mnot 5 6) ∧
    decodeWord 0xA4518705 = .ok (.mshl 5 6 7) ∧
    decodeWord 0xA4518706 = .ok (.mshr 5 6 7) ∧
    decodeWord 0xA5F18007 = .ok (.mpop 31 6) ∧
    decodeWord 0xA5F18008 = .ok (.mfirst 31 6) ∧
    decodeWord 0xA4500009 = .ok (.mset 5) ∧
    decodeWord 0xA450000A = .ok (.mclr 5) ∧
    decodeWord 0xA45A400B = .ok (.mfrom 5 41) := by
  refine ⟨rfl, rfl, rfl, rfl, rfl, rfl, rfl, rfl, rfl, rfl, rfl, rfl⟩

/-- The family perm of Tables 3-3 to 3-19. -/
theorem test_decode_perm_1 :
    decodeWord 0xAA8A4701 = .ok (.vslup 40 41 7 (.int .h)) ∧
    decodeWord 0xAA8A470D = .ok (.vsldn 40 41 7 (.fp .f32)) ∧
    decodeWord 0xAA8A4013 = .ok (.vpack 40 41 (.int .l)) ∧
    decodeWord 0xAA8A401E = .ok (.vunpk 40 41 (.fp .bf16)) ∧
    decodeWord 0xAA8A6A27 = .ok (.vperm 40 41 42 (.fp .f16)) ∧
    decodeWord 0xAA8A402A = .ok (.vconfl 40 41 .w) ∧
    decodeWord 0xA9FA4033 = .ok (.vrsum (.int .l 31) 41) ∧
    decodeWord 0xA8FA4034 = .ok (.vrsum (.fp .f64 15) 41) ∧
    decodeWord 0xA8FA403D = .ok (.vrosum 15 41 .f32) ∧
    decodeWord 0xA9FA4040 = .ok (.vrmin (.int .b 31) 41) ∧
    decodeWord 0xA8FA404E = .ok (.vrmax (.fp .bf16 15) 41) ∧
    decodeWord 0xA9FA4053 = .ok (.vrand 31 41 .l) ∧
    decodeWord 0xA9FA405B = .ok (.vrior 31 41 .l) ∧
    decodeWord 0xA9FA4063 = .ok (.vrosat 31 41 .l) ∧
    decodeWord 0xAA8A406C = .ok (.vscan 40 41 (.fp .f64)) ∧
    decodeWord 0xAA8A6A74 = .ok (.vlrec 40 41 42 .f64) := by
  refine ⟨rfl, rfl, rfl, rfl, rfl, rfl, rfl, rfl, rfl, rfl, rfl, rfl, rfl, rfl, rfl, rfl⟩

/-- The family perm of Tables 3-3 to 3-19. -/
theorem test_decode_perm_2 :
    decodeWord 0xAA8A6A7B = .ok (.vsel 40 41 42 (.int .l)) := by
  rfl

/-- The family cvt of Tables 3-3 to 3-19. -/
theorem test_decode_cvt :
    decodeWord 0xAE8A49A9 = .ok (.vcvt 40 41 .f32 .bf16 .stoch true) ∧
    decodeWord 0xAE8A4780 = .ok (.vcvt 40 41 .u64 .f64 .rne false) ∧
    decodeWord 0xAE8A49EA = .ok (.vquant 40 41 .f32 .dyn) ∧
    decodeWord 0xAE8A4EA3 = .ok (.vdequant 40 41 .bf16 .rtz true) := by
  refine ⟨rfl, rfl, rfl, rfl⟩

/-- The family mx of Tables 3-3 to 3-19. -/
theorem test_decode_mx :
    decodeWord 0xB0018708 = .ok (.mxLdw 6 7 .sb4) ∧
    decodeWord 0xB001AA16 = .ok (.mxLdwg 6 42 .int8) ∧
    decodeWord 0xB0000020 = .ok (.mxSwap) ∧
    decodeWord 0xB03A4738 = .ok (.mxStep 3 41 7 .sb4) ∧
    decodeWord 0xB03A4748 = .ok (.mxStepz 3 41 7 .sb4) ∧
    decodeWord 0xB03A4758 = .ok (.mxSteps 3 41 7 .sb4) ∧
    decodeWord 0xB03A403C = .ok (.mxStep 3 41 0 .fp64) ∧
    decodeWord 0xB0300060 = .ok (.mxZero 3) ∧
    decodeWord 0xB280C770 = .ok (.mxRd 40 3 7) ∧
    decodeWord 0xB03A4780 = .ok (.mxWr 3 41 7) ∧
    decodeWord 0xB0318790 = .ok (.mxSt 3 6 7) ∧
    decodeWord 0xB00180A0 = .ok (.mxCfg 6) ∧
    decodeWord 0xB03180B0 = .ok (.mxSkip 3 6) ∧
    decodeWord 0xB00180C0 = .ok (.mxGrant 6) ∧
    decodeWord 0xB00000D0 = .ok (.mxRet) := by
  refine ⟨rfl, rfl, rfl, rfl, rfl, rfl, rfl, rfl, rfl, rfl, rfl, rfl, rfl, rfl, rfl⟩

/-- The family amo of Tables 3-3 to 3-19. -/
theorem test_decode_amo :
    decodeWord 0xB451870F = .ok (.amoAddW 5 6 7 15) ∧
    decodeWord 0xB451871F = .ok (.amoAddL 5 6 7 15) ∧
    decodeWord 0xB451872F = .ok (.amoMinL 5 6 7 15) ∧
    decodeWord 0xB451873F = .ok (.amoMaxL 5 6 7 15) ∧
    decodeWord 0xB451874F = .ok (.amoMinuL 5 6 7 15) ∧
    decodeWord 0xB451875F = .ok (.amoMaxuL 5 6 7 15) ∧
    decodeWord 0xB451876F = .ok (.amoAndL 5 6 7 15) ∧
    decodeWord 0xB451877F = .ok (.amoOrL 5 6 7 15) ∧
    decodeWord 0xB451878F = .ok (.amoXorL 5 6 7 15) ∧
    decodeWord 0xB451879F = .ok (.amoSwapW 5 6 7 15) ∧
    decodeWord 0xB45187AF = .ok (.amoSwapL 5 6 7 15) ∧
    decodeWord 0xB45187BF = .ok (.amoCasW 5 6 7 15) ∧
    decodeWord 0xB45187CF = .ok (.amoCasL 5 6 7 15) ∧
    decodeWord 0xB45187DF = .ok (.amoFaddF32 5 6 7 15) ∧
    decodeWord 0xB45187EF = .ok (.amoFaddF64 5 6 7 15) := by
  refine ⟨rfl, rfl, rfl, rfl, rfl, rfl, rfl, rfl, rfl, rfl, rfl, rfl, rfl, rfl, rfl⟩

/-- The family vamo of Tables 3-3 to 3-19. -/
theorem test_decode_vamo :
    decodeWord 0xBA81AA01 = .ok (.vamoAddW 40 6 42 1) ∧
    decodeWord 0xBA81AA11 = .ok (.vamoAddL 40 6 42 1) ∧
    decodeWord 0xBA81AA21 = .ok (.vamoMinL 40 6 42 1) ∧
    decodeWord 0xBA81AA31 = .ok (.vamoMaxL 40 6 42 1) ∧
    decodeWord 0xBA81AA41 = .ok (.vamoMinuL 40 6 42 1) ∧
    decodeWord 0xBA81AA51 = .ok (.vamoMaxuL 40 6 42 1) ∧
    decodeWord 0xBA81AA61 = .ok (.vamoAndL 40 6 42 1) ∧
    decodeWord 0xBA81AA71 = .ok (.vamoOrL 40 6 42 1) ∧
    decodeWord 0xBA81AA81 = .ok (.vamoXorL 40 6 42 1) ∧
    decodeWord 0xBA81AA91 = .ok (.vamoSwapW 40 6 42 1) ∧
    decodeWord 0xBA81AAA1 = .ok (.vamoSwapL 40 6 42 1) ∧
    decodeWord 0xBA81AAD1 = .ok (.vamoFaddF32 40 6 42 1) ∧
    decodeWord 0xBA81AAE1 = .ok (.vamoFaddF64 40 6 42 1) := by
  refine ⟨rfl, rfl, rfl, rfl, rfl, rfl, rfl, rfl, rfl, rfl, rfl, rfl, rfl⟩

/-- The family ord of Tables 3-3 to 3-19. -/
theorem test_decode_ord :
    decodeWord 0xBC000003 = .ok (.fence 3) ∧
    decodeWord 0xBC000103 = .ok (.fenceAcq 3) ∧
    decodeWord 0xBC000203 = .ok (.fenceRel 3) ∧
    decodeWord 0xBC518013 = .ok (.ldAcqW 5 6 3) ∧
    decodeWord 0xBC518023 = .ok (.ldAcqL 5 6 3) ∧
    decodeWord 0xBC518033 = .ok (.stRelW 5 6 3) ∧
    decodeWord 0xBC518043 = .ok (.stRelL 5 6 3) ∧
    decodeWord 0xBE818053 = .ok (.vldAcqL 40 6 3) ∧
    decodeWord 0xBE818063 = .ok (.vldAcqF64 40 6 3) ∧
    decodeWord 0xBE818073 = .ok (.vstRelL 40 6 3) ∧
    decodeWord 0xBE818083 = .ok (.vstRelF64 40 6 3) ∧
    decodeWord 0xBC000090 = .ok (.tlAcq) ∧
    decodeWord 0xBC0000A0 = .ok (.vsync) := by
  refine ⟨rfl, rfl, rfl, rfl, rfl, rfl, rfl, rfl, rfl, rfl, rfl, rfl, rfl⟩

/-- The family sync of Tables 3-3 to 3-19. -/
theorem test_decode_sync :
    decodeWord 0xC0500003 = .ok (.bar 5 3) ∧
    decodeWord 0xC0518710 = .ok (.claim 5 6 7) ∧
    decodeWord 0xC0000120 = .ok (.vsplit .two) ∧
    decodeWord 0xC0000220 = .ok (.vsplit .four) ∧
    decodeWord 0xC0000030 = .ok (.vmerge) ∧
    decodeWord 0xC0000040 = .ok (.swait) ∧
    decodeWord 0xC0018050 = .ok (.swake 6) ∧
    decodeWord 0xC0518063 = .ok (.hq 5 6 3) ∧
    decodeWord 0xC0000070 = .ok (.sdone) ∧
    decodeWord 0xC0000080 = .ok (.syield) ∧
    decodeWord 0xC0002090 = .ok (.rplCap 32) ∧
    decodeWord 0xC00180A0 = .ok (.rplRun 6) := by
  refine ⟨rfl, rfl, rfl, rfl, rfl, rfl, rfl, rfl, rfl, rfl, rfl, rfl⟩

/-- The family eng of Tables 3-3 to 3-19. -/
theorem test_decode_eng :
    decodeWord 0xC4018007 = .ok (.engPush 6 7) ∧
    decodeWord 0xC4519006 = .ok (.engPop 5 6 6) ∧
    decodeWord 0xC4502005 = .ok (.engPoll 5 5) ∧
    decodeWord 0xC4003004 = .ok (.engDrain 4) := by
  refine ⟨rfl, rfl, rfl, rfl⟩

/-- The family coll of Tables 3-3 to 3-19. -/
theorem test_decode_coll :
    decodeWord 0xCA8A7812 = .ok (.colRed 40 41 7 .sum (.fp .f64) true) ∧
    decodeWord 0xCA8A79AC = .ok (.colAred 40 41 7 .xor (.int .l) false) ∧
    decodeWord 0xCA8A7214 = .ok (.colGat 40 41 6 (.fp .f32)) ∧
    decodeWord 0xCA8A7314 = .ok (.colAgat 40 41 6 (.fp .f32)) ∧
    decodeWord 0xCA8A7414 = .ok (.colSct 40 41 6 (.fp .f32)) ∧
    decodeWord 0xCA8A7514 = .ok (.colA2a 40 41 6 (.fp .f32)) ∧
    decodeWord 0xC8518E00 = .ok (.grpJoin 5 6 1) ∧
    decodeWord 0xC8500E20 = .ok (.grpLeave 5 1) ∧
    decodeWord 0xC8518E40 = .ok (.grpInfo 5 6 1) ∧
    decodeWord 0xC8518E60 = .ok (.grpLoad 5 6 1) := by
  refine ⟨rfl, rfl, rfl, rfl, rfl, rfl, rfl, rfl, rfl, rfl⟩

/-- The family sys of Tables 3-3 to 3-19. -/
theorem test_decode_sys :
    decodeWord 0xE0000000 = .ok (.sys) ∧
    decodeWord 0xE0018001 = .ok (.trap 6) ∧
    decodeWord 0xE0000002 = .ok (.tret) ∧
    decodeWord 0xE0000003 = .ok (.brk) ∧
    decodeWord 0xE0000004 = .ok (.wait) ∧
    decodeWord 0xE0518005 = .ok (.drd 5 6) ∧
    decodeWord 0xE0018006 = .ok (.svc 6) ∧
    decodeWord 0xE0018007 = .ok (.logApp 6) := by
  refine ⟨rfl, rfl, rfl, rfl, rfl, rfl, rfl, rfl⟩

/-- The family reg of Tables 3-3 to 3-19. -/
theorem test_decode_reg :
    decodeWord 0xCC50000A = .ok (.crd 5 .mxo) ∧
    decodeWord 0xCDF00008 = .ok (.crd 31 .srs) ∧
    decodeWord 0xD0018005 = .ok (.cwr 6 .fcr) ∧
    decodeWord 0xD4500011 = .ok (.srd 5 (.diecfg 1)) ∧
    decodeWord 0xD4500015 = .ok (.srd 5 .duty) ∧
    decodeWord 0xD8018007 = .ok (.swr 6 .tres) ∧
    decodeWord 0xDC500040 = .ok (.cntRd 5 .reql 0) ∧
    decodeWord 0xDC600082 = .ok (.cntRd 6 .reqr 2) ∧
    decodeWord 0xDC700189 = .ok (.cntRd 7 .bconf 9) := by
  refine ⟨rfl, rfl, rfl, rfl, rfl, rfl, rfl, rfl, rfl⟩

/-! ### Small states -/

/-- The program of `withProgram`: one strand in mode P at 0x10000, its page of memory readable, writable and executable, no trap handler. -/
def base : State := State.reset.withProgram
/-- A change of the strand whose turn it is. -/
def on (s : State) (f : Strand → Strand) : State := { s with st := f s.st }
/-- The same with a trap handler at 0x10800. -/
def hand : State := on base fun t => { t with trap := { t.trap with tvec := 0x10800 } }
/-- The same in mode S. -/
def sys : State := on hand fun t => { t with mode := .s }
/-- Integer registers set. -/
def g (s : State) (l : List (GReg × Word)) : State := l.foldl (fun s x => s.setG x.1 x.2) s
/-- Vector length set. -/
def vl (s : State) (n : Nat) : State := on s fun t => { t with ctl := { t.ctl with vl := n } }
/-- A second strand, number 1, with its scheduling given. -/
def two (s : State) (f : Sched → Sched) : State :=
  { s with others := [(1, { Strand.create 1 0 0 0x10000 0 with sched := f { Sched.init with lid := 1 } })] }
/-- The next state. -/
def after (o : Out) : State := match o with | .next t => t | _ => State.reset
/-- What the outcome is tested for. -/
def nextIs (o : Out) (p : State → Bool) : Bool := match o with | .next t => p t | _ => false

theorem nextIs_spec {o : Out} {p : State → Bool} (h : nextIs o p = true) : ∃ t, o = .next t ∧ p t = true := by
  cases o with
  | next t => exact ⟨t, rfl, h⟩
  | _ => cases h

/-- A computation that answers. -/
def answers {α : Type} (m : M α) (s : State) (p : α → State → Bool) : Bool := match m s with | .ok a u => p a u | .error .. => false
theorem answers_spec {α : Type} {m : M α} {s : State} {p : α → State → Bool} (h : answers m s p = true) :
    ∃ a u, m s = .ok a u ∧ p a u = true := by
  unfold answers at h
  split at h
  · exact ⟨_, _, ‹_›, h⟩
  · cases h
/-- One that traps. -/
def stops {α : Type} (m : M α) (s : State) (p : Trap → State → Bool) : Bool :=
  match m s with | .error (.trap q) u => p q u | _ => false
theorem stops_spec {α : Type} {m : M α} {s : State} {p : Trap → State → Bool} (h : stops m s p = true) :
    ∃ q u, m s = .error (.trap q) u ∧ p q u = true := by
  unfold stops at h
  split at h
  · exact ⟨_, _, ‹_›, h⟩
  · cases h
/-- One that waits. -/
def pauses {α : Type} (m : M α) (s : State) : Bool := match m s with | .error (.wait _) _ => true | _ => false
theorem pauses_spec {α : Type} {m : M α} {s : State} (h : pauses m s = true) : ∃ r u, m s = .error (.wait r) u := by
  unfold pauses at h
  split at h
  · exact ⟨_, _, ‹_›⟩
  · cases h
theorem some_spec {α : Type} {o : Option α} {p : α → Bool} (h : o.any p = true) : ∃ a, o = some a ∧ p a = true := by
  cases o with
  | some a => exact ⟨a, rfl, h⟩
  | none => cases h

theorem regsFree_nil {s : State} (h : s.st.vq = []) (gs : List GReg) (fs : List FReg) : Claim.regsFree s gs fs := by
  intro e he
  rw [h] at he
  cases he
theorem maskFree_nil {s : State} (h : s.st.vq = []) (m : Option MReg) : Claim.maskFree s m := by
  intro r _ e he
  rw [h] at he
  cases he
theorem bytesFree_nil {s : State} (h : s.st.vq = []) (va n : Nat) : Claim.bytesFree s va n := by
  intro e he
  rw [h] at he
  cases he
theorem notBound_none {s : State} (h : ∀ i : Fin 8, s.st.k[i] = none) (rs : List VReg) : Claim.notBound s rs := by
  intro r _ i k hk
  rw [h i] at hk
  cases hk
/-- The launch of the program, and its instance. -/
def ln : Launch := base.launches.head (by decide)
def inst0 : Inst := ln.insts.head (by decide)
/-- An invalidation log without room. -/
def full : State := { sys with dies := sys.dies.set 0 { sys.dies[0] with log := List.replicate 4096 (0, 0), tail := 4096 } }
/-- A vector-queue entry. -/
def entry0 : VEntry := Claim.entryOf base 0 0 0

def readableB (u : State) (fp : Bool) (p : Part) : Bool :=
  match p.loc with
  | .mem key _ sc => u.lineOk key p.len && (match sc with
      | some k => !fp || (u.lineOk k 2 && !(u.dies[coreDie (homeDie k * 128)]).cut && !u.linkDown u.myDie (homeDie k))
      | none => true)
  | .dev .. => true
  | .remote .. => false
theorem readableB_spec {u : State} {fp : Bool} {p : Part} (h : readableB u fp p = true) : Claim.readable u fp p := by
  unfold readableB at h
  unfold Claim.readable
  split at h <;> simp_all
  intro k hf hk
  simp_all
def writableB (u : State) (side : Nat → Nat → Nat → Nat × Nat × Nat) (p : Part) : Bool :=
  match p.loc with
  | .mem key _ sc => u.lineOk key p.len && (match sc with | some k => u.lineOk (side key p.len k).1 (side key p.len k).2.1 | none => true)
  | .dev .. => true
  | .remote .. => false
theorem writableB_spec {u : State} {side : Nat → Nat → Nat → Nat × Nat × Nat} {p : Part} (h : writableB u side p = true) :
    Claim.writable u side p := by
  unfold writableB at h
  unfold Claim.writable
  split at h <;> simp_all
  intro k hk
  simp_all
/-- Nothing is begun, and no part is of an SO or DV page. -/
def freshB (s : State) (ps : List Part) : Bool := s.st.begun.isEmpty && ps.all fun p => decide (p.loc.kind < 2)
theorem freshB_spec {s : State} {ps : List Part} (h : freshB s ps = true) : Claim.unbegun s ps := by
  unfold freshB at h
  simp only [Bool.and_eq_true, List.isEmpty_iff, List.all_eq_true, decide_eq_true_eq] at h
  exact ⟨h.1, .inl h.2⟩
theorem loads {acc : Acc} {r : AlignRule} {va n e : Nat} {s z : State} {fp : Bool}
    (h : answers (placeM acc r va n e) s (fun ps u => ps.all (readableB u (fp && ps.length == 1)) && freshB z ps) = true) :
    ∃ ps u, placeM acc r va n e s = .ok ps u ∧ Claim.unbegun z ps ∧ ∀ p ∈ ps, Claim.readable u (fp && ps.length == 1) p := by
  obtain ⟨ps, u, h1, h2⟩ := answers_spec h
  obtain ⟨h2, h3⟩ := Bool.and_eq_true_iff.mp h2
  exact ⟨ps, u, h1, freshB_spec h3, fun p hp => readableB_spec (List.all_eq_true.mp h2 p hp)⟩
theorem stores {acc : Acc} {r : AlignRule} {va n e : Nat} {s z : State} {side : Nat → Nat → Nat → Nat × Nat × Nat}
    (h : answers (placeM acc r va n e) s (fun ps u => ps.all (writableB u side) && freshB z ps) = true) :
    ∃ ps u, placeM acc r va n e s = .ok ps u ∧ Claim.unbegun z ps ∧ ∀ p ∈ ps, Claim.writable u side p := by
  obtain ⟨ps, u, h1, h2⟩ := answers_spec h
  obtain ⟨h2, h3⟩ := Bool.and_eq_true_iff.mp h2
  exact ⟨ps, u, h1, freshB_spec h3, fun p hp => writableB_spec (List.all_eq_true.mp h2 p hp)⟩
theorem runs {i : Instr} {s : State} (h : isNext (exec i s) = true) : ∃ t, exec i s = .next t := by
  unfold isNext at h
  split at h
  · exact ⟨_, ‹_›⟩
  · cases h

/-! ### Each statement's hypotheses can be met -/

theorem witness_IntegerInstructions :
    (∃ o, Claim.intOp base (.add 3 1 2) = some o ∧ Claim.regsFree base o.regs []) ∧
    (∃ o, Claim.intOp base (.div 0 1 2) = some o ∧ Claim.regsFree base o.regs []) ∧
    ∃ o t, Claim.intOp base (.adpc 31 0xFFFFF) = some o ∧ exec (.adpc 31 0xFFFFF) base = .next t := by
  refine ⟨⟨_, rfl, regsFree_nil (by decide +kernel) _ _⟩, ⟨_, rfl, regsFree_nil (by decide +kernel) _ _⟩, ?_⟩
  obtain ⟨t, h⟩ := runs (i := .adpc 31 0xFFFFF) (s := base) (by decide +kernel)
  exact ⟨_, t, rfl, h⟩
theorem witness_BranchTargets :
    (∃ j, Claim.jump base (.beq 1 2 0x3FFF) = some j ∧ Claim.regsFree base j.regs [] ∧ Claim.maskFree base j.mask) ∧
    (∃ j, Claim.jump base (.bmall 11 4) = some j ∧ Claim.regsFree base j.regs [] ∧ Claim.maskFree base j.mask) ∧
    ∃ j, Claim.jump base (.jr 31 31 3) = some j ∧ Claim.regsFree base j.regs [] ∧ Claim.maskFree base j.mask := by
  refine ⟨⟨_, rfl, ?_, ?_⟩, ⟨_, rfl, ?_, ?_⟩, ⟨_, rfl, ?_, ?_⟩⟩ <;>
    first | exact regsFree_nil (by decide +kernel) _ _ | exact maskFree_nil (by decide +kernel) _
theorem witness_MemoryAccess :
    (∃ ps t, placeM .load (.plain false) 0x10004 8 0 base = .ok ps t ∧ (ps.length == 2) = true) ∧
    (∃ q t, placeM .load (.plain false) 0x1FFFF 2 0 base = .error (.trap q) t ∧ (q.code == 3) = true) ∧
    (0x7FFFFFEFFFFFFF < 0x7FFFFFF0000000 ∧ 0x7FFFFFF0000000 < 0x7FFFFFEFFFFFFF + 2 ∧ 0x7FFFFFEFFFFFFF + 2 ≤ 0x80000000000000) ∧
    (0x7FFFFFFFFFFFFF < 0x80000000000000 ∧ 0x80000000000000 < 0x7FFFFFFFFFFFFF + 2) ∧
    (0x7FFFFFFFFFFFFD % 4 ≠ 0 ∧ 0x80000000000000 < 0x7FFFFFFFFFFFFD + 4) ∧
    ∃ q t, placeM .rmw (.natural false) 0x10001 4 0 base = .error (.trap q) t ∧ (q.code == 4 && q.val == 0x10001) = true :=
  ⟨answers_spec (by decide +kernel), stops_spec (by decide +kernel), by decide, by decide, by decide, stops_spec (by decide +kernel)⟩
theorem witness_ScalarLoads :
    let s := g base [(1, 0x10004)]
    s.st.issue = none ∧
    (∃ o t, Claim.load s (.ldW 3 1 0x3FFF) = some o ∧ Claim.regsFree s o.gs o.fs ∧ Claim.bytesFree s o.va o.len ∧
      (∃ ps u, placeM .load (.plain o.fp) o.va o.len 0 s.resuming = .ok ps u ∧ Claim.unbegun s ps ∧
        ∀ p ∈ ps, Claim.readable u (o.fp && ps.length == 1) p) ∧ exec (.ldW 3 1 0x3FFF) s = .next t) ∧
    ∃ o t, Claim.load s (.fld .f32 3 1 4) = some o ∧ Claim.regsFree s o.gs o.fs ∧ Claim.bytesFree s o.va o.len ∧
      (∃ ps u, placeM .load (.plain o.fp) o.va o.len 0 s.resuming = .ok ps u ∧ Claim.unbegun s ps ∧
        ∀ p ∈ ps, Claim.readable u (o.fp && ps.length == 1) p) ∧ exec (.fld .f32 3 1 4) s = .next t := by
  intro s
  obtain ⟨t, ht⟩ := runs (i := .ldW 3 1 0x3FFF) (s := s) (by decide +kernel)
  obtain ⟨v, hv⟩ := runs (i := .fld .f32 3 1 4) (s := s) (by decide +kernel)
  exact ⟨by decide +kernel,
    ⟨_, t, rfl, regsFree_nil (by decide +kernel) _ _, bytesFree_nil (by decide +kernel) _ _, loads (by decide +kernel), ht⟩,
    ⟨_, v, rfl, regsFree_nil (by decide +kernel) _ _, bytesFree_nil (by decide +kernel) _ _, loads (by decide +kernel), hv⟩⟩
theorem witness_ScalarStores :
    let s := g base [(1, 0x10004), (2, 0xFF80)]
    s.st.issue = none ∧
    (∃ o t, Claim.store s (.stH 2 1 3) = some o ∧ Claim.regsFree s o.gs o.fs ∧ Claim.bytesFree s o.va o.len ∧
      (∃ ps u, placeM .store (.plain o.fp) o.va o.len 0 s.resuming = .ok ps u ∧ Claim.unbegun s ps ∧ ∀ p ∈ ps, Claim.writable u o.side p) ∧
      s.memWf = true ∧ exec (.stH 2 1 3) s = .next t) ∧
    ∃ o, Claim.store s (.fst .f64 2 1 4) = some o ∧ Claim.regsFree s o.gs o.fs ∧ Claim.bytesFree s o.va o.len ∧
      ∃ ps u, placeM .store (.plain o.fp) o.va o.len 0 s.resuming = .ok ps u ∧ Claim.unbegun s ps ∧ ∀ p ∈ ps, Claim.writable u o.side p := by
  intro s
  obtain ⟨t, ht⟩ := runs (i := .stH 2 1 3) (s := s) (by decide +kernel)
  exact ⟨by decide +kernel,
    ⟨_, t, rfl, regsFree_nil (by decide +kernel) _ _, bytesFree_nil (by decide +kernel) _ _, stores (by decide +kernel), by decide +kernel, ht⟩,
    ⟨_, rfl, regsFree_nil (by decide +kernel) _ _, bytesFree_nil (by decide +kernel) _ _, stores (by decide +kernel)⟩⟩
theorem witness_ScalarFp :
    let s := on base fun t => { t with ctl := { t.ctl with fcr := 0x20, gth := 1 } }
    (∃ o, Claim.fp s (.fadd 3 1 2 .f64) = some o ∧ Claim.regsFree s o.gs o.fs ∧ Claim.fpTrap s o = none) ∧
    ∃ o c v, Claim.fp s (.fcvtLFmt 3 1 .f32) = some o ∧ Claim.fpTrap s o = none ∧
      Claim.fp s (.fdiv 3 1 2 .f64) = some c ∧ Claim.regsFree s c.gs c.fs ∧ Claim.settled s ∧ Claim.fpTrap s c = some (6, v) := by
  intro s
  exact ⟨⟨_, rfl, regsFree_nil (by decide +kernel) _ _, by decide +kernel⟩, _, _, 0, rfl, by decide +kernel, rfl,
    regsFree_nil (by decide +kernel) _ _, ⟨by decide +kernel, by decide +kernel⟩, by decide +kernel⟩
theorem witness_RoundingNearest : (∀ r, Rm.rne ≠ .stoch r) ∧ (∀ r, Rm.rup ≠ .stoch r) ∧ (∀ r, Rm.rdn ≠ .stoch r) ∧ ∀ r, Rm.rtz ≠ .stoch r := by
  refine ⟨?_, ?_, ?_, ?_⟩ <;> intro r h <;> cases h
theorem witness_TrapEntry :
    Claim.raises hand .sys = some (16, 0, 0x10004) ∧ Claim.raises hand (.illegalInstruction 0) = some (1, 0, 0x10000) ∧ Claim.catches hand ∧
    Claim.settled hand ∧ hand.st.issue = none ∧ hand.st.rpl.going = false ∧ hand.st.vq = [] := by
  unfold Claim.catches Claim.settled
  decide +kernel
theorem witness_TrapWithoutHandler :
    Claim.raises base .brk = some (15, 0, 0x10000) ∧ ¬ Claim.catches base ∧ Claim.settled base ∧ Claim.bound base ln inst0 ∧
    base.st.issue = none ∧ base.st.vq = [] := by
  unfold Claim.catches Claim.settled Claim.bound
  decide +kernel
theorem witness_TrapReturn :
    let s := on sys fun t => { t with trap := { t.trap with inHandler := true } }
    s.st.mode = .s ∧ s.st.trap.inHandler = true ∧ Claim.settled s ∧ s.st.vq = [] ∧ (on s fun t => { t with vq := [entry0] }).st.vq ≠ [] := by
  unfold Claim.settled
  decide +kernel
theorem witness_ModeChangesByTrapOnly :
    Instr.isWord .sys = true ∧ Instr.sys ≠ .tret ∧ Claim.alone hand ∧
    ∃ t, exec .sys hand = .next t ∧ (t.st.sn == hand.st.sn && t.st.mode != hand.st.mode) = true := by
  refine ⟨by decide +kernel, by decide +kernel, ?_, nextIs_spec (by decide +kernel)⟩
  intro p hp
  cases hp
theorem witness_RegisterAccess :
    Claim.regsFree sys [3] [] ∧ sys.st.vq = [] ∧ sys.st.mode = .s ∧ (sys.g 3).toNat ≤ 128 ∧ 128 < ((g hand [(3, 129)]).g 3).toNat ∧
    Claim.catches hand ∧ Claim.settled hand ∧ Claim.countable base .cyc 3 ∧ Claim.countable base .bmiss 31 ∧ (31 < Claim.instances .bmiss) ∧
    ((g base [(3, 0xFF)]).g 3).toNat / 2 ^ 8 = 0 ∧
    (∃ t, sys.strandOfMid 0 = some t ∧ (t.live && t.partn == sys.st.partn) = true) ∧ 2 ^ 63 / 2 ^ 58 = 32 ∧ (2 ^ 8 : Nat) / 2 ^ 8 % 2 ^ 24 ≠ 0 := by
  refine ⟨regsFree_nil (by decide +kernel) _ _, by decide +kernel, by decide +kernel, by decide +kernel, by decide +kernel, ?_, ?_, ⟨0, by decide, by decide +kernel, by unfold Claim.sectionOn; decide +kernel⟩, ?_,
    by decide +kernel, by decide +kernel, some_spec (by decide +kernel), by decide, by decide⟩
  · unfold Claim.catches
    decide +kernel
  · unfold Claim.settled
    decide +kernel
  · exact (by unfold Claim.sectionOn; decide +kernel : partSect (base.part base.st.partn) 31 = true ∧ Claim.sectionOn base 31)
theorem witness_SystemInstructions :
    (sys.st.mode = .s ∧ sys.st.vq = [] ∧ Claim.settled sys ∧ Claim.bound sys ln inst0) ∧ Claim.catches sys ∧ Claim.regsFree sys [3] [] ∧
    (∃ t, sys.strandOfMid 0 = some t ∧ (t.live && t.partn == sys.st.partn) = true) ∧ sys.strandOfMid 1 = none ∧
    (let s := { g sys [(3, 0x10100)] with mem := Memory.writeN sys.mem 0x40100 8 0x100F2 };
      Claim.bytesFree s 0x10100 16 ∧ (∃ ps u, placeM .load (.plain false) 0x10100 16 0 s = .ok ps u ∧
        (ps.all (readableB u false) && (ps.map fun p => Claim.partBytes u p * 2 ^ (8 * p.at_)).sum == 0x100F2) = true) ∧
      Claim.recordFields (Claim.wrap 0x100F2, 0) ∧ partOwns (s.part s.st.partn) 0 = true ∧ ∀ d : Fin 4, (s.dies[d]).log.length < 4096) ∧
    ∃ d : Fin 4, 4096 ≤ (full.dies[d]).log.length := by
  refine ⟨?_, ?_, regsFree_nil (by decide +kernel) _ _, some_spec (by decide +kernel), by decide +kernel, ⟨bytesFree_nil (by decide +kernel) _ _,
    answers_spec (by decide +kernel), ?_, by decide +kernel, by decide +kernel⟩, ⟨0, by decide +kernel⟩⟩
  · unfold Claim.settled Claim.bound
    decide +kernel
  · unfold Claim.catches
    decide +kernel
  · unfold Claim.recordFields
    decide +kernel
theorem ready (s : State) (h : (s.st.early = none ∧ s.commitOnly = false ∧ s.myCore.dividing = false ∧ s.st.issue = none ∧ s.st.vq = [] ∧ (s.st.ctl.vms.toNat < 12 ∨ s.st.ctl.vms = 15) ∧ s.st.rpl.going = false ∧
    s.st.rpl.left = 0 ∧ s.st.lines = [] ∧ s.st.remote = [] ∧ s.st.begun = [] ∧ s.st.trains = [] ∧ s.st.pend.length < 32)) : Claim.vecReady s := h

theorem witness_FpVectors :
    ∃ o, Claim.fpVec (vl base 2) (.vfdiv 40 1 (.sca 2) .bf16) = some o ∧ Claim.vecReady (vl base 2) ∧ Claim.notBound (vl base 2) o.regs ∧
      ∀ e ∈ Claim.todo (vl base 2), Claim.vecTrap (vl base 2) o (Claim.below (vl base 2) o e) e = none :=
  ⟨_, rfl, ready _ (by decide +kernel), notBound_none (by decide +kernel) _, by decide +kernel⟩
theorem witness_IntegerVectors :
    (∃ o, Claim.intVec base (.vadc 40 1 2 11 .w) = some o ∧ Claim.vecReady base ∧ Claim.notBound base o.regs) ∧
    ∃ o, Claim.moveVec base (.vsel 40 1 2 (.int .b)) = some o ∧ Claim.notBound base o.regs :=
  ⟨⟨_, rfl, ready _ (by decide +kernel), notBound_none (by decide +kernel) _⟩, _, rfl, notBound_none (by decide +kernel) _⟩
theorem witness_ConversionVectors :
    let s := vl base 2
    let o := Claim.cvtVec s 40 1 .f32 .bf16 .stoch true
    Claim.vecReady s ∧ Claim.notBound s [40, 1] ∧ (Instr.vcvt 40 1 .f32 .bf16 .stoch true).wf = true ∧
      ∀ e ∈ Claim.todo s, Claim.vecTrap s o (Claim.below s o e) e = none :=
  ⟨ready _ (by decide +kernel), notBound_none (by decide +kernel) _, by decide +kernel, by decide +kernel⟩
/-- FPX enabled for NV, and a signalling NaN in element 1 of v1. -/
def snan : State := (on (vl hand 2) fun t => { t with ctl := { t.ctl with fcr := 0x10 } }).setV 1 1 ⟨0x7FF0000000000001, 53⟩
theorem witness_ElementTraps :
    (Instr.vfadd 40 1 (.vec 1) .f64).wf = true ∧ ∃ o, Claim.elementWise snan (.vfadd 40 1 (.vec 1) .f64) = some o ∧ Claim.vecReady snan ∧
      Claim.notBound snan o.regs ∧ 1 ∈ Claim.todo snan ∧
      (∀ j ∈ Claim.todo snan, j < 1 → Claim.vecTrap snan o (Claim.below snan o j) j = none) ∧
      Claim.vecTrap snan o (Claim.below snan o 1) 1 = some (7, 0x21) :=
  ⟨by decide +kernel, _, rfl, ready _ (by decide +kernel), notBound_none (by decide +kernel) _, by decide +kernel, by decide +kernel, by decide +kernel⟩
theorem witness_MoveVectors :
    (∃ o, Claim.isMove (.vslup 40 1 2 (.int .l)) = true ∧ Claim.whole base (.vslup 40 1 2 (.int .l)) = some o ∧ Claim.vecReady base ∧
      Claim.notBound base o.regs ∧ base.st.ctl.vl ≠ 0) ∧
    ∃ o, Claim.whole (vl base 0) (.mpop 1 2) = some o ∧ o.atZero = true :=
  ⟨⟨_, rfl, rfl, ready _ (by decide +kernel), notBound_none (by decide +kernel) _, by decide +kernel⟩, _, rfl, rfl⟩
theorem witness_ReductionVectors :
    (∃ o, Claim.isMove (.vrsum (.fp .f64 3) 1) = false ∧ Claim.whole (vl base 2) (.vrsum (.fp .f64 3) 1) = some o ∧ Claim.vecReady (vl base 2) ∧
      Claim.notBound (vl base 2) o.regs ∧ (vl base 2).st.ctl.vl ≠ 0 ∧ Claim.quiet (vl base 2) o) ∧
    ∃ o, Claim.whole (vl base 0) (.vgmin 1 2 .f16) = some o ∧ o.atZero = true ∧ Claim.quiet (vl base 0) o := by
  refine ⟨⟨_, rfl, rfl, ready _ (by decide +kernel), notBound_none (by decide +kernel) _, by decide +kernel, ?_, ?_⟩, _, rfl, rfl, ?_, ?_⟩
  · decide +kernel
  · intro x _
    exact .inl (by decide +kernel)
  · intro x hx
    cases hx
  · intro x hx
    cases hx
theorem witness_VoidAtZero :
    (vl base 0).st.ctl.vl = 0 ∧ Claim.vecReady (vl base 0) ∧ (∃ o, Claim.elementWise (vl base 0) (.vfadd 1 2 (.vec 3) .f32) = some o) ∧
    (∃ o, Claim.whole (vl base 0) (.vpack 1 2 (.int .l)) = some o ∧ o.atZero = false) ∧ Claim.farVector (.mxStep 1 2 3 .int8) = some true ∧
    Claim.farVector (.vamoAddL 1 2 3 0) = some true ∧
    let s := g (vl base 0) [(1, 0x10010)]
    s.st.ctl.vl = 0 ∧ Claim.vecReady s ∧ (s.g 1).toNat % 32 ≠ 0 :=
  ⟨by decide +kernel, ready _ (by decide +kernel), ⟨_, rfl⟩, ⟨_, rfl, rfl⟩, rfl, rfl, by decide +kernel, ready _ (by decide +kernel), by decide +kernel⟩
theorem witness_ElementAccess :
    (∃ ps u, placeM .load (.plain (Claim.isFp (.fp .f32))) 0x10008 (Claim.dataBytes (.fp .f32)) 5 base = .ok ps u ∧ Claim.unbegun base ps ∧
      ∀ p ∈ ps, Claim.readable u (Claim.isFp (.fp .f32) && ps.length == 1) p) ∧
    ∃ ps u, placeM .store (.plain (Claim.isFp (.int .b))) 0x1FFFF (Claim.dataBytes (.int .b)) 5 base = .ok ps u ∧ Claim.unbegun base ps ∧
      ∀ p ∈ ps, Claim.writable u (Claim.elSide (.int .b) Elem.init) p :=
  ⟨loads (by decide +kernel), stores (by decide +kernel)⟩
/-- g1 names memory of the program's page. -/
def data : State := g base [(1, 0x10100)]
theorem performed {s : State} {o : Claim.MemOp}
    (h : ((o.prep (o.begin s)).bind (Claim.perform o.perf (Claim.todo s))).any (fun u => u.st.trains == []) = true) :
    ∃ u, (o.prep (o.begin s)).bind (Claim.perform o.perf (Claim.todo s)) = some u ∧ u.st.trains = [] := by
  obtain ⟨u, h1, h2⟩ := some_spec h
  exact ⟨u, h1, eq_of_beq h2⟩
/-- What the statement of the loads and stores asks of one. -/
def runsMem (s : State) (i : Instr) : Prop :=
  ∃ o, Claim.memVec s i = some o ∧ Claim.notBound s o.regs ∧
    ∃ u, (o.prep (o.begin s)).bind (Claim.perform o.perf (Claim.todo s)) = some u ∧ u.st.trains = []
theorem witness_MemoryVectors :
    let s := vl data 2
    Claim.vecReady s ∧ runsMem s (.vst 40 1 (.int .h)) ∧ runsMem s (.vldG 40 1 .f64) ∧ runsMem s (.vstLn 40 2 (.fp .f64)) ∧
    runsMem s (.vpre 1) ∧ runsMem s (.vstxa 40 1 2 (.int .l)) ∧
    Claim.notBound s [40] ∧ Claim.todo (vl data 0) = [] ∧ Claim.todo s = [0, 1] ∧
    ∃ x, Claim.ran (loadEl .plain (.int .l) (s.g 1).toNat 0) ((Claim.freshMem s (Claim.entryOf s (s.g 1) 0)).mapCtl fun c => { c with vei := 0 }) = some x := by
  intro s
  refine ⟨ready _ (by decide +kernel), ⟨_, rfl, notBound_none (by decide +kernel) _, performed (by decide +kernel)⟩,
    ⟨_, rfl, notBound_none (by decide +kernel) _, performed (by decide +kernel)⟩, ⟨_, rfl, notBound_none (by decide +kernel) _, performed (by decide +kernel)⟩,
    ⟨_, rfl, notBound_none (by decide +kernel) _, performed (by decide +kernel)⟩, ⟨_, rfl, notBound_none (by decide +kernel) _, performed (by decide +kernel)⟩,
    notBound_none (by decide +kernel) _, by decide +kernel, by decide +kernel, ?_⟩
  obtain ⟨x, h, _⟩ := some_spec (p := fun _ => true) (o := Claim.ran (loadEl .plain (.int .l) (s.g 1).toNat 0)
    ((Claim.freshMem s (Claim.entryOf s (s.g 1) 0)).mapCtl fun c => { c with vei := 0 })) (by decide +kernel)
  exact ⟨x, h⟩
/-- A stream of n doublewords at 0x10200 bound to v1 in slot 7. -/
def streaming (n : Nat) : State :=
  on (vl hand 2) fun t => { t with k := t.k.set 7 (some { reg := 1, ty := .int .l, kind := 0, level := 0, len := n, base := 0x10200, stride := 8, pos := 0, mesh := none }) }
theorem only7 (n : Nat) (i : Fin 8) (k : Stream) (h : (streaming n).st.k[i] = some k) : i = 7 := by
  match i with
  | 7 => rfl
  | 0 | 1 | 2 | 3 | 4 | 5 | 6 => cases h
/-- v1 is bound in slot 7 alone. -/
theorem bound7 (n : Nat) {rs : List VReg} (h : rs.count 1 = 1) :
    ∃ k, (streaming n).st.k[(7 : Fin 8)] = some k ∧ Claim.onlyBound (streaming n) rs 1 7 k ∧ k.kind = 0 ∧ k.len = n ∧ k.pos = 0 :=
  ⟨_, rfl, ⟨rfl, rfl, h, fun i k hk _ => only7 n i k hk⟩, rfl, rfl, rfl⟩
theorem witness_StreamSources :
    (Instr.vadd 40 1 (.vec 2) .l).wf = true ∧ Claim.vecReady (streaming 2) ∧ (streaming 2).st.ctl.vl ≤ 128 ∧
    (∃ o k, Claim.elementWise (streaming 2) (.vadd 40 1 (.vec 2) .l) = some o ∧ Claim.onlyBound (streaming 2) o.regs 1 7 k ∧ o.dst ≠ some 1 ∧
      (∀ e ∈ Claim.todo (streaming 2), k.pos + e < k.len) ∧
      ∃ u, Claim.perform (Claim.fromStream (streaming 2) (.vadd 40 1 (.vec 2) .l) 1 k) (Claim.todo (streaming 2))
        (Claim.freshEl (streaming 2) (o.entry (streaming 2))) = some u) ∧
    Claim.vecReady (streaming 0) ∧ Claim.catches (streaming 0) ∧ Claim.todo (streaming 0) = [0, 1] ∧
    ∃ o k, Claim.elementWise (streaming 0) (.vadd 40 1 (.vec 2) .l) = some o ∧ Claim.onlyBound (streaming 0) o.regs 1 7 k ∧ k.len ≤ k.pos + 0 := by
  obtain ⟨k, _, hk, _, hl, hp⟩ := bound7 2 (rs := [40, 1, 2]) rfl
  obtain ⟨k', _, hk', _, hl', hp'⟩ := bound7 0 (rs := [40, 1, 2]) rfl
  refine ⟨by decide +kernel, ready _ (by decide +kernel), by decide +kernel, ⟨_, k, rfl, hk, by decide +kernel, ?_, ?_⟩,
    ready _ (by decide +kernel), ?_, by decide +kernel, _, k', rfl, hk', by omega⟩
  · rw [hl, hp]
    decide +kernel
  · have hz := hk.1
    cases hz
    obtain ⟨u, h, _⟩ := some_spec (p := fun _ => true) (o := Claim.perform (Claim.fromStream (streaming 2) (.vadd 40 1 (.vec 2) .l) 1
      { reg := 1, ty := .int .l, kind := 0, level := 0, len := 2, base := 0x10200, stride := 8, pos := 0, mesh := none }) (Claim.todo (streaming 2))
      (Claim.freshEl (streaming 2) (((Claim.elementWise (streaming 2) (.vadd 40 1 (.vec 2) .l)).getD { regs := [], write := fun _ u => u }).entry (streaming 2))))
      (by decide +kernel)
    exact ⟨u, h⟩
  · unfold Claim.catches
    decide +kernel
theorem witness_StreamClashes :
    Claim.vecReady (streaming 2) ∧ (streaming 2).st.counted = [] ∧ (∃ (b : Fin 8) (k : Stream), (streaming 2).st.k[b] = some k ∧ k.reg = 1) ∧
    (streaming 2).st.ctl.vei.toNat < (streaming 2).st.ctl.vl ∧
    (∃ o, Claim.elementWise (streaming 2) (.vmv 1 (.sca 3) .l) = some o ∧ o.dst = some 1) ∧
    (∃ o, Claim.memVec (streaming 2) (.vldx 1 3 2 (.int .l)) = some o ∧ o.dst = some 1 ∧ Claim.notBound (streaming 2) o.regs.tail) ∧
    ∃ o, Claim.whole (streaming 2) (.vperm 40 1 2 (.int .l)) = some o ∧ ∃ p q, o.plain = p ++ 1 :: q ∧ Claim.notBound (streaming 2) p := by
  have away : ∀ rs : List VReg, (1 : VReg) ∉ rs → Claim.notBound (streaming 2) rs := by
    intro rs hrs r hr i k h
    have := only7 2 i k h
    subst this
    cases h
    rintro rfl
    exact hrs hr
  exact ⟨ready _ (by decide +kernel), by decide +kernel, ⟨7, _, rfl, rfl⟩, by decide +kernel, ⟨_, rfl, rfl⟩, ⟨_, rfl, rfl, away _ (by decide)⟩,
    _, rfl, [40], [2], rfl, away _ (by decide)⟩
theorem witness_Streams :
    (let s := g base [(1, 0x10200)]
     Claim.vecReady s ∧ s.meshes = [] ∧ (s.g 1).toNat % 32 = 0 ∧
      (∃ x, Claim.ran (readDesc (s.g 1).toNat) (Claim.freshWh s (Claim.entryOf s (s.g 1) 0 0)) = some x ∧ (x.1 == [0, 0, 0, 0]) = true) ∧
      Claim.descRules 0 0 ∧ Claim.kindRules s (.int .l) 0 0 ∧ ∀ (i : Fin 8) k, s.st.k[i] = some k → k.reg = 1 → i = 7) ∧
    Claim.vecReady (streaming 2) ∧ (∃ k, (streaming 2).st.k[(7 : Fin 8)] = some k ∧ k.reg = 1 ∧ k.kind = 0 ∧ ∀ e ∈ Claim.todo (streaming 2), k.pos + e < k.len) ∧
    (∀ (i : Fin 8) k, (streaming 2).st.k[i] = some k → k.reg = 1 → i = 7) ∧ Claim.notBound (streaming 2) [40] ∧
    (Claim.todo (streaming 0) = [0, 1] ∧ ∃ k, (streaming 0).st.k[(7 : Fin 8)] = some k ∧ k.len ≤ k.pos + 0) ∧ Claim.catches (streaming 0) := by
  refine ⟨⟨ready _ (by decide +kernel), by decide +kernel, by decide +kernel, some_spec (by decide +kernel), ?_, ?_, ?_⟩, ready _ (by decide +kernel),
    ⟨_, rfl, rfl, rfl, by decide +kernel⟩, fun i k h _ => only7 2 i k h, ?_, ⟨by decide +kernel, _, rfl, by decide⟩, ?_⟩
  · unfold Claim.descRules
    decide +kernel
  · unfold Claim.kindRules
    decide +kernel
  · intro i k h
    have : ∀ i : Fin 8, (g base [(1, 0x10200)]).st.k[i] = none := by decide +kernel
    rw [this i] at h
    cases h
  · intro r hr i k h
    have := only7 2 i k h
    subst this
    cases h
    simp_all
  · unfold Claim.catches
    decide +kernel
/-- The active plane valid, of a format, with N columns per row 2; tile 3 of a kind. -/
def plane (s : State) (fmt kind : Nat) : State :=
  { s with cores := SMap.put s.cores 0 { s.myCore with
      active := { valid := true, fmt, n := 2, sw := .replicate 64 0x3F80 }
      tiles := s.myCore.tiles.set 3 { s.myCore.tiles[3] with kind } } }
theorem witness_MatrixTiles :
    Claim.vecReady base ∧ base.st.ctl.vl ≠ 0 ∧ Claim.ownsArray base (some 3) ∧
    (∃ o, Claim.mx base (.mxWr 3 40 1) = some o ∧ Claim.notBound base o.regs ∧ Claim.ownsArray base o.tile ∧ o.ok) ∧
    (∃ o, Claim.mx base (.mxSkip 3 1) = some o ∧ o.ok) ∧ (∃ o, Claim.mx base .mxSwap = some o ∧ o.ok) ∧
    (∃ o, Claim.mx base (.mxGrant 1) = some o ∧ o.ok) ∧ ∃ o, Claim.mx base (.mxCfg 1) = some o ∧ o.ok := by
  have own : Claim.ownsArray base (some 3) := by
    refine ⟨by decide +kernel, ?_⟩
    intro x hx
    cases hx
    show base.st.slot = 0
    decide +kernel
  refine ⟨ready _ (by decide +kernel), by decide +kernel, own, ⟨_, rfl, notBound_none (by decide +kernel) _, own, True.intro⟩, ⟨_, rfl, ?_⟩, ⟨_, rfl, ?_⟩,
    ⟨_, rfl, ?_⟩, _, rfl, ?_⟩
  · show (base.myCore.tiles[(3 : Fin 4)]).kind = 0
    decide +kernel
  · show base.myCore.reserved = none
    decide +kernel
  · show (base.g 1).toNat < Claim.slotCount base
    decide +kernel
  · have h : ∀ x : Fin 4, Claim.cfgKind (base.g 1) x ≠ 3 := by decide +kernel
    exact fun x _ => h x
/-- A step's activations: an INT8 plane, and 1,000 elements at 0x10200. -/
def stepping : State := plane (streaming 1000) 3 1
theorem witness_MatrixSteps :
    let s := stepping
    Claim.vecReady s ∧ s.st.ctl.vl ≠ 0 ∧ Claim.ownsArray s (some 3) ∧ Claim.fits (s.settleSwap s.st.core) 3 .int8 ∧
    (∃ k, s.st.k[(7 : Fin 8)] = some k ∧ k.reg = 1 ∧ k.ty = .int .l ∧
      (∃ r, Claim.ran (Claim.fetchRows 7 k (Claim.stepRows .int8) (6 * (s.settleSwap s.st.core).myCore.active.n))
        (Claim.mxBegin s (Claim.entryOf s 0 0 0)) = some r) ∧ k.pos + 64 * 12 ≤ k.len) ∧
    (∀ (j : Fin 8) k', s.st.k[j] = some k' → k'.reg = 1 → j = 7) ∧ (s.mapCore 0 fun k => { k with skf := true }).myCore.skf = true ∧
    s.onchip.wf = true ∧ ((s.coreOf 0).tiles[(3 : Fin 4)]).kind = 1 ∧ (List.replicate 64 (List.replicate 12 Elem.init)).length = 64 := by
  intro s
  refine ⟨ready _ (by decide +kernel), by decide +kernel, ⟨by decide +kernel, ?_⟩, ?_, ⟨_, rfl, rfl, rfl, ?_, by decide⟩, fun i k h _ => only7 1000 i k h,
    by decide +kernel, by decide +kernel, by decide +kernel, by decide⟩
  · intro x hx
    cases hx
    show s.st.slot = 0
    decide +kernel
  · exact ⟨by decide +kernel, by decide +kernel, .inl (by decide +kernel)⟩
  · obtain ⟨r, h, _⟩ := some_spec (p := fun _ => true) (o := Claim.ran (Claim.fetchRows 7
      { reg := 1, ty := .int .l, kind := 0, level := 0, len := 1000, base := 0x10200, stride := 8, pos := 0, mesh := none } 64 12)
        (Claim.mxBegin s (Claim.entryOf s 0 0 0))) (by decide +kernel)
    exact ⟨r, h⟩
theorem witness_MatrixStores :
    let s := vl data 1
    Claim.vecReady s ∧ s.st.ctl.vl ≠ 0 ∧ Claim.ownsArray s (some 3) ∧ (Claim.actives s).filter (fun i => decide (i < 64)) = [0] ∧ (s.g 1).toNat % 8 = 0 ∧
    ∃ r, (Claim.ran (do for i in [0] do for j in List.range 24 do
          let _ ← placeM .store (.plain false) ((Claim.wrap ((s.g 1).toNat + (i : Nat) * (s.g 2).toInt)).toNat + 8 * j) 8 0)
        (Claim.mxBegin s (Claim.entryOf s (s.g 1) 0 (s.g 2))) = some ((), r) ∧
      ∃ v, Claim.ran (do for i in [0] do for j in List.range 24 do
          storeM true (.plain false) (.word 0x1818) ((Claim.wrap ((s.g 1).toNat + (i : Nat) * (s.g 2).toInt)).toNat + 8 * j) 8
            ((Claim.mxBegin s (Claim.entryOf s (s.g 1) 0 (s.g 2))).tileRead s.st.core 3 (i * 24 + j)).val.toNat 0
          modify fun u => u.dropAnswers 1) r = some ((), v) ∧ v.st.trains = []) := by
  intro s
  refine ⟨ready _ (by decide +kernel), by decide +kernel, ⟨by decide +kernel, ?_⟩, by decide +kernel, by decide +kernel, ?_⟩
  · intro x hx
    cases hx
    show s.st.slot = 0
    decide +kernel
  · obtain ⟨⟨_, r⟩, h, h2⟩ := some_spec (p := fun x => ((Claim.ran (do for i in [0] do for j in List.range 24 do
          storeM true (.plain false) (.word 0x1818) ((Claim.wrap ((s.g 1).toNat + (i : Nat) * (s.g 2).toInt)).toNat + 8 * j) 8
            ((Claim.mxBegin s (Claim.entryOf s (s.g 1) 0 (s.g 2))).tileRead s.st.core 3 (i * 24 + j)).val.toNat 0
          modify fun u => u.dropAnswers 1) x.2).any fun y => y.2.st.trains == []))
      (o := Claim.ran (do for i in [0] do for j in List.range 24 do
          let _ ← placeM .store (.plain false) ((Claim.wrap ((s.g 1).toNat + (i : Nat) * (s.g 2).toInt)).toNat + 8 * j) 8 0)
        (Claim.mxBegin s (Claim.entryOf s (s.g 1) 0 (s.g 2))))
      (by decide +kernel)
    obtain ⟨⟨_, v⟩, h3, h4⟩ := some_spec h2
    exact ⟨r, h, v, h3, eq_of_beq h4⟩
theorem onePart {acc : Acc} {r : AlignRule} {va n : Nat} {s : State} {q : State → Nat → Option Nat → Bool}
    (h : answers (placeM acc r va n 0) s (fun ps u => match ps with
      | [{ loc := .mem key kind sc, at_ := 0, len }] => len == n && (decide (kind < 2) && q u key sc)
      | _ => false) = true) :
    ∃ key kind sc u, placeM acc r va n 0 s = .ok [{ loc := .mem key kind sc, at_ := 0, len := n }] u ∧ kind < 2 ∧ q u key sc = true := by
  obtain ⟨ps, u, h1, h2⟩ := answers_spec h
  split at h2
  · simp only [Bool.and_eq_true, decide_eq_true_eq] at h2
    have := eq_of_beq h2.1
    subst this
    exact ⟨_, _, _, u, h1, h2.2⟩
  · cases h2
/-- The same for the scalar stream, nothing being begun. -/
theorem here {acc : Acc} {r : AlignRule} {va n : Nat} {s : State} {q : State → Nat → Option Nat → Bool} (hb : s.st.begun = [])
    (h : answers (placeM acc r va n 0) s.resuming (fun ps u => match ps with
      | [{ loc := .mem key kind sc, at_ := 0, len }] => len == n && (decide (kind < 2) && q u key sc)
      | _ => false) = true) :
    ∃ key kind sc u, placeM acc r va n 0 s.resuming = .ok [{ loc := .mem key kind sc, at_ := 0, len := n }] u ∧
      Claim.unbegun s [{ loc := .mem key kind sc, at_ := 0, len := n }] ∧ q u key sc = true := by
  obtain ⟨key, kind, sc, u, h1, hk, h2⟩ := onePart h
  exact ⟨key, kind, sc, u, h1, ⟨hb, .inl fun p hp => by cases List.mem_singleton.mp hp; exact hk⟩, h2⟩
theorem witness_FpStep :
    (let s := plane base MxF.fp64.code 2
     s.onchip.wf = true ∧ ((s.coreOf 0).tiles[(3 : Fin 4)]).kind = 2 ∧ mxPairs .fp64 (mxOfCode (s.coreOf 0).active.fmt) = true) ∧
    (let s := plane base MxF.sb4.code 0
     s.onchip.wf = true ∧ ((s.coreOf 0).tiles[(3 : Fin 4)]).kind = 0 ∧ mxPairs .sb4 (mxOfCode (s.coreOf 0).active.fmt) = true) ∧
    (List.replicate 16 (List.replicate 12 Elem.init)).length = Claim.stepRows .fp64 := by
  decide +kernel
theorem ordDone {s : State} {o : Claim.OrdOp}
    (h : (Claim.perform o.perf (Claim.todo s) (o.begin s)).any (fun u => u.st.trains == []) = true) :
    ∃ u, Claim.perform o.perf (Claim.todo s) (o.begin s) = some u ∧ u.st.trains = [] := by
  obtain ⟨u, h1, h2⟩ := some_spec h
  exact ⟨u, h1, eq_of_beq h2⟩
theorem witness_ScalarAtomics :
    Claim.levelOk data 0 ∧ Claim.drainedAll data ∧ data.st.issue = none ∧
    (∃ k, Claim.amo (.amoCasL 3 1 2 0) = some k ∧ k.op ≠ .fadd) ∧ (∃ k, Claim.amo (.amoFaddF32 3 1 2 0) = some k ∧ k.op = .fadd) ∧
    (∃ key kind sc u, placeM .rmw (.natural false) (data.g 1).toNat 8 0 data.resuming = .ok [{ loc := .mem key kind sc, at_ := 0, len := 8 }] u ∧
      Claim.unbegun data [{ loc := .mem key kind sc, at_ := 0, len := 8 }] ∧ (u.lineOk key 8 && sc.isNone) = true) ∧
    Claim.fpTrap data ⟨[], [], (fpArith (fpOf (Claim.amoF 4)) (rmOfCode 0) false .add 0 0 0 24 24 0).flags, some (24, 24), id⟩ = none := by
  refine ⟨?_, ?_, by decide +kernel, ⟨_, rfl, by decide⟩, ⟨_, rfl, rfl⟩, here (by decide +kernel) (by decide +kernel), by decide +kernel⟩
  · unfold Claim.levelOk
    decide +kernel
  · unfold Claim.drainedAll
    decide +kernel
theorem witness_OrderedVectors :
    let s := vl data 2
    Claim.vecReady s ∧ Claim.levelOk s 0 ∧ s.st.ctl.vl ≠ 0 ∧
    (∃ o, Claim.ordVec s (.vamoFaddF64 40 1 2 0) = some o ∧ Claim.notBound s o.regs ∧
      ∃ u, Claim.perform o.perf (Claim.todo s) (o.begin s) = some u ∧ u.st.trains = []) ∧
    ∃ o, Claim.ordVec s (.vstRelL 40 1 0) = some o ∧ Claim.notBound s o.regs ∧
      ∃ u, Claim.perform o.perf (Claim.todo s) (o.begin s) = some u ∧ u.st.trains = [] := by
  intro s
  refine ⟨ready _ (by decide +kernel), ?_, by decide +kernel, ⟨_, rfl, notBound_none (by decide +kernel) _, ordDone ?_⟩, ⟨_, rfl, notBound_none (by decide +kernel) _, ordDone ?_⟩⟩
  · unfold Claim.levelOk
    decide +kernel
  · decide +kernel
  · decide +kernel
theorem witness_Ordering :
    Claim.levelOk data 0 ∧ Claim.drainedAll data ∧ Claim.vecReady data ∧ (data.dies[data.myDie]).log = [] ∧
    ¬ (full.st.tailRead.getD (full.dies[full.myDie]).tail ≤ (full.dies[full.myDie]).tail - (full.dies[full.myDie]).log.length) ∧
    Claim.regsFree data [3, 1] [] ∧ Claim.bytesFree data (data.g 1).toNat 8 ∧
    (∃ key kind sc u, placeM .load (.natural true) (data.g 1).toNat 8 0 data.resuming = .ok [{ loc := .mem key kind sc, at_ := 0, len := 8 }] u ∧
      Claim.unbegun data [{ loc := .mem key kind sc, at_ := 0, len := 8 }] ∧ (u.lineOk key 8 && sc.isNone) = true) ∧
    ∃ ps u, placeM .store (.natural true) (data.g 1).toNat 4 0 data.resuming = .ok ps u ∧ Claim.unbegun data ps ∧ ∀ p ∈ ps, Claim.writable u Claim.intSide p := by
  refine ⟨?_, ?_, ready _ (by decide +kernel), by decide +kernel, by decide +kernel, regsFree_nil (by decide +kernel) _ _, bytesFree_nil (by decide +kernel) _ _,
    here (by decide +kernel) (by decide +kernel), stores (by decide +kernel)⟩
  · unfold Claim.levelOk
    decide +kernel
  · unfold Claim.drainedAll
    decide +kernel
theorem witness_ChecksBeforeEffect :
    (Claim.privileged (.cwr 3 .mxo) = true ∧ hand.st.mode = .p ∧ Claim.catches hand ∧ Claim.settled hand) ∧
    (let s := on hand fun t => { t with ctl := { t.ctl with vms := 14 } };
      (Claim.elementWise s (.vmv 1 (.sca 2) .l)).isSome ∧ (Claim.farVector (.mxZero 3)).isSome ∧ (Claim.farVector (.sfree 3)).isSome ∧
      s.st.issue = none ∧ s.st.vq = [] ∧ s.st.rpl.going = false ∧ 12 ≤ s.st.ctl.vms.toNat ∧ s.st.ctl.vms.toNat ≤ 14 ∧ Claim.catches s) ∧
    ¬ Claim.levelOk hand 1 ∧ hand.st.vq = [] ∧ (vl hand 2).st.ctl.vei.toNat < (vl hand 2).st.ctl.vl ∧ ¬ Claim.levelOk (vl hand 2) 1 ∧
    ∃ o, Claim.ordVec (vl hand 2) (.vldAcqL 40 1 1) = some o ∧ o.l = 1 := by
  refine ⟨?_, ?_, ?_, by decide +kernel, by decide +kernel, ?_, _, rfl, rfl⟩ <;> (try unfold Claim.levelOk) <;> (try unfold Claim.catches) <;> (try unfold Claim.settled) <;> decide +kernel
theorem witness_MatrixLoads :
    let s := vl data 1
    Claim.vecReady s ∧ s.st.ctl.vl ≠ 0 ∧ s.myCore.reserved = none ∧ Claim.ownsArray s none ∧ Claim.notBound s [40] ∧
    (∃ x, Claim.ran ((List.range (16 * 64)).mapM fun j =>
      loadChunk (Claim.wrap ((s.g 1).toNat + (j / 64 : Nat) * (Claim.wrap (BitVec.ofNat 32 (s.g 2).toNat).toInt).toInt + (48 * (j % 64) : Nat))))
        (Claim.mxBegin s (Claim.entryOf s (s.g 1) 0 (s.g 2))) = some x) ∧
    ∃ x, Claim.ran ((List.range (16 * 64)).mapM fun j =>
      if (Claim.active s (j % 64) && decide (j % 64 < min s.st.ctl.vl 64)) then
        loadChunk (Claim.wrap ((s.g 1).toNat + (j / 64 : Nat) * s.st.ctl.vstr.toInt + (48 * ((s.v 40 (j % 64)).val.toNat % 2 ^ 32) : Nat)))
      else pure 0) (Claim.mxBegin s (Claim.entryOf s (s.g 1) 0)) = some x := by
  intro s
  refine ⟨ready _ (by decide +kernel), by decide +kernel, by decide +kernel, ⟨by decide +kernel, ?_⟩, notBound_none (by decide +kernel) _, ?_, ?_⟩
  · intro x hx
    cases hx
  · exact Option.isSome_iff_exists.mp (by decide +kernel)
  · exact Option.isSome_iff_exists.mp (by decide +kernel)
/-- A launch of two levels: a house of level 1 (instance 0) over the strand's own (instance 1). -/
def housed : State :=
  { (on hand fun t => { t with sched := { t.sched with inst := 1 } }) with
    launches := [{ ln with
      phys := [0, 1]
      houses := ([{ level := 1, count := 1, nchild := 1, subtree := 2, entry := 0x10000, ownBudget := true, slots := 0, weight := 1, prio := 0, policy := 0 },
        { level := 0, count := 1, nchild := 0, subtree := 1, entry := 0x10000, ownBudget := false, slots := 0, weight := 1, prio := 0, policy := 0 }] : List House)
      insts := ([{ inst0 with strand := none }, { inst0 with record := 1, parent := some 0 }] : List Inst) }] }
/-- The strand has arrived at episode n of the house above. -/
def arrived (n : Nat) : State := on housed fun t => { t with arrivals := [(1, n)] }
theorem free {s : State} (h : s.st.vq = []) : Claim.regsFree s [3] [] ∧ Claim.regsFree s [3, 1] [] ∧ Claim.regsFree s [3, 1, 2] [] :=
  ⟨regsFree_nil h _ _, regsFree_nil h _ _, regsFree_nil h _ _⟩
theorem witness_Houses :
    (Claim.levelOk housed 0 ∧ Claim.levelOk housed 1) ∧ (∃ x, housed.houseAt 0 = some x ∧ (x.2.1 == 1) = true) ∧
    (∃ x, housed.houseAt 1 = some x ∧ (x.2.1 == 0) = true) ∧ Claim.regsFree housed [3] [] ∧ Claim.regsFree housed [3, 1] [] ∧ Claim.drainedAll housed ∧
    SMap.find housed.st.arrivals 1 = none ∧ SMap.find (arrived 1).st.arrivals 1 = some 1 ∧ SMap.find (arrived 0).st.arrivals 1 = some 0 ∧
    (∃ x, (arrived 1).houseAt 1 = some x ∧ (decide (x.2.2.episode < 1)) = true) ∧ ∃ x, (arrived 0).houseAt 1 = some x ∧ (decide (0 ≤ x.2.2.episode)) = true := by
  refine ⟨?_, some_spec (by decide +kernel), some_spec (by decide +kernel), (free (by decide +kernel)).1, (free (by decide +kernel)).2.1, ?_, by decide +kernel,
    by decide +kernel, by decide +kernel, some_spec (by decide +kernel), some_spec (by decide +kernel)⟩
  · unfold Claim.levelOk
    decide +kernel
  · unfold Claim.drainedAll
    decide +kernel
/-- A core divided n times, the strand in a slot. -/
def divided (n slot : Nat) : State :=
  let s := on hand fun t => { t with sched := { t.sched with place := some (0, slot) } }
  { s with cores := SMap.put s.cores 0 { s.myCore with div := n } }
theorem noSeats (s : State) (h : s.strands = [s.st]) (_h2 : s.st.slot = 0) (hp : s.st.sched.place = some (0, 0)) (k : Nat) (hk : 0 < k) : ∀ t, ¬ Claim.seatedFrom s k t := by
  rintro t ⟨ht, _, j, hj, hkj⟩
  rw [h, List.mem_singleton] at ht
  subst ht
  have e := hp.symm.trans hj
  simp only [Option.some.injEq, Prod.mk.injEq] at e
  omega
theorem witness_ClaimsAndLanes :
    (Claim.regsFree data [3, 1, 2] [] ∧ Claim.bytesFree data (data.g 1).toNat 16 ∧ data.st.issue = none ∧
      ∃ key kind sc u, placeM .rmw (.natural false) (data.g 1).toNat 16 0 data.resuming = .ok [{ loc := .mem key kind sc, at_ := 0, len := 16 }] u ∧
        Claim.unbegun data [{ loc := .mem key kind sc, at_ := 0, len := 16 }] ∧ (u.lineOk key 16 && u.lineOk key 8 && sc.isNone) = true) ∧
    ((divided 0 0).st.slot = 0 ∧ Claim.queuesEmpty (divided 0 0) ∧ (divided 0 0).myCore.div = 0 ∧ (divided 1 0).myCore.div = 1 ∧ (divided 2 0).myCore.div = 2) ∧
    (∀ t, ¬ Claim.seatedFrom (divided 2 0) 2 t) ∧
    (let s := two (divided 1 0) fun x => { x with status := .seated, place := some (0, 1) }; ∃ t, Claim.seatedFrom s 1 t) ∧
    (let s := on (divided 0 0) fun t => { t with vq := [entry0] }
     ¬ Claim.queuesEmpty s ∧ s.myCore.dividing = false) ∧
    (let s := (divided 1 0).mapCore 0 fun k => { k with dividing := true }
     s.myCore.dividing = true ∧ (Claim.elementWise s (.vmv 1 (.sca 2) .l)).isSome ∧ s.st.issue = none ∧ s.st.ctl.vms = 15) ∧
    (divided 2 3).st.slot ≠ 0 ∧ Claim.catches (divided 2 3) ∧ Claim.settled (divided 2 3) := by
  refine ⟨⟨(free (by decide +kernel)).2.2, bytesFree_nil (by decide +kernel) _ _, by decide +kernel, here (by decide +kernel) (by decide +kernel)⟩,
    ⟨by decide +kernel, ?_, by decide +kernel, by decide +kernel, by decide +kernel⟩, noSeats _ rfl (by decide +kernel) (by decide +kernel) 2 (by decide), ?_,
    ⟨?_, by decide +kernel⟩, by decide +kernel, by decide +kernel, ?_, ?_⟩
  · intro t ht _ _
    have : (divided 0 0).strands = [(divided 0 0).st] := rfl
    rw [this, List.mem_singleton] at ht
    subst ht
    decide +kernel
  · exact ⟨_, List.mem_cons_of_mem _ (List.mem_cons_self ..), rfl, 1, rfl, Nat.le_refl 1⟩
  · intro h
    have := h _ (List.mem_cons_self ..) (by decide +kernel) ⟨0, by decide +kernel⟩
    cases this
  · unfold Claim.catches
    decide +kernel
  · unfold Claim.settled
    decide +kernel
theorem witness_WaitAndWake :
    Claim.regsFree base [3] [] ∧ Claim.drainedAll base ∧ (base.g 3).toNat / 2 ^ 16 = base.handle.toNat ∧
    (∃ t, base.strand? ((base.g 3).toNat % 2 ^ 16) = some t ∧ (t.live && t.sched.lid == base.st.sched.lid && t.sn == (base.g 3).toNat % 2 ^ 16) = true) ∧
    (g base [(3, 1)]).strand? (((g base [(3, 1)]).g 3).toNat % 2 ^ 16) = none ∧ 2 ^ 26 ≤ ((g base [(3, 0x4000000)]).g 3).toNat ∧
    (((g base [(3, 0x3FF0000)]).g 3).toNat < 2 ^ 26 ∧ ((g base [(3, 0x3FF0000)]).g 3).toNat / 2 ^ 16 ≠ base.handle.toNat) ∧
    (on base fun t => { t with wake := true }).st.wake = true ∧ (on base fun t => { t with wake := true, vq := [entry0] }).st.vq ≠ [] ∧
    (∃ l, base.launch? base.st.sched.lid = some l ∧ (l.origin == none) = true) ∧ base.st.wake = false ∧ base.st.wait ≠ .wakeOrResult ∧
    (on base fun t => { t with wait := .wakeOrResult }).st.wait = .wakeOrResult := by
  refine ⟨(free (by decide +kernel)).1, ?_, by decide +kernel, some_spec (by decide +kernel), by decide +kernel, by decide +kernel, by decide +kernel, by decide +kernel,
    by decide +kernel, some_spec (by decide +kernel), by decide +kernel, by decide +kernel, by decide +kernel⟩
  unfold Claim.drainedAll
  decide +kernel
/-- The house above has a second strand, on another package. -/
def paired : State :=
  { housed with launches := housed.launches.map fun l => { l with insts := l.insts ++ [{ inst0 with record := 1, parent := some 0, strand := none }] } }
/-- Two instructions captured at 0x10000 and 0x10004, the first of which a replay is about to commit. -/
def aboutToCommit : State := on (vl data 2) fun t => { t with rpl := { t.rpl with body := [(0x90304206, 0x10000), (0x90304206, 0x10004)], going := true } }
theorem witness_Replay :
    (∃ o, Claim.elementWise aboutToCommit (.vadd 3 1 (.vec 2) .l) = some o) ∧ (∃ o, Claim.memVec aboutToCommit (.vld 40 1 (.int .l)) = some o) ∧
    aboutToCommit.st.rpl.going = true ∧ aboutToCommit.st.issue = none ∧ aboutToCommit.st.ctl.vms = 15 ∧ aboutToCommit.myCore.dividing = false ∧ aboutToCommit.st.vq = [] ∧
    aboutToCommit.st.vq.length + aboutToCommit.st.pend.length < 32 :=
  ⟨⟨_, rfl⟩, ⟨_, rfl⟩, by decide +kernel⟩
/-- The only strand of a launch is about to end it. -/
theorem witness_LastStrand :
    ∃ l x t, Claim.bound base l x ∧ base.st.sched.status = .seated ∧ l.live = true ∧ l.origin = none ∧
      (l.retireLeaf base.st.sched.inst).statusOf 0 = .retired ∧ exec .sdone base = .next t ∧ t.st.sched.status = .retired := by
  obtain ⟨t, h, h2⟩ := nextIs_spec (o := exec .sdone base) (p := fun t => t.st.sched.status == .retired) (by decide +kernel)
  exact ⟨ln, inst0, t, by unfold Claim.bound; decide +kernel, by decide +kernel, by decide +kernel, by decide +kernel, by decide +kernel, h, eq_of_beq h2⟩
theorem witness_StrandControl :
    (∃ l x, Claim.bound paired l x ∧ (l.retireLeaf paired.st.sched.inst).statusOf 0 ≠ .retired) ∧ Claim.drainedAll paired ∧
    base.cur = some base.st.sn ∧
    (∃ u ∈ (two base fun x => { x with status := .ready }).strands, ((two base fun x => { x with status := .ready }).candidate u base.st.core &&
      base.st.sched.prio ≤ u.sched.prio) = true) ∧
    (∀ u ∈ base.strands, base.candidate u base.st.core = true → u.sched.prio < base.st.sched.prio) ∧
    (let s := on base fun t => { t with rpl := { t.rpl with body := List.replicate 32 (0, 0) } };
      s.st.rpl.body ≠ [] ∧ s.st.rpl.left = 0 ∧ s.st.vq.length + s.st.pend.length + (s.st.rpl.body.length - s.st.rpl.pos) ≤ 32) ∧
    hand.st.rpl.body = [] ∧ Claim.catches hand := by
  refine ⟨⟨paired.launches.head (by decide), { inst0 with record := 1, parent := some 0 }, by unfold Claim.bound; decide +kernel, by decide +kernel⟩, ?_,
    by decide +kernel, ?_, by decide +kernel, by decide +kernel, by decide +kernel, ?_⟩
  · unfold Claim.drainedAll
    decide +kernel
  · exact ⟨_, List.mem_cons_of_mem _ (List.mem_cons_self ..), by decide +kernel⟩
  · unfold Claim.catches
    decide +kernel
/-- A group of the strand alone, and a handle to it. -/
def grp : Group :=
  { gid := 5, region := 0, gen := 1, members := [0], root := 0, k := 1, phase := 0, reqs := [], later := [], next := [], waiting := [], counts := [],
    settled := true, fresh := [], gone := [], holders := [] }
def grouped (x : Group) (gen : Nat) : State :=
  { (on hand fun t => { t with q := t.q.set 7 (some { gid := 5, gen }) }) with groups := [x] }
/-- The contribution of its member, waiting. -/
def waits (vl : Nat) (a : Word) : State :=
  { (on (grouped grp 1) fun t => { t with
      issue := some { entry0 with vl }, coll := some { gid := 5, gen := 1, seq := 1, rank := 0, size := 1, root := 0, k := 1, fate := .standing } }) with
    contribs := [{ gid := 5, gen := 1, form := 0, seq := 1, rank := 0, a, b := Claim.wrap vl, elems := [], idx := [] }], committed := [(5, 1, 0, 1)] }
theorem witness_Collectives :
    (∃ k, Claim.collective (.colRed 40 1 7 .sum (.fp .f64) true) = some (k, 40, 1, 7) ∧ k.topk = true) ∧
    Claim.vecReady (grouped grp 1) ∧ Claim.notBound (grouped grp 1) [40, 1] ∧ (grouped grp 1).st.coll = none ∧
    (∃ g, (grouped grp 1).group? 5 = some g ∧ (g.gen == 1 && g.members.contains (Claim.ownMid (grouped grp 1)) && g.k != 0) = true) ∧
    (grouped grp 1).contribs = [] ∧ (grouped grp 1).committed = [] ∧ (grouped grp 1).remap = [] ∧
    base.st.q[(7 : Fin 8)] = none ∧ (∃ h, (grouped grp 0).st.q[(7 : Fin 8)] = some h ∧ h.gen < 1) ∧
    (∃ k, Claim.collective (.colAgat 40 1 7 (.int .l)) = some (k, 40, 1, 7) ∧
      (let s := waits 128 (Claim.headA k 1);
       (∃ n c x, s.st.issue = some n ∧ n.lines = [] ∧ n.trains = [] ∧ s.st.early = none ∧ s.st.coll = some c ∧ s.contribs = [x] ∧ (s.group? c.gid).isSome ∧ [x].length = c.size ∧
        (c.gid, c.gen, 0, c.seq) ∈ s.committed ∧ x.a = Claim.headA k c.gen ∧ x.b = Claim.wrap n.vl ∧ Claim.shape k c.size n.vl) ∧
        Claim.settled s ∧ Claim.notBound s [40, 1])) ∧
    (∃ k, Claim.collective (.colAgat 40 1 7 (.int .l)) = some (k, 40, 1, 7) ∧ (waits 128 0).contribs.all (fun x => x.a != Claim.headA k 1) = true) ∧
    (let s := waits 128 0
     (on s fun t => { t with coll := t.coll.map fun c => { c with fate := .kept s.contribs } }).st.coll.map (·.fate) = some (.kept s.contribs)) ∧
    ¬ Claim.shape ⟨5, 0, .int .l, false⟩ 2 1 := by
  refine ⟨⟨_, rfl, rfl⟩, ready _ (by decide +kernel), notBound_none (by decide +kernel) _, by decide +kernel, some_spec (by decide +kernel), rfl, rfl, rfl, by decide +kernel,
    ⟨_, rfl, by decide⟩, ⟨_, rfl, ⟨⟨_, _, _, rfl, rfl, rfl, rfl, rfl, rfl, by decide +kernel, by decide +kernel, by decide +kernel, rfl, rfl, ?_⟩, ?_,
      notBound_none (by decide +kernel) _⟩⟩, ⟨_, rfl, by decide +kernel⟩, rfl, ?_⟩
  · unfold Claim.shape
    decide
  · unfold Claim.settled
    decide +kernel
  · unfold Claim.shape
    decide
theorem witness_GroupInstructions :
    let s := g (grouped grp 1) [(1, 5)]
    let o := g (grouped { grp with members := [65536] } 1) [(1, 5)]
    Claim.vecReady s ∧ (∃ x, s.group? ((s.g 1).toNat % 2 ^ 32) = some x ∧ (x.members.contains (Claim.ownMid s) && !x.fresh.contains (Claim.ownMid s)) = true) ∧
    (∃ x, o.group? ((o.g 1).toNat % 2 ^ 32) = some x ∧ (!x.members.contains (Claim.ownMid o) && x.phase != 3 && x.region == o.drid &&
      x.home != o.handle.toNat) = true) ∧ o.st.joinRefused = false ∧ o.st.asked = none ∧
    (let h := g (grouped { grp with members := [1] } 1) [(1, 5)]; (∃ x, h.group? ((h.g 1).toNat % 2 ^ 32) = some x ∧
      (!x.members.contains (Claim.ownMid h) && x.home == h.handle.toNat && x.phase == 0 && x.settled && x.region == h.drid) = true)) ∧
    (grouped grp 1).group? (((grouped grp 1).g 1).toNat % 2 ^ 32) = none ∧ (∃ h, s.st.q[(7 : Fin 8)] = some h ∧ h.gen < 2 ^ 32 ∧ (s.group? h.gid).isSome) :=
  ⟨ready _ (by decide +kernel), some_spec (by decide +kernel), some_spec (by decide +kernel), by decide +kernel, by decide +kernel, some_spec (by decide +kernel),
    by decide +kernel, _, rfl, by decide, by decide +kernel⟩
theorem found {α : Type} {x : Xl α} (h : (match x with | .ok _ => true | .error _ => false) = true) : ∃ w, x = .ok w := by
  cases x with
  | ok w => exact ⟨w, rfl⟩
  | error _ => cases h
theorem witness_PageTables :
    base.act.getLsbD 0 = false ∧ Claim.root base 0 = 0x10000 ∧ Claim.index 0x10000 2 = 1 ∧
    (Claim.tableOk base 0 0x10000 0 ∧ Claim.tableOk base 0 0x10000 8191 ∧ Claim.tableOk base 0 0x20000 0 ∧ Claim.tableOk base 0 0x30000 1) ∧
    (Claim.pointer 0 (Claim.tableEntry base 0x10000 0) 0x20000 ∧ Claim.pointer 0 (Claim.tableEntry base 0x20000 0) 0x30000) ∧
    (Claim.leaf 0 (Claim.tableEntry base 0x30000 1) ∧ ¬ Claim.leaf 0 (Claim.tableEntry base 0x30000 0)) ∧
    (Claim.tableEntry base 0x10000 8191).getLsbD 0 = false := by
  unfold Claim.tableOk Claim.pointer Claim.leaf
  decide +kernel
theorem witness_leaf :
    let w := Claim.tableEntry base 0x30000 1
    w.getLsbD 6 = false ∧ w.toNat / 2 ^ 8 % 2 ^ 2 ≠ 3 ∧ placeBase (w.toNat / 2 ^ 10 % 2 ^ 3) = some 0 ∧
      w.toNat / 2 ^ 31 % 2 ^ 25 * 65536 + 65536 ≤ base.populated (w.toNat / 2 ^ 10 % 2 ^ 3) ∧
      partHolds (base.part 0) (w.toNat / 2 ^ 31 % 2 ^ 25 * 65536) 65536 = true ∧ w.getLsbD 7 = false ∧ w.toNat / 2 ^ 13 % 2 ^ 18 = 0 ∧
      (w.getLsbD 5 = true ∧ w.getLsbD 2 = true ∧ w.getLsbD 3 = true) := by
  decide +kernel
/-- Entry 0 of the outbound table gives region 0 eight pages of package 1. -/
def windowed : State := { base with outTable := [(0, [0x401000F, 8])] }
/-- A leaf of a fabric window, its window page 2 to package 1, and no entry of the outbound table for it. -/
theorem witness_FabricLeaf :
    let w : Word := 0x0000400000004000 + 0x40 + 0x2F
    w.getLsbD 6 = true ∧ w.toNat / 2 ^ 10 % 2 ^ 3 = 0 ∧ w.getLsbD 7 = false ∧ w.toNat / 2 ^ 46 % 2 ^ 10 = 1 ∧ w.toNat / 2 ^ 13 % 2 ^ 33 = 2 ∧
      Claim.permits w .p .load ∧ base.outbound 0 1 2 = none ∧ windowed.outbound 0 1 2 = some (true, true, true) :=
  ⟨by decide, by decide, by decide, by decide, by decide, ⟨by decide, by decide⟩, by decide +kernel, by decide +kernel⟩
theorem witness_Translation :
    (Claim.permits 0x13F .p .rmw ∧ ¬ Claim.permits 0x133 .p .store) ∧
    (∃ t, base.strand? 0 = some t ∧ t.seated = true) ∧ (base.switchTo 0).cached 0x10000 = none ∧ base.hostLeaves = [] ∧ base.linkDown 4 0 = false ∧ (∃ w, base.walk 0 0 0 0x10000 = .ok w) ∧
    (full.dies[(0 : Fin 4)]).log ≠ [] ∧ full.act.getLsbD 4 = false ∧ (full.dies[(0 : Fin 4)]).logPosted = 0 ∧
    ({ full with act := 0x10 } : State).act.getLsbD 4 = true ∧
    (let s : State := { base with mem := Memory.writeN base.mem 0x30008 8 ((Claim.tableEntry base 0x30000 1).toNat - 4) }
     (∃ w, s.walk 0 0 0 0x10000 = .ok w) ∧ (s.leafLoc 0 0 .p .load (Claim.tableEntry s 0x30000 1) false 0x10000).toBool = false) ∧
    (({ full with dies := full.dies.set 0 { full.dies[0] with logPosted := 1 } } : State).dies[(0 : Fin 4)]).logPosted ≠ 0 ∧
    ({ base with hostPosts := [.walk 0 0 0x10000 0] } : State).hostPosts.find? (Claim.postedWalk 0 1 false) = some (.walk 0 0 0x10000 0) := by
  refine ⟨⟨⟨by decide, by decide, by decide⟩, ?_⟩, some_spec (by decide +kernel), ?_, ?_, ?_, found (by decide +kernel), ?_, ?_, ?_, ?_, ⟨found (by decide +kernel), ?_⟩, ?_, ?_⟩
  · intro h
    have : (0x133 : Word).getLsbD 3 = true := h.2
    revert this
    decide
  all_goals decide +kernel
/-- An inbound entry for DRID 7 and packages 1 and 2: one page at 0x10000, with every grant. -/
def fab : State := { base with inTable := [(0, [BitVec.ofNat 64 (0xF + 7 * 2 ^ 16 + 2 ^ 32 + 2 * 2 ^ 42), 0x10000, 1, 0])] }
/-- A computation that answers only from the state it began in. -/
def Keeps {α : Type} (m : M α) : Prop := ∀ s a t, m s = .ok a t → t = s
theorem Keeps.raise {α : Type} {c : Nat} {v : Word} {e : Nat} : Keeps (raise c v e : M α) := fun _ _ _ h => by cases h
theorem Keeps.wait {α : Type} {w : Wait} : Keeps (waitFor w : M α) := fun _ _ _ h => by cases h
theorem Keeps.pure {α : Type} {x : α} : Keeps (pure x : M α) := fun _ _ _ h => by injection h with _ h; exact h.symm
theorem Keeps.bind {α β : Type} {m : M α} {f : α → M β} (hm : Keeps m) (hf : ∀ a, Keeps (f a)) : Keeps (m >>= f) := by
  intro s b u h
  cases hr : m s with
  | ok a t =>
    cases hm s a t hr
    rw [M.bind_ok hr] at h
    exact hf a _ _ _ h
  | error x t =>
    rw [M.bind_error hr] at h
    cases h
theorem Keeps.get {β : Type} {f : State → M β} (hf : ∀ a, Keeps (f a)) : Keeps ((MonadState.get : M State) >>= f) := fun s b u h => hf s s b u h
/-- What ends in a wait answers nothing. -/
theorem Keeps.never {α β : Type} {m : M α} {w : Wait} : Keeps (m >>= fun _ => (waitFor w : M β)) := by
  intro s b u h
  cases hr : m s with
  | ok a t => rw [M.bind_ok hr] at h; cases h
  | error x t => rw [M.bind_error hr] at h; cases h
theorem walkKeeps (who partn region : Nat) (acc : Acc) (va : Nat) : Keeps (walkM who partn region acc va) := by
  unfold walkM
  refine Keeps.get fun s => ?_
  split
  · split
    · exact Keeps.never
    · split
      · exact Keeps.wait
      · exact Keeps.pure
  · exact Keeps.pure
theorem reachKeeps (die : Nat) (homes : List Nat) (v : Word) (e : Nat) : Keeps (reach die homes v e) := by
  unfold reach
  refine Keeps.get fun s => ?_
  split
  · exact Keeps.raise
  · split
    · exact Keeps.wait
    · exact Keeps.pure
theorem inboundSame {src drid addr n : Nat} {g : Grant} : Keeps (inboundPlace src drid addr n g) := by
  unfold inboundPlace
  refine Keeps.get fun s => ?_
  split
  · exact Keeps.raise
  · have loc : ∀ r va, Keeps (inboundLoc r g.acc va) := by
      intro r va
      unfold inboundLoc
      refine Keeps.get fun s => ?_
      have rest : Keeps (do
          match ← walkM inboundWho (regionPart (s.regionRec r)) r g.acc va with
          | .error c => raise c 0 0
          | .ok (leaf, large) =>
            match (← get).leafLoc (regionPart (s.regionRec r)) r .p g.acc leaf large va with
            | .error c => raise c 0 0
            | .ok (.remote ..) => raise cXLATE 0 0
            | .ok (.dev fn off) => pure (.dev fn off)
            | .ok (.mem key kind sc) =>
              reach controlDie ((Loc.mem key kind sc).homes (g.acc != .load)) 0 0
              pure (.mem key kind sc) : M Loc) := by
        refine Keeps.bind (walkKeeps _ _ _ _ _) fun x => ?_
        split
        · exact Keeps.raise
        · refine Keeps.get fun s => ?_
          split
          · exact Keeps.raise
          · exact Keeps.raise
          · exact Keeps.pure
          · exact Keeps.bind (reachKeeps _ _ _ _) fun _ => Keeps.pure
      dsimp only
      split
      · exact Keeps.bind Keeps.raise fun _ => rest
      · exact rest
    dsimp only
    split
    · exact Keeps.bind Keeps.raise fun _ => loc _ _
    · exact loc _ _
theorem inboundHere {src drid addr n : Nat} {g : Grant} {s : State} {q : Nat → Option Nat → Bool}
    (h : answers (inboundPlace src drid addr n g) s (fun l _ => match l with | .mem key _ sc => q key sc | _ => false) = true) :
    ∃ key kind sc, Claim.inboundAt s src drid addr n g key kind sc ∧ q key sc = true := by
  obtain ⟨l, u, h1, h2⟩ := answers_spec h
  cases inboundSame _ _ _ h1
  cases l with
  | mem key kind sc => exact ⟨_, _, _, h1, h2⟩
  | dev _ _ => cases h2
  | remote _ _ _ => cases h2
theorem witness_FabricEvents :
    fab.genAccepted 0 = true ∧ fab.genAccepted 1 = false ∧ fab.inbound 3 7 0 .w = none ∧
    (∃ key kind sc, Claim.inboundAt fab 1 7 0xFFF8 8 .w key kind sc ∧ (fab.lineOk key 8 && sc.isNone) = true) ∧
    (∃ key kind sc, Claim.inboundAt fab 2 7 0 4 .a key kind sc ∧ (fab.lineOk key 4 && sc.isNone && key % 4 == 0) = true) ∧
    (∃ key kind sc, Claim.inboundAt fab 2 7 1 8 .r key kind sc ∧ (fab.lineOk key 8 && sc.isNone) = true) ∧ 4 = amoSize (amoCode .add 4) ∧
    (∃ t, (on fab fun t => { t with remote := [{ tag := 9, op := 0, handle := 1, rgen := 0, va := 0, addr := 0, len := 8, owner := 0, answer := none }] }).ownerOf 9 = some t ∧
      (t.sn == 0) = true) ∧ base.ownerOf 9 = none :=
  ⟨by decide +kernel, by decide +kernel, by decide +kernel, inboundHere (by decide +kernel), inboundHere (by decide +kernel), inboundHere (by decide +kernel), by decide,
    some_spec (by decide +kernel), by decide +kernel⟩
/-- A replayed vld.l and three equal strides of its base. -/
def replaying : State :=
  on base fun t => { t with rpl := { t.rpl with body := [(0xA2840003, 0x10000)], bases := [(0, [2, 0, 0x10300, 0x10200, 0x10100])] } }
theorem witness_CoreEvents :
    ((base.mapCore 511 fun k => { k with swapDue := true }).coreOf 511).swapDue = true ∧ base.onchip.wf = true ∧
    (∃ t, replaying.strand? 0 = some t ∧ (t.seated && (t.rpl.body[0]?).any (fun x => x.1 == 0xA2840003) && SMap.getD t.rpl.bases 0 [] == [2, 0, 0x10300, 0x10200, 0x10100]) = true) ∧
    (0x10300 : Word) - 0x10200 = 0x10200 - 0x10100 ∧ (hintForm 0xA2840003).isSome ∧
    ∃ t, (on base fun t => { t with wait := .wakeOrResult }).strand? 0 = some t ∧ (t.wait == .wakeOrResult) = true :=
  ⟨by decide +kernel, by decide +kernel, some_spec (by decide +kernel), by decide, by decide +kernel, some_spec (by decide +kernel)⟩
/-- A command of doublewords. -/
def cmd (dw : List Word) : Command := { dw, mode := .p, addr := 0x10100, core := 0, slot := 0 }
/-- A COPY of x bytes from 0x10200 to 0x10300. -/
def copyCmd (x : Word) : Command := cmd [1, 0x10200, 0x10300, x ||| 0x1000100000000, 0, 0, 0, 0]
/-- The strand's FIFO of a selector. -/
def fifo (s : State) (e : Fin 8) (cmds : List Command) (running : Option Command) (results : List Result) : State :=
  on s fun t => { t with fifo := t.fifo.set e { cmds, running, coll := none, results, paused := false, lines := [] } }
def okResult : Result := { addr := 0x10300, info := 0x8, quiet := false }
def badResult : Result := { addr := 0x10300, info := 0x20000000000, quiet := false }
theorem inOrder (s : State) (h : s.others = []) (h2 : s.cur = some s.st.sn) : Claim.inOrder s := by
  refine ⟨?_, ?_, .inr h2⟩
  · rw [h]
    exact List.Pairwise.nil
  · rw [h]
    intro p hp
    cases hp
theorem witness_EngineFifos :
    let s := g sys [(1, 0x10100)]
    (Claim.catches s ∧ Claim.settled s) ∧ (hand.st.mode = .p ∧ s.st.mode = .s) ∧
    ({ s with diecfg := s.diecfg.set 0 0 } : State).engineOn 0 = false ∧ (Claim.engineOpen s 7 ∧ Claim.engineOpen base 0) ∧ Claim.regsFree s [3, 1] [] ∧
    Claim.outstanding s.st.fifo[(0 : Fin 8)] < 16 ∧ Claim.drainedAll s ∧ (s.g 1).toNat % 64 = 0 ∧
    (∃ key kind sc u, placeM .load (.plain false) (s.g 1).toNat 64 0 s.resuming = .ok [{ loc := .mem key kind sc, at_ := 0, len := 64 }] u ∧
      Claim.unbegun s [{ loc := .mem key kind sc, at_ := 0, len := 64 }] ∧ u.lineOk key 64 = true) ∧
    s.st.issue = none ∧
    16 ≤ Claim.outstanding (fifo s 0 (List.replicate 16 (copyCmd 0)) none []).st.fifo[(0 : Fin 8)] ∧
    (Claim.outstanding (fifo s 0 [copyCmd 0] none []).st.fifo[(0 : Fin 8)] ≠ 0 ∧ (fifo s 0 [copyCmd 0] none []).st.fifo[(0 : Fin 8)].results = []) ∧
    Claim.statusCode okResult = 0 ∧ (Claim.statusCode badResult ≠ 0 ∧ badResult.quiet = false) ∧
    Claim.inOrder (fifo base 0 [copyCmd 0] none []) ∧
    (∃ x, (fifo base 0 [copyCmd 0] none []).headOf { sel := 0, die := 0, sect := none } = some x ∧ (x.2 == copyCmd 0) = true) ∧
    Claim.busy (fifo base 0 [] (some (copyCmd 0)) []) { sel := 0, die := 0, sect := none } ∧
    Claim.offers (fifo base 0 [copyCmd 0] none []) { sel := 0, die := 0, sect := none } (fifo base 0 [copyCmd 0] none []).st (copyCmd 0) := by
  intro s
  refine ⟨⟨?_, ?_⟩, by decide +kernel, by decide +kernel, ?_, regsFree_nil (by decide +kernel) _ _, by decide +kernel, ?_, by decide +kernel, here (by decide +kernel) (by decide +kernel), by decide +kernel,
    by decide +kernel, by decide +kernel, by decide +kernel, by decide +kernel, inOrder _ rfl rfl, some_spec (by decide +kernel), ?_, ?_⟩
  · unfold Claim.catches
    decide +kernel
  · unfold Claim.settled
    decide +kernel
  · unfold Claim.engineOpen
    decide +kernel
  · unfold Claim.drainedAll
    decide +kernel
  · exact ⟨_, List.mem_cons_self .., _, rfl, by decide +kernel⟩
  · exact ⟨List.mem_cons_self .., by decide +kernel, by decide +kernel, by decide +kernel⟩
/-- What the accesses of a command leave alone. -/
def workedB (s w : State) : Bool :=
  w.cur == s.cur && w.st.sn == s.st.sn && w.st.fifo == s.st.fifo && w.st.sched == s.st.sched && w.st.remote == [] && w.st.trains == []
theorem workedB_spec {s w : State} (h : workedB s w = true) : Claim.worked s w := by
  simpa [workedB, Claim.worked, and_assoc] using h
/-- A plane load of an FP64 tile, a PARTITION command, and a conversion of nothing. -/
def planeCmd (src : Word) : Command := cmd [0x1900000001, src, 0, 0x1001000000C00, 0, 0, 0, 0]
def partCmd : Command := cmd [6, 0x100000000, 0, 0, 0, 0x10400, 16, 0]
theorem witness_EngineCommands :
    let s := fifo base 0 [copyCmd 8] none []
    let bad := fifo base 0 [cmd [1, 0x10200, 0x80000, 0x1000100000008, 0, 0, 0, 0]] none []
    (∃ v, Claim.engineEvent base (.copy 0 0) = some v ∧ v.start.headOf v.unit = none) ∧
    (∃ v, Claim.engineEvent s (.copy 0 0) = some v ∧ Claim.atEngine v.start v.unit (copyCmd 8) ∧ v.own v.start.st (copyCmd 8) = true ∧
      ∃ d w, v.body v.start.st (copyCmd 8) ((copyCmd 8).agent v.start.st v.unit.sel) (Claim.atWork v.start) = .ok d w ∧
        (workedB v.start w && (match d with | .done d => decide (d.len < 2 ^ 34) | _ => false)) = true) ∧
    (∃ v, Claim.engineEvent bad (.copy 0 0) = some v ∧
      ∃ q w, v.body v.start.st (cmd [1, 0x10200, 0x80000, 0x1000100000008, 0, 0, 0, 0]) ((cmd []).agent v.start.st v.unit.sel) (Claim.atWork v.start) = .error (.trap q) w ∧
        (workedB v.start w && q.code != 5) = true) ∧
    (let s := fifo base 0 [cmd [2, 0, 0, 0, 0, 0, 0, 0]] none []
     ∃ v, Claim.engineEvent s (.copy 0 0) = some v ∧ ∃ x, v.start.headOf v.unit = some x ∧ (!v.own x.1 x.2) = true) ∧
    (let s := (fifo base 0 [planeCmd 0x10200] none []).mapCore 0 fun k => { k with reserved := some (1, 1) }
     ∃ v, Claim.engineEvent s (.planeLoad 0 0) = some v ∧ Claim.atEngine v.start v.unit (planeCmd 0x10200) ∧ v.own v.start.st (planeCmd 0x10200) = true ∧
      ∃ r w, v.body v.start.st (planeCmd 0x10200) ((planeCmd 0x10200).agent v.start.st v.unit.sel) (Claim.atWork v.start) = .error (.wait r) w) ∧
    (let s : State := { fifo base 4 [partCmd] none [] with act := 4 }
     ∃ v, Claim.engineEvent s (.partition 0) = some v ∧ Claim.atEngine v.start v.unit partCmd ∧ v.own v.start.st partCmd = true ∧
      ∃ d w, v.body v.start.st partCmd (partCmd.agent v.start.st v.unit.sel) (Claim.atWork v.start) = .ok d w ∧
        (workedB v.start w && (match d with | .begun _ => true | _ => false)) = true) := by
  intro s bad
  refine ⟨⟨_, rfl, by decide +kernel⟩, ⟨_, rfl, ?_, by decide +kernel, answers_spec (by decide +kernel)⟩, ⟨_, rfl, stops_spec (by decide +kernel)⟩, ⟨_, rfl, some_spec (by decide +kernel)⟩,
    ⟨_, rfl, ?_, by decide +kernel, pauses_spec (by decide +kernel)⟩, _, rfl, ?_, by decide +kernel, answers_spec (by decide +kernel)⟩ <;>
  exact ⟨rfl, rfl, by decide +kernel, by decide +kernel, by decide +kernel, by decide +kernel, by decide +kernel, by decide +kernel, by decide +kernel⟩
theorem agentSame (a : Agent) (acc : Acc) (va : Nat) : Keeps (agentLoc a acc va) := by
  unfold agentLoc
  refine Keeps.get fun s => ?_
  dsimp only
  split
  · exact Keeps.raise
  · split
    · split
      · exact Keeps.raise
      · split
        · exact Keeps.raise
        · exact Keeps.pure
    · split
      · exact Keeps.wait
      · refine Keeps.bind (walkKeeps _ _ _ _ _) fun x => ?_
        split
        · exact Keeps.raise
        · refine Keeps.get fun s => ?_
          split
          · exact Keeps.raise
          · exact Keeps.raise
          · have ok : ∀ h x k, Keeps (do remapOk h va 0; pure (.remote h x k) : M Loc) := by
              intro h x k
              refine Keeps.bind ?_ fun _ => Keeps.pure
              unfold remapOk
              refine Keeps.get fun s => ?_
              split
              · exact Keeps.raise
              · unfold require
                split
                · exact Keeps.pure
                · exact Keeps.raise
            split
            · exact Keeps.bind Keeps.raise fun _ => ok _ _ _
            · exact ok _ _ _
          · exact Keeps.bind (reachKeeps _ _ _ _) fun _ => Keeps.pure
/-- A place of an engine whose lines can be corrected, without a sidecar. -/
theorem agentHere {a : Agent} {acc : Acc} {va n : Nat} {s : State} (ht : s.st.trains = [])
    (h : answers (agentLoc a acc va) s (fun l _ => match l with | .mem key _ none => s.lineOk key n && key % 8 == va % 8 | _ => false) = true) :
    ∃ key, Claim.agentAt s a acc va key none ∧ Claim.linesOk s key n none ∧ key % 8 = va % 8 := by
  obtain ⟨l, u, h1, h2⟩ := answers_spec h
  cases agentSame a acc va _ _ _ h1
  match l, h2 with
  | .mem key kind none, h2 =>
    rw [Bool.and_eq_true] at h2
    refine ⟨key, ⟨ht, kind, h1⟩, ⟨h2.1, ?_⟩, eq_of_beq h2.2⟩
    intro k hk
    cases hk
def agent0 : Agent := { partn := 0, region := 0, mode := .p, core := 0, op := 8 }
/-- A conversion of one FP32 value to FP64. -/
def cvtCmd : Command := cmd [0x8900000002, 0x10200, 0x10300, 0x1000100000001, 0, 0, 0, 0]
/-- A version without cells of a mesh, and commands on it. -/
def ver0 : MVersion := { num := 0, verts := [], cells := [], entries := [], holds := 1 }
def mesh0 : Mesh :=
  { partn := 0, handle := 0, region := 0, dim := 2, kb := 1, maxLvl := 1, arena := 0, asize := 0, lo := [], hi := [], current := 0, versions := [ver0] }
def meshed : State := { base with meshes := [mesh0] }
theorem meshSame {c : Command} {a : Agent} {s t : State} {m : Mesh} (h : meshOf c a s = .ok m t) : t = s := by
  unfold meshOf at h
  rw [M.get_bind] at h
  cases hf : s.meshes.find? fun m => m.partn == a.partn && m.handle == bits c.spec 15 0 && m.region == a.region with
  | some x =>
    rw [hf] at h
    cases h
    rfl
  | none =>
    rw [hf] at h
    cases h
theorem versionSame {c : Command} {m : Mesh} {n : Nat} {s t : State} {v : MVersion} (h : versionOf c m n s = .ok v t) : t = s := by
  unfold versionOf at h
  cases hf : m.versions.find? fun v => v.num == n with
  | some x =>
    rw [hf] at h
    cases h
    rfl
  | none =>
    rw [hf] at h
    cases h
theorem onMesh {c : Command} {a : Agent} {s : State} {q : MVersion → Bool}
    (h : answers (do let m ← meshOf c a; versionOf c m ((c.w 1).toNat % 2 ^ 32)) s (fun v _ => q v) = true) :
    ∃ m v, meshOf c a s = .ok m s ∧ versionOf c m ((c.w 1).toNat % 2 ^ 32) s = .ok v s ∧ q v = true := by
  unfold answers at h
  cases hm : meshOf c a s with
  | error e t =>
    rw [M.bind_error hm] at h
    cases h
  | ok m t =>
    have := meshSame hm
    subst this
    rw [M.bind_ok hm] at h
    cases hv : versionOf c m ((c.w 1).toNat % 2 ^ 32) t with
    | error e u =>
      rw [hv] at h
      cases h
    | ok v u =>
      have := versionSame hv
      subst this
      rw [hv] at h
      exact ⟨m, v, rfl, hv, h⟩
/-- A follow-on due on core 0: an FP64 plane of one K-row, its stream at 0x10200, its command running. -/
def followCmd (desc : Word) : Command := cmd [0x1900000001, 0x10200, 0, 0x1001000000C00, 0, 0, desc, 0xC0]
def following (desc : Word) : State :=
  let s := fifo base 0 [] (some (followCmd desc)) []
  { s with
    mem := Memory.writeN (Memory.writeN s.mem 0x40208 8 200) 0x40210 8 0x10300
    cores := SMap.put s.cores 0 { s.myCore with
      followOn := some (0, 0), shadow := { valid := true, fmt := 6, n := 1, sw := .replicate 64 0x3F80 }
      tiles := s.myCore.tiles.set 0 { s.myCore.tiles[0] with kind := 2 } } }
/-- A MEMCOLL of one element whose collective is over. -/
def memCmd : Command := cmd [3, 0x10200, 0x10300, 5, 1, 0, 0, 0]
def gathering (fate : CollFate) : State :=
  on base fun t => { t with fifo := t.fifo.set 6 { cmds := [], running := some memCmd, results := [], paused := false, lines := [], coll := some { gid := 5, gen := 1, seq := 1, rank := 0, size := 1, root := 0, k := 1, fate } } }
def gathered : CollFate :=
  .kept [{ gid := 5, gen := 1, form := 1, seq := 1, rank := 0, a := headerA memCmd.colKind 1 1, b := 1, elems := [⟨7, 0xFFFF⟩], idx := [] }]
/-- A PARTITION command posted to the host. -/
def posted (ms : List Mesh) : State := { fifo { base with meshes := ms } 4 [] (some partCmd) [] with hostPosts := [.topo 0 partCmd.dw] }
/-- Its state when the host's result has come. -/
def unposted (ms : List Mesh) : State := { (posted ms).pruneMeshes with hostPosts := [] }
theorem witness_CommandsThatWaited :
    let u : EngineUnit := { sel := 0, die := coreDie 0, sect := none }
    let v : EngineUnit := { sel := 4, die := coreDie 0, sect := none }
    ((following 0x10200).coreOf 0).followOn = some ((following 0x10200).st.sn, 0) ∧ Claim.commandRuns (following 0x10200) u (followCmd 0x10200) ∧
    (∃ d w, followBody (followCmd 0x10200) ((followCmd 0x10200).agent (following 0x10200).st 0) (Claim.atWork (following 0x10200)) = .ok d w ∧
      (workedB (following 0x10200) w && (match d with | .done d => decide (d.len < 2 ^ 34) | _ => false)) = true) ∧
    (∃ q w, followBody (followCmd 0x80000) ((followCmd 0x80000).agent (following 0x80000).st 0) (Claim.atWork (following 0x80000)) = .error (.trap q) w ∧
      (workedB (following 0x80000) w && q.code != 5) = true) ∧
    (posted [mesh0]).pruneMeshes.runningOf v = [((unposted [mesh0]).st, partCmd)] ∧ Claim.commandRuns (unposted [mesh0]) v partCmd ∧
    (∃ d w, partitionBody (unposted [mesh0]).st partCmd (partCmd.agent (unposted [mesh0]).st 4) (Claim.atWork (unposted [mesh0])) = .ok d w ∧
      (workedB (unposted [mesh0]) w && (match d with | .done d => decide (d.len < 2 ^ 34) | _ => false)) = true) ∧
    (∃ q w, partitionBody (unposted []).st partCmd (partCmd.agent (unposted []).st 4) (Claim.atWork (unposted [])) = .error (.trap q) w ∧
      (workedB (unposted []) w && q.code != 5) = true) ∧
    (let s : State := { following 0x11200 with rrs := BitVec.ofNat 64 (0x3FF * 2 ^ 32) }
     Claim.commandRuns s u (followCmd 0x11200) ∧
      ∃ r w, followBody (followCmd 0x11200) ((followCmd 0x11200).agent s.st 0) (Claim.atWork s) = .error (.wait r) w) ∧
    (∀ f ∈ [gathered, .lost], let s := gathering f
      let k : CollAt := { gid := 5, gen := 1, seq := 1, rank := 0, size := 1, root := 0, k := 1, fate := f }
      (s.st.fifo[(6 : Fin 8)]).coll = some k ∧ s.collOver k = true ∧ s.runningOf { sel := 6, die := coreDie 0, sect := none } = [(s.st, memCmd)] ∧
        Claim.commandRuns s { sel := 6, die := coreDie 0, sect := none } memCmd) ∧
    (∃ d w, memcollEnd { gid := 5, gen := 1, seq := 1, rank := 0, size := 1, root := 0, k := 1, fate := gathered } (gathering gathered).st memCmd
        (memCmd.agent (gathering gathered).st 6) (Claim.atWork (gathering gathered)) = .ok d w ∧
      (workedB (gathering gathered) w && (match d with | .done d => decide (d.len < 2 ^ 34) | _ => false)) = true) ∧
    ∃ q w, memcollEnd { gid := 5, gen := 1, seq := 1, rank := 0, size := 1, root := 0, k := 1, fate := .lost } (gathering .lost).st memCmd
        (memCmd.agent (gathering .lost).st 6) (Claim.atWork (gathering .lost)) = .error (.trap q) w ∧
      (workedB (gathering .lost) w && q.code != 5) = true := by
  intro u v
  refine ⟨by decide +kernel, ?_, answers_spec (by decide +kernel), stops_spec (by decide +kernel), by decide +kernel, ?_, answers_spec (by decide +kernel),
    stops_spec (by decide +kernel), ⟨?_, pauses_spec (by decide +kernel)⟩, ?_, answers_spec (by decide +kernel), stops_spec (by decide +kernel)⟩
  all_goals
    unfold Claim.commandRuns
    decide +kernel
theorem witness_CopyCommands :
    (copyOk (copyCmd 0) = true ∧ (copyCmd 0).code = 1 ∧ (copyCmd 0).geo.x * (copyCmd 0).geo.y * (copyCmd 0).geo.z = 0) ∧
    (let c := copyCmd 8;
      copyOk c = true ∧ c.geo.y = 1 ∧ c.geo.z = 1 ∧ 0 < c.geo.x ∧ c.geo.dst % 8 + c.geo.x ≤ 8 ∧ headLen c.geo.src c.geo.x = c.geo.x) ∧
    (∃ k, Claim.agentAt base agent0 .load 0x10200 k none ∧ Claim.linesOk base k 8 none ∧ k % 8 = 0x10200 % 8) ∧
    (∃ k, Claim.agentAt base agent0 .load 0x10200 k none ∧ Claim.linesOk base k 4 none ∧ k % 8 = 0x10200 % 8) ∧
    (∃ k, Claim.agentAt base agent0 .store 0x10300 k none ∧ Claim.linesOk base k 8 none ∧ k % 8 = 0x10300 % 8) ∧
    (planeOk (planeCmd 0x7FFFFFF0000000) = true ∧ (base.coreOf 0).owner = (planeCmd 0x7FFFFFF0000000).slot ∧
      (base.coreOf 0).reserved = none ∧ base.planeLoading 0 = false ∧
      (((base.mapCore 0 fun k => { k with owner := 1 }).coreOf 0).owner ≠ (planeCmd 0x7FFFFFF0000000).slot) ∧
      (let s := base.mapCore 0 fun k => { k with reserved := some (1, 1) }
       (s.coreOf 0).owner = (planeCmd 0x7FFFFFF0000000).slot ∧ (s.coreOf 0).reserved ≠ none ∧ (s.coreOf 0).reserved ≠ some (0, agent0.op / 8 - 1)) ∧
      (∃ xs w, readColumns agent0 (planeCmd 0x7FFFFFF0000000).geo ((base.settleSwap 0).mapCore 0 fun k => { k with reserved := some (0, 0) }) = .ok xs w ∧
        true = true) ∧
      ∃ q w, readColumns agent0 (planeCmd 0x80000).geo ((base.settleSwap 0).mapCore 0 fun k => { k with reserved := some (0, 0) }) = .error (.trap q) w ∧
        (q.code == 3) = true) ∧
    (convertKind cvtCmd = some (.f32, .f64, .rne, false) ∧ headLen cvtCmd.geo.src 4 = 4 ∧ headLen cvtCmd.geo.dst 8 = 8 ∧ cvtCmd.geo.src % 4 = 0 ∧
      cvtCmd.geo.dst % 8 = 0) ∧
    (compactOk (cmd [3, 0x10200, 0x10300, 0, 0, 0, 0, 0]) = true ∧ ∃ x w, agentWrite agent0 0x10300 2 0 .int base = .ok x w ∧ true = true) ∧
    (remapCmdOk (cmd [4, 0x10200, 0x10300, 0, 0, 0, 0, 0]) = true ∧ ∃ r w, agentWords agent0 0x10200 4 base = .ok r w ∧
      (addrOk (nth r 0 0) && addrOk (nth r 1 0) && decide ((nth r 2 0).toNat % 2 ^ 32 = 0)) = true) ∧
    (let c := cmd [5, 0x10200, 0x10300, 1, 0x1800000000, 0x10400, 0, 0];
      (c.w 3).toNat / 2 ^ 32 = 0 ∧ 1 ≤ (c.w 3).toNat % 2 ^ 32 ∧ (24 * ((c.w 3).toNat % 2 ^ 32 : Nat) : Int) ≤ stride32 (c.w 4) 63 32) ∧
    [4, 4][1]? = some 4 := by
  refine ⟨by decide +kernel, by decide +kernel, agentHere rfl (by decide +kernel), agentHere rfl (by decide +kernel), agentHere rfl (by decide +kernel),
    ⟨by decide +kernel, by decide +kernel, by decide +kernel, by decide +kernel, by decide +kernel, by decide +kernel, answers_spec (p := fun _ _ => true) (by decide +kernel), stops_spec (by decide +kernel)⟩, by decide +kernel,
    ⟨by decide +kernel, answers_spec (p := fun _ _ => true) (by decide +kernel)⟩, ⟨by decide +kernel, answers_spec (by decide +kernel)⟩, by decide +kernel, rfl⟩
theorem zeros_spec {l : List Word} (h : (l.all fun x => x == 0) = true) : ∀ x ∈ l, x = 0 := fun x hx => eq_of_beq (List.all_eq_true.mp h x hx)
def holdCmd : Command := cmd [4, 0, 0, 0, 0, 0, 0, 0]
/-- CREATE of group 5 of the strand whose MID stands at 0x10100, and DESTROY of it. -/
def makeCmd : Command := cmd [1, 0x10100, 0x100000005, 0, 0, 0, 0, 0]
theorem witness_TableCommands :
    (holdRule holdCmd = true ∧ ∃ m v, meshOf holdCmd agent0 meshed = .ok m meshed ∧ versionOf holdCmd m ((holdCmd.w 1).toNat % 2 ^ 32) meshed = .ok v meshed ∧
      (decide (0 < v.holds) && decide (v.holds < 65535)) = true) ∧
    ((holdCmd.w 0).toNat / 2 ^ 48 = 0 ∧ (∀ x ∈ holdCmd.dw.drop 1, x = 0) ∧ ∀ v ∈ mesh0.versions, meshed.boundTo mesh0.partn mesh0.handle v.num = false) ∧
    holdCmd.dw = [holdCmd.w 0, holdCmd.w 1, 0, 0, 0, 0, 0, 0] ∧
    (makeCmd.code = 1 ∧ (makeCmd.w 0).toNat / 2 ^ 32 = 0 ∧ addrOk (makeCmd.w 1) = true ∧ (makeCmd.w 2).toNat / 2 ^ 32 = 1 ∧ (∀ x ∈ makeCmd.dw.drop 4, x = 0) ∧
      ∃ mids w, (upTo 1).mapM (fun i => agentRead agent0 ((makeCmd.w 1).toNat + 4 * i) 4) base = .ok mids w ∧
        (mids == [0] && (w.strand? 0).any fun u => u.live && regionDrid (w.regionRec u.region) == regionDrid (w.regionRec 0)) = true) ∧
    ((∀ x ∈ (cmd [2, 5, 0, 0, 0, 0, 0, 0]).dw.drop 2, x = 0) ∧ (grouped grp 1).group? 5 = some grp ∧
      ∃ h, (grouped grp 1).st.q[(7 : Fin 8)] = some h ∧ h.gid = 5 ∧ h.gen < 2 ^ 32) ∧
    (restZero (cmd [1, 0, 0, 0, 0, 0, 0, 0]) 1 = true ∧ ∀ u ∈ base.strands, u.live = true → u.partn = 0 → u.uncopied = true → coreDie u.sched.shadowAt.1 ≠ 0) ∧
    (restZero (cmd [2, 0, 0x10300, 0, 0, 0, 0, 0]) 3 = true ∧ (∃ t, base.strand? 0 = some t ∧ (t.partn == 0) = true) ∧
      ∃ x w, agentWrite agent0 0x10300 8 1 .int base = .ok x w ∧ true = true) :=
  ⟨⟨by decide +kernel, onMesh (by decide +kernel)⟩, ⟨by decide +kernel, zeros_spec (by decide +kernel), by decide +kernel⟩, by decide +kernel,
    ⟨by decide +kernel, by decide +kernel, by decide +kernel, by decide +kernel, zeros_spec (by decide +kernel), answers_spec (by decide +kernel)⟩,
    ⟨zeros_spec (by decide +kernel), by decide +kernel, _, rfl, rfl, by decide⟩, ⟨by decide +kernel, by decide +kernel⟩,
    ⟨by decide +kernel, some_spec (by decide +kernel), answers_spec (p := fun _ _ => true) (by decide +kernel)⟩⟩
theorem witness_EngineWork : (copyOk (copyCmd 8) && holdRule holdCmd) = true := by decide +kernel
/-- A triangle with corners (0, 0), (1, 0), (0, 1): its record at 0x12200, vertices at 0x12300, cell at 0x12380; its
arena at the start of scratch. -/
def triangle : State :=
  let one := 0x3FF0000000000000
  let put := fun (m : Memory) (x : Nat × Nat) => Memory.writeN m (0x40000 + x.1) 8 x.2
  { base with mem := ([(0x2200, 2 + 2 ^ 32 + 2 ^ 40), (0x2208, 3 + 2 ^ 32), (0x2210, 0x12300), (0x2218, 0x12380), (0x2220, 0x7FFFFFF0000000),
      (0x2228, 0x10000), (0x2258, one), (0x2260, one), (0x2318, one), (0x2338, one),
      (0x2380, 2 ^ 32), (0x2388, 2 + 0xFFFFFFFF * 2 ^ 32)] : List (Nat × Nat)).foldl put base.mem }
def triCmd : Command := cmd [1, 0x12200, 0, 0, 0, 0, 0, 0]
/-- What CREATE reads: the record, the vertices, the cell; and that it passes. -/
def triReads (s : State) : Bool :=
  match agentWords agent0 0x12200 16 s with
  | .error .. => false
  | .ok w u1 =>
    let d := fun i => nth w i 0
    createFields w && (d 1).toNat % 2 ^ 32 == 3 && (d 1).toNat / 2 ^ 32 == 1 && u1.meshes.isEmpty && decide (4096 + 64 + 96 ≤ (d 5).toNat) &&
    match agentWords agent0 (d 2).toNat 9 u1 with
    | .error .. => false
    | .ok xyz u2 =>
      match readList agent0 4 (d 3).toNat 4 u2 with
      | .error .. => false
      | .ok ids _ => ids == [0, 1, 2, 0xFFFFFFFF] && geometryOk 2 3 [d 8, d 9, d 10] [d 11, d 12, d 13]
          ((List.range 3).map fun i => [nth xyz (3 * i) 0, nth xyz (3 * i + 1) 0, 0]) [ids]
/-- Commands on the mesh without cells: EXPORT of its offsets, ADAPT without marks, PARTITION into one part. -/
def exportCmd : Command := cmd [3, 0, 0, 0, 0x10200, 0, 0, 0]
def adaptCmd : Command := cmd [2, 0, 0, 0, 0, 0, 0, 0]
def splitCmd : Command := cmd [6, 2 ^ 32, 0, 0, 0, 0x10400, 16, 0]
theorem witness_TopologyCommands :
    (triCmd.code = 1 ∧ (triCmd.w 0).toNat / 2 ^ 32 = 0 ∧ addrOk (triCmd.w 1) = true ∧ (triCmd.w 1).toNat % 128 = 0 ∧ (∀ x ∈ triCmd.dw.drop 2, x = 0) ∧
      triReads triangle = true ∧ triReads { triangle with mem := Memory.writeN triangle.mem 0x42318 8 0 } = false) ∧
    (∃ x w, fillArena agent0 0x7FFFFFF0000000 532 triangle = .ok x w ∧ true = true) ∧
    ((exportCmd.w 0).toNat / 2 ^ 48 = 0 ∧ (exportCmd.w 1).toNat / 2 ^ 32 = 0 ∧ exportCmd.dw.length = 8 ∧
      (∀ x ∈ [exportCmd.w 2, exportCmd.w 3, exportCmd.w 4, exportCmd.w 5], addrOk x = true ∧ x.toNat % 8 = 0) ∧ mesh0.dim = 2 ∧
      (∃ m v, meshOf exportCmd agent0 meshed = .ok m meshed ∧ versionOf exportCmd m ((exportCmd.w 1).toNat % 2 ^ 32) meshed = .ok v meshed ∧ true = true) ∧
      ∃ x w, (([exportCmd.w 2, exportCmd.w 3, exportCmd.w 4, exportCmd.w 5].zip (Claim.exportArrays mesh0 ver0)).filter fun x => x.1 != 0).forM
        (fun x => writeList agent0 x.2.1 x.1.toNat x.2.2) meshed = .ok x w ∧ true = true) ∧
    (adaptRule adaptCmd = true ∧ (∃ x, adaptMesh mesh0 ver0 [] = some x ∧ (x.version.num == 1) = true) ∧
      (∃ r w, readMarks agent0 0 0 0 meshed = .ok r w ∧ (r == []) = true) ∧ ver0.num = mesh0.current ∧ mesh0.asize < 4096) ∧
    ((∀ x ∈ [splitCmd.w 2, splitCmd.w 3, splitCmd.w 4, splitCmd.w 5], addrOk x = true) ∧ 1 ≤ (splitCmd.w 1).toNat / 2 ^ 32 % 2 ^ 16 ∧
      (splitCmd.w 1).toNat / 2 ^ 48 = 0 ∧ (splitCmd.w 6).toNat = 16 ∧ partJobs ver0.entries [] (partOwners 1 ver0.cells []) = [] ∧
      ∃ x w, writeList agent0 8 (splitCmd.w 5).toNat [0, 0] meshed = .ok x w ∧ true = true) := by
  refine ⟨⟨rfl, by decide, by decide +kernel, by decide, zeros_spec (by decide +kernel), by decide +kernel, by decide +kernel⟩, answers_spec (p := fun _ _ => true) (by decide +kernel),
    ⟨by decide +kernel, by decide +kernel, rfl, fun x h => by simpa using (List.all_eq_true (p := fun x => addrOk x && x.toNat % 8 == 0)).mp (by decide +kernel) x h, rfl, ?_, answers_spec (p := fun _ _ => true) (by decide +kernel)⟩,
    ⟨by decide +kernel, some_spec (by decide +kernel), answers_spec (by decide +kernel), by decide, by decide⟩,
    List.all_eq_true.mp (by decide +kernel), by decide, by decide, by decide, by decide +kernel, answers_spec (p := fun _ _ => true) (by decide +kernel)⟩
  exact onMesh (by decide +kernel)
/-- A COPY of 24 bytes to an odd place goes piece by piece; a conversion of two values is not of one; segments, old indices and bands. -/
theorem witness_EngineBodies :
    (let c := cmd [1, 0x10200, 0x10301, 0x1000100000018, 0, 0, 0, 0]; copyOk c = true ∧ c.code = 1 ∧ c.geo.x * c.geo.y * c.geo.z ≠ 0) ∧
    (let c := cmd [0x8900000002, 0x10200, 0x10300, 0x1000100000002, 0, 0, 0, 0]; convertKind c = some (.f32, .f64, .rne, false) ∧ c.geo.x * c.geo.y * c.geo.z ≠ 0) ∧
    convertKind (cmd [0x7F00000002, 0x10200, 0x10300, 0x1000100000002, 0, 0, 0, 0]) = none ∧
    compactOk (cmd [3, 0x10200, 0x10300, 0x100000004, 0, 0, 0, 0]) = true ∧
    (let c := cmd [5, 0x10200, 0x10300, 0x4100000001, 0x1800000000, 0x10400, 0, 0];
      (c.w 0).toNat / 2 ^ 32 = 0 ∧ addrOk (c.w 1) = true ∧ addrOk (c.w 2) = true ∧ addrOk (c.w 5) = true ∧ c.w 6 = 0 ∧ c.w 7 = 0 ∧
      (c.w 3).toNat / 2 ^ 48 = 0 ∧ 1 ≤ (c.w 3).toNat % 2 ^ 32 ∧ (24 * ((c.w 3).toNat % 2 ^ 32 : Nat) : Int) ≤ stride32 (c.w 4) 63 32 ∧
      (c.w 3).toNat / 2 ^ 32 = 65) ∧
    (∃ k, Claim.agentAt base agent0 .load 0x10204 k none ∧ Claim.linesOk base k 4 none ∧ k % 8 = 0x10204 % 8) ∧
    (∃ k, Claim.agentAt base agent0 .store 0x10304 k none ∧ Claim.linesOk base k 4 none ∧ k % 8 = 0x10304 % 8) ∧
    0x10304 % 8 + 4 ≤ 8 ∧ headLen 0x10204 4 = 4 ∧ Claim.sideReached base agent0.die none :=
  ⟨by decide +kernel, by decide +kernel, by decide +kernel, by decide +kernel, by decide +kernel, agentHere rfl (by decide +kernel),
    agentHere rfl (by decide +kernel), by decide, by decide, fun _ h => by cases h⟩
/-- A core whose matrix issue is held; a CREATE that runs, its group held by every member package. -/
def creating : State :=
  on (grouped grp 1) fun t => { t with fifo := t.fifo.set 6 { cmds := [], running := some makeCmd, coll := none, results := [], paused := false, lines := [] } }
theorem witness_HeldAndCreated :
    (base.mapCore 3 fun k => { k with holdMx := true }).arrayHeld 3 = true ∧ base.arrayHeld 3 = false ∧
    creating.runningOf { sel := 6, die := coreDie 0, sect := none } = [(creating.st, makeCmd)] ∧ makeCmd.code = 1 ∧
    (∃ x, creating.group? ((makeCmd.w 2).toNat % 2 ^ 32) = some x ∧ (x.holders == []) = true) ∧
    Claim.commandRuns creating { sel := 6, die := coreDie 0, sect := none } makeCmd := by
  refine ⟨by decide +kernel, by decide +kernel, by decide +kernel, by decide +kernel, some_spec (by decide +kernel), ?_⟩
  unfold Claim.commandRuns
  decide +kernel
theorem only_group (s : State) (x : Group) (h : s.groups = [x]) (gid : Nat) : ∀ y ∈ s.groups, y.gid = gid → y = x := by
  rw [h]
  intro y hy _
  exact List.mem_singleton.mp hy
/-- A formation of the group with a join and a leave asked for, and one whose NEWGEN is out. -/
def forming : Group := { grp with phase := 1, reqs := [(0, 1), (1, 0)] }
def renewing (next waiting : List Nat) : Group := { grp with phase := 2, next, waiting }
theorem witness_MembershipEvents :
    let s := grouped grp 1
    (s.group? 5 = some grp ∧ (∀ y ∈ s.groups, y.gid = 5 → y = grp)) ∧
    (s.genAccepted 1 = false ∧ s.genAccepted 0 = true ∧ (0 < grp.gen ∧ (5, 0, 0, 1) ∉ s.committed) ∧ s.group? 6 = none) ∧
    ((∃ c ∈ (waits 1 0).contribs, Claim.names c 5 1 0 1 0) ∧ (5, 1, 0, 1) ∉ s.committed ∧ s.contribs = [] ∧ ({ waits 1 0 with committed := [] } : State).committed = []) ∧
    (s.isHome grp = true ∧ grp.phase ≠ 2 ∧ grp.members.length = 1 ∧ s.isHome { grp with phase := 3 } = false ∧ 2 ≠ grp.gen) ∧
    (({ grp with settled := false } : Group).settled = false ∧ grp.phase ≠ 3 ∧ grp.settled = true ∧ grp.home = s.handle.toNat ∧ 1 ≠ grp.region) ∧
    forming.phase = 1 ∧ forming.members.Pairwise (· < ·) ∧
    ((grouped forming 1).act.getLsbD 3 = false ∧ (grouped forming 1).hostPosts = []) ∧ ({ grouped forming 1 with act := 8 } : State).act.getLsbD 3 = true ∧
    (.members 5 forming.reqs : HostPost) ∈ ({ grouped forming 1 with hostPosts := [.members 5 forming.reqs] } : State).hostPosts ∧
    ((∀ m ∈ ([] : List Nat), (1, m) ∉ forming.reqs ∧ (2, m) ∉ forming.reqs) ∧ ([] : List Nat).Pairwise (· < ·) ∧ (1, 0) ∈ forming.reqs) ∧
    (s.handle.toNat * 65536 < 2 ^ 26 ∧ s.handle.toNat * 65536 / 65536 = s.handle.toNat ∧ ∃ t, s.strand? (s.handle.toNat * 65536 % 65536) = some t ∧ (t.sn == 0) = true) ∧
    ({ grp with phase := 3 } : Group).phase = 3 ∧ ({ grp with members := [65536] } : Group).home ≠ s.handle.toNat ∧ 1 ∈ ({ grp with holders := [1] } : Group).holders ∧
    (0 ∈ (renewing [0] [0, 1]).waiting ∧ ((renewing [0] [0, 1]).waiting.filter fun p => p ≠ 0) ≠ []) ∧
    (((renewing [0] [0]).waiting.filter fun p => p ≠ 0) = [] ∧ ({ renewing [0] [0] with members := [0] } : Group).home = s.handle.toNat) ∧
    (renewing [] [0]).next = [] ∧
    (1 ∈ (renewing [0, 65536] [1]).waiting ∧ 1 ≠ s.handle.toNat ∧ ((renewing [0, 65536] [1]).waiting.filter fun p => p ≠ 1) = [] ∧
      ((renewing [0, 65536] [1]).next.filter fun m => m / 65536 % 1024 ≠ 1) = [0]) := by
  intro s
  refine ⟨⟨by decide +kernel, only_group _ _ rfl 5⟩, by decide +kernel, ⟨⟨_, List.mem_cons_self .., ?_⟩, by decide +kernel, by decide +kernel, rfl⟩,
    by decide +kernel, by decide +kernel, by decide +kernel, by decide +kernel, by decide +kernel, by decide +kernel, List.mem_singleton.mpr rfl, by decide +kernel,
    ⟨by decide +kernel, by decide +kernel, some_spec (by decide +kernel)⟩, by decide +kernel⟩
  unfold Claim.names
  decide +kernel
/-- Room for a launch: a second frame; its record at 0x11000, asking for one strand, its fault ring at 0x12000 and its roster at 0x11100. -/
def launching (flog : Word) (act : BitVec 7) : State :=
  let put := fun (m : Memory) (a : Nat) (l : List Nat) => l.zipIdx.foldl (fun m x => Memory.writeN m (a + 8 * x.2) 8 x.1) m
  let m := put base.mem 0x41000 [0x11100, 0, 7, flog.toNat, 1, 0, 0, 0]
  let m := put m 0x41100 [2 ^ 32 + 1, 0, 0, 0, 2 ^ 48, 0, 0x10000, 1]
  { base with
    mem := m, act, saveArea := [(0, [0, 2, 0, 0])]
    fns := base.fns.set 0 { base.fns[0] with launches := [(0x11000, 0)] } }
/-- The binder's answer, and STATUS written after it. -/
def bindsB (s : State) (m : M Launch) : Bool :=
  match m s.asControl with
  | .ok l w => (match binderStore l (l.recordAddr + 56) 8 l.status (w.dropLaunch 0) with | .ok .. => true | .error .. => false)
  | .error .. => false
def refusesB (s : State) (m : M Launch) : Bool :=
  match m s.asControl with
  | .error (.trap q) _ =>
    (match binderStore (launchOf 0 0 0 0x11000 []) (0x11000 + 56) 8 (Claim.faulted q) (s.asControl.dropLaunch 0) with | .ok .. => true | .error .. => false)
  | _ => false
theorem binds_spec {s : State} {m : M Launch} (h : bindsB s m = true) :
    ∃ l w x, m s.asControl = .ok l w ∧ binderStore l (l.recordAddr + 56) 8 l.status (w.dropLaunch 0) = .ok () x := by
  unfold bindsB at h
  cases hb : m s.asControl with
  | error e t =>
    rw [hb] at h
    cases h
  | ok l w =>
    rw [hb] at h
    cases hs : binderStore l (l.recordAddr + 56) 8 l.status (w.dropLaunch 0) with
    | ok _ x => exact ⟨l, w, x, rfl, hs⟩
    | error e t =>
      simp only [hs] at h
      cases h
theorem refuses_spec {s : State} {m : M Launch} (h : refusesB s m = true) :
    ∃ q w x, m s.asControl = .error (.trap q) w ∧
      binderStore (launchOf 0 0 0 0x11000 []) (0x11000 + 56) 8 (Claim.faulted q) (s.asControl.dropLaunch 0) = .ok () x := by
  unfold refusesB at h
  cases hb : m s.asControl with
  | ok l w =>
    rw [hb] at h
    cases h
  | error e t =>
    rw [hb] at h
    cases e with
    | wait _ => cases h
    | trap q =>
      cases hs : binderStore (launchOf 0 0 0 0x11000 []) (0x11000 + 56) 8 (Claim.faulted q) (s.asControl.dropLaunch 0) with
      | ok _ x => exact ⟨q, t, x, rfl, hs⟩
      | error e t =>
        simp only [hs] at h
        cases h
/-- The roster that the checks of the launch give, and the launch with it posted to the host. -/
def formedRoster : Launch := match Claim.formed? 0 0x11000 0 (launching 0x12000 2).asControl with | .ok l _ => l | .error .. => ln
def hosted : State := { launching 0x12000 2 with hostPosts := [.placement 0 0x11000 formedRoster] }
theorem witness_LaunchEvents :
    let s := launching 0x12000 0
    let bad := launching 0x12001 0
    (s.phase = .ready ∧ (s.fns[fnIx 0]).launches = (0x11000, 0) :: [] ∧ s.act.getLsbD 1 = false) ∧
    (∃ l w x, Claim.bound? 0 0x11000 0 none s.asControl = .ok l w ∧ binderStore l (l.recordAddr + 56) 8 l.status (w.dropLaunch 0) = .ok () x) ∧
    (∃ q w x, Claim.bound? 0 0x11000 0 none bad.asControl = .error (.trap q) w ∧
      binderStore (launchOf 0 0 0 0x11000 []) (0x11000 + 56) 8 (Claim.faulted q) (bad.asControl.dropLaunch 0) = .ok () x) ∧
    ((launching 0x12000 2).act.getLsbD 1 = true ∧ (launching 0x12000 2).posted 0 0x11000 = none ∧
      ∃ l w, Claim.formed? 0 0x11000 0 (launching 0x12000 2).asControl = .ok l w ∧ (l.houses.length == 1) = true) ∧
    (∃ q w x, Claim.formed? 0 0x11000 0 (launching 0x12001 2).asControl = .error (.trap q) w ∧
      binderStore (launchOf 0 0 0 0x11000 []) (0x11000 + 56) 8 (Claim.faulted q) ((launching 0x12001 2).asControl.dropLaunch 0) = .ok () x) ∧
    (hosted.phase = .ready ∧ (hosted.fns[fnIx 0]).launches = (0x11000, 0) :: [] ∧ hosted.posted 0 0x11000 = some formedRoster) ∧
    (∃ l w x, bindLaunch formedRoster (some [0]) hosted.asControl = .ok l w ∧ binderStore l (l.recordAddr + 56) 8 l.status (w.dropLaunch 0) = .ok () x) ∧
    (∃ q w x, bindLaunch formedRoster (some []) hosted.asControl = .error (.trap q) w ∧
      binderStore (launchOf 0 0 0 0x11000 []) (0x11000 + 56) 8 (Claim.faulted q) (hosted.asControl.dropLaunch 0) = .ok () x) ∧
    (Claim.inOrder s ∧ (∀ x ∈ s.launches, x.lid ≤ s.lids) ∧
      ∃ l w, bindLaunch { ln with lid := 0, live := false, insts := [] } none s = .ok l w ∧ (l.insts.all fun x => x.strand == some 1) = true) := by
  intro s bad
  exact ⟨by decide +kernel, binds_spec (by decide +kernel), refuses_spec (by decide +kernel), ⟨by decide +kernel, by decide +kernel, answers_spec (by decide +kernel)⟩,
    refuses_spec (by decide +kernel), ⟨by decide +kernel, by decide +kernel, rfl⟩, binds_spec (by decide +kernel), refuses_spec (by decide +kernel),
    inOrder _ rfl rfl, by decide +kernel, answers_spec (by decide +kernel)⟩
theorem peopled_spec {s : State} {l : Launch} (h : (l.insts.all fun x => x.strand.all fun sn => s.isHere l x.pkg && (s.strand? sn).isSome) = true) :
    Claim.peopled s l := by
  intro x hx sn hs
  have := List.all_eq_true.mp h x hx
  rw [hs] at this
  simp only [Option.all_some, Bool.and_eq_true] at this
  exact ⟨this.1, Option.isSome_iff_exists.mp this.2⟩
theorem parents_spec {l : Launch} (h : (l.insts.zipIdx.all fun x => x.1.parent.all fun p => decide (p < x.2)) = true) :
    ∀ (i : Nat) (x : Inst) (p : Nat), l.insts[i]? = some x → x.parent = some p → p < i := by
  intro i x p hi hp
  have := List.all_eq_true.mp h (x, i) (by rwa [List.mem_zipIdx_iff_getElem?])
  simpa [hp] using this
/-- A two-level launch whose upper house has a policy and a count of retries, a child with a status and a fault waiting. -/
def faulty (policy retries : Nat) (st : InstStatus) (f : HouseFault) : State :=
  { housed with
    saveArea := [(0, [0, 2, 0, 0])]
    launches := housed.launches.map fun l => { l with
      flogn := 1, faults := [f], houses := l.houses.map fun h => { h with policy := if h.level = 1 then policy else 0 }
      insts := l.insts.map fun x => if x.record = 0 then { x with retries } else { x with status := st } } }
def leafFault : HouseFault := { inst := 0, event := 1, child := some 1, mid := 0, cause := 3, val := 0, ranges := [], gone := [] }
def childAbort : HouseFault := { inst := 0, event := 3, child := some 1, mid := 0, cause := 0, val := 0, ranges := [], gone := [] }
def ownFault : HouseFault := { inst := 1, event := 1, child := some 1, mid := 0, cause := 3, val := 0, ranges := [], gone := [] }
def cutFault : HouseFault := { inst := 0, event := 2, child := none, mid := 0, cause := 0x1C, val := 0, ranges := [], gone := [1] }
/-- The premises about one fault of such a launch, its policy, and whether an earlier one has settled it. -/
def handles (s : State) (f : HouseFault) (policy : Nat) (settled : Bool) : Prop :=
  ∃ l, s.launch? 1 = some l ∧ l.faults = [f] ∧ l.live = true ∧ l.origin = none ∧ Claim.peopled s l ∧ l.insts ≠ [] ∧
    (∀ (i : Nat) (x : Inst) (p : Nat), l.insts[i]? = some x → x.parent = some p → p < i) ∧
    (if l.levelOf f.inst = 0 then 0 else (((l.insts[f.inst]?).bind l.house).map (·.policy)).getD 0) = policy ∧
    ({ l with faults := [] } : Launch).superseded f = settled ∧ (policy = 2 → ∀ c ∈ l.failing f, c ∈ l.children f.inst) ∧
    ∃ (_ : Unit) (w : State), handleFault { l with faults := [] } f (s.mapLaunch 1 fun l => { l with faults := [] }).asControl = .ok () w ∧ true = true
theorem witness_HouseFaults :
    Claim.inOrder (faulty 0 0 .ended leafFault) ∧
    (handles (faulty 0 0 .ended leafFault) leafFault 0 false ∧ handles (faulty 1 3 .ended childAbort) childAbort 1 false ∧
      handles (faulty 1 0 .live ownFault) ownFault 0 true ∧ handles (faulty 1 0 .ended ownFault) ownFault 0 false) ∧
    (handles (faulty 2 0 .ended leafFault) leafFault 2 false ∧ handles (faulty 2 0 .ended cutFault) cutFault 2 false ∧ handles (faulty 1 2 .ended leafFault) leafFault 1 false ∧
      handles (faulty 1 2 .live leafFault) leafFault 1 true) := by
  refine ⟨inOrder _ rfl rfl, ⟨?_, ?_, ?_, ?_⟩, ?_, ?_, ?_, ?_⟩ <;>
    exact ⟨_, rfl, by decide +kernel, by decide +kernel, by decide +kernel, peopled_spec (by decide +kernel), by decide +kernel, parents_spec (by decide +kernel), by decide +kernel, by decide +kernel,
      by decide +kernel, answers_spec (p := fun _ _ => true) (by decide +kernel)⟩
/-- The strand's scheduling changed. -/
def sch (s : State) (f : Sched → Sched) : State := on s fun t => { t with sched := f t.sched }
/-- A READY strand beside the seated one. -/
def rival (prio : Nat) : State := two base fun x => { x with status := .ready, prio }
/-- The seated strand has held its seat for its quantum. -/
def expired : State := two (sch base fun x => { x with seatedFor := 4096 }) fun x => { x with status := .ready, prio := 5 }
/-- The parked strand, at a wait. -/
def parkedAt (w : Wait) : State := sch (on base fun t => { t with wait := w }) fun x => { x with status := .parked, place := none, lastCore := some 0 }
/-- The house above with those who have arrived. -/
def present (a : List Nat) : State :=
  { housed with launches := housed.launches.map fun l => { l with insts := l.insts.map fun x => { x with arrived := a } } }
/-- Its member's MID; the house with a withdrawn strand on another package beside it. -/
def mid0 : Nat := base.handle.toNat * 65536
def afar : State :=
  { present [mid0] with launches := (present [mid0]).launches.map fun l => { l with
      pkgs := l.pkgs ++ [9], insts := l.insts ++ [{ inst0 with record := 1, parent := some 0, pkg := 1, status := .withdrawn, strand := some 7, mid := some (9 * 65536 + 7) }] } }
theorem witness_SeatsAndVictims :
    Claim.inOrder base ∧ Claim.inOrder (rival 5) ∧
    (∃ t, (two base fun x => { x with status := .ready, aged := 65536 }).strand? 1 = some t ∧
      (t.sched.status == .ready && decide (t.sched.prio < min 7 ((rival 0).baseprio t + t.sched.aged / 2 ^ 16))) = true) ∧
    (base.renewRings.strands.filter fun t => base.renewRings.seatable t 0 && (base.renewRings.emptyCore 0 || (base.renewRings.seatFor t 0).any fun y => y.2 == 0)) = [] ∧
    ((rival 5).renewRings.strands.filter fun t => (rival 5).renewRings.seatable t 1 &&
      ((rival 5).renewRings.emptyCore 1 || ((rival 5).renewRings.seatFor t 1).any fun y => y.2 == 0)).map (·.sn) = [1] ∧
    ((∃ t, expired.strand? 0 = some t ∧ (t.sn == 0) = true) ∧ expired.strands.all (fun x => decide (x.sched.prio < 8)) = true ∧
      ∃ u ∈ expired.strands, u.sched.status = .ready ∧ expired.served u = false ∧ expired.qualifies u expired.st = true ∧ expired.short u = false ∧
        ∀ x ∈ expired.strands, expired.qualifies u x = true → ¬ Claim.victimFirst x expired.st) ∧
    (∀ u ∈ (rival 0).strands, u.sched.status = .ready → (rival 0).qualifies u (rival 0).st = false) ∧
    (let s := on (parkedAt .swait) fun t => { t with wake := true }
     (∃ t, s.strand? 0 = some t ∧ (t.sched.status == .parked && t.wait == .swait && t.wake) = true)) ∧
    (fifo (parkedAt (.engPop 0)) 0 [] none [okResult]).st.fifo[(0 : Fin 8)].results ≠ [] ∧ Claim.outstanding (parkedAt (.engPush 0)).st.fifo[(0 : Fin 8)] < 16 ∧
    (parkedAt (.engDrain 0)).st.fifo[(0 : Fin 8)].cmds = [] ∧
    ((parkedAt .tlAcq).dies[coreDie ((parkedAt .tlAcq).st.sched.lastCore.getD 0)]).log = [] ∧
    ({ arrived 0 with cur := some 0 } : State).barOver (arrived 0).st = true ∧
    (on (grouped grp 1) fun t => { t with qwait := .grp, asked := some 5 }).joinOver (on (grouped grp 1) fun t => { t with qwait := .grp, asked := some 5 }).st = true ∧
    (on (waits 1 0) fun t => { t with coll := t.coll.map fun c => { c with fate := .lost } }).collDue
      (on (waits 1 0) fun t => { t with coll := t.coll.map fun c => { c with fate := .lost } }).st = true ∧ (waits 1 0).collDue (waits 1 0).st = true ∧
    (∃ t, base.strand? 0 = some t ∧ (t.wait != .wakeOrResult) = true) ∧
    (∀ a ∈ [[], [mid0]], ∃ l x, (present a).launch? 1 = some l ∧ l.insts[0]? = some x ∧ l.levelOf 0 ≠ 0 ∧ x.arrived = a ∧
      l.leaves 0 = [1] ∧ l.liveLeaves 0 = [1] ∧ ((l.insts[1]?).all fun y => (present a).isHere l y.pkg && y.mid == some mid0) = true) ∧
    (∃ l x y, afar.launch? 1 = some l ∧ l.insts[0]? = some x ∧ l.leaves 0 = [1, 2] ∧ l.liveLeaves 0 = [1] ∧ l.insts[2]? = some y ∧
      afar.isHere l y.pkg = false ∧ y.status = .withdrawn ∧ y.mid ∉ x.arrived.map some ∧
      0 = (x.arrived.filter fun m => m / 65536 ≠ afar.handle.toNat).length ∧ afar.groups = []) := by
  refine ⟨inOrder _ rfl rfl, ?_, some_spec (by decide +kernel), ?_, by decide +kernel, ⟨some_spec (by decide +kernel), by decide +kernel, ?_⟩, ?_, some_spec (by decide +kernel),
    by decide +kernel, by decide +kernel, by decide +kernel, by decide +kernel, by decide +kernel, by decide +kernel, by decide +kernel, by decide +kernel,
    some_spec (by decide +kernel), ?_, ?_⟩
  · exact ⟨by decide +kernel, by decide +kernel, .inr rfl⟩
  · exact List.eq_nil_of_length_eq_zero (by decide +kernel)
  · refine ⟨_, List.mem_of_getElem? (i := 1) rfl, by decide +kernel, by decide +kernel, by decide +kernel, by decide +kernel, ?_⟩
    unfold Claim.victimFirst
    decide +kernel
  · decide +kernel
  · intro a ha
    simp only [List.mem_cons, List.not_mem_nil, or_false] at ha
    rcases ha with rfl | rfl <;> exact ⟨_, _, rfl, rfl, by decide +kernel⟩
  · exact ⟨_, _, _, rfl, rfl, by decide +kernel, by decide +kernel, rfl, by decide +kernel⟩
/-- An image of the strand in shadow region 0, where a seat is being restored. -/
def saved (image : Nat) : State := sch { base with saveArea := [(0, [0x10000000, 2, 0, 0])] } fun x => { x with status := .ready, place := none, saved := some (0, 0, false), image }
def restoring (image : Nat) : State := sch (saved image) fun x => { x with status := .seated, place := some (0, 0), restoring := true }
/-- A vector operation at its head that has reached an element. -/
def amid (n : Nat) : State := on base fun t => { t with vq := [{ entry0 with word := 0x24 * 2 ^ 26 }], ctl := { t.ctl with vei := BitVec.ofNat _ n } }
/-- Partition 0 is being suspended. -/
def stopping : State :=
  { base with
    hostMem := Memory.writeN base.hostMem 0x1000 8 4
    fns := base.fns.set 16 { base.fns[16] with requests := [0x1000], mpend := 1 } }
theorem witness_SavedContext :
    (∀ s ∈ [base, saved 1, restoring 1, sch base fun x => { x with quiesced := true }], Claim.inOrder s) ∧
    (∃ t, (sch base fun x => { x with preemptAsked := true }).strand? 0 = some t ∧ (t.seated && t.sched.preemptAsked && !t.sched.restoring && t.vq.isEmpty) = true) ∧
    (let s := sch (amid 64) fun x => { x with preemptAsked := true }
     ∃ t, s.strand? 0 = some t ∧ (t.seated && t.vq.all (fun e => elWord e.word && e.trains.isEmpty && !e.sent) && t.vq.length == 1 &&
       t.ctl.vei.toNat % laneCount (s.coreOf t.core).div == 0) = true) ∧
    (∃ t, (amid 3).strand? 0 = some t ∧ (t.vq.all (fun e => elWord e.word) && t.vq.length == 1 && t.ctl.vei.toNat % laneCount ((amid 3).coreOf t.core).div != 0) = true) ∧
    (base.halting 0 = false ∧ stopping.halting 0 = true) ∧
    (∃ t, (sch base fun x => { x with preempting := true }).strand? 0 = some t ∧
      (t.seated && t.sched.preempting && t.trains == [] && t.remote.all (fun r => r.answer != none || decide (8 ≤ r.op)) && !base.planeBusy t) = true) ∧
    (let s := sch base fun x => { x with quiesced := true }
     (∃ t, s.strand? 0 = some t ∧ (t.seated && t.sched.quiesced) = true) ∧ s.shadow.wf = true ∧
      ∀ u ∈ s.strands, u.sched.image = 1 ∨ u.sched.image = 3 → u.sched.shadowAt.1 ≠ s.st.core) ∧
    (let s := sch (on base fun t => { t with wait := .swait }) fun x => { x with waited := 256 }
     ∃ t, s.strand? 0 = some t ∧ (t.seated && !t.sched.preemptAsked && !t.sched.restoring && decide (256 ≤ t.sched.waited) && t.vq == [] && parks t.wait && !s.waitOver t t.wait &&
      t.trains == [] && t.remote == [] && !s.planeBusy t && s.shadowFree t.core) = true) ∧
    base.st.sched.waited < 256 ∧
    (∃ t, (saved 1).strand? 0 = some t ∧ (t.live && t.sched.image == 1 && !((saved 1).dies[coreDie t.sched.shadowAt.1]).cut &&
      (imageRanges (fun o n => Memory.readN (saved 1).shadow (shadowKey t.sched.shadowAt.1 t.sched.shadowAt.2 ((t.sched.saved.map (·.1)).getD 0) o) n) t.sched.imageLanes).all (fun r => (saved 1).frameOk (0x10000000 + r.1) r.2) &&
      (saved 1).otherFrame t == some 1) = true) ∧
    ((∃ t, (saved 3).strand? 0 = some t ∧ (t.sched.image == 3) = true) ∧ ({ saved 1 with saveArea := [] } : State).otherFrame (saved 1).st = none) ∧
    (∃ t, (restoring 1).strand? 0 = some t ∧ (t.seated && t.sched.restoring && (restoring 1).imageFault t == none) = true) ∧
    (let s : State := { restoring 2 with badLines := [0x400000] }
     ∃ t, s.strand? 0 = some t ∧ (s.imageFault t == some 5) = true) ∧
    (let s := on hand fun t => { t with preemptNote := some 9 }
     (∃ t, s.strand? 0 = some t ∧ (t.seated && !t.sched.preempting && !t.sched.restoring && !t.sched.preemptAsked && !t.rpl.going && t.vq == [] &&
        !(s.dies[(s.switchTo 0).myDie]).hot && t.preemptNote == some 9 && t.remote == []) = true) ∧ Claim.catches (s.switchTo 0)) := by
  refine ⟨?_, some_spec (by decide +kernel), some_spec (by decide +kernel), some_spec (by decide +kernel), ⟨by decide +kernel, by decide +kernel⟩,
    some_spec (by decide +kernel), ⟨some_spec (by decide +kernel), by decide +kernel, by decide +kernel⟩, some_spec (by decide +kernel),
    by decide +kernel, some_spec (by decide +kernel), ⟨some_spec (by decide +kernel), by decide +kernel⟩, some_spec (by decide +kernel), some_spec (by decide +kernel),
    some_spec (by decide +kernel), ?_⟩
  · intro s hs
    simp only [List.mem_cons, List.not_mem_nil, or_false] at hs
    rcases hs with rfl | rfl | rfl | rfl <;> exact inOrder _ rfl rfl
  · unfold Claim.catches
    decide +kernel
/-- A link failed, and the controller of a stack. -/
def brokenLink : State := { base with rrs := 2 ^ 32 }
def brokenStack (taken : Bool) : State := Claim.withStack base 0 0 fun y => { y with failed := true, taken }
theorem witness_PowerAndWear :
    (base.dies[(0 : Fin 4)]).hot = false ∧ (({ base with dies := base.dies.set 0 { base.dies[0] with hot := true } } : State).dies[(0 : Fin 4)]).hot = true ∧
    (Claim.inOrder brokenLink ∧ (brokenLink.dies[(1 : Fin 4)]).cut = false ∧ brokenLink.rrs.getLsbD (32 + 0) = true ∧ Claim.cutOff 0 = (1 : Fin 4).val ∧
      (∃ t, brokenLink.strand? 0 = some t ∧ (!t.onDie 1) = true)) ∧
    (let s : State := { base with rrs := 2 ^ 38 }
     Claim.cutOff 6 = (0 : Fin 4).val ∧ s.rrs.getLsbD (32 + 6) = true ∧ (∃ t, s.strand? 0 = some t ∧ (t.onDie 0 && t.sched.lid == 1) = true) ∧
      ∃ l ∈ s.launches, l.live = true ∧ l.origin = none ∧ l.lid = 1) ∧
    (let s : State := { base with rrs := 2 ^ 38, launches := base.launches.map fun l => { l with origin := some 1 } }
     ∃ l ∈ s.launches, l.live = true ∧ l.origin = some 1 ∧ ∃ t ∈ s.strands, t.onDie 0 = true ∧ t.sched.lid = l.lid) ∧
    (base.act.getLsbD 6 = false ∧ (base.dies[(0 : Fin 4)]).cut = false ∧ (Claim.stackOf base 0 0).failed = false) ∧ (Claim.stackOf (brokenStack false) 0 0).failed = true ∧
    (Claim.stackOf (brokenStack false) 0 0).taken = false ∧ ({ base with act := 0x20 } : State).act.getLsbD 5 = true := by
  refine ⟨by decide +kernel, by decide +kernel, ⟨inOrder _ rfl rfl, by decide +kernel, by decide +kernel, by decide, some_spec (by decide +kernel)⟩,
    ⟨by decide, by decide +kernel, some_spec (by decide +kernel), by decide +kernel⟩, by decide +kernel, by decide +kernel, by decide +kernel, by decide +kernel, by decide +kernel⟩
/-- Partition 1 with the same sections as partition 0, region 1 of partition 0, valid. -/
def parted : State :=
  { base with
    parts := SMap.put base.parts 1 [BitVec.ofNat 64 (0xFFFFFFFF + 2 ^ 35), 0, 0, 0, 0, 0, 0, 0]
    regions := SMap.put base.regions 1 [0x10001, 0, 0, 0] }
theorem partFields_spec {p : List Word} (h : ((p.drop 2).all fun x => x.toNat / 2 ^ 46 == 0) = true)
    (h2 : let d := (p.getD 0 0).toNat
      d / 2 ^ 36 % 2 ^ 4 = 0 ∧ d / 2 ^ 56 = 0 ∧ d / 2 ^ 40 % 2 ^ 8 + d / 2 ^ 48 % 2 ^ 8 ≤ 256 ∧ (p.getD 1 0).toNat / 2 ^ 16 = 0) : Claim.partFields p :=
  ⟨h2.1, h2.2.1, h2.2.2.1, h2.2.2.2, fun x hx => eq_of_beq (List.all_eq_true.mp h x hx)⟩
theorem witness_HostTables :
    (base.phase ≠ .off ∧ (∀ l ∈ base.launches, l.live = true → l.partn ≠ 1) ∧ Claim.partFields (Claim.replaced 8 (base.part 1) 0 0) ∧
      base.partsMeet 1 (Claim.replaced 8 (base.part 1) 0 0) = false) ∧ ¬ Claim.partFields (Claim.replaced 8 (base.part 1) 0 (BitVec.ofNat 64 (2 ^ 36))) ∧
    (Claim.answers base 16 ∧ Claim.answers base 0) ∧
    ((∀ l ∈ parted.launches, l.live = true → l.region ≠ 1) ∧ Claim.regionFields (Claim.replaced 4 (parted.regionRec 1) 0 0) ∧
      Claim.regionPlaces parted 1 (Claim.replaced 4 (parted.regionRec 1) 0 0) ∧ (nth (parted.regionRec 1) 0 0).getLsbD 0 = true ∧
      ((Claim.replaced 4 (parted.regionRec 1) 0 0).getD 0 0).getLsbD 0 = false ∧ (∀ d : Fin 4, (parted.dies[d]).log.length < 4096)) ∧
    (let s : State := { base with heldWrites := [⟨16, 1, 0, 0, 8, 0⟩] }
     (∃ v ∈ s.heldWrites, v.record = 1) ∧ ∀ v ∈ s.heldWrites, v.record ≠ 2) ∧
    (∃ d : Fin 4, 4096 ≤ (full.dies[d]).log.length) ∧ (nth (base.regionRec 1) 0 0).getLsbD 0 = false ∧
    ¬ Claim.regionFields (Claim.replaced 4 (base.regionRec 1) 0 2) ∧
    (let e := Claim.replaced 4 (SMap.getD base.saveArea 0 []) 0 (BitVec.ofNat 64 (2 ^ 20))
     Claim.saveFields base 0 e ∧ ¬ Claim.saveFields base 0 (Claim.replaced 4 [] 0 1)) ∧
    (let s : State := { base with duty := 0x7F }
     (∀ b, b < 7 → s.duty.getLsbD b ≠ s.act.getLsbD b) ∧ s.hostPosts = [] ∧ (∀ d : Fin 4, (s.dies[d]).logPosted = 0) ∧
      ∀ (d : Fin 4) (k : Fin 3), (Claim.stackOf s d k).failed = true → (Claim.stackOf s d k).taken = true) := by
  refine ⟨⟨by decide +kernel, by decide +kernel, partFields_spec (by decide +kernel) (by decide +kernel), by decide +kernel⟩, ?_, ?_, ⟨by decide +kernel, ?_, ?_, by decide +kernel,
    by decide +kernel, by decide +kernel⟩, by decide +kernel, by decide +kernel, by decide +kernel, ?_, ⟨?_, ?_⟩, by decide +kernel, by decide +kernel, by decide +kernel, by decide +kernel⟩
  · intro h
    have := h.1
    revert this
    decide +kernel
  · unfold Claim.answers
    decide +kernel
  · unfold Claim.regionFields
    dsimp only
    decide +kernel
  · intro h
    have h2 : ((Claim.replaced 4 (parted.regionRec 1) 0 0).getD 0 0).getLsbD 0 = false := by decide +kernel
    rw [h2] at h
    cases h
  · intro h
    have := h.1
    revert this
    decide +kernel
  · unfold Claim.saveFields
    dsimp only
    decide +kernel
  · intro h
    have := h.1
    revert this
    decide +kernel
theorem witness_RegisterWindows :
    (Claim.answers base 0 ∧ Claim.answers base 16 ∧ Claim.answers State.reset 16 ∧ ¬ Claim.answers State.reset 0) ∧
    (let x : Word := 0x11000
     x.toNat % 64 = 0 ∧ x.getLsbD 63 = false ∧ (nth (base.part 0) 0 0).getLsbD 35 = true ∧ x.toNat / 2 ^ 55 % 2 ^ 8 < (nth (base.part 0) 0 0).toNat / 2 ^ 48 % 2 ^ 8 ∧
      (nth (base.regionRec ((nth (base.part 0) 0 0).toNat / 2 ^ 40 % 2 ^ 8 + x.toNat / 2 ^ 55 % 2 ^ 8)) 0 0).getLsbD 0 = true ∧
      (base.fns[(0 : Fin 17)]).launches.length < 16 ∧ base.lids < 2 ^ 32 - 1) ∧
    (1 : Word).toNat % 64 ≠ 0 ∧ ((0x1000 : Word).toNat % 256 = 0 ∧ (base.fns[(0 : Fin 17)]).mpend < 8) ∧ (1 : Word).toNat % 256 ≠ 0 ∧
    State.reset.phase ≠ .ready ∧ base.phase = .ready ∧
    (0 < (nth (base.part 0) 0 0).toNat / 2 ^ 48 % 2 ^ 8 ∧ ¬ 1 < (nth (base.part 0) 0 0).toNat / 2 ^ 48 % 2 ^ 8) := by
  unfold Claim.answers
  decide +kernel
/-- A request at bus address 0x1000 of a function, its doublewords given. -/
def mailing (s : State) (fn : Fin 17) (dw : List Nat) : State :=
  { s with
    hostMem := dw.zipIdx.foldl (fun m x => Memory.writeN m (0x1000 + 8 * x.2) 8 x.1) s.hostMem
    fns := s.fns.set fn { s.fns[fn] with requests := [0x1000], mpend := 1 } }
/-- The remap entries of this package and another. -/
def remap1 (pend : Bool) (h : Nat) : Nat × Remap := (h, { v := true, pend, pid := 0, rgen := 1, ports := 1, opid := 0, oports := 0 })
def op1 (phase : Nat) : RemapOp := { fn := 16, req := 0x1000, handle := 1, phase, left := [] }
theorem witness_MailboxOperations :
    (base.hostWritable (0x1000 + 128) 128 = true ∧ ({ base with hostRO := [1] } : State).hostWritable (0x1000 + 128) 128 = false ∧ (base.fns[(0 : Fin 17)]).evring.toNat / 2 ^ 12 % 2 ^ 43 = 0 ∧ base.hostMem.wf = true) ∧
    (let s : State := { mailing base 0 [] with hostBad := [1] }; s.mailOpen 0 0x1000 = false ∧ (s.fns[(0 : Fin 17)]).requests.head? = some 0x1000 ∧ s.phase = .ready) ∧
    (∀ op : Fin 10, Claim.asks (mailing base 0 [op.val]) 0 0x1000 op.val) ∧ (∀ op : Fin 9, Claim.asks (mailing base 16 [op.val]) 16 0x1000 op.val) ∧
    (((mailing base 0 [1, 17]).mailDw 0 0x1000 1).toNat = 17 ∧ ((mailing base 0 [1, 1]).mailDw 0 0x1000 1).toNat ≠ (0 : Fin 17).val ∧
      ((mailing base 0 [1, 0]).mailDw 0 0x1000 1).toNat = (0 : Fin 17).val) ∧
    (({ base with act := 0x40 } : State).act.getLsbD 6 = true ∧ base.act.getLsbD 6 = false) ∧
    (Claim.recordFields (0x11, 0x10000) ∧ ¬ Claim.recordFields (0, 0) ∧ (∀ d : Fin 4, (base.dies[d]).log.length < 4096) ∧
      (full.dies[(0 : Fin 4)]).log.length = 4096 ∧ (0x11 : Word).getLsbD (4 + (0 : Fin 4).val) = true) ∧
    ((base.remapOf 1).pend = false ∧ base.otherPackages = [] ∧ base.remapOps = [] ∧ ({ base with remap := [remap1 true 1] } : State).otherPackages ≠ [] ∧
      (({ base with remap := [remap1 true 1] } : State).remapOf 1).pend = true ∧ (({ base with remap := [remap1 false 1] } : State).remapOf 1).pend = false ∧
      ({ base with remap := [remap1 true 0] } : State).otherPackages = [] ∧ (({ base with remap := [remap1 true 0] } : State).remapOf 0).pend = true ∧
      ({ base with remap := [remap1 true 0] } : State).oldGone 0 = true) ∧
    ∀ ph ∈ [1, 2], let s : State := { base with remapOps := [op1 ph], remap := [remap1 true 1] }
      op1 ph ∈ s.remapOps ∧ (op1 ph).left = [] ∧ (∀ x ∈ s.remapOps, x.handle = 1 ∧ x.phase = ph → x = op1 ph) ∧ s.oldGone 1 = true := by
  refine ⟨by decide +kernel, by decide +kernel, ?_, ?_, by decide +kernel, by decide +kernel, ⟨?_, ?_, by decide +kernel, by decide +kernel, by decide +kernel⟩, by decide +kernel, ?_⟩
  · unfold Claim.asks
    decide +kernel
  · unfold Claim.asks
    decide +kernel
  · unfold Claim.recordFields
    dsimp only
    decide +kernel
  · intro h
    have := h.1
    revert this
    decide +kernel
  · decide +kernel
/-- SWAP of partitions 0 and 1, or STAGE of 1. -/
def swapping (op : Nat) (suspended staged : List Nat) (quiesced : Bool) : State :=
  { mailing (sch parted fun x => { x with quiesced }) 16 [op, 0x10] with suspended, staged, saveArea := [(0, [0, 2, 0, 0])] }
/-- Partition 1 has been suspended, its one strand READY with its place kept; an image of it may have yet to be copied. Partition 2 has a strand too. -/
def resuming (op image : Nat) : State :=
  { swapping op [1] [1] true with
    others := [(1, { Strand.create 1 1 0 0x10000 0 with sched := { Sched.init with status := .ready, lid := 1, saved := some (0, 0, false), resume := some (0, 0), image, inShadow := true } }),
      (2, Strand.create 2 2 0 0x10000 0)] }
theorem witness_PartitionSwap :
    (∀ s ∈ [swapping 3 [] [] false, swapping 3 [1] [] false, swapping 4 [] [] false, swapping 4 [] [1] false, swapping 4 [] [1] true], Claim.inOrder s) ∧
    (∀ op ∈ [3, 4], Claim.asks (swapping op [] [1] true) 16 0x1000 op ∧ ((swapping op [] [1] true).mailDw 16 0x1000 1).toNat % 2 ^ 4 = 0 ∧
      ((swapping op [] [1] true).mailDw 16 0x1000 1).toNat / 2 ^ 4 % 2 ^ 4 = 1) ∧
    (let s := mailing base 16 [3, 0]; Claim.asks s 16 0x1000 3 ∧ (s.mailDw 16 0x1000 1).toNat / 2 ^ 4 % 2 ^ 4 = 0 ∧ 0 ∉ s.suspended ∧
      ∃ t ∈ s.strands, t.live = true ∧ t.partn = 0) ∧
    (1 ∈ (swapping 3 [1] [] false).suspended ∧ (swapping 3 [1] [] false).shadow.wf = true ∧ (swapping 3 [1] [] false).mem.wf = true ∧
      ∀ t ∈ (swapping 3 [] [] false).strands, t.live = true → t.partn ≠ 1) ∧
    ((∃ t ∈ (resuming 3 1).strands, t.live = true ∧ t.partn = 1 ∧ ∃ p, t.sched.resume = some p ∧ (resuming 3 1).shadowFree p.1 = false) ∧
      1 ∈ (resuming 3 1).suspended ∧ ∀ t ∈ (resuming 3 2).strands, t.live = true → t.partn = 1 → ∀ p, t.sched.resume = some p → (resuming 3 2).shadowFree p.1 = true) ∧
    (Claim.inOrder (resuming 4 2) ∧ Claim.maySwap (resuming 4 2) 0 1 ∧ (∃ t, (resuming 4 2).strand? 1 = some t ∧ t.live = true ∧ t.partn = 1 ∧ t.seated = false ∧
      t.sched.resume = some (0, 0) ∧ t.sched.saved = some (0, 0, false) ∧ (resuming 4 2).imageFault t = none) ∧
      ∃ t, (resuming 4 2).strand? 2 = some t ∧ t.partn = 2) ∧
    (¬ Claim.maySwap (swapping 4 [] [] false) 0 1 ∧ Claim.maySwap (swapping 4 [] [1] false) 0 1 ∧ Claim.maySwap (swapping 4 [] [1] true) 0 1) ∧
    (∃ t ∈ (swapping 4 [] [1] false).strands, t.seated = true ∧ t.partn = 0 ∧ t.sched.quiesced = false) ∧
    (∀ t ∈ (swapping 4 [] [1] true).strands, t.seated = true → t.partn = 0 → t.sched.quiesced = true ∧ (swapping 4 [] [1] true).shadowFree t.core = true) ∧
    ((swapping 4 [] [1] true).shadow.wf = true ∧ (swapping 4 [] [1] true).mem.wf = true ∧ Claim.scratchImages (swapping 4 [] [1] true) 0 + 2 ^ 30 ≤ 2 ^ 52 ∧
      ∀ t ∈ (swapping 4 [] [1] true).strands, t.seated = true → t.core < 512 ∧ t.slot < 4) := by
  refine ⟨?_, ?_⟩
  · intro s hs
    simp only [List.mem_cons, List.not_mem_nil, or_false] at hs
    rcases hs with rfl | rfl | rfl | rfl | rfl <;> exact inOrder _ rfl rfl
  · refine ⟨?_, ⟨?_, by decide +kernel, by decide +kernel, by decide +kernel⟩, by decide +kernel, ⟨?_, by decide +kernel, by decide +kernel⟩,
      ⟨⟨by decide +kernel, by decide +kernel, .inr rfl⟩, ?_, ⟨_, rfl, by decide +kernel⟩, _, rfl, by decide +kernel⟩, ?_, by decide +kernel, by decide +kernel, by decide +kernel⟩
    · unfold Claim.asks
      decide +kernel
    · unfold Claim.asks
      decide +kernel
    · exact ⟨_, List.mem_of_getElem? (i := 1) rfl, by decide +kernel, by decide +kernel, _, rfl, by decide +kernel⟩
    · unfold Claim.maySwap
      decide +kernel
    · unfold Claim.maySwap
      decide +kernel
/-- SHA-512 of the empty string (FIPS 180-4); and as memory holds it, first octet lowest. -/
theorem test_sha512_nothing : sha512 0 0 = 0xcf83e1357eefb8bdf1542850d66d8007d620e4050b5715dc83f4a921d36ce9ce47d0d13c5d85f2b0ff8318d2877eec2f63b931bd47417a81a538327af927da3e := by decide +kernel
def nothingDigest : Nat := 0x3eda27f97a3238a5817a4147bd31b9632fec7e87d21883ffb0f2855d3cd1d047cee96cd321a9f483dc15570b05e420d607806dd6502854f1bdb8ef7e35e183cf
/-- It, in a header without a body. -/
def stagedHeader : Memory := Memory.writeN [] 64 64 nothingDigest
theorem verdict_passes {s : State} {h d : Nat} (h1 : Memory.readN s.staging 0 4 = 0) (h2 : Memory.readN s.staging 8 56 = 0) (h3 : Memory.readN s.staging 128 384 = 0)
    (h4 : Memory.readN s.staging 1024 3072 = 0) (h5 : s.fwLen.toNat = 4096) (h6 : Config.fusedVersion.toNat = 0) (h7 : Memory.readN s.staging 512 512 = 0)
    (h8 : Memory.readN s.staging 0 512 = h) (h9 : imageSigned h 0 = true) (h10 : (digest 0 0).toNat = d) (h11 : Memory.readN s.staging 64 64 = d) : Claim.verdict s = 2 := by
  have h0 : ∀ a, Memory.readN s.staging a 0 = 0 := fun _ => rfl
  simp only [Claim.verdict, h1, h2, h3, h4, h5, h6, h7, h8, h0, h11]
  rw [show (BitVec.ofNat 4096 0) = 0 from rfl, h9, h10]
  simp
theorem readN_nil : ∀ (a n : Nat), Memory.readN [] a n = 0
  | _, 0 => rfl
  | a, n + 1 => by simp [Memory.readN, readN_nil (a + 1) n, Memory.read, Memory.unlisted]
theorem staged_zero (a n : Nat) (h : a + n ≤ 64 ∨ 128 ≤ a) : Memory.readN stagedHeader a n = 0 := by
  rw [← readN_nil a n]
  refine Memory.readN_congr a fun y h1 h2 => Memory.read_writeN_other Memory.wf_nil 64 nothingDigest y ?_
  omega
def passing : State := { State.reset with phase := .verifying, staging := stagedHeader, fwLen := 4096 }
theorem passing_digest : (digest 0 0).toNat = Memory.readN passing.staging 64 64 := by
  have : (digest 0 0).toNat = nothingDigest := by
    show (BitVec.ofNat 512 (swapOctets 64 (sha512 0 (swapOctets 0 0)))).toNat = _
    rw [show swapOctets 0 0 = 0 from rfl, test_sha512_nothing]
    decide +kernel
  rw [this]
  decide +kernel
theorem passing_verdict (h1 : Config.fusedVersion.toNat = 0) (h2 : imageSigned (Memory.readN passing.staging 0 512) 0 = true) : Claim.verdict passing = 2 :=
  verdict_passes (s := passing) (h := Memory.readN passing.staging 0 512) (d := Memory.readN passing.staging 64 64)
    (staged_zero 0 4 (by omega)) (staged_zero 8 56 (by omega)) (staged_zero 128 384 (by omega)) (staged_zero 1024 3072 (by omega)) rfl h1
    (staged_zero 512 512 (by omega)) rfl h2 passing_digest rfl
/-- An image that passes depends on the constants of the part, which nothing here can evaluate: one of no body passes where the part
takes its signature. -/
theorem witness_BringUp :
    (let s : State := { State.reset with phase := .off }
     s.phase = .off ∧ (∀ d : Fin 4, (Vector.replicate 4 diecfgFull)[d] &&& 0x007FF7FFFFFFFFFF = (Vector.replicate 4 diecfgFull)[d] ∧
       ∀ i, i < 8 → ((Vector.replicate 4 diecfgFull)[d]).toNat / 2 ^ (5 * i) % 2 ^ 5 ≤ 16)) ∧
    State.reset.phase = .rom ∧
    (let s : State := { State.reset with phase := .verifying }
     s.phase = .verifying ∧ Claim.verdict s ≠ 2 ∧ passing.phase = .verifying ∧
      (Config.fusedVersion.toNat = 0 → imageSigned (Memory.readN passing.staging 0 512) 0 = true → Claim.verdict passing = 2)) ∧
    (base.phase = .ready ∧ 3 ≤ (3 : Fin 8).val ∧ (2 : Fin 8).val < 3 ∧ ∀ l ∈ base.launches, l.live = true → l.origin = none → l.partn ≠ 1) ∧
    (Claim.inOrder base ∧ (base.launches.map (·.lid)).Nodup ∧ (∀ l ∈ base.launches, l.live = true → l.origin = none → l.partn = 0 →
      l.insts ≠ [] ∧ Claim.peopled base l ∧ ∀ i x, l.insts[i]? = some x → l.under 0 i = true) ∧
      ∃ (_ : Unit) (w : State), (do for l in base.launches.filter fun l => l.live && l.origin.isNone && l.partn == 0 do abortLaunch l : M Unit) base.asControl = .ok () w ∧ true = true) := by
  refine ⟨by decide +kernel, rfl, ⟨rfl, by decide +kernel, rfl, passing_verdict⟩, by decide +kernel, inOrder _ rfl rfl, by decide +kernel, ?_, answers_spec (p := fun _ _ => true) (by decide +kernel)⟩
  · intro l hl _ _ _
    have e : l = ln := List.mem_singleton.mp hl
    subst e
    refine ⟨by decide +kernel, peopled_spec (by decide +kernel), ?_⟩
    intro i x hi
    have hlen : ln.insts.length = 1 := by decide +kernel
    have : i < 1 := by
      rw [← hlen]
      exact (List.getElem?_eq_some_iff.mp hi).1
    have : i = 0 := by omega
    subst this
    decide +kernel
theorem witness_StepRunsDecoded :
    Claim.hasTurn base base ∧ (Claim.issues base ∧ ∃ u key, Claim.fetches base u key) ∧
    (∃ i, decodeBytes [0x00, 0x87, 0x51, 0x04] = .ok i) ∧ (∃ e, decodeBytes [0, 0, 0, 0] = .error e) ∧
    (let s := on base fun t => { t with vq := [{ entry0 with word := 0x90304206 }] }
     (match s.nextOf with | .entry e _ => e.word == 0x90304206 | _ => false) = true ∧ ∃ i, decodeWord 0x90304206 = .ok i) ∧
    (let s : State := { base with turns := [.strand 0, .event .powerDown] }
     s.turns = .strand 0 :: [.event .powerDown] ∧ Instr.powerDown.isWord = false ∧ raisedByWord .powerDown = false) := by
  refine ⟨⟨rfl, .inr ⟨rfl, rfl⟩⟩, ⟨by unfold Claim.issues; decide +kernel, ?_⟩, ⟨_, rfl⟩, ⟨_, rfl⟩, ⟨by decide +kernel, _, rfl⟩, rfl, rfl, rfl⟩
  have h : answers (leafM .fetch base.st.pc.toNat) base (fun x u => match x with
      | .ok (.mem key _ _) => !(u.dies[coreDie (homeDie key * 128)]).cut && !u.linkDown u.myDie (homeDie key) && u.lineOk key 4
      | _ => false) = true := by decide +kernel
  obtain ⟨x, u, h1, h2⟩ := answers_spec h
  match x, h2 with
  | .ok (.mem key kind sc), h2 =>
    simp only [Bool.and_eq_true, Bool.not_eq_true'] at h2
    exact ⟨u, key, by decide +kernel, ⟨kind, sc, h1⟩, h2.1.1, h2.1.2, h2.2⟩
theorem witness_DecodeEncode : (Instr.vadd 3 1 (.vec 2) .l).wf = true := rfl
theorem witness_StepKeepsMemory : base.memWf = true ∧ nextIs (step base) (fun t => t.memWf) = true := by
  constructor <;> decide +kernel

/-! ### Ill-formed terms (R64, R68, R214, R251; Table 3-17), and that an event is no word -/

theorem test_wf_cvt_same : (Instr.vcvt 1 2 .f64 .f64 .rne false).wf = false := rfl
theorem test_wf_cvt_int_fp8 : (Instr.vcvt 1 2 .i8 .e4m3 .rne false).wf = false ∧ (Instr.vcvt 1 2 .e5m2 .u8 .rne false).wf = false := ⟨rfl, rfl⟩
theorem test_wf_cvt_rounding : (Instr.vcvt 1 2 .f64 .f32 .stoch false).wf = false ∧ (Instr.vcvt 1 2 .i8 .i16 .rne false).wf = false := ⟨rfl, rfl⟩
theorem test_wf_cvt_saturate : (Instr.vcvt 1 2 .f32 .f64 .rne true).wf = false := rfl
theorem test_wf_dequant : (Instr.vdequant 1 2 .f32 .stoch false).wf = false ∧ (Instr.vdequant 1 2 .f64 .rne true).wf = false := ⟨rfl, rfl⟩
theorem test_wf_collective : (Instr.colRed 1 2 0 .and (.fp .f64) false).wf = false ∧ (Instr.colAred 1 2 0 .max (.int .l) true).wf = false := ⟨rfl, rfl⟩
theorem test_wf_counter : (Instr.cntRd 1 .cyc 4).wf = false ∧ (Instr.cntRd 1 .bconf 32).wf = false ∧ (Instr.cntRd 1 .tlbm 1).wf = false := ⟨rfl, rfl, rfl⟩
theorem test_wf_step_scale : (Instr.mxStep 0 1 2 .bf16).wf = false ∧ (Instr.mxStepz 0 1 2 .fp64).wf = false ∧ (Instr.mxSteps 0 1 2 .int8).wf = false := ⟨rfl, rfl, rfl⟩
theorem test_wf_capture : (Instr.rplCap 0).wf = false ∧ (Instr.rplCap 33).wf = false ∧ (Instr.rplCap 32).wf = true := ⟨rfl, rfl, rfl⟩
theorem test_wf_scatter : (Instr.vstxa 1 2 3 (.fp .bf16)).wf = false ∧ (Instr.vstxa 1 2 3 (.int .b)).wf = false := ⟨rfl, rfl⟩
theorem test_wf_event : Instr.powerDown.wf = false ∧ (Instr.copy 0 0).wf = false := ⟨rfl, rfl⟩
/-! ### The spec's worked examples, one step each -/

/-- Elements of a vector register, from element 0. -/
def vset (s : State) (r : VReg) (l : List Elem) : State :=
  on s fun t => { t with regs := { t.regs with v := t.regs.v.set r (Vector.ofFn fun e => l.getD e.val .init) } }
def fset (s : State) (r : FReg) (x : Elem) : State := on s fun t => { t with regs := { t.regs with f := t.regs.f.set r x } }
def mset (s : State) (r : MReg) (x : BitVec 128) : State := on s fun t => { t with regs := { t.regs with m := t.regs.m.set r x } }
/-- The first n elements of a vector register. -/
def vals (s : State) (r : VReg) (n : Nat) : List Elem := (s.st.regs.v[r]).toList.take n
def ints (l : List Word) : List Elem := l.map fun x => ⟨x, 0xFFFF⟩
def full64 (l : List Word) : List Elem := l.map fun x => ⟨x, 53⟩
def flags (s : State) : BitVec 6 := s.st.ctl.fflags
/-- Example 9-1. -/
theorem test_vadc : nextIs (exec (.vadc 3 1 2 0 .l) (mset (vset (vset (vl hand 4) 1 (ints [0xFFFFFFFFFFFFFFFF, 5, 0x8000000000000000, 0])) 2
    (ints [1, 7, 0x8000000000000000, 0])) 0 12)) (fun t => vals t 3 4 == ints [0, 12, 1, 1] && t.st.regs.m[0] == 5) = true := by decide +kernel
/-- Example 4-3: FFLAGS.GL, grade 13; and GRADE with TVAL = 13 under GTH = 20. -/
def cancels (gth : BitVec 6) : State :=
  fset (fset (on hand fun t => { t with ctl := { t.ctl with gth } }) 1 ⟨0x3FF0000000001000, 53⟩) 2 ⟨0x3FF0000000000000, 53⟩
theorem test_fsub_cancel : nextIs (exec (.fsub 3 1 2 .f64) (cancels 0)) (fun t => t.st.regs.f[3] == ⟨0x3D70000000000000, 13⟩ && flags t == 0x20) = true := by
  decide +kernel
theorem test_fsub_grade_trap : nextIs (exec (.fsub 3 1 2 .f64) (cancels 20))
    (fun t => t.st.regs.f[3] == .init && flags t == 0x20 && t.st.trap.tval == 13 && t.st.mode == .s) = true := by
  decide +kernel
/-- Example 8-2, step 5: the sum regains grade. -/
theorem test_fadd_regains : nextIs (exec (.fadd 3 1 2 .f64) (fset (fset hand 1 ⟨0x3FF0000000000000, 53⟩) 2 ⟨0x3EC8000000000000, 33⟩))
    (fun t => t.st.regs.f[3] == ⟨0x3FF0000300000000, 52⟩) = true := by decide +kernel
/-- Example 9-2. -/
theorem test_vfsub_grade_trap : nextIs (exec (.vfsub 3 1 (.vec 2) .f64) (vset (vset (on (vl hand 4) fun t => { t with ctl := { t.ctl with gth := 20 } }) 1
      (full64 [0x4008000000000000, 0x3FF0040000000000, 0x3FF0000000001000, 0x4000000000000000])) 2
      (full64 [0x3FF0000000000000, 0x3FF0000000000000, 0x3FF0000000000000, 0x3FF0000000000004])))
    (fun t => vals t 3 4 == [⟨0x4000000000000000, 53⟩, ⟨0x3F50000000000000, 43⟩, .init, .init] && flags t == 0x20 && t.st.trap.tval == 13 &&
      t.st.trap.telem == 2 && t.st.ctl.vei == 2 && t.st.mode == .s) = true := by decide +kernel
/-- Example 10-1. -/
theorem test_vconfl : nextIs (exec (.vconfl 5 3 .l) (vset (vl hand 8) 3 (ints [3, 7, 3, 3, 9, 7, 3, 1])))
    (fun t => vals t 5 8 == ints [-1, -1, 0, 2, -1, 1, 3, -1]) = true := by decide +kernel
/-- Example 10-2. -/
def summed : State :=
  on (mset (vset (vl hand 4) 1 (full64 [0x3FF0000000000000, 0x401C000000000000, 0x3CA0000000000000, 0x3CA0000000000000])) 1 13) fun t =>
    { t with ctl := { t.ctl with vms := 1 } }
theorem test_vrsum : nextIs (exec (.vrsum (.fp .f64 1) 1) summed) (fun t => t.st.regs.f[1] == ⟨0x3FF0000000000001, 53⟩ && flags t == 0) = true := by decide +kernel
theorem test_vrosum : nextIs (exec (.vrosum 2 1 .f64) summed) (fun t => t.st.regs.f[2] == ⟨0x3FF0000000000000, 53⟩ && flags t == 0x10) = true := by decide +kernel
/-- Example 7-2. -/
theorem test_vrosat : nextIs (exec (.vrosat 3 1 .b) (vset (vl hand 4) 1 (ints [100, 100, 0x9C, 0x9C]))) (fun t => t.g 3 == -73) = true := by decide +kernel
/-- Example 7-1. -/
theorem test_vcvt_stochastic : nextIs (exec (.vcvt 6 5 .f32 .bf16 .stoch false) (vset (vl hand 1) 5 (ints [0xBF80A0003F804000])))
    (fun t => (vals t 6 1).map (fun x => x.val.toNat % 2 ^ 32) == [0xBF803F80] && t.st.ctl.srs == 6 && flags t == 0x10) = true := by decide +kernel
/-- Example 10-3. -/
def blocked : State := vset (vl hand 7) 6 (ints [0x3FC000003F400000, 0x4040000040100000, 0x40C0000040900000, 0x0000000041100000, 0xBF400000BE800000, 0xC0100000BFC00000,
  0x3F000000C1100000])
set_option maxRecDepth 4000 in
theorem test_vquant : nextIs (exec (.vquant 8 6 .f32 .dyn) blocked) (fun t => vals t 8 2 == [⟨0x1FBA980765432170, 0xFFFF⟩, .init] && flags t == 0x10) = true := by decide +kernel
/-- Example 6-2, under the rule of vdequant. -/
theorem test_vdequant : nextIs (exec (.vdequant 9 8 .f32 .dyn false) (vset (vl hand 7) 8 (ints [0x0FBA980765432170])))
    (fun t => (vals t 9 7).map (·.val) == [0x3FC000003F400000, 0x4040000040100000, 0x40C0000040900000, 0x0000000041100000, 0xBF40000080000000, 0xC0100000BFC00000,
      0x00000000C1100000]) = true := by decide +kernel
/-- Example 15-1. -/
theorem test_vamo : nextIs (exec (.vamoAddL 4 2 5 0) (vset (vset (vl { g hand [(2, 0x10200)] with
      mem := Memory.writeN (Memory.writeN hand.mem 0x40200 8 10) 0x40208 8 20 } 4) 5 (ints [0, 8, 0, 0])) 4 (ints [1, 2, 3, 4])))
    (fun t => vals t 4 4 == ints [10, 20, 11, 14] && Memory.readN t.mem 0x40200 16 == 18 + 22 * 2 ^ 64) = true := by decide +kernel
/-- Example 13-1. -/
theorem test_homes : (List.range 8).map (fun e => homeDie (0x12300000 + e * 0x1000)) = [2, 3, 0, 1, 2, 3, 0, 1] := by decide +kernel
/-- Example 18-1, with the contributions of the other members at hand. -/
def reducing : State :=
  let c : Nat → Word → Contrib := fun rank x => { gid := 5, gen := 1, form := 0, seq := 1, rank, a := Claim.headA ⟨1, 0, .fp .f64, false⟩ 1, b := Claim.wrap 1, elems := [⟨x, 53⟩], idx := [] }
  { (on (grouped { grp with members := [0, 1, 2, 3] } 1) fun t => { t with
      issue := some { entry0 with vl := 1 }, coll := some { gid := 5, gen := 1, seq := 1, rank := 0, size := 4, root := 0, k := 1, fate := .standing } }) with
    contribs := [c 0 0x3FF0000000000000, c 1 0x3CA0000000000000, c 2 0x3CA0000000000000, c 3 0xBFF0000000000000], committed := [(5, 1, 0, 1)] }
theorem test_all_reduce : nextIs (exec (.colAred 2 1 0 .sum (.fp .f64) false) reducing)
    (fun t => vals t 2 2 == [⟨0x3CA0000000000000, 0⟩, .init] && flags t == 0x30) = true := by decide +kernel
/-- R397: a whole region record in one write. Its doubleword 0 alone, with V = 1, is refused. -/
def unrecorded : State := { base with regions := [], launches := [], parts := SMap.put base.parts 0 [(base.part 0).headD 0, 0, BitVec.ofNat 64 (16 * 2 ^ 23)] }
theorem test_record_whole : nextIs (exec (.registerWrite 16 0 0x110000 32 (0x10001 + 0x8000000 * 2 ^ 64 + 2 ^ 128)) unrecorded)
    (fun t => t.regionRec 0 == [0x10001, 0x8000000, 1, 0] && (t.fns[pf]).err == false) = true := by decide +kernel
theorem test_record_part : nextIs (exec (.registerWrite 16 0 0x110000 8 0x10001) unrecorded)
    (fun t => t.regionRec 0 == [] && (t.fns[pf]).err) = true := by decide +kernel

end Sys2Proof.Tests
end

section
/-!
PROOFS. The integer instructions and the branches and jumps of 04_scalar_isa. The first layer says of each operation on words
that it is the wrapped result of its row in Table 4-2; the second, that an integer instruction is a wait for its registers and
one register write; the third, what retiring and waiting leave as it was. A branch or jump is its condition, its link and its
target once it does not wait.
-/

namespace Sys2Proof.Proofs.ScalarIsa

open Sys2Proof Sys2Proof.Machine Sys2Proof.Claim

/-! ### Words and the integers they wrap -/

theorem wrap_natCast (n : Nat) : wrap (n : Int) = BitVec.ofNat 64 n := BitVec.ofInt_natCast 64 n
@[simp] theorem wrap_toInt (x : Word) : wrap x.toInt = x := BitVec.ofInt_toInt
@[simp] theorem wrap_toNat (x : Word) : wrap (x.toNat : Int) = x := by simp [wrap_natCast]
theorem wrap_add (x y : Int) : wrap (x + y) = wrap x + wrap y := BitVec.ofInt_add ..
theorem wrap_mul (x y : Int) : wrap (x * y) = wrap x * wrap y := BitVec.ofInt_mul ..
theorem wrap_neg (x : Int) : wrap (-x) = -wrap x := BitVec.ofInt_neg
theorem wrap_natCast_toNat {n : Nat} (h : n < 2 ^ 64) : (wrap (n : Int)).toNat = n := by
  rw [wrap_natCast, BitVec.toNat_ofNat, Nat.mod_eq_of_lt h]

/-- A word operation computes a row of Table 4-2: its result is that of the row, from s(ga), s(gb), u(ga), u(gb), wrapped. -/
def Row (f : Word → Word → Word) (F : Int → Int → Nat → Nat → Int) : Prop :=
  ∀ x y, f x y = wrap (F x.toInt y.toInt x.toNat y.toNat)

theorem add_row : Row (fun x y => x + y) fun x y _ _ => x + y := fun x y => by
  rw [wrap_add, wrap_toInt, wrap_toInt]
theorem sub_row : Row (fun x y => x - y) fun x y _ _ => x - y := fun x y => by
  simp only [sub_eq_add_neg, wrap_add, wrap_neg, wrap_toInt]
theorem and_row : Row (fun x y => x &&& y) fun _ _ x y => (x &&& y : Nat) := fun x y => by
  simp only [← BitVec.toNat_and, wrap_toNat]
theorem or_row : Row (fun x y => x ||| y) fun _ _ x y => (x ||| y : Nat) := fun x y => by
  simp only [← BitVec.toNat_or, wrap_toNat]
theorem xor_row : Row (fun x y => x ^^^ y) fun _ _ x y => (x ^^^ y : Nat) := fun x y => by
  simp only [← BitVec.toNat_xor, wrap_toNat]

theorem shL_eq_wrap (x : Word) (k : Nat) : shL x k = wrap (x.toNat * 2 ^ k : Nat) := by
  rw [wrap_natCast, ← Nat.shiftLeft_eq]
  exact BitVec.eq_of_toNat_eq (by rw [shL, BitVec.toNat_shiftLeft, BitVec.toNat_ofNat])
theorem shR_eq_wrap (x : Word) (k : Nat) : shR x k = wrap (x.toNat / 2 ^ k : Nat) := by
  rw [← Nat.shiftRight_eq_div_pow, ← BitVec.toNat_ushiftRight, wrap_toNat, shR]
theorem shA_eq_wrap (x : Word) (k : Nat) : shA x k = wrap (x.toInt / 2 ^ k) := by
  have h : x.toInt / 2 ^ k = (x.sshiftRight k).toInt := by
    rw [BitVec.toInt_sshiftRight, Int.shiftRight_eq_div_pow, Nat.cast_pow]; rfl
  rw [h, wrap_toInt, shA]
theorem sll_row : Row (fun x y => shL x (shAmt y)) fun _ _ x y => (x * 2 ^ (y % 64) : Nat) := fun x y => shL_eq_wrap x (shAmt y)
theorem srl_row : Row (fun x y => shR x (shAmt y)) fun _ _ x y => (x / 2 ^ (y % 64) : Nat) := fun x y => shR_eq_wrap x (shAmt y)
theorem sra_row : Row (fun x y => shA x (shAmt y)) fun x _ _ y => x / 2 ^ (y % 64) := fun x y => shA_eq_wrap x (shAmt y)

theorem boolWord_eq_wrap {b : Bool} {p : Prop} [Decidable p] (h : b = decide p) : boolWord b = wrap (if p then 1 else 0) := by
  subst h
  by_cases hp : p <;> simp [hp, boolWord, wrap]
theorem slt_row : Row (fun x y => boolWord (x.slt y)) fun x y _ _ => if x < y then 1 else 0 := fun _ _ =>
  boolWord_eq_wrap BitVec.slt_eq_decide
theorem sltu_row : Row (fun x y => boolWord (x.ult y)) fun _ _ x y => if x < y then 1 else 0 := fun _ _ =>
  boolWord_eq_wrap BitVec.ult_eq_decide

theorem min_row : Row (fun x y => if x.slt y then x else y) fun x y _ _ => if x < y then x else y := fun x y => by
  simp only [BitVec.slt_iff_toInt_lt, apply_ite wrap, wrap_toInt]
theorem max_row : Row (fun x y => if x.slt y then y else x) fun x y _ _ => if x < y then y else x := fun x y => by
  simp only [BitVec.slt_iff_toInt_lt, apply_ite wrap, wrap_toInt]
theorem minu_row : Row (fun x y => if x.ult y then x else y) fun _ _ x y => (Nat.min x y : Nat) := fun x y => by
  show _ = wrap ((min x.toNat y.toNat : Nat) : Int)
  simp only [BitVec.ult_iff_lt, min_def_lt, BitVec.lt_def, apply_ite Nat.cast, apply_ite wrap, wrap_toNat]
theorem maxu_row : Row (fun x y => if x.ult y then y else x) fun _ _ x y => (Nat.max x y : Nat) := fun x y => by
  show _ = wrap ((max x.toNat y.toNat : Nat) : Int)
  simp only [BitVec.ult_iff_lt, max_def_lt, BitVec.lt_def, apply_ite Nat.cast, apply_ite wrap, wrap_toNat]

theorem mul_row : Row (fun x y => x * y) fun x y _ _ => x * y := fun x y => by
  rw [wrap_mul, wrap_toInt, wrap_toInt]
theorem mulh_row : Row mulHi fun x y _ _ => x * y / 2 ^ 64 := fun _ _ => rfl
theorem mulhu_row : Row mulHiU fun _ _ x y => (x * y / 2 ^ 64 : Nat) := fun _ _ => (wrap_natCast _).symm

theorem eq_zero_iff_toInt (y : Word) : y = 0 ↔ y.toInt = 0 := by rw [← BitVec.toInt_inj]; rfl
theorem eq_zero_iff_toNat (y : Word) : y = 0 ↔ y.toNat = 0 := by rw [← BitVec.toNat_inj]; rfl
theorem div_row : Row divS fun x y _ _ => if y = 0 then -1 else truncDiv x y := fun x y => by
  simp only [divS, eq_zero_iff_toInt, apply_ite wrap]; rfl
theorem divu_row : Row divU fun _ _ x y => if y = 0 then 2 ^ 64 - 1 else (x / y : Nat) := fun x y => by
  simp only [divU, eq_zero_iff_toNat, apply_ite wrap, wrap_natCast]; rfl
theorem rem_row : Row remS fun x y _ _ => if y = 0 then x else x - y * truncDiv x y := fun x y => by
  simp only [remS, eq_zero_iff_toInt, truncDiv, ← Int.tmod_def, apply_ite wrap, wrap_toInt]; rfl
theorem remu_row : Row remU fun _ _ x y => if y = 0 then x else (x : Int) - y * (x / y : Nat) := fun x y => by
  have h : (x.toNat : Int) - y.toNat * (x.toNat / y.toNat : Nat) = (x.toNat % y.toNat : Nat) := by
    rw [Int.natCast_mod, Int.natCast_div, Int.emod_def]
  simp only [remU, eq_zero_iff_toNat, h, ← wrap_natCast, apply_ite wrap, wrap_toNat]

/-- The ones among the low bits, as a list of their places. -/
theorem popLow_eq (x n : Nat) : popLow x n = ((List.range n).filter fun j => x.testBit j).length := by
  induction n with
  | zero => rfl
  | succ n ih =>
    rw [popLow, ih, List.range_succ, List.filter_append, List.length_append, ← Nat.toNat_testBit]
    cases h : x.testBit n <;> simp [h]
theorem onesOf_eq (x : Word) : onesOf x = wrap (ones x) := by
  rw [wrap_natCast, onesOf, popLow_eq]; rfl

/-- A number's leading one stands just below its bit length. -/
theorem testBit_of_bitLen {n i : Nat} (h : bitLen n = i + 1) : n.testBit i = true := by
  unfold bitLen at h
  split at h
  · cases h
  · next h0 =>
    obtain rfl : i = n.log2 := by omega
    exact Nat.testBit_log2 h0
theorem testBit_of_bitLen_le {n i : Nat} (h : bitLen n ≤ i) : n.testBit i = false := by
  unfold bitLen at h
  split at h
  · next h0 => simp [h0]
  · exact Nat.testBit_lt_two_pow (Nat.lt_log2_self.trans_le (Nat.pow_le_pow_right (by omega) h))
theorem bitLen_le (x : Word) : bitLen x.toNat ≤ 64 := by
  unfold bitLen
  split
  · omega
  · next h0 => exact (Nat.log2_lt h0).mpr x.isLt

/-- The length of the first run of a property among 0 .. n - 1. -/
theorem length_takeWhile_range {p : Nat → Bool} {k n : Nat} (hk : k ≤ n) (hp : ∀ j < k, p j = true)
    (hn : k < n → p k = false) : ((List.range n).takeWhile p).length = k := by
  obtain ⟨m, rfl⟩ := Nat.exists_eq_add_of_le hk
  rw [List.range_add, List.takeWhile_append_of_pos (by simpa using hp)]
  cases m with
  | zero => simp
  | succ m => simp [List.range_succ_eq_map, hn (by omega)]
theorem leadZeros_eq (x : Word) : leadZeros x = wrap (leading x) := by
  have hb := bitLen_le x
  have h : leading x = 64 - bitLen x.toNat := by
    refine length_takeWhile_range (by omega) (fun j hj => ?_) fun hj => ?_
    · rw [← BitVec.testBit_toNat, testBit_of_bitLen_le (by omega)]; rfl
    · rw [← BitVec.testBit_toNat, testBit_of_bitLen (by omega)]; rfl
  rw [h, wrap_natCast, leadZeros]

theorem shift_toNat (n : BitVec 6) : (wrap n.toNat).toNat = n.toNat := wrap_natCast_toNat (by omega)

theorem upper20_eq (i : BitVec 20) : upper20 i = wrap (sext i * 2 ^ 14) := by
  rw [wrap_mul, upper20, BitVec.shiftLeft_eq_mul_twoPow]; rfl
/-- The start of the 16 KiB block of an address. -/
theorem block_eq (x : Word) : x >>> 14 <<< 14 = wrap (x.toNat - x.toNat % 2 ^ 14 : Nat) := by
  apply BitVec.eq_of_toNat_eq
  rw [wrap_natCast_toNat (by omega), BitVec.toNat_shiftLeft, BitVec.toNat_ushiftRight, Nat.shiftRight_eq_div_pow,
    Nat.shiftLeft_eq]
  omega

/-! ### The next try of a scalar instruction -/

@[simp] theorem resuming_g (s : State) (r : GReg) : s.resuming.g r = s.g r := by
  unfold State.resuming; split <;> rfl
@[simp] theorem resuming_st_pc (s : State) : s.resuming.st.pc = s.st.pc := by
  unfold State.resuming; split <;> rfl
@[simp] theorem resuming_st_vq (s : State) : s.resuming.st.vq = s.st.vq := by
  unfold State.resuming; split <;> rfl
@[simp] theorem resuming_st_ctl (s : State) : s.resuming.st.ctl = s.st.ctl := by
  unfold State.resuming; split <;> rfl
@[simp] theorem resuming_maskCount (s : State) (m : MReg) (vl : Nat) : s.resuming.maskCount m vl = s.maskCount m vl := by
  unfold State.resuming; split <;> rfl

/-- A scalar instruction that names registers no queue entry writes does not wait in its next try (R83). -/
theorem hazard_resuming {s : State} {gs : List GReg} {fs : List FReg} (h : regsFree s gs fs) :
    hazard gs fs s.resuming = .ok () s.resuming :=
  hazard_ok (by rwa [resuming_st_vq])
/-- Where it does wait, it waits for the queue with the state as it was. -/
theorem hazard_cases (gs : List GReg) (fs : List FReg) (s : State) :
    hazard gs fs s = .ok () s ∨ hazard gs fs s = .error (.wait .queue) s := by
  unfold hazard
  simp only [M.get_bind]
  split
  · exact .inl rfl
  · split
    · exact .inr rfl
    · exact .inl rfl

/-! ### What an integer instruction is -/

/-- The wait for the registers an integer instruction names, and its one register write. -/
def writeInt (o : IntOp) : M Unit := do
  hazard o.regs []
  modify fun s => s.setG o.dst o.val

theorem writeInt_ok {s : State} {o : IntOp} (h : hazard o.regs [] s = .ok () s) : writeInt o s = .ok () (s.setG o.dst o.val) := by
  rw [writeInt, M.bind_ok h]; rfl
theorem writeInt_wait {s : State} {o : IntOp} (h : hazard o.regs [] s = .error (.wait .queue) s) :
    writeInt o s = .error (.wait .queue) s := M.bind_error h

/-- The value that is written after the wait may be told from the state before it. -/
theorem runScalar_writeInt {s : State} {f : State → State} {gs : List GReg} {d : GReg} {x : Word}
    (h : f s.resuming = s.resuming.setG d x) :
    runScalar s (do hazard gs []; modify f) = runScalar s (writeInt ⟨gs, d, x⟩) := by
  rcases hazard_cases gs [] s.resuming with hz | hz
  · have hf : (do hazard gs []; modify f : M Unit) s.resuming = .ok () (s.resuming.setG d x) := by
      rw [M.bind_ok hz, M.modify_run, h]
    rw [runScalar_ok hf, runScalar_ok (writeInt_ok hz)]
  · rw [runScalar_wait (M.bind_error hz), runScalar_wait (writeInt_wait hz)]

theorem runScalar_intRR {s : State} {d a b : GReg} {f : Word → Word → Word} {F : Int → Int → Nat → Nat → Int} {o : IntOp}
    (hf : Row f F) (h : rr s d a b F = some o) : runScalar s (intRR f d a b) = runScalar s (writeInt o) := by
  cases h
  exact runScalar_writeInt (by simp only [resuming_g, hf (s.g a)])
theorem runScalar_intR {s : State} {d a : GReg} {f : Word → Word} {o : IntOp} (h : some ⟨[d, a], d, f (s.g a)⟩ = some o) :
    runScalar s (intR f d a) = runScalar s (writeInt o) := by
  cases h
  exact runScalar_writeInt (by simp only [resuming_g])
/-- An operation on a register and a constant pattern. -/
theorem runScalar_intRI {s : State} {d a : GReg} {y : Word} {f : Word → Word} {F : Int → Int → Nat → Nat → Int} {o : IntOp}
    (hf : ∀ x, f x = wrap (F x.toInt y.toInt x.toNat y.toNat)) (h : ri s d a y F = some o) :
    runScalar s (intR f d a) = runScalar s (writeInt o) :=
  runScalar_intR (hf (s.g a) ▸ h)
theorem runScalar_intC {s : State} {d : GReg} {f : State → Word} {o : IntOp} (h : some ⟨[d], d, f s.resuming⟩ = some o) :
    runScalar s (intC f d) = runScalar s (writeInt o) := by
  cases h
  exact runScalar_writeInt rfl

/-- Every integer instruction waits for its registers and writes the result of its row (R85, R86, R87). -/
theorem exec_intOp {i : Instr} {s : State} {o : IntOp} (h : intOp s i = some o) : exec i s = runScalar s (writeInt o) := by
  unfold intOp at h
  split at h
  · exact runScalar_intRR add_row h
  · exact runScalar_intRR sub_row h
  · exact runScalar_intRR and_row h
  · exact runScalar_intRR or_row h
  · exact runScalar_intRR xor_row h
  · exact runScalar_intRR sll_row h
  · exact runScalar_intRR srl_row h
  · exact runScalar_intRR sra_row h
  · exact runScalar_intRR slt_row h
  · exact runScalar_intRR sltu_row h
  · exact runScalar_intRR min_row h
  · exact runScalar_intRR max_row h
  · exact runScalar_intRR minu_row h
  · exact runScalar_intRR maxu_row h
  · exact runScalar_intRR mul_row h
  · exact runScalar_intRR mulh_row h
  · exact runScalar_intRR mulhu_row h
  · exact runScalar_intRR div_row h
  · exact runScalar_intRR divu_row h
  · exact runScalar_intRR rem_row h
  · exact runScalar_intRR remu_row h
  · exact runScalar_intR (leadZeros_eq _ ▸ h)
  · exact runScalar_intR (onesOf_eq _ ▸ h)
  · exact runScalar_intRI (fun x => by rw [shift_toNat]; exact shL_eq_wrap x _) h
  · exact runScalar_intRI (fun x => by rw [shift_toNat]; exact shR_eq_wrap x _) h
  · exact runScalar_intRI (fun x => by rw [shift_toNat]; exact shA_eq_wrap x _) h
  · exact runScalar_intRI (fun x => add_row x _) h
  · exact runScalar_intRI (fun x => and_row x _) h
  · exact runScalar_intRI (fun x => or_row x _) h
  · exact runScalar_intRI (fun x => xor_row x _) h
  · exact runScalar_intRI (fun x => slt_row x _) h
  · exact runScalar_intRI (fun x => sltu_row x _) h
  · refine runScalar_intC (f := fun _ => upper20 _) ?_
    rw [← h, upper20_eq]
  · refine runScalar_intC (f := fun s => (s.st.pc >>> 14 <<< 14) + upper20 _) ?_
    rw [← h, resuming_st_pc, block_eq, upper20_eq, wrap_add]
  · cases h

/-! ### What retiring counts and forgets (R83, R252, R371) -/

/-- Two states that differ in counters at most, of their units; every core keeps its translation cache. -/
def SameButCounters (s t : State) : Prop := s.SameButUnits t ∧ ∀ k, (t.coreOf k).tlb = (s.coreOf k).tlb

theorem SameButCounters.trans {s t u : State} (h : SameButCounters s t) (k : SameButCounters t u) : SameButCounters s u :=
  ⟨h.1.trans k.1, fun c => (k.2 c).trans (h.2 c)⟩
theorem SameButCounters.mapDie (s : State) (d : DieNo) (f : Die → Die) : SameButCounters s (s.mapDie d f) :=
  ⟨.mapDie s d f, fun _ => rfl⟩
theorem SameButCounters.mapSect (s : State) (x : Fin 32) (f : Sect → Sect) : SameButCounters s (s.mapSect x f) :=
  ⟨.mapSect s x f, fun _ => rfl⟩
theorem SameButCounters.mapCore (s : State) (c : Nat) {f : Core → Core} (hf : ∀ x, (f x).tlb = x.tlb) :
    SameButCounters s (s.mapCore c f) := by
  refine ⟨.mapCore s c f, fun k => ?_⟩
  rw [State.mapCore, State.setCore_coreOf]
  split
  · next h => rw [hf, h]
  · rfl

/-- Counting lines changes counters, and takes the lines as counted. -/
theorem countLines_counters (s : State) : ∃ t q, SameButCounters s t ∧
    s.countLines = { t with st := { t.st with lines := [], counted := q } } := by
  unfold State.countLines
  refine ⟨_, _, ?_, rfl⟩
  refine foldl_keeps (fun t => SameButCounters s t) _ _ _ ?_ ?_
  · dsimp only
    split
    · exact .mapDie ..
    · exact .trans (.mapDie ..) (.mapCore _ _ fun _ => rfl)
  · intro t sec ht
    dsimp only
    split
    · exact ht
    · exact ht.trans (.mapSect ..)

/-- What is left of an owner's accesses: none that it began, and no answer that no request stands for. -/
theorem dropAnswers_left (s : State) (owner : Nat) : ∃ (b : List Begun) (r : List Remote),
    s.dropAnswers owner = { s with st := { s.st with begun := b, remote := r } } ∧ (s.st.remote = [] → r = []) ∧
    ∀ a ∈ b, a ∈ s.st.begun ∧ a.owner ≠ owner := by
  unfold State.dropAnswers
  split
  · next h =>
    exact ⟨_, _, rfl, id, by simp [h.2]⟩
  · exact ⟨_, _, rfl, fun h => by simp [h], by simp⟩

theorem retireOnlyCounts : RetireOnlyCounts := by
  intro s pc
  have h : ∃ t q, SameButCounters s t ∧ (s.st.lines = [] → t = s) ∧
      (if s.st.lines = [] then s else s.countLines) = { t with st := { t.st with lines := [], counted := q } } := by
    split
    · next hl => exact ⟨s, s.st.counted, ⟨.refl s, fun _ => rfl⟩, fun _ => rfl, by rw [← hl]⟩
    · next hl =>
      obtain ⟨t, q, ht, hq⟩ := countLines_counters s
      exact ⟨t, q, ht, fun h => absurd h hl, hq⟩
  obtain ⟨t, q, ⟨⟨d, c, x, rfl⟩, htlb⟩, hsame, hcount⟩ := h
  obtain ⟨b, r, hdrop, hr, hb⟩ := dropAnswers_left
    ({ s with dies := d, cores := c, sects := x, st := { s.st with lines := [], counted := q } } : State) 0
  refine ⟨d, c, x, b, r, ?_, htlb, hr, hb, fun hl => ?_⟩
  · unfold State.retire
    rw [hcount, hdrop]
  · have := hsame hl
    exact ⟨congrArg State.dies this, congrArg State.cores this, congrArg State.sects this⟩

/-! ### What an integer instruction leaves as it was (R83, R85) -/

/-- Registers, flags, control, trap and mode registers, streams, groups, claims, replay buffer and memory are as they were. -/
def SameArch (s t : State) : Prop :=
  t.st.regs = s.st.regs ∧ sameSystem s t ∧ t.mem = s.mem ∧ t.onchip = s.onchip

theorem SameArch.resuming (s : State) : SameArch s s.resuming := by
  unfold State.resuming
  split <;> exact ⟨rfl, ⟨rfl, rfl, rfl, rfl, rfl, rfl, rfl⟩, rfl, rfl⟩
theorem SameArch.retire (s : State) (pc : Word) : SameArch s (s.retire pc) := by
  obtain ⟨d, c, x, b, r, h⟩ := s.retire_frame pc
  rw [h]
  exact ⟨rfl, ⟨rfl, rfl, rfl, rfl, rfl, rfl, rfl⟩, rfl, rfl⟩
theorem SameArch.waiting (s : State) (w : Wait) : SameArch s (s.waiting w) := by
  unfold State.waiting
  dsimp only
  split
  · exact ⟨rfl, ⟨rfl, rfl, rfl, rfl, rfl, rfl, rfl⟩, rfl, rfl⟩
  · obtain ⟨d, c, x, q, h⟩ := s.countLines_counts
    rw [h]
    exact ⟨rfl, ⟨rfl, rfl, rfl, rfl, rfl, rfl, rfl⟩, rfl, rfl⟩

/-- No register changes but one integer register, and nothing else that `SameArch` names. -/
def OnlyG (d : GReg) (s t : State) : Prop :=
  sameG s t [d] ∧ sameF s t [] ∧ sameV s t [] ∧ sameM s t [] ∧ sameSystem s t ∧ sameMem s t

theorem SameArch.onlyG {s t : State} (h : SameArch s t) (d : GReg) : OnlyG d s t := by
  obtain ⟨hr, hs, hm, ho⟩ := h
  refine ⟨fun r _ => ?_, fun r _ => ?_, fun r _ e => ?_, fun r _ e => ?_, hs, fun a => by rw [hm], fun a => by rw [ho]⟩
  · rw [State.g, State.g, hr]
  · rw [State.f, State.f, hr]
  · rw [State.v, State.v, hr]
  · rw [State.mbit, State.mbit, hr]
theorem OnlyG.trans {d : GReg} {s t u : State} (h : OnlyG d s t) (k : OnlyG d t u) : OnlyG d s u := by
  obtain ⟨hg, hf, hv, hm, ⟨h1, h2, h3, h4, h5, h6, h7⟩, hmem, hon⟩ := h
  obtain ⟨kg, kf, kv, km, ⟨k1, k2, k3, k4, k5, k6, k7⟩, kmem, kon⟩ := k
  exact ⟨fun r n => (kg r n).trans (hg r n), fun r n => (kf r n).trans (hf r n), fun r n e => (kv r n e).trans (hv r n e),
    fun r n e => (km r n e).trans (hm r n e),
    ⟨k1.trans h1, k2.trans h2, k3.trans h3, k4.trans h4, k5.trans h5, k6.trans h6, k7.trans h7⟩,
    fun a => (kmem a).trans (hmem a), fun a => (kon a).trans (hon a)⟩
theorem OnlyG.setG (s : State) (d : GReg) (x : Word) : OnlyG d s (s.setG d x) := by
  refine ⟨fun r hr => State.g_setG_other s d r x (by simpa using hr), fun r _ => State.setG_f .., fun r _ e => State.setG_v ..,
    fun r _ e => State.setG_mbit .., ?_⟩
  unfold State.setG
  split <;> exact ⟨⟨rfl, rfl, rfl, rfl, rfl, rfl, rfl⟩, fun _ => rfl, fun _ => rfl⟩

/-! ### The statement about the integer instructions -/

theorem integerResults : IntegerResults := by
  intro i s o h hq
  rw [exec_intOp h]
  exact runScalar_ok (writeInt_ok (hazard_resuming hq))

theorem integerFrame : IntegerFrame := by
  intro i s t o h ht
  rw [exec_intOp h] at ht
  have hs := (SameArch.resuming s).onlyG o.dst
  rcases hazard_cases o.regs [] s.resuming with hz | hz
  · rw [runScalar_ok (writeInt_ok hz)] at ht
    cases ht
    exact (hs.trans (.setG ..)).trans ((SameArch.retire ..).onlyG _)
  · rw [runScalar_wait (writeInt_wait hz)] at ht
    cases ht
    exact hs.trans ((SameArch.waiting ..).onlyG _)

/-- Settles O1: every integer instruction is a wait for its registers and one write of the wrapped result of its row. -/
theorem integerInstructions : Obligations.IntegerInstructions := ⟨integerResults, integerFrame, retireOnlyCounts⟩

/-! ### Branches and jumps (R93, R94, R95) -/

/-- The address a taken branch goes on at, and the next instruction's, in the next try as before it. -/
theorem resuming_relPc {n : Nat} (s : State) (o : BitVec n) : s.resuming.relPc (o.signExtend 64) = target s (sext o) := by
  rw [State.relPc, resuming_st_pc, target, wrap_add, wrap_mul, wrap_toNat, mul_comm]; rfl
theorem resuming_nextPc (s : State) : s.resuming.nextPc = Claim.next s := by
  rw [State.nextPc, resuming_st_pc, Claim.next, wrap_add, wrap_toNat]; rfl
/-- Bits [1:0] of an address cleared. -/
theorem clear_low_eq (x : Word) : x >>> 2 <<< 2 = wrap (4 * (x.toNat / 4 : Nat)) := by
  rw [show (4 * (x.toNat / 4 : Nat) : Int) = (4 * (x.toNat / 4) : Nat) by simp]
  apply BitVec.eq_of_toNat_eq
  rw [wrap_natCast_toNat (by omega), BitVec.toNat_shiftLeft, BitVec.toNat_ushiftRight, Nat.shiftRight_eq_div_pow,
    Nat.shiftLeft_eq]
  omega

/-- A mask branch whose mask no queue entry writes does not wait in its next try (R94). -/
theorem maskHazard_resuming {s : State} {m : MReg} (h : maskFree s (some m)) : maskHazard m s.resuming = .ok () s.resuming := by
  unfold maskHazard
  rw [M.get_bind, resuming_st_vq, if_neg]
  · rfl
  · rw [Bool.not_eq_true, List.any_eq_false]
    intro e he
    simpa using h m rfl e he

/-- What a branch or jump does once it does not wait: it links and goes on. -/
def goes (s : State) (j : Jump) : Out :=
  .next ((match j.link with | some d => s.resuming.setG d (Claim.next s) | none => s.resuming).retire j.dest)

/-- A compare branch whose condition is p (R93). -/
theorem runJump_branch {s : State} {a b : GReg} {o : BitVec 14} {c : Word → Word → Bool} {p : Bool} {j : Jump}
    (hp : c (s.g a) (s.g b) = p) (h : cmpJump s a b o p = some j) (hq : regsFree s j.regs []) :
    runJump s (branch c a b o) = goes s j := by
  cases h
  refine runJump_ok ?_
  rw [branch, M.bind_ok (hazard_resuming hq), M.get_bind, resuming_g, resuming_g, hp, resuming_relPc, resuming_nextPc]
  rfl
/-- A mask branch whose condition on the ones below VL is p (R94). -/
theorem runJump_maskBranch {s : State} {m : MReg} {o : BitVec 14} {c : Nat → Nat → Bool} {p : Bool} {j : Jump}
    (hp : c (maskOnes s m) s.st.ctl.vl = p) (h : maskJump s m o p = some j) (hq : maskFree s j.mask) :
    runJump s (maskBranch c m o) = goes s j := by
  cases h
  refine runJump_ok ?_
  have hc : c (s.resuming.maskCount m s.resuming.st.ctl.vl) s.resuming.st.ctl.vl = p := by
    rw [resuming_maskCount, resuming_st_ctl]; exact hp
  rw [maskBranch, M.bind_ok (maskHazard_resuming hq), M.get_bind, hc, resuming_relPc, resuming_nextPc]
  rfl
theorem execJmp_goes {s : State} {o : BitVec 26} : execJmp o s = goes s ⟨[], none, none, target s (sext o)⟩ :=
  runJump_ok (by rw [M.get_bind, resuming_relPc]; rfl)
theorem execJal_goes {s : State} {o : BitVec 26} (hq : regsFree s [31] []) :
    execJal o s = goes s ⟨[31], none, some 31, target s (sext o)⟩ :=
  runJump_ok (by rw [M.bind_ok (hazard_resuming hq), M.get_bind, M.set_bind, resuming_relPc, resuming_nextPc]; rfl)
/-- jr reads ga before it writes gd (R95). -/
theorem execJr_goes {s : State} {d a : GReg} {i : BitVec 14} (hq : regsFree s [d, a] []) :
    execJr d a i s = goes s ⟨[d, a], none, some d, wrap (4 * ((wrap ((s.g a).toInt + sext i)).toNat / 4 : Nat))⟩ := by
  have ha : wrap ((s.g a).toInt + sext i) = s.g a + i.signExtend 64 := by rw [wrap_add, wrap_toInt]; rfl
  rw [ha, ← clear_low_eq]
  exact runJump_ok (by rw [M.bind_ok (hazard_resuming hq), M.get_bind, M.set_bind, resuming_g, resuming_nextPc]; rfl)

/-- Every branch or jump that does not wait goes on at its address (R93, R94, R95). -/
theorem exec_jump {i : Instr} {s : State} {j : Jump} (h : jump s i = some j) (hq : regsFree s j.regs [])
    (hm : maskFree s j.mask) : exec i s = goes s j := by
  unfold jump at h
  split at h
  · exact runJump_branch rfl h hq
  · exact runJump_branch (by rw [bne, decide_not]; rfl) h hq
  · exact runJump_branch BitVec.slt_eq_decide h hq
  · exact runJump_branch (by simp only [BitVec.slt_eq_decide, ← decide_not, not_lt]) h hq
  · exact runJump_branch BitVec.ult_eq_decide h hq
  · exact runJump_branch (by simp only [BitVec.ult_eq_decide, ← decide_not, not_lt]) h hq
  · exact runJump_maskBranch rfl h hm
  · exact runJump_maskBranch (by rw [bne, decide_not]; rfl) h hm
  · exact runJump_maskBranch rfl h hm
  · cases h; exact execJmp_goes
  · cases h; exact execJal_goes hq
  · cases h; exact execJr_goes hq
  · cases h

/-- Settles O2: each branch is its condition on the registers or the mask, each jump its link and its target. -/
theorem branchTargets : Obligations.BranchTargets := fun _ _ _ h hq hm => exec_jump h hq hm

end Sys2Proof.Proofs.ScalarIsa
end
